-- ==== Sys2Proof/Word.lean ====
section
/-! DEFINITION. The word types of Tlavik and the plainest reading of bit fields and bytes (R5, R16, R171). -/

namespace Sys2Proof

/-- A scalar register, a lane element or an S32 word. -/
abbrev Word := BitVec 32

/-- A virtual address, a scalar pair or a system register. -/
abbrev DWord := BitVec 64

/-- One byte of memory. -/
abbrev Byte := BitVec 8

/-- An L96 lane word (R23). -/
abbrev LBits := BitVec 96

/-- A set of lanes, bit L for lane L (R4). -/
abbrev Mask := BitVec 32

/-- The full lane mask of a group. -/
def Mask.full : Mask := BitVec.allOnes 32

/-- Bits [hi:lo] of `n`, as a number (R5). -/
def bitsNat (n hi lo : Nat) : Nat := n / 2 ^ lo % 2 ^ (hi + 1 - lo)

/-- The lanes of a group in increasing order. -/
def lanes : List Nat := List.range 32

end Sys2Proof
end

