-- ==== Sys2Proof/Syntax.lean ====
section
/-! DEFINITION. The syntax of Tlavik: one constructor of Instr for each row of the opcode table. The scalar words (R18-R22)
carry the fields the table names, the lane words carry the whole field record of R23, and the steps without an
encoding carry the names of what they act on. -/

namespace Sys2Proof

/-- One split of a group: a core of the package, a group slot of the core (R305), an index 0-7 (R314). -/
structure Agent where
  core : Nat
  slot : Nat
  split : Nat
deriving DecidableEq, Repr, Inhabited

/-- The classes by which L1 keeps clean copies apart (R115), with the instruction cache of R38 as its own class. -/
inductive PathClass where
  | generic
  | readOnly
  | compressed
  | instruction
deriving DecidableEq, Repr, Inhabited

/-- What a line copy of the Transit engine meets (R87, R88). -/
inductive CopyError where
  | clean
  | sourceBad
  | destBad
deriving DecidableEq, Repr, Inhabited

/-- The fields of an L96 lane word other than OP (R23). -/
structure LaneWord where
  sw   : Bool
  fn   : BitVec 4
  pred : BitVec 3
  pn   : Bool
  d    : BitVec 10
  a    : BitVec 10
  xa   : BitVec 8
  b    : BitVec 10
  xb   : BitVec 8
  c    : BitVec 10
  xc   : BitVec 8
  rm   : BitVec 3
  fs   : BitVec 3
  mod  : BitVec 10
deriving DecidableEq, Repr, Inhabited

/-- The instructions of Tlavik and the steps of its units, one constructor per row of the opcode table. -/
inductive Instr where
  /-- BR (R281). -/
  | br (off : BitVec 22)
  /-- BRC (R281). -/
  | brc (p : BitVec 3) (n : Bool) (off : BitVec 22)
  /-- BRV (R286). -/
  | brv (p : BitVec 3) (n : Bool) (tgt : BitVec 11) (join : BitVec 11)
  /-- CALL (R281). -/
  | call (off : BitVec 22)
  /-- RET (R281). -/
  | ret (a : BitVec 6)
  /-- EXIT (R9). -/
  | exit
  /-- LOOP (R283). -/
  | loop (cnt : BitVec 10) (fin : BitVec 16)
  /-- LOOPR (R283). -/
  | loopr (r : BitVec 6) (fin : BitVec 16)
  /-- LBRK (R285). -/
  | lbrk
  /-- LRUN (R7). -/
  | lrun (cnt : BitVec 10)
  /-- LJMP (R281). -/
  | ljmp (off : BitVec 22)
  /-- SADD (R278). -/
  | sadd (d a b : BitVec 6) (imm : Bool)
  /-- SSUB (R278). -/
  | ssub (d a b : BitVec 6) (imm : Bool)
  /-- SMUL (R278). -/
  | smul (d a b : BitVec 6) (imm : Bool)
  /-- SMULH (R278). -/
  | smulh (d a b : BitVec 6) (imm : Bool) (uns : Bool)
  /-- SAND (R278). -/
  | sand (d a b : BitVec 6) (imm : Bool)
  /-- SOR (R278). -/
  | sor (d a b : BitVec 6) (imm : Bool)
  /-- SXOR (R278). -/
  | sxor (d a b : BitVec 6) (imm : Bool)
  /-- SSHL (R278). -/
  | sshl (d a b : BitVec 6) (imm : Bool)
  /-- SSHR (R278). -/
  | sshr (d a b : BitVec 6) (imm : Bool)
  /-- SSRA (R278). -/
  | ssra (d a b : BitVec 6) (imm : Bool)
  /-- SMIN (R278). -/
  | smin (d a b : BitVec 6) (imm : Bool) (uns : Bool)
  /-- SMAX (R278). -/
  | smax (d a b : BitVec 6) (imm : Bool) (uns : Bool)
  /-- SCMP (R278). -/
  | scmp (d a b : BitVec 6) (imm : Bool) (cond : BitVec 3) (uns : Bool)
  /-- SSEL (R278). -/
  | ssel (d a b : BitVec 6)
  /-- SMOVI (R278). -/
  | smovi (d : BitVec 6) (imm14 : BitVec 14)
  /-- SLUI (R278). -/
  | slui (d : BitVec 6) (imm14 : BitVec 14)
  /-- SLEA (R278). -/
  | slea (d : BitVec 6) (off : BitVec 20)
  /-- SLD (R279). -/
  | sld (d a : BitVec 6) (imm14 : BitVec 14)
  /-- SST (R279). -/
  | sst (d a : BitVec 6) (imm14 : BitVec 14)
  /-- SGET (R280). -/
  | sget (d : BitVec 6) (item : BitVec 8)
  /-- SSET (R280). -/
  | sset (a : BitVec 6) (item : BitVec 8)
  /-- AMOV (R166). -/
  | amov (d a : BitVec 6) (imm14 : BitVec 14)
  /-- AADD (R166). -/
  | aadd (d b : BitVec 6) (imm : Bool)
  /-- AADDA (R166). -/
  | aadda (d a b : BitVec 6) (imm : Bool)
  /-- ASCL (R166). -/
  | ascl (d b : BitVec 6) (imm : Bool)
  /-- ASHL (R166). -/
  | ashl (d b : BitVec 6) (imm : Bool)
  /-- ASTR (R166). -/
  | astr (d b : BitVec 6) (imm : Bool)
  /-- AGET (R166). -/
  | aget (d a : BitVec 6) (str : Bool)
  /-- REGGROW (R152). -/
  | reggrow (b : BitVec 6) (imm try_ : Bool)
  /-- REGSHRINK (R152). -/
  | regshrink (b : BitVec 6) (imm : Bool)
  /-- IDEMB (R304). -/
  | idemb
  /-- IDEME (R304). -/
  | ideme
  /-- PHINIT (R256). -/
  | phinit (a b : BitVec 6)
  /-- PHROLE (R257). -/
  | phrole (a : BitVec 6) (src dst : BitVec 2)
  /-- PHARR (R258). -/
  | pharr (d a : BitVec 6)
  /-- PHWAIT (R259). -/
  | phwait (d a b : BitVec 6) (try_ : Bool)
  /-- PHFREE (R260). -/
  | phfree (a : BitVec 6)
  /-- EVPOP (R143). -/
  | evpop (d : BitVec 6) (try_ : Bool)
  /-- EVPOST (R144). -/
  | evpost (a : BitVec 6)
  /-- LAUNCH (R301). -/
  | launch (d a : BitVec 6) (try_ : Bool)
  /-- CANCEL (R303). -/
  | cancel (a : BitVec 6) (byHandle : Bool) (level : BitVec 3)
  /-- SNOP (R292). -/
  | snop
  /-- CCNT (R302). -/
  | ccnt (d a : BitVec 6) (byHandle : Bool) (level : BitVec 3)
  /-- XCOPY (R128). -/
  | xcopy (d a : BitVec 6)
  /-- XGATH (R128). -/
  | xgath (d a : BitVec 6)
  /-- XSCAT (R128). -/
  | xscat (d a : BitVec 6)
  /-- XRED (R131). -/
  | xred (d a : BitVec 6)
  /-- MHINT (R76). -/
  | mhint (a : BitVec 6) (tier : BitVec 2)
  /-- HEATR (R94). -/
  | heatr (d a : BitVec 6) (region : Bool)
  /-- TRAP (R292). -/
  | trap (code : BitVec 8)
  /-- TRET (R320). -/
  | tret
  /-- SYSR (R293). -/
  | sysr (d a : BitVec 6)
  /-- SYSW (R293). -/
  | sysw (d a : BitVec 6)
  /-- BKPT (R292). -/
  | bkpt (code : BitVec 8)
  /-- YIELD (R308). -/
  | yield
  /-- IADD (R189). -/
  | iadd (w : LaneWord)
  /-- ISUB (R189). -/
  | isub (w : LaneWord)
  /-- IMUL (R189). -/
  | imul (w : LaneWord)
  /-- IMULH (R189). -/
  | imulh (w : LaneWord)
  /-- IMAD (R189). -/
  | imad (w : LaneWord)
  /-- IMADW (R191). -/
  | imadw (w : LaneWord)
  /-- IADDX (R191). -/
  | iaddx (w : LaneWord)
  /-- IMIN (R189). -/
  | imin (w : LaneWord)
  /-- IMAX (R189). -/
  | imax (w : LaneWord)
  /-- IABS (R189). -/
  | iabs (w : LaneWord)
  /-- AND (R189). -/
  | and (w : LaneWord)
  /-- OR (R189). -/
  | or (w : LaneWord)
  /-- XOR (R189). -/
  | xor (w : LaneWord)
  /-- ANDN (R189). -/
  | andn (w : LaneWord)
  /-- SHL (R189). -/
  | shl (w : LaneWord)
  /-- SHR (R189). -/
  | shr (w : LaneWord)
  /-- SRA (R189). -/
  | sra (w : LaneWord)
  /-- ROT (R189). -/
  | rot (w : LaneWord)
  /-- BFX (R192). -/
  | bfx (w : LaneWord)
  /-- BFI (R192). -/
  | bfi (w : LaneWord)
  /-- POPC (R189). -/
  | popc (w : LaneWord)
  /-- CLZ (R189). -/
  | clz (w : LaneWord)
  /-- ICMP (R193). -/
  | icmp (w : LaneWord)
  /-- FADD (R197). -/
  | fadd (w : LaneWord)
  /-- FSUB (R197). -/
  | fsub (w : LaneWord)
  /-- FMUL (R197). -/
  | fmul (w : LaneWord)
  /-- FFMA (R197). -/
  | ffma (w : LaneWord)
  /-- FMIN (R198). -/
  | fmin (w : LaneWord)
  /-- FMAX (R198). -/
  | fmax (w : LaneWord)
  /-- FCMP (R198). -/
  | fcmp (w : LaneWord)
  /-- FRCP (R197). -/
  | frcp (w : LaneWord)
  /-- FRSQ (R197). -/
  | frsq (w : LaneWord)
  /-- FEXP2 (R197). -/
  | fexp2 (w : LaneWord)
  /-- FLOG2 (R197). -/
  | flog2 (w : LaneWord)
  /-- FSCL (R197). -/
  | fscl (w : LaneWord)
  /-- FRND (R197). -/
  | frnd (w : LaneWord)
  /-- FCLASS (R200). -/
  | fclass (w : LaneWord)
  /-- DP4 (R203). -/
  | dp4 (w : LaneWord)
  /-- DP8 (R203). -/
  | dp8 (w : LaneWord)
  /-- DPH2 (R203). -/
  | dph2 (w : LaneWord)
  /-- CVT (R183). -/
  | cvt (w : LaneWord)
  /-- CVTI (R183). -/
  | cvti (w : LaneWord)
  /-- PACK (R184). -/
  | pack (w : LaneWord)
  /-- UNPK (R184). -/
  | unpk (w : LaneWord)
  /-- SEL (R205). -/
  | sel (w : LaneWord)
  /-- PLOG (R206). -/
  | plog (w : LaneWord)
  /-- VOTE (R207). -/
  | vote (w : LaneWord)
  /-- PMOV (R208). -/
  | pmov (w : LaneWord)
  /-- MOV (R209). -/
  | mov (w : LaneWord)
  /-- MOVI (R209). -/
  | movi (w : LaneWord)
  /-- SHUF (R210). -/
  | shuf (w : LaneWord)
  /-- GATH (R211). -/
  | gath (w : LaneWord)
  /-- REDL (R212). -/
  | redl (w : LaneWord)
  /-- SCANL (R212). -/
  | scanl (w : LaneWord)
  /-- MLOOP (R220). -/
  | mloop (w : LaneWord)
  /-- TSTORE (R223). -/
  | tstore (w : LaneWord)
  /-- TMSET (R226). -/
  | tmset (w : LaneWord)
  /-- TMLOG (R226). -/
  | tmlog (w : LaneWord)
  /-- SIGH (R230). -/
  | sigh (w : LaneWord)
  /-- PARC (R231). -/
  | parc (w : LaneWord)
  /-- PCOMP (R232). -/
  | pcomp (w : LaneWord)
  /-- SCAT (R233). -/
  | scat (w : LaneWord)
  /-- PSUM (R233). -/
  | psum (w : LaneWord)
  /-- PLAT (R234). -/
  | plat (w : LaneWord)
  /-- LD (R241). -/
  | ld (w : LaneWord)
  /-- ST (R241). -/
  | st (w : LaneWord)
  /-- LDE (R241). -/
  | lde (w : LaneWord)
  /-- LDL (R244). -/
  | ldl (w : LaneWord)
  /-- STL (R244). -/
  | stl (w : LaneWord)
  /-- PRF (R245). -/
  | prf (w : LaneWord)
  /-- ATOM (R248). -/
  | atom (w : LaneWord)
  /-- ATOMR (R248). -/
  | atomr (w : LaneWord)
  /-- FENCE (R247). -/
  | fence (w : LaneWord)
  /-- LTRAP (R214). -/
  | ltrap (w : LaneWord)
  /-- LNOP (R215). -/
  | lnop (w : LaneWord)
  /-- SPLIT_END (R9). -/
  | splitEnd (ag : Agent)
  /-- JOIN_MERGE (R288). -/
  | joinMerge (core slot brvid : Nat)
  /-- ESCORT_DEPART (R156). -/
  | escortDepart (ag : Agent)
  /-- COMPLETE_LOAD (R266). -/
  | completeLoad (id : Nat)
  /-- COMMIT (R265). -/
  | commit (id : Nat)
  /-- PERFORM (R265). -/
  | perform (id : Nat)
  /-- FILL (R265). -/
  | fill (core : Nat) (cls : PathClass) (ctx : Nat) (va : DWord)
  /-- DROP (R265). -/
  | drop (core : Nat) (cls : PathClass) (ctx : Nat) (va : DWord)
  /-- L1_STORE_TIMEOUT (R117). -/
  | l1StoreTimeout (core : Nat) (va : DWord)
  /-- PROMOTE_PROBE (R269). -/
  | promoteProbe (id : Nat)
  /-- REQUEST_AT_OWNER (R43). -/
  | requestAtOwner (id : Nat)
  /-- SERVICE_GROUP_ATOMIC (R248). -/
  | serviceGroupAtomic (id : Nat) (err : Bool)
  /-- HEAT_DECAY (R72). -/
  | heatDecay (die : Nat)
  /-- TLBSYNC (R52). -/
  | tlbsync (die ctx : Nat) (all : Bool)
  /-- TLBSYNC_COMPLETE (R54). -/
  | tlbsyncComplete (die : Nat)
  /-- RECHECK (R58). -/
  | recheck (die ctx : Nat)
  /-- KEYSET (R65); `die` counts from the own node's die 0, and from 4 on names a peer's (R66). -/
  | keyset (die ctx : Nat)
  /-- KEYCLR (R65); `die` as for KEYSET. -/
  | keyclr (die ctx : Nat)
  /-- MTSTAT_WRITE (R53). -/
  | mtstatWrite (die : Nat) (val : DWord)
  /-- LEASE_REQUEST (R57). -/
  | leaseRequest (launch desc : Nat)
  /-- LEASE_RELEASE (R61). -/
  | leaseRelease (launch : Nat)
  /-- MOVE_ORDER (R74). -/
  | moveOrder (die : Nat)
  /-- CANCEL_ORDER (R363). -/
  | cancelOrder (die : Nat)
  /-- HINT (R76). -/
  | hint (die : Nat)
  /-- COPY_LINE (R82). -/
  | copyLine (die tid : Nat) (err : CopyError)
  /-- MOVE_ABORT (R87). -/
  | moveAbort (die tid : Nat)
  /-- TXRTAIL_WRITE (R93). -/
  | txrtailWrite (die : Nat) (val : DWord)
  /-- FRAME_BOUNDARY (R97). -/
  | frameBoundary
  /-- DRIFT_LOOP_PASS (R101). -/
  | driftLoopPass (die : Nat)
  /-- FLIT_RECEIVE (R105). -/
  | flitReceive (fibre grp : Nat) (seq : Word) (crcOk macOk : Bool)
  /-- FLIT_ACK (R105). -/
  | flitAck (fibre grp : Nat) (seq : Word)
  /-- WAVELENGTH_LOSS (R107). -/
  | wavelengthLoss (fibre grp : Nat) (rx : Bool) (lost : BitVec 16)
  /-- RESTRIPE_NOTICE (R362). -/
  | restripeNotice (fibre grp : Nat)
  /-- LINK_RESTORE (R108). -/
  | linkRestore (fibre grp : Nat) (rx : Bool) (live : BitVec 16)
  /-- PORT_LINK_DOWN (R114). -/
  | portLinkDown (port : Nat)
  /-- HOST_HDM_ACCESS (R113). -/
  | hostHdmAccess (write : Bool) (off : DWord) (data : List Byte)
  /-- JOB_START (R134). -/
  | jobStart (cluster job : Nat)
  /-- JOB_COMPLETE (R137). -/
  | jobComplete (cluster job : Nat)
  /-- EQBASE_WRITE (R139). -/
  | eqbaseWrite (val : DWord)
  /-- EQHEAD_WRITE (R139). -/
  | eqheadWrite (val : DWord)
  /-- REGGROW_RETRY (R152). -/
  | reggrowRetry (core : Nat)
  /-- REGSHRINK_RELEASE (R152). -/
  | regshrinkRelease (ag : Agent)
  /-- MLOOP_ADMIT (R219). -/
  | mloopAdmit (core loop : Nat)
  /-- MLOOP_STEP (R220). -/
  | mloopStep (core loop : Nat)
  /-- ARRAY_WORD_FINISH (R229). -/
  | arrayWordFinish (core slot : Nat)
  /-- PHASER_ARRIVE (R254). -/
  | phaserArrive (id : Nat)
  /-- DSITAIL_WRITE (R298). -/
  | dsitailWrite (val : DWord)
  /-- DSI_ENTRY (R298). -/
  | dsiEntry
  /-- OPEN (R297). -/
  | openHandle (level : BitVec 3) (ctx : BitVec 10) (parent : Word)
  /-- CLOSE (R297). -/
  | closeHandle (handle : Word)
  /-- RETIRE (R297). -/
  | retireHandle (handle : Word)
  /-- UNIT_PLACE (R305). -/
  | unitPlace (launch : Nat)
  /-- LAUNCH_COMPLETE (R296). -/
  | launchComplete (launch : Nat)
  /-- WATCHDOG_EXPIRY (R309). -/
  | watchdogExpiry (ctx : Nat)
  /-- DEFERRED_FAULT_REPORT (R315). -/
  | deferredFaultReport (ag : Agent)
  /-- RESUME_RETRY (R323). -/
  | resumeRetry (ctx : Nat) (cmd : DWord)
  /-- RESUME_SKIP (R323). -/
  | resumeSkip (ctx : Nat) (cmd : DWord)
  /-- RESUME_END (R323). -/
  | resumeEnd (ctx : Nat) (cmd : DWord)
  /-- RESUME_REPLAY (R324). -/
  | resumeReplay (ag : Agent)
  /-- QUERY (R327). -/
  | query (ctx : Nat) (all : Bool) (core : Nat)
  /-- PREEMPT (R328). -/
  | preempt (ctx : Nat) (all : Bool) (core : Nat)
  /-- HALT (R327). -/
  | halt (ctx : Nat) (all : Bool) (core : Nat)
  /-- RUN (R327). -/
  | run (ctx : Nat) (all : Bool) (core : Nat)
  /-- EVICT (R330). -/
  | evict (ctx : Nat) (all : Bool) (core : Nat)
  /-- EVICT_SAVE (R330). -/
  | evictSave (ctx core : Nat)
  /-- RESTORE (R338). -/
  | restore (ctx : Nat) (all : Bool) (core : Nat)
  /-- RESTORE_PLACE (R338). -/
  | restorePlace (ctx core : Nat)
  /-- FIRE (R359). -/
  | fire
  /-- SNPSTAT_RELEASE (R353). -/
  | snpstatRelease
  /-- POWER_SAMPLE (R354). -/
  | powerSample (watts demand : Nat) (mw : Word) (ns : DWord)
  /-- TELTIME_LATCH (R357). -/
  | teltimeLatch
  /-- FUNCTION_READY (R358). -/
  | functionReady (bit : Nat)
  /-- WRITE_REGISTER (R293). -/
  | writeRegister (sel : Word) (val : DWord)
  /-- ILLEGAL_OP (R19). -/
  | illegalOp
  /-- POWER_ON (R361). -/
  | powerOn
  /-- PTP_LOCK (R357). -/
  | ptpLock (lock : Bool) (offset : Word)
  /-- PEER_LOST (R89). -/
  | peerLost (node : Nat)
  /-- DEBUGGER_TRIGGER (R359). -/
  | debuggerTrigger
deriving DecidableEq, Repr, Inhabited

/-- Whose step is taken: a split's scalar stream, its lane stream (R35), one element of an engine job (R128), or a step
without an encoding. -/
inductive Turn where
  | scalar (ag : Agent)
  | lane (ag : Agent)
  | engine (cluster job elem : Nat)
  | event (i : Instr)
deriving DecidableEq, Repr, Inhabited

end Sys2Proof
end

