-- ==== Sys2Proof/Machine/Legal.lean ====
section
/-! DEFINITION. The checks that an instruction's own fields decide (R18-R33 and the field tables of the entries): what
raises ILLEGAL_OPERAND whatever the state is. The checks that look at the allocation or at a format slot stand with the
meanings. -/

namespace Sys2Proof.Machine

/-! ### Operand codes and crossbar bytes (R24, R28) -/

/-- A 10-bit operand code that is not reserved (R24, R26). -/
def codeOk (c : BitVec 10) : Bool := c.toNat < 874

def isVec (c : BitVec 10) : Bool := c.toNat < 640
def isScal (c : BitVec 10) : Bool := 640 ≤ c.toNat && c.toNat < 704
def isAff (c : BitVec 10) : Bool := 704 ≤ c.toNat && c.toNat < 736
def isConst (c : BitVec 10) : Bool := 736 ≤ c.toNat && c.toNat < 864

/-- A crossbar byte whose pattern and parameter are legal (R28). -/
def xbarOk (x : BitVec 8) : Bool :=
  let k := x.toNat % 32
  match x.toNat / 32 with
  | 0 => k == 0
  | 1 => true
  | 2 => true
  | 3 => true
  | 4 => k ≤ 5
  | 5 => true
  | 6 => k ≤ 3
  | _ => false

/-- A source that the instruction uses. -/
def srcOk (c : BitVec 10) (x : BitVec 8) : Bool := codeOk c && xbarOk x

/-- A source that the instruction does not use: the code and its crossbar byte are zero (R23). -/
def srcZero (c : BitVec 10) (x : BitVec 8) : Bool := c == 0 && x == 0

/-- RM of a word that rounds (R30). -/
def rmOk (w : LaneWord) : Bool := w.rm.toNat < 5

/-- Bits [hi:lo] of MOD. -/
def modBits (w : LaneWord) (hi lo : Nat) : Nat := bitsNat w.mod.toNat hi lo

/-- Bits [hi:lo] of XC. -/
def xcBits (w : LaneWord) (hi lo : Nat) : Nat := bitsNat w.xc.toNat hi lo

/-- The windows [a, a + n) and [b, b + m) share a register. -/
def overlaps (a n b m : Nat) : Bool := a < b + m && b < a + n && 0 < n && 0 < m

/-- Two windows of one length that overlap in part: neither equal nor disjoint. -/
def partly (a b n : Nat) : Bool := a != b && overlaps a n b n

/-! ### Integer words (R188-R194) -/

/-- The instruction takes all six types of R32. -/
def intAllTypes (op : Nat) : Bool :=
  op ∈ [0x00, 0x01, 0x02, 0x07, 0x08, 0x0A, 0x0B, 0x0C, 0x0D, 0x0E, 0x0F, 0x10, 0x11, 0x14, 0x15]

def intHasSat (op : Nat) : Bool := op ∈ [0x00, 0x01, 0x02, 0x04, 0x05, 0x06, 0x09, 0x0E]
def intUnary (op : Nat) : Bool := op ∈ [0x09, 0x14, 0x15]
def intTernary (op : Nat) : Bool := op ∈ [0x04, 0x05, 0x12, 0x13]

/-- The window conditions of R191 that the codes decide. -/
def wideWindowsOk (op : Nat) (w : LaneWord) : Bool :=
  let d := w.d.toNat
  let wide (c : BitVec 10) : Bool := !isVec c || (c.toNat < 639 && !partly c.toNat d 2)
  match op with
  | 0x06 => wide w.a && wide w.b && !(isVec w.a && isVec w.b && partly w.a.toNat w.b.toNat 2)
  | 0x05 => wide w.c
  | _ => true

def intLegal (op : Nat) (w : LaneWord) : Bool :=
  (if op == 0x09 then w.fn.toNat ∈ [0, 2, 4] else if intAllTypes op then w.fn.toNat < 6 else w.fn.toNat < 2)
  && (if op == 0x16 then w.d.toNat < 8 else if op == 0x05 || op == 0x06 then w.d.toNat < 639 else isVec w.d)
  && srcOk w.a w.xa
  && (if intUnary op then srcZero w.b w.xb else srcOk w.b w.xb)
  && (if intTernary op then srcOk w.c w.xc else srcZero w.c w.xc)
  && w.rm == 0 && w.fs == 0
  && modBits w 9 4 == 0
  && (if op == 0x16 then modBits w 3 1 < 6 else modBits w 3 1 == 0)
  && (intHasSat op || modBits w 0 0 == 0)
  && wideWindowsOk op w

/-! ### Float words (R195-R201) -/

def floatRounds (op : Nat) : Bool := op ∈ [0x20, 0x21, 0x22, 0x23, 0x27, 0x28, 0x29, 0x2A, 0x2B, 0x2C]
def floatBinary (op : Nat) : Bool := op ∈ [0x20, 0x21, 0x22, 0x23, 0x24, 0x25, 0x26, 0x2B]

def floatLegal (op : Nat) (w : LaneWord) : Bool :=
  (if op == 0x26 then w.fn == 0 else w.fn.toNat < 3)
  && (if op == 0x26 then w.d.toNat < 8 else isVec w.d)
  && srcOk w.a w.xa
  && (if floatBinary op then srcOk w.b w.xb else srcZero w.b w.xb)
  && (if op == 0x23 then srcOk w.c w.xc else srcZero w.c w.xc)
  && (if floatRounds op then rmOk w else w.rm == 0)
  && w.fs == 0
  && modBits w 9 4 == 0 && modBits w 0 0 == 0
  && (op == 0x26 || modBits w 3 1 == 0)

/-! ### Dot products and conversions (R182-R184, R202-R204) -/

def dotLegal (w : LaneWord) : Bool :=
  w.fn == 0 && isVec w.d && srcOk w.a w.xa && srcOk w.b w.xb && srcOk w.c w.xc && rmOk w && modBits w 9 1 == 0

def cvtLegal (op : Nat) (w : LaneWord) : Bool :=
  (if op == 0x34 then w.fn.toNat < 6 else w.fn.toNat < 13)
  && isVec w.d && srcOk w.a w.xa && srcZero w.b w.xb && srcOk w.c w.xc && rmOk w && modBits w 9 8 == 0

def packLegal (op : Nat) (w : LaneWord) : Bool :=
  w.fn.toNat ∈ [0, 0xA, 0xB]
  && (if op == 0x36 then isVec w.d && srcOk w.b w.xb else w.d.toNat < 639 && srcZero w.b w.xb)
  && srcOk w.a w.xa && srcOk w.c w.xc && rmOk w && modBits w 9 3 == 0

/-! ### Select and cross-lane words (R205-R213) -/

def crossLegal (op : Nat) (w : LaneWord) : Bool :=
  let fn := w.fn.toNat
  let cZero := srcZero w.c w.xc
  let predA := w.a.toNat < 8 && xbarOk w.xa
  w.fs == 0 &&
  match op with
  | 0x38 => fn == 0 && isVec w.d && srcOk w.a w.xa && srcOk w.b w.xb && cZero && w.rm == 0 && modBits w 9 4 == 0
  | 0x39 => fn < 8 && w.d.toNat < 8 && predA && w.b.toNat < 8 && xbarOk w.xb && cZero && w.rm == 0 && w.mod == 0
  | 0x3A => fn < 5 && (if fn < 3 then w.d.toNat < 8 else isVec w.d) && predA && srcZero w.b w.xb && cZero
              && w.rm == 0 && w.mod == 0
  | 0x3B => srcZero w.b w.xb && cZero && w.rm == 0 && w.mod == 0 &&
              (match fn with
               | 0 => w.d.toNat < 8 && srcOk w.a w.xa
               | 1 => isVec w.d && predA
               | 2 => w.d.toNat < 16 && srcOk w.a w.xa
               | 3 => isVec w.d && w.a.toNat < 16 && w.xa == 0
               | 4 => w.d.toNat < 8 && predA
               | _ => false)
  | 0x3C => fn == 0 && isVec w.d && srcOk w.a w.xa && srcZero w.b w.xb && cZero && w.rm == 0 && w.mod == 0
  | 0x3D => fn == 0 && isVec w.d && w.a.toNat < 16 && w.c.toNat % 256 == 0 && w.xc == 0 && w.rm == 0 && w.mod == 0
  | 0x3E => fn == 0 && isVec w.d && srcOk w.a w.xa && srcOk w.b w.xb && cZero && w.rm == 0 && w.mod == 0
  | 0x3F => fn < 2 && isVec w.d && isVec w.a && w.xa == 0 && srcOk w.b w.xb && cZero && w.rm == 0 && modBits w 9 6 == 0
  | 0x40 => fn < 12 && isVec w.d && srcOk w.a w.xa && srcZero w.b w.xb && cZero
              && (if fn == 9 then rmOk w else w.rm == 0) && modBits w 9 1 == 0 && (fn < 2 || modBits w 0 0 == 0)
  | 0x41 => fn < 12 && isVec w.d && srcOk w.a w.xa && srcZero w.b w.xb && cZero
              && (if fn == 9 then rmOk w else w.rm == 0) && modBits w 9 2 == 0 && (fn < 2 || modBits w 0 0 == 0)
  | _ => false

/-! ### Matrix, tile and parcel words (R217, R223, R226-R234) -/

/-- Matrix-class words take no predicate (R229). -/
def noPred (w : LaneWord) : Bool := w.pred == 0 && !w.pn

def mloopLegal (w : LaneWord) : Bool :=
  noPred w && w.fn == 0 && w.d.toNat ≤ 608 && isAff w.a && isVec w.b
  && (isScal w.c || (736 ≤ w.c.toNat && w.c.toNat < 800))
  && xcBits w 6 4 == 0 && rmOk w && modBits w 9 8 < 3 && modBits w 7 7 == 0
  && (modBits w 9 8 != 2 || xcBits w 7 7 == 1)

def tstoreLegal (w : LaneWord) : Bool :=
  noPred w && w.fn == 0 && w.d == 0 && isAff w.a && w.b.toNat ≤ 608 && w.xb == 0 && w.c == 0
  && xcBits w 7 1 == 0 && rmOk w

def tmsetLegal (w : LaneWord) : Bool :=
  noPred w && w.fn.toNat < 7 && w.d.toNat < 16 && isVec w.a && w.xa == 0 && srcZero w.b w.xb && srcZero w.c w.xc
  && w.rm == 0 && w.fs == 0 && modBits w 9 6 == 0

def tmlogLegal (w : LaneWord) : Bool :=
  noPred w && w.fn.toNat < 8 && w.d.toNat < 16 && w.a.toNat < 16 && w.xa == 0 && w.b.toNat < 16 && w.xb == 0
  && srcZero w.c w.xc && w.rm == 0 && w.fs == 0 && w.mod == 0

def sighLegal (w : LaneWord) : Bool :=
  noPred w && 3 ≤ w.fn.toNat && isVec w.d && isAff w.a && isAff w.b && w.xb == 0 && w.c == 0
  && xcBits w 7 6 == 0 && w.rm == 0 && modBits w 9 8 == 0

def parcLegal (w : LaneWord) : Bool :=
  noPred w && w.fn == 0 && isVec w.d && isVec w.a && w.xa == 0 && w.c == 0 && w.rm == 0
  && (match modBits w 9 8 with
      | 0 => w.b == 0 && w.xb == 0 && w.xc == 0 && w.fs == 0
      | 1 => isAff w.b && xcBits w 7 6 == 0
      | 2 => w.b == 0 && w.xb == 0 && w.xc == 0 && w.fs == 0
      | _ => false)

def pcompLegal (w : LaneWord) : Bool :=
  noPred w && w.fn == 0 && w.d.toNat ∈ [0, 4, 8, 12] && isVec w.a && w.xa == 0 && isAff w.b && isAff w.c
  && xcBits w 7 6 == 0 && w.rm == 0 && modBits w 9 8 < 3

/-- The register of the parcel window that SCAT and PSUM read (R233). -/
def scatReg (w : LaneWord) : Nat := w.b.toNat + (16 * modBits w 3 0) / 32

/-- SCAT and PSUM. The parcel window has no stated length: only the register that the word reads is held apart from the other windows
(DESIGN CHOICE, log 41). -/
def scatLegal (op : Nat) (w : LaneWord) : Bool :=
  noPred w && w.fn == 0 && w.d.toNat ≤ 608 && w.a.toNat ≤ 608 && w.xa == 0 && isVec w.b && w.xb == 0
  && srcZero w.c w.xc && (if op == 0x50 then rmOk w else w.rm == 0) && w.fs == 0 && modBits w 9 8 == 0
  && (if op == 0x50 then !overlaps w.d.toNat 32 w.a.toNat 32 else !partly w.d.toNat w.a.toNat 32)
  && !overlaps (scatReg w) 1 w.d.toNat 32 && !overlaps (scatReg w) 1 w.a.toNat 32

def platLegal (w : LaneWord) : Bool :=
  noPred w && 3 ≤ w.fn.toNat && w.d == 0 && isAff w.a && isVec w.b && w.xb == 0 && srcZero w.c w.xc
  && w.rm == 0 && w.fs == 0 && modBits w 9 8 < 3

/-! ### Memory words (R235-R238, R246, R250, R153) -/

/-- Bytes per lane of LD, ST and LDE (R237). -/
def widthBytes (fn : BitVec 4) : Nat :=
  match fn.toNat with
  | 0 => 1
  | 1 => 1
  | 2 => 2
  | 3 => 2
  | 4 => 4
  | 5 => 8
  | _ => 16

/-- Registers of the image of a lane access of that many bytes (R237). -/
def widthRegs (bytes : Nat) : Nat := if bytes ≤ 4 then 1 else bytes / 4

/-- Bytes of an atomic operation (R249). -/
def atomBytes (fn : BitVec 4) : Nat := if fn.toNat ≥ 14 then 8 else 4

/-- Registers of the operand window of an atomic (R250). -/
def atomRegs (fn : BitVec 4) : Nat :=
  match fn.toNat with
  | 12 => 2
  | 14 => 2
  | 15 => 4
  | _ => 1

/-- The base field of a memory word (R235). -/
def baseOk (c : BitVec 10) : Bool :=
  c.toNat < 639 || (isScal c && c.toNat % 2 == 0) || isAff c

def ordOf (w : LaneWord) : Nat := modBits w 8 7
def scopeOf (w : LaneWord) : Nat := modBits w 6 4
def promOf (w : LaneWord) : Bool := modBits w 9 9 == 1
def trkOf (w : LaneWord) : Bool := modBits w 3 3 == 1

/-- ORD, scope and PROM as R32 and R238 allow them, given the ORD codes of the instruction. -/
def ordLegal (w : LaneWord) (allowed : List Nat) : Bool :=
  ordOf w ∈ allowed && scopeOf w < 5 && (ordOf w != 0 || scopeOf w == 0) && (!promOf w || ordOf w == 1)

/-- The destination window is equal to the base window A:2 or disjoint from it (R238). -/
def dstBaseOk (w : LaneWord) (n : Nat) : Bool :=
  !isVec w.a || (w.a.toNat == w.d.toNat && n == 2) || !overlaps w.d.toNat n w.a.toNat 2

/-- The escort set of LDE and ATOMR against the word's other register operands (R153). -/
def escortOk (w : LaneWord) (n : Nat) : Bool :=
  let e := w.c.toNat
  let k := modBits w 2 0 + 1
  isVec w.c && xcBits w 7 1 == 0 && !trkOf w && e + k ≤ 640 && !overlaps e k w.d.toNat n
  && !(isVec w.a && overlaps e k w.a.toNat 2) && !(isVec w.b && overlaps e k w.b.toNat 1)

def memLegal (op : Nat) (w : LaneWord) : Bool :=
  let n := widthRegs (widthBytes w.fn)
  let m := atomRegs w.fn
  let ix := srcOk w.b w.xb
  let cZero := srcZero w.c w.xc
  w.rm == 0 && w.fs == 0 &&
  match op with
  | 0x58 => w.fn.toNat < 7 && baseOk w.a && ix && cZero && w.d.toNat + n ≤ 640 && dstBaseOk w n
              && ordLegal w [0, 1] && modBits w 2 0 == 0
  | 0x59 => w.fn.toNat < 7 && baseOk w.a && ix && cZero
              && (w.d.toNat + n ≤ 640 || (n == 1 && (isVec w.d || isScal w.d || isAff w.d || isConst w.d)))
              && ordLegal w [0, 2] && modBits w 3 0 == 0
  | 0x5A => w.fn.toNat < 7 && baseOk w.a && ix && w.d.toNat + n ≤ 640 && dstBaseOk w n
              && ordLegal w [0, 1] && escortOk w n
  | 0x5B => w.fn == 0 && isScal w.a && w.a.toNat % 2 == 0 && w.b.toNat < 64 && w.xb == 0 && cZero
              && w.d.toNat + (w.b.toNat + 1) ≤ 640 && ordLegal w [0, 1] && modBits w 2 0 == 0
  | 0x5C => w.fn == 0 && isScal w.a && w.a.toNat % 2 == 0 && w.b.toNat < 64 && w.xb == 0 && cZero
              && w.d.toNat + (w.b.toNat + 1) ≤ 640 && ordLegal w [0, 2] && modBits w 3 0 == 0
  | 0x5D => w.fn.toNat < 2 && baseOk w.a && ix && cZero && w.d == 0 && w.mod == 0
  | 0x5E => baseOk w.a && ix && cZero
              && (if m == 1 then isVec w.d || isScal w.d || isAff w.d || isConst w.d else w.d.toNat + m ≤ 640)
              && ordLegal w [0, 2] && modBits w 3 0 == 0
  | 0x5F => baseOk w.a && ix && w.d.toNat + m ≤ 640 && dstBaseOk w m && ordLegal w [0, 1, 2]
              && (if w.c.toNat == 736 then w.xc == 0 && modBits w 2 0 == 0 else escortOk w m)
  | 0x60 => noPred w && w.d == 0 && srcZero w.a w.xa && srcZero w.b w.xb && cZero && modBits w 9 9 == 0
              && modBits w 3 0 == 0 && w.fn.toNat < 4
              && (if w.fn == 0 then ordOf w < 3 && scopeOf w < 5 else modBits w 8 4 == 0)
  | _ => false

/-- LTRAP and LNOP (R214, R215). -/
def sysLaneLegal (op : Nat) (w : LaneWord) : Bool :=
  w.fn == 0 && w.d == 0 && srcZero w.a w.xa && srcZero w.b w.xb && srcZero w.c w.xc && w.rm == 0 && w.fs == 0
  && (op == 0x68 || (noPred w && w.mod == 0))

/-- The static field check of a lane word with opcode `op` (R27-R32 and the entry's field table). -/
def laneLegal (op : Nat) (w : LaneWord) : Bool :=
  if op ≤ 0x16 then intLegal op w
  else if op < 0x30 then floatLegal op w
  else if op < 0x34 then dotLegal w
  else if op < 0x36 then cvtLegal op w
  else if op < 0x38 then packLegal op w
  else if op < 0x48 then crossLegal op w
  else if op == 0x48 then mloopLegal w
  else if op == 0x49 then tstoreLegal w
  else if op == 0x4A then tmsetLegal w
  else if op == 0x4B then tmlogLegal w
  else if op == 0x4C then sighLegal w
  else if op == 0x4D then parcLegal w
  else if op == 0x4E then pcompLegal w
  else if op < 0x51 then scatLegal op w
  else if op == 0x51 then platLegal w
  else if op < 0x68 then memLegal op w
  else sysLaneLegal op w

/-! ### Scalar words (R21, R22) -/

/-- A field that names the low half of a 64-bit pair. -/
def pairOk (r : BitVec 6) : Bool := r.toNat % 2 == 0

/-- A field that names an affine register. -/
def affOk (r : BitVec 6) : Bool := r.toNat < 32

/-- A level field of CCNT and CANCEL (R302, R303). -/
def levelOk (byHandle : Bool) (a : BitVec 6) (level : BitVec 3) : Bool :=
  if byHandle then level == 0 else level.toNat < 5 && a == 0

end Sys2Proof.Machine
end

