-- ==== Sys2Proof/Decode.lean ====
section
/-! DEFINITION. Decoding and encoding. A scalar word decodes by its major opcode (R18-R22), a lane word by OP (R23, R33).
An unassigned opcode decodes to ILLEGAL_OP (R19, R20, R33). A scalar word with a nonzero must-be-zero field is no
instruction: it is rejected as an operand breach (R21). A lane word keeps all its fields: what is illegal in them is
judged when the word issues (R36). -/

namespace Sys2Proof

/-- What the decoder answers for a scalar word. -/
inductive Decoded where
  /-- The word is this instruction. -/
  | instr (i : Instr)
  /-- A nonzero field that R21 or the entry says must be zero: ILLEGAL_OPERAND. -/
  | badField
deriving DecidableEq, Repr

/-- The `n`-bit field of a scalar word whose lowest bit is `lo`. -/
def fld (w : Word) (lo n : Nat) : BitVec n := w.extractLsb' lo n

/-- One bit of a scalar word. -/
def flag (w : Word) (lo : Nat) : Bool := w.getLsbD lo

/-- The instruction, when the bits of `mask` are all zero in the word. -/
def zeros (w : Word) (mask : Nat) (i : Instr) : Decoded :=
  if w &&& BitVec.ofNat 32 mask = 0 then .instr i else .badField

/-- The extended form (R20): SUB in [25:20]. -/
def decodeSx (w : Word) : Decoded :=
  match (fld w 20 6).toNat with
  | 0x00 => zeros w 0x000FFFFF <| .snop
  | 0x01 => zeros w 0x000000F0 <| .ccnt (fld w 14 6) (fld w 8 6) (flag w 3) (fld w 0 3)
  | 0x02 => zeros w 0x000000FF <| .xcopy (fld w 14 6) (fld w 8 6)
  | 0x03 => zeros w 0x000000FF <| .xgath (fld w 14 6) (fld w 8 6)
  | 0x04 => zeros w 0x000000FF <| .xscat (fld w 14 6) (fld w 8 6)
  | 0x05 => zeros w 0x000000FF <| .xred (fld w 14 6) (fld w 8 6)
  | 0x06 => zeros w 0x000FC0FC <| .mhint (fld w 8 6) (fld w 0 2)
  | 0x07 => zeros w 0x000000FE <| .heatr (fld w 14 6) (fld w 8 6) (flag w 0)
  | 0x08 => zeros w 0x000FFF00 <| .trap (fld w 0 8)
  | 0x09 => zeros w 0x000FFFFF <| .tret
  | 0x0A => zeros w 0x000000FF <| .sysr (fld w 14 6) (fld w 8 6)
  | 0x0B => zeros w 0x000000FF <| .sysw (fld w 14 6) (fld w 8 6)
  | 0x0C => zeros w 0x000FFF00 <| .bkpt (fld w 0 8)
  | 0x0D => zeros w 0x000FFFFF <| .yield
  | _ => .instr .illegalOp

/-- Decodes a scalar word (R19, R21). -/
def decodeScalar (w : Word) : Decoded :=
  match (fld w 26 6).toNat with
  | 0x01 => zeros w 0x03C00000 <| .br (fld w 0 22)
  | 0x02 => zeros w 0x00000000 <| .brc (fld w 23 3) (flag w 22) (fld w 0 22)
  | 0x03 => zeros w 0x00000000 <| .brv (fld w 23 3) (flag w 22) (fld w 11 11) (fld w 0 11)
  | 0x04 => zeros w 0x03C00000 <| .call (fld w 0 22)
  | 0x05 => zeros w 0x03F03FFF <| .ret (fld w 14 6)
  | 0x06 => zeros w 0x03FFFFFF <| .exit
  | 0x07 => zeros w 0x00000000 <| .loop (fld w 16 10) (fld w 0 16)
  | 0x08 => zeros w 0x03C00000 <| .loopr (fld w 16 6) (fld w 0 16)
  | 0x09 => zeros w 0x03FFFFFF <| .lbrk
  | 0x0A => zeros w 0x0000FFFF <| .lrun (fld w 16 10)
  | 0x0B => zeros w 0x03C00000 <| .ljmp (fld w 0 22)
  | 0x10 => zeros w 0x0000007F <| .sadd (fld w 20 6) (fld w 14 6) (fld w 8 6) (flag w 7)
  | 0x11 => zeros w 0x0000007F <| .ssub (fld w 20 6) (fld w 14 6) (fld w 8 6) (flag w 7)
  | 0x12 => zeros w 0x0000007F <| .smul (fld w 20 6) (fld w 14 6) (fld w 8 6) (flag w 7)
  | 0x13 => zeros w 0x0000007E <| .smulh (fld w 20 6) (fld w 14 6) (fld w 8 6) (flag w 7) (flag w 0)
  | 0x14 => zeros w 0x0000007F <| .sand (fld w 20 6) (fld w 14 6) (fld w 8 6) (flag w 7)
  | 0x15 => zeros w 0x0000007F <| .sor (fld w 20 6) (fld w 14 6) (fld w 8 6) (flag w 7)
  | 0x16 => zeros w 0x0000007F <| .sxor (fld w 20 6) (fld w 14 6) (fld w 8 6) (flag w 7)
  | 0x17 => zeros w 0x0000007F <| .sshl (fld w 20 6) (fld w 14 6) (fld w 8 6) (flag w 7)
  | 0x18 => zeros w 0x0000007F <| .sshr (fld w 20 6) (fld w 14 6) (fld w 8 6) (flag w 7)
  | 0x19 => zeros w 0x0000007F <| .ssra (fld w 20 6) (fld w 14 6) (fld w 8 6) (flag w 7)
  | 0x1A => zeros w 0x0000007E <| .smin (fld w 20 6) (fld w 14 6) (fld w 8 6) (flag w 7) (flag w 0)
  | 0x1B => zeros w 0x0000007E <| .smax (fld w 20 6) (fld w 14 6) (fld w 8 6) (flag w 7) (flag w 0)
  | 0x1C => zeros w 0x00000070 <| .scmp (fld w 20 6) (fld w 14 6) (fld w 8 6) (flag w 7) (fld w 1 3) (flag w 0)
  | 0x1D => zeros w 0x000000FF <| .ssel (fld w 20 6) (fld w 14 6) (fld w 8 6)
  | 0x1E => zeros w 0x000FC000 <| .smovi (fld w 20 6) (fld w 0 14)
  | 0x1F => zeros w 0x000FC000 <| .slui (fld w 20 6) (fld w 0 14)
  | 0x20 => zeros w 0x00000000 <| .slea (fld w 20 6) (fld w 0 20)
  | 0x21 => zeros w 0x00000000 <| .sld (fld w 20 6) (fld w 14 6) (fld w 0 14)
  | 0x22 => zeros w 0x00000000 <| .sst (fld w 20 6) (fld w 14 6) (fld w 0 14)
  | 0x23 => zeros w 0x000FFF00 <| .sget (fld w 20 6) (fld w 0 8)
  | 0x24 => zeros w 0x03F03F00 <| .sset (fld w 14 6) (fld w 0 8)
  | 0x28 => zeros w 0x00000000 <| .amov (fld w 20 6) (fld w 14 6) (fld w 0 14)
  | 0x29 => zeros w 0x000FC07F <| .aadd (fld w 20 6) (fld w 8 6) (flag w 7)
  | 0x2A => zeros w 0x0000007F <| .aadda (fld w 20 6) (fld w 14 6) (fld w 8 6) (flag w 7)
  | 0x2B => zeros w 0x000FC07F <| .ascl (fld w 20 6) (fld w 8 6) (flag w 7)
  | 0x2C => zeros w 0x000FC07F <| .ashl (fld w 20 6) (fld w 8 6) (flag w 7)
  | 0x2D => zeros w 0x000FC07F <| .astr (fld w 20 6) (fld w 8 6) (flag w 7)
  | 0x2E => zeros w 0x00003FFE <| .aget (fld w 20 6) (fld w 14 6) (flag w 0)
  | 0x30 => zeros w 0x03FFC07E <| .reggrow (fld w 8 6) (flag w 7) (flag w 0)
  | 0x31 => zeros w 0x03FFC07F <| .regshrink (fld w 8 6) (flag w 7)
  | 0x32 => zeros w 0x03FFFFFF <| .idemb
  | 0x33 => zeros w 0x03FFFFFF <| .ideme
  | 0x34 => zeros w 0x03F000FF <| .phinit (fld w 14 6) (fld w 8 6)
  | 0x35 => zeros w 0x03F03FF0 <| .phrole (fld w 14 6) (fld w 2 2) (fld w 0 2)
  | 0x36 => zeros w 0x00003FFF <| .pharr (fld w 20 6) (fld w 14 6)
  | 0x37 => zeros w 0x000000FE <| .phwait (fld w 20 6) (fld w 14 6) (fld w 8 6) (flag w 0)
  | 0x38 => zeros w 0x03F03FFF <| .phfree (fld w 14 6)
  | 0x39 => zeros w 0x000FFFFE <| .evpop (fld w 20 6) (flag w 0)
  | 0x3A => zeros w 0x03F03FFF <| .evpost (fld w 14 6)
  | 0x3B => zeros w 0x00003FFE <| .launch (fld w 20 6) (fld w 14 6) (flag w 0)
  | 0x3C => zeros w 0x03F03FF0 <| .cancel (fld w 14 6) (flag w 3) (fld w 0 3)
  | 0x3F => decodeSx w
  | _ => .instr .illegalOp

/-- The fields of a lane word other than OP (R23). -/
def laneFields (b : LBits) : LaneWord where
  sw   := b.getLsbD 95
  fn   := b.extractLsb' 84 4
  pred := b.extractLsb' 81 3
  pn   := b.getLsbD 80
  d    := b.extractLsb' 70 10
  a    := b.extractLsb' 60 10
  xa   := b.extractLsb' 52 8
  b    := b.extractLsb' 42 10
  xb   := b.extractLsb' 34 8
  c    := b.extractLsb' 24 10
  xc   := b.extractLsb' 16 8
  rm   := b.extractLsb' 13 3
  fs   := b.extractLsb' 10 3
  mod  := b.extractLsb' 0 10

/-- The lane instruction of an opcode (R33); an unassigned opcode is ILLEGAL_OP. -/
def laneInstr (op : Nat) (w : LaneWord) : Instr :=
  match op with
  | 0x00 => .iadd w
  | 0x01 => .isub w
  | 0x02 => .imul w
  | 0x03 => .imulh w
  | 0x04 => .imad w
  | 0x05 => .imadw w
  | 0x06 => .iaddx w
  | 0x07 => .imin w
  | 0x08 => .imax w
  | 0x09 => .iabs w
  | 0x0A => .and w
  | 0x0B => .or w
  | 0x0C => .xor w
  | 0x0D => .andn w
  | 0x0E => .shl w
  | 0x0F => .shr w
  | 0x10 => .sra w
  | 0x11 => .rot w
  | 0x12 => .bfx w
  | 0x13 => .bfi w
  | 0x14 => .popc w
  | 0x15 => .clz w
  | 0x16 => .icmp w
  | 0x20 => .fadd w
  | 0x21 => .fsub w
  | 0x22 => .fmul w
  | 0x23 => .ffma w
  | 0x24 => .fmin w
  | 0x25 => .fmax w
  | 0x26 => .fcmp w
  | 0x27 => .frcp w
  | 0x28 => .frsq w
  | 0x29 => .fexp2 w
  | 0x2A => .flog2 w
  | 0x2B => .fscl w
  | 0x2C => .frnd w
  | 0x2D => .fclass w
  | 0x30 => .dp4 w
  | 0x31 => .dp8 w
  | 0x32 => .dph2 w
  | 0x34 => .cvt w
  | 0x35 => .cvti w
  | 0x36 => .pack w
  | 0x37 => .unpk w
  | 0x38 => .sel w
  | 0x39 => .plog w
  | 0x3A => .vote w
  | 0x3B => .pmov w
  | 0x3C => .mov w
  | 0x3D => .movi w
  | 0x3E => .shuf w
  | 0x3F => .gath w
  | 0x40 => .redl w
  | 0x41 => .scanl w
  | 0x48 => .mloop w
  | 0x49 => .tstore w
  | 0x4A => .tmset w
  | 0x4B => .tmlog w
  | 0x4C => .sigh w
  | 0x4D => .parc w
  | 0x4E => .pcomp w
  | 0x4F => .scat w
  | 0x50 => .psum w
  | 0x51 => .plat w
  | 0x58 => .ld w
  | 0x59 => .st w
  | 0x5A => .lde w
  | 0x5B => .ldl w
  | 0x5C => .stl w
  | 0x5D => .prf w
  | 0x5E => .atom w
  | 0x5F => .atomr w
  | 0x60 => .fence w
  | 0x68 => .ltrap w
  | 0x69 => .lnop w
  | _ => .illegalOp

/-- Decodes a lane word (R33): total, no lane word is rejected before it issues (R36). -/
def decodeLane (b : LBits) : Instr := laneInstr (b.extractLsb' 88 7).toNat (laneFields b)

/-- The little-endian number that a list of bytes holds (R16, R171). -/
def leNat : List Byte → Nat
  | [] => 0
  | b :: bs => b.toNat + 256 * leNat bs

/-- The `n` bytes of a number, lowest first. -/
def leBytes : Nat → Nat → List Byte
  | 0, _ => []
  | n + 1, x => BitVec.ofNat 8 x :: leBytes n (x / 256)

/-- Decodes the four bytes at a scalar PC (R16), total on any bytes. -/
def decodeScalarBytes (bs : List Byte) : Option Decoded :=
  if bs.length < 4 then none else some (decodeScalar (BitVec.ofNat 32 (leNat (bs.take 4))))

/-- Decodes the twelve bytes of a lane word (R16), total on any bytes. -/
def decodeLaneBytes (bs : List Byte) : Option Instr :=
  if bs.length < 12 then none else some (decodeLane (BitVec.ofNat 96 (leNat (bs.take 12))))

/-! ### The encoder -/

/-- The opcode and the fields of a lane instruction (R33). -/
def laneOp : Instr → Option (Nat × LaneWord)
  | .iadd w => some (0x00, w)
  | .isub w => some (0x01, w)
  | .imul w => some (0x02, w)
  | .imulh w => some (0x03, w)
  | .imad w => some (0x04, w)
  | .imadw w => some (0x05, w)
  | .iaddx w => some (0x06, w)
  | .imin w => some (0x07, w)
  | .imax w => some (0x08, w)
  | .iabs w => some (0x09, w)
  | .and w => some (0x0A, w)
  | .or w => some (0x0B, w)
  | .xor w => some (0x0C, w)
  | .andn w => some (0x0D, w)
  | .shl w => some (0x0E, w)
  | .shr w => some (0x0F, w)
  | .sra w => some (0x10, w)
  | .rot w => some (0x11, w)
  | .bfx w => some (0x12, w)
  | .bfi w => some (0x13, w)
  | .popc w => some (0x14, w)
  | .clz w => some (0x15, w)
  | .icmp w => some (0x16, w)
  | .fadd w => some (0x20, w)
  | .fsub w => some (0x21, w)
  | .fmul w => some (0x22, w)
  | .ffma w => some (0x23, w)
  | .fmin w => some (0x24, w)
  | .fmax w => some (0x25, w)
  | .fcmp w => some (0x26, w)
  | .frcp w => some (0x27, w)
  | .frsq w => some (0x28, w)
  | .fexp2 w => some (0x29, w)
  | .flog2 w => some (0x2A, w)
  | .fscl w => some (0x2B, w)
  | .frnd w => some (0x2C, w)
  | .fclass w => some (0x2D, w)
  | .dp4 w => some (0x30, w)
  | .dp8 w => some (0x31, w)
  | .dph2 w => some (0x32, w)
  | .cvt w => some (0x34, w)
  | .cvti w => some (0x35, w)
  | .pack w => some (0x36, w)
  | .unpk w => some (0x37, w)
  | .sel w => some (0x38, w)
  | .plog w => some (0x39, w)
  | .vote w => some (0x3A, w)
  | .pmov w => some (0x3B, w)
  | .mov w => some (0x3C, w)
  | .movi w => some (0x3D, w)
  | .shuf w => some (0x3E, w)
  | .gath w => some (0x3F, w)
  | .redl w => some (0x40, w)
  | .scanl w => some (0x41, w)
  | .mloop w => some (0x48, w)
  | .tstore w => some (0x49, w)
  | .tmset w => some (0x4A, w)
  | .tmlog w => some (0x4B, w)
  | .sigh w => some (0x4C, w)
  | .parc w => some (0x4D, w)
  | .pcomp w => some (0x4E, w)
  | .scat w => some (0x4F, w)
  | .psum w => some (0x50, w)
  | .plat w => some (0x51, w)
  | .ld w => some (0x58, w)
  | .st w => some (0x59, w)
  | .lde w => some (0x5A, w)
  | .ldl w => some (0x5B, w)
  | .stl w => some (0x5C, w)
  | .prf w => some (0x5D, w)
  | .atom w => some (0x5E, w)
  | .atomr w => some (0x5F, w)
  | .fence w => some (0x60, w)
  | .ltrap w => some (0x68, w)
  | .lnop w => some (0x69, w)
  | _ => none

/-- The L96 word of an opcode and its fields, high field first (R23). -/
def laneBits (op : Nat) (w : LaneWord) : LBits :=
  BitVec.ofBool w.sw ++ BitVec.ofNat 7 op ++ w.fn ++ w.pred ++ BitVec.ofBool w.pn ++ w.d ++ w.a ++ w.xa ++ w.b ++ w.xb
    ++ w.c ++ w.xc ++ w.rm ++ w.fs ++ w.mod

/-- SR form: OP, D, A, B, FN (R18). -/
def srWord (op : Nat) (d a b : BitVec 6) (fn : BitVec 8) : Word := BitVec.ofNat 6 op ++ d ++ a ++ b ++ fn

/-- FN of an ALU word: I in bit 7 and bit 0 as the word gives it (R21). -/
def fnIU (imm uns : Bool) : BitVec 8 := BitVec.ofBool imm ++ 0#6 ++ BitVec.ofBool uns

/-- SI form: OP, D, A, IMM14 (R18). -/
def siWord (op : Nat) (d a : BitVec 6) (imm : BitVec 14) : Word := BitVec.ofNat 6 op ++ d ++ a ++ imm

/-- SB form with P and N (R18). -/
def sbWord (op : Nat) (p : BitVec 3) (n : Bool) (off : BitVec 22) : Word :=
  BitVec.ofNat 6 op ++ p ++ BitVec.ofBool n ++ off

/-- SX form: SUB, D, A, X (R18). -/
def sxWord (sub : Nat) (d a : BitVec 6) (x : BitVec 8) : Word := 0x3F#6 ++ BitVec.ofNat 6 sub ++ d ++ a ++ x

/-- The word of a scalar instruction, from the forms of R18 and the field uses of R21 and the entries. -/
def encodeScalar : Instr → Option Word
  | .br off => some (sbWord 0x01 0 false off)
  | .brc p n off => some (sbWord 0x02 p n off)
  | .brv p n tgt join => some (0x03#6 ++ p ++ BitVec.ofBool n ++ tgt ++ join)
  | .call off => some (sbWord 0x04 0 false off)
  | .ret a => some (srWord 0x05 0 a 0 0)
  | .exit => some (srWord 0x06 0 0 0 0)
  | .loop cnt fin => some (0x07#6 ++ cnt ++ fin)
  | .loopr r fin => some (0x08#6 ++ 0#4 ++ r ++ fin)
  | .lbrk => some (srWord 0x09 0 0 0 0)
  | .lrun cnt => some (0x0A#6 ++ cnt ++ 0#16)
  | .ljmp off => some (sbWord 0x0B 0 false off)
  | .sadd d a b imm => some (srWord 0x10 d a b (fnIU imm false))
  | .ssub d a b imm => some (srWord 0x11 d a b (fnIU imm false))
  | .smul d a b imm => some (srWord 0x12 d a b (fnIU imm false))
  | .smulh d a b imm uns => some (srWord 0x13 d a b (fnIU imm uns))
  | .sand d a b imm => some (srWord 0x14 d a b (fnIU imm false))
  | .sor d a b imm => some (srWord 0x15 d a b (fnIU imm false))
  | .sxor d a b imm => some (srWord 0x16 d a b (fnIU imm false))
  | .sshl d a b imm => some (srWord 0x17 d a b (fnIU imm false))
  | .sshr d a b imm => some (srWord 0x18 d a b (fnIU imm false))
  | .ssra d a b imm => some (srWord 0x19 d a b (fnIU imm false))
  | .smin d a b imm uns => some (srWord 0x1A d a b (fnIU imm uns))
  | .smax d a b imm uns => some (srWord 0x1B d a b (fnIU imm uns))
  | .scmp d a b imm cond uns => some (srWord 0x1C d a b (BitVec.ofBool imm ++ 0#3 ++ cond ++ BitVec.ofBool uns))
  | .ssel d a b => some (srWord 0x1D d a b 0)
  | .smovi d imm14 => some (siWord 0x1E d 0 imm14)
  | .slui d imm14 => some (siWord 0x1F d 0 imm14)
  | .slea d off => some (0x20#6 ++ d ++ off)
  | .sld d a imm14 => some (siWord 0x21 d a imm14)
  | .sst d a imm14 => some (siWord 0x22 d a imm14)
  | .sget d item => some (srWord 0x23 d 0 0 item)
  | .sset a item => some (srWord 0x24 0 a 0 item)
  | .amov d a imm14 => some (siWord 0x28 d a imm14)
  | .aadd d b imm => some (srWord 0x29 d 0 b (fnIU imm false))
  | .aadda d a b imm => some (srWord 0x2A d a b (fnIU imm false))
  | .ascl d b imm => some (srWord 0x2B d 0 b (fnIU imm false))
  | .ashl d b imm => some (srWord 0x2C d 0 b (fnIU imm false))
  | .astr d b imm => some (srWord 0x2D d 0 b (fnIU imm false))
  | .aget d a str => some (srWord 0x2E d a 0 (fnIU false str))
  | .reggrow b imm try_ => some (srWord 0x30 0 0 b (fnIU imm try_))
  | .regshrink b imm => some (srWord 0x31 0 0 b (fnIU imm false))
  | .idemb => some (srWord 0x32 0 0 0 0)
  | .ideme => some (srWord 0x33 0 0 0 0)
  | .phinit a b => some (srWord 0x34 0 a b 0)
  | .phrole a src dst => some (srWord 0x35 0 a 0 (0#4 ++ src ++ dst))
  | .pharr d a => some (srWord 0x36 d a 0 0)
  | .phwait d a b try_ => some (srWord 0x37 d a b (fnIU false try_))
  | .phfree a => some (srWord 0x38 0 a 0 0)
  | .evpop d try_ => some (srWord 0x39 d 0 0 (fnIU false try_))
  | .evpost a => some (srWord 0x3A 0 a 0 0)
  | .launch d a try_ => some (srWord 0x3B d a 0 (fnIU false try_))
  | .cancel a byHandle level => some (srWord 0x3C 0 a 0 (0#4 ++ BitVec.ofBool byHandle ++ level))
  | .snop => some (sxWord 0x00 0 0 0)
  | .ccnt d a byHandle level => some (sxWord 0x01 d a (0#4 ++ BitVec.ofBool byHandle ++ level))
  | .xcopy d a => some (sxWord 0x02 d a 0)
  | .xgath d a => some (sxWord 0x03 d a 0)
  | .xscat d a => some (sxWord 0x04 d a 0)
  | .xred d a => some (sxWord 0x05 d a 0)
  | .mhint a tier => some (sxWord 0x06 0 a (0#6 ++ tier))
  | .heatr d a region => some (sxWord 0x07 d a (fnIU false region))
  | .trap code => some (sxWord 0x08 0 0 code)
  | .tret => some (sxWord 0x09 0 0 0)
  | .sysr d a => some (sxWord 0x0A d a 0)
  | .sysw d a => some (sxWord 0x0B d a 0)
  | .bkpt code => some (sxWord 0x0C 0 0 code)
  | .yield => some (sxWord 0x0D 0 0 0)
  | _ => none

/-- The L96 word of a lane instruction. -/
def encodeLane (i : Instr) : Option LBits := (laneOp i).map fun p => laneBits p.1 p.2

/-- The bytes of an instruction as memory holds them (R16); a step without an encoding has none. -/
def encode (i : Instr) : List Byte :=
  match encodeScalar i with
  | some w => leBytes 4 w.toNat
  | none =>
    match encodeLane i with
    | some b => leBytes 12 b.toNat
    | none => []

/-- The instruction read from `nbits` bits numbered as spec/opcode_table.json numbers them: a scalar row has 32 bits and
a lane word has 96. The word is laid out in memory order and given to the byte decoders. -/
def decodeTableWord (nbits w : Nat) : Option Instr :=
  if nbits ≤ 32 then
    match decodeScalarBytes (leBytes 4 w) with
    | some (.instr i) => some i
    | _ => none
  else decodeLaneBytes (leBytes 12 w)

end Sys2Proof
end

