-- ==== Sys2Proof/Config.lean ====
section
/-! DEFINITION. What one device fixes and what the manual leaves open. Every constant here without a body is a free value:
nothing can be proved of it (log 1, log 2, log 8, log 11, log 17). -/

namespace Sys2Proof.Config

/-- The two products (R1). -/
inductive Form where
  | tlv4p
  | tlv4m
deriving DecidableEq, Repr, Inhabited

/-- The product form (R1, log 8). -/
opaque form : Form

/-- Whether the LPDDR-6 tier is present (R1, R68). -/
def hasLpddr : Bool := form == .tlv4m

/-- The thermal design power in W (R1, R353). -/
def tdp : Nat :=
  match form with
  | .tlv4p => 3900
  | .tlv4m => 4400

/-- Whose step is taken when the agenda names none (log 2). -/
opaque freeTurn : Nat → Turn

/-- A free bit; the second number tells the uses of one step apart (log 11). -/
opaque freeBit : Nat → Nat → Bool

/-- A free number (log 12). -/
opaque freeNat : Nat → Nat → Nat

/-- Which of a die's two HBM4 stacks holds a line (R68, R358, log 23). -/
opaque stackOf : Nat → Bool

/-- A free 32-bit value (log 12). -/
opaque freeWord : Nat → Nat → Word

/-- The drift loop's target for a ring, by channel, site and wavelength (R101, log 17). -/
opaque ringTarget : Nat → Int

/-- The drift loop's gain (R101, log 17). -/
opaque ringGain : Int

/-- The drift loop's window (R101, log 17). -/
opaque ringWindow : Int

/-- The heater code that calibration leaves in a ring (R100, log 17). -/
opaque ringCalibrated : Nat → BitVec 12

/-- The monitor photodiode of a ring at a time (R100, log 17). -/
opaque ringPhotodiode : Nat → Nat → BitVec 12

/-! ### Figures of the package (R2, R4, R68, R95, R145, R149, R160) -/

def coresPerPackage : Nat := 256
def slotsPerCore : Nat := 64
def rowsPerCore : Nat := 8192
def scratchBytes : Nat := 2 * 1024 * 1024
def partUnit : Nat := 16384
def lineBytes : Nat := 128
def maxGranules : Nat := 20
def transitRecords : Nat := 4096
def windowCards : Nat := 64
def inletLaunches : Nat := 1024
def handleLimit : Nat := 65536
def phasersPerCore : Nat := 128
def homeWindowBytes : Nat := 16384

/-- HBM4 of a die: two stacks of 64 GiB (R2, R68). -/
def hbmBytes : Nat := 2 ^ 37

/-- LPDDR-6 of a die: a quarter of 1.5 TiB (R2, R68). -/
def lpddrBytes : Nat := 3 * 2 ^ 37

/-- Ways, and sets, of the L1 data cache: 192 KiB in 128-byte lines (R2, R115). -/
def l1Ways : Nat := 12
def l1Sets : Nat := 128

/-- Lines of the L1 instruction cache: 64 KiB (R2, R115). -/
def icacheLines : Nat := 512

/-- Lines of a die's L2: 32 MiB (R2, R116). -/
def l2Lines : Nat := 262144

/-- The set of the L1 data cache that a line falls into (R115, log 62). -/
opaque l1SetOf : Nat → Nat

/-- The domain map that the host has set by a step (R41, log 63). -/
opaque freeDomain : Nat → List Nat

end Sys2Proof.Config
end

