-- ==== Sys2Proof/Machine/Tab.lean ====
section
/-! DEFINITION. Sparse tables and the byte memory, both as sorted lists of key and value. A table answers a default for a
key it does not list. Memory lists no byte equal to 0, which is what an unlisted byte reads as (R361, log 5). -/

namespace Sys2Proof.Machine

/-- A sparse table from numbers to values. -/
abbrev Tab (α : Type) := List (Nat × α)

/-- The value at `k`, or the default `d`. -/
def Tab.get {α : Type} (d : α) : Tab α → Nat → α
  | [], _ => d
  | (j, v) :: t, k => if j = k then v else Tab.get d t k

/-- The table with `v` at `k`, keys kept in rising order. -/
def Tab.put {α : Type} : Tab α → Nat → α → Tab α
  | [], k, v => [(k, v)]
  | (j, u) :: t, k, v =>
    if j = k then (k, v) :: t
    else if k < j then (k, v) :: (j, u) :: t
    else (j, u) :: Tab.put t k v

/-- The table without `k`. -/
def Tab.del {α : Type} (t : Tab α) (k : Nat) : Tab α := t.filter fun p => p.1 != k

/-- Whether the table lists `k`. -/
def Tab.has {α : Type} (t : Tab α) (k : Nat) : Bool := t.any fun p => p.1 == k

/-- The listed keys. -/
def Tab.keys {α : Type} (t : Tab α) : List Nat := t.map fun p => p.1

/-- The keys rise strictly. -/
def Tab.sorted {α : Type} : Tab α → Bool
  | [] => true
  | [_] => true
  | (j, _) :: (k, v) :: t => j < k && Tab.sorted ((k, v) :: t)

/-- Memory: the bytes that are not 0, at rising keys (Host.Cell). -/
abbrev Memory := List Host.Cell

/-- What a byte that no cell lists reads as (R361; scratch and system bytes: log 5). -/
def Memory.blank : Byte := 0

/-- One byte. -/
def Memory.read (m : Memory) (k : Nat) : Byte := Tab.get Memory.blank m k

/-- Writes one byte and keeps the canonical form. -/
def Memory.write (m : Memory) (k : Nat) (b : Byte) : Memory :=
  if b = Memory.blank then Tab.del m k else Tab.put m k b

/-- The canonical form: keys rise strictly and no listed byte is what an unlisted byte reads as. -/
def Memory.wf (m : Memory) : Bool := Tab.sorted m && m.all fun c => c.2 != Memory.blank

/-- `n` bytes from `k` upwards. -/
def Memory.readN (m : Memory) (k n : Nat) : List Byte := (List.range n).map fun i => Memory.read m (k + i)

/-- Writes the bytes from `k` upwards. -/
def Memory.writeN : Memory → Nat → List Byte → Memory
  | m, _, [] => m
  | m, k, b :: bs => Memory.writeN (Memory.write m k b) (k + 1) bs

end Sys2Proof.Machine
end

