-- ==== Sys2Proof/Machine/State.lean ====
section
/-! DEFINITION. The state of a Tlavik package and of the owner side of its peers, as plain data, and the state right after
reset. Every structure's docstring names the rules that give it. -/

namespace Sys2Proof.Machine

/-! ### Faults, causes and access kinds -/

/-- The fault kinds of R311, with the code of TRAP and LTRAP (R312). -/
inductive FaultKind where
  | illegalOp
  | illegalOperand
  | align
  | path
  | perm
  | lease
  | poison
  | phaserClobber
  | loopOverflow
  | watchdog
  | trap (code : BitVec 10)
deriving DecidableEq, Repr, Inhabited

/-- The causes of PERM (R312). -/
inductive Cause where
  | none
  | write
  | atomic
  | execute
  | unmapped
  | malformed
  | system
deriving DecidableEq, Repr, Inhabited

/-- A fault with its cause and address, as a lane or a fetch meets it. -/
structure Fail where
  kind  : FaultKind
  cause : Cause
  vaddr : DWord
deriving DecidableEq, Repr, Inhabited

/-- The kinds of access that rights and leases tell apart (R50, R60). -/
inductive Access where
  | load
  | store
  | atomic
  | fetch
  | prefetch
  | engineRead
  | engineWrite
deriving DecidableEq, Repr, Inhabited

/-! ### Splits (R4, R12, R147, R276, R282, R286, R334, R335) -/

/-- An affine register (R147, R148). -/
structure Affine where
  base   : DWord
  stride : Word
deriving DecidableEq, Repr, Inhabited

/-- A loop-stack entry; END and START are offsets from SBASE (R282). -/
structure LoopEntry where
  count : Word
  lpc   : Word
  fin   : Word
  start : Word
deriving DecidableEq, Repr, Inhabited

/-- The two kinds of join-list record (R287). -/
inductive JoinKind where
  | join
  | serial
deriving DecidableEq, Repr, Inhabited

/-- A join-list record (R335); `stage` is 0 in the first run and 1 in the second (R290); `other` holds the lanes that are
not running at the moment. -/
structure JoinRec where
  kind  : JoinKind
  join  : Word
  brvid : Nat
  stage : Nat
  lanes : Mask
  other : Mask
  next  : Word
  lpc   : Word
  loops : List LoopEntry
deriving DecidableEq, Repr, Inhabited

/-- One capture slot of a queued lane word: 12 bytes (R8, R334). -/
structure Capture where
  w0 : Word
  w1 : Word
  w2 : Word
deriving DecidableEq, Repr, Inhabited

/-- A lane-queue entry (R7, R8, R34, R334); `order` numbers the group's enqueues (R152). `kept` holds the scalar and affine registers of the
split as they stood when a word whose fetch failed was enqueued: what its fields name is captured from them once it is fetched (log 38). -/
structure QEntry where
  word  : LBits
  lpc   : Word
  capA  : Capture
  capB  : Capture
  capC  : Capture
  fail  : Option Fail
  order : Nat
  kept  : Option (Tab Word × Tab Affine)
deriving DecidableEq, Repr, Inhabited

/-- The fault record (R312). -/
structure FaultRec where
  vaddr  : DWord
  spc    : Word
  lpc    : Word
  mask   : Mask
  launch : Word
  time   : Word
  kind   : FaultKind
  cause  : Cause
  eabr   : Nat
  re     : Bool
  scw    : Bool
  nest   : Bool
  rpl    : Bool
  slot   : Nat
deriving DecidableEq, Repr, Inhabited

/-- What a scalar word waits for (R152, R259, R301); `dead` is the wait for an object that has ended with its unit, which never
completes (R261). -/
inductive Wait where
  | dead
  | none
  | grow (granules order : Nat)
  | shrink (granules barrier : Nat)
  | phaser (core off d : Nat) (target : Word)
deriving DecidableEq, Repr, Inhabited

/-- Whether and how a split runs (R9, R314, R318, R334). -/
inductive SplitStatus where
  | absent
  | running
  | exiting
  | parked
  | trapped
  | resumePending
deriving DecidableEq, Repr, Inhabited

/-- A RESUME that has been accepted and not yet applied (R323, R324, R336). -/
structure HeldResume where
  act   : Nat
  tv    : Bool
  tdie  : Nat
  token : Word
deriving DecidableEq, Repr, Inhabited

/-! ### Memory accesses in flight (R262) -/

/-- One lane's part of an access: its address, its width and its store data or atomic operand (R241, R250). -/
structure Part where
  lane  : Nat
  addr  : DWord
  width : Nat
  data  : List Byte
deriving DecidableEq, Repr, Inhabited

/-- The kinds of entry: FIFO G stores and atomics, FIFO S, FIFO C, FIFO Y, the load pool, fences, prefetches, HEATR reads,
phaser arrivals, hints on their way, which no split counts as its own (R76, R262, R268, R272), and the writes and reads of a core's save
path (R313, R331). -/
inductive EKind where
  | gStore
  | gAtomic
  | sStore
  | cStore
  | yLoad
  | yStore
  | sysr
  | sysw
  | load
  | fence
  | prefetch
  | heatr
  | arrive
  | hint
  | save
  | saveRead
deriving DecidableEq, Repr, Inhabited

/-- An escort set abroad: its registers, its rows and where its bytes are charged (R154, R155, R157). -/
structure Escort where
  base  : Nat
  count : Nat
  rows  : Tab Word
  slice : Option Nat
deriving DecidableEq, Repr, Inhabited

/-- What the owner answered, and in which step (R43, R99): nothing yet, a physical line, or a fault. -/
inductive Resp where
  | none
  | ok (key : Nat) (stamp : Nat)
  | bad (f : Fail) (at_ : Nat)
deriving DecidableEq, Repr, Inhabited

/-- An entry of the Field Machine (R262), in issue order by `id`. `owners` are the splits that count the entry as their own
(R264); `wid` is common to the packets of one word; `inj` is the frame stamp of its packet and the packet's place in the order
of injection, once it has been injected (R97, R99); a packet of a core's save path belongs to no split: in `op` it says what follows its write
(R313); `probed` is the latest home write of its line for which a promote probe has been
answered (R269); `caps` are the captures of the lane word for a replay (R334). A load that a lane word has read early has its bytes in its
parts (R10). -/
structure Entry where
  id     : Nat
  wid    : Nat
  uid    : Nat
  owners : List Nat
  inj    : Option (Word × Nat)
  kind   : EKind
  ag     : Agent
  tag    : Nat
  ctx    : Nat
  launch : Word
  unit   : Nat
  path   : Nat
  line   : DWord
  parts  : List Part
  level  : Nat
  op     : Nat
  fn     : Nat
  dst    : Nat
  dstN   : Nat
  sdst   : Option Nat
  trk    : Bool
  acq    : Option Nat
  rel    : Option Nat
  prom   : Bool
  probed : Option Nat
  esc    : Option Escort
  resp   : Resp
  word   : LBits
  caps   : List Capture
  lpc    : Word
  scw    : Bool
  retry  : Option Fail
deriving DecidableEq, Repr, Inhabited

/-- A report that waits for a parked split's record to be resolved (R315). -/
structure HeldFault where
  entry : Entry
  fail  : Fail
deriving DecidableEq, Repr, Inhabited

/-- Where a split stood before trap entry: what its frame holds of it too (R318, R319), for lanes that go on without a frame; and the lanes
that the head of its queue was still for. -/
structure Aside where
  spc      : Word
  lpc      : Word
  loops    : List LoopEntry
  flag     : Bool
  top      : List Word
  headMask : Mask
deriving DecidableEq, Repr, Inhabited

/-- A split (R4, R12, R147, R276, R314, R318). `fetched` is a scalar word that has been fetched and waits, `drain` a scalar
fault whose split still issues its queued lane words (R37), `rest` the lanes that parked without faulting (R314), `headMask` the lanes that
have still to perform the head of the queue where others have (0: all of them), `quits` says that a handler's EXIT has issued (R9),
`setJoins`, `setQueue`, `setLrun`, `setHead`, `setReplay`, `setSw` and `aside` hold what trap entry set aside,
`trapId` the first entry that the handler can have made (R318, R320). -/
structure Split where
  status    : SplitStatus
  mask      : Mask
  spc       : DWord
  lpc       : Word
  flag      : Bool
  s         : Tab Word
  a         : Tab Affine
  loops     : List LoopEntry
  joins     : List JoinRec
  queue     : List QEntry
  lrun      : Nat
  wait      : Wait
  swPark    : Bool
  ageS      : Nat
  ageL      : Nat
  uid       : Nat
  fetched   : Option Word
  drain     : Option Fail
  drainRpl  : Bool
  rest      : Mask
  headFault : Bool
  headMask  : Mask
  quits     : Bool
  replay    : List Entry
  record    : FaultRec
  setJoins  : List JoinRec
  setQueue  : List QEntry
  setLrun   : Nat
  setHead   : Bool
  setReplay : List Entry
  setSw     : Bool
  aside     : Aside
  trapId    : Nat
  resume    : Option HeldResume
  held      : List HeldFault
  lastTry   : Option Fail
deriving DecidableEq, Repr, Inhabited

/-- A split number that is not in use. -/
def Split.empty : Split where
  status    := .absent
  mask      := 0
  spc       := 0
  lpc       := 0
  flag      := false
  s         := []
  a         := []
  loops     := []
  joins     := []
  queue     := []
  lrun      := 0
  wait      := .none
  swPark    := false
  ageS      := 0
  ageL      := 0
  uid       := 0
  fetched   := none
  drain     := none
  drainRpl  := false
  rest      := 0
  headFault := false
  headMask  := 0
  quits     := false
  replay    := []
  record    := default
  setJoins  := []
  setQueue  := []
  setLrun   := 0
  setHead   := false
  setReplay := []
  setSw     := false
  aside     := default
  trapId    := 0
  resume    := none
  held      := []
  lastTry   := none

/-! ### Groups (R147, R163, R165, R219, R222, R299, R304) -/

/-- The sequencer record of a loop (R222, R333). -/
structure SeqRec where
  stride : Word
  inc    : Word
  bstr   : Word
  rm     : Word
  sat    : Word
  slot   : Word
  form   : Word
deriving DecidableEq, Repr, Inhabited

/-- An array word issued and not finished (R219, R229). `order` is its place in the core's admission order, `id` its place among
the split's accesses (R135), `heirs` the splits other than its issuer that count its row reads as their own (R221, R264), `halt` says that a
fault has reached it and it stops at its next boundary (R222), `round` the round of a quad loop, `wins` the windows it keeps pending (tile
mask n at 1000 + n), `src` the registers it read at issue (lane L of register n of the window at 32 n + L). -/
structure ArrayWord where
  op      : Nat
  w       : LaneWord
  ag      : Agent
  uid     : Nat
  heirs   : List Nat
  lpc     : Word
  aBase   : DWord
  aStride : Word
  bBase   : DWord
  bStride : Word
  cBase   : DWord
  cStride : Word
  inc     : Word
  k       : Nat
  done    : Nat
  round   : Nat
  started : Bool
  stopped : Bool
  halt    : Bool
  order   : Option Nat
  id      : Nat
  src     : Tab Word
  wins    : List (Nat × Nat)
deriving DecidableEq, Repr, Inhabited

/-- What IDEMB records (R304). -/
structure IdemRec where
  spc   : DWord
  lpc   : Word
  loops : List LoopEntry
  g     : Nat
  s     : Tab Word
  a     : Tab Affine
  p     : Tab Mask
  tm    : Tab DWord
  flag  : Bool
deriving DecidableEq, Repr, Inhabited

/-- A physical row with its last writer's context and its bytes (R67, R151). -/
structure RowImage where
  ctx   : Nat
  cells : Tab Word
deriving DecidableEq, Repr, Inhabited

/-- A group slot of a core (R147, R162-R165, R299, R305). Lane L of v(n) is at key 32 n + L of `v`; `under` holds, for a register
that has not been written since its row came from another context, what that context left in the row (R67, R151). `disc` says that an
eviction has chosen the group to be discarded (R330, R337), and `pend` holds registers that RESTORE found pending in PEND and that no
entry of a parked split keeps pending (R338). -/
structure Group where
  live    : Bool
  ctx     : Nat
  launch  : Word
  unit    : Nat
  num     : Nat
  x       : Nat
  y       : Nat
  z       : Nat
  csIdx   : Nat
  cls     : Nat
  ecap    : Nat
  idem    : Bool
  sysp    : Bool
  sbase   : DWord
  lbase   : DWord
  ctxb    : DWord
  slots   : Tab Word
  g       : Nat
  v       : Tab Word
  under   : Tab RowImage
  p       : Tab Mask
  tm      : Tab DWord
  udiv    : Bool
  accov   : Bool
  uaff    : Bool
  ureg    : BitVec 6
  erc     : BitVec 3
  mls0    : Word
  mls1    : Word
  mls2    : Word
  mls3    : Word
  seqr    : SeqRec
  frec    : DWord
  mark    : Option IdemRec
  disc    : Bool
  pend    : List Nat
  tag     : Nat
  arr     : Option ArrayWord
  rounds  : Nat
  enq     : Nat
  brvNext : Nat
  splits  : Tab Split
deriving DecidableEq, Repr, Inhabited

/-- A group slot that holds no group. -/
def Group.empty : Group where
  live    := false
  ctx     := 0
  launch  := 0
  unit    := 0
  num     := 0
  x       := 0
  y       := 0
  z       := 0
  csIdx   := 0
  cls     := 0
  ecap    := 0
  idem    := false
  sysp    := false
  sbase   := 0
  lbase   := 0
  ctxb    := 0
  slots   := []
  g       := 0
  v       := []
  under   := []
  p       := []
  tm      := []
  udiv    := false
  accov   := false
  uaff    := false
  ureg    := 0
  erc     := 0
  mls0    := 0
  mls1    := 0
  mls2    := 0
  mls3    := 0
  seqr    := default
  frec    := 0
  mark    := none
  disc    := false
  pend    := []
  tag     := 0
  arr     := none
  rounds  := 0
  enq     := 0
  brvNext := 0
  splits  := []

/-! ### Cores (R145, R146, R160, R218, R255) -/

/-- A live phaser object: its unit and its byte offset in the core's scratchpad (R253, R255). -/
structure PhaserTag where
  unit : Nat
  off  : Nat
deriving DecidableEq, Repr, Inhabited

/-- A core (R145, R146, R152, R160, R219, R307). Of its free rows, `rows` were written before and `fresh` never were (R145). -/
structure Core where
  lim      : Tab Nat
  escLimit : Nat
  ctxSlots : Tab Nat
  rows     : List RowImage
  fresh    : Nat
  phasers  : List PhaserTag
  growNext : Nat
  admitNext : Nat
deriving DecidableEq, Repr, Inhabited

/-- A core after reset: LIM0 240 (R146), LIMIT 512 (R160). -/
def Core.empty : Core where
  lim      := [(0, 240)]
  escLimit := 512
  ctxSlots := []
  rows     := []
  fresh    := Config.rowsPerCore
  phasers  := []
  growNext := 0
  admitNext := 0

/-! ### Memory system (R51, R64, R115, R266, R269, R361) -/

/-- The integrity tag of a line: the key it was made under and the tweak of R63 (R64, log 9). -/
structure LineTag where
  key   : BitVec 512
  tweak : BitVec 128
deriving DecidableEq, Repr, Inhabited

/-- The metadata of a 128-byte line (R64, R67, R269, R361). -/
structure LineMeta where
  written  : Bool
  poison   : Bool
  tag      : Option LineTag
  releaser : Option Nat
  writer   : Option Nat
deriving DecidableEq, Repr, Inhabited

/-- A line as bring-up leaves it: unwritten (R361). -/
def LineMeta.empty : LineMeta where
  written  := false
  poison   := false
  tag      := none
  releaser := none
  writer   := none

/-- A clean copy of a line in a core (R115, R262), with the home write number of each byte. -/
structure Copy where
  core  : Nat
  cls   : PathClass
  ctx   : Nat
  line  : DWord
  bytes : List Byte
  vers  : List Nat
deriving DecidableEq, Repr, Inhabited

/-- The latest write of a byte that a split's loads have returned: a home write number, or a level-1 entry (R266). -/
inductive Floor where
  | home (n : Nat)
  | level1 (id : Nat)
deriving DecidableEq, Repr, Inhabited

/-- A floor of one split and one byte address. -/
structure FloorRec where
  uid  : Nat
  core : Nat
  addr : DWord
  fl   : Floor
deriving DecidableEq, Repr, Inhabited

/-- A release-log entry (R269): the CORE-scope release and the level-1 entries it covers. -/
structure RelLog where
  core   : Nat
  rel    : Nat
  key    : Nat
  covers : List Nat
deriving DecidableEq, Repr, Inhabited

/-- A cached translation (R51): the entry of a level, by context, index path and the place of its table, so that an entry of a table
that a discarded upper entry named serves no walk that does not pass through that table. -/
structure TlbEntry where
  ctx   : Nat
  level : Nat
  idx   : Nat
  key   : Nat
  entry : DWord
deriving DecidableEq, Repr, Inhabited

/-- A TLBSYNC that has not completed (R52, R54); `old` is what the die had cached when it arrived and has not cached again since.
One that the Transit engine performs for a move names the move's record and has no number of its own (R79). -/
structure Sync where
  seq   : Word
  ctx   : Nat
  all   : Bool
  tid   : Option Nat
  old   : List TlbEntry
deriving DecidableEq, Repr, Inhabited

/-- A footprint descriptor (R55). -/
structure Desc where
  base : DWord
  word : DWord
deriving DecidableEq, Repr, Inhabited

/-- A lease range of a launch (R57, R60). `idx` is the descriptor's index. -/
structure Lease where
  launch  : Word
  idx     : Nat
  ctx     : Nat
  die     : Nat
  desc    : Desc
  granted : Bool
  asked   : Bool
deriving DecidableEq, Repr, Inhabited

/-! ### Dies (R44, R53, R54, R59, R65, R70, R79, R93, R100, R114) -/

/-- The state of a transit record (R79, R84, R87). -/
inductive TState where
  | copying
  | done
  | aborting
  | aborted
deriving DecidableEq, Repr, Inhabited

/-- A transit record in use (R79). `sync` says that it waits for a TLBSYNC; `slot` is the order's ring slot; `cancel` is
the ring slot of the cancel order that aborts it. -/
structure TransitRec where
  state    : TState
  va       : DWord
  ctx      : Nat
  size     : Nat
  srcTier  : Nat
  srcFrame : Nat
  dstTier  : Nat
  dstFrame : Nat
  cursor   : Nat
  order    : BitVec 16
  hinted   : Bool
  slot     : Nat
  cancel   : Option Nat
  reason   : Nat
  sync     : Bool
  age      : Nat
deriving DecidableEq, Repr, Inhabited

/-- A heat counter (R70, R71). -/
structure HeatEnt where
  region : Bool
  ctx    : Nat
  block  : Nat
  way    : Nat
  count  : Nat
deriving DecidableEq, Repr, Inhabited

/-- A hint on its way to the engine (R76). -/
structure Hint where
  ctx    : Nat
  launch : Word
  addr   : DWord
  tier   : Nat
deriving DecidableEq, Repr, Inhabited

/-- The status of one ring (R100, R101). -/
structure RingStat where
  code  : BitVec 12
  fault : Bool
  spare : Bool
  lock  : Bool
  low   : Nat
deriving DecidableEq, Repr, Inhabited

/-- The owner side of a die, and its engines and registers. `copied` is the age of the move that copied the last line (R75), and `l2` names the
lines that the home slices of the die hold, by physical key / 128, the latest used last (R2, R116). -/
structure Die where
  mtctx   : DWord
  mtErr   : Bool
  mtEcmd  : BitVec 4
  mtEctx  : BitVec 10
  mtReady : Bool
  mtseq   : Word
  mtack   : Word
  mtkey   : Tab DWord
  keys    : Tab (BitVec 512)
  lrbase  : DWord
  lrhead  : BitVec 16
  lrtail  : BitVec 16
  cxrng   : Tab DWord
  txDrops : Nat
  txReady : Bool
  txquota : Nat
  txdecay : Word
  txrbase : DWord
  txlbase : DWord
  txrhead : BitVec 16
  txrtail : BitVec 16
  txlhead : BitVec 16
  txltail : BitVec 16
  txptab  : DWord
  txsel   : BitVec 12
  txpol   : Tab Word
  recs    : Tab TransitRec
  moveAge : Nat
  hints   : List Hint
  heat    : List HeatEnt
  spent   : Nat
  copied  : Option Nat
  lastDecay : Word
  rngsel  : Word
  rings   : Tab RingStat
  rngLoop : Bool
  rngPeriod : BitVec 16
  syncs   : List Sync
  tlb     : List TlbEntry
  l2      : List Nat
deriving DecidableEq, Repr, Inhabited

/-- A die after reset (R53, R59, R93, R100, R114; the others log 4). -/
def Die.empty : Die where
  mtctx   := 0
  mtErr   := false
  mtEcmd  := 0
  mtEctx  := 0
  mtReady := false
  mtseq   := 0
  mtack   := 0
  mtkey   := []
  keys    := []
  lrbase  := 0
  lrhead  := 0
  lrtail  := 0
  cxrng   := []
  txDrops := 0
  txReady := false
  txquota := 4096
  txdecay := 65536
  txrbase := 0
  txlbase := 0
  txrhead := 0
  txrtail := 0
  txlhead := 0
  txltail := 0
  txptab  := 0
  txsel   := 0
  txpol   := []
  recs    := []
  moveAge := 0
  hints   := []
  heat    := []
  spent   := 0
  copied  := none
  lastDecay := 0
  rngsel  := 0
  rings   := []
  rngLoop := true
  rngPeriod := 18000
  syncs   := []
  tlb     := []
  l2      := []

/-! ### Contexts (R42, R139, R294, R309, R321) -/

/-- The state of a context on a core (R321). -/
inductive CtxState where
  | absent
  | running
  | preempted
  | halted
  | evicting
  | evicted
  | restoring
deriving DecidableEq, Repr, Inhabited

/-- A context on one core: its state, and what an eviction saved: the groups by slot, the ROWOFF of each that was not
discarded, and the live phaser objects by unit and partition offset (R321, R330, R332, R336); an object of a unit that has ended is of unit 0.
`sent` holds the lines of the image that an eviction has sent, by their offsets; a restore that has sent its reads holds
the empty list there (R330, R338). -/
structure CtxCore where
  state : CtxState
  saved : Tab Group
  rowOff : Tab Nat
  objs  : List PhaserTag
  sent  : Option (List (Nat × List Byte))
deriving DecidableEq, Repr, Inhabited

/-- A context that is not on the core. -/
def CtxCore.empty : CtxCore where
  state := .absent
  saved := []
  rowOff := []
  objs  := []
  sent  := none

/-- The registers of a context. -/
structure Ctx where
  pri     : BitVec 3
  wdint   : Word
  swb     : Tab DWord
  swl     : Tab DWord
  trvec   : DWord
  trmask  : Word
  trlpc   : Word
  savbase : DWord
  resErr  : Bool
  resCore : Nat
  resAll  : Bool
  resGoal : Option CtxState
  resCores : List Nat
  resDone : Bool
  fltErr  : Bool
  arm     : Bool
  eqbase  : DWord
  eqhead  : BitVec 16
  eqtail  : BitVec 16
  eqOwn   : Bool
  eqDrops : Nat
  eqOvf   : Bool
deriving DecidableEq, Repr, Inhabited

/-- A context after reset (R139, R294, R309, R321). -/
def Ctx.empty : Ctx where
  pri     := 0
  wdint   := 2000000
  swb     := []
  swl     := []
  trvec   := 0
  trmask  := 0
  trlpc   := 0
  savbase := 0
  resErr  := false
  resCore := 0
  resAll  := false
  resGoal := none
  resCores := []
  resDone := false
  fltErr  := false
  arm     := false
  eqbase  := 0
  eqhead  := 0
  eqtail  := 0
  eqOwn   := false
  eqDrops := 0
  eqOvf   := false

/-! ### Engines (R123-R134) -/

/-- A job card in a cluster's window (R123, R127, R132). `uid` and `bound` name the accesses that its issue stands behind
(R135), and `heir` is the split that the issuing split has become (R264); `idxs`, `rowVals` (the row values of XRED element i, row r
at 65536 i + r) and `vals` hold what elements under way have read, `sent` (8 i + j) the multicast targets written, and `perf` the
elements performed (R128, R129); `opened` holds the lines whose packet has been sent, by role (R98); `phgone` says that the phaser it
arrives on has been freed (R129). -/
structure Card where
  job     : Word
  header  : BitVec 128
  descs   : List Desc
  tail    : BitVec 128
  ag      : Agent
  tag     : Nat
  uid     : Nat
  bound   : Nat
  heir    : Nat
  unit    : Nat
  ctx     : Nat
  launch  : Word
  started : Bool
  status  : Nat
  badAddr : DWord
  perf    : Tab Unit
  idxs    : Tab Word
  rowVals : Tab Word
  vals    : Tab DWord
  sent    : Tab Unit
  opened  : Tab Unit
  phgone  : Bool
deriving DecidableEq, Repr, Inhabited

/-- A cluster's task scheduler: the job counter and the window in entry order (R127, R132). -/
structure Cluster where
  jobCtr : Word
  window : List Card
deriving DecidableEq, Repr, Inhabited

/-- A cluster after reset (R127). -/
def Cluster.empty : Cluster where
  jobCtr := 0
  window := []

/-! ### Launches (R295-R300) -/

/-- The outcome of a named object (R295). -/
inductive HStatus where
  | running
  | completed
  | failed
  | cancelled
deriving DecidableEq, Repr, Inhabited

/-- A named object of the hierarchy (R295, R297). -/
structure Handle where
  ctx     : Nat
  parent  : Word
  status  : HStatus
  count   : Nat
  closed  : Bool
  failing : Bool
  cancelling : Bool
deriving DecidableEq, Repr, Inhabited

/-- A launch record as the distributor reads it (R299). -/
structure LaunchRec where
  sbase  : DWord
  lbase  : DWord
  ctxb   : DWord
  gx     : Nat
  gy     : Nat
  gz     : Nat
  groups : Nat
  cset   : Nat
  regg   : Nat
  ecap   : Nat
  scr    : Nat
  phn    : Nat
  cls    : Nat
  idem   : Bool
  sysp   : Bool
  ctx    : Nat
  graph  : Word
  slots  : Tab Word
  foots  : List Desc
deriving DecidableEq, Repr, Inhabited

/-- A launch taken by the distributor (R57, R296, R305). `order` is the order in which launches reached it. -/
structure Launch where
  rec_    : LaunchRec
  order   : Nat
  placed  : Nat
  ended   : Nat
  failed  : Bool
  cancelled : Bool
  complete : Bool
deriving DecidableEq, Repr, Inhabited

/-- A placed unit (R119, R122, R305). `set` names its cluster set; `away` says that its context is evicted (R330). -/
structure UnitRec where
  launch : Word
  index  : Nat
  core   : Nat
  ctx    : Nat
  slots  : List Nat
  pbase  : Nat
  psize  : Nat
  set    : Option Nat
  csIdx  : Nat
  phn    : Nat
  left   : Nat
  ended  : Bool
  away   : Bool
deriving DecidableEq, Repr, Inhabited

/-! ### Fabric, power, telemetry, snapshots (R104-R110, R297, R298, R341, R353-R359) -/

/-- A flit that waits for its acknowledgement: its sequence number, the packet that it belongs to, and the die whose gateway sent it (R105,
R341). -/
structure Flit where
  seq : Word
  pkt : Word
  die : Nat
deriving DecidableEq, Repr, Inhabited

/-- One stripe group of one fibre in one direction (R104, R105, R107, R108). -/
structure Link where
  live    : BitVec 16
  service : Bool
  replay  : List Flit
  next    : Word
  expect  : Word
  macBad  : Nat
  notices : List (BitVec 16 × Word)
deriving DecidableEq, Repr, Inhabited

/-- A stripe group after reset: every wavelength live, nothing sent. -/
def Link.empty : Link where
  live    := BitVec.allOnes 16
  service := true
  replay  := []
  next    := 0
  expect  := 0
  macBad  := 0
  notices := []

/-- One telemetry sample (R357); `acc` is the sum of the mean powers in mW of all samples up to it, 10,000 to the mJ. -/
structure Sample where
  ns : DWord
  mw : Word
  acc : Nat
deriving DecidableEq, Repr, Inhabited

/-- Power, telemetry and time (R353-R357); `runs` says that a sample has been taken since power-on, and `synced` that time has been locked
since the latest. -/
structure Power where
  down     : Nat
  up       : Nat
  cap      : Nat
  newDown  : Nat
  newUp    : Nat
  newCap   : Nat
  mean     : Nat
  capped   : Bool
  burn     : Bool
  runs     : Bool
  synced   : Bool
  promote  : Bool
  throttle : Bool
  latest   : Sample
  latched  : Sample
  offset   : Word
  lock     : Bool
deriving DecidableEq, Repr, Inhabited

/-- Snapshots (R353, R359); `at_` is the step that took the one that is held, and `same` says that a source that fires now may still fire
in its cycle (log 84). -/
structure Snapshot where
  src  : BitVec 18
  frame : Word
  seq  : Word
  lost : Nat
  hit  : BitVec 18
  full : Bool
  at_  : Nat
  same : Bool
  selBlock : Nat
  selIndex : Nat
  data : Tab DWord
deriving DecidableEq, Repr, Inhabited

/-- The distributor's registers (R297, R298). -/
structure Distributor where
  res    : DWord
  ibase  : DWord
  ihead  : BitVec 16
  itail  : BitVec 16
  hmbase : DWord
  hmctx  : Word
deriving DecidableEq, Repr, Inhabited

/-! ### The whole state -/

/-- The state. `groups` is keyed by 64 core + slot, `dies` by 4 node + die, `ctxCores` by 256 ctx + core, `links` by
8 fibre + 4 (1 for receive) + group, `quotas`, `inForce` and `spent` (the quota of the present frame and the flits charged to it)
by CHQSEL index, `served` (the last writer served) by Chainline channel, `lines` by physical key / 128, `turns` by 64 die + fibre. `frameAt` is
the step that began the present frame, and `posts` holds event records, with their contexts, that wait for the memory of their queues
(R358). -/
structure State where
  agenda   : List Turn
  node     : BitVec 9
  cur      : Agent
  curLane  : Bool
  tick     : Nat
  mem      : Memory
  lines    : Tab LineMeta
  groups   : Tab Group
  cores    : Tab Core
  dies     : Tab Die
  ctxs     : Tab Ctx
  ctxCores : Tab CtxCore
  clusters : Tab Cluster
  ents     : List Entry
  nextId   : Nat
  nextUid  : Nat
  copies   : List Copy
  bver     : Tab Nat
  wseq     : Nat
  floors   : List FloorRec
  relLog   : List RelLog
  leases   : List Lease
  handles  : Tab Handle
  nextSer  : Nat
  launches : Tab Launch
  nextLaunch : Nat
  units    : Tab UnitRec
  nextUnit : Nat
  nextSet  : Nat
  chframe  : Word
  chqsel   : BitVec 9
  quotas   : Tab Nat
  inForce  : Tab Nat
  spent    : Tab Nat
  frameAt  : Nat
  nextInj  : Nat
  served   : Tab Nat
  eqsel    : BitVec 10
  eqReady  : Bool
  ds       : Distributor
  power    : Power
  snap     : Snapshot
  ready    : DWord
  domain   : List Nat
  links    : Tab Link
  linkRing : List (BitVec 128)
  turns    : Tab Nat
  posts    : List (Nat × Nat)
  downPorts : List Nat
  lostPeers : List Nat
deriving DecidableEq, Repr, Inhabited

/-- The machine right after reset: every register at the value its rule gives, or at the value log 4 names. -/
def State.reset : State where
  agenda   := []
  node     := 0
  cur      := ⟨0, 0, 0⟩
  curLane  := false
  tick     := 0
  mem      := []
  lines    := []
  groups   := []
  cores    := []
  dies     := []
  ctxs     := []
  ctxCores := []
  clusters := []
  ents     := []
  nextId   := 0
  nextUid  := 1
  copies   := []
  bver     := []
  wseq     := 1
  floors   := []
  relLog   := []
  leases   := []
  handles  := []
  nextSer  := 1
  launches := []
  nextLaunch := 0
  units    := []
  nextUnit := 1
  nextSet  := 1
  chframe  := 0
  chqsel   := 0
  quotas   := []
  inForce  := []
  spent    := []
  frameAt  := 0
  nextInj  := 0
  served   := []
  eqsel    := 0
  eqReady  := false
  ds       := ⟨0, 0, 0, 0, 0, 0⟩
  power    := ⟨40, 40, Config.tdp, 40, 40, Config.tdp, 0, false, false, false, false, false, false, ⟨0, 0, 0⟩, ⟨0, 0, 0⟩, 0, false⟩
  snap     := ⟨0, 0, 0, 0, 0, false, 0, false, 0, 0, []⟩
  ready    := 0
  domain   := []
  links    := []
  linkRing := []
  turns    := []
  posts    := []
  downPorts := []
  lostPeers := []

/-- Why the machine stops. -/
inductive Fault where
  /-- The step function raises it when the agenda names a split that does not exist. Safe: the hardware has no such
  turn, so no behaviour of it is lost (log 1). -/
  | absentAgent
deriving DecidableEq, Repr

/-- Why an instruction has no meaning. -/
inductive Refusal where
  /-- Raised by exec alone, for an instruction that has no meaning yet. Safe: the model stops where the hardware goes on. -/
  | notModelled (mnemonic : String)
deriving DecidableEq, Repr

end Sys2Proof.Machine
end

