-- ==== Sys2Proof/Machine/Bits.lean ====
section
/-! DEFINITION. Bit fields, sign extension, byte order and lane masks (R5, R16, R171). -/

namespace Sys2Proof.Machine

/-- Sign extension of an `n`-bit field to 32 bits. -/
def sext32 {n : Nat} (b : BitVec n) : Word := b.signExtend 32

/-- Sign extension to 64 bits. -/
def sext64 {n : Nat} (b : BitVec n) : DWord := b.signExtend 64

/-- The 64-bit value of a pair, high word first (R148). -/
def pair (hi lo : Word) : DWord := hi ++ lo

/-- The low word of a pair. -/
def loW (d : DWord) : Word := d.setWidth 32

/-- The high word of a pair. -/
def hiW (d : DWord) : Word := (d >>> 32).setWidth 32

/-- `n` bytes of a number, lowest first (R16). -/
def toBytes (v : Nat) : Nat → List Byte
  | 0 => []
  | n + 1 => BitVec.ofNat 8 v :: toBytes (v / 256) n

/-- The number whose bytes, lowest first, are `bs` (R16). -/
def ofBytes : List Byte → Nat
  | [] => 0
  | b :: bs => b.toNat + 256 * ofBytes bs

/-- Bit `n` of a number. -/
def bitNat (v n : Nat) : Bool := v / 2 ^ n % 2 == 1

/-- A bit as a number. -/
def b2n (b : Bool) : Nat := if b then 1 else 0

/-- Two's complement reading of the low `n` bits of a number. -/
def signedNat (n v : Nat) : Int :=
  if v % 2 ^ n < 2 ^ (n - 1) then (v % 2 ^ n : Nat) else ((v % 2 ^ n : Nat) : Int) - 2 ^ n

/-- The low `n` bits of an integer, as a number. -/
def wrapNat (n : Nat) (i : Int) : Nat := (i % 2 ^ n).toNat

/-- A word that holds an integer modulo 2^32. -/
def wordOfInt (i : Int) : Word := BitVec.ofInt 32 i

/-- Lane `l` of a mask. -/
def Mask.has (m : Mask) (l : Nat) : Bool := m.getLsbD l

/-- The mask whose lane `l` is `f l`. -/
def Mask.of (f : Nat → Bool) : Mask := (BitVec.ofBoolListLE (lanes.map f)).setWidth 32

/-- The mask of a list of lanes. -/
def Mask.ofList (ls : List Nat) : Mask := Mask.of fun l => ls.contains l

/-- The lanes of a mask in increasing order. -/
def Mask.list (m : Mask) : List Nat := lanes.filter fun l => Mask.has m l

/-- The lowest lane of a mask; 32 when it is empty. -/
def Mask.lowest (m : Mask) : Nat := (Mask.list m).headD 32

/-- The numbers of [0, n) in increasing order that satisfy `f`. -/
def below (n : Nat) (f : Nat → Bool) : List Nat := (List.range n).filter f

/-- The lowest number below `n` that satisfies `f`. -/
def firstBelow (n : Nat) (f : Nat → Bool) : Option Nat := (List.range n).find? f

/-- The sum of `f` over a list. -/
def sumOver {α : Type} (l : List α) (f : α → Nat) : Nat := (l.map f).sum

/-- Puts an element before the first of a list that it must not follow. -/
def insertBy {α : Type} (le : α → α → Bool) (x : α) : List α → List α
  | [] => [x]
  | y :: ys => if le x y then x :: y :: ys else y :: insertBy le x ys

/-- The list in the order of a comparison. -/
def sortBy {α : Type} (le : α → α → Bool) (l : List α) : List α := l.foldr (insertBy le) []

/-- `t` comes before `u` modulo 2^32: (u - 1 - t) mod 2^32 is below 2^31 (R54, R253). -/
def before32 (t u : Word) : Bool := (u - 1 - t).toNat < 2 ^ 31

/-- A token `t` has been acknowledged by `a` (R54). -/
def acked (a t : Word) : Bool := (a - t).toNat < 2 ^ 31

end Sys2Proof.Machine
end

