-- ==== Sys2Proof/Machine/Num.lean ====
section
/-! DEFINITION. Number formats, exact values, rounding, saturation, NaN policies and conversion (R167-R182). Every float
operation computes an exact value here and rounds it once. -/

namespace Sys2Proof.Machine

/-! ### Formats (R167, R170, R172) -/

/-- A floating format: its exponent and fraction widths, its bias, and whether it has infinities and NaNs (R167). -/
structure FloatFmt where
  eb   : Nat
  mb   : Nat
  bias : Nat
  inf  : Bool
  nan  : Bool
deriving DecidableEq, Repr

def f32 : FloatFmt := ⟨8, 23, 127, true, true⟩
def h16 : FloatFmt := ⟨5, 10, 15, true, true⟩
def b16 : FloatFmt := ⟨8, 7, 127, true, true⟩
def f8e4 : FloatFmt := ⟨4, 3, 7, false, true⟩
def f8e5 : FloatFmt := ⟨5, 2, 15, true, true⟩
def f4e2 : FloatFmt := ⟨2, 1, 1, false, false⟩

/-- The internal format of R172. -/
def x48 : FloatFmt := ⟨11, 47, 1023, true, true⟩

/-- The float format of an ELEM code 0-5 (R173). -/
def fmtOf (code : Nat) : FloatFmt :=
  match code with
  | 0 => f32
  | 1 => h16
  | 2 => b16
  | 3 => f8e4
  | 4 => f8e5
  | _ => f4e2

/-- The code names a float format (R173). -/
def isFloat (code : Nat) : Bool := code ≤ 5

/-- The width of an element in bits; 0xC is s64 (R170, R173). -/
def elemBits (code : Nat) : Nat :=
  match code with
  | 0 => 32
  | 1 => 16
  | 2 => 16
  | 3 => 8
  | 4 => 8
  | 5 => 4
  | 6 => 8
  | 7 => 8
  | 8 => 4
  | 9 => 4
  | 0xC => 64
  | _ => 32

/-- The code names a signed integer format (R170, R173). -/
def isSigned (code : Nat) : Bool := code == 6 || code == 8 || code == 0xA || code == 0xC

/-- Elements of a format in a lane (R171). -/
def perLane (code : Nat) : Nat := 32 / elemBits code

/-- Element `i` of a lane value (R171). -/
def elemOf (code : Nat) (x : Word) (i : Nat) : Nat := x.toNat / 2 ^ (elemBits code * i) % 2 ^ elemBits code

/-- The lane value with element `i` replaced (R171). -/
def setElem (code : Nat) (x : Word) (i v : Nat) : Word :=
  let b := elemBits code
  BitVec.ofNat 32 (x.toNat - elemOf code x i * 2 ^ (b * i) + v % 2 ^ b * 2 ^ (b * i))

/-! ### Values (R167) -/

/-- A NaN's sign, fraction and fraction width; none for a NaN that an invalid operation makes (R180). -/
abbrev NanSrc := Option (Bool × Nat × Nat)

/-- An exact value: (-1)^neg m 2^e when finite. -/
inductive Val where
  | nan (src : NanSrc)
  | inf (neg : Bool)
  | fin (neg : Bool) (m : Nat) (e : Int)
deriving DecidableEq, Repr

/-- The value of a pattern (R167). -/
def FloatFmt.decode (f : FloatFmt) (bits : Nat) : Val :=
  let s := bitNat bits (f.eb + f.mb)
  let e := bits / 2 ^ f.mb % 2 ^ f.eb
  let m := bits % 2 ^ f.mb
  let top := 2 ^ f.eb - 1
  if e == top && f.inf then (if m == 0 then .inf s else .nan (some (s, m, f.mb)))
  else if e == top && f.nan && m == 2 ^ f.mb - 1 then .nan (some (s, m, f.mb))
  else if e == 0 then .fin s m (1 - (f.bias : Int) - f.mb)
  else .fin s (2 ^ f.mb + m) ((e : Int) - f.bias - f.mb)

/-- The pattern is a nonzero subnormal. -/
def FloatFmt.isSub (f : FloatFmt) (bits : Nat) : Bool :=
  bits / 2 ^ f.mb % 2 ^ f.eb == 0 && bits % 2 ^ f.mb != 0

/-- The sign bit of a pattern. -/
def FloatFmt.sign (f : FloatFmt) (bits : Nat) : Bool := bitNat bits (f.eb + f.mb)

/-- The sign bit's weight when set. -/
def FloatFmt.signW (f : FloatFmt) (neg : Bool) : Nat := if neg then 2 ^ (f.eb + f.mb) else 0

/-- Zero of a sign. -/
def FloatFmt.zero (f : FloatFmt) (neg : Bool) : Nat := f.signW neg

/-- Infinity of a sign. -/
def FloatFmt.infinity (f : FloatFmt) (neg : Bool) : Nat := f.signW neg + (2 ^ f.eb - 1) * 2 ^ f.mb

/-- The largest finite magnitude (R168). -/
def FloatFmt.maxBits (f : FloatFmt) : Nat :=
  if f.inf then (2 ^ f.eb - 1) * 2 ^ f.mb - 1
  else if f.nan then 2 ^ (f.eb + f.mb) - 2
  else 2 ^ (f.eb + f.mb) - 1

/-- The canonical NaN (R168). -/
def FloatFmt.canonNan (f : FloatFmt) : Nat :=
  if f.inf then (2 ^ f.eb - 1) * 2 ^ f.mb + 2 ^ (f.mb - 1) else 2 ^ (f.eb + f.mb) - 1

/-- The integer that a pattern of an integer format stands for (R170). -/
def intOf (code bits : Nat) : Int := if isSigned code then signedNat (elemBits code) bits else (bits % 2 ^ elemBits code : Nat)

/-- An integer as an exact value; zero is +0 (R182). -/
def valOfInt (i : Int) : Val := .fin (i < 0) i.natAbs 0

/-- Value(sf, bits) of R182. -/
def valueOf (code bits : Nat) : Val :=
  if isFloat code then (fmtOf code).decode (bits % 2 ^ elemBits code) else valOfInt (intOf code bits)

/-! ### Exact arithmetic -/

/-- The number of bits of `n`. -/
def bitLen (n : Nat) : Nat := if n = 0 then 0 else n.log2 + 1

/-- The signed mantissa of a finite value. -/
def mantOf (neg : Bool) (m : Nat) : Int := if neg then -(m : Int) else m

/-- An exact dyadic from a signed mantissa; a zero has the sign given. -/
def finOf (m : Int) (e : Int) (zeroNeg : Bool) : Val := .fin (if m = 0 then zeroNeg else m < 0) m.natAbs e

/-- The mantissa of m 2^e at exponent `e0` at or below `e`. -/
def alignTo (m : Int) (e e0 : Int) : Int := m * 2 ^ (e - e0).toNat

/-- The negated value. -/
def Val.neg (v : Val) : Val :=
  match v with
  | .nan s => .nan s
  | .inf n => .inf (!n)
  | .fin n m e => .fin (!n) m e

/-- The value is a NaN. -/
def Val.isNan (v : Val) : Bool :=
  match v with
  | .nan _ => true
  | _ => false

/-- The value is a zero. -/
def Val.isZero (v : Val) : Bool :=
  match v with
  | .fin _ m _ => m == 0
  | _ => false

/-- The sign of a value; false for a NaN. -/
def Val.isNeg (v : Val) : Bool :=
  match v with
  | .nan _ => false
  | .inf n => n
  | .fin n _ _ => n

/-- The exact product; NaN for 0 times infinity (R176, R196). -/
def Val.mul (a b : Val) : Val :=
  match a, b with
  | .nan s, _ => .nan s
  | _, .nan s => .nan s
  | .inf n, .inf k => .inf (n != k)
  | .inf n, .fin k m _ => if m = 0 then .nan none else .inf (n != k)
  | .fin n m _, .inf k => if m = 0 then .nan none else .inf (n != k)
  | .fin n m e, .fin k l f => .fin (n != k) (m * l) (e + f)

/-- The exact sum. Two zeros of opposite signs, and an exact cancellation, give a zero with the sign `zneg` (R196). -/
def Val.add (a b : Val) (zneg : Bool) : Val :=
  match a, b with
  | .nan s, _ => .nan s
  | _, .nan s => .nan s
  | .inf n, .inf k => if n = k then .inf n else .nan none
  | .inf n, .fin _ _ _ => .inf n
  | .fin _ _ _, .inf k => .inf k
  | .fin n m e, .fin k l f =>
    let e0 := min e f
    let x := alignTo (mantOf n m) e e0 + alignTo (mantOf k l) f e0
    if m = 0 ∧ l = 0 then .fin (if n = k then n else zneg) 0 e0
    else finOf x e0 zneg

/-- The order of two values that are no NaN: -1, 0 or 1; the two zeros are equal (R169). -/
def Val.cmp (a b : Val) : Int :=
  match a, b with
  | .inf n, .inf k => if n = k then 0 else if n then -1 else 1
  | .inf n, _ => if n then -1 else 1
  | _, .inf k => if k then 1 else -1
  | .fin n m e, .fin k l f =>
    let e0 := min e f
    let x := alignTo (mantOf n m) e e0 - alignTo (mantOf k l) f e0
    if x < 0 then -1 else if x = 0 then 0 else 1
  | _, _ => 0

/-! ### Rounding (R30, R177, R178) -/

/-- Whether the magnitude rounds up: `lo` is the lower neighbour in units, `rem / unit` the rest (R177). -/
def roundUp (rm : Nat) (neg : Bool) (lo rem unit : Nat) : Bool :=
  if rem = 0 then false
  else
    match rm with
    | 0 => unit < 2 * rem || (2 * rem == unit && lo % 2 == 1)
    | 1 => false
    | 2 => !neg
    | 3 => neg
    | _ => lo % 2 == 0

/-- The integer multiple of 2^q that m 2^e rounds to (R177). -/
def quantise (rm : Nat) (neg : Bool) (m : Nat) (e q : Int) : Nat :=
  if q ≤ e then m * 2 ^ (e - q).toNat
  else
    let unit := 2 ^ (q - e).toNat
    let lo := m / unit
    if roundUp rm neg lo (m % unit) unit then lo + 1 else lo

/-- Rounding away from zero, for R178. -/
def isAway (rm : Nat) (neg : Bool) : Bool := rm == 0 || (rm == 2 && !neg) || (rm == 3 && neg)

/-- What stands for a value beyond the largest finite one (R178); `away` also for an infinite source. -/
def FloatFmt.overflow (f : FloatFmt) (neg away sat : Bool) : Nat :=
  if sat || !away then f.signW neg + f.maxBits
  else if f.inf then f.infinity neg
  else if f.nan then f.signW neg + f.canonNan
  else f.signW neg + f.maxBits

/-- Rounds a finite value into a format (R177, R178). -/
def FloatFmt.roundFin (f : FloatFmt) (rm : Nat) (sat neg : Bool) (m : Nat) (e : Int) : Nat :=
  if m = 0 then f.zero neg
  else
    let qmin : Int := 1 - f.bias - f.mb
    let q : Int := max (e + bitLen m - 1 - f.mb) qmin
    let r := quantise rm neg m e q
    let (r, q) := if r == 2 ^ (f.mb + 1) then (2 ^ f.mb, q + 1) else (r, q)
    let mag := if r < 2 ^ f.mb then r else (q - qmin + 1).toNat * 2 ^ f.mb + (r - 2 ^ f.mb)
    if f.maxBits < mag then f.overflow neg (isAway rm neg) sat else f.signW neg + mag

/-- A NaN written under a policy into a float format (R180). -/
def FloatFmt.nanOut (f : FloatFmt) (pol : Nat) (src : NanSrc) : Nat :=
  if !f.nan then 0
  else
    match pol, src with
    | 1, _ => 0
    | 2, some (s, m, w) =>
      if !f.inf then f.signW s + f.canonNan
      else
        let frac := if f.mb ≤ w then m / 2 ^ (w - f.mb) else m * 2 ^ (f.mb - w)
        let quiet := 2 ^ (f.mb - 1)
        f.signW s + (2 ^ f.eb - 1) * 2 ^ f.mb + (if bitNat frac (f.mb - 1) then frac else frac + quiet)
    | _, _ => f.canonNan

/-- Round(fmt, x, mode) with NaNs under a policy and infinities under R178. -/
def FloatFmt.round (f : FloatFmt) (rm : Nat) (sat : Bool) (pol : Nat) (v : Val) : Nat :=
  match v with
  | .nan s => f.nanOut pol s
  | .inf n => f.overflow n true sat
  | .fin n m e => f.roundFin rm sat n m e

/-- A value rounded to x48, nearest-even (R172). -/
def Val.toX48 (v : Val) : Val :=
  match v with
  | .nan s => .nan s
  | .inf n => .inf n
  | .fin n m e => x48.decode (x48.roundFin 0 false n m e)

/-- The integer that a finite value rounds to (R177, R181). -/
def roundInt (rm : Nat) (neg : Bool) (m : Nat) (e : Int) : Int := mantOf neg (quantise rm neg m e 0)

/-- The range of an integer format (R170). -/
def intMin (code : Nat) : Int := if isSigned code then -(2 ^ (elemBits code - 1) : Nat) else 0
def intMax (code : Nat) : Int := if isSigned code then (2 ^ (elemBits code - 1) : Nat) - 1 else (2 ^ elemBits code : Nat) - 1

/-- Clamps to the range of an integer format. -/
def clampInt (code : Nat) (i : Int) : Int := max (intMin code) (min (intMax code) i)

/-- Into an integer format (R180, R181). -/
def intRound (code rm : Nat) (v : Val) : Nat :=
  wrapNat (elemBits code) <|
    match v with
    | .nan _ => 0
    | .inf n => if n then intMin code else intMax code
    | .fin n m e => clampInt code (roundInt rm n m e)

/-! ### Slots (R173) -/

def slotElem (w : Word) : Nat := bitsNat w.toNat 3 0
def slotScale (w : Word) : Nat := bitsNat w.toNat 5 4
def slotSat (w : Word) : Bool := bitNat w.toNat 6
def slotFtz (w : Word) : Bool := bitNat w.toNat 7
def slotNan (w : Word) : Nat := bitsNat w.toNat 9 8
def slotAcc (w : Word) : Nat := bitsNat w.toNat 13 10

/-- A slot word that a launch may carry (R173). -/
def slotOk (w : Word) : Bool :=
  bitsNat w.toNat 31 14 == 0 && (slotAcc w == 0 || slotAcc w == 0xA || slotAcc w == 0xB) && slotNan w < 3
  && slotScale w < 3 && slotElem w < 12

/-- A value read in a slot's element format, with FTZ (R179). -/
def readElem (slot : Word) (code bits : Nat) : Val :=
  let v := valueOf code bits
  if slotFtz slot && isFloat code && (fmtOf code).isSub (bits % 2 ^ elemBits code) then .fin v.isNeg 0 0 else v

/-- A pattern written in a slot's element format, with FTZ (R179). -/
def flushOut (slot : Word) (code bits : Nat) : Nat :=
  if slotFtz slot && isFloat code && (fmtOf code).isSub bits then (fmtOf code).zero ((fmtOf code).sign bits) else bits

/-- The scale of a lane from the scale operand (R176). -/
def scaleOf (slot x : Word) : Val :=
  match slotScale slot with
  | 1 => f32.decode x.toNat
  | 2 => .fin false 1 (signedNat 8 x.toNat)
  | _ => .fin false 1 0

/-- Conv of R182. `dir` is true when the source is the slot side. -/
def conv (slot : Word) (dir : Bool) (sf tf bits : Nat) (scale : Val) (rm : Nat) (sat : Bool) : Nat :=
  let pol := slotNan slot
  let x := if dir then readElem slot sf bits else valueOf sf bits
  let nanTo (s : NanSrc) : Nat := if isFloat tf then (fmtOf tf).nanOut pol s else 0
  match x with
  | .nan s => nanTo s
  | x =>
    match scale with
    | .nan _ => nanTo none
    | scale =>
      match x.mul scale with
      | .nan _ => nanTo none
      | y =>
        if !isFloat tf then intRound tf rm y
        else
          let r := (fmtOf tf).round rm sat pol y
          if dir then r else flushOut slot tf r

end Sys2Proof.Machine
end

