-- ==== Sys2Proof/Machine/Regs.lean ====
section
/-! DEFINITION. The accessors of the state: groups, splits, cores, dies and contexts, the registers of a split and of a
group, and the physical rows (R145-R151). Every read and write of a register goes through this file. -/

namespace Sys2Proof.Machine

/-! ### Places in the tables -/

/-- The key of group slot `slot` of core `core`. -/
def slotKey (core slot : Nat) : Nat := 64 * core + slot

/-- The group in a slot. -/
def State.group (s : State) (core slot : Nat) : Group := Tab.get Group.empty s.groups (slotKey core slot)

/-- The state with a group in a slot. -/
def State.setGroup (s : State) (core slot : Nat) (g : Group) : State :=
  { s with groups := Tab.put s.groups (slotKey core slot) g }

/-- Split `n` of a group. -/
def Group.split (g : Group) (n : Nat) : Split := Tab.get Split.empty g.splits n

/-- The group with split `n` replaced. -/
def Group.setSplit (g : Group) (n : Nat) (sp : Split) : Group := { g with splits := Tab.put g.splits n sp }

/-- The group of an agent. -/
def State.groupOf (s : State) (ag : Agent) : Group := s.group ag.core ag.slot

/-- The split of an agent. -/
def State.splitOf (s : State) (ag : Agent) : Split := (s.groupOf ag).split ag.split

/-- The state with the group of an agent replaced. -/
def State.setGroupOf (s : State) (ag : Agent) (g : Group) : State := s.setGroup ag.core ag.slot g

/-- The state with the split of an agent replaced. -/
def State.setSplitOf (s : State) (ag : Agent) (sp : Split) : State :=
  s.setGroupOf ag ((s.groupOf ag).setSplit ag.split sp)

/-- A change of the split of an agent. -/
def State.modSplit (s : State) (ag : Agent) (f : Split → Split) : State := s.setSplitOf ag (f (s.splitOf ag))

/-- A change of the group of an agent. -/
def State.modGroup (s : State) (ag : Agent) (f : Group → Group) : State := s.setGroupOf ag (f (s.groupOf ag))

/-- The split whose word runs. -/
def State.curSplit (s : State) : Split := s.splitOf s.cur

/-- The group whose word runs. -/
def State.curGroup (s : State) : Group := s.groupOf s.cur

/-- A change of the split whose word runs. -/
def State.modCur (s : State) (f : Split → Split) : State := s.modSplit s.cur f

def State.core (s : State) (c : Nat) : Core := Tab.get Core.empty s.cores c
def State.setCore (s : State) (c : Nat) (x : Core) : State := { s with cores := Tab.put s.cores c x }
def State.die (s : State) (d : Nat) : Die := Tab.get Die.empty s.dies d
def State.setDie (s : State) (d : Nat) (x : Die) : State := { s with dies := Tab.put s.dies d x }
def State.modDie (s : State) (d : Nat) (f : Die → Die) : State := s.setDie d (f (s.die d))
def State.ctx (s : State) (c : Nat) : Ctx := Tab.get Ctx.empty s.ctxs c
def State.setCtx (s : State) (c : Nat) (x : Ctx) : State := { s with ctxs := Tab.put s.ctxs c x }
def State.modCtx (s : State) (c : Nat) (f : Ctx → Ctx) : State := s.setCtx c (f (s.ctx c))
def State.ctxCore (s : State) (ctx core : Nat) : CtxCore := Tab.get CtxCore.empty s.ctxCores (256 * ctx + core)
def State.setCtxCore (s : State) (ctx core : Nat) (x : CtxCore) : State :=
  { s with ctxCores := Tab.put s.ctxCores (256 * ctx + core) x }
def State.cluster (s : State) (c : Nat) : Cluster := Tab.get Cluster.empty s.clusters c
def State.setCluster (s : State) (c : Nat) (x : Cluster) : State := { s with clusters := Tab.put s.clusters c x }
def State.line (s : State) (k : Nat) : LineMeta := Tab.get LineMeta.empty s.lines k
def State.setLine (s : State) (k : Nat) (x : LineMeta) : State := { s with lines := Tab.put s.lines k x }
def State.link (s : State) (k : Nat) : Link := Tab.get Link.empty s.links k
def State.setLink (s : State) (k : Nat) (x : Link) : State := { s with links := Tab.put s.links k x }

/-- The index of die `d` (0-3) of the own node (R39). -/
def State.ownDie (s : State) (d : Nat) : Nat := 4 * s.node.toNat + d % 4

/-- A die by its number counted from the own node's die 0, node after node: 0 to 3 are the own dies, and 4 k + d is die d of the node k
further on, round the 512 of them (R39, R66; log 6). -/
def State.dieAt (s : State) (d : Nat) : Nat := 4 * ((s.node.toNat + d / 4) % 512) + d % 4

/-- The die of a core (R2). -/
def dieOfCore (core : Nat) : Nat := core / 64

/-- The cluster of a core (R2). -/
def clusterOfCore (core : Nat) : Nat := core / 8

/-- The split numbers in use. -/
def Group.live8 (g : Group) : List Nat := below 8 fun n => (g.split n).status != .absent

/-- The context's state on a core (R321). -/
def State.stateOn (s : State) (ctx core : Nat) : CtxState := (s.ctxCore ctx core).state

/-- The placed unit of a group. -/
def State.unitOf (s : State) (g : Group) : Option UnitRec := (s.units.find? fun p => p.1 == g.unit).map (·.2)

/-- All group slots that hold a group, with their core and slot. -/
def State.liveGroups (s : State) : List (Nat × Nat × Group) :=
  (s.groups.filter fun p => p.2.live).map fun p => (p.1 / 64, p.1 % 64, p.2)

/-- The live groups of a core. -/
def State.groupsOn (s : State) (core : Nat) : List (Nat × Group) :=
  (s.liveGroups.filter fun p => p.1 == core).map fun p => p.2

/-- The agents of every split of a context, with their splits. -/
def State.splitsOfCtx (s : State) (ctx : Nat) : List (Agent × Split) :=
  (s.liveGroups.filter fun p => p.2.2.ctx == ctx).flatMap fun p =>
    (Group.live8 p.2.2).map fun n => (⟨p.1, p.2.1, n⟩, p.2.2.split n)

/-! ### Scalar and affine registers (R147, R148) -/

/-- S[n]. -/
def Split.sreg (sp : Split) (n : Nat) : Word := Tab.get 0 sp.s n

/-- S[n+1]:S[n]. -/
def Split.spair (sp : Split) (n : Nat) : DWord := pair (sp.sreg (n + 1)) (sp.sreg n)

/-- The split with S[n] written. -/
def Split.setS (sp : Split) (n : Nat) (v : Word) : Split := { sp with s := Tab.put sp.s n v }

/-- The split with S[n+1]:S[n] written. -/
def Split.setPair (sp : Split) (n : Nat) (v : DWord) : Split := (sp.setS n (loW v)).setS (n + 1) (hiW v)

/-- A[n]. -/
def Split.areg (sp : Split) (n : Nat) : Affine := Tab.get ⟨0, 0⟩ sp.a n

/-- The split with A[n] written. -/
def Split.setA (sp : Split) (n : Nat) (v : Affine) : Split := { sp with a := Tab.put sp.a n v }

/-- The affine value of lane `l` (R148). -/
def Affine.lane (a : Affine) (l : Nat) : DWord := a.base + BitVec.ofNat 64 l * sext64 a.stride

/-! ### Vector registers, predicates and tile masks (R147, R148) -/

/-- V[n][L]. -/
def Group.vreg (g : Group) (n l : Nat) : Word := Tab.get 0 g.v (32 * n + l)

/-- The group with V[n][L] written; the row is the group's own from then on (R67). -/
def Group.setV (g : Group) (n l : Nat) (x : Word) : Group :=
  { g with v := Tab.put g.v (32 * n + l) x, under := Tab.del g.under n }

/-- The group with V[n][L] written in every lane of the mask. -/
def Group.setVMask (g : Group) (n : Nat) (m : Mask) (f : Nat → Word) : Group :=
  (Mask.list m).foldl (fun g l => g.setV n l (f l)) g

/-- The predicate as a mask; p0 is true in every lane (R148). -/
def Group.preg (g : Group) (n : Nat) : Mask := if n = 0 then Mask.full else Tab.get 0 g.p n

/-- The group with the predicate written; a write to p0 is performed in no lane (R148). -/
def Group.setP (g : Group) (n : Nat) (m : Mask) : Group :=
  if n = 0 then g else { g with p := Tab.put g.p n m }

/-- TM[n]. -/
def Group.tmreg (g : Group) (n : Nat) : DWord := Tab.get 0 g.tm n

/-- The group with TM[n] written. -/
def Group.setTm (g : Group) (n : Nat) (v : DWord) : Group := { g with tm := Tab.put g.tm n v }

/-- The registers of the allocation (R149). -/
def Group.regs (g : Group) : Nat := 32 * g.g

/-! ### Entries of a group (R161, R163, R164) -/

/-- The entry belongs to the group that holds the slot now (R158). -/
def Entry.inGroup (e : Entry) (core slot tag : Nat) : Bool := e.ag.core == core && e.ag.slot == slot && e.tag == tag

/-- The entries of a group. -/
def State.entsOf (s : State) (core slot : Nat) : List Entry :=
  s.ents.filter fun e => e.inGroup core slot (s.group core slot).tag

/-- An entry that has a result to write: a load, a prefetch never, an atomic with a return, a system read (R161). -/
def Entry.writesV (e : Entry) : Bool := e.dstN > 0

/-- The held entries of parked splits of a group: replays and reports that wait (R315, R334). -/
def Group.heldEnts (g : Group) : List Entry :=
  (Group.live8 g).flatMap fun n => (g.split n).replay ++ (g.split n).setReplay ++ ((g.split n).held.map (·.entry))

/-- Every entry whose destination is pending in a group: in flight or held by a parked split (R161, R315). -/
def State.pendEnts (s : State) (core slot : Nat) : List Entry :=
  s.entsOf core slot ++ (s.group core slot).heldEnts

/-- The windows that an entry keeps pending (R155, R161). -/
def Entry.windows (e : Entry) : List (Nat × Nat) :=
  (if e.dstN > 0 then [(e.dst, e.dstN)] else []) ++
    (match e.esc with
     | some x => [(x.base, x.count)]
     | none => [])

/-- The entry's result is tracked by the scoreboard (R161). -/
def Entry.tracked (e : Entry) : Bool := e.trk || e.esc.isSome

/-- Escorted requests of a group that are abroad (R163). -/
def State.eabr (s : State) (core slot : Nat) : Nat := (s.entsOf core slot).countP fun e => e.esc.isSome

/-- Escort registers of a group that are abroad. -/
def State.escRegs (s : State) (core slot : Nat) : Nat :=
  sumOver (s.entsOf core slot) fun e => (e.esc.map (·.count)).getD 0

/-- ESCB.USED of a core (R160). -/
def State.escUsed (s : State) (core : Nat) : Nat :=
  sumOver (s.ents.filter fun e => e.ag.core == core) fun e => (e.esc.map (·.count)).getD 0

/-- Escort bytes of a cluster at one home slice (R154); the slice is die * 16 + slice. -/
def State.windowUsed (s : State) (cluster slice : Nat) : Nat :=
  sumOver (s.ents.filter fun e => clusterOfCore e.ag.core == cluster) fun e =>
    match e.esc with
    | some x => if x.slice == some slice then 128 * x.count else 0
    | none => 0

/-! ### Context slots and rows (R145, R146, R150, R151) -/

/-- The context slot of a context on a core. -/
def State.ctxSlot (s : State) (core ctx : Nat) : Option Nat :=
  ((s.core core).ctxSlots.find? fun p => p.2 == ctx).map (·.1)

/-- A free context slot, the lowest. -/
def State.freeCtxSlot (s : State) (core : Nat) : Option Nat :=
  firstBelow 4 fun n => !(Tab.has (s.core core).ctxSlots n)

/-- Rows that a group holds resident (R146, R150). -/
def State.groupRows (s : State) (core slot : Nat) : Nat := (s.group core slot).regs - s.escRegs core slot

/-- RFUSEc.ROWS (R146). -/
def State.rowsOf (s : State) (core cslot : Nat) : Nat :=
  sumOver (s.groupsOn core) fun p =>
    if s.ctxSlot core p.2.ctx == some cslot then s.groupRows core p.1 else 0

/-- RFUSEc.ABROAD (R146). -/
def State.abroadOf (s : State) (core cslot : Nat) : Nat :=
  sumOver (s.groupsOn core) fun p =>
    if s.ctxSlot core p.2.ctx == some cslot then s.escRegs core p.1 else 0

/-- The limit of a context slot in granules (R146). -/
def State.limOf (s : State) (core cslot : Nat) : Nat := Tab.get 0 (s.core core).lim cslot

/-- All resident rows of a core. -/
def State.rowsAll (s : State) (core : Nat) : Nat := sumOver (List.range 4) fun c => s.rowsOf core c

/-- The test of R150 for `k` rows more in slot `cslot`. -/
def State.rowsGrant (s : State) (core cslot k : Nat) : Bool :=
  s.rowsOf core cslot + k ≤ 32 * s.limOf core cslot && s.rowsAll core + s.escUsed core + k ≤ Config.rowsPerCore

/-- Tells the free choices for register `n` of a group slot from all others of a step. -/
def rowSalt (core slot n : Nat) : Nat := 2 ^ 32 + (64 * core + slot) * 2048 + n

/-- Takes a free row for a register: one that was written before, or, while some are left, one that never was, as the core chooses (R145,
R151, log 12). A row that was never written holds free words. -/
def State.takeRow (s : State) (core slot ctx reg : Nat) : RowImage × State :=
  let c := s.core core
  let salt := rowSalt core slot reg
  let n := Config.freeNat s.tick salt % (c.rows.length + min 1 c.fresh)
  match c.rows[n]? with
  | some r => (r, s.setCore core { c with rows := c.rows.eraseIdx n })
  | none => (⟨ctx, lanes.map fun l => (l, Config.freeWord s.tick (64 * salt + l))⟩, s.setCore core { c with fresh := c.fresh - 1 })

/-- Register `n` of the group has a row: the bytes that the group's own context left in it, or zeros over those of another
context, which stay in the row until it is written (R67, R151). -/
def Group.takesRow (g : Group) (n : Nat) (r : RowImage) : Group :=
  if r.ctx == g.ctx then g.setVMask n Mask.full fun l => Tab.get 0 r.cells l
  else
    let g := g.setVMask n Mask.full fun _ => 0
    { g with under := Tab.put g.under n r }

/-- Gives the registers [base, base + n) of a group fresh rows (R151). -/
def State.giveRows (s : State) (core slot base n : Nat) : State :=
  (List.range n).foldl (fun s i =>
    let (r, s) := s.takeRow core slot (s.group core slot).ctx (base + i)
    s.setGroup core slot ((s.group core slot).takesRow (base + i) r)) s

/-- The row of a register: its bytes and the context that wrote them last (R67). -/
def Group.rowImage (g : Group) (n : Nat) : RowImage :=
  Tab.get ⟨g.ctx, lanes.map fun l => (l, g.vreg n l)⟩ g.under n

/-- Returns the rows of registers [base, base + n) to the free pool (R150, R155). -/
def State.freeRows (s : State) (core slot base n : Nat) : State :=
  let g := s.group core slot
  let c := s.core core
  s.setCore core { c with rows := c.rows ++ (List.range n).map fun i => g.rowImage (base + i) }

/-- Takes rows for the registers [base, base + n) of a slot; what they held is overwritten (R158). -/
def State.useRows (s : State) (core slot ctx base n : Nat) : State :=
  (List.range n).foldl (fun s i => (s.takeRow core slot ctx (base + i)).2) s

end Sys2Proof.Machine
end

