-- ==== Sys2Proof/Machine/Mem.lean ====
section
/-! DEFINITION. Addresses, physical memory and its line metadata, translation at the owner, leases and the scratchpads
(R39-R67, R68, R95, R114, R119, R120, R361). -/

namespace Sys2Proof.Machine

/-! ### Virtual addresses (R39) -/

def pathOf (va : DWord) : Nat := va.toNat / 2 ^ 60
def nodeOf (va : DWord) : Nat := bitsNat va.toNat 59 51
def dieOf (va : DWord) : Nat := bitsNat va.toNat 50 49
def localOf (va : DWord) : Nat := bitsNat va.toNat 48 0

/-- The index of the owning die, 4 * node + die. -/
def ownerOf (va : DWord) : Nat := 4 * nodeOf va + dieOf va

/-- The address with the PATH field cleared (R41). -/
def noPath (va : DWord) : DWord := va &&& 0x0FFFFFFFFFFFFFFF#64

/-- The line of an address. -/
def lineOf (va : DWord) : DWord := va &&& 0xFFFFFFFFFFFFFF80#64

/-- The path is translated at the owner (R40). -/
def translated (path : Nat) : Bool := path == 0 || path == 1 || path == 4

/-- The home slice on its die (R95). -/
def sliceOf (va : DWord) : Nat :=
  let l := localOf va
  bitsNat l 10 7 ^^^ bitsNat l 14 11 ^^^ bitsNat l 18 15 ^^^ bitsNat l 22 19

/-- The class of L1 copies that a path uses (R115). -/
def classOf (path : Nat) : PathClass :=
  if path == 1 then .readOnly else if path == 4 then .compressed else .generic

/-- The node is populated; the own node always is (R41). -/
def State.populated (s : State) (n : Nat) : Bool := n == s.node.toNat || s.domain.contains n

/-! ### Physical keys (R40, R49, R68) -/

/-- The key of a byte in a tier of a die. A frame above the die's capacity has keys too; nothing answers there (`State.unreachable`,
log 64). -/
def physKey (di tier pa : Nat) : Nat := (4 * di + tier) * 2 ^ 48 + pa % 2 ^ 48

/-- The key of a system address. -/
def sysKey (a : Nat) : Nat := 2 ^ 61 + a % 2 ^ 48

/-- The key of a byte of a core's scratchpad. -/
def scrKey (core off : Nat) : Nat := 2 ^ 62 + core * 2 ^ 21 + off

/-- A 64-bit little-endian word at a key. -/
def State.raw64 (s : State) (key : Nat) : DWord := BitVec.ofNat 64 (ofBytes (s.mem.readN key 8))

/-- Writes bytes with no check, for the units that write by physical address; the lines count as written (log 9). -/
def State.rawWrite (s : State) (key : Nat) (bs : List Byte) : State :=
  let k0 := key / 128
  let n := (key + bs.length - 1) / 128 + 1 - k0
  let s := (List.range n).foldl (fun s i => s.setLine (k0 + i) { s.line (k0 + i) with written := true, releaser := none }) s
  { s with mem := s.mem.writeN key bs }

/-- Gives each of the bytes at the keys the next home write number (R266). -/
def State.stampKeys (s : State) (keys : List Nat) : State :=
  { s with bver := keys.foldl (fun t k => Tab.put t k s.wseq) s.bver, wseq := s.wseq + 1 }

/-- A write by physical address, in the home order of its bytes. -/
def State.unitWrite (s : State) (key : Nat) (bs : List Byte) : State :=
  (s.rawWrite key bs).stampKeys ((List.range bs.length).map (key + ·))

/-! ### Expander ranges (R114) -/

/-- A physical address lies in a range register; one whose base lies in another port's space holds no address (R114). -/
def inRange (r : DWord) (pa : Nat) : Bool :=
  let base := bitsNat r.toNat 63 30
  let len := bitsNat r.toNat 29 12
  let port := bitsNat r.toNat 1 0
  bitsNat r.toNat 11 2 == 0 && port != 0 && bitsNat pa 47 46 == port && bitsNat (base * 2 ^ 30) 47 46 == port
  && base * 2 ^ 30 ≤ pa && pa < (base + len) * 2 ^ 30

/-- Some expander range of the die provides the bytes [pa, pa + n). -/
def State.expander (s : State) (di pa n : Nat) : Bool :=
  (List.range 4).any fun i => inRange (Tab.get 0 (s.die di).cxrng i) pa && inRange (Tab.get 0 (s.die di).cxrng i) (pa + n - 1)

/-! ### Context table and page walk (R44-R49) -/

/-- The key of a context's entry in the context table of a die (R44). -/
def State.ctxEntryKey (s : State) (di ctx : Nat) : Nat := physKey di 0 ((s.die di).mtctx.toNat + 16 * ctx)

/-- The low half of a context entry; none when the entry is invalid (R44). -/
def State.ctxWord (s : State) (di ctx : Nat) : Option Nat :=
  let lo := (s.raw64 (s.ctxEntryKey di ctx)).toNat
  let hi := (s.raw64 (s.ctxEntryKey di ctx + 8)).toNat
  if hi == 0 && bitsNat lo 63 48 == 0 && bitsNat lo 12 2 == 0 then some lo else none

/-- The low half of a context entry that names a page table; none when the entry is invalid or V = 0 (R44). -/
def State.ctxEntry (s : State) (di ctx : Nat) : Option Nat := (s.ctxWord di ctx).filter fun e => bitNat e 0

/-- The context's key is loaded on the die: KEY of R44, whether or not the context has a page table there. -/
def State.keyOn (s : State) (di ctx : Nat) : Bool :=
  match s.ctxWord di ctx with
  | some e => bitNat e 1
  | none => false

/-- A request for an address may be sent from a die of the own node: for another node, the context's key is loaded there (R44, R106). -/
def State.keyedFor (s : State) (die ctx : Nat) (va : DWord) : Bool :=
  nodeOf va == s.node.toNat || s.keyOn (s.ownDie die) ctx

/-- A level of the page table: its number, its lowest index bit and its index width (R45). -/
structure Level where
  n  : Nat
  lo : Nat
  w  : Nat
deriving DecidableEq, Repr

/-- The five levels (R45). -/
def walkLevels : List Level := [⟨4, 39, 10⟩, ⟨3, 30, 9⟩, ⟨2, 21, 9⟩, ⟨1, 16, 5⟩, ⟨0, 12, 4⟩]

/-- The bytes of the table below a level (R45). -/
def nextSize (n : Nat) : Nat :=
  match n with
  | 4 => 4096
  | 3 => 4096
  | 2 => 256
  | _ => 128

/-- A leaf met by a walk: its entry, the lowest page bit and the key of the entry. -/
structure Leaf where
  e    : Nat
  lo   : Nat
  key  : Nat
deriving DecidableEq, Repr

def Leaf.tid (l : Leaf) : Nat := bitsNat l.e 63 52
def Leaf.frame (l : Leaf) : Nat := bitsNat l.e 51 16
def Leaf.state (l : Leaf) : Nat := bitsNat l.e 15 14
def Leaf.tier (l : Leaf) : Nat := bitsNat l.e 13 12
def Leaf.w (l : Leaf) : Bool := bitNat l.e 11
def Leaf.x (l : Leaf) : Bool := bitNat l.e 10
def Leaf.rap (l : Leaf) : Bool := bitNat l.e 8
def Leaf.heat (l : Leaf) : Bool := bitNat l.e 7
def Leaf.lease (l : Leaf) : Bool := bitNat l.e 6
def Leaf.pnode (l : Leaf) : Nat := bitsNat l.e 51 43
def Leaf.pdie (l : Leaf) : Nat := bitsNat l.e 42 41
def Leaf.pframe (l : Leaf) : Nat := bitsNat l.e 40 16
def Leaf.size (l : Leaf) : Nat := 2 ^ l.lo

/-- The die index and the tier that hold the page of a leaf of die `di` (R47, R49). -/
def Leaf.place (l : Leaf) (di : Nat) : Nat × Nat × Nat :=
  if l.tier == 3 then (4 * l.pnode + l.pdie, 0, l.pframe * 4096) else (di, l.tier, l.frame * 4096)

/-- The physical key of a local address under a leaf. -/
def Leaf.keyOf (l : Leaf) (di loc : Nat) : Nat :=
  let p := l.place di
  physKey p.1 p.2.1 (p.2.2 + loc % l.size)

/-- The start of the page that holds a local address. -/
def pageOf (va : DWord) (lo : Nat) : Nat := (noPath va).toNat / 2 ^ lo * 2 ^ lo

/-- A non-leaf entry breaks R46 or R48. -/
def badNode (e : Nat) (lv : Level) : Bool :=
  bitsNat e 63 57 != 0 || bitsNat e 15 10 != 0 || bitsNat e 8 1 != 0 || lv.n == 0
  || (bitsNat e 56 16 * 128) % nextSize lv.n != 0

/-- A leaf entry breaks R47, R48 or R49. -/
def State.badLeaf (s : State) (di ctx : Nat) (va : DWord) (lv : Level) (l : Leaf) : Bool :=
  bitsNat l.e 5 1 != 0 || lv.n == 4 || l.state == 3 || (l.tid != 0 && l.state != 1)
  || (l.state == 1 &&
        !(match (s.die di).recs.find? fun p => p.1 == l.tid with
          | some (_, r) => r.va.toNat == pageOf va lv.lo && r.size == l.size && r.ctx == ctx
          | none => false))
  || (if l.tier == 3 then (l.pframe * 4096) % l.size != 0 || l.pnode == di / 4 || !s.populated l.pnode
      else (l.frame * 4096) % l.size != 0)
  || (l.tier == 1 && !Config.hasLpddr)
  || (l.tier == 2 && (bitsNat (l.frame * 4096) 47 46 == 0 || !s.expander di (l.frame * 4096) l.size))

/-- The entries a walk may use at a place: what software last wrote, or what the TLB still holds (R51). The walk caches what
software last wrote, anew for every TLBSYNC that has arrived (R54). -/
def State.entryAt (s : State) (di ctx lv idx key : Nat) : Nat × State :=
  let now := s.raw64 key
  let old := ((s.die di).tlb.filter fun t => t.ctx == ctx && t.level == lv && t.idx == idx && t.key == key).map (·.entry)
  let t : TlbEntry := ⟨ctx, lv, idx, key, now⟩
  let s' := s.modDie di fun d => { d with
    tlb := if old.contains now then d.tlb else d.tlb ++ [t]
    syncs := d.syncs.map fun y => { y with old := y.old.filter (· != t) } }
  match old.filter (· != now) with
  | [] => (now.toNat, s')
  | olds =>
    ((now :: olds).getD (Config.freeNat s.tick (8 * lv + 5) % (olds.length + 1)) now |>.toNat, s')

/-- Walks the levels from the table at `tbl` (R45-R48). V is tested first: an entry with V = 0 is unmapped, whatever its other
bits hold (DESIGN CHOICE: R48 gives it both causes; log 65). -/
def walkFrom (di ctx : Nat) (va : DWord) : List Level → Nat → State → (Except Cause Leaf) × State
  | [], _, s => (.error .malformed, s)
  | lv :: rest, tbl, s =>
    let idx := localOf va / 2 ^ lv.lo
    let key := physKey di 0 (tbl + 8 * (idx % 2 ^ lv.w))
    let (e, s) := s.entryAt di ctx lv.n idx key
    if !bitNat e 0 then (.error .unmapped, s)
    else if bitNat e 9 then
      let l : Leaf := ⟨e, lv.lo, key⟩
      if s.badLeaf di ctx va lv l then (.error .malformed, s) else (.ok l, s)
    else if badNode e lv then (.error .malformed, s)
    else walkFrom di ctx va rest (bitsNat e 56 16 * 128) s

/-- The page walk of a request on its owning die (R44-R48). -/
def State.walk (s : State) (ctx : Nat) (va : DWord) : (Except Cause Leaf) × State :=
  let di := ownerOf va
  match s.ctxEntry di ctx with
  | none => (.error .unmapped, s)
  | some e => walkFrom di ctx va walkLevels (bitsNat e 47 13 * 8192) s

/-- A walk of the tables as memory holds them now, beside the TLB: what the lease unit and the transit engine walk
(R57, R74). -/
def State.walkNow (s : State) (ctx : Nat) (va : DWord) : Except Cause Leaf :=
  ((s.modDie (ownerOf va) fun d => { d with tlb := [] }).walk ctx va).1

/-! ### Leases (R55, R60) -/

/-- Bytes of a descriptor's granule (R55). -/
def granBytes (g : Nat) : Nat :=
  match g with
  | 0 => 128
  | 1 => 4096
  | 2 => 65536
  | 3 => 2 * 1024 * 1024
  | _ => 1024 * 1024 * 1024

def Desc.count (d : Desc) : Nat := bitsNat d.word.toNat 63 32
def Desc.gran (d : Desc) : Nat := bitsNat d.word.toNat 31 28
def Desc.r (d : Desc) : Bool := bitNat d.word.toNat 27
def Desc.w (d : Desc) : Bool := bitNat d.word.toNat 26
def Desc.a (d : Desc) : Bool := bitNat d.word.toNat 25
def Desc.x (d : Desc) : Bool := bitNat d.word.toNat 24
def Desc.bytes (d : Desc) : Nat := d.count * granBytes d.gran
def Desc.start (d : Desc) : Nat := (noPath d.base).toNat

/-- The address lies in the range. -/
def Desc.covers (d : Desc) (va : DWord) : Bool :=
  d.start ≤ (noPath va).toNat && (noPath va).toNat < d.start + d.bytes

/-- The right that an access needs (R60). -/
def Desc.allows (d : Desc) (a : Access) : Bool :=
  match a with
  | .load => d.r
  | .prefetch => d.r
  | .engineRead => d.r
  | .store => d.w
  | .engineWrite => d.w
  | .atomic => d.a
  | .fetch => d.x

/-- A granted lease of the launch covers the address with the right (R60). -/
def State.leaseOk (s : State) (launch : Word) (a : Access) (va : DWord) : Bool :=
  s.leases.any fun l => l.launch == launch && l.granted && l.desc.covers va && l.desc.allows a

/-! ### The owner's checks (R43, R44, R50, R60) -/

/-- The permission check of a leaf (R50). -/
def leafCheck (l : Leaf) (a : Access) : Option (FaultKind × Cause) :=
  let perm : Option Cause :=
    match a with
    | .store => if l.w then none else some .write
    | .engineWrite => if l.w then none else some .write
    | .atomic =>
      if !l.w then some .write
      else if l.tier == 3 && l.state != 1 && !l.rap then some .atomic else none
    | .fetch => if l.x then none else some .execute
    | _ => none
  match perm with
  | some c => some (.perm, c)
  | none => if l.state == 2 then some (.poison, .none) else none

/-- The heat set's entry for a block after one more request (R70, R71, log 24). In a set that is not full, the new entry takes the
lowest free way (DESIGN CHOICE, log 24: R71 says nothing of it). -/
def heatAdd (limit : Nat) (region : Bool) (ctx block : Nat) (hs : List HeatEnt) : List HeatEnt :=
  if hs.any fun h => h.region == region && h.ctx == ctx && h.block == block then
    hs.map fun h => if h.region == region && h.ctx == ctx && h.block == block then { h with count := min 255 (h.count + 1) } else h
  else
    let set := Config.freeNat block (1000000 + 2 * ctx + b2n region) % limit
    let same := hs.filter fun h => h.region == region && Config.freeNat h.block (1000000 + 2 * h.ctx + b2n region) % limit == set
    match firstBelow 16 fun w => !(same.any fun h => h.way == w) with
    | some w => hs ++ [⟨region, ctx, block, w, 1⟩]
    | none =>
      let low := (same.map (·.count)).foldl min 255
      let way := (firstBelow 16 fun w => same.any fun h => h.way == w && h.count == low).getD 0
      (hs.filter fun h => !(same.contains h && h.way == way)) ++ [⟨region, ctx, block, way, 1⟩]

/-- The halvings that are due by a frame: one for each whole decay interval since the last (R72). -/
def Die.dueDecays (d : Die) (frame : Word) : Nat := if d.txdecay == 0 then 0 else (frame - d.lastDecay).toNat / d.txdecay.toNat

/-- The heat store with every halving that is due by a frame: each took effect at its frame boundary, before any count since
(R72). -/
def Die.decay (d : Die) (frame : Word) : Die :=
  let k := d.dueDecays frame
  { d with heat := d.heat.map fun h => { h with count := h.count / 2 ^ k }, lastDecay := d.lastDecay + BitVec.ofNat 32 k * d.txdecay }

/-- The halvings that are due take effect before the frame counter could lose them (R72). -/
def Die.keepDecay (d : Die) (frame : Word) : Die := if 2 ^ 31 ≤ (frame - d.lastDecay).toNat then d.decay frame else d

/-- Counts a request to a page with HEAT = 1 (R70). -/
def State.heatCount (s : State) (ctx : Nat) (va : DWord) : State :=
  s.modDie (ownerOf va) fun d =>
    let d := d.decay s.chframe
    { d with heat := heatAdd 256 true ctx (localOf va / 2 ^ 21) (heatAdd 4096 false ctx (localOf va / 2 ^ 16) d.heat) }

/-- The owner's lease, translation and permission checks, in the order of R43: the page's leaf. `lease` is none for the accesses
that no lease is checked for (R113, R300, R331). -/
def State.leafFor (s : State) (ctx : Nat) (lease : Option Word) (a : Access) (va : DWord) :
    (Except (FaultKind × Cause) Leaf) × State :=
  if (match lease with
      | some l => !s.leaseOk l a va
      | none => false) then (.error (.lease, .none), s)
  else
    match s.walk ctx va with
    | (.error c, s) => (.error (.perm, c), s)
    | (.ok l, s) =>
      match leafCheck l a with
      | some f => (.error f, s)
      | none => (.ok l, s)

/-- The owner's key check, the last of R43: the key of the byte. -/
def State.keyCheck (s : State) (ctx : Nat) (a : Access) (va : DWord) (l : Leaf) : Except (FaultKind × Cause) (Nat × Leaf) :=
  if !s.keyOn (ownerOf va) ctx then .error (.poison, .none)
  else if a == .atomic && l.tier == 3 && l.state != 1 && !s.keyOn (4 * l.pnode + l.pdie) ctx then .error (.poison, .none)
  else .ok (l.keyOf (ownerOf va) (localOf va), l)

/-- The owner's checks of a request packet, in the order of R43, and its count for a page with HEAT = 1 (R70). -/
def State.ownerCheck (s : State) (ctx : Nat) (lease : Option Word) (a : Access) (va : DWord) :
    (Except (FaultKind × Cause) (Nat × Leaf)) × State :=
  match s.leafFor ctx lease a va with
  | (.error f, s) => (.error f, s)
  | (.ok l, s) =>
    let s := if l.heat then s.heatCount ctx va else s
    (s.keyCheck ctx a va l, s)

/-- The owner's checks of what is no further request packet: nothing is counted (R70). -/
def State.ownerLook (s : State) (ctx : Nat) (lease : Option Word) (a : Access) (va : DWord) :
    (Except (FaultKind × Cause) (Nat × Leaf)) × State :=
  match s.leafFor ctx lease a va with
  | (.error f, s) => (.error f, s)
  | (.ok l, s) => (s.keyCheck ctx a va l, s)

/-! ### Lines and their metadata (R62-R64, R361) -/

/-- The tweak of a line (R63). -/
def tweakOf (ctx : Nat) (va : DWord) : BitVec 128 :=
  BitVec.ofNat 128 (ctx % 1024 * 2 ^ 53 + nodeOf va * 2 ^ 44 + dieOf va * 2 ^ 42 + localOf va / 128)

/-- The tag a line has when it is written for a context on a die (R64, log 9). -/
def State.tagFor (s : State) (di ctx : Nat) (va : DWord) : LineTag := ⟨Tab.get 0 (s.die di).keys ctx, tweakOf ctx va⟩

/-- The tag matches, for a written line (R64, R361). -/
def LineMeta.matches (m : LineMeta) (t : LineTag) : Bool :=
  match m.tag with
  | none => true
  | some u => u == t

/-- The key lies above the capacity of its die's tier (R2, log 64). -/
def beyond (key : Nat) : Bool :=
  let pa := key % 2 ^ 48
  key < 2 ^ 61 &&
  match key / 2 ^ 48 % 4 with
  | 0 => Config.hbmBytes ≤ pa
  | 1 => Config.lpddrBytes ≤ pa
  | _ => false

/-- A home slice holds the line of a key (R80, R116). -/
def State.inL2 (s : State) (key : Nat) : Bool := s.dies.any fun p => p.2.l2.contains (key / 128)

/-- A home slice holds a line that it has read or written. Lines that it held before may leave it, and the oldest do where it is full (R2, R116;
log 10). -/
def Die.holdLine (d : Die) (tick line : Nat) : Die :=
  let l := (d.l2.filter fun x => x != line && !Config.freeBit tick (2 ^ 60 + x)) ++ [line]
  { d with l2 := l.drop (l.length - Config.l2Lines) }

/-- The slices of a die hold the line of a key (R116). -/
def State.holdLine (s : State) (di key : Nat) : State := s.modDie di fun d => d.holdLine s.tick (key / 128)

/-- A line's frame lies at a lost peer, and no home slice holds the line (R80, R89, R116; log 10). -/
def State.lineLost (s : State) (key : Nat) : Bool := s.lostPeers.contains (key / 2 ^ 50 / 4) && !s.inL2 key

/-- The memory of a key is unreachable: an expander port of the own node is down (R114), the peer is lost (R89), or there is no
such memory (log 64). -/
def State.unreachable (s : State) (key : Nat) : Bool :=
  let di := key / 2 ^ 50
  let tier := key / 2 ^ 48 % 4
  (tier == 2 && di / 4 == s.node.toNat && s.downPorts.contains (bitsNat key 47 46)) || s.lineLost key || beyond key

/-- An expander reports poison on the line of a key, where it lies in one (R114, log 14). -/
def State.expanderBad (s : State) (key : Nat) : Bool :=
  key / 2 ^ 48 % 4 == 2 && key < 2 ^ 61 && Config.freeBit s.tick (5000 + key / 128)

/-- The memory behind a key is ready (R358); a peer's readiness is its own. -/
def State.memReady (s : State) (key : Nat) : Bool :=
  let di := key / 2 ^ 50
  let tier := key / 2 ^ 48 % 4
  if di / 4 != s.node.toNat then true
  else
    let on (n : Nat) : Bool := bitNat s.ready.toNat n
    let low := 6 + 2 * (di % 4)
    match tier with
    | 0 => (on low && on (low + 1)) || on (low + b2n (Config.stackOf (key / 128)))
    | 1 => on 14
    | _ => on (14 + bitsNat key 47 46)

/-- The memory behind every line of a page is ready (R57, R358). -/
def State.pageReady (s : State) (key size : Nat) : Bool :=
  let low := 6 + 2 * (key / 2 ^ 50 % 4)
  if key / 2 ^ 48 % 4 == 0 && !(bitNat s.ready.toNat low && bitNat s.ready.toNat (low + 1)) then
    (List.range (size / 128)).all fun i => s.memReady (key + 128 * i)
  else s.memReady key

/-- The keys of the page tables that a walk reads from the table at `tbl` on (R45). -/
def State.walkKeys (s : State) (di : Nat) (va : DWord) : List Level → Nat → List Nat
  | [], _ => []
  | lv :: rest, tbl =>
    let key := physKey di 0 (tbl + 8 * (localOf va / 2 ^ lv.lo % 2 ^ lv.w))
    let e := (s.raw64 key).toNat
    key :: (if bitNat e 0 && !bitNat e 9 then s.walkKeys di va rest (bitsNat e 56 16 * 128) else [])

/-- Marks a line poisoned (R64). -/
def State.poisonLine (s : State) (key : Nat) : State := s.setLine (key / 128) { s.line (key / 128) with poison := true }

/-- A line may be read under a tag: none for poison, with the line marked (R64, R361). -/
def State.openLine (s : State) (key : Nat) (t : LineTag) : Bool × State :=
  let m := s.line (key / 128)
  if s.unreachable key then (false, s)
  else if m.poison then (false, s)
  else if s.expanderBad key then (false, s.poisonLine key)
  else if !m.written then (true, s)
  else if m.matches t then (true, s)
  else (false, s.poisonLine key)

/-- Reads bytes of one line under a tag (R64, R361). -/
def State.lineRead (s : State) (key n : Nat) (t : LineTag) : Option (List Byte) × State :=
  match s.openLine key t with
  | (true, s) => (some (s.mem.readN key n), s)
  | (false, s) => (none, s)

/-- Writes bytes of one line under a tag, in the line's home order; false is POISON (R64, R361, R266). The releaser tag of
R269 becomes `rel`. -/
def State.lineWrite (s : State) (key : Nat) (bs : List Byte) (t : LineTag) (rel : Option Nat) : Bool × State :=
  let whole := bs.length == 128
  let go (s : State) : State :=
    let m := s.line (key / 128)
    let s := s.setLine (key / 128) { m with written := true, poison := false, tag := some t, releaser := rel }
    ({ s with mem := s.mem.writeN key bs }).stampKeys ((List.range bs.length).map (key + ·))
  if s.unreachable key then (false, s)
  else if whole then (true, go s)
  else
    match s.openLine key t with
    | (true, s) => (true, go s)
    | (false, s) => (false, s)

/-! ### Pages in transit (R80-R84) -/

/-- The transit record that serves a virtual address: its index and contents (R80). -/
def State.transitOf (s : State) (ctx : Nat) (va : DWord) : Option (Nat × TransitRec) :=
  (s.die (ownerOf va)).recs.find? fun p =>
    p.2.ctx == ctx && p.2.va.toNat ≤ (noPath va).toNat && (noPath va).toNat < p.2.va.toNat + p.2.size

/-- The key of a byte of the page in the record's source (R79). -/
def TransitRec.srcKey (r : TransitRec) (di : Nat) (va : DWord) : Nat :=
  let off := (noPath va).toNat - r.va.toNat
  if r.srcTier == 3 then
    physKey (4 * bitsNat r.srcFrame 35 27 + bitsNat r.srcFrame 26 25) 0 (bitsNat r.srcFrame 24 0 * 4096 + off)
  else physKey di r.srcTier (r.srcFrame * 4096 + off)

/-- The key of a byte of the page in the record's destination (R79). -/
def TransitRec.dstKey (r : TransitRec) (di : Nat) (va : DWord) : Nat :=
  physKey di r.dstTier (r.dstFrame * 4096 + ((noPath va).toNat - r.va.toNat))

/-- The line index of an address in the page. -/
def TransitRec.lineNo (r : TransitRec) (va : DWord) : Nat := ((noPath va).toNat - r.va.toNat) / 128

/-- Where a request is served: the key that answers and, for a write, the key that the write is mirrored to (R80). `key`
is what the translation gave: a translation that still names the source of a page in transit is redirected by the
record, and any other translation is served as it stands. -/
def State.serve (s : State) (ctx : Nat) (va : DWord) (key : Nat) : Nat × Option Nat :=
  match s.transitOf ctx va with
  | none => (key, none)
  | some (_, r) =>
    let di := ownerOf va
    if key != r.srcKey di va then (key, none)
    else
      match r.state with
      | .copying => (key, if r.lineNo va < r.cursor then some (r.dstKey di va) else none)
      | .done => (r.dstKey di va, none)
      | .aborting => (key, none)
      | .aborted => (key, none)

/-- The owner can translate an address now: its translation block and the memory of its tables are ready (R358). -/
def State.tablesReady (s : State) (ctx : Nat) (va : DWord) : Bool :=
  let di := ownerOf va
  di / 4 != s.node.toNat
  || (bitNat s.ready.toNat (2 + di % 4) && s.memReady (s.ctxEntryKey di ctx)
      && (match s.ctxEntry di ctx with
          | some e => (s.walkKeys di va walkLevels (bitsNat e 47 13 * 8192)).all s.memReady
          | none => true))

/-- A request for an address need not wait at its home: the translation block, the tables and the memory are ready, and where the page is
in transit the memory that serves it is (R81, R358). A peer's page may lie in a frame of the own node (R47). -/
def State.homeReady (s : State) (ctx : Nat) (va : DWord) : Bool :=
  s.tablesReady ctx va
  && (match (s.walk ctx va).1 with
      | .ok l =>
        let key := l.keyOf (ownerOf va) (localOf va)
        s.memReady key && s.memReady (s.serve ctx va key).1
      | .error _ => true)

/-- A mark that serving a request has set on a line is set on its mirror too: the two stay alike below the cursor (R64, R81, R83). -/
def State.markMirror (s : State) (ctx : Nat) (va : DWord) (key : Nat) : State :=
  match s.serve ctx va key with
  | (src, some d) => if (s.line (src / 128)).poison then s.poisonLine d else s
  | (_, none) => s

/-- Reads bytes at home for a context, under the key that a die holds (R64, R66, R80, R81, R361); the home slice then holds the line (R116). -/
def State.homeReadBy (s : State) (di ctx : Nat) (va : DWord) (key n : Nat) : Option (List Byte) × State :=
  match s.lineRead (s.serve ctx va key).1 n (s.tagFor di ctx va) with
  | (some bs, t) => (some bs, t.holdLine (ownerOf va) (s.serve ctx va key).1)
  | (none, s) => (none, s.markMirror ctx va key)

/-- Reads bytes at home for a context under the owner's key (R64, R80, R361). -/
def State.homeRead (s : State) (ctx : Nat) (va : DWord) (key n : Nat) : Option (List Byte) × State :=
  s.homeReadBy (ownerOf va) ctx va key n

/-- Charges a packet of `n` bytes that is forwarded to a move's destination to the die's copy quota (R92, R98). -/
def State.chargeMirror (s : State) (ctx : Nat) (va : DWord) (key n : Nat) : State :=
  if (s.serve ctx va key).2.isSome then s.modDie (ownerOf va) fun d => { d with spent := d.spent + max 1 ((n + 63) / 64) } else s

/-- Writes bytes at home for a context, under the key that a die holds, and mirrors them for a line already copied (R66, R80,
R81), without a charge; the home slice then holds the line (R116). The mirror has the source's home write number. -/
def State.homePutBy (s : State) (di ctx : Nat) (va : DWord) (key : Nat) (bs : List Byte) (rel : Option Nat) : Bool × State :=
  let (src, mirror) := s.serve ctx va key
  let t := s.tagFor di ctx va
  match s.lineWrite src bs t rel with
  | (false, s) => (false, s.markMirror ctx va key)
  | (true, s) =>
    let s := s.holdLine (ownerOf va) src
    match mirror with
    | none => (true, s)
    | some d =>
      let m := s.line (src / 128)
      let s := s.setLine (d / 128) m
      let s := { s with mem := s.mem.writeN d bs }
      (true, { s with bver := (List.range bs.length).foldl (fun t i => Tab.put t (d + i) (s.wseq - 1)) s.bver })

/-- Writes bytes at home for a context under the owner's key: the write of R80, without a charge. -/
def State.homePut (s : State) (ctx : Nat) (va : DWord) (key : Nat) (bs : List Byte) (rel : Option Nat) : Bool × State :=
  s.homePutBy (ownerOf va) ctx va key bs rel

/-- Marks the line that serves a request as poisoned, and its mirror where it has one (R64, R81, R83, R251). -/
def State.poisonServed (s : State) (ctx : Nat) (va : DWord) (key : Nat) : State :=
  let (src, mirror) := s.serve ctx va key
  match mirror with
  | some d => (s.poisonLine src).poisonLine d
  | none => s.poisonLine src

/-- Writes the bytes of one packet at home for a context: the write of R80 and the charge of its mirror. -/
def State.homeWrite (s : State) (ctx : Nat) (va : DWord) (key : Nat) (bs : List Byte) (rel : Option Nat) : Bool × State :=
  (s.chargeMirror ctx va key bs.length).homePut ctx va key bs rel

/-! ### Scratchpads (R40, R67, R119-R122) -/

/-- The unit whose partition a scratch address names, for an issuing unit: path 0x2, or path 0x3 with a core of its set
(R40, R122). -/
def State.scratchUnit (s : State) (u : UnitRec) (va : DWord) : Option UnitRec :=
  let a := va.toNat
  if pathOf va == 2 then
    if bitsNat a 59 32 == 0 && bitsNat a 31 0 < u.psize && !u.ended then some u else none
  else if bitsNat a 59 35 != 0 then none
  else
    let core := 8 * clusterOfCore u.core + bitsNat a 34 32
    let found :=
      if core == u.core then (if u.ended then none else some u)
      else (s.units.find? fun p => p.2.core == core && u.set.isSome && p.2.set == u.set && !p.2.ended && !p.2.away).map (·.2)
    match found with
    | some t => if bitsNat a 31 0 < t.psize then some t else none
    | none => none

/-- The core and the offset in its scratchpad that a scratch address names. -/
def UnitRec.place (t : UnitRec) (va : DWord) : Nat × Nat := (t.core, t.pbase + bitsNat va.toNat 31 0)

/-- What the requester already knows of an access outside the translated paths: its key (R40, R42). -/
def State.keyHere (s : State) (g : Group) (va : DWord) : Resp :=
  if translated (pathOf va) then .none
  else if pathOf va == 5 then .ok (sysKey (bitsNat va.toNat 47 0)) s.tick
  else
    match (s.unitOf g).bind fun u => s.scratchUnit u va with
    | some t => .ok (scrKey (t.place va).1 (t.place va).2) s.tick
    | none => .none

/-- Reads scratch bytes for a context: another context's lines read as zero (R67). -/
def State.scrRead (s : State) (ctx core off n : Nat) : List Byte :=
  (List.range n).map fun i =>
    let k := scrKey core (off + i)
    match (s.line (k / 128)).writer with
    | some c => if c == ctx then s.mem.read k else 0
    | none => s.mem.read k

/-- Makes a scratch line the context's own; what another context left in it reads as zero (R67). -/
def State.scrClaim (s : State) (ctx key : Nat) : State :=
  let k := key / 128
  let m := s.line k
  if m.writer == some ctx then s
  else
    let s := s.setLine k { m with writer := some ctx }
    match m.writer with
    | none => s
    | some _ => { s with mem := s.mem.writeN (128 * k) (List.replicate 128 0) }

/-- Writes scratch bytes for a context, within one line. -/
def State.scrWrite (s : State) (ctx core off : Nat) (bs : List Byte) : State :=
  let s := s.scrClaim ctx (scrKey core off)
  ({ s with mem := s.mem.writeN (scrKey core off) bs }).stampKeys ((List.range bs.length).map (scrKey core off + ·))

/-- A live phaser object tags one of the bytes [off, off + n) of a core's scratchpad (R255). -/
def State.phaserHit (s : State) (core off n : Nat) : Bool :=
  (s.core core).phasers.any fun p => p.off < off + n && off < p.off + 16

/-! ### System windows (R42) -/

/-- A system window of a context covers the bytes, with its rights R and W. Where two windows overlap, the one with the lowest
index decides the rights (DESIGN CHOICE: R42 does not say; log 66). -/
def Ctx.window (c : Ctx) (addr n : Nat) : Option (Bool × Bool) :=
  ((List.range 16).find? fun i =>
      let b := bitsNat (Tab.get 0 c.swb i).toNat 47 0
      let l := bitsNat (Tab.get 0 c.swl i).toNat 47 0
      0 < l && b ≤ addr && addr + n ≤ b + l).map
    fun i => (bitNat (Tab.get 0 c.swl i).toNat 48, bitNat (Tab.get 0 c.swl i).toNat 49)

/-- The requester's check of a system access (R40, R42). -/
def State.systemCheck (s : State) (ctx : Nat) (va : DWord) (n : Nat) (write : Bool) : Option (FaultKind × Cause) :=
  if bitsNat va.toNat 59 48 != 0 then some (.path, .none)
  else
    match (s.ctx ctx).window (bitsNat va.toNat 47 0) n with
    | none => some (.path, .none)
    | some (r, w) => if (if write then w else r) then none else some (.perm, .system)

/-! ### The requester's checks (R40, R41, R43, R106, R239) -/

/-- What an access does, for the paths it may take (R40, R239). -/
inductive Reach where
  | lane
  | line
  | store
  | lineStore
  | escort
  | atomic
  | prefetch
deriving DecidableEq, Repr

/-- The path accepts the access (R40, R239). -/
def reachOk (r : Reach) (path width : Nat) : Bool :=
  match r with
  | .lane => path ≤ 4 || (path == 5 && width ≤ 8)
  | .line => path ≤ 4
  | .store => path == 0 || path == 2 || path == 3 || (path == 5 && width ≤ 8)
  | .lineStore => path == 0 || path == 2 || path == 3
  | .escort => path == 0 || path == 1 || path == 4
  | .atomic => path == 0
  | .prefetch => path == 0 || path == 1 || path == 4

/-- The access writes. -/
def Reach.writes (r : Reach) : Bool :=
  match r with
  | .store => true
  | .lineStore => true
  | .atomic => true
  | _ => false

/-- The requester's checks of a request of a core that is no lane's: its node is there, and the context's key on the core's die (R41, R43,
R106). -/
def State.coreCheck (s : State) (core ctx : Nat) (va : DWord) : Option (FaultKind × Cause) :=
  if !s.populated (nodeOf va) then some (.path, .none)
  else if !s.keyedFor (dieOfCore core) ctx va then some (.poison, .none)
  else none

/-- The requester-side check of one access of `width` bytes at `va` by a group (R43, R239). -/
def State.requesterCheck (s : State) (g : Group) (core : Nat) (r : Reach) (va : DWord) (width align : Nat) :
    Option (FaultKind × Cause) :=
  let path := pathOf va
  if va.toNat % align != 0 then some (.align, .none)
  else if !reachOk r path width then some (.path, .none)
  else if translated path then
    if !s.populated (nodeOf va) then some (.path, .none)
    else if !s.keyedFor (dieOfCore core) g.ctx va then some (.poison, .none)
    else none
  else if path == 5 then s.systemCheck g.ctx va width r.writes
  else
    match s.unitOf g with
    | none => some (.path, .none)
    | some u =>
      match s.scratchUnit u va with
      | none => some (.path, .none)
      | some t =>
        if bitsNat va.toNat 31 0 + width > t.psize then some (.path, .none)
        else if r.writes && s.phaserHit t.core (t.place va).2 width then some (.phaserClobber, .none)
        else none

end Sys2Proof.Machine
end

