-- ==== Sys2Proof/Machine/SysRegs.lean ====
section
/-! DEFINITION. The system registers: the selector of R294 and the value that a read of each register gives (R53, R59, R73,
R93, R98, R100, R139, R146, R160, R294, R297, R298, R321, R353, R364). -/

namespace Sys2Proof.Machine

/-- A selector's fields (R294). -/
structure Sel where
  block : Nat
  die   : Nat
  unit  : Nat
  index : Nat
deriving DecidableEq, Repr

/-- The fields of a selector word (R294). -/
def selOf (w : Word) : Sel :=
  ⟨bitsNat w.toNat 31 28, bitsNat w.toNat 27 26, bitsNat w.toNat 25 16, bitsNat w.toNat 7 0⟩

/-- The index names a register of the block (R294, R321, R353). -/
def indexOk (block index : Nat) : Bool :=
  match block with
  | 1 => index < 20
  | 2 => index < 16
  | 3 => index == 0
  | 4 => index < 8
  | 5 => index < 6
  | 6 => index < 6
  | 7 => index < 34 || (0x40 ≤ index && index ≤ 0x48)
  | 8 => index < 7
  | 9 => index < 13
  | _ => false

/-- The selector is legal: the access is not refused (R293, R294). -/
def selOk (w : Word) : Bool :=
  let x := selOf w
  bitsNat w.toNat 15 8 == 0 && indexOk x.block x.index
  && (x.die == 0 || x.block == 1 || x.block == 2 || x.block == 3 || x.block == 4)
  && (match x.block with
      | 3 => true
      | 7 => true
      | 6 => x.unit < 256
      | _ => x.unit == 0)

/-! ### Rings of slots (R59) -/

/-- The size of a ring whose base register is `b`, with reserved bits [hi:4]; 0 when it is disabled (R59, R93, R298). -/
def ringSize (b : DWord) (hi : Nat) : Nat :=
  if bitsNat b.toNat hi 4 != 0 || bitsNat b.toNat 3 0 == 0 then 0 else 2 ^ bitsNat b.toNat 3 0

/-- The physical base of a ring. -/
def ringBase (b : DWord) : Nat := bitsNat b.toNat 63 12 * 4096

/-- Slots of a Transit ring; 0 when it is disabled. LOG2N of 0 is a ring of one slot, which holds no entry (R93). -/
def ringSlots (b : DWord) : Nat := if bitsNat b.toNat 11 4 != 0 then 0 else 2 ^ bitsNat b.toNat 3 0

/-- An index of a ring modulo its size; a disabled ring leaves it (R93). -/
def ringCut (i : BitVec 16) (n : Nat) : BitVec 16 := BitVec.ofNat 16 (i.toNat % n)

/-- Entries held between two indices. -/
def ringHeld (head tail : BitVec 16) (n : Nat) : Nat := if n == 0 then 0 else (tail.toNat + n - head.toNat % n) % n

/-- The ring is full (R59). -/
def ringFull (head tail : BitVec 16) (n : Nat) : Bool := n == 0 || (tail.toNat + 1) % n == head.toNat % n

/-- The index that a write gives to a ring register whose index is taken modulo the ring's size (R93). -/
def ringIndex (val : DWord) (n : Nat) : BitVec 16 := BitVec.ofNat 16 (bitsNat val.toNat 15 0 % n)

/-- The next index. -/
def ringNext (i : BitVec 16) (n : Nat) : BitVec 16 := if n == 0 then i else BitVec.ofNat 16 ((i.toNat + 1) % n)

/-! ### Micro-rings (R100) -/

/-- A micro-ring's status; before firmware touches it, as calibration leaves it (R100, log 17). -/
def Die.ring (d : Die) (k : Nat) : RingStat := Tab.get ⟨Config.ringCalibrated k, false, false, true, 0⟩ d.rings k

/-- A change of the die's staging keys: every MTCMD clears them (R65). -/
def State.clearStage (s : State) (di : Nat) : State := s.modDie di fun d => { d with mtkey := [] }

/-! ### Values -/

/-- The bit of RDYSUM (R358). -/
def State.readyBit (s : State) (n : Nat) : Bool := bitNat s.ready.toNat n

/-- The reset quota of a CHQSEL index (R98). -/
def quotaReset (i : Nat) : Nat := if i < 256 then 256 else if i < 288 then 512 else 4096

/-- A source's quota (R98, R364). -/
def State.quota (s : State) (i : Nat) : Nat := Tab.get (quotaReset i) s.quotas i

/-- The STATUS word of R73. -/
def statusWord (code tid stier sframe : Nat) : Nat := code * 2 ^ 56 + tid * 2 ^ 44 + stier * 2 ^ 42 + sframe

/-- The order word of a record in the layout of R73, with its status. -/
def TransitRec.orderBits (r : TransitRec) (status : Nat) : Nat :=
  let size := if r.size == 4096 then 0 else if r.size == 65536 then 1 else 2
  r.va.toNat * 2 ^ 192 + r.dstFrame * 2 ^ 156 + r.ctx * 2 ^ 146 + r.dstTier * 2 ^ 144 + size * 2 ^ 142
  + r.order.toNat * 2 ^ 112 + status

/-- The record that TXSEL names (R93). -/
def Die.selRec (d : Die) : Option TransitRec := (d.recs.find? fun p => p.1 == d.txsel.toNat).map (·.2)

/-- TXREC, 256 bits (R93). -/
def Die.txrec (d : Die) : Nat :=
  match d.selRec with
  | some r => r.orderBits (statusWord 1 d.txsel.toNat r.srcTier r.srcFrame)
  | none => 0

/-- The number of a context state in CTXRES (R321). -/
def CtxState.code (c : CtxState) : Nat :=
  match c with
  | .absent => 0
  | .running => 1
  | .preempted => 2
  | .halted => 3
  | .evicting => 4
  | .evicted => 5
  | .restoring => 6

/-- The cores on which a context is not absent. -/
def State.coresOf (s : State) (ctx : Nat) : List Nat :=
  below Config.coresPerPackage fun c => s.stateOn ctx c != .absent

/-- The first core named by the context's last command that has not reached the command's goal (R321). -/
def State.behindGoal (s : State) (ctx : Nat) : Option Nat :=
  match (s.ctx ctx).resGoal with
  | some goal => (s.ctx ctx).resCores.find? fun k => s.stateOn ctx k != goal
  | none => none

/-- DONE is set, and stays set, once every core that the context's last command names has reached the goal (R321, R327). -/
def State.noteDone (s : State) (ctx : Nat) : State :=
  if (s.ctx ctx).resGoal.isSome && (s.behindGoal ctx).isNone then s.modCtx ctx fun c => { c with resDone := true } else s

/-- The core that CTXRES reports, and whether the last command has completed (R321, R327). -/
def State.ctxReport (s : State) (ctx : Nat) : Nat × Bool :=
  let c := s.ctx ctx
  let last := if c.resAll then 0 else c.resCore
  if c.resDone then (last, true) else ((s.behindGoal ctx).getD last, false)

/-- A free 64-bit value for a register that holds none: the command registers (log 25). -/
def State.freeReg (s : State) : DWord := pair (Config.freeWord s.tick 901) (Config.freeWord s.tick 900)

def State.dieReg (s : State) (d : Die) (index : Nat) : DWord :=
  match index with
  | 0 => d.mtctx
  | 1 => s.freeReg
  | 2 => BitVec.ofNat 64 (d.mtEctx.toNat * 256 + d.mtEcmd.toNat * 16 + b2n (d.syncs.any fun y => y.tid.isNone) * 4 + b2n d.mtReady * 2 + b2n d.mtErr)
  | 3 => d.mtseq.setWidth 64
  | 4 => d.mtack.setWidth 64
  | 13 => d.lrbase
  | 14 => d.lrhead.setWidth 64
  | 15 => d.lrtail.setWidth 64
  | 16 => Tab.get 0 d.cxrng 0
  | 17 => Tab.get 0 d.cxrng 1
  | 18 => Tab.get 0 d.cxrng 2
  | 19 => Tab.get 0 d.cxrng 3
  | _ => 0

def transitReg (d : Die) (index : Nat) : DWord :=
  match index with
  | 0 => BitVec.ofNat 64 (d.recs.length * 65536 + d.txDrops * 256 + b2n d.txReady)
  | 1 => BitVec.ofNat 64 d.txquota
  | 2 => d.txdecay.setWidth 64
  | 3 => d.txrbase
  | 4 => d.txlbase
  | 5 => d.txrhead.setWidth 64
  | 6 => d.txrtail.setWidth 64
  | 7 => d.txlhead.setWidth 64
  | 8 => d.txltail.setWidth 64
  | 9 => d.txptab
  | 10 => d.txsel.setWidth 64
  | 11 => BitVec.ofNat 64 d.txrec
  | 12 => BitVec.ofNat 64 (d.txrec / 2 ^ 64)
  | 13 => BitVec.ofNat 64 (d.txrec / 2 ^ 128)
  | 14 => BitVec.ofNat 64 (d.txrec / 2 ^ 192)
  | 15 => BitVec.ofNat 64 ((d.selRec.map (·.cursor)).getD 0)
  | _ => 0

def State.chainReg (s : State) (d : Die) (index : Nat) : DWord :=
  let k := d.rngsel.toNat
  match index with
  | 0 => d.rngsel.setWidth 64
  | 1 => (d.ring k).code.setWidth 64
  | 2 => (Config.ringPhotodiode k s.tick).setWidth 64
  | 3 => BitVec.ofNat 64 (b2n (d.ring k).fault * 4 + b2n (d.ring k).spare * 2 + b2n ((d.ring k).lock && bitNat s.ready.toNat 1))
  | 4 => BitVec.ofNat 64 (b2n d.rngLoop * 65536 + d.rngPeriod.toNat)
  | 5 => s.chframe.setWidth 64
  | 6 => s.chqsel.setWidth 64
  | 7 => BitVec.ofNat 64 (s.quota s.chqsel.toNat)
  | _ => 0

def State.eventReg (s : State) (index : Nat) : DWord :=
  let c := s.ctx s.eqsel.toNat
  match index with
  | 0 => s.eqsel.setWidth 64
  | 1 => c.eqbase
  | 2 => c.eqhead.setWidth 64
  | 3 => c.eqtail.setWidth 64
  | 4 => BitVec.ofNat 64 (b2n c.eqOwn)
  | 5 => BitVec.ofNat 64 (c.eqDrops * 65536 + b2n c.eqOvf * 2 + b2n s.eqReady)
  | _ => 0

def State.coreReg (s : State) (core index : Nat) : DWord :=
  let c := s.core core
  match index with
  | 0 => BitVec.ofNat 64 (Tab.get 0 c.lim 3 * 2 ^ 24 + Tab.get 0 c.lim 2 * 2 ^ 16 + Tab.get 0 c.lim 1 * 2 ^ 8 + Tab.get 0 c.lim 0)
  | 5 => BitVec.ofNat 64 (s.escUsed core * 65536 + c.escLimit)
  | n => BitVec.ofNat 64 (s.abroadOf core (n - 1) * 2 ^ 14 + s.rowsOf core (n - 1))

def State.ctxReg (s : State) (ctx index : Nat) : DWord :=
  let c := s.ctx ctx
  match index with
  | 0 => c.pri.setWidth 64
  | 1 => c.wdint.setWidth 64
  | 0x40 => c.trvec
  | 0x41 => c.trmask.setWidth 64
  | 0x42 => c.trlpc.setWidth 64
  | 0x43 => c.savbase
  | 0x44 => s.freeReg
  | 0x45 =>
    let (k, done) := s.ctxReport ctx
    BitVec.ofNat 64 (b2n c.resErr * 2 ^ 63 + b2n done * 2 ^ 62 + k * 2 ^ 48 + (s.stateOn ctx k).code)
  | 0x46 => s.freeReg
  | 0x47 => BitVec.ofNat 64 (b2n c.fltErr * 2 ^ 63)
  | 0x48 => BitVec.ofNat 64 (b2n c.arm)
  | n => if n % 2 == 0 then Tab.get 0 c.swb ((n - 2) / 2) else Tab.get 0 c.swl ((n - 2) / 2)

def State.distReg (s : State) (index : Nat) : DWord :=
  match index with
  | 0 => s.freeReg
  | 1 => s.ds.res
  | 2 => s.ds.ibase
  | 3 => s.ds.ihead.setWidth 64
  | 4 => s.ds.itail.setWidth 64
  | 5 => s.ds.hmbase
  | 6 => s.ds.hmctx.setWidth 64
  | _ => 0

/-- Every ring of the own dies holds its wavelength, or the spare stands in for it (R100, R358). -/
def State.ringsHeld (s : State) : Bool := (List.range 4).all fun d => (s.die (s.ownDie d)).rings.all fun r => r.2.lock || r.2.spare

/-- A plane is in service: a transmit group of its fibre is (R108, R358). -/
def State.planeServes (s : State) : Bool := (List.range 64).any fun f => (List.range 4).any fun g => (s.link (8 * f + g)).service

/-- RDYSUM: bits 1 and 19 follow the rings and the links, which hold no wavelength and serve no plane before their function is ready (R358,
log 17). -/
def State.readySum (s : State) : DWord :=
  let down (n : Nat) (ok : Bool) : DWord := if ok then 0 else BitVec.ofNat 64 (2 ^ n)
  s.ready &&& ~~~(down 1 s.ringsHeld ||| down 19 s.planeServes)

/-- The registers of block 0x9 (R353). -/
def State.powerReg (s : State) (index : Nat) : DWord :=
  let p := s.power
  match index with
  | 0 => BitVec.ofNat 64 (p.newDown * 65536 + p.newUp)
  | 1 => BitVec.ofNat 64 p.newCap
  | 2 => BitVec.ofNat 64 (p.mean % 65536 * 65536 + b2n p.capped * 8 + b2n p.burn * 4 + b2n p.promote * 2 + b2n p.throttle)
  | 3 => p.latest.ns
  | 4 => p.latched.mw.setWidth 64
  | 5 => BitVec.ofNat 64 (p.latched.acc / 10000)
  | 6 => BitVec.ofNat 64 (p.offset.toNat * 2 ^ 32 + b2n p.lock)
  | 7 => s.readySum
  | 8 => BitVec.ofNat 64 (s.snap.src.toNat * 2)
  | 9 => s.snap.frame.setWidth 64
  | 10 => BitVec.ofNat 64 (s.snap.seq.toNat * 2 ^ 32 + s.snap.lost * 2 ^ 20 + s.snap.hit.toNat * 2 + b2n s.snap.full)
  | 11 => BitVec.ofNat 64 (s.snap.selBlock * 256 + s.snap.selIndex)
  | 12 => Tab.get 0 s.snap.data (s.snap.selBlock * 256 + s.snap.selIndex)
  | _ => 0

/-- The value of the register that a selector names; the staging keys read as zero (R65). A read changes nothing except
for TELTIME (R357). -/
def State.sysValue (s : State) (x : Sel) : DWord :=
  match x.block with
  | 1 => s.dieReg (s.die (s.ownDie x.die)) x.index
  | 2 => transitReg (s.die (s.ownDie x.die)) x.index
  | 3 => (Tab.get 0 (s.die (s.ownDie x.die)).txpol x.unit).setWidth 64
  | 4 => s.chainReg (s.die (s.ownDie x.die)) x.index
  | 5 => s.eventReg x.index
  | 6 => s.coreReg x.unit x.index
  | 7 => s.ctxReg x.unit x.index
  | 8 => s.distReg x.index
  | 9 => s.powerReg x.index
  | _ => 0

/-! ### Snapshots (R359) -/

/-- Every register that a snapshot latches, for die 0, core 0 and context 0 (log 19). -/
def snapKeys : List (Nat × Nat) :=
  (List.range 10).flatMap fun b => (below 0x49 fun i => indexOk b i).map fun i => (b, i)

/-- A trigger source fires: it latches a snapshot, sets its bit in HIT when another source of the same step has latched it, or is
lost while an earlier one is held (R340, R359). `src` is its bit in SNPCTL; a host FIRE does not need its bit set. -/
def State.snapFire (s : State) (src : Nat) (always : Bool) : State :=
  let p := s.snap
  if !(always || bitNat (p.src.toNat * 2) src) then s
  else if p.full then
    { s with snap :=
        if p.at_ == s.tick || (p.same && Config.freeBit s.tick 934) then { p with hit := p.hit ||| BitVec.ofNat 18 (2 ^ (src - 1)) }
        else { p with lost := min 4095 (p.lost + 1), same := false } }
  else
    { s with snap := { p with
        full := true, at_ := s.tick, same := true, seq := p.seq + 1, hit := BitVec.ofNat 18 (2 ^ (src - 1)),
        data := (snapKeys.filter fun k => k.1 != 0).map fun k => (k.1 * 256 + k.2, s.sysValue ⟨k.1, 0, 0, k.2⟩) } }

end Sys2Proof.Machine
end

