-- ==== Sys2Proof/Machine/Field.lean ====
section
/-! DEFINITION. The Field Machine: the order conditions on entries, the sources of a load's bytes and the compressed view
(R225, R262-R270). -/

namespace Sys2Proof.Machine

/-! ### Kinds of entries and their order (R262-R265) -/

/-- A load pool entry, or an atomic whose reply has not landed (R262). -/
def Entry.isLoad (e : Entry) : Bool := e.kind == .load

/-- A FIFO G entry that has not been performed. -/
def Entry.inG (e : Entry) : Bool := e.kind == .gStore || (e.kind == .gAtomic && e.level == 0)

/-- The lowest lane's address. -/
def Entry.firstAddr (e : Entry) : DWord := (e.parts.head?.map (·.addr)).getD 0

/-- FIFO Y holds the entry (R262, R293). -/
def Entry.inY (e : Entry) : Bool := e.kind == .yLoad || e.kind == .yStore || e.kind == .sysr || e.kind == .sysw

/-- The entry returns a value to the core: a load, a returned atomic, a system read. -/
def Entry.returns (e : Entry) : Bool :=
  e.kind == .load || e.kind == .yLoad || e.kind == .sysr || e.kind == .heatr || (e.kind == .gAtomic && e.dstN > 0)

/-- The split counts the entry as its own (R264). -/
def Entry.own (e : Entry) (uid : Nat) : Bool := e.owners.contains uid

/-- The entries that a split counts as its own. -/
def State.ownEnts (s : State) (uid : Nat) : List Entry := s.ents.filter fun e => e.own uid

/-- The entries older than `e` of its split (R263). -/
def State.older (s : State) (e : Entry) : List Entry := s.ents.filter fun x => x.id < e.id && x.own e.uid

/-- The entry with an identity. -/
def State.ent (s : State) (id : Nat) : Option Entry := s.ents.find? fun e => e.id == id

/-- Replaces an entry in place. -/
def State.setEnt (s : State) (e : Entry) : State := { s with ents := s.ents.map fun x => if x.id == e.id then e else x }

/-- Removes an entry. -/
def State.dropEnt (s : State) (id : Nat) : State := { s with ents := s.ents.filter fun x => x.id != id }

/-- Enters an entry as the youngest, as a packet of the word numbered `wid` (R263). -/
def State.enterAs (s : State) (wid : Nat) (e : Entry) : State :=
  { s with ents := s.ents ++ [{ e with id := s.nextId, wid := wid }], nextId := s.nextId + 1 }

/-- Enters the one entry of a word as the youngest (R263). -/
def State.enter (s : State) (e : Entry) : State := s.enterAs s.nextId e

/-- Enters the entries of one word in order (R262, R103); they share the word number of the first. -/
def State.enterAll (s : State) (es : List Entry) : State := es.foldl (fun t e => t.enterAs s.nextId e) s

/-- Where a byte of an entry lies: by virtual address on a translated path, by place otherwise (R41, R266). -/
def Entry.spot (e : Entry) (addr : DWord) : Nat :=
  if translated e.path then (noPath addr).toNat
  else
    match e.resp with
    | .ok key _ => key + (addr - e.line).toNat
    | _ => addr.toNat

/-- The spots that an entry covers, with their data bytes where it has any. -/
def Entry.bytes (e : Entry) : List (Nat × Byte) :=
  e.parts.flatMap fun p => (List.range p.width).map fun i => (e.spot (p.addr + BitVec.ofNat 64 i), p.data.getD i 0)

/-- The byte an entry stores at a spot: the highest lane's (R240). -/
def Entry.byteAt (e : Entry) (spot : Nat) : Option Byte :=
  (e.bytes.filter fun b => b.1 == spot).getLast?.map (·.2)

/-- The entry covers a spot. -/
def Entry.covers (e : Entry) (spot : Nat) : Bool := e.bytes.any fun b => b.1 == spot

/-- The entry's bytes are in its core's view of its context: a level-1 store, or a write of the core's save path (R67, R266; log 28). -/
def Entry.inView (e : Entry) : Bool := e.kind == .save || (e.kind == .gStore && 0 < e.level)

/-- Two entries are of one core, one context and one line. -/
def Entry.sameLine (e f : Entry) : Bool := e.ag.core == f.ag.core && e.ctx == f.ctx && noPath e.line == noPath f.line

/-- Two entries share a byte. -/
def Entry.meets (e f : Entry) : Bool := e.bytes.any fun b => f.covers b.1

/-- An older acquire of the split is incomplete, or an older fence (R268, R269). -/
def State.acqWaits (s : State) (e : Entry) : Bool :=
  (s.older e).any fun x => x.wid != e.wid && (x.acq.isSome || x.kind == .fence)

/-- An entry is visible at CORE scope, or at a wider one (R267): what a release of that scope need not wait for. -/
def Entry.visible (e : Entry) (scope : Nat) : Bool :=
  match e.kind with
  | .gStore => scope == 0 && 0 < e.level
  | .gAtomic => 0 < e.level
  | .sStore => false
  | .cStore => false
  | .arrive => true
  | _ => true

/-- A list of older entries lets a release of a scope go (R268): loads complete, stores visible. -/
def relClear (older : List Entry) (scope : Nat) : Bool :=
  older.all fun x => !x.isLoad && !(x.kind == .gAtomic && x.dstN > 0) && x.visible scope

/-- The array word reads rows of scratch, which are loads of its split until it has finished (R221): all but a PARC without .norm (R231). -/
def ArrayWord.reads (a : ArrayWord) : Bool := a.op != 0x4D || bitsNat a.w.mod.toNat 9 8 == 1

/-- A split counts the array word's row reads as its own (R221, R264). -/
def ArrayWord.own (a : ArrayWord) (uid : Nat) : Bool := a.uid == uid || a.heirs.contains uid

/-- An array word of a split has rows to read still (R221). -/
def Group.rowsDue (g : Group) (uid : Nat) : Bool := g.arr.any fun a => a.reads && a.own uid

/-- An array word of the entry's split that stands before it has rows to read still (R221, R263). The loops of an evicting context are stopped,
and its FIFOs do not wait for them (R330; log 33). -/
def State.rowReads (s : State) (e : Entry) : Bool :=
  let g := s.group e.ag.core e.ag.slot
  g.live && g.tag == e.tag && s.stateOn e.ctx e.ag.core != .evicting && g.arr.any fun a => a.reads && a.own e.uid && a.id < e.id

/-- The release of an entry is enabled (R268). -/
def State.relOk (s : State) (e : Entry) : Bool :=
  match e.rel with
  | none => true
  | some scope => relClear ((s.older e).filter fun x => x.wid != e.wid) scope && !s.rowReads e

/-- The Commit conditions other than the place in the FIFO (R265). -/
def State.commitConds (s : State) (e : Entry) : Bool :=
  !s.acqWaits e && !((s.older e).any fun x => x.isLoad && x.meets e) && s.relOk e

/-- A store may commit to level 1 (R265). -/
def State.commitOk (s : State) (e : Entry) : Bool :=
  e.kind == .gStore && e.level == 0 && s.commitConds e
  && !((s.older e).any fun x => x.kind == .gStore && x.level == 0)

/-- The entry is the oldest unperformed one of its FIFO (R265). -/
def State.fifoHead (s : State) (e : Entry) : Bool :=
  (s.older e).all fun x =>
    match e.kind with
    | .sStore => x.kind != .sStore
    | .cStore => x.kind != .cStore
    | .gStore => !x.inG
    | .gAtomic => !x.inG
    | _ => !x.inY

/-- A write of the core's save path to the entry's line has gone before it, and waits for its home: one that committed after it, for a store, and
one that began after it, for an atomic (log 28). -/
def State.saveAhead (s : State) (e : Entry) : Bool :=
  s.ents.any fun x => x.kind == .save && x.sameLine e && (if e.kind == .gStore then x.level < e.level else x.id < e.id)

/-- A write of a core's save path may be sent: the stores of the core's view that it comes after have been performed, and the writes before it of
its line, and of its group's records (R313; log 28). -/
def State.saveReady (s : State) (e : Entry) : Bool :=
  !(s.ents.any fun x =>
      (x.kind == .gStore && 0 < x.level && x.level < e.level && x.sameLine e)
      || (x.kind == .save && x.id < e.id
          && (x.sameLine e || (0 < e.op && 0 < x.op && x.ag.core == e.ag.core && x.ag.slot == e.ag.slot && x.tag == e.tag))))

/-- An entry may be performed, its owner's answer apart (R265). -/
def State.performOk (s : State) (e : Entry) : Bool :=
  s.fifoHead e &&
  match e.kind with
  | .gStore => 0 < e.level && !s.saveAhead e
  | .gAtomic => e.level == 0 && s.commitConds e && !s.saveAhead e
  | .sStore => s.commitConds e
  | .cStore => s.commitConds e
  | .yLoad => s.commitConds e
  | .yStore => s.commitConds e
  | .sysr => s.commitConds e
  | .sysw => s.commitConds e
  | _ => false

/-! ### The compressed view (R224, R225) -/

/-- A 16-byte tile header (R224). -/
structure TileHeader where
  size : Nat
  esc  : Bool
  bmp  : Bool
  elem : Nat
  nz   : Nat
deriving DecidableEq, Repr

/-- Rounds up to a multiple of 16. -/
def roundup16 (n : Nat) : Nat := (n + 15) / 16 * 16

/-- Reads a tile header; none when the frame is not a tile (R225). -/
def tileHeader (b : List Byte) : Option TileHeader :=
  let n := ofBytes b
  let h : TileHeader := ⟨bitsNat n 47 32, bitNat n 21, bitNat n 20, bitsNat n 19 16, bitsNat n 15 0⟩
  let w := elemBits h.elem
  if bitsNat n 127 64 == 0 && bitsNat n 31 22 == 0 && h.elem ≤ 0xB && h.nz ≤ 1024
      && h.size == (if h.bmp then 144 + roundup16 ((h.nz * w + 7) / 8) else 16 + 128 * w) then some h
  else none

/-- Byte `x` of the dense element array of a bitmap tile (R224, R225): `bit` is the bitmap, `pack` a packed byte. -/
def bitmapByte (elem x : Nat) (bit : Nat → Bool) (pack : Nat → Byte) : Byte :=
  let w := elemBits elem
  let bits := (List.range 8).map fun k =>
    let pos := 8 * x + k
    let j := pos / w
    if bit j then
      let rank := ((List.range j).filter bit).length
      let p := rank * w + pos % w
      b2n ((pack (p / 8)).getLsbD (p % 8)) * 2 ^ k
    else 0
  BitVec.ofNat 8 bits.sum

/-- A byte at home as the generic path sees it, without a lease; zero where it cannot be read (log 26). -/
def State.plainByte (s : State) (ctx : Nat) (va : DWord) : Byte :=
  match (s.ownerLook ctx none .load va).1 with
  | .ok (key, _) =>
    match (s.homeRead ctx va key 1).1 with
    | some [b] => b
    | _ => 0
  | .error _ => 0

/-- A byte of the compressed view (R225); `raw` is the byte as stored. -/
def State.viewByte (s : State) (ctx : Nat) (va : DWord) (raw : Byte) : Byte :=
  let t := va &&& 0xFFFFFFFFFFFFE000#64
  let off := va.toNat % 8192
  let at_ (i : Nat) : Byte := s.plainByte ctx (t + BitVec.ofNat 64 i)
  match tileHeader ((List.range 16).map at_) with
  | none => raw
  | some h =>
    let x := off - 16
    if off < 16 then raw
    else if 128 * elemBits h.elem ≤ x then 0
    else if h.bmp then
      bitmapByte h.elem x (fun j => (at_ (16 + j / 8)).getLsbD (j % 8)) fun p => at_ (144 + p)
    else raw

/-! ### Sources of a load's bytes (R266) -/

/-- The youngest entry of a list by a number. -/
def youngest (f : Entry → Nat) (l : List Entry) : Option Entry :=
  l.foldl (fun a e =>
    match a with
    | none => some e
    | some b => if f b < f e then some e else some b) none

/-- What a byte was taken from: an entry of the core, or a home write number (R266). -/
structure Taken where
  byte : Byte
  fl   : Floor
deriving DecidableEq, Repr

/-- A split may read home write `n` of a byte: its loads have returned no later write of it, and none that is not performed yet
(R266). -/
def State.floorMet (s : State) (uid spot n : Nat) : Bool :=
  (s.floors.filter fun f => f.uid == uid && f.addr.toNat == spot).all fun f =>
    match f.fl with
    | .home k => k ≤ n
    | .level1 _ => false

/-- Source 1 (R266): the youngest older store of the split in the FIFO of the load's path, unless the core has written over it by its save path
since (log 28). -/
def State.source1 (s : State) (e : Entry) (spot : Nat) : Option Taken :=
  let kind : EKind :=
    if e.path == 2 then .sStore
    else if e.path == 3 then
      (match e.resp with
        | .ok key _ => if (key - 2 ^ 62) / 2 ^ 21 == e.ag.core then .sStore else .cStore
        | _ => .cStore)
    else .gStore
  if e.path == 1 || e.path == 4 then none
  else
    (youngest (·.id) ((s.older e).filter fun x => x.kind == kind && x.covers spot)).bind fun x =>
      if 0 < x.level && s.ents.any (fun y => y.kind == .save && y.sameLine x && x.level < y.level && y.covers spot) then none
      else (x.byteAt spot).map fun b => ⟨b, .level1 x.id⟩

/-- The youngest byte in a core's view of a context (R67, R266). -/
def State.level1At (s : State) (core ctx spot : Nat) : Option Taken :=
  (youngest (·.level) (s.ents.filter fun x => x.inView && x.ag.core == core && x.ctx == ctx && x.covers spot)).bind fun x =>
    (x.byteAt spot).map fun b => ⟨b, .level1 x.id⟩

/-- Source 2 (R266): the youngest bytes in the core's view, of the same context (R67). -/
def State.source2 (s : State) (e : Entry) (spot : Nat) : Option Taken :=
  if e.path != 0 then none else s.level1At e.ag.core e.ctx spot

/-- Source 3 (R266): a clean copy of the load's class, unless it is older than the split's floor, or an acquire with .prom
meets a tagged line (R269). -/
def State.source3 (s : State) (e : Entry) (va : DWord) (noCopy : Bool) : Option Taken :=
  if noCopy || !translated e.path then none
  else
    (s.copies.find? fun c =>
        c.core == e.ag.core && c.cls == classOf e.path && c.ctx == e.ctx && c.line == lineOf (noPath va)).bind fun c =>
      let i := va.toNat % 128
      let n := c.vers.getD i 0
      if s.floorMet e.uid (noPath va).toNat n then some ⟨c.bytes.getD i 0, .home n⟩ else none

/-- The key of a byte of an entry, once its owner has answered. -/
def Entry.keyAt (e : Entry) (key : Nat) (addr : DWord) : Nat := key + (addr - e.line).toNat

/-- A byte that a load takes from within its core: sources 1 to 3, in order (R266). -/
def State.nearByte (s : State) (e : Entry) (addr : DWord) (noCopy : Bool) : Option Taken :=
  ((s.source1 e (e.spot addr)).orElse fun _ => s.source2 e (e.spot addr)).orElse fun _ => s.source3 e addr noCopy

/-- Source 4 (R266): the home order, decoded for the compressed view; none is POISON. -/
def State.source4 (s : State) (e : Entry) (addr : DWord) : Option Taken :=
  match e.resp with
  | .ok key _ =>
    if translated e.path then
      match (s.homeRead e.ctx (noPath addr) (e.keyAt key addr) 1).1 with
      | some [b] =>
        let k := (s.serve e.ctx (noPath addr) (e.keyAt key addr)).1
        some ⟨if e.path == 4 then s.viewByte e.ctx (noPath addr) b else b, .home (Tab.get 0 s.bver k)⟩
      | _ => none
    else
      let k := e.keyAt key addr
      let core := (k - 2 ^ 62) / 2 ^ 21
      some ⟨(s.scrRead e.ctx core ((k - 2 ^ 62) % 2 ^ 21) 1).headD 0, .home (Tab.get 0 s.bver k)⟩
  | _ => none

/-- The byte that a load takes at an address, from the first source that holds it (R266). -/
def State.takeByte (s : State) (e : Entry) (addr : DWord) (noCopy : Bool) : Option Taken :=
  (s.nearByte e addr noCopy).orElse fun _ => s.source4 e addr

/-- The load must read its line from the home: .prom on a wide acquire of a tagged line (R269). -/
def State.mustGoHome (s : State) (e : Entry) : Bool :=
  e.prom && (e.acq.getD 0) != 0 &&
  match e.resp with
  | .ok key _ => (s.line ((s.serve e.ctx (noPath e.line) key).1 / 128)).releaser.isSome
  | _ => false

/-- Every byte that a load would take from the home order is no earlier than what its split has read of it (R266). -/
def State.homeMet (s : State) (e : Entry) : Bool :=
  let noCopy := s.mustGoHome e
  e.parts.all fun p => (List.range p.width).all fun i =>
    let a := p.addr + BitVec.ofNat 64 i
    (s.nearByte e a noCopy).isSome ||
    match s.source4 e a with
    | some ⟨_, .home n⟩ => s.floorMet e.uid (e.spot a) n
    | _ => true

/-- The load has its bytes already: a lane word has read it early (R10). -/
def Entry.bound (e : Entry) : Bool := !e.parts.isEmpty && e.parts.all fun p => !p.data.isEmpty

/-- The conditions of R266 under which a load packet completes. -/
def State.completeOk (s : State) (e : Entry) : Bool :=
  e.bound
  || (!s.acqWaits e
      && !((s.older e).any fun x => x.isLoad && x.meets e)
      && !((s.older e).any fun x => x.kind == .gAtomic && x.level == 0 && x.meets e)
      && s.homeMet e)

/-- The latest home write of a line (R266). -/
def State.lineVer (s : State) (line : Nat) : Nat :=
  (List.range 128).foldl (fun n i => max n (Tab.get 0 s.bver (128 * line + i))) 0

/-- The line that serves an entry's request, once its owner has answered. -/
def State.servedLine (s : State) (e : Entry) : Option Nat :=
  match e.resp with
  | .ok key _ => some ((s.serve e.ctx (noPath e.line) key).1 / 128)
  | _ => none

/-- The promote probe of an acquire is not answered yet (R269): the line's tag names another core, and no probe has been answered
since the release that set it. -/
def State.probeWaits (s : State) (e : Entry) : Bool :=
  e.prom && (e.acq.getD 0) != 0 &&
  match s.servedLine e with
  | some line =>
    (match (s.line line).releaser with
     | some c => c != e.ag.core
     | none => false) && e.probed != some (s.lineVer line)
  | none => false

/-- Records what a split has read of a byte (R266). -/
def State.noteFloor (s : State) (e : Entry) (spot : Nat) (fl : Floor) : State :=
  { s with floors :=
      (s.floors.filter fun f => !(f.uid == e.uid && f.addr.toNat == spot &&
          (match f.fl, fl with
           | .home a, .home b => a ≤ b
           | .level1 a, .level1 b => a == b
           | _, _ => false)))
        ++ [⟨e.uid, e.ag.core, BitVec.ofNat 64 spot, fl⟩] }

/-- After an entry is performed, the floors that named it name its home write (R266). -/
def State.settleFloors (s : State) (id n : Nat) : State :=
  { s with floors := s.floors.map fun f => if f.fl == .level1 id then { f with fl := .home n } else f }

/-- The floors of a store that will not be performed are gone: its bytes are no write (R239, R266). -/
def State.dropFloors (s : State) (id : Nat) : State := { s with floors := s.floors.filter fun f => f.fl != .level1 id }

/-- Drops the clean copies of a core and class (R118). -/
def State.dropCopies (s : State) (core : Nat) (cls : PathClass) : State :=
  { s with copies := s.copies.filter fun c => !(c.core == core && c.cls == cls) }

/-- What an acquire of a scope drops: the core's generic copies at CLUS or wider (R118, R269). -/
def State.acquireDrop (s : State) (core scope : Nat) : State :=
  if scope == 0 then s else s.dropCopies core .generic

/-- A performed store updates the L1 copy of its line in its own core (R117). -/
def State.updateCopies (s : State) (core ctx : Nat) (va : DWord) (bs : List Byte) (n : Nat) : State :=
  { s with copies := s.copies.map fun c =>
      if c.core == core && c.cls == .generic && c.ctx == ctx && c.line == lineOf va then
        let o := va.toNat % 128
        { c with
          bytes := (List.range 128).map fun i => if o ≤ i && i < o + bs.length then bs.getD (i - o) 0 else c.bytes.getD i 0
          vers := (List.range 128).map fun i => if o ≤ i && i < o + bs.length then n else c.vers.getD i 0 }
      else c }

/-- Two copies compete for a place: they are instruction lines of one core, or its data lines of one set (R115, log 62). -/
def Copy.rivals (x c : Copy) : Bool :=
  c.core == x.core &&
  (if x.cls == .instruction then c.cls == .instruction
   else c.cls != .instruction && Config.l1SetOf c.line.toNat % Config.l1Sets == Config.l1SetOf x.line.toNat % Config.l1Sets)

/-- The copy of one core, class, context and line. -/
def Copy.same (x c : Copy) : Bool := c.core == x.core && c.cls == x.cls && c.ctx == x.ctx && c.line == x.line

/-- A new copy takes its place; where its set is full, the least recently used leaves. The list stands in order of use (R115, log 62). -/
def putCopy (x : Copy) (cs : List Copy) : List Copy :=
  let cs := cs.filter fun c => !x.same c
  let rs := cs.filter x.rivals
  let places := if x.cls == .instruction then Config.icacheLines else Config.l1Ways
  (match rs with
   | r :: _ => if rs.length < places then cs else cs.filter fun c => !r.same c
   | [] => cs) ++ [x]

/-- A copy is used (R115). -/
def State.touchCopy (s : State) (core : Nat) (cls : PathClass) (ctx : Nat) (line : DWord) : State :=
  let x : Copy := ⟨core, cls, ctx, line, [], []⟩
  { s with copies := s.copies.filter (fun c => !x.same c) ++ s.copies.filter x.same }

/-- Takes a clean copy of a line from its home (R265), for a context that may read it; no request packet counts for it (R70, log 24). -/
def State.fill (s : State) (core : Nat) (cls : PathClass) (ctx : Nat) (va : DWord) : State :=
  let va := lineOf (noPath va)
  match s.ownerLook ctx none .load va with
  | (.error _, _) => s
  | (.ok (key, _), s) =>
    match s.homeRead ctx va key 128 with
    | (none, s) => s
    | (some bs, s) =>
      let k := (s.serve ctx va key).1
      let bs := if cls == .compressed then
          (List.range 128).map fun i => s.viewByte ctx (va + BitVec.ofNat 64 i) (bs.getD i 0) else bs
      let vers := (List.range 128).map fun i => Tab.get 0 s.bver (k + i)
      { s with copies := putCopy ⟨core, cls, ctx, va, bs, vers⟩ s.copies }

/-! ### Outstanding untracked results (R10, R161, R164) -/

/-- The entry is an untracked result of the split (R161): a load of the lane stream, or an atomic, with or without a return. -/
def Entry.untracked (e : Entry) (uid : Nat) : Bool :=
  e.own uid && !e.tracked && ((e.returns && e.dstN > 0) || (e.kind == .gAtomic && e.dstN == 0))

/-- The untracked results of a split that are outstanding: one for each packet (R164, log 11). -/
def State.untrOf (s : State) (uid : Nat) : Nat := s.ents.countP fun e => e.untracked uid

/-- The entry is to write scalar register `n`. -/
def Entry.writesS (e : Entry) (n : Nat) : Bool :=
  match e.sdst with
  | some d => d == n || (e.kind == .sysr && d + 1 == n)
  | none => false

/-- A split still awaits scalar register `n` (R277): the access is in flight or held by a parked split. -/
def State.awaits (s : State) (ag : Agent) (n : Nat) : Bool :=
  let g := s.groupOf ag
  let uid := (g.split ag.split).uid
  s.ents.any (fun e => e.own uid && e.writesS n) || g.heldEnts.any fun e => e.own uid && e.writesS n

end Sys2Proof.Machine
end

