-- ==== Sys2Proof/Machine/Links.lean ====
section
/-! DEFINITION. Traverse's links: the plane and the stripe group of a packet, and the replay slots that its flits take (R102, R105, R108, R341;
log 20). Every packet leaves through the gateway of a die of the own node, `gate`. -/

namespace Sys2Proof.Machine

/-! ### Links (R102-R105, R108, R341) -/

/-- The key of a stripe group of a fibre pair, in the transmit or the receive direction. -/
def linkKey (fibre group : Nat) (rx : Bool) : Nat := 8 * (fibre % 64) + 4 * b2n rx + group % 4

/-- The groups of a fibre that are in service. -/
def State.groupsUp (s : State) (fibre : Nat) (rx : Bool) : List Nat := below 4 fun g => (s.link (linkKey fibre g rx)).service

/-- The first transmit plane in service from `p` on (R108); Traverse carries nothing before it is ready (R358). -/
def State.planeUp (s : State) (p : Nat) : Option Nat :=
  if bitNat s.ready.toNat 19 then ((List.range 64).map fun i => (p + i) % 64).find? fun q => !(s.groupsUp q false).isEmpty else none

/-- Where the turn of a gateway on a fibre is kept. -/
def turnKey (gate fibre : Nat) : Nat := 64 * (gate % 4) + fibre % 64

/-- The group of a fibre that a gateway's next packet of `n` flits takes: the first in the gateway's turn that is in service and has a free slot.
A group with no free slot sends nothing, and the others run on; a packet whose group has too few slots for its flits waits for them
(R105, R341; log 20). -/
def State.turnGroup (s : State) (gate fibre n : Nat) : Option Nat :=
  let t := Tab.get 0 s.turns (turnKey gate fibre)
  let l (g : Nat) : Link := s.link (linkKey fibre g false)
  (((List.range 4).map fun i => (t + i) % 4).find? fun g => (l g).service && (l g).replay.length < 256).filter fun g =>
    (l g).replay.length + n ≤ 256

/-- A gateway's packet of `n` flits waits for acknowledgement in a group (R105); the sequence number of its first flit names it. -/
def Link.push (l : Link) (gate n : Nat) : Link :=
  { l with
    replay := l.replay ++ (List.range n).map fun i => ⟨l.next + BitVec.ofNat 32 i, l.next, gate⟩
    next := l.next + BitVec.ofNat 32 n }

/-- The plane of a packet (R102). -/
def planeOf (va : DWord) (node : Nat) : Nat := bitsNat va.toNat 12 7 ^^^ node % 64

/-- A transmit group out of service still holds flits that are to be replayed on a plane (R108). -/
def State.owedOn (s : State) (p : Nat) : Bool :=
  (List.range 64).any fun f => s.planeUp f == some p && (List.range 4).any fun g =>
    !(s.link (linkKey f g false)).service && !(s.link (linkKey f g false)).replay.isEmpty

/-- The plane and the group that a gateway's packet would take, when a slot is free for each of its flits and no replay stands before it (R105,
R108, R341). -/
def State.linkFor (s : State) (gate plane n : Nat) : Option (Nat × Nat) :=
  (s.planeUp plane).bind fun p => if s.owedOn p then none else (s.turnGroup gate p n).map fun g => (p, g)

/-- A gateway's packet of `n` flits leaves on a plane and group. -/
def State.sendOn (s : State) (gate p g n : Nat) : State :=
  let k := linkKey p g false
  { s.setLink k ((s.link k).push gate n) with turns := Tab.put s.turns (turnKey gate p) ((g + 1) % 4) }

/-- Flits of a packet (R98, R104). -/
def flitsOf (payload : Nat) : Nat := max 1 ((payload + 63) / 64)

/-- A packet for a node may leave: it needs no link, or a link has room (R102, R105). -/
def State.mayLeaveFor (s : State) (gate node : Nat) (va : DWord) (payload : Nat) : Bool :=
  node == s.node.toNat || (s.linkFor gate (planeOf va node) (flitsOf payload)).isSome

/-- A packet for a node leaves on its plane (R102, R105, R341). -/
def State.leaveFor (s : State) (gate node : Nat) (va : DWord) (payload : Nat) : State :=
  if node == s.node.toNat then s
  else
    match s.linkFor gate (planeOf va node) (flitsOf payload) with
    | some (p, g) => s.sendOn gate p g (flitsOf payload)
    | none => s

/-- A packet for the owner of an address may leave. -/
def State.mayLeave (s : State) (gate : Nat) (va : DWord) (payload : Nat) : Bool := s.mayLeaveFor gate (nodeOf va) va payload

/-- A packet for the owner of an address leaves. -/
def State.leave (s : State) (gate : Nat) (va : DWord) (payload : Nat) : State := s.leaveFor gate (nodeOf va) va payload

/-- The peer that the own node's gateway forwards a request to: the holder of the frame of an aperture page, or the source of a
page in transit from a peer (R66, R80, R102). It is the own node for every other request. -/
def State.forwardNode (s : State) (ctx : Nat) (lease : Option Word) (a : Access) (va : DWord) : Nat :=
  if nodeOf va != s.node.toNat then s.node.toNat
  else
    match (s.ownerLook ctx lease a (noPath va)).1 with
    | .ok (key, _) => (s.serve ctx (noPath va) key).1 / 2 ^ 52
    | .error _ => s.node.toNat

/-- A request for an address may leave by a gateway, and what the gateway of the owner's die forwards of it (R102, R105). -/
def State.mayCross (s : State) (gate ctx : Nat) (lease : Option Word) (a : Access) (va : DWord) (payload : Nat) : Bool :=
  s.mayLeave gate va payload && s.mayLeaveFor (dieOf va) (s.forwardNode ctx lease a va) va payload

/-- A request for an address leaves, and what the owner's gateway forwards of it (R102). -/
def State.cross (s : State) (gate ctx : Nat) (lease : Option Word) (a : Access) (va : DWord) (payload : Nat) : State :=
  let n := s.forwardNode ctx lease a va
  (s.leave gate va payload).leaveFor (dieOf va) n va payload

/-- The lines of `n` bytes from an address on, with the payload of each: `payload` bytes of a write, or none of a read (R17, R102). -/
def linesFrom : Nat → DWord → Nat → Bool → List (DWord × Nat)
  | 0, _, _, _ => []
  | k + 1, va, n, write =>
    if n == 0 then []
    else
      let m := min n (128 - va.toNat % 128)
      (va, if write then m else 0) :: linesFrom k (va + BitVec.ofNat 64 m) (n - m) write

/-- The lines of a read or a write of `n` bytes. -/
def linesOf (va : DWord) (n : Nat) (write : Bool) : List (DWord × Nat) := linesFrom (n / 128 + 2) va n write

/-- The requests for some lines may leave one after the other (R102, R105). -/
def State.mayCrossAll (gate ctx : Nat) (lease : Option Word) (a : Access) : List (DWord × Nat) → State → Bool
  | [], _ => true
  | x :: xs, s =>
    s.mayCross gate ctx lease a x.1 x.2 && State.mayCrossAll gate ctx lease a xs (s.cross gate ctx lease a x.1 x.2)

/-- The requests for some lines leave one after the other (R102). -/
def State.crossAll (s : State) (gate ctx : Nat) (lease : Option Word) (a : Access) (ls : List (DWord × Nat)) : State :=
  ls.foldl (fun s x => s.cross gate ctx lease a x.1 x.2) s

end Sys2Proof.Machine
end

