-- ==== Sys2Proof/Machine/Ops.lean ====
section
/-! DEFINITION. The shared operations: event records, the end of splits, groups and units, accesses by virtual address,
parking, taking an exception and returning from one, and the completion of scalar and lane words (R7-R13, R37, R140,
R158, R279, R282-R285, R291, R296, R311-R326). -/

namespace Sys2Proof.Machine

/-- What every meaning answers. -/
abbrev Out := Host.Outcome State Fault Refusal

/-! ### Event records (R139-R141) -/

/-- Slots of a context's event queue; 0 when it is disabled (R139). -/
def Ctx.eqSize (c : Ctx) : Nat :=
  if bitsNat c.eqbase.toNat 9 4 != 0 || bitsNat c.eqbase.toNat 3 0 < 4 then 0 else 2 ^ bitsNat c.eqbase.toNat 3 0

/-- The key of a slot of a context's event queue (R139). -/
def State.eqKey (s : State) (c : Ctx) (i : Nat) : Nat :=
  physKey (s.ownDie (bitsNat c.eqbase.toNat 11 10)) 0 (ringBase c.eqbase + 16 * i)

/-- A record posted to a context's queue now need not wait: no earlier one waits, and the memory of its slot is ready, or it will be dropped
(R140, R358). -/
def State.eventReady (s : State) (ctx : Nat) : Bool :=
  let c := s.ctx ctx
  !(s.posts.any fun p => p.1 == ctx) && (ringFull c.eqhead c.eqtail c.eqSize || s.memReady (s.eqKey c c.eqtail.toNat))

/-- Enters a record into a context's queue, or drops it (R140); false when it was dropped. A record whose slot's memory is not ready waits
(R358; log 46). EQSTAT.READY holds nothing back (DESIGN CHOICE: R139 and R140 give a post or a pop before it no effect of its own; log 87). -/
def State.postEvent (s : State) (ctx rec_ : Nat) : Bool × State :=
  let c := s.ctx ctx
  let n := c.eqSize
  if !s.eventReady ctx then (true, { s with posts := s.posts ++ [(ctx, rec_)] })
  else if ringFull c.eqhead c.eqtail n then
    (false, s.setCtx ctx { c with eqDrops := min 65535 (c.eqDrops + 1), eqOvf := true })
  else
    let s := s.unitWrite (s.eqKey c c.eqtail.toNat) (toBytes rec_ 16)
    (true, s.setCtx ctx { c with eqtail := ringNext c.eqtail n })

/-- The records that wait are entered as far as the memory of their slots is ready, in order (R140, R358). -/
def State.sendPosts (s : State) : State := s.posts.foldl (fun s p => (s.postEvent p.1 p.2).2) { s with posts := [] }

/-! ### Accesses by virtual address without a lease (R300, R331) -/

/-- One write within a line. -/
def State.vWrite1 (s : State) (ctx : Nat) (va : DWord) (bs : List Byte) : Bool × State :=
  match s.ownerCheck ctx none .store va with
  | (.error _, s) => (false, s)
  | (.ok (key, _), s) => s.homeWrite ctx (noPath va) key bs none

/-- Writes bytes by virtual address, line by line with `put`; it stops at the first line that cannot be written. -/
def writeLines (put : State → DWord → List Byte → Bool × State) : Nat → State → DWord → List Byte → Bool × State
  | 0, s, _, _ => (true, s)
  | k + 1, s, va, bs =>
    if bs.isEmpty then (true, s)
    else
      let n := 128 - va.toNat % 128
      match put s va (bs.take n) with
      | (false, s) => (false, s)
      | (true, s) => writeLines put k s (va + BitVec.ofNat 64 n) (bs.drop n)

/-- Writes bytes by virtual address. -/
def State.vWrite (s : State) (ctx : Nat) (va : DWord) (bs : List Byte) : Bool × State :=
  writeLines (fun s va bs => s.vWrite1 ctx va bs) (bs.length / 128 + 2) s va bs

/-- One read within a line. -/
def State.vRead1 (s : State) (ctx : Nat) (va : DWord) (n : Nat) : (Except (FaultKind × Cause) (List Byte)) × State :=
  match s.ownerCheck ctx none .load va with
  | (.error f, s) => (.error f, s)
  | (.ok (key, _), s) =>
    match s.homeRead ctx (noPath va) key n with
    | (some bs, s) => (.ok bs, s)
    | (none, s) => (.error (.poison, .none), s)

/-- Reads bytes by virtual address, line by line. -/
def vReadN : Nat → State → Nat → DWord → Nat → (Except (FaultKind × Cause) (List Byte)) × State
  | 0, s, _, _, _ => (.ok [], s)
  | k + 1, s, ctx, va, n =>
    if n == 0 then (.ok [], s)
    else
      let m := min n (128 - va.toNat % 128)
      match s.vRead1 ctx va m with
      | (.error f, s) => (.error f, s)
      | (.ok bs, s) =>
        match vReadN k s ctx (va + BitVec.ofNat 64 m) (n - m) with
        | (.error f, s) => (.error f, s)
        | (.ok cs, s) => (.ok (bs ++ cs), s)

/-- Reads bytes by virtual address. -/
def State.vRead (s : State) (ctx : Nat) (va : DWord) (n : Nat) : (Except (FaultKind × Cause) (List Byte)) × State :=
  vReadN (n / 128 + 2) s ctx va n

/-! ### The save area (R319, R331-R333) -/

/-- The image of a context's core in its save area (R331). -/
def State.imageAddr (s : State) (ctx core : Nat) : DWord :=
  BitVec.ofNat 64 (bitsNat (s.ctx ctx).savbase.toNat 63 23 * 2 ^ 23 + core * 2 ^ 23)

/-- A group record (R332). -/
def State.groupRecAddr (s : State) (ctx core slot : Nat) : DWord :=
  s.imageAddr ctx core + BitVec.ofNat 64 (0x10000 + 0x10000 * slot)

/-- A trap frame (R319). -/
def State.frameAddr (s : State) (ctx core slot idx : Nat) : DWord :=
  s.groupRecAddr ctx core slot + BitVec.ofNat 64 (0x80 * idx)

/-- A packet of a core's save path: bytes of one line that it writes, or a line that it reads. No split counts it as its own; `op` says what
follows (R313, R331). -/
def savePacket (kind : EKind) (ag : Agent) (tag ctx op level : Nat) (va : DWord) (bs : List Byte) : Entry :=
  { (default : Entry) with
    kind := kind, ag := ag, tag := tag, ctx := ctx, line := lineOf va, parts := [⟨0, va, bs.length, bs⟩], op := op, level := level }

/-- A write of a save path waits for its home; it is in the core's view from then on, after every store that is there (log 28). -/
def State.enterSave (s : State) (ag : Agent) (tag ctx op : Nat) (va : DWord) (bs : List Byte) : State :=
  { s.enter (savePacket .save ag tag ctx op s.wseq va bs) with wseq := s.wseq + 1 }

/-- A core may send packets to a save area: the area is valid, its node is there, and the context's key on the core's die (R41, R106, R321). -/
def State.saveOpen (s : State) (core ctx : Nat) (va : DWord) : Bool :=
  bitNat (s.ctx ctx).savbase.toNat 0 && (s.coreCheck core ctx va).isNone

/-- A core writes into the save area, a packet for each line; false when nothing is sent (log 16). -/
def State.saveWrite (s : State) (ag : Agent) (tag ctx op : Nat) (va : DWord) (bs : List Byte) : Bool × State :=
  if s.saveOpen ag.core ctx va then
    writeLines (fun s va bs => (true, s.enterSave ag tag ctx op va bs)) (bs.length / 128 + 2) s va bs
  else (false, s)

/-- Reads bytes by virtual address as a core sees them: what waits in its view over the home (R266, R320). -/
def State.coreRead (s : State) (core ctx : Nat) (va : DWord) (n : Nat) : (Except (FaultKind × Cause) (List Byte)) × State :=
  match s.vRead ctx va n with
  | (.error f, s) => (.error f, s)
  | (.ok bs, s) =>
    (.ok (bs.zipIdx.map fun b => ((s.level1At core ctx ((noPath va).toNat + b.2)).map (·.byte)).getD b.1), s)

/-- The code of a fault kind (R311). -/
def FaultKind.code (k : FaultKind) : Nat :=
  match k with
  | .illegalOp => 1
  | .illegalOperand => 2
  | .align => 3
  | .path => 4
  | .perm => 5
  | .lease => 6
  | .poison => 7
  | .phaserClobber => 8
  | .loopOverflow => 9
  | .watchdog => 10
  | .trap _ => 11

/-- The trap code (R312). -/
def FaultKind.trapCode (k : FaultKind) : Nat :=
  match k with
  | .trap c => c.toNat
  | _ => 0

/-- The code of a cause (R312). -/
def Cause.code (c : Cause) : Nat :=
  match c with
  | .none => 0
  | .write => 1
  | .atomic => 2
  | .execute => 3
  | .unmapped => 4
  | .malformed => 5
  | .system => 6

/-- The fault record as a 256-bit value (R312). -/
def FaultRec.bits (r : FaultRec) : Nat :=
  r.vaddr.toNat * 2 ^ 192 + r.spc.toNat * 2 ^ 160 + r.lpc.toNat * 2 ^ 128 + r.mask.toNat * 2 ^ 96
  + r.launch.toNat * 2 ^ 64 + r.time.toNat * 2 ^ 32 + r.kind.code * 2 ^ 28 + r.cause.code * 2 ^ 24
  + r.kind.trapCode * 2 ^ 14 + r.eabr * 2 ^ 10 + b2n r.re * 2 ^ 9 + b2n r.scw * 2 ^ 8 + b2n r.nest * 2 ^ 7
  + b2n r.rpl * 2 ^ 6 + r.slot

/-- A loop-stack entry as a 128-bit value (R282). -/
def LoopEntry.bits (e : LoopEntry) : Nat :=
  e.count.toNat * 2 ^ 96 + e.lpc.toNat * 2 ^ 64 + e.fin.toNat * 2 ^ 32 + e.start.toNat

/-- The loop entry of a 128-bit value. -/
def loopOfBits (n : Nat) : LoopEntry :=
  ⟨BitVec.ofNat 32 (bitsNat n 127 96), BitVec.ofNat 32 (bitsNat n 95 64), BitVec.ofNat 32 (bitsNat n 63 32),
   BitVec.ofNat 32 (bitsNat n 31 0)⟩

/-- A loop stack read back from its words, of which `depth` hold entries (R282, R319). -/
def loopsOfBytes (depth : Nat) (b : List Byte) : List LoopEntry :=
  ((List.range (min 4 depth)).map fun i => loopOfBits (ofBytes ((b.drop (16 * i)).take 16))).reverse

/-- The four loop-stack words, oldest first, zero above the depth (R282, R319). -/
def loopBytes (loops : List LoopEntry) : List Byte :=
  (List.range 4).flatMap fun i => toBytes ((loops.reverse[i]?.map LoopEntry.bits).getD 0) 16

/-! ### Phaser waits (R253, R259) -/

/-- The 128 bits of a phaser object. -/
def State.objBits (s : State) (core off : Nat) : Nat := ofBytes (s.mem.readN (scrKey core off) 16)

/-- Writes the 128 bits of a phaser object. -/
def State.putObjBits (s : State) (ctx core off n : Nat) : State := s.scrWrite ctx core off (toBytes n 16)

/-- A split's wait is withdrawn, which lowers WPEND of a live object (R259). -/
def State.withdrawWait (s : State) (ctx : Nat) (w : Wait) : State :=
  match w with
  | .phaser core off _ _ =>
    let n := s.objBits core off
    if bitNat n 0 && 0 < bitsNat n 19 8 then s.putObjBits ctx core off (n - 2 ^ 8) else s
  | _ => s

/-! ### Ends of splits, groups and units (R9, R158, R261, R290, R291, R296) -/

/-- A launch's completion waits for its units (R296); `n` more units have ended, failed or not. -/
def State.launchUnitsEnded (s : State) (launch : Word) (n : Nat) (failed : Bool) : State :=
  match s.launches.find? fun p => p.1 == launch.toNat with
  | none => s
  | some (k, l) =>
    let s := { s with launches := Tab.put s.launches k { l with ended := l.ended + n, failed := l.failed || failed } }
    match s.handles.find? fun p => p.1 == k with
    | none => s
    | some (_, h) => { s with handles := Tab.put s.handles k { h with count := h.count - n, failing := h.failing || failed } }

/-- Bits of a card's header (R124). -/
def Card.hdr (c : Card) (hi lo : Nat) : Nat := bitsNat c.header.toNat hi lo
def Card.phv (c : Card) : Bool := c.hdr 103 103 == 1
def Card.phoff (c : Card) : Nat := 16 * c.hdr 102 86

/-- The phaser of a unit at a partition offset has been freed: the jobs that were to arrive on it find it gone (R129). -/
def State.cardsLose (s : State) (unit off : Nat) : State :=
  { s with clusters := s.clusters.map fun p =>
      (p.1, { p.2 with window := p.2.window.map fun c =>
        if c.unit == unit && c.phv && c.phoff == off then { c with phgone := true } else c }) }

/-- The arrivals and changes of role that cross to an object that has been freed are refused (R258, R260). -/
def State.arrivalsLose (s : State) (core off : Nat) : State :=
  { s with ents := s.ents.map fun e =>
      match e.kind, e.resp with
      | .arrive, .ok key _ =>
        if key + (e.firstAddr - e.line).toNat == scrKey core off then
          { e with resp := .bad ⟨.illegalOperand, .none, e.firstAddr⟩ s.tick } else e
      | _, _ => e }

/-- A wait for the object at a place is for one that has ended (R261). -/
def Split.waitDies (core off : Nat) (sp : Split) : Split :=
  match sp.wait with
  | .phaser c o _ _ => if c == core && o == off then { sp with wait := .dead } else sp
  | _ => sp

/-- The waits of a group for the object at a place never complete (R261). -/
def Group.waitsDie (core off : Nat) (g : Group) : Group :=
  { g with splits := g.splits.map fun p => (p.1, p.2.waitDies core off) }

/-- No wait for the object at a place ever completes (R261), in a slot or in a save. -/
def State.waitsDie (s : State) (core off : Nat) : State :=
  { s with
    groups := s.groups.map fun p => (p.1, p.2.waitsDie core off)
    ctxCores := s.ctxCores.map fun p => (p.1, { p.2 with saved := p.2.saved.map fun q => (q.1, q.2.waitsDie core off) }) }

/-- Ends a unit: its phasers are freed and its partition too (R120, R261, R296). -/
def State.endUnit (s : State) (unit : Nat) (failed : Bool) : State :=
  match s.units.find? fun p => p.1 == unit with
  | none => s
  | some (_, u) =>
    if u.ended then s
    else
      let c := s.core u.core
      let dead := c.phasers.filter fun p => p.unit == unit
      let s := s.setCore u.core { c with phasers := c.phasers.filter fun p => p.unit != unit }
      let s := dead.foldl (fun s p =>
        let k := scrKey u.core p.off
        ((({ s with mem := s.mem.write k (s.mem.read k &&& 0xFE#8) }).waitsDie u.core p.off).arrivalsLose u.core p.off).cardsLose
          unit (p.off - u.pbase)) s
      let s := { s with units := Tab.put s.units unit { u with ended := true, left := 0 } }
      s.launchUnitsEnded u.launch 1 failed

/-- Gives up the context slot when the context has no group left on the core (R145), and marks it absent. -/
def State.leaveCore (s : State) (ctx core : Nat) : State :=
  if (s.groupsOn core).any fun p => p.2.ctx == ctx then s
  else
    let c := s.core core
    let s := s.setCore core { c with ctxSlots := c.ctxSlots.filter fun p => p.2 != ctx }
    if s.stateOn ctx core == .running || s.stateOn ctx core == .preempted || s.stateOn ctx core == .halted then
      s.setCtxCore ctx core { s.ctxCore ctx core with state := .absent }
    else s

/-- Takes a group out of its slot: rows free, tag advanced, so that late replies are dropped (R150, R158). -/
def State.dropGroup (s : State) (core slot : Nat) : State :=
  let g := s.group core slot
  let s := g.live8.foldl (fun s n => s.withdrawWait g.ctx (g.split n).wait) s
  let abroad := (s.entsOf core slot).flatMap fun e =>
    match e.esc with
    | some x => (List.range x.count).map fun i => x.base + i
    | none => []
  let c := s.core core
  let s := s.setCore core { c with
    rows := c.rows ++ ((List.range g.regs).filter fun i => !abroad.contains i).map fun i => g.rowImage i }
  let s := s.setGroup core slot { Group.empty with tag := g.tag + 1 }
  s.leaveCore g.ctx core

/-- Ends a group (R9): its unit has one group fewer. -/
def State.endGroup (s : State) (core slot : Nat) : State :=
  let g := s.group core slot
  let s := s.dropGroup core slot
  match s.units.find? fun p => p.1 == g.unit with
  | none => s
  | some (k, u) =>
    let s := { s with units := Tab.put s.units k { u with left := u.left - 1, slots := u.slots.filter (· != slot) } }
    if u.left ≤ 1 then s.endUnit k false else s

/-- Ends every group of a unit and the unit (R60, R303); the saved groups and objects of an evicted unit are given up (R261, R339), and
its places in the phaser list of the image belong to no unit. -/
def State.killUnit (s : State) (unit : Nat) (failed : Bool) : State :=
  match s.units.find? fun p => p.1 == unit with
  | none => s
  | some (_, u) =>
    if u.ended then s
    else if u.away then
      let c := s.ctxCore u.ctx u.core
      let saved := c.saved.filter fun p => p.2.unit != unit
      let st := if saved.isEmpty && c.state == .evicted then CtxState.absent else c.state
      let objs := c.objs.map fun p => if p.unit == unit then { p with unit := 0 } else p
      (s.setCtxCore u.ctx u.core { c with saved := saved, state := st, objs := objs }).endUnit unit failed
    else (u.slots.foldl (fun s slot => s.dropGroup u.core slot) s).endUnit unit failed

/-- Removes a split; the group ends with its last split (R9). -/
def State.removeSplit (s : State) (ag : Agent) : State :=
  let g := s.groupOf ag
  let g := { g with splits := Tab.del g.splits ag.split }
  let s := s.setGroupOf ag g
  if g.splits.isEmpty then s.endGroup ag.core ag.slot else s

/-- The split holds a record of the BRV, in force or set aside (R318). -/
def Split.shares (sp : Split) (brvid : Nat) : Bool := (sp.joins ++ sp.setJoins).any fun r => r.brvid == brvid

/-- Another split of the group than `n` holds a record of the BRV. -/
def Group.sharer (g : Group) (n brvid : Nat) : Option Nat := g.live8.find? fun m => m != n && (g.split m).shares brvid

/-- A record with the lanes that another split's copy of it holds (R288, R290). -/
def JoinRec.plus (x r : JoinRec) : JoinRec := { x with other := x.other ||| r.other, lanes := x.lanes ||| r.lanes }

/-- The lanes that a record of a split holds go over to another split that shares the record: its run goes on there (R288, R290). -/
def Group.handOver (g : Group) (n : Nat) (r : JoinRec) : Group :=
  match g.sharer n r.brvid with
  | none => g
  | some m =>
    let sp := g.split m
    let give (x : JoinRec) : JoinRec := if x.brvid == r.brvid then x.plus r else x
    g.setSplit m { sp with joins := sp.joins.map give, setJoins := sp.setJoins.map give }

/-- The record says what goes on when the lanes that run have ended: a serial record that holds lanes and that no other split shares
(R290). -/
def JoinRec.goesOn (shared : Nat → Bool) (r : JoinRec) : Bool := r.kind == .serial && r.other != 0 && !shared r.brvid

/-- The split after the lanes that it ran have ended: the innermost serial record decides what runs next (R290). `none` means that no
lanes are left. -/
def afterExit (sbase : DWord) (shared : Nat → Bool) (sp : Split) : Option Split :=
  match sp.joins.dropWhile fun r => !r.goesOn shared with
  | [] => none
  | r :: rest =>
    if r.stage == 0 then
      some { sp with
        mask := r.other, spc := sbase + r.next.setWidth 64, lpc := r.lpc, loops := r.loops,
        joins := { r with stage := 1, other := 0 } :: rest }
    else some { sp with mask := r.other, spc := sbase + r.join.setWidth 64, loops := r.loops, joins := rest }

/-- Ends the lanes a split runs (R9, R290, R291): the other lanes of a serial record go on, or the split ends. Lanes of a record that trap
entry set aside go on outside the handler (R318, log 76). -/
def State.endLanes (s : State) (ag : Agent) : State :=
  let g := s.groupOf ag
  let sp := s.splitOf ag
  let shared (b : Nat) : Bool := (g.sharer ag.split b).isSome
  let given := ((sp.joins ++ sp.setJoins).takeWhile fun r => !r.goesOn shared).filter fun r => r.kind == .serial
  let s := s.setGroupOf ag (given.foldl (fun g r => g.handOver ag.split r) g)
  let fresh (sp : Split) : Split :=
    { sp with
      queue := [], lrun := 0, fetched := none, drain := none, headFault := false, headMask := 0, quits := false, replay := [] }
  match afterExit g.sbase shared sp, afterExit g.sbase shared { sp with joins := sp.setJoins } with
  | some sp', _ => s.setSplitOf ag { fresh sp' with status := if sp.status == .trapped then .trapped else .running }
  | none, some sp' =>
    s.setSplitOf ag { fresh sp' with
      status := .running, rest := 0, setJoins := [], setQueue := [], setLrun := 0, setHead := false, setReplay := [], setSw := false,
      aside := default }
  | none, none => s.removeSplit ag

/-! ### Dividing a split (R12, R264, R314) -/

/-- Entries and floors that `uid` owns become owned by `new` too (R264). -/
def State.shareEnts (s : State) (uid new : Nat) : State :=
  { s with
    ents := s.ents.map fun e => if e.own uid then { e with owners := e.owners ++ [new] } else e
    floors := s.floors ++ (s.floors.filter fun f => f.uid == uid).map fun f => { f with uid := new } }

/-- The row reads of a group's array word that one of some splits counts as its own become `new`'s too (R221, R264). -/
def Group.shareArr (g : Group) (uids : List Nat) (new : Nat) : Group :=
  { g with arr := g.arr.map fun a => if uids.any a.own then { a with heirs := a.heirs ++ [new] } else a }

/-- The copy of a join record that another split takes with it: the lanes that a serial record holds stay with the first (R290;
log 35). -/
def JoinRec.copied (r : JoinRec) : JoinRec := if r.kind == .serial then { r with other := 0, lanes := 0 } else r

/-- Places a copy of a split under another index, with its own order identity (R12, R314). -/
def State.forkSplit (s : State) (ag : Agent) (idx : Nat) (sp : Split) : State :=
  let s := s.shareEnts sp.uid s.nextUid
  let new := s.nextUid
  let s := s.modGroup ag fun g => g.shareArr [sp.uid] new
  { s.setSplitOf { ag with split := idx } { sp with uid := new, joins := sp.joins.map JoinRec.copied } with nextUid := new + 1 }

/-- The lowest free split number of [lo, hi). -/
def Group.freeSplit (g : Group) (lo hi : Nat) : Option Nat :=
  ((List.range hi).filter (lo ≤ ·)).find? fun n => (g.split n).status == .absent

/-! ### Taking an exception (R311-R319) -/

/-- Whether an entry faults for its whole split: LDL, STL and TSTORE lines, PLAT's pieces and a finished PCOMP (R223, R232,
R234, R244). -/
def Entry.wholeSplit (e : Entry) : Bool :=
  e.op == 0x5B || e.op == 0x5C || e.op == 0x49 || e.op == 0x51 || e.op == 0x4E

/-- The lanes of a scratch store that meet a live phaser; all of a line that meets one (R239, R244, R255). -/
def State.clobbers (s : State) (e : Entry) : List Part :=
  match e.resp with
  | .ok key _ =>
    let bad := e.parts.filter fun p =>
      let k := e.keyAt key p.addr - 2 ^ 62
      s.phaserHit (k / 2 ^ 21) (k % 2 ^ 21) p.width
    if e.wholeSplit && !bad.isEmpty then e.parts else bad
  | _ => []

/-- Writes parts of a scratch store at their bank (R265). -/
def State.bankWrite (s : State) (e : Entry) (ps : List Part) : State :=
  let n := s.wseq
  let s := ps.foldl (fun s p =>
    match e.resp with
    | .ok key _ =>
      let k := e.keyAt key p.addr
      s.scrWrite e.ctx ((k - 2 ^ 62) / 2 ^ 21) ((k - 2 ^ 62) % 2 ^ 21) p.data
    | _ => s) s
  s.settleFloors e.id n

/-- Performs a scratch store at its bank (R265). -/
def State.performScratch (s : State) (e : Entry) : State := (s.bankWrite e e.parts).dropEnt e.id

/-- Performs what a scratch store may write; the lanes that meet a live phaser stay in the FIFO, where their fault is found (R255,
R318). -/
def State.performFree (s : State) (e : Entry) : State :=
  match s.clobbers e with
  | [] => s.performScratch e
  | bad => ((s.dropFloors e.id).bankWrite e (e.parts.filter fun p => !bad.contains p)).setEnt { e with parts := bad }

/-- Commits a store: its bytes join the core view; a CORE-scope release is logged (R265, R269). -/
def State.commitEnt (s : State) (e : Entry) : State :=
  let s := { s.setEnt { e with level := s.wseq } with wseq := s.wseq + 1 }
  if e.rel == some 0 then
    let covers := (s.ents.filter fun x => x.kind == .gStore && 0 < x.level && x.ag.core == e.ag.core).map (·.id)
    { s with relLog := s.relLog ++ [⟨e.ag.core, e.id, (noPath e.line).toNat, covers⟩] }
  else s

/-- The CORE-scope release of trap entry (R273, R318): the stores of FIFO G go to level 1, FIFO S and C are performed. The atomics of
FIFO G can only be performed at their homes, and the handler waits for them (`State.mayIssue`). -/
def State.trapRelease (s : State) (uid : Nat) : State :=
  (s.ownEnts uid).foldl (fun s e =>
    match e.kind with
    | .gStore => if e.level == 0 then s.commitEnt e else s
    | .sStore => s.performFree e
    | .cStore => s.performFree e
    | _ => s) s

/-- The fault goes to the group's handler (R317). -/
def Ctx.toHandler (c : Ctx) (k : FaultKind) (nest : Bool) : Bool :=
  !nest && k != .lease && bitNat c.trvec.toNat 0 && bitNat c.trmask.toNat k.code

/-- The trap frame that entry writes (R319). -/
def frameBytes (r : FaultRec) (sp : Split) : List Byte :=
  let act := match r.kind with
    | .trap _ => 1
    | _ => 0
  toBytes r.bits 32 ++ loopBytes sp.loops
    ++ [60, 61, 62, 63].flatMap (fun n => toBytes (sp.sreg n).toNat 4)
    ++ toBytes r.mask.toNat 4 ++ toBytes sp.lpc.toNat 4
    ++ toBytes (b2n sp.flag + 2 * sp.loops.length) 4 ++ toBytes act 4

/-- Posts the fault notice of a parked split (R141, R313). -/
def State.postNotice (s : State) (ctx : Nat) (fa : DWord) : State :=
  (s.postEvent ctx (0x30 * 2 ^ 120 + fa.toNat)).2

/-- The saved group of a core and a context that an entry belongs to; a discarded group has none (R158, R336, R337). -/
def CtxCore.holder (c : CtxCore) (e : Entry) : Option (Nat × Group) :=
  c.saved.find? fun p => p.1 == e.ag.slot && p.2.tag == e.tag && Tab.has c.rowOff p.1

/-- Changes the group that a packet belongs to, in its slot or in the save of an eviction (R158, R336). -/
def State.modHolder (s : State) (e : Entry) (f : Group → Group) : State :=
  let g := s.group e.ag.core e.ag.slot
  if g.live && g.tag == e.tag then s.setGroup e.ag.core e.ag.slot (f g)
  else
    let c := s.ctxCore e.ctx e.ag.core
    match c.holder e with
    | some (k, h) => s.setCtxCore e.ctx e.ag.core { c with saved := Tab.put c.saved k (f h) }
    | none => s

/-- A fault record has been written: FREC of the group holds its address, and the notice of a fault that goes to the driver is posted (R313). -/
def State.recorded (s : State) (e : Entry) : State :=
  let s := s.modHolder e fun g => { g with frec := e.line }
  if e.op == 2 then s.postNotice e.ctx e.line else s

/-- A fault record goes to the frame of a split; where nothing can be sent, what follows the write follows at once (R313; log 16). -/
def State.sendRecord (s : State) (ag : Agent) (tag ctx op : Nat) (bs : List Byte) : State :=
  let fa := s.frameAddr ctx ag.core ag.slot ag.split
  match s.saveWrite ag tag ctx op fa bs with
  | (true, s) => s
  | (false, s) => s.recorded (savePacket .save ag tag ctx op 0 fa bs)

/-- Trap entry of a parked split (R318). -/
def State.trapEntry (s : State) (ag : Agent) : State :=
  let g := s.groupOf ag
  let fa := s.frameAddr g.ctx ag.core ag.slot ag.split
  let s := s.trapRelease (s.splitOf ag).uid
  let sp := s.splitOf ag
  let s := s.sendRecord ag g.tag g.ctx 1 (frameBytes sp.record sp)
  let c := s.ctx g.ctx
  s.setSplitOf ag { sp.setPair 60 fa with
    status := .trapped, loops := [], flag := false, setJoins := sp.joins, joins := [], setQueue := sp.queue, queue := [],
    setLrun := sp.lrun, lrun := 0, lpc := c.trlpc, spc := c.trvec &&& 0xFFFFFFFFFFFFFFFC#64, mask := sp.record.mask,
    setHead := sp.headFault, headFault := false, setReplay := sp.replay, replay := [],
    aside := ⟨sp.record.spc, sp.lpc, sp.loops, sp.flag, [60, 61, 62, 63].map sp.sreg, sp.headMask⟩, headMask := 0, quits := false,
    wait := .none, setSw := sp.swPark && 0 < s.untrOf sp.uid, swPark := false, trapId := s.nextId }

/-- Reports a parked split's record: the handler runs, or the record is written for the driver (R313, R317), as it always is for a group in the
save of an eviction (R336). LEASE ends the unit (R60). The trigger of R340 fires. -/
def State.report (s : State) (ag : Agent) : State :=
  let g := s.groupOf ag
  let r := (s.splitOf ag).record
  let s := s.snapFire r.kind.code false
  if (s.ctx g.ctx).toHandler r.kind r.nest && s.stateOn g.ctx ag.core != .evicted && s.stateOn g.ctx ag.core != .restoring then s.trapEntry ag
  else
    let s := s.sendRecord ag g.tag g.ctx 2 (toBytes r.bits 32)
    if r.kind == .lease then s.killUnit g.unit true else s

/-- What a fault says of itself: the faulting lanes and the failure of the lowest. -/
structure Report where
  mask   : Mask
  fail   : Fail
  lpc    : Word
  scw    : Bool
  rpl    : Bool
  head   : Bool
  replay : List Entry
  re     : Bool
deriving DecidableEq, Repr

/-- The record of a report (R312). -/
def State.recordOf (s : State) (ag : Agent) (p : Report) (nest : Bool) : FaultRec :=
  let g := s.groupOf ag
  let sp := s.splitOf ag
  { vaddr := p.fail.vaddr, spc := (sp.spc - g.sbase).setWidth 32, lpc := p.lpc, mask := p.mask, launch := g.launch,
    time := s.chframe, kind := p.fail.kind, cause := p.fail.cause, eabr := s.eabr ag.core ag.slot, re := p.re,
    scw := p.scw, nest := nest, rpl := p.rpl, slot := ag.slot }

/-- A pre-emption, or a fault in a split of the group, reaches its loop in mid-run (R222). -/
def Group.haltLoop (g : Group) : Group :=
  { g with arr := g.arr.map fun a => if a.op == 0x48 && a.started then { a with halt := true } else a }

/-- The report of a scalar access that a draining split has still to make (R279). -/
def Split.drainReport (sp : Split) : List HeldFault :=
  match sp.drain with
  | some f => if sp.drainRpl then sp.replay.map fun e => ⟨e, f⟩ else []
  | none => []

/-- The split parked with the record of a report (R313): its word at the head stays for the lanes that have not performed it, and a report
that it was draining for is held for the record's end. -/
def Split.parkFor (sp : Split) (r : FaultRec) (p : Report) : Split :=
  { sp with
    status := .parked, record := r, rest := if sp.status == .trapped then sp.rest else sp.mask &&& ~~~p.mask, headFault := p.head,
    headMask := if p.head then 0 else if sp.headFault then sp.record.mask else sp.headMask, replay := p.replay,
    held := sp.held ++ sp.drainReport, drain := none, quits := false, fetched := none, wait := .none, lastTry := none }

/-- Takes an exception: the split of `ag` parks as a whole with the record of the report, and the fault is reported
(R313-R318). In trap mode the record is nested (R320), and what the first parking set aside stays. The report of a scalar access that the
split was draining for waits (R279, R315). -/
def State.park (s : State) (ag : Agent) (p : Report) : State :=
  let sp := s.splitOf ag
  let r := s.recordOf ag p (sp.status == .trapped)
  let s := s.withdrawWait (s.groupOf ag).ctx sp.wait
  let s := s.setSplitOf ag (sp.parkFor r p)
  (s.modGroup ag Group.haltLoop).report ag

/-- RE of R325: the fault repeats what an early replay met. -/
def repeats (t : Option Fail) (f : Fail) : Bool :=
  match t with
  | some x => x == f
  | none => false

/-- Parks some lanes of a split apart from it (R314): the copy `sp` of the split's state takes the lowest free index of
4 to 7. A wait of the split stays the split's own. -/
def State.parkApart (s : State) (ag : Agent) (idx : Nat) (sp : Split) (p : Report) : State :=
  (s.forkSplit ag idx { sp with mask := p.mask, wait := .none }).park { ag with split := idx } p

/-- A scalar-word fault at issue (R37): the queued lane words issue first. -/
def State.scalarFault (s : State) (f : Fail) : State :=
  let sp := s.curSplit
  if sp.queue.isEmpty then
    s.park s.cur ⟨sp.mask, f, sp.lpc, true, false, false, [], repeats sp.lastTry f⟩
  else s.modCur fun sp => { sp with drain := some f, drainRpl := false, fetched := none }

/-- A scalar-word fault without an address. -/
def State.scalarTrap (s : State) (k : FaultKind) : State := s.scalarFault ⟨k, .none, 0⟩

/-- The scalar word raises ILLEGAL_OPERAND. -/
def illegalOperand (s : State) : Out := .next (s.scalarTrap .illegalOperand)

/-- A drained split parks with the scalar-word record once its queue is empty, or its drain stops (R37). -/
def State.finishDrain (s : State) (ag : Agent) (stop : Bool) : State :=
  let sp := s.splitOf ag
  match sp.drain with
  | some f =>
    if stop || sp.queue.isEmpty then
      (s.modSplit ag fun sp => { sp with drain := none }).park ag ⟨sp.mask, f, sp.lpc, true, sp.drainRpl, false, if sp.drainRpl then sp.replay else [], repeats sp.lastTry f⟩
    else s
  | none => s

/-! ### Completing a lane word (R7, R10, R37, R314) -/

/-- The head of the running split's queue; an empty queue gives a word of zeros. -/
def State.headOf (s : State) (ag : Agent) : QEntry :=
  (s.splitOf ag).queue.headD ⟨0, 0, ⟨0, 0, 0⟩, ⟨0, 0, 0⟩, ⟨0, 0, 0⟩, none, 0, none⟩

/-- The lane word has issued: it leaves the queue, and its switch marker, where it has one, parks the split until its untracked
results have returned (R7, R10). A draining split parks once its queue is empty (R37). -/
def State.laneDone (s : State) (sw : Bool) : State :=
  let s := s.modCur fun sp => { sp with
    queue := sp.queue.drop 1, headFault := false, headMask := 0, lastTry := if sp.headFault then none else sp.lastTry, swPark := sw, ageL := s.tick }
  s.finishDrain s.cur false

/-- The lowest-lane failure of a list in increasing lane order. -/
def firstFail (fails : List (Nat × Fail)) : Fail := (fails.head?.map (·.2)).getD ⟨.illegalOperand, .none, 0⟩

/-- The split number that some lanes of the running split would park under, apart from it (R314). -/
def State.apartSlot (s : State) (f : Mask) : Option Nat :=
  if f == s.curSplit.mask || s.curSplit.status == .trapped then none else s.curGroup.freeSplit 4 8

/-- A lane word issues, some lanes faulting or none: its fault does not stop a drain instead (R37). -/
def State.faultIssues (s : State) (f : Mask) : Bool := f == 0 || s.curSplit.drain.isNone || (s.apartSlot f).isSome

/-- A lane word faults at issue in some lanes (R37, R314). `perform` is the word's effect in its other lanes. -/
def State.laneFault (s : State) (fails : List (Nat × Fail)) (sw : Bool) (perform : State → State) : State :=
  let ag := s.cur
  let sp := s.curSplit
  let f := Mask.ofList (fails.map (·.1))
  let fail := firstFail fails
  let p : Report := ⟨f, fail, (s.headOf ag).lpc, false, false, true, [], repeats (if sp.headFault then sp.lastTry else none) fail⟩
  match s.apartSlot f with
  | some idx =>
    let s := s.modSplit ag fun sp => { sp with mask := sp.mask &&& ~~~f }
    (perform (s.parkApart ag idx { sp with drain := none, held := [], swPark := false } p)).laneDone sw
  | none =>
    if sp.drain.isSome then s.finishDrain ag true
    else if f == sp.mask then s.park ag p
    else ((perform s).modSplit ag fun sp => { sp with swPark := sw }).park ag p

/-- A lane word faults for the whole split (R36). -/
def State.laneTrap (s : State) (k : FaultKind) : State :=
  let sp := s.curSplit
  s.laneFault ((Mask.list sp.mask).map fun l => (l, ⟨k, .none, 0⟩)) false id

/-! ### Faults that a reply reports (R158, R279, R315) -/

/-- The part of an entry that some lanes hold. -/
def Entry.forLanes (e : Entry) (m : Mask) : Entry := { e with parts := e.parts.filter fun p => Mask.has m p.lane }

/-- The lanes of an entry. -/
def Entry.lanes (e : Entry) : Mask := Mask.ofList (e.parts.map (·.lane))

/-- What of a report a mask of lanes holds. -/
def HeldFault.forLanes (h : HeldFault) (m : Mask) : HeldFault :=
  if h.entry.wholeSplit then h else { h with entry := h.entry.forLanes m }

/-- The fault of the lowest lane among reports of one word (R312). -/
def lowestFail (hs : List HeldFault) : Fail :=
  match lanes.findSome? fun l => hs.findSome? fun h => (h.entry.parts.find? fun p => p.lane == l).map fun p => (h, p) with
  | some (h, p) => if h.entry.wholeSplit then h.fail else { h.fail with vaddr := p.addr }
  | none => (hs.head?.map (·.fail)).getD ⟨.poison, .none, 0⟩

/-- The report of faults that replies to one word made, for lanes `m` (R312, R315). -/
def replyReport (hs : List HeldFault) (m : Mask) : Report :=
  let hs := (hs.map (·.forLanes m)).filter fun h => h.entry.wholeSplit || !h.entry.parts.isEmpty
  let f := lowestFail hs
  let e := hs.head?.map (·.entry)
  ⟨m, f, (e.map (·.lpc)).getD 0, false, false, false, hs.map (·.entry), repeats (e.bind (·.retry)) f⟩

/-- Reports wait for the split's record to be resolved (R315). -/
def State.holdReports (s : State) (ag : Agent) (hs : List HeldFault) (m : Mask) : State :=
  s.modSplit ag fun sp =>
    { sp with held := sp.held ++ (hs.map (·.forLanes m)).filter fun h => h.entry.wholeSplit || !h.entry.parts.isEmpty }

/-- The access belongs to its split as a whole. -/
def Entry.undivided (e : Entry) : Bool := e.scw || e.wholeSplit

/-- A parked split without lanes that have left it under the order identity `new`. An access that belongs to the split as a whole stays with
it, and is the leaving split's own too (R264, log 35). -/
def Split.without (m : Mask) (new : Nat) (sp : Split) : Split :=
  let keep (e : Entry) : Entry := if e.undivided then { e with owners := e.owners ++ [new] } else e.forLanes (~~~m)
  { sp with
    mask := sp.mask &&& ~~~m, rest := sp.rest &&& ~~~m, record := { sp.record with mask := sp.record.mask &&& ~~~m },
    replay := (sp.replay.map keep).filter fun e => !e.parts.isEmpty }

/-- The state of lanes that leave a parked split: the word that some of them faulted in is still to be performed for these, from the head of
their queue or by a report that waits; a word that only the others faulted in is behind them. -/
def Split.taking (m : Mask) (sp : Split) : Split :=
  let old := sp.record.mask &&& m
  let drop := sp.headFault && old == 0
  let mine := ((sp.replay.filter fun e => !e.undivided).map fun e => e.forLanes old).filter fun e => !e.parts.isEmpty
  { sp with
    queue := if drop then sp.queue.drop 1 else sp.queue, headFault := sp.headFault && !drop
    held := mine.map fun e => ⟨e, ⟨sp.record.kind, sp.record.cause, ((e.parts.head?.map (·.addr)).getD 0)⟩⟩ }

/-- Reports a word's faults for lanes that a split runs (R315). -/
def State.replyFaultIn (s : State) (ag : Agent) (hs : List HeldFault) (m : Mask) : State :=
  let sp := s.splitOf ag
  let p := replyReport hs m
  let hold := s.holdReports ag hs m
  if sp.status == .trapped then (if hs.all fun h => sp.trapId ≤ h.entry.id then s.park ag p else hold)
  else if sp.status == .parked || sp.status == .resumePending then
    match if m == sp.mask then none else (s.groupOf ag).freeSplit 4 8 with
    | some idx => (s.modSplit ag (Split.without m s.nextUid)).parkApart ag idx (sp.taking m) p
    | none => hold
  else if m == sp.mask then s.park ag p
  else
    match (s.groupOf ag).freeSplit 4 8 with
    | some idx => (s.modSplit ag fun sp => { sp with mask := sp.mask &&& ~~~m }).parkApart ag idx { sp with drain := none, held := [] } p
    | none => s.park ag p

/-- Reports a word's faults for lanes that a serial record holds (R290, R315): they leave it under a split of their own that shares the record
and has no word queued. In the second run the lanes it holds are those that wait at the join, and go on from there (log 35). -/
def State.replyFaultSerial (s : State) (ag : Agent) (k : Nat) (r : JoinRec) (hs : List HeldFault) (m : Mask) : State :=
  let sp := s.splitOf ag
  let p := replyReport hs m
  if sp.status == .trapped then
    if hs.all fun h => sp.trapId ≤ h.entry.id then s.park ag p else s.holdReports ag hs m
  else
    match (s.groupOf ag).freeSplit 4 8 with
    | some idx =>
      let copy := { sp with
        spc := (s.groupOf ag).sbase + (if r.stage == 0 then r.next else r.join).setWidth 64, lpc := r.lpc, loops := r.loops,
        queue := [], headFault := false, headMask := 0, lrun := 0, joins := sp.joins.drop k, drain := none, held := [] }
      let lanes := if r.stage == 0 then r.lanes &&& ~~~m else r.lanes
      (s.modSplit ag fun sp =>
        { sp with joins := sp.joins.set k { r with other := r.other &&& ~~~m, lanes := lanes } }).parkApart ag idx copy p
    | none => if sp.status == .parked || sp.status == .resumePending then s.holdReports ag hs m else s.park ag p

/-- The split that an access's fault is reported for as a whole: its issuer, or the first split that counts it as its own. -/
def Group.scalarOwner (g : Group) (e : Entry) : Option Nat :=
  (g.live8.find? fun n => (g.split n).uid == e.uid).orElse fun _ => g.live8.find? fun n => e.own (g.split n).uid

/-- The lanes of split `n` that reports of one word name, among those of a mask. -/
def Group.namedLanes (g : Group) (hs : List HeldFault) (n : Nat) (mask : Mask) : Mask :=
  hs.foldl (fun m h =>
    m ||| (if h.entry.wholeSplit then (if g.scalarOwner h.entry == some n then mask else 0) else h.entry.lanes &&& mask)) 0

/-- The lanes that a split holds, with those that its handler does not run (R318). -/
def Split.allLanes (sp : Split) : Mask :=
  if sp.status == .trapped then
    sp.setJoins.foldl (fun m j => if j.kind == .serial then m ||| j.other else m) (sp.mask ||| sp.rest)
  else sp.mask

/-- Replies report owner-side faults of packets of one lane word: the lanes park wherever they are (R315). -/
def State.replyFault (s : State) (core slot tag : Nat) (hs : List HeldFault) : State :=
  let place (n : Nat) : Agent := ⟨core, slot, n⟩
  let group := s.group core slot
  if group.tag != tag || !group.live then s
  else
    group.live8.foldl (fun s n =>
      let sp := s.splitOf (place n)
      let m := group.namedLanes hs n sp.allLanes
      let s := if m == 0 then s else s.replyFaultIn (place n) hs m
      (sp.joins.zipIdx).foldl (fun s jr =>
        let h := (hs.filter fun h => !h.entry.wholeSplit).foldl (fun m h => m ||| (h.entry.lanes &&& jr.1.other)) 0
        if jr.1.kind == .serial && h != 0 then s.replyFaultSerial (place n) jr.2 jr.1 hs h else s) s) s

/-- A reply reports the fault of a scalar access (R258, R279): the split parks with RPL set once its queue is empty. -/
def State.replyScalarFault (s : State) (e : Entry) (f : Fail) : State :=
  let g := s.group e.ag.core e.ag.slot
  match g.scalarOwner e with
  | none => s
  | some n =>
    let ag : Agent := ⟨e.ag.core, e.ag.slot, n⟩
    let sp := g.split n
    if g.tag != e.tag || !g.live then s
    else if sp.drain.isSome || sp.status == .parked || sp.status == .resumePending || (sp.status == .trapped && e.id < sp.trapId) then
      s.modSplit ag fun sp => { sp with held := sp.held ++ [⟨e, f⟩] }
    else if sp.queue.isEmpty then
      s.park ag ⟨sp.mask, f, sp.lpc, true, true, false, [e], repeats e.retry f⟩
    else s.modSplit ag fun sp => { sp with drain := some f, drainRpl := true, replay := [e], fetched := none }

/-- Reports wait in a group's first split. -/
def Group.holdFaults (g : Group) (hs : List HeldFault) : Group :=
  match g.live8 with
  | n :: _ => g.setSplit n { g.split n with held := (g.split n).held ++ hs }
  | [] => g

/-- Faults that replies to one word report, to the group in its slot; `e` is the word's first faulting entry. Those of a group that an
eviction has chosen to discard wait, and go with the group (R330, R337). -/
def State.faultHere (s : State) (e : Entry) (hs : List HeldFault) : State :=
  let g := s.group e.ag.core e.ag.slot
  if g.disc && g.live && g.tag == e.tag then s.setGroup e.ag.core e.ag.slot (g.holdFaults hs)
  else if e.scw then hs.foldl (fun s h => s.replyScalarFault h.entry h.fail) s else s.replyFault e.ag.core e.ag.slot e.tag hs

/-- An effect on a group that an eviction has saved, as if it stood in its slot (R336). -/
def State.inSave (s : State) (ctx core slot : Nat) (g : Group) (f : State → State) : State :=
  let other := s.group core slot
  let s := f (s.setGroup core slot g)
  let after := s.group core slot
  let s := s.setGroup core slot other
  let c := s.ctxCore ctx core
  if c.saved.any fun p => p.1 == slot then s.setCtxCore ctx core { c with saved := Tab.put c.saved slot after } else s

/-- They find their group in the save of an eviction: its record is written and its notice posted (R336). -/
def State.faultSaved (s : State) (e : Entry) (hs : List HeldFault) (g : Group) : State :=
  s.inSave e.ctx e.ag.core e.ag.slot g fun s => s.faultHere e hs

/-- Faults of packets of one word reach its group, in its slot or in its save (R43, R315, R336). -/
def State.faultEnts (s : State) (e : Entry) (hs : List HeldFault) : State :=
  match (s.ctxCore e.ctx e.ag.core).holder e with
  | some (_, g) => s.faultSaved e hs g
  | none => s.faultHere e hs

/-- An entry leaves the machine with a fault. -/
def State.faultEnt (s : State) (e : Entry) (f : Fail) : State := ((s.dropEnt e.id).dropFloors e.id).faultEnts e [⟨e, f⟩]

/-! ### Returning from an exception (R320, R323-R326) -/

/-- The entry stands for a PHWAIT that another core's phaser unit refused (R259, R312). -/
def Entry.isWait (e : Entry) : Bool := e.kind == .arrive && e.op == 2

/-- Sends the accesses of a replay entry again, as new accesses of the split (R326). A PHWAIT is run again instead. -/
def State.replayEnts (s : State) (ag : Agent) (m : Mask) (retry : Option Fail) : State :=
  let sp := s.splitOf ag
  let es := (sp.replay.map fun e => if e.undivided then e else e.forLanes m).filter fun e => !e.parts.isEmpty && !e.isWait
  let fresh (e : Entry) : Entry := { e with
    uid := sp.uid, owners := if e.undivided then (sp.uid :: e.owners).eraseDups else [sp.uid], ag := ag,
    tag := (s.groupOf ag).tag, level := 0, inj := none, probed := none, esc := none,
    retry := retry, resp := s.keyHere (s.groupOf ag) e.line }
  (s.modSplit ag fun sp => { sp with replay := [] }).enterAll (es.map fresh)

/-- Lanes of a split's serial records that a record's mask names, taken out of the records (R315, on end). -/
def endSerial (m : Mask) (js : List JoinRec) : List JoinRec :=
  js.map fun r => if r.kind == .serial then { r with other := r.other &&& ~~~m, lanes := r.lanes &&& ~~~m } else r

/-- Lanes that parked with a split without faulting go on from where it parked, once its handler has ended the lanes it ran: with the join
list, the words and the rest of an LRUN that trap entry set aside. The word that the others faulted in they have performed (R314, R320;
log 35). -/
def Split.goOn (sbase : DWord) (sp : Split) : Split :=
  let x := sp.aside
  { (sp.setPair 60 (pair (x.top.getD 1 0) (x.top.getD 0 0))).setPair 62 (pair (x.top.getD 3 0) (x.top.getD 2 0)) with
    status := .running, mask := sp.rest, rest := 0, joins := sp.setJoins, setJoins := []
    queue := if sp.setHead then sp.setQueue.drop 1 else sp.setQueue, setQueue := [], setHead := false, headFault := false
    headMask := if sp.setHead then 0 else x.headMask, lrun := sp.setLrun, setLrun := 0, setReplay := [], swPark := sp.setSw
    setSw := false, spc := sbase + x.spc.setWidth 64, lpc := x.lpc, loops := x.loops, flag := x.flag, aside := default
    quits := false }

/-- A switch marker that trap entry set aside is done with once the results that stood out then have returned (R10, R215). -/
def State.swLeft (s : State) (sp : Split) : Split :=
  { sp with setSw := sp.setSw && (s.ownEnts sp.uid).any fun e => e.untracked sp.uid && e.id < sp.trapId }

/-- Resolves a parked split whose state has been restored (R320, R323). `cont` holds the parked lanes that go on; `tried`
is what an early replay met (R325). A nested record lets the handler run on (R320). -/
def State.resolve (s : State) (ag : Agent) (act : Nat) (cont : Mask) (tried : Option Fail) : State :=
  let sp := s.splitOf ag
  let r := sp.record
  let stay := if r.nest then sp.mask &&& ~~~r.mask else sp.rest
  let serial := (sp.joins.foldl (fun (m : Mask) j => if j.kind == .serial then m ||| j.other else m) 0) &&& r.mask
  let keep := if act == 2 then 0 else r.mask &&& cont
  let mask := stay ||| (keep &&& ~~~serial)
  let spc :=
    if act != 0 && r.scw && !r.rpl then sp.spc + 4
    else
      match if act == 0 then sp.replay.find? Entry.isWait else none with
      | some e => (s.groupOf ag).sbase + e.lpc.setWidth 64
      | none => sp.spc
  let sp := { sp with
    status := if r.nest then .trapped else .running, mask := mask, joins := endSerial (r.mask &&& ~~~keep) sp.joins, spc := spc,
    rest := if r.nest then sp.rest else 0, resume := none, fetched := none, wait := .none }
  let drop := sp.headFault && (act != 0 || keep == 0)
  let sp := { sp with
    queue := if drop then sp.queue.drop 1 else sp.queue, headFault := sp.headFault && !drop,
    record := { r with mask := if act == 0 then keep else r.mask, nest := false },
    replay := if act == 0 then sp.replay else [],
    lastTry := if act == 0 && sp.replay.all Entry.isWait then tried else none }
  if mask == 0 && r.nest && sp.rest != 0 then
    s.setSplitOf ag ((s.swLeft sp).goOn (s.groupOf ag).sbase)
  else
    let s := (s.setSplitOf ag sp).replayEnts ag keep tried
    if mask == 0 then s.endLanes ag else s

/-- Restores from a trap frame what R320 says: registers, loop stack, flag, lane PC, and the PCs, the mask, SCW and RPL of its record;
and the join list, words, faulting word and switch marker that trap entry set aside (log 35). -/
def restoreFrame (sbase : DWord) (sp : Split) (b : List Byte) : Split :=
  let w (o : Nat) : Word := BitVec.ofNat 32 (ofBytes ((b.drop o).take 4))
  let stat := (w 0x78).toNat
  let loops := loopsOfBytes (bitsNat stat 3 1) (b.drop 0x20)
  let rspc := w 20
  let flags := (w 0).toNat
  let sp := [60, 61, 62, 63].foldl (fun (sp : Split) n => sp.setS n (w (0x60 + 4 * (n - 60)))) sp
  { sp with
    loops := loops, flag := bitNat stat 0, lpc := w 0x74, joins := sp.setJoins, queue := sp.setQueue, setJoins := [], setQueue := [],
    headFault := sp.setHead, setHead := false, replay := sp.setReplay, setReplay := [], swPark := sp.setSw, setSw := false,
    headMask := sp.aside.headMask, aside := default,
    lrun := if sp.record.spc == rspc then sp.setLrun else 0, setLrun := 0, spc := sbase + rspc.setWidth 64,
    record := { sp.record with
      spc := rspc, lpc := w 16, mask := w 12, nest := false, rpl := bitNat flags 6, scw := bitNat flags 8 } }

/-- ACT = 3: the lanes that the frame names stay parked, and the notice is posted; the others of the parked lanes end (R320). -/
def State.trapPost (s : State) (ag : Agent) (cont : Mask) (fa : DWord) : State :=
  let sp := s.splitOf ag
  let keep := sp.record.mask &&& cont
  let serial := sp.joins.foldl (fun (m : Mask) j => if j.kind == .serial then m ||| j.other else m) 0
  if keep == 0 then s.resolve ag 0 cont none
  else
    (s.setSplitOf ag { sp with
      status := .parked, mask := sp.rest ||| (keep &&& ~~~serial), fetched := none,
      joins := endSerial (sp.record.mask &&& ~~~keep) sp.joins, record := { sp.record with mask := keep } }).postNotice (s.groupOf ag).ctx fa

/-- TRET's return (R320): the frame is read and ACT obeyed. -/
def State.trapReturn (s : State) (ag : Agent) : State :=
  let g := s.groupOf ag
  let fa := s.frameAddr g.ctx ag.core ag.slot ag.split
  match s.coreRead ag.core g.ctx fa 128 with
  | (.error f, s) => s.scalarFault ⟨f.1, f.2, fa⟩
  | (.ok b, s) =>
    let sp := restoreFrame g.sbase (s.swLeft (s.splitOf ag)) b
    let cont : Mask := BitVec.ofNat 32 (ofBytes ((b.drop 0x70).take 4))
    let act := ofBytes ((b.drop 0x7C).take 4) % 4
    let s := s.setSplitOf ag sp
    if act == 3 then s.trapPost ag cont fa else s.resolve ag act cont none

/-! ### Completing a scalar word (R16, R281-R285) -/

/-- The loop test of R284 at an address, given as an offset from SBASE: the offset where the split goes on, its lane PC
and its loop stack. -/
def fallThrough (off lpc : Word) : List LoopEntry → Word × Word × List LoopEntry
  | [] => (off, lpc, [])
  | e :: es =>
    if e.fin != off then (off, lpc, e :: es)
    else if 1 < e.count.toNat then (e.start, e.lpc, { e with count := e.count - 1 } :: es)
    else fallThrough off lpc es

/-- The split at `addr`, reached by falling through (R284). -/
def Split.fallTo (sp : Split) (sbase addr : DWord) : Split :=
  let r := fallThrough ((addr - sbase).setWidth 32) sp.lpc sp.loops
  { sp with
    spc := if r.1 == (addr - sbase).setWidth 32 then addr else sbase + r.1.setWidth 64,
    lpc := r.2.1, loops := r.2.2, fetched := none, lastTry := none }

/-- The scalar word has completed: the split goes on at the next word (R16, R284). -/
def State.advance (s : State) : State :=
  s.modCur fun sp => { sp.fallTo s.curGroup.sbase (sp.spc + 4) with ageS := s.tick }

/-- The scalar word has completed after a change of its split. -/
def State.finish (s : State) (f : Split → Split) : Out := .next (s.modCur f).advance

/-- The range of a loop entry holds an offset (R282). -/
def LoopEntry.holds (e : LoopEntry) (off : Word) : Bool := e.start.toNat ≤ off.toNat && off.toNat < e.fin.toNat

/-- Unwinds the loop stack for a branch (R282). -/
def unwind (here there : Word) : List LoopEntry → List LoopEntry
  | [] => []
  | e :: es => if e.holds here && !e.holds there then unwind here there es else e :: es

/-- The split branches to an address, with or without unwinding (R281, R282). -/
def Split.branch (sp : Split) (sbase addr : DWord) (unwinds : Bool) : Split :=
  { sp with
    spc := addr, fetched := none, lastTry := none,
    loops := if unwinds then unwind ((sp.spc - sbase).setWidth 32) ((addr - sbase).setWidth 32) sp.loops else sp.loops }

/-- The running split branches (R281). -/
def State.jump (s : State) (addr : DWord) (unwinds : Bool) : State :=
  s.modCur fun sp => { sp.branch s.curGroup.sbase addr unwinds with ageS := s.tick }

/-- The address of an offset of `off` words from the running word (R17). -/
def State.target {n : Nat} (s : State) (off : BitVec n) : DWord := s.curSplit.spc + 4 * sext64 off

/-- The word waits: nothing changes, and the split tries it again on a later turn. -/
def hold (s : State) : Out := .next s

/-! ### Conditions on the issue of a split's words (R7, R10, R247, R263, R306, R328) -/

/-- A split in trap mode waits for the atomics that its trap entry released (R268, R273, R318). -/
def State.trapWaits (s : State) (sp : Split) : Bool :=
  sp.status == .trapped && (s.ownEnts sp.uid).any fun e => e.id < sp.trapId && e.kind == .gAtomic && e.level == 0

/-- The split may issue words at all: its context runs on the core, it has no report to make first, and no switch marker and no trap
entry waits (R10, R273, R315, R328). -/
def State.mayIssue (s : State) (ag : Agent) : Bool :=
  let g := s.groupOf ag
  let sp := s.splitOf ag
  g.live && s.stateOn g.ctx ag.core == .running && (sp.held.isEmpty || sp.status == .trapped || sp.drain.isSome) && !(sp.swPark && 0 < s.untrOf sp.uid)
  && !s.trapWaits sp

/-- The split waits at the address of its innermost join record (R288). -/
def Split.atJoin (sp : Split) (sbase : DWord) : Bool :=
  match sp.joins with
  | r :: _ => sp.spc == sbase + r.join.setWidth 64
  | [] => false

/-- The split's scalar stream may issue (R37, R288, R306). -/
def State.scalarReady (s : State) (ag : Agent) : Bool :=
  let sp := s.splitOf ag
  s.mayIssue ag && (sp.status == .running || sp.status == .trapped) && sp.drain.isNone && !sp.headFault
  && !sp.atJoin (s.groupOf ag).sbase && sp.wait == .none && !sp.quits

/-- The split's lane stream may issue (R306). -/
def State.laneReady (s : State) (ag : Agent) : Bool :=
  let sp := s.splitOf ag
  s.mayIssue ag && (sp.status == .running || sp.status == .trapped || sp.status == .exiting) && !sp.queue.isEmpty

/-- An incomplete FENCE of the split holds its memory words (R247, R263). -/
def State.fenced (s : State) (uid : Nat) : Bool := (s.ownEnts uid).any fun e => e.kind == .fence

/-- An incomplete acquire or fence of the split stands before its later accesses (R269). -/
def State.acquiring (s : State) (uid : Nat) : Bool := (s.ownEnts uid).any fun e => e.acq.isSome || e.kind == .fence

/-! ### Fences (R246, R247, R268) -/

/-- A fence may complete, given the older entries of its split (R247, R268). -/
def fenceOk (fn ord scope : Nat) (older : List Entry) : Bool :=
  let landed := older.all fun x => !x.isLoad && !(x.kind == .gAtomic && x.dstN > 0)
  match fn with
  | 0 =>
    (ord == 2 || landed) && (ord == 1 || relClear older scope)
  | 3 => older.all fun x => x.kind == .prefetch || x.kind == .arrive
  | _ => older.all fun x => !(x.kind == .gStore || x.kind == .gAtomic) || (x.kind == .gAtomic && 0 < x.level)

/-- What a completed fence drops (R118, R247). -/
def State.fenceDrop (s : State) (core fn ord scope : Nat) : State :=
  match fn with
  | 0 => if ord == 2 then s else s.acquireDrop core scope
  | 1 => (s.dropCopies core .readOnly).dropCopies core .instruction
  | 2 => s.dropCopies core .compressed
  | _ => s

/-- An array word of a fence's split stands before it and has rows to read still: a FENCE of loads waits for it (R221, R247, R268). -/
def State.fenceReads (s : State) (e : Entry) : Bool := (e.fn == 0 || e.fn == 3) && s.rowReads e

/-- Completes every fence that may complete, oldest first (R247). -/
def State.settleFences (s : State) : State :=
  (s.ents.filter fun e => e.kind == .fence).foldl (fun s e =>
    let older := s.older e
    let scope := ((e.acq.orElse fun _ => e.rel).getD 0)
    if !(older.any fun x => x.kind == .fence || x.acq.isSome) && fenceOk e.fn e.level scope older && !s.fenceReads e then
      (s.fenceDrop e.ag.core e.fn e.level scope).dropEnt e.id
    else s) s

end Sys2Proof.Machine
end

