-- ==== Sys2Proof/Machine/Operands.lean ====
section
/-! DEFINITION. The operands of lane words: codes, constants, specials, captures, the crossbar, the governing predicate,
windows and the scoreboard, and the issue of a lane word (R8, R10, R14, R24-R29, R36, R161, R185). -/

namespace Sys2Proof.Machine

/-! ### Constants and specials (R25, R26) -/

/-- The pattern of an inline constant (R25). -/
def constOf (c : Nat) : Word :=
  if c < 800 then BitVec.ofNat 32 (c - 736)
  else if c < 816 then BitVec.ofInt 32 (799 - (c : Int))
  else if c < 832 then BitVec.ofNat 32 ((127 + c - 823) * 2 ^ 23)
  else if c < 848 then BitVec.ofNat 32 ((127 + c - 839) * 2 ^ 23 + 2 ^ 31)
  else
    match c with
    | 848 => 0x80000000#32
    | 849 => 0x7F800000#32
    | 850 => 0xFF800000#32
    | 851 => 0x7FC00000#32
    | 852 => 0x7F7FFFFF#32
    | 853 => 0x00800000#32
    | 854 => 0x7FFFFFFF#32
    | 855 => 0x3FB8AA3B#32
    | 856 => 0x3F803F80#32
    | 857 => 0x3C003C00#32
    | 858 => 0x38383838#32
    | 859 => 0x3C3C3C3C#32
    | 860 => 0x22222222#32
    | 861 => 0x01010101#32
    | 862 => 0x11111111#32
    | _ => 0x40490FDB#32

/-- The value of a special code in a lane (R26). -/
def specialOf (node : Nat) (g : Group) (ag : Agent) (c l : Nat) : Word :=
  BitVec.ofNat 32 <|
    match c with
    | 864 => l
    | 865 => g.num
    | 866 => ag.split
    | 867 => g.x
    | 868 => g.y
    | 869 => g.z
    | 870 => ag.core
    | 871 => g.csIdx
    | 872 => node
    | _ => ag.slot % 4

/-! ### Captures (R8, R334) -/

/-- What LRUN captures for an operand code (R334). -/
def captureOf (sp : Split) (c : BitVec 10) : Capture :=
  if isScal c then
    let n := c.toNat - 640
    ⟨sp.sreg n, if n == 63 then 0 else sp.sreg (n + 1), 0⟩
  else if isAff c then
    let a := sp.areg (c.toNat - 704)
    ⟨loW a.base, hiW a.base, a.stride⟩
  else ⟨0, 0, 0⟩

/-- The affine register a capture holds. -/
def Capture.affine (c : Capture) : Affine := ⟨pair c.w1 c.w0, c.w2⟩

/-- The third captured field is D for ST and ATOM, and C otherwise (R334). -/
def thirdField (op : Nat) (w : LaneWord) : BitVec 10 := if op == 0x59 || op == 0x5E then w.d else w.c

/-- The second captured field: MOVI has its immediate there, and names no register (R205, R334). -/
def secondField (op : Nat) (w : LaneWord) : BitVec 10 := if op == 0x3D then 0 else w.b

/-- The queue entry of a fetched lane word, with the values that its operands have at enqueue (R8); a word whose fetch failed keeps the registers
that they will be taken from (R34). -/
def queueEntry (sp : Split) (bits : LBits) (lpc : Word) (fail : Option Fail) (order : Nat) : QEntry :=
  let w := laneFields bits
  let op := (bits.extractLsb' 88 7).toNat
  ⟨bits, lpc, captureOf sp w.a, captureOf sp (secondField op w), captureOf sp (thirdField op w), fail, order, fail.map fun _ => (sp.s, sp.a)⟩

/-! ### Reading an operand (R24, R28) -/

/-- What a lane word reads: the group as it reads it, its agent, its acting lanes and its captures. -/
structure LaneEnv where
  node : Nat
  g    : Group
  ag   : Agent
  act  : Mask
  head : QEntry
deriving DecidableEq, Repr

/-- The value of an operand code in a lane, before the crossbar (R24). -/
def LaneEnv.raw (e : LaneEnv) (c : BitVec 10) (cap : Capture) (l : Nat) : Word :=
  if isVec c then e.g.vreg c.toNat l
  else if isScal c then cap.w0
  else if isAff c then loW (cap.affine.lane l)
  else if isConst c then constOf c.toNat
  else specialOf e.node e.g e.ag c.toNat l

/-- The source lane of a lane under a crossbar byte; none gives 0 (R28). -/
def xbarLane (x : BitVec 8) (l : Nat) : Option Nat :=
  let k := x.toNat % 32
  match x.toNat / 32 with
  | 1 => some ((l + k) % 32)
  | 2 => some k
  | 3 => some (l ^^^ k)
  | 4 => some (l ^^^ (2 ^ k - 1))
  | 5 => if l + k ≤ 31 then some (l + k) else none
  | 6 => some (l / 4 * 4 + k % 4)
  | _ => some l

/-- A value routed through the crossbar (R28). -/
def routed (x : BitVec 8) (f : Nat → Word) (l : Nat) : Word :=
  match xbarLane x l with
  | some k => f k
  | none => 0

/-- A predicate routed through the crossbar (R28, R206). -/
def routedBit (x : BitVec 8) (f : Nat → Bool) (l : Nat) : Bool :=
  match xbarLane x l with
  | some k => f k
  | none => false

/-- A(L) after XA. -/
def LaneEnv.opA (e : LaneEnv) (w : LaneWord) (l : Nat) : Word := routed w.xa (e.raw w.a e.head.capA) l

/-- B(L) after XB. -/
def LaneEnv.opB (e : LaneEnv) (w : LaneWord) (l : Nat) : Word := routed w.xb (e.raw w.b e.head.capB) l

/-- C(L) after XC. -/
def LaneEnv.opC (e : LaneEnv) (w : LaneWord) (l : Nat) : Word := routed w.xc (e.raw w.c e.head.capC) l

/-- The register above a vector operand, routed alike (R191). -/
def LaneEnv.above (e : LaneEnv) (c : BitVec 10) (x : BitVec 8) (l : Nat) : Word :=
  routed x (fun k => e.g.vreg (c.toNat + 1) k) l

/-! ### Acting lanes (R29, R326) -/

/-- The lanes that a split's head word is for: on a retry, the parked lanes only (R326), and else those that have not performed it. -/
def Split.wordMask (sp : Split) : Mask :=
  if sp.headFault then sp.mask &&& sp.record.mask else if sp.headMask == 0 then sp.mask else sp.mask &&& sp.headMask

/-- P[PRED] XOR PN as a mask (R29). -/
def predMask (g : Group) (w : LaneWord) : Mask := if w.pn then ~~~(g.preg w.pred.toNat) else g.preg w.pred.toNat

/-- The lanes in which the word acts (R29). -/
def State.acting (s : State) (w : LaneWord) : Mask := s.curSplit.wordMask &&& predMask s.curGroup w

/-! ### Landing values (R158, R237, R241, R250) -/

/-- The words of one lane's bytes, as the register image of R237. -/
def partWords (op fn : Nat) (bs : List Byte) : List Word :=
  let n := ofBytes bs
  if bs.length ≤ 4 then
    [BitVec.ofInt 32 (if (op == 0x58 || op == 0x5A) && (fn == 1 || fn == 3) then signedNat (8 * bs.length) n else n)]
  else (List.range (bs.length / 4)).map fun i => BitVec.ofNat 32 (n / 2 ^ (32 * i))

/-- A register write: register, lane and value. -/
abbrev RegWrite := Nat × Nat × Word

/-- What one lane's access takes from the sources of R266; none where a byte cannot be read. -/
def State.takePart (s : State) (e : Entry) (p : Part) : Option (List Taken) :=
  (List.range p.width).mapM fun i => s.takeByte e (p.addr + BitVec.ofNat 64 i) (s.mustGoHome e)

/-- The register writes of one lane's bytes. -/
def Entry.writesOf (e : Entry) (p : Part) (bs : List Byte) : List RegWrite :=
  ((partWords e.op e.fn bs).zipIdx).map fun x => (e.dst + x.2, p.lane, x.1)

/-- The floors that a load leaves (R266). -/
def State.noteFloors (s : State) (e : Entry) (got : List (Part × List Taken)) : State :=
  e.owners.foldl (fun s u =>
    got.foldl (fun s pt =>
      (pt.2.zipIdx).foldl (fun s x => s.noteFloor { e with uid := u } (e.spot (pt.1.addr + BitVec.ofNat 64 x.2)) x.1.fl) s) s) s

/-- What every part of a load takes now; none while the load cannot complete, or where a byte cannot be read (R266). -/
def State.allTaken (s : State) (e : Entry) : Option (List (Part × List Taken)) :=
  match e.resp with
  | .ok _ _ => if !s.completeOk e || s.probeWaits e then none else e.parts.mapM fun p => (s.takePart e p).map fun t => (p, t)
  | _ => none

/-- A part of a system load with the bytes of its target. -/
def State.systemPart (s : State) (p : Part) : Part := { p with data := s.mem.readN (sysKey (bitsNat p.addr.toNat 47 0)) p.width }

/-- The bytes that a load has taken, by the spots they came from. -/
def Entry.takenAt (e : Entry) (got : List (Part × List Byte)) : List (Nat × Byte) :=
  got.flatMap fun x => x.2.zipIdx.map fun b => (e.spot (x.1.addr + BitVec.ofNat 64 b.2), b.1)

/-- A part with its bytes among those taken; none where one of them is not. -/
def Entry.partFrom (x : Entry) (bs : List (Nat × Byte)) (p : Part) : Option Part :=
  ((List.range p.width).mapM fun i => (bs.find? fun b => b.1 == x.spot (p.addr + BitVec.ofNat 64 i)).map (·.2)).map fun d =>
    { p with data := d }

/-- The lanes of one load word on an untranslated path are entries of their own, and those that read the same bytes receive the same value:
what one has taken, the others take with it (R240). -/
def State.bindTwins (s : State) (e : Entry) (got : List (Part × List Byte)) : State :=
  if translated e.path then s
  else
    let bs := e.takenAt got
    { s with ents := s.ents.map fun x =>
        if x.wid == e.wid && x.kind == e.kind && x.id != e.id && !translated x.path && !x.bound then
          match x.parts.mapM (x.partFrom bs) with
          | some ps => { x with parts := ps }
          | none => x
        else x }

/-- The load takes its bytes now, and keeps them until it lands (R10): what a lane reads early is what the load will write. -/
def State.bindLoad (s : State) (e : Entry) : State :=
  match e.kind with
  | .load =>
    (match s.allTaken e with
     | some got =>
       ((s.noteFloors e got).setEnt { e with parts := got.map fun x => { x.1 with data := x.2.map (·.byte) } }).bindTwins e
         (got.map fun x => (x.1, x.2.map (·.byte)))
     | none => s)
  | .yLoad =>
    if s.performOk e then
      let ps := e.parts.map s.systemPart
      (s.setEnt { e with parts := ps }).bindTwins e (ps.map fun p => (p, p.data))
    else s
  | _ => s

/-- The register writes that the entry will make, once its values are known: a bound load, or an atomic that has been performed. -/
def Entry.landWrites (e : Entry) : Option (List RegWrite) :=
  if if e.kind == .gAtomic then 0 < e.level else e.bound then some (e.parts.flatMap fun p => e.writesOf p p.data) else none

/-- Untracked loads and atomics of a group whose results are outstanding (R10, R161). -/
def State.racers (s : State) (core slot : Nat) : List Entry :=
  (s.entsOf core slot).filter fun e => e.dstN > 0 && !e.tracked && (e.kind == .load || e.kind == .gAtomic || e.kind == .yLoad)

/-- Before a lane word of a group runs, some of the untracked loads that race with it take their bytes (R10, log 11). -/
def State.bindRacers (s : State) (ag : Agent) : State :=
  (s.racers ag.core ag.slot).foldl (fun t e => if !e.bound && Config.freeBit s.tick (100000 + e.id) then t.bindLoad e else t) s

/-- The group as a lane word reads it: a register that an untracked load is still to write gives, in each lane by itself,
the old value or the value that the load has taken (R10, log 11). -/
def State.viewOf (s : State) (ag : Agent) : Group :=
  (s.racers ag.core ag.slot).foldl (fun g e =>
    match e.landWrites with
    | none => g
    | some ws => ws.foldl (fun g x =>
        if Config.freeBit s.tick (32 * x.1 + x.2.1) then g.setV x.1 x.2.1 x.2.2 else g) g) (s.groupOf ag)

/-- The environment of the lane word at the head of the running split's queue. -/
def State.laneEnv (s : State) (w : LaneWord) : LaneEnv :=
  ⟨s.node.toNat, s.viewOf s.cur, s.cur, s.acting w, s.headOf s.cur⟩

/-! ### Windows and the scoreboard (R14, R15, R27, R161) -/

/-- A window of `n` registers for a vector code, none for another operand. -/
def vecWin (c : BitVec 10) (n : Nat) : List (Nat × Nat) := if isVec c then [(c.toNat, n)] else []

/-- Every window lies within the allocation (R27). -/
def inAlloc (g : Group) (ws : List (Nat × Nat)) : Bool := ws.all fun p => p.1 + p.2 ≤ g.regs

/-- The windows that tracked results keep pending in a group (R161). -/
def State.trackedWins (s : State) (core slot : Nat) : List (Nat × Nat) :=
  ((s.pendEnts core slot).filter Entry.tracked).flatMap Entry.windows
    ++ ((s.group core slot).heldEnts.filter fun e => !e.tracked).flatMap Entry.windows
    ++ (((s.group core slot).arr.map (·.wins)).getD []) ++ (s.group core slot).pend.map fun n => (n, 1)

/-- A window is held by the scoreboard (R14, R15, R315). -/
def State.held (s : State) (ag : Agent) (ws : List (Nat × Nat)) : Bool :=
  (s.trackedWins ag.core ag.slot).any fun p => ws.any fun q => overlaps p.1 p.2 q.1 q.2

/-- The registers that are pending, tracked or not (R164). -/
def State.pendingReg (s : State) (core slot n : Nat) : Bool :=
  (s.group core slot).pend.contains n
  || ((s.pendEnts core slot).flatMap Entry.windows ++ (((s.group core slot).arr.map (·.wins)).getD [])).any
    fun p => p.1 ≤ n && n < p.1 + p.2

/-! ### Issue of a lane word (R36, R37) -/

/-- The tile masks that a word touches, as windows (R229). -/
def tileWins (op : Nat) (w : LaneWord) : List (Nat × Nat) :=
  match op with
  | 0x3B => if w.fn == 2 then [(1000 + w.d.toNat, 1)] else if w.fn == 3 then [(1000 + w.a.toNat, 1)] else []
  | 0x48 => if xcBits w 7 7 == 1 then [(1000 + xcBits w 3 0, 1)] else []
  | 0x4A => [(1000 + w.d.toNat, 1)]
  | 0x4B => [(1000 + w.d.toNat, 1), (1000 + w.a.toNat, 1), (1000 + w.b.toNat, 1)]
  | 0x4E => [(1000 + w.d.toNat, 4)]
  | _ => []

/-- The checks at issue: a failed fetch, the fields, the windows against the allocation and the scoreboard. `go` runs the
word once they have passed. -/
def laneIssue (op : Nat) (w : LaneWord) (wins : List (Nat × Nat)) (ok : Bool) (go : State → Out) (s : State) : Out :=
  match (s.headOf s.cur).fail with
  | some f => .next (s.laneFault ((Mask.list s.curSplit.mask).map fun l => (l, f)) false id)
  | none =>
    if !(laneLegal op w && ok && inAlloc s.curGroup wins) then .next (s.laneTrap .illegalOperand)
    else if s.held s.cur (wins ++ tileWins op w) then hold s
    else go s

/-- A lane word that only changes the registers of its group (R185). -/
def laneWord (op : Nat) (w : LaneWord) (wins : List (Nat × Nat)) (ok : Bool) (body : LaneEnv → Group → Group) (s : State) :
    Out :=
  laneIssue op w wins ok (fun s => .next ((s.modGroup s.cur (body (s.laneEnv w))).laneDone w.sw)) s

/-- The slot word that FS names (R31, R173). -/
def Group.slotWord (g : Group) (w : LaneWord) : Word := Tab.get 0 g.slots w.fs.toNat

end Sys2Proof.Machine
end

