-- ==== Sys2Proof/Machine/Flags.lean ====
section
/-! DEFINITION. Conditions and flags: the scalar comparisons and the scalar flag (R21, R276, R278), the lane conditions of
ICMP and FCMP (R193, R198), and GSTAT (R163, R203). -/

namespace Sys2Proof.Machine

/-- The conditions 0-5 of SCMP: eq, ne, lt, le, gt, ge (R21). The other codes are illegal. -/
def scalarCond (cond : Nat) (uns : Bool) (a b : Word) : Bool :=
  let lt := if uns then a.toNat < b.toNat else a.toInt < b.toInt
  match cond with
  | 0 => a == b
  | 1 => a != b
  | 2 => lt
  | 3 => lt || a == b
  | 4 => !(lt || a == b)
  | _ => !lt

/-- The condition of ICMP: eq, ne, lt, le, gt, ge (R193). -/
def intCond (cond : Nat) (uns : Bool) (a b : Word) : Bool := scalarCond cond uns a b

/-- The condition of FCMP (R198). -/
def floatCond (cond : Nat) (a b : Val) : Bool :=
  let un := a.isNan || b.isNan
  let c := a.cmp b
  match cond with
  | 0 => !un && c == 0
  | 1 => un || c != 0
  | 2 => !un && c < 0
  | 3 => !un && c ≤ 0
  | 4 => !un && 0 < c
  | 5 => !un && 0 ≤ c
  | 6 => !un
  | _ => un

/-- The split with the scalar flag written (R276). -/
def Split.setFlag (sp : Split) (f : Bool) : Split := { sp with flag := f }

/-- GSTAT.ACCOV is set when an accumulation has overflowed; it is sticky (R163, R203). -/
def Group.noteOv (g : Group) (ov : Bool) : Group := { g with accov := g.accov || ov }

/-- GSTAT (R163). -/
def State.gstat (s : State) (core slot : Nat) : Word :=
  let g := s.group core slot
  BitVec.ofNat 32 (b2n g.udiv * 2 ^ 31 + b2n g.accov * 2 ^ 30 + b2n g.uaff * 2 ^ 29 + g.ureg.toNat * 2 ^ 23
    + g.erc.toNat * 2 ^ 20 + s.eabr core slot % 16 * 2 ^ 16)

/-- SSET of GSTAT replaces [31:20] (R163). -/
def Group.setGstat (g : Group) (x : Word) : Group :=
  { g with
    udiv := x.getLsbD 31, accov := x.getLsbD 30, uaff := x.getLsbD 29, ureg := x.extractLsb' 23 6, erc := x.extractLsb' 20 3 }

/-- PENDn (R164). -/
def State.pendWord (s : State) (core slot n : Nat) : Word :=
  Mask.of fun i => 32 * n + i < (s.group core slot).regs && s.pendingReg core slot (32 * n + i)

/-- PENDX of a split (R164). -/
def State.pendx (s : State) (ag : Agent) : Word :=
  BitVec.ofNat 32 (min 255 (s.untrOf (s.splitOf ag).uid) * 256 + s.eabr ag.core ag.slot % 16)

end Sys2Proof.Machine
end

