-- ==== Sys2Proof/Machine/Functions.lean ====
section
/-! DEFINITION. The functions of the float words: reciprocal, reciprocal square root, power and logarithm of 2, scaling, and
rounding to an integer (R196-R200). A value that is no dyadic number is given by bits below every bit that a format can
hold, with a last bit of 1 for the rest, so that one rounding of it is the rounding of the exact value (log 13). -/

namespace Sys2Proof.Machine

/-- `q` units of 2^e and a rest, as an exact value that rounds alike. -/
def sticky (neg : Bool) (q : Nat) (e : Int) (rest : Bool) : Val := .fin neg (2 * q + b2n rest) (e - 1)

/-- 1 / a (R199). -/
def recip (a : Val) : Val :=
  match a with
  | .nan s => .nan s
  | .inf n => .fin n 0 0
  | .fin n m e => if m = 0 then .inf n else sticky n (2 ^ 100 / m) (-e - 100) (2 ^ 100 % m != 0)

/-- The integer square root, by its bits from bit `k` down. -/
def isqrtFrom : Nat → Nat → Nat → Nat
  | 0, r, _ => r
  | k + 1, r, n => isqrtFrom k (if (r + 2 ^ k) * (r + 2 ^ k) ≤ n then r + 2 ^ k else r) n

/-- The integer square root of a number below 2^256. -/
def isqrt (n : Nat) : Nat := isqrtFrom 128 0 n

/-- 1 / √a (R199). -/
def rsqrt (a : Val) : Val :=
  match a with
  | .nan s => .nan s
  | .inf n => if n then .nan none else .fin false 0 0
  | .fin n m e =>
    if m = 0 then .inf n
    else if n then .nan none
    else
      let (m, e) := if e % 2 == 0 then (m, e) else (2 * m, e - 1)
      let q := isqrt (2 ^ 200 / m)
      sticky false q (-(e / 2) - 100) (q * q * m != 2 ^ 200)

/-- The working scale of the functions of 2. -/
def fixBits : Nat := 320

/-- ln 2 in units of 2^-320, from the series of 1 / (k 2^k). -/
def ln2Fix : Nat := sumOver (List.range 330) fun k => 2 ^ fixBits / ((k + 1) * 2 ^ (k + 1))

/-- The series of e^x from term `t`, numbered `k`, in units of 2^-320. -/
def expSeries : Nat → Nat → Nat → Nat → Nat
  | 0, _, _, _ => 0
  | n + 1, k, x, t => t + expSeries n (k + 1) x (t * x / 2 ^ fixBits / (k + 1))

/-- 2^f for a fraction f in units of 2^-320. -/
def exp2Frac (f : Nat) : Nat := expSeries 90 0 (f * ln2Fix / 2 ^ fixBits) (2 ^ fixBits)

/-- 2^a (R199). -/
def exp2 (a : Val) : Val :=
  match a with
  | .nan s => .nan s
  | .inf n => if n then .fin false 0 0 else .inf false
  | .fin n m e =>
    if m = 0 then .fin false 1 0
    else if 12 ≤ e + bitLen m then .fin false 1 (if n then -4096 else 4096)
    else if 0 ≤ e then .fin false 1 (mantOf n (m * 2 ^ e.toNat))
    else
      let d := (-e).toNat
      let x := mantOf n m
      let whole := x / 2 ^ d
      let frac := (x % 2 ^ d).toNat
      if frac = 0 then .fin false 1 whole
      else sticky false (exp2Frac (frac * 2 ^ fixBits / 2 ^ d)) (whole - fixBits) true

/-- `n` bits of the logarithm to base 2 of x in [1, 2), in units of 2^-640, highest first, appended to `r`. -/
def log2Bits : Nat → Nat → Nat → Nat
  | 0, _, r => r
  | n + 1, x, r =>
    let y := x * x / 2 ^ 640
    if 2 ^ 641 ≤ y then log2Bits n (y / 2) (2 * r + 1) else log2Bits n y (2 * r)

/-- log2 a (R199). -/
def log2Val (a : Val) : Val :=
  match a with
  | .nan s => .nan s
  | .inf n => if n then .nan none else .inf false
  | .fin n m e =>
    if m = 0 then .inf true
    else if n then .nan none
    else
      let k := bitLen m - 1
      let whole : Int := e + k
      if m == 2 ^ k then finOf whole 0 false
      else
        let t : Int := 2 * (whole * 2 ^ 256 + log2Bits 256 (m * 2 ^ 640 / 2 ^ k) 0) + 1
        finOf t (-257) false

/-- a × 2^n (R197); beyond 4096 a shift no longer changes the rounded result. -/
def scaleBy (a : Val) (n : Int) : Val :=
  match a with
  | .fin s m e => .fin s m (e + max (-4096) (min 4096 n))
  | v => v

/-- a rounded to an integral value, with the sign of a (R197). -/
def integral (rm : Nat) (a : Val) : Val :=
  match a with
  | .fin n m e => .fin n (quantise rm n m e 0) 0
  | v => v

/-- FCLASS's bit (R200). -/
def FloatFmt.classBit (f : FloatFmt) (bits : Nat) : Nat :=
  match f.decode bits with
  | .nan _ => if bitNat bits (f.mb - 1) then 9 else 8
  | .inf n => if n then 0 else 7
  | .fin n m _ =>
    if m = 0 then (if n then 3 else 4)
    else if f.isSub bits then (if n then 2 else 5)
    else (if n then 1 else 6)

/-- The smaller element, -0 below +0, a number before a NaN (R198). -/
def FloatFmt.minBits (f : FloatFmt) (a b : Nat) : Nat :=
  let x := f.decode a
  let y := f.decode b
  if x.isNan && y.isNan then f.canonNan
  else if x.isNan then b
  else if y.isNan then a
  else
    let c := x.cmp y
    if c < 0 || (c == 0 && x.isNeg) then a else b

/-- The larger element, -0 below +0, a number before a NaN (R198). -/
def FloatFmt.maxBits2 (f : FloatFmt) (a b : Nat) : Nat :=
  let x := f.decode a
  let y := f.decode b
  if x.isNan && y.isNan then f.canonNan
  else if x.isNan then b
  else if y.isNan then a
  else
    let c := x.cmp y
    if 0 < c || (c == 0 && y.isNeg) then a else b

/-- Rounding of a float word: no saturation, canonical NaNs (R196). -/
def FloatFmt.roundWord (f : FloatFmt) (rm : Nat) (v : Val) : Nat := f.round rm false 0 v

end Sys2Proof.Machine
end

