-- ==== Sys2Proof/Machine/LaneInt.lean ====
section
/-! DEFINITION. The integer lane words (R188-R194). -/

namespace Sys2Proof.Machine

/-! ### Shapes shared by the arithmetic words (R185) -/

/-- The group with one register written in the acting lanes. -/
def putLanes (e : LaneEnv) (d : BitVec 10) (f : Nat → Word) (g : Group) : Group := g.setVMask d.toNat e.act f

/-- The group with a predicate written in the acting lanes (R193). -/
def putPred (e : LaneEnv) (d : BitVec 10) (f : Nat → Bool) (g : Group) : Group :=
  g.setP d.toNat ((g.preg d.toNat &&& ~~~e.act) ||| (Mask.of f &&& e.act))

/-- The number of sources of an integer or a float word: a field that it does not use names no register (R23). -/
def sourcesOf (op : Nat) : Nat :=
  if op < 0x20 then (if intTernary op then 3 else if intUnary op then 1 else 2)
  else if op == 0x23 then 3
  else if floatBinary op then 2
  else 1

/-- The windows of the sources that are vectors. -/
def srcWins (op : Nat) (w : LaneWord) : List (Nat × Nat) :=
  ([w.a, w.b, w.c].take (sourcesOf op)).flatMap fun c => vecWin c 1

/-! ### Elements (R32, R171, R190) -/

/-- The ELEM code of an integer type (R32). -/
def intType (fn : BitVec 4) : Nat :=
  match fn.toNat with
  | 0 => 0xA
  | 1 => 0xB
  | 2 => 6
  | 3 => 7
  | 4 => 8
  | _ => 9

/-- A result written in an integer format: wrapped, or clamped under SAT (R190). -/
def intOut (code : Nat) (sat : Bool) (x : Int) : Nat := wrapNat (elemBits code) (if sat then clampInt code x else x)

/-- Lane value built element by element. -/
def mapElems (code : Nat) (f : Nat → Nat) : Word :=
  (List.range (perLane code)).foldl (fun r i => setElem code r i (f i)) 0

/-- SAT of an integer word. -/
def satOf (w : LaneWord) : Bool := modBits w 0 0 == 1

/-- An element-wise integer word: `f` gives the exact value from the type and the three elements' bits (R190). -/
def intWord (op : Nat) (w : LaneWord) (f : Nat → Nat → Nat → Nat → Int) (s : State) : Out :=
  let t := intType w.fn
  laneWord op w (vecWin w.d 1 ++ srcWins op w) true
    (fun e => putLanes e w.d fun l =>
      mapElems t fun i => intOut t (satOf w) (f t (elemOf t (e.opA w l) i) (elemOf t (e.opB w l) i) (elemOf t (e.opC w l) i))) s

/-- A shift count, as far as it matters (R189). -/
def shiftCount (n : Nat) : Nat := min n 64

/-! ### The words of R189 -/

/-- IADD. -/
def execIadd (w : LaneWord) (s : State) : Out := intWord 0x00 w (fun t a b _ => intOf t a + intOf t b) s

/-- ISUB. -/
def execIsub (w : LaneWord) (s : State) : Out := intWord 0x01 w (fun t a b _ => intOf t a - intOf t b) s

/-- IMUL. -/
def execImul (w : LaneWord) (s : State) : Out := intWord 0x02 w (fun t a b _ => intOf t a * intOf t b) s

/-- IMULH. -/
def execImulh (w : LaneWord) (s : State) : Out := intWord 0x03 w (fun t a b _ => intOf t a * intOf t b / 2 ^ 32) s

/-- IMAD. -/
def execImad (w : LaneWord) (s : State) : Out :=
  intWord 0x04 w (fun t a b c => intOf t a * intOf t b + intOf t c) s

/-- IMIN. -/
def execImin (w : LaneWord) (s : State) : Out := intWord 0x07 w (fun t a b _ => min (intOf t a) (intOf t b)) s

/-- IMAX. -/
def execImax (w : LaneWord) (s : State) : Out := intWord 0x08 w (fun t a b _ => max (intOf t a) (intOf t b)) s

/-- IABS. -/
def execIabs (w : LaneWord) (s : State) : Out := intWord 0x09 w (fun t a _ _ => (intOf t a).natAbs) s

/-- AND. -/
def execAnd (w : LaneWord) (s : State) : Out := intWord 0x0A w (fun _ a b _ => ((a &&& b : Nat) : Int)) s

/-- OR. -/
def execOr (w : LaneWord) (s : State) : Out := intWord 0x0B w (fun _ a b _ => ((a ||| b : Nat) : Int)) s

/-- XOR. -/
def execXor (w : LaneWord) (s : State) : Out := intWord 0x0C w (fun _ a b _ => ((a ^^^ b : Nat) : Int)) s

/-- ANDN. -/
def execAndn (w : LaneWord) (s : State) : Out := intWord 0x0D w (fun _ a b _ => ((a ^^^ (a &&& b) : Nat) : Int)) s

/-- SHL. -/
def execShl (w : LaneWord) (s : State) : Out := intWord 0x0E w (fun t a b _ => intOf t a * 2 ^ shiftCount b) s

/-- SHR reads a as unsigned. -/
def execShr (w : LaneWord) (s : State) : Out := intWord 0x0F w (fun _ a b _ => ((a / 2 ^ shiftCount b : Nat) : Int)) s

/-- SRA reads a as signed. -/
def execSra (w : LaneWord) (s : State) : Out :=
  intWord 0x10 w (fun t a b _ => signedNat (elemBits t) a / 2 ^ shiftCount b) s

/-- `a` of `n` bits rotated left by `k`. -/
def rotl (n a k : Nat) : Nat := a * 2 ^ (k % n) % 2 ^ n + a / 2 ^ (n - k % n)

/-- ROT. -/
def execRot (w : LaneWord) (s : State) : Out := intWord 0x11 w (fun t a b _ => (rotl (elemBits t) a b : Nat)) s

/-- The field length of BFX and BFI (R192). -/
def fieldLen (b c : Nat) : Nat := min (c % 64) (32 - b % 32)

/-- BFX. -/
def execBfx (w : LaneWord) (s : State) : Out :=
  intWord 0x12 w (fun t a b c =>
    let len := fieldLen b c
    let f := a / 2 ^ (b % 32) % 2 ^ len
    if len == 0 then 0 else if isSigned t then signedNat len f else (f : Nat)) s

/-- BFI's result from the old value of D (R192). -/
def bitInsert (old a b c : Nat) : Word :=
  let len := fieldLen b c
  let pos := b % 32
  BitVec.ofNat 32 (old - old / 2 ^ pos % 2 ^ len * 2 ^ pos + a % 2 ^ len * 2 ^ pos)

/-- BFI. -/
def execBfi (w : LaneWord) (s : State) : Out :=
  laneWord 0x13 w (vecWin w.d 1 ++ srcWins 0x13 w) true
    (fun e => putLanes e w.d fun l =>
      bitInsert (e.g.vreg w.d.toNat l).toNat (e.opA w l).toNat (e.opB w l).toNat (e.opC w l).toNat) s

/-- The number of 1 bits below bit `n`. -/
def popCount (a : Nat) : Nat → Nat
  | 0 => 0
  | n + 1 => b2n (bitNat a n) + popCount a n

/-- POPC. -/
def execPopc (w : LaneWord) (s : State) : Out := intWord 0x14 w (fun t a _ _ => (popCount a (elemBits t) : Nat)) s

/-- CLZ. -/
def execClz (w : LaneWord) (s : State) : Out := intWord 0x15 w (fun t a _ _ => ((elemBits t - bitLen a : Nat) : Int)) s

/-- ICMP (R193). -/
def execIcmp (w : LaneWord) (s : State) : Out :=
  laneWord 0x16 w (srcWins 0x16 w) true
    (fun e => putPred e w.d fun l => intCond (modBits w 3 1) (w.fn == 1) (e.opA w l) (e.opB w l)) s

/-! ### Wide words (R191) -/

/-- Wide(X) of a lane: a window of two, or an extended 32-bit value. -/
def LaneEnv.wide (e : LaneEnv) (uns : Bool) (c : BitVec 10) (x : BitVec 8) (lo : Word) (l : Nat) : Int :=
  if isVec c then
    let v := pair (e.above c x l) lo
    if uns then (v.toNat : Int) else v.toInt
  else if uns then (lo.toNat : Int) else lo.toInt

/-- A 64-bit result written to D:2. -/
def wideOut (uns sat : Bool) (x : Int) : DWord :=
  if !sat then BitVec.ofInt 64 x
  else if uns then BitVec.ofInt 64 (max 0 (min (2 ^ 64 - 1) x))
  else BitVec.ofInt 64 (max (-(2 ^ 63)) (min (2 ^ 63 - 1) x))

/-- The group with D:2 written in the acting lanes. -/
def putWide (e : LaneEnv) (d : BitVec 10) (f : Nat → DWord) (g : Group) : Group :=
  (g.setVMask d.toNat e.act fun l => loW (f l)).setVMask (d.toNat + 1) e.act fun l => hiW (f l)

/-- IMADW. -/
def execImadw (w : LaneWord) (s : State) : Out :=
  let t := intType w.fn
  laneWord 0x05 w (vecWin w.d 2 ++ vecWin w.a 1 ++ vecWin w.b 1 ++ vecWin w.c 2) true
    (fun e => putWide e w.d fun l =>
      wideOut (w.fn == 1) (satOf w)
        (intOf t (e.opA w l).toNat * intOf t (e.opB w l).toNat + e.wide (w.fn == 1) w.c w.xc (e.opC w l) l)) s

/-- IADDX. -/
def execIaddx (w : LaneWord) (s : State) : Out :=
  laneWord 0x06 w (vecWin w.d 2 ++ vecWin w.a 2 ++ vecWin w.b 2) true
    (fun e => putWide e w.d fun l =>
      wideOut (w.fn == 1) (satOf w)
        (e.wide (w.fn == 1) w.a w.xa (e.opA w l) l + e.wide (w.fn == 1) w.b w.xb (e.opB w l) l)) s

end Sys2Proof.Machine
end

