-- ==== Sys2Proof/Machine/LaneFloat.lean ====
section
/-! DEFINITION. The float lane words and the dot products (R195-R204). -/

namespace Sys2Proof.Machine

/-! ### Float words (R195-R201) -/

/-- An element-wise float word: `f` gives the bits of an element from the format and the three elements' bits. The ELEM
codes of the types .f32, .h16 and .b16 are their FN codes. -/
def floatWord (op : Nat) (w : LaneWord) (f : FloatFmt → Nat → Nat → Nat → Nat) (s : State) : Out :=
  let t := w.fn.toNat
  laneWord op w (vecWin w.d 1 ++ srcWins op w) true
    (fun e => putLanes e w.d fun l =>
      mapElems t fun i => f (fmtOf t) (elemOf t (e.opA w l) i) (elemOf t (e.opB w l) i) (elemOf t (e.opC w l) i)) s

/-- The sign of an exact zero sum of opposite addends (R196). -/
def zeroNeg (w : LaneWord) : Bool := w.rm == 3

/-- FADD. -/
def execFadd (w : LaneWord) (s : State) : Out :=
  floatWord 0x20 w (fun f a b _ => f.roundWord w.rm.toNat ((f.decode a).add (f.decode b) (zeroNeg w))) s

/-- FSUB. -/
def execFsub (w : LaneWord) (s : State) : Out :=
  floatWord 0x21 w (fun f a b _ => f.roundWord w.rm.toNat ((f.decode a).add (f.decode b).neg (zeroNeg w))) s

/-- FMUL. -/
def execFmul (w : LaneWord) (s : State) : Out :=
  floatWord 0x22 w (fun f a b _ => f.roundWord w.rm.toNat ((f.decode a).mul (f.decode b))) s

/-- FFMA rounds once. -/
def execFfma (w : LaneWord) (s : State) : Out :=
  floatWord 0x23 w (fun f a b c =>
    f.roundWord w.rm.toNat (((f.decode a).mul (f.decode b)).add (f.decode c) (zeroNeg w))) s

/-- FMIN. -/
def execFmin (w : LaneWord) (s : State) : Out := floatWord 0x24 w (fun f a b _ => f.minBits a b) s

/-- FMAX. -/
def execFmax (w : LaneWord) (s : State) : Out := floatWord 0x25 w (fun f a b _ => f.maxBits2 a b) s

/-- FCMP (R198). -/
def execFcmp (w : LaneWord) (s : State) : Out :=
  laneWord 0x26 w (srcWins 0x26 w) true
    (fun e => putPred e w.d fun l =>
      floatCond (modBits w 3 1) (f32.decode (e.opA w l).toNat) (f32.decode (e.opB w l).toNat)) s

/-- FRCP. -/
def execFrcp (w : LaneWord) (s : State) : Out :=
  floatWord 0x27 w (fun f a _ _ => f.roundWord w.rm.toNat (recip (f.decode a))) s

/-- FRSQ. -/
def execFrsq (w : LaneWord) (s : State) : Out :=
  floatWord 0x28 w (fun f a _ _ => f.roundWord w.rm.toNat (rsqrt (f.decode a))) s

/-- FEXP2. -/
def execFexp2 (w : LaneWord) (s : State) : Out :=
  floatWord 0x29 w (fun f a _ _ => f.roundWord w.rm.toNat (exp2 (f.decode a))) s

/-- FLOG2. -/
def execFlog2 (w : LaneWord) (s : State) : Out :=
  floatWord 0x2A w (fun f a _ _ => f.roundWord w.rm.toNat (log2Val (f.decode a))) s

/-- FSCL: the element of B is an s32, or an s16 for pairs. -/
def execFscl (w : LaneWord) (s : State) : Out :=
  floatWord 0x2B w (fun f a b _ =>
    f.roundWord w.rm.toNat (scaleBy (f.decode a) (signedNat (1 + f.eb + f.mb) b))) s

/-- FRND. -/
def execFrnd (w : LaneWord) (s : State) : Out :=
  floatWord 0x2C w (fun f a _ _ => f.roundWord w.rm.toNat (integral w.rm.toNat (f.decode a))) s

/-- FCLASS. -/
def execFclass (w : LaneWord) (s : State) : Out := floatWord 0x2D w (fun f a _ _ => 2 ^ f.classBit a) s

/-! ### Dot products (R202-R204) -/

/-- The slots that a dot product with `n` pairs accepts: the element format and its accumulate format (R202). -/
def dotSlotOk (w : LaneWord) (slot : Word) (n : Nat) : Bool :=
  let elem := slotElem slot
  let acc := slotAcc slot
  let pairOk :=
    match n with
    | 4 => ((elem == 3 || elem == 4) && acc == 0) || (elem == 6 && acc == 0xA) || (elem == 7 && acc == 0xB)
    | 8 => (elem == 5 && acc == 0) || (elem == 8 && acc == 0xA) || (elem == 9 && acc == 0xB)
    | _ => (elem == 1 || elem == 2) && acc == 0
  pairOk && (acc == 0 || (slotScale slot == 0 && w.rm == 0)) && (slotScale slot != 0 || srcZero w.c w.xc)

/-- The window of a scale operand, in use when SCALE is not 0 (R176). -/
def scaleWin (w : LaneWord) (slot : Word) : List (Nat × Nat) := if slotScale slot == 0 then [] else vecWin w.c 1

/-- The first value of a list that is a source NaN. -/
def firstNan (l : List Val) : Option NanSrc :=
  l.findSome? fun v =>
    match v with
    | .nan s => some s
    | _ => none

/-- The sign of an exact zero sum from the signs of its addends (R196). -/
def zeroSum (rm : Nat) (signs : List Bool) : Bool := if signs.all (· == true) then true else if signs.all (· == false) then false else rm == 3

/-- acc + s × Σ a b, exactly, and so rounded once (DEDUCED: R203, the instruction's own rule, has the sum exact, and R172 holds the sums of
float dot products in x48; the model follows R203; log 91). -/
def dotValue (rm : Nat) (acc scale : Val) (ps : List (Val × Val)) : Val :=
  match firstNan (acc :: ps.flatMap (fun p => [p.1, p.2]) ++ [scale]) with
  | some s => .nan s
  | none =>
    let prods : List Val := ps.map fun p => p.1.mul p.2
    let sum : Val := prods.foldl (fun (a p : Val) => a.add p false) (Val.fin false 0 0)
    match acc.add (sum.mul scale) false with
    | .fin n m e => .fin (if m = 0 then zeroSum rm (acc.isNeg :: prods.map fun p => p.isNeg != scale.isNeg) else n) m e
    | v => v

/-- The float dot product of one lane. -/
def dotFloat (w : LaneWord) (slot : Word) (d a b c : Word) : Word :=
  let t := slotElem slot
  let ps := (List.range (perLane t)).map fun i => (readElem slot t (elemOf t a i), readElem slot t (elemOf t b i))
  BitVec.ofNat 32 (f32.round w.rm.toNat (satOf w || slotSat slot) (slotNan slot)
    (dotValue w.rm.toNat (f32.decode d.toNat) (scaleOf slot c) ps))

/-- The integer dot product of one lane, exactly. -/
def dotInt (slot : Word) (d a b : Word) : Int :=
  let t := slotElem slot
  (List.range (perLane t)).foldl (fun x i => x + intOf t (elemOf t a i) * intOf t (elemOf t b i)) (intOf (slotAcc slot) d.toNat)

/-- The integer is outside the accumulate format. -/
def accOver (slot : Word) (x : Int) : Bool := x < intMin (slotAcc slot) || intMax (slotAcc slot) < x

/-- A dot product of `n` pairs. -/
def dotWord (op n : Nat) (w : LaneWord) (s : State) : Out :=
  let slot := s.curGroup.slotWord w
  laneWord op w (vecWin w.d 1 ++ vecWin w.a 1 ++ vecWin w.b 1 ++ scaleWin w slot) (dotSlotOk w slot n)
    (fun e g =>
      let d := fun l => e.g.vreg w.d.toNat l
      if slotAcc slot == 0 then putLanes e w.d (fun l => dotFloat w slot (d l) (e.opA w l) (e.opB w l) (e.opC w l)) g
      else
        let x := fun l => dotInt slot (d l) (e.opA w l) (e.opB w l)
        (putLanes e w.d (fun l => BitVec.ofNat 32 (intOut (slotAcc slot) (satOf w || slotSat slot) (x l))) g).noteOv
          ((Mask.list e.act).any fun l => accOver slot (x l))) s

/-- DP4. -/
def execDp4 (w : LaneWord) (s : State) : Out := dotWord 0x30 4 w s

/-- DP8. -/
def execDp8 (w : LaneWord) (s : State) : Out := dotWord 0x31 8 w s

/-- DPH2. -/
def execDph2 (w : LaneWord) (s : State) : Out := dotWord 0x32 2 w s

end Sys2Proof.Machine
end

