-- ==== Sys2Proof/Machine/Convert.lean ====
section
/-! DEFINITION. The conversions CVT, CVTI, PACK and UNPK (R182-R184). -/

namespace Sys2Proof.Machine

/-- DIR of CVT: set when the source is the slot side. With FN = ELEM both sides have the slot's format, and the side that DIR names alone is the
slot side for FTZ (DESIGN CHOICE: R182 fits both; log 92). -/
def cvtDir (w : LaneWord) : Bool := modBits w 1 1 == 1

/-- The source and target codes of CVT and CVTI. -/
def cvtFmts (w : LaneWord) (slot : Word) : Nat × Nat :=
  if cvtDir w then (slotElem slot, w.fn.toNat) else (w.fn.toNat, slotElem slot)

/-- C and XC against the slot's SCALE (R176). -/
def scaleOk (w : LaneWord) (slot : Word) : Bool := slotScale slot != 0 || srcZero w.c w.xc

/-- Elements of a format in a lane; one for s64. -/
def elemCount (code : Nat) : Nat := if code == 0xC then 1 else perLane code

/-- Registers of a side of a conversion. -/
def sideRegs (code : Nat) : Nat := if code == 0xC then 2 else 1

/-- The register operands of the word other than the side itself either start with the window or miss it (R183). -/
def cvtWinOk (base : BitVec 10) (n : Nat) (others : List (Nat × Nat)) : Bool :=
  n == 1 || (isVec base && base.toNat < 639 && others.all fun p => p.1 == base.toNat || !overlaps base.toNat 2 p.1 p.2)

/-- The checks of CVT and CVTI that need the slot (R183). -/
def cvtOk (isInt : Bool) (w : LaneWord) (slot : Word) : Bool :=
  let (sf, tf) := cvtFmts w slot
  let c := scaleWin w slot
  (if isInt then isFloat sf != isFloat tf && (sf != 0xC || isFloat tf) && (tf != 0xC || isFloat sf)
    else isFloat sf && isFloat tf)
  && modBits w 4 2 < elemCount sf && modBits w 7 5 < elemCount tf && scaleOk w slot
  && cvtWinOk w.a (sideRegs sf) (vecWin w.d (sideRegs tf) ++ c)
  && cvtWinOk w.d (sideRegs tf) (vecWin w.a (sideRegs sf) ++ c)

/-- The source bits of a conversion in a lane. -/
def LaneEnv.cvtSrc (e : LaneEnv) (w : LaneWord) (sf l : Nat) : Nat :=
  if sf == 0xC then (pair (e.above w.a w.xa l) (e.opA w l)).toNat else elemOf sf (e.opA w l) (modBits w 4 2)

/-- CVT and CVTI (R183). -/
def cvtWord (op : Nat) (isInt : Bool) (w : LaneWord) (s : State) : Out :=
  let slot := s.curGroup.slotWord w
  let (sf, tf) := cvtFmts w slot
  laneWord op w (vecWin w.d (sideRegs tf) ++ vecWin w.a (sideRegs sf) ++ scaleWin w slot) (cvtOk isInt w slot)
    (fun e g =>
      let res := fun l =>
        conv slot (cvtDir w) sf tf (e.cvtSrc w sf l) (scaleOf slot (e.opC w l)) w.rm.toNat (satOf w || slotSat slot)
      if tf == 0xC then putWide e w.d (fun l => BitVec.ofNat 64 (res l)) g
      else putLanes e w.d (fun l => setElem tf (e.g.vreg w.d.toNat l) (modBits w 7 5) (res l)) g) s

/-- CVT. -/
def execCvt (w : LaneWord) (s : State) : Out := cvtWord 0x34 false w s

/-- CVTI. -/
def execCvti (w : LaneWord) (s : State) : Out := cvtWord 0x35 true w s

/-- The checks of PACK and UNPK that need the slot (R184). -/
def packOk (w : LaneWord) (slot : Word) : Bool :=
  1 ≤ slotElem slot && slotElem slot ≤ 9 && 2 * modBits w 2 1 + 1 < perLane (slotElem slot) && scaleOk w slot

/-- PACK. -/
def execPack (w : LaneWord) (s : State) : Out :=
  let slot := s.curGroup.slotWord w
  let t := slotElem slot
  laneWord 0x36 w (vecWin w.d 1 ++ vecWin w.a 1 ++ vecWin w.b 1 ++ scaleWin w slot) (packOk w slot)
    (fun e => putLanes e w.d fun l =>
      let conv1 := fun (x : Word) =>
        conv slot false w.fn.toNat t x.toNat (scaleOf slot (e.opC w l)) w.rm.toNat (satOf w || slotSat slot)
      let k := 2 * modBits w 2 1
      setElem t (setElem t (e.g.vreg w.d.toNat l) k (conv1 (e.opA w l))) (k + 1) (conv1 (e.opB w l))) s

/-- UNPK. -/
def execUnpk (w : LaneWord) (s : State) : Out :=
  let slot := s.curGroup.slotWord w
  let t := slotElem slot
  let clear := (vecWin w.a 1 ++ scaleWin w slot).all fun p => !overlaps w.d.toNat 2 p.1 p.2
  laneWord 0x37 w (vecWin w.d 2 ++ vecWin w.a 1 ++ scaleWin w slot) (packOk w slot && clear)
    (fun e => putWide e w.d fun l =>
      let out := fun (i : Nat) =>
        BitVec.ofNat 32 (conv slot true t w.fn.toNat (elemOf t (e.opA w l) i) (scaleOf slot (e.opC w l)) w.rm.toNat
          (satOf w || slotSat slot))
      let k := 2 * modBits w 2 1
      pair (out (k + 1)) (out k)) s

end Sys2Proof.Machine
end

