-- ==== Sys2Proof/Machine/CrossLane.lean ====
section
/-! DEFINITION. Select, predicate, move and cross-lane words, LTRAP and LNOP (R205-R215). -/

namespace Sys2Proof.Machine

/-- SEL (R205). -/
def execSel (w : LaneWord) (s : State) : Out :=
  laneWord 0x38 w (vecWin w.d 1 ++ vecWin w.a 1 ++ vecWin w.b 1) true
    (fun e => putLanes e w.d fun l =>
      if Mask.has (e.g.preg (modBits w 2 0)) l != (modBits w 3 3 == 1) then e.opA w l else e.opB w l) s

/-- A predicate operand after its crossbar. -/
def LaneEnv.predIn (e : LaneEnv) (c : BitVec 10) (x : BitVec 8) (l : Nat) : Bool := routedBit x (Mask.has (e.g.preg c.toNat)) l

/-- The operations of PLOG (R206). -/
def plogOp (fn : Nat) (x y : Bool) : Bool :=
  match fn with
  | 0 => x && y
  | 1 => x || y
  | 2 => x != y
  | 3 => x && !y
  | 4 => x || !y
  | 5 => !(x && y)
  | 6 => !(x || y)
  | _ => x == y

/-- PLOG. -/
def execPlog (w : LaneWord) (s : State) : Out :=
  laneWord 0x39 w [] true
    (fun e => putPred e w.d fun l => plogOp w.fn.toNat (e.predIn w.a w.xa l) (e.predIn w.b w.xb l)) s

/-- VOTE (R207). -/
def execVote (w : LaneWord) (s : State) : Out :=
  laneWord 0x3A w (if w.fn.toNat < 3 then [] else vecWin w.d 1) true
    (fun e =>
      let q := Mask.list e.act
      let yes := q.filter fun l => e.predIn w.a w.xa l
      match w.fn.toNat with
      | 0 => putPred e w.d fun _ => yes.length == q.length
      | 1 => putPred e w.d fun _ => !yes.isEmpty
      | 2 => putPred e w.d fun _ => yes.isEmpty || yes.length == q.length
      | 3 => putLanes e w.d fun _ => Mask.ofList yes
      | _ => putLanes e w.d fun _ => BitVec.ofNat 32 yes.length) s

/-- PMOV's windows by form (R208). -/
def pmovWins (w : LaneWord) : List (Nat × Nat) :=
  match w.fn.toNat with
  | 0 => vecWin w.a 1
  | 1 => vecWin w.d 1
  | 2 => vecWin w.a 1
  | 3 => vecWin w.d 1
  | _ => []

/-- PMOV (R208). -/
def execPmov (w : LaneWord) (s : State) : Out :=
  laneWord 0x3B w (pmovWins w) true
    (fun e g =>
      match w.fn.toNat with
      | 0 => putPred e w.d (fun l => e.opA w l != 0) g
      | 1 => putLanes e w.d (fun l => if e.predIn w.a w.xa l then 1 else 0) g
      | 2 => if e.act == 0 then g else g.setTm w.d.toNat (pair (e.opA w 1) (e.opA w 0))
      | 3 => putLanes e w.d (fun l => if l % 2 == 0 then loW (e.g.tmreg w.a.toNat) else hiW (e.g.tmreg w.a.toNat)) g
      | _ => putPred e w.d (e.predIn w.a w.xa) g) s

/-- MOV. -/
def execMov (w : LaneWord) (s : State) : Out :=
  laneWord 0x3C w (vecWin w.d 1 ++ vecWin w.a 1) true (fun e => putLanes e w.d fun l => e.opA w l) s

/-- IMM32 of MOVI: bits [63:32] of the word (R205). -/
def immOf (w : LaneWord) : Word := w.a.setWidth 4 ++ w.xa ++ w.b ++ w.xb ++ w.c.extractLsb' 8 2

/-- MOVI. -/
def execMovi (w : LaneWord) (s : State) : Out :=
  laneWord 0x3D w (vecWin w.d 1) true (fun e => putLanes e w.d fun _ => immOf w) s

/-- SHUF (R210). -/
def execShuf (w : LaneWord) (s : State) : Out :=
  laneWord 0x3E w (vecWin w.d 1 ++ vecWin w.a 1 ++ vecWin w.b 1) true
    (fun e => putLanes e w.d fun l => e.opA w ((e.opB w l).toNat % 32)) s

/-- GATH's value at an index of a window of `n` registers (R211). -/
def LaneEnv.gathered (e : LaneEnv) (first n size i : Nat) : Word :=
  if 128 * n ≤ i * size then 0
  else
    let o := i * size
    let x := e.g.vreg (first + o / 128) (o % 128 / 4)
    if size == 4 then x else BitVec.ofNat 32 (x.toNat / 2 ^ (8 * (o % 4)) % 256)

/-- GATH. -/
def execGath (w : LaneWord) (s : State) : Out :=
  let n := modBits w 5 0 + 1
  laneWord 0x3F w (vecWin w.d 1 ++ vecWin w.a n ++ vecWin w.b 1) true
    (fun e => putLanes e w.d fun l => e.gathered w.a.toNat n (if w.fn == 0 then 4 else 1) (e.opB w l).toNat) s

/-! ### Reductions and scans (R212) -/

/-- A lane value as the operation reads it: signed for the s32 forms, and otherwise its bits. -/
def redIn (fn : Nat) (x : Word) : Int := if fn == 0 || fn == 2 || fn == 3 then x.toInt else (x.toNat : Int)

/-- The operations of REDL and SCANL. -/
def redOp (fn rm : Nat) (x y : Int) : Int :=
  let a := x.toNat
  let b := y.toNat
  match fn with
  | 0 => x + y
  | 1 => x + y
  | 2 => min x y
  | 3 => max x y
  | 4 => min x y
  | 5 => max x y
  | 6 => ((a &&& b : Nat) : Int)
  | 7 => ((a ||| b : Nat) : Int)
  | 8 => ((a ^^^ b : Nat) : Int)
  | 9 => (f32.roundWord rm ((f32.decode a).add (f32.decode b) (rm == 3)) : Nat)
  | 10 => (f32.minBits a b : Nat)
  | _ => (f32.maxBits2 a b : Nat)

/-- What is written for an exact value. -/
def redOut (fn : Nat) (sat : Bool) (x : Int) : Word :=
  BitVec.ofNat 32 (intOut (if fn == 0 then 0xA else 0xB) (sat && fn < 2) x)

/-- The identity that SCANL.excl writes in the first lane. -/
def redIdentity (fn : Nat) : Word :=
  match fn with
  | 2 => 0x7FFFFFFF#32
  | 3 => 0x80000000#32
  | 4 => 0xFFFFFFFF#32
  | 6 => 0xFFFFFFFF#32
  | 10 => 0x7F800000#32
  | 11 => 0xFF800000#32
  | _ => 0

/-- Combines two nodes; an empty node gives the other. -/
def combine (f : Int → Int → Int) (u v : Option Int) : Option Int :=
  match u, v with
  | some x, some y => some (f x y)
  | some x, none => some x
  | none, v => v

/-- Combines neighbours pair by pair. -/
def pairUp (f : Int → Int → Int) : List (Option Int) → List (Option Int)
  | u :: v :: l => combine f u v :: pairUp f l
  | l => l

/-- node(0, 32) of R212. -/
def treeOf (f : Int → Int → Int) (l : List (Option Int)) : Option Int :=
  ((pairUp f (pairUp f (pairUp f (pairUp f (pairUp f l))))).headD none)

/-- REDL. -/
def execRedl (w : LaneWord) (s : State) : Out :=
  laneWord 0x40 w (vecWin w.d 1 ++ vecWin w.a 1) true
    (fun e g =>
      let fn := w.fn.toNat
      let leaves := lanes.map fun l => if Mask.has e.act l then some (redIn fn (e.opA w l)) else none
      match treeOf (redOp fn w.rm.toNat) leaves with
      | some r => putLanes e w.d (fun _ => redOut fn (satOf w) r) g
      | none => g) s

/-- The running values of SCANL over lanes in increasing order: lane, value before it, value with it. -/
def scanFrom (f : Int → Int → Int) (x : Nat → Int) : Option Int → List Nat → List (Nat × Option Int × Int)
  | _, [] => []
  | r, l :: ls =>
    let v := match r with
      | none => x l
      | some u => f u (x l)
    (l, r, v) :: scanFrom f x (some v) ls

/-- SCANL. -/
def execScanl (w : LaneWord) (s : State) : Out :=
  laneWord 0x41 w (vecWin w.d 1 ++ vecWin w.a 1) true
    (fun e g =>
      let fn := w.fn.toNat
      let excl := modBits w 1 1 == 1
      (scanFrom (redOp fn w.rm.toNat) (fun l => redIn fn (e.opA w l)) none (Mask.list e.act)).foldl (fun g x =>
        let v := if excl then ((x.2.1.map (redOut fn (satOf w))).getD (redIdentity fn)) else redOut fn (satOf w) x.2.2
        g.setV w.d.toNat x.1 v) g) s

/-! ### LTRAP and LNOP (R214, R215) -/

/-- LTRAP: the acting lanes take the exception TRAP. -/
def execLtrap (w : LaneWord) (s : State) : Out :=
  laneIssue 0x68 w [] true
    (fun s =>
      let act := s.acting w
      if act == 0 then .next (s.laneDone w.sw)
      else .next (s.laneFault ((Mask.list act).map fun l => (l, ⟨.trap w.mod, .none, 0⟩)) w.sw id)) s

/-- LNOP. -/
def execLnop (w : LaneWord) (s : State) : Out := laneIssue 0x69 w [] true (fun s => .next (s.laneDone w.sw)) s

end Sys2Proof.Machine
end

