-- ==== Sys2Proof/Machine/Traverse.lean ====
section
/-! DEFINITION. Chainline's frames and rings, and Traverse's links: flits, acknowledgements, lost wavelengths, restriping and
the LINK_DEGRADE record (R97, R100-R110, R341, R362; log 20). -/

namespace Sys2Proof.Machine

/-! ### Frames (R92, R97, R98) -/

/-- The copy quota is refilled; what was charged above it is carried, up to one quota (R92). -/
def Die.refill (d : Die) : Die := { d with spent := min (d.spent - d.txquota) d.txquota }

/-- The domain map as the host has it from this step on: the host may have changed it (R41, log 63). -/
def State.domainNow (s : State) : List Nat := if Config.freeBit s.tick 930 then Config.freeDomain s.tick else s.domain

/-- FRAME_BOUNDARY: CHFRAME advances, every quota is refilled with the value that its register holds now, and a counter match fires
its trigger (R97, R98, R359, R364). A change of the domain map takes effect (log 63). -/
def execFrameBoundary (s : State) : Out :=
  let frame := s.chframe + 1
  let s := { s with
    chframe := frame, inForce := s.quotas, spent := [], frameAt := s.tick, dies := s.dies.map fun p => (p.1, (p.2.keepDecay frame).refill)
    domain := s.domainNow }
  .next (if s.chframe == s.snap.frame then s.snapFire 17 false else s)

/-! ### Ring tuning (R100, R101) -/

/-- RNGSEL of a ring. -/
def ringKey (chan site wl : Nat) : Nat := chan * 2 ^ 14 + site * 2 ^ 8 + wl

/-- Every ring that RNGSEL can name; each die has one for each of these numbers (DESIGN CHOICE: R100 does not say which die holds which
ring; log 81). -/
def allRings : List (Nat × Nat × Nat) :=
  (List.range 104).flatMap fun c => (List.range 64).flatMap fun t => (List.range 18).map fun w => (c, t, w)

/-- The spare of a channel can take a wavelength: none of its rings has failed, and it stands in for no other wavelength of the
channel (R101). -/
def Die.spareFree (d : Die) (chan wl : Nat) : Bool :=
  (List.range 64).all fun t =>
    !(d.ring (ringKey chan t 16)).fault && (List.range 16).all fun w => w == wl || !(d.ring (ringKey chan t w)).spare

/-- One pass of the drift loop over one ring (R101). SPARE is set at the ring that failed, and at no other site of its wavelength (DESIGN
CHOICE; log 81). -/
def Die.tune (d : Die) (tick : Nat) (x : Nat × Nat × Nat) : Die :=
  let k := ringKey x.1 x.2.1 x.2.2
  let r := d.ring k
  let err : Int := ((Config.ringPhotodiode k tick).toNat : Int) - Config.ringTarget k
  let code := max 0 (min 4095 ((r.code.toNat : Int) - Config.ringGain * err))
  let lock : Bool := err.natAbs ≤ Config.ringWindow
  let low := if lock then 0 else r.low + 1
  let out : Bool := 64 ≤ low && (code == 0 || code == 4095)
  let spare := r.spare || (out && !r.fault && x.2.2 < 16 && d.spareFree x.1 x.2.2)
  { d with rings := Tab.put d.rings k ⟨BitVec.ofInt 12 code, r.fault || out, spare, lock, low⟩ }

/-- DRIFT_LOOP_PASS. -/
def execDriftLoopPass (die : Nat) (s : State) : Out :=
  let d := s.die (s.ownDie die)
  if d.rngLoop then .next (s.setDie (s.ownDie die) (allRings.foldl (fun d x => d.tune s.tick x) d)) else hold s

/-! ### LINK_DEGRADE (R110) -/

/-- The contexts that have a unit resident on the package. -/
def State.residentCtxs (s : State) : List Nat :=
  ((s.units.filter fun p => !p.2.ended && !p.2.away).map (·.2.ctx)).eraseDups

/-- The record; TIME is the PTP time, which nothing in the state holds (log 7). -/
def degradeBits (reason : Nat) (rx : Bool) (plane group : Nat) (live : BitVec 16) (replayed : Nat) (time : DWord) : Nat :=
  0x41 * 2 ^ 120 + reason * 2 ^ 116 + b2n rx * 2 ^ 115 + plane % 64 * 2 ^ 109 + group % 4 * 2 ^ 107 + live.toNat * 2 ^ 91
  + replayed % 2 ^ 16 * 2 ^ 75 + time.toNat

/-- LINK_DEGRADE is posted to the host's link ring and to every resident context, and fires its trigger (R110, R359). -/
def State.linkDegrade (s : State) (reason : Nat) (rx : Bool) (plane group : Nat) (live : BitVec 16) (replayed : Nat) : State :=
  let time := pair (Config.freeWord s.tick 911) (Config.freeWord s.tick 910)
  let bits := degradeBits reason rx plane group live replayed time
  let s := { s with linkRing := s.linkRing ++ [BitVec.ofNat 128 bits] }
  (s.residentCtxs.foldl (fun s c => (s.postEvent c bits).2) s).snapFire 16 false

/-! ### Receiving and acknowledging (R105) -/

/-- A fibre goes out of service (R108). -/
def State.fibreOut (s : State) (fibre : Nat) (rx : Bool) : State :=
  (List.range 4).foldl (fun s g =>
    let k := linkKey fibre g rx
    s.setLink k { s.link k with service := false }) s

/-- FLIT_RECEIVE: a flit with a sequence number arrives on a receive group, and its CRC and link MAC hold or fail. Consecutive MAC failures are
counted by stripe group, and a CRC failure between them leaves the count (DESIGN CHOICE: R105 says "on one link"; log 82). -/
def execFlitReceive (fibre grp : Nat) (seq : Word) (crcOk macOk : Bool) (s : State) : Out :=
  let k := linkKey fibre grp true
  let l := s.link k
  if !l.service then hold s
  else if !crcOk then .next s
  else if !macOk then
    if l.macBad + 1 < 16 then .next (s.setLink k { l with macBad := l.macBad + 1 })
    else .next (((s.setLink k { l with macBad := 0 }).fibreOut fibre true).linkDegrade 4 true fibre grp l.live 0)
  else .next (s.setLink k { l with macBad := 0, expect := if seq == l.expect then l.expect + 1 else l.expect })

/-! ### Replays of lost groups (R108, R341) -/

/-- The number of flits of the packet at the head of a list. -/
def headPacket (l : List Flit) : Nat := (l.takeWhile fun x => some x.pkt == l.head?.map (·.pkt)).length

/-- The die whose gateway sent the packet at the head of a list. -/
def headGate (l : List Flit) : Nat := (l.head?.map (·.die)).getD 0

/-- Sends the packets that a transmit group out of service still holds on the groups and the plane that stand in for it, whole and in
order, as long as a group has room (R108, R341). -/
def replayGroup : Nat → State → Nat → Nat → State
  | 0, s, _, _ => s
  | k + 1, s, fibre, grp =>
    let l := s.link (linkKey fibre grp false)
    let n := headPacket l.replay
    if l.service || n == 0 then s
    else
      match s.planeUp fibre with
      | none => s
      | some p =>
        match s.turnGroup (headGate l.replay) p n with
        | none => s
        | some g =>
          replayGroup k ((s.setLink (linkKey fibre grp false) { l with replay := l.replay.drop n }).sendOn (headGate l.replay) p g n) fibre grp

/-- Every transmit group. -/
def sendGroups : List (Nat × Nat) := (List.range 64).flatMap fun f => (List.range 4).map fun g => (f, g)

/-- The flits that transmit groups out of service still hold (R108). -/
def State.owedFlits (s : State) : Nat :=
  sumOver sendGroups fun x =>
    let l := s.link (linkKey x.1 x.2 false)
    if l.service then 0 else l.replay.length

/-- Every group out of service replays what fits, one after the other (R108). -/
def State.replayPass (s : State) : State :=
  sendGroups.foldl (fun s x => replayGroup ((s.link (linkKey x.1 x.2 false)).replay.length + 1) s x.1 x.2) s

/-- Passes until one finds room for nothing. -/
def replayPasses : Nat → State → State
  | 0, s => s
  | k + 1, s =>
    let t := s.replayPass
    if t.owedFlits == s.owedFlits then s else replayPasses k t

/-- The groups out of service that still hold flits replay what fits (R108). -/
def State.replayLost (s : State) : State := replayPasses s.owedFlits s

/-- FLIT_ACK: the receiver has acknowledged a flit, whose slot is free; the group may have gone out of service since (R105, R108). -/
def execFlitAck (fibre grp : Nat) (seq : Word) (s : State) : Out :=
  let k := linkKey fibre grp false
  let l := s.link k
  if l.replay.any fun x => x.seq == seq then
    .next (s.setLink k { l with replay := l.replay.filter (·.seq != seq) }).replayLost
  else hold s

/-! ### Lost and restored wavelengths (R107, R108, R362) -/

/-- Live wavelengths of a mask. -/
def liveCount (m : BitVec 16) : Nat := (below 16 fun i => m.getLsbD i).length

/-- A group is left with a live mask: it is restriped, or goes out of service, and its fibre with its last group; the
records are posted (R107, R108, R110), for the last group that of the group and that of the fibre both (DESIGN CHOICE: R110 names each event
and does not say that one stands for the other; log 86). -/
def State.settleGroup (s : State) (fibre grp : Nat) (rx : Bool) (live : BitVec 16) (replayed : Nat) : State :=
  let k := linkKey fibre grp rx
  let s := s.setLink k { s.link k with live := live, notices := [] }
  if 8 ≤ liveCount live then s.linkDegrade 1 rx fibre grp live replayed
  else
    let s := s.setLink k { s.link k with service := false }
    let s := s.replayLost
    let s := s.linkDegrade 2 rx fibre grp live replayed
    if (s.groupsUp fibre rx).isEmpty then s.linkDegrade 3 rx fibre grp live replayed else s

/-- The live mask that the receiver of a group sees (R362). -/
def Link.seen (l : Link) : BitVec 16 := ((l.notices.getLast?).map (·.1)).getD l.live

/-- WAVELENGTH_LOSS: the receiver of a group declares lost wavelengths. For a transmit group the far receiver's notice is on
its way; for a receive group the device is the receiver, and the far end switches with it. -/
def execWavelengthLoss (fibre grp : Nat) (rx : Bool) (lost : BitVec 16) (s : State) : Out :=
  let k := linkKey fibre grp rx
  let l := s.link k
  if !l.service || l.seen &&& lost == 0 then hold s
  else if rx then .next (s.settleGroup fibre grp true (l.live &&& ~~~lost) (Config.freeNat s.tick 912 % 257))
  else .next (s.setLink k { l with notices := l.notices ++ [(l.seen &&& ~~~lost, (l.replay.head?.map (·.seq)).getD l.next)] })

/-- RESTRIPE_NOTICE: the transmitter switches once for all notices of the group, to the mask of the latest, and replays its
unacknowledged flits. -/
def execRestripeNotice (fibre grp : Nat) (s : State) : Out :=
  let l := s.link (linkKey fibre grp false)
  if l.notices.isEmpty then hold s else .next (s.settleGroup fibre grp false l.seen l.replay.length)

/-- LINK_RESTORE: firmware has verified wavelengths, and the device switches back (R108). -/
def execLinkRestore (fibre grp : Nat) (rx : Bool) (live : BitVec 16) (s : State) : Out :=
  let k := linkKey fibre grp rx
  let l := s.link k
  let m := l.live ||| live
  .next (((s.setLink k { l with live := m, service := 8 ≤ liveCount m }).replayLost).linkDegrade 5 rx fibre grp m 0)

end Sys2Proof.Machine
end

