-- ==== Sys2Proof/Machine/Chainline.lean ====
section
/-! DEFINITION. Chainline: the flit quotas of its sources and the injection of packets, the channels with their owners and writers,
the order in which a channel serves waiting packets, and the order of replies (R96-R99, R109, R364; log 68). A packet waits as an
entry; one that is not an entry (a fetch's, a fill's, an engine's, a copy's) is injected in the step in which its channel serves it. -/

namespace Sys2Proof.Machine

/-! ### Quotas (R98, R364) -/

/-- The quota of a source in the present frame, by CHQSEL index. -/
def State.quotaNow (s : State) (i : Nat) : Nat := Tab.get (quotaReset i) s.inForce i

/-- The flits charged to a source in the present frame. -/
def State.spentBy (s : State) (i : Nat) : Nat := Tab.get 0 s.spent i

/-- A source may inject a packet of `n` flits: its remaining quota is large enough, or the source starts a frame with its quota unspent (R98). -/
def State.mayCharge (s : State) (i n : Nat) : Bool :=
  s.spentBy i + n ≤ s.quotaNow i || (s.spentBy i == 0 && s.frameAt == s.tick)

/-- A source that paces its quota may inject a packet of `n` flits: the pace, which the model leaves out, says when in a frame whose quota is
unspent a packet above the whole quota goes (R98; log 7). -/
def State.mayPace (s : State) (i n : Nat) : Bool := s.spentBy i + n ≤ s.quotaNow i || s.spentBy i == 0

/-- A source is charged `n` flits. -/
def State.charge (s : State) (i n : Nat) : State := { s with spent := Tab.put s.spent i (s.spentBy i + n) }

/-- The CHQSEL index of the engines of a cluster (R98). -/
def engineSource (cluster : Nat) : Nat := 256 + cluster

/-! ### Packets (R97, R98, R103) -/

/-- The access of an entry, for the rights of R50 and R60. -/
def Entry.access (e : Entry) : Access :=
  match e.kind with
  | .gStore => .store
  | .save => .store
  | .gAtomic => .atomic
  | .prefetch => .prefetch
  | _ => .load

/-- The launch whose leases an entry's request is checked against; none for a save area (R331). -/
def Entry.lease (e : Entry) : Option Word := if e.kind == .save || e.kind == .saveRead then none else some e.launch

/-- The bytes of an entry's request that cross Traverse: its store data or its operands. Its escort set never does (R111). -/
def Entry.crossing (e : Entry) : Nat :=
  if e.kind == .gStore || e.kind == .gAtomic || e.kind == .save then sumOver e.parts fun p => p.data.length else 0

/-- The payload bytes of an entry's request: its store data or its operands, and its escort set (R98). -/
def Entry.payload (e : Entry) : Nat := e.crossing + 128 * (e.esc.map (·.count)).getD 0

/-- The entry's request may be sent: a load, a prefetch, a HEATR, a hint and a read of a save area at once, a store, an atomic and a write of a
save area when their turn at the home has come. -/
def State.sendable (s : State) (e : Entry) : Bool :=
  match e.kind with
  | .load => true
  | .prefetch => true
  | .heatr => true
  | .hint => true
  | .saveRead => true
  | .save => s.saveReady e
  | .gStore => s.performOk e
  | .gAtomic => s.performOk e
  | _ => false

/-- The entry's request is ready to be sent and has not been. -/
def State.toInject (s : State) (e : Entry) : Bool := translated e.path && e.resp == .none && e.inj.isNone && s.sendable e

/-- A core injects the request of an entry, with the present frame's stamp (R97, R98). -/
def State.injectEnt (s : State) (e : Entry) : State :=
  ({ s.setEnt { e with inj := some (s.chframe, s.nextInj) } with nextInj := s.nextInj + 1 }).charge e.ag.core (flitsOf e.payload)

/-- One entry's turn in the injection of everything that is ready: a core whose quota is too small holds the packet and every packet
behind it (R98). The list holds the cores that hold a packet. -/
def injectTurn (p : List Nat × State) (e : Entry) : List Nat × State :=
  if p.1.contains e.ag.core || !p.2.toInject e then p
  else if p.2.mayCharge e.ag.core (flitsOf e.payload) then (p.1, p.2.injectEnt e)
  else (e.ag.core :: p.1, p.2)

/-- Every core injects the packets that are ready, as far as its quota goes (R98). -/
def State.injectAll (s : State) : State := (s.ents.foldl injectTurn ([], s)).2

/-- A core may inject a packet of one flit that is no entry's: it holds no packet, which would hold this one too, and its quota admits it
(R98). -/
def State.mayInject (s : State) (core : Nat) : Bool :=
  !(s.ents.any fun e => e.ag.core == core && s.toInject e) && s.mayCharge core 1

/-! ### Channels (R96, R97, R99) -/

/-- The home of a line on its node: slice h of die d is 16 d + h (R95, R96). -/
def homeOf (va : DWord) : Nat := 16 * dieOf va + sliceOf va

/-- The channel of a request from a die for an address: the home slice's for the own node, the gateway's of the die for another
(R96, log 68). -/
def State.chanTo (s : State) (die : Nat) (va : DWord) : Nat := if nodeOf va == s.node.toNat then homeOf va else 64 + die

/-- The channel that an entry's request travels on. -/
def State.channelOf (s : State) (e : Entry) : Nat := s.chanTo (dieOfCore e.ag.core) e.line

/-- The writer of an entry's request: the core's cluster (R96). -/
def Entry.writer (e : Entry) : Nat := clusterOfCore e.ag.core

/-- The Transit engine of a die as a writer: the clusters are 0 to 31, and the gateways 32 to 35 (R96). -/
def engineWriter (die : Nat) : Nat := 36 + die

/-- The reply channel of a cluster (R96). -/
def replyChan (cluster : Nat) : Nat := 68 + cluster

/-- The writer of a reply to a cluster from the home of an address: the home, or the gateway of the cluster's die for another node's
(R96). -/
def State.replier (s : State) (cluster : Nat) (va : DWord) : Nat :=
  if nodeOf va == s.node.toNat then homeOf va else 64 + cluster / 8

/-- How far a writer stands behind the one that a channel served last, in ring order; no channel has 128 writers (R96). -/
def State.ringGap (s : State) (chan writer : Nat) : Nat := (writer + 127 - Tab.get 127 s.served chan) % 128

/-- A channel has served a writer's packet (R96). -/
def State.noteWriter (s : State) (chan writer : Nat) : State := { s with served := Tab.put s.served chan writer }

/-- Of two packets that wait for one channel, the first is served before the second: the older stamp, then the ring order of the
writers, then a writer's own order of injection (R96, R97, R99). -/
def State.goesFirst (s : State) (chan : Nat) (x e : Entry) : Bool :=
  match x.inj, e.inj with
  | some (fx, nx), some (fe, ne) =>
    if fx != fe then before32 fx fe
    else if x.writer != e.writer then s.ringGap chan x.writer < s.ringGap chan e.writer
    else nx < ne
  | _, _ => false

/-- A request that has been injected can be served: its memory is ready (R358), the links have room for what crosses Traverse
(R102, R105), and an earlier packet of its core for the same remote line has been (R109). -/
def State.canServe (s : State) (e : Entry) : Bool :=
  translated e.path && e.resp == .none && e.inj.isSome && (e.kind == .hint || s.homeReady e.ctx (noPath e.line))
  && (if e.kind == .heatr || e.kind == .hint then s.mayLeave (dieOfCore e.ag.core) e.line 0
      else s.mayCross (dieOfCore e.ag.core) e.ctx e.lease e.access e.line e.crossing)
  && s.sendable e
  && (nodeOf e.line == s.node.toNat
      || !(s.ents.any fun x =>
            translated x.path && x.resp == .none && x.ag.core == e.ag.core && noPath x.line == noPath e.line
            && (match x.inj, e.inj with
                | some (_, m), some (_, n) => m < n
                | _, _ => false)))

/-- The request of an entry is the one that its channel serves next (R96, R97). -/
def State.requestOk (s : State) (e : Entry) : Bool :=
  s.canServe e
  && !(s.ents.any fun x => x.id != e.id && s.channelOf x == s.channelOf e && s.goesFirst (s.channelOf e) x e && s.canServe x)

/-- A channel has served an entry's packet (R96). -/
def State.noteServed (s : State) (e : Entry) : State := s.noteWriter (s.channelOf e) e.writer

/-- A channel has served an entry's packet, which has crossed Traverse where it must (R96, R102). -/
def State.brought (s : State) (e : Entry) : State :=
  (s.noteServed e).cross (dieOfCore e.ag.core) e.ctx e.lease e.access e.line e.crossing

/-- A packet that waits for a channel is served before one that a writer injects now: its stamp is older, or it is the writer's own, or its
writer comes first in ring order (R96, R97, R99). -/
def State.aheadOfNow (s : State) (chan writer : Nat) (x : Entry) : Bool :=
  match x.inj with
  | some (f, _) => f != s.chframe || x.writer == writer || s.ringGap chan x.writer < s.ringGap chan writer
  | none => false

/-- A packet that a writer injects now, with the present frame's stamp, is the one that the channel serves next (R96, R97, R99). -/
def State.nowNext (s : State) (chan writer : Nat) : Bool :=
  !(s.ents.any fun x => s.channelOf x == chan && s.aheadOfNow chan writer x && s.canServe x)

/-! ### Replies (R97, R99) -/

/-- The step in which the home sent the reply of an entry, once it has: a fault, or an atomic's old values. A load's reply is sent
in the step in which it lands. -/
def Entry.sentAt (e : Entry) : Option Nat :=
  match e.resp with
  | .bad _ t => some t
  | .ok _ t => if e.kind == .gAtomic && 0 < e.level then some t else none
  | .none => none

/-- The entry's home is the home of an address, and its cluster a given one. -/
def Entry.routeOf (x : Entry) (cluster : Nat) (va : DWord) : Bool :=
  ownerOf x.line == ownerOf va && sliceOf x.line == sliceOf va && x.writer == cluster && translated x.path

/-- Two entries have one home and one cluster. -/
def Entry.sameRoute (x e : Entry) : Bool := x.routeOf e.writer e.line

/-- Every reply that the home sent to the cluster before the entry's has landed (R99). -/
def State.repliesBefore (s : State) (e : Entry) : Bool :=
  !(s.ents.any fun x =>
      x.id != e.id && x.sameRoute e &&
      match x.sentAt with
      | some t => t < e.sentAt.getD s.tick
      | none => false)

/-- A reply waits at the head of its home's replies to its cluster. -/
def State.replyWaits (s : State) (x : Entry) : Bool := x.sentAt.isSome && translated x.path && s.repliesBefore x

/-- Of a reply that waits for a cluster's channel and one with a stamp from a writer, the first is served before the second: a reply carries
its request's stamp (R96, R97). -/
def State.replyFirst (s : State) (x : Entry) (stamp : Word) (replier : Nat) : Bool :=
  match x.inj with
  | some (f, _) =>
    if f != stamp then before32 f stamp
    else
      let chan := replyChan x.writer
      s.ringGap chan (s.replier x.writer x.line) < s.ringGap chan replier
  | none => false

/-- The entry's reply is the one that its cluster's channel serves next (R96, R97, R99). -/
def State.replyNext (s : State) (e : Entry) : Bool :=
  let stamp := (e.inj.map (·.1)).getD s.chframe
  !translated e.path
  || (s.repliesBefore e
  && !(s.ents.any fun x =>
        x.id != e.id && x.writer == e.writer && s.replyWaits x && s.replyFirst x stamp (s.replier e.writer e.line)))

/-- A reply from the home of an address to a request injected now is the one that the cluster's channel serves next: every reply that the
home sent the cluster before has landed (R96, R97, R99). -/
def State.replyNow (s : State) (cluster : Nat) (va : DWord) : Bool :=
  !(s.ents.any fun x =>
      x.writer == cluster && x.sentAt.isSome && translated x.path
      && (x.routeOf cluster va || (s.replyWaits x && s.replyFirst x s.chframe (s.replier cluster va))))

/-- A cluster's channel has brought a reply from the home of an address. -/
def State.noteReply (s : State) (cluster : Nat) (va : DWord) : State := s.noteWriter (replyChan cluster) (s.replier cluster va)

/-! ### Requests that are no entries (R96-R99, R102, R109) -/

/-- A core's request of one flit for an address, which is no entry, may be injected and answered now: the core's quota (R98), the channel
there and the channel back serve it next (R96, R97, R99), no earlier packet of the core for the same remote line waits (R109), and the
links have room (R102). -/
def State.coreMayAsk (s : State) (core ctx : Nat) (lease : Option Word) (a : Access) (va : DWord) : Bool :=
  s.mayInject core && s.nowNext (s.chanTo (dieOfCore core) va) (clusterOfCore core) && s.replyNow (clusterOfCore core) va
  && s.mayCross (dieOfCore core) ctx lease a va 0
  && (nodeOf va == s.node.toNat
      || !(s.ents.any fun x =>
            translated x.path && x.resp == .none && x.inj.isSome && x.ag.core == core && lineOf (noPath x.line) == lineOf (noPath va)))

/-- A core's request of one flit for an address, which is no entry, is injected, served and answered. -/
def State.coreAsk (s : State) (core ctx : Nat) (lease : Option Word) (a : Access) (va : DWord) : State :=
  (((s.charge core 1).noteWriter (s.chanTo (dieOfCore core) va) (clusterOfCore core)).cross (dieOfCore core) ctx lease a va 0).noteReply
    (clusterOfCore core) va

end Sys2Proof.Machine
end

