-- ==== Sys2Proof/Machine/Image.lean ====
section
/-! DEFINITION. The core image that an eviction writes: its bytes, piece by piece, and how the reply sink keeps it (R331-R337). -/

namespace Sys2Proof.Machine

/-- A piece of an image: its offset and its bytes. -/
abbrev ImgPiece := Nat × List Byte

/-- Little-endian 32-bit words. -/
def words4 (l : List Nat) : List Byte := l.flatMap fun n => toBytes n 4

/-- Bytes padded with zeros to a size. -/
def padTo (n : Nat) (bs : List Byte) : List Byte := bs ++ List.replicate (n - bs.length) 0

/-! ### Split states (R334, R335) -/

/-- Capture slots, 12 bytes each (R334). -/
def capBytes (cs : List Capture) : List Byte := cs.flatMap fun c => words4 [c.w0.toNat, c.w1.toNat, c.w2.toNat]

/-- A lane-queue entry (R334). -/
def QEntry.image (e : QEntry) : List Byte := toBytes e.word.toNat 12 ++ capBytes [e.capA, e.capB, e.capC]

/-- A join-list record (R335). -/
def JoinRec.image (r : JoinRec) : List Byte :=
  match r.kind with
  | .join => padTo 128 (words4 [1, r.join.toNat, r.brvid])
  | .serial =>
    padTo 128 (words4 [2, r.join.toNat, r.brvid, r.stage, r.lanes.toNat, r.next.toNat, r.lpc.toNat, r.loops.length]
      ++ loopBytes r.loops)

/-- The code of a split's status in its split state (R334). -/
def SplitStatus.code (x : SplitStatus) : Nat :=
  match x with
  | .parked => 1
  | .trapped => 2
  | .resumePending => 3
  | _ => 0

/-- The join list that is saved: the one set aside in trap mode (R318). -/
def Split.savedJoins (sp : Split) : List JoinRec := if sp.setJoins.isEmpty then sp.joins else sp.setJoins

/-- The replay entry that is saved: the one set aside in trap mode (R318). -/
def Split.savedReplay (sp : Split) : List Entry := if sp.replay.isEmpty then sp.setReplay else sp.replay

/-- The part of a replay entry for a lane. -/
def Split.replayPart (sp : Split) (l : Nat) : Option Part := (sp.savedReplay.flatMap (·.parts)).find? fun p => p.lane == l

/-- The faulting word of a replay and its captured operands: of the accesses that are sent again, or of the word at the head of the lane
queue (R326, R334). -/
def Split.faultWord (sp : Split) : List Byte :=
  match sp.savedReplay, sp.headFault, sp.setHead with
  | e :: _, _, _ => toBytes e.word.toNat 12 ++ capBytes e.caps
  | [], true, _ => (sp.queue.head?.map QEntry.image).getD []
  | [], false, true => (sp.setQueue.head?.map QEntry.image).getD []
  | [], false, false => []

/-- The pieces of a split state (R334). -/
def Split.image (sp : Split) (sbase : DWord) : List ImgPiece :=
  let stat := b2n sp.flag + 2 * sp.loops.length + 16 * sp.savedJoins.length + 128 * sp.status.code
  [ (0, words4 ((List.range 64).map fun n => (sp.sreg n).toNat)),
    (0x100, (List.range 32).flatMap fun n => toBytes (sp.areg n).base.toNat 8 ++ words4 [(sp.areg n).stride.toNat, 0]),
    (0x300, padTo 768 ((sp.queue.take 16).flatMap QEntry.image)),
    (0x600, loopBytes sp.loops ++ List.replicate 128 0),
    (0x6C0, words4 [((sp.spc - sbase).setWidth 32 : Word).toNat, sp.lpc.toNat, sp.mask.toNat, stat]),
    (0x800, lanes.flatMap fun l => toBytes (((sp.replayPart l).map Part.addr).getD 0).toNat 8),
    (0x900, lanes.flatMap fun l => padTo 16 ((((sp.replayPart l).map Part.data).getD []).take 16)),
    (0xB00, padTo 48 sp.faultWord),
    (0xC00, padTo 512 ((sp.savedJoins.reverse.take 4).flatMap JoinRec.image)) ]

/-! ### Group records (R333) -/

/-- The IDEMB record, 2 KiB: s0 to s63, a0 to a31, the loop stack, four words (the next word's offset from SBASE, the lane PC, STATUS with the flag
and LDEPTH, g), p1 to p7, four zero bytes, and tm0 to tm15 (DESIGN CHOICE: R333 gives its place and R304 its contents, and no rule its
layout; log 73). It is zero outside a region. -/
def idemImage (m : Option IdemRec) (sbase : DWord) : List Byte :=
  padTo 2048 (match m with
    | none => []
    | some m =>
      words4 ((List.range 64).map fun n => (Tab.get 0 m.s n).toNat)
        ++ (List.range 32).flatMap (fun n => toBytes (Tab.get ⟨0, 0⟩ m.a n).base.toNat 8 ++ words4 [(Tab.get ⟨0, 0⟩ m.a n).stride.toNat, 0])
        ++ loopBytes m.loops
        ++ words4 [((m.spc - sbase).setWidth 32 : Word).toNat, m.lpc.toNat, b2n m.flag + 2 * m.loops.length, m.g]
        ++ words4 (((List.range 7).map fun n => (Tab.get 0 m.p (n + 1)).toNat) ++ [0])
        ++ (List.range 16).flatMap fun n => toBytes (Tab.get 0 m.tm n).toNat 8)

/-- Moves pieces by an offset. -/
def shiftPieces (o : Nat) (ps : List ImgPiece) : List ImgPiece := ps.map fun p => (o + p.1, p.2)

/-- The pieces of a group record, for a group in its slot; the trap frames stand as they are (R319, R333). -/
def State.groupImage (s : State) (core slot rowOff : Nat) : List ImgPiece :=
  let g := s.group core slot
  let first := g.live8.headD 0
  let splitv := sumOver g.live8 fun n => 2 ^ n
  let mls := [g.mls0, g.mls1, g.mls2, g.mls3].map BitVec.toNat
  let seq := if g.mls0.getLsbD 31 then
      [g.seqr.stride, g.seqr.inc, g.seqr.bstr, g.seqr.rm, g.seqr.sat, g.seqr.slot, g.seqr.form, 0].map BitVec.toNat
    else List.replicate 8 0
  g.live8.flatMap (fun n => shiftPieces (0x400 + 0x1000 * n) ((g.split n).image g.sbase)) ++
  [ (0x8400, words4 [(s.gstat core slot).toNat, g.g, rowOff, splitv]),
    (0x8410, words4 (((List.range 20).map fun n => (s.pendWord core slot n).toNat)
      ++ [(s.pendx ⟨core, slot, first⟩).toNat, 0, 0, 0])),
    (0x8470, words4 (mls ++ seq)),
    (0x84A0, words4 (((List.range 7).map fun n => (g.preg (n + 1)).toNat) ++ [0])),
    (0x84C0, (List.range 16).flatMap fun n => toBytes (g.tmreg n).toNat 8),
    (0x8540, words4 [0]),
    (0x8800, idemImage g.mark g.sbase) ]

/-- The rows of a group's registers in the register image (R332). -/
def Group.rowPieces (g : Group) (rowOff : Nat) (regs : List Nat) : List ImgPiece :=
  regs.map fun n => (0x410000 + 128 * (rowOff + n), words4 (lanes.map fun l => (g.vreg n l).toNat))

/-- Where a group record stands in its core image (R332). -/
def recOff (slot : Nat) : Nat := 0x10000 + 0x10000 * slot

/-- A reply is still due: an access that returns a value, or a word at another core's phaser unit (R332). -/
def Entry.due (e : Entry) : Bool := e.returns || e.kind == .arrive

/-- LATE: the replies due for the groups that an eviction has saved (R332, R336). -/
def State.late (s : State) (ctx core : Nat) : Nat :=
  let c := s.ctxCore ctx core
  s.ents.countP fun e => e.due && e.ag.core == core && e.ctx == ctx && (c.holder e).isSome

/-- A piece cut at the lines that it lies in. -/
def cutPiece : Nat → ImgPiece → List ImgPiece
  | 0, _ => []
  | k + 1, p =>
    if p.2.isEmpty then []
    else
      let n := 128 - p.1 % 128
      (p.1, p.2.take n) :: cutPiece k (p.1 + n, p.2.drop n)

/-- Pieces cut at the lines that they lie in: what each packet of the save path writes. -/
def imageLines (ps : List ImgPiece) : List ImgPiece := ps.flatMap fun p => cutPiece (p.2.length / 128 + 2) p

/-- What of an image has changed since some of it was written: everything, where other places are written now. -/
def newLines (now old : List ImgPiece) : List ImgPiece :=
  if now.map (·.1) == old.map (·.1) then ((now.zip old).filter fun x => x.1.2 != x.2.2).map (·.1) else now

/-- A core sends lines of its image to the save area; false when it may send nothing there (R331). -/
def State.sendLines (s : State) (ctx core : Nat) (ls : List ImgPiece) : Bool × State :=
  let base := s.imageAddr ctx core
  if s.saveOpen core ctx base then
    (true, ls.foldl (fun s p => s.enterSave ⟨core, 0, 0⟩ 0 ctx 0 (base + BitVec.ofNat 64 p.1) p.2) s)
  else (false, s)

/-- Packets of a context's save path wait on a core. -/
def State.saving (s : State) (ctx core : Nat) : Bool :=
  s.ents.any fun e => (e.kind == .save || e.kind == .saveRead) && e.ag.core == core && e.ctx == ctx

/-- The pieces of a saved group's record, and of some of its rows. -/
def State.savedPieces (s : State) (ctx core slot : Nat) (regs : List Nat) : List ImgPiece :=
  let c := s.ctxCore ctx core
  match c.saved.find? fun p => p.1 == slot, c.rowOff.find? fun p => p.1 == slot with
  | some (_, g), some (_, o) =>
    shiftPieces (recOff slot) ((s.setGroup core slot g).groupImage core slot o) ++ g.rowPieces o regs
      ++ [(0x14, words4 [s.late ctx core])]
  | _, _ => []

/-- What has changed of an evicted group, of its record or of some of its rows, since a state `old` is written into its image (R336). -/
def State.resave (s old : State) (ctx core slot : Nat) (regs : List Nat) : State :=
  (s.sendLines ctx core
    (newLines (imageLines (s.savedPieces ctx core slot regs)) (imageLines (old.savedPieces ctx core slot regs)))).2

/-- The reply sink writes what a reply has changed of an evicted group into its image (R158, R336). -/
def State.reimage (s old : State) (e : Entry) (regs : List Nat) : State :=
  if ((s.ctxCore e.ctx e.ag.core).holder e).isSome then s.resave old e.ctx e.ag.core e.ag.slot regs else s

end Sys2Proof.Machine
end

