-- ==== Sys2Proof/Machine/Scalar.lean ====
section
/-! DEFINITION. The scalar ALU words, SLD and SST, SGET and SSET, and the affine words (R162, R166, R276-R280). -/

namespace Sys2Proof.Machine

/-! ### Operands of scalar words (R21, R277) -/

/-- A scalar word at issue: its fields are checked, and it waits while a register it reads is awaited (R277). -/
def scalarWord (ok : Bool) (reads : List Nat) (go : State → Out) (s : State) : Out :=
  if !ok then illegalOperand s
  else if reads.any (s.awaits s.cur) then hold s
  else go s

/-- A scalar word that orders memory: it waits until every lane word that its split enqueued before it has issued (R263). -/
def orderWord (ok : Bool) (reads : List Nat) (go : State → Out) (s : State) : Out :=
  scalarWord ok reads (fun s => if s.curSplit.queue.isEmpty then go s else hold s) s

/-- src of R278: the immediate or S[B]. -/
def srcVal (sp : Split) (b : BitVec 6) (imm : Bool) : Word := if imm then b.setWidth 32 else sp.sreg b.toNat

/-- The registers that src reads. -/
def srcReads (b : BitVec 6) (imm : Bool) : List Nat := if imm then [] else [b.toNat]

/-- The registers of a pair. -/
def pairReads (a : BitVec 6) : List Nat := [a.toNat, a.toNat + 1]

/-- A word of the form S[D] := f (S[A], src) (R278). -/
def aluWord (d a b : BitVec 6) (imm : Bool) (f : Word → Word → Word) (s : State) : Out :=
  scalarWord true (a.toNat :: srcReads b imm)
    (fun s => s.finish fun sp => sp.setS d.toNat (f (sp.sreg a.toNat) (srcVal sp b imm))) s

/-! ### The ALU words (R278) -/

/-- SADD. -/
def execSadd (d a b : BitVec 6) (imm : Bool) (s : State) : Out := aluWord d a b imm (· + ·) s

/-- SSUB. -/
def execSsub (d a b : BitVec 6) (imm : Bool) (s : State) : Out := aluWord d a b imm (· - ·) s

/-- SMUL. -/
def execSmul (d a b : BitVec 6) (imm : Bool) (s : State) : Out := aluWord d a b imm (· * ·) s

/-- Bits [63:32] of the product, signed or unsigned (R278). -/
def mulHigh (uns : Bool) (x y : Word) : Word :=
  if uns then BitVec.ofNat 32 (x.toNat * y.toNat / 2 ^ 32) else BitVec.ofInt 32 (x.toInt * y.toInt / 2 ^ 32)

/-- SMULH. -/
def execSmulh (d a b : BitVec 6) (imm uns : Bool) (s : State) : Out := aluWord d a b imm (mulHigh uns) s

/-- SAND. -/
def execSand (d a b : BitVec 6) (imm : Bool) (s : State) : Out := aluWord d a b imm (· &&& ·) s

/-- SOR. -/
def execSor (d a b : BitVec 6) (imm : Bool) (s : State) : Out := aluWord d a b imm (· ||| ·) s

/-- SXOR. -/
def execSxor (d a b : BitVec 6) (imm : Bool) (s : State) : Out := aluWord d a b imm (· ^^^ ·) s

/-- SSHL; a shift by 32 or more gives 0. -/
def execSshl (d a b : BitVec 6) (imm : Bool) (s : State) : Out := aluWord d a b imm (fun x n => x <<< n.toNat) s

/-- SSHR; a shift by 32 or more gives 0. -/
def execSshr (d a b : BitVec 6) (imm : Bool) (s : State) : Out := aluWord d a b imm (fun x n => x >>> n.toNat) s

/-- SSRA; a shift by 32 or more gives the sign. -/
def execSsra (d a b : BitVec 6) (imm : Bool) (s : State) : Out := aluWord d a b imm (fun x n => x.sshiftRight n.toNat) s

/-- The smaller, signed or unsigned. -/
def minWord (uns : Bool) (x y : Word) : Word := if scalarCond 2 uns x y then x else y

/-- The larger, signed or unsigned. -/
def maxWord (uns : Bool) (x y : Word) : Word := if scalarCond 2 uns x y then y else x

/-- SMIN. -/
def execSmin (d a b : BitVec 6) (imm uns : Bool) (s : State) : Out := aluWord d a b imm (minWord uns) s

/-- SMAX. -/
def execSmax (d a b : BitVec 6) (imm uns : Bool) (s : State) : Out := aluWord d a b imm (maxWord uns) s

/-- SCMP: the condition goes into S[D] and the flag; the codes 6 and 7 are illegal (R21, R278). -/
def execScmp (d a b : BitVec 6) (imm : Bool) (cond : BitVec 3) (uns : Bool) (s : State) : Out :=
  scalarWord (cond.toNat < 6) (a.toNat :: srcReads b imm)
    (fun s => s.finish fun sp =>
      let c := scalarCond cond.toNat uns (sp.sreg a.toNat) (srcVal sp b imm)
      (sp.setS d.toNat (if c then 1 else 0)).setFlag c) s

/-- SSEL. -/
def execSsel (d a b : BitVec 6) (s : State) : Out :=
  scalarWord true [a.toNat, b.toNat]
    (fun s => s.finish fun sp => sp.setS d.toNat (if sp.flag then sp.sreg a.toNat else sp.sreg b.toNat)) s

/-- SMOVI. -/
def execSmovi (d : BitVec 6) (imm14 : BitVec 14) (s : State) : Out := s.finish fun sp => sp.setS d.toNat (sext32 imm14)

/-- SLUI. -/
def execSlui (d : BitVec 6) (imm14 : BitVec 14) (s : State) : Out :=
  s.finish fun sp => sp.setS d.toNat (imm14.setWidth 32 <<< 18)

/-- SLEA (R22, R278). -/
def execSlea (d : BitVec 6) (off : BitVec 20) (s : State) : Out :=
  scalarWord (pairOk d) [] (fun s => s.finish fun sp => sp.setPair d.toNat (s.curGroup.ctxb + sext64 off)) s

/-! ### SLD and SST (R279) -/

/-- The address of SLD and SST. -/
def Split.memAddr (sp : Split) (a : BitVec 6) (imm14 : BitVec 14) : DWord := sp.spair a.toNat + sext64 imm14

/-- The FIFO that a store on a path enters (R262). -/
def State.storeKind (s : State) (g : Group) (core : Nat) (va : DWord) : EKind :=
  match pathOf va with
  | 2 => .sStore
  | 3 =>
    match (s.unitOf g).bind fun u => s.scratchUnit u va with
    | some t => if t.core == core then .sStore else .cStore
    | none => .cStore
  | 5 => .yStore
  | _ => .gStore

/-- An entry of the running split with nothing in it yet. -/
def State.newEnt (s : State) (kind : EKind) (path : Nat) (line : DWord) (parts : List Part) : Entry :=
  let g := s.curGroup
  let sp := s.curSplit
  { id := 0, wid := 0, uid := sp.uid, owners := [sp.uid], kind := kind, ag := s.cur, tag := g.tag, ctx := g.ctx,
    launch := g.launch, unit := g.unit, path := path, line := line, parts := parts, level := 0, op := 0, fn := 0, dst := 0,
    dstN := 0, sdst := none, trk := false, acq := none, rel := none, prom := false, inj := none, probed := none, esc := none,
    resp := .none, word := 0, caps := [], lpc := sp.lpc, scw := true, retry := none }

/-- A scalar access that has passed its checks at issue enters the machine. -/
def State.enterScalar (s : State) (kind : EKind) (va : DWord) (data : List Byte) (sdst : Option Nat) : State :=
  s.enter { s.newEnt kind (pathOf va) (lineOf va) [⟨0, va, 4, data⟩] with
    sdst := sdst, retry := s.curSplit.lastTry,
    resp := s.keyHere s.curGroup (lineOf va) }

/-- SLD. -/
def execSld (d a : BitVec 6) (imm14 : BitVec 14) (s : State) : Out :=
  scalarWord (pairOk a) (pairReads a)
    (fun s =>
      if s.fenced s.curSplit.uid then hold s
      else
        let va := s.curSplit.memAddr a imm14
        match s.requesterCheck s.curGroup s.cur.core .lane va 4 4 with
        | some f => .next (s.scalarFault ⟨f.1, f.2, va⟩)
        | none =>
          let kind : EKind := if pathOf va == 5 then .yLoad else .load
          .next (s.enterScalar kind va [] (some d.toNat)).advance) s

/-- SST. -/
def execSst (d a : BitVec 6) (imm14 : BitVec 14) (s : State) : Out :=
  scalarWord (pairOk a) (d.toNat :: pairReads a)
    (fun s =>
      if s.fenced s.curSplit.uid then hold s
      else
        let va := s.curSplit.memAddr a imm14
        match s.requesterCheck s.curGroup s.cur.core .store va 4 4 with
        | some f => .next (s.scalarFault ⟨f.1, f.2, va⟩)
        | none =>
          let data := toBytes (s.curSplit.sreg d.toNat).toNat 4
          .next (s.enterScalar (s.storeKind s.curGroup s.cur.core va) va data none).advance) s

/-! ### SGET and SSET (R162-R165, R280) -/

/-- The value of a status item; none for an item that does not exist. -/
def State.getItem (s : State) (ag : Agent) (item : Nat) : Option Word :=
  let g := s.groupOf ag
  let sp := g.split ag.split
  if item == 0x00 then some (s.gstat ag.core ag.slot)
  else if item ≤ 0x14 then some (s.pendWord ag.core ag.slot (item - 1))
  else if 0x30 ≤ item && item < 0x40 then
    some (BitVec.ofNat 32 (((sp.loops.reverse[(item - 0x30) / 4]?.map LoopEntry.bits).getD 0) / 2 ^ (32 * (item % 4))))
  else
    match item with
    | 0x15 => some (s.pendx ag)
    | 0x18 => some g.mls0
    | 0x19 => some g.mls1
    | 0x1A => some g.mls2
    | 0x1B => some g.mls3
    | 0x20 => some (if sp.flag then 1 else 0)
    | 0x21 => some sp.mask
    | 0x22 => some sp.lpc
    | 0x23 => some (BitVec.ofNat 32 sp.loops.length)
    | 0x24 => some (loW g.ctxb)
    | 0x25 => some (hiW g.ctxb)
    | 0x26 => some (loW g.frec)
    | 0x27 => some (hiW g.frec)
    | 0x28 => some (BitVec.ofNat 32 (sumOver (List.range 8) fun n => b2n ((g.split n).status != .absent) * 2 ^ n))
    | _ => none

/-- The lane words that the running split enqueued before have issued, and its array words have written their
    results (R162). -/
def State.lanesWritten (s : State) : Bool :=
  s.curSplit.queue.isEmpty && !(s.curGroup.arr.any fun a => a.own s.curSplit.uid)

/-- SGET; it waits until the lane words before it have issued and written their results (R162). -/
def execSget (d : BitVec 6) (item : BitVec 8) (s : State) : Out :=
  match s.getItem s.cur item.toNat with
  | none => illegalOperand s
  | some _ =>
    if !s.lanesWritten then hold s
    else s.finish fun sp => sp.setS d.toNat ((s.getItem s.cur item.toNat).getD 0)

/-- SSET of GSTAT or of the flag; every other item is illegal (R162, R280). -/
def execSset (a : BitVec 6) (item : BitVec 8) (s : State) : Out :=
  scalarWord (item == 0x00 || item == 0x20) [a.toNat]
    (fun s =>
      if !s.lanesWritten then hold s
      else
        let x := s.curSplit.sreg a.toNat
        if item == 0x20 then s.finish fun sp => sp.setFlag (x.getLsbD 0)
        else .next (s.modGroup s.cur fun g => g.setGstat x).advance) s

/-! ### Affine words (R166) -/

/-- A word that changes an affine register. -/
def affWord (d b : BitVec 6) (imm : Bool) (f : Affine → Word → Affine) (s : State) : Out :=
  scalarWord (affOk d) (srcReads b imm)
    (fun s => s.finish fun sp => sp.setA d.toNat (f (sp.areg d.toNat) (srcVal sp b imm))) s

/-- AMOV. -/
def execAmov (d a : BitVec 6) (imm14 : BitVec 14) (s : State) : Out :=
  scalarWord (affOk d && pairOk a) (pairReads a)
    (fun s => s.finish fun sp => sp.setA d.toNat ⟨sp.spair a.toNat, sext32 imm14⟩) s

/-- AADD. -/
def execAadd (d b : BitVec 6) (imm : Bool) (s : State) : Out :=
  affWord d b imm (fun r x => { r with base := r.base + sext64 x }) s

/-- AADDA. -/
def execAadda (d a b : BitVec 6) (imm : Bool) (s : State) : Out :=
  scalarWord (affOk d && affOk a) (srcReads b imm)
    (fun s => s.finish fun sp =>
      let r := sp.areg a.toNat
      sp.setA d.toNat ⟨r.base + sext64 (srcVal sp b imm) * sext64 r.stride, r.stride⟩) s

/-- ASCL. -/
def execAscl (d b : BitVec 6) (imm : Bool) (s : State) : Out :=
  affWord d b imm (fun r x => { r with stride := r.stride * x }) s

/-- ASHL. -/
def execAshl (d b : BitVec 6) (imm : Bool) (s : State) : Out :=
  affWord d b imm (fun r x => { r with stride := r.stride <<< (x.toNat % 32) }) s

/-- ASTR. -/
def execAstr (d b : BitVec 6) (imm : Bool) (s : State) : Out := affWord d b imm (fun r x => { r with stride := x }) s

/-- AGET. -/
def execAget (d a : BitVec 6) (str : Bool) (s : State) : Out :=
  scalarWord (affOk a && (str || pairOk d)) []
    (fun s => s.finish fun sp =>
      if str then sp.setS d.toNat (sp.areg a.toNat).stride else sp.setPair d.toNat (sp.areg a.toNat).base) s

end Sys2Proof.Machine
end

