-- ==== Sys2Proof/Machine/Fetch.lean ====
section
/-! DEFINITION. Instruction fetch for both streams (R16, R34, R38, R60). -/

namespace Sys2Proof.Machine

/-- The requester's checks of a fetch: the paths that accept one are 0x0 and 0x1 (R34, R40, R41, R43). -/
def State.fetchCheck (s : State) (ag : Agent) (va : DWord) : Option (FaultKind × Cause) :=
  let g := s.groupOf ag
  if 1 < pathOf va || !s.populated (nodeOf va) then some (.path, .none)
  else if !s.keyedFor (dieOfCore ag.core) g.ctx va then some (.poison, .none)
  else none

/-- The core's clean copy of a line in its instruction cache (R38, R115). -/
def State.fetchHit (s : State) (ag : Agent) (va : DWord) : Option Copy :=
  s.copies.find? fun c =>
    c.core == ag.core && c.cls == .instruction && c.ctx == (s.groupOf ag).ctx && c.line == lineOf (noPath va)

/-- Fetches bytes of one line: the lease, the translation and X are checked; the bytes come from the core's clean copy of the line in
the instruction cache, or else from the home, by a packet (R38, R70, R98, R102, R266). -/
def State.fetchLine (s : State) (ag : Agent) (va : DWord) (n : Nat) : (Except Fail (List Byte)) × State :=
  let g := s.groupOf ag
  match s.fetchCheck ag va with
  | some f => (.error ⟨f.1, f.2, va⟩, s)
  | none =>
    match s.fetchHit ag va with
    | some c =>
      (match s.ownerLook g.ctx (some g.launch) .fetch va with
       | (.error f, s) => (.error ⟨f.1, f.2, va⟩, s)
       | (.ok _, s) => (.ok ((c.bytes.drop (va.toNat % 128)).take n), s.touchCopy ag.core .instruction g.ctx (lineOf (noPath va))))
    | none =>
      let s := s.coreAsk ag.core g.ctx (some g.launch) .fetch va
      match s.ownerCheck g.ctx (some g.launch) .fetch va with
      | (.error f, s) => (.error ⟨f.1, f.2, va⟩, s)
      | (.ok (key, _), s) =>
        match s.homeRead g.ctx (noPath va) key n with
        | (some bs, s) => (.ok bs, s)
        | (none, s) => (.error ⟨.poison, .none, va⟩, s)

/-- Fetches bytes that may span two lines (R16). -/
def State.fetchBytes (s : State) (ag : Agent) (va : DWord) (n : Nat) : (Except Fail (List Byte)) × State :=
  let m := min n (128 - va.toNat % 128)
  match s.fetchLine ag va m with
  | (.error f, s) => (.error f, s)
  | (.ok bs, s) =>
    if m == n then (.ok bs, s)
    else
      match s.fetchLine ag (va + BitVec.ofNat 64 m) (n - m) with
      | (.error f, s) => (.error f, s)
      | (.ok cs, s) => (.ok (bs ++ cs), s)

/-- The addresses of a fetch of `n` bytes, one in each line. -/
def fetchAddrs (va : DWord) (n : Nat) : List DWord :=
  va :: (List.range ((va.toNat % 128 + n - 1) / 128)).map fun i => lineOf va + BitVec.ofNat 64 (128 * (i + 1))

/-- The packets of the lines of a fetch that the core's instruction cache does not hold may be sent and answered now, one after the other
(R96-R99, R105, R109). -/
def State.mayFetch (ag : Agent) : List DWord → State → Bool
  | [], _ => true
  | a :: as, s =>
    let g := s.groupOf ag
    if (s.fetchCheck ag a).isSome || (s.fetchHit ag a).isSome then State.mayFetch ag as s
    else
      s.coreMayAsk ag.core g.ctx (some g.launch) .fetch a
      && State.mayFetch ag as (s.coreAsk ag.core g.ctx (some g.launch) .fetch a)

/-- A fetch of `n` bytes need not wait: its requester's checks refuse it, or its homes are ready (R358) and its packets may be sent. -/
def State.fetchReady (s : State) (ag : Agent) (va : DWord) (n : Nat) : Bool :=
  (s.fetchCheck ag va).isSome
  || (let as := fetchAddrs va n
      as.all (fun a => s.homeReady (s.groupOf ag).ctx (noPath a)) && State.mayFetch ag as s)

/-- The address of a lane word (R16). -/
def Group.laneAddr (g : Group) (lpc : Word) : DWord := g.lbase + 12 * lpc.setWidth 64

/-- The queue entry of the lane word at a lane PC; a failed fetch is carried in the entry (R34). -/
def State.fetchLane (s : State) (ag : Agent) (sp : Split) (lpc : Word) (order : Nat) : QEntry × State :=
  match s.fetchBytes ag ((s.groupOf ag).laneAddr lpc) 12 with
  | (.error f, s) => (queueEntry sp 0 lpc (some f) order, s)
  | (.ok bs, s) => (queueEntry sp (BitVec.ofNat 96 (ofBytes bs)) lpc none order, s)

/-- Fetches `n` lane words from a lane PC on, oldest first. -/
def fetchLanes : Nat → State → Agent → Split → Word → Nat → List QEntry × State
  | 0, s, _, _, _, _ => ([], s)
  | n + 1, s, ag, sp, lpc, order =>
    let (e, s) := s.fetchLane ag sp lpc order
    let (es, s) := fetchLanes n s ag sp (lpc + 1) (order + 1)
    (e :: es, s)

/-- The scalar registers that a queue entry captures (R8, R277): a base captures a pair, and a word whose fetch failed keeps them all. -/
def QEntry.captures (e : QEntry) : List Nat :=
  if e.kept.isSome then List.range 64
  else
  let w := laneFields e.word
  let op := (e.word.extractLsb' 88 7).toNat
  let one (c : BitVec 10) : List Nat := if isScal c then [c.toNat - 640] else []
  let base := if 0x58 ≤ op && op ≤ 0x5F && isScal w.a then [w.a.toNat - 639] else []
  one w.a ++ one (secondField op w) ++ one (thirdField op w) ++ base

end Sys2Proof.Machine
end

