-- ==== Sys2Proof/Machine/Control.lean ====
section
/-! DEFINITION. The control words: branches, calls, loops, LRUN, splits and joins, EXIT and the end of a split, the system
words that only steer, idempotent regions, and the growth of an allocation (R7-R13, R150-R152, R281-R292, R304, R308). -/

namespace Sys2Proof.Machine

/-- A word that waits until the lane words enqueued before it have issued (R156). -/
def afterLanes (go : State → Out) (s : State) : Out := if s.curSplit.queue.isEmpty then go s else hold s

/-- A word that waits until the lane words enqueued before it have issued and written their results (R11). -/
def afterResults (go : State → Out) (s : State) : Out := if s.lanesWritten then go s else hold s

/-- An address as an offset from SBASE. -/
def State.offset (s : State) (addr : DWord) : Word := (addr - s.curGroup.sbase).setWidth 32

/-! ### Branches (R22, R281, R282) -/

/-- BR. -/
def execBr (off : BitVec 22) (s : State) : Out := .next (s.jump (s.target off) true)

/-- The test of BRC (R22). -/
def State.brcTest (s : State) (p : BitVec 3) (n : Bool) : Bool :=
  (if p == 0 then s.curSplit.flag else s.curGroup.preg p.toNat &&& s.curSplit.mask != 0) != n

/-- BRC. -/
def execBrc (p : BitVec 3) (n : Bool) (off : BitVec 22) (s : State) : Out :=
  (if p == 0 then afterLanes else afterResults)
    (fun s => if s.brcTest p n then .next (s.jump (s.target off) true) else .next s.advance) s

/-- CALL. -/
def execCall (off : BitVec 22) (s : State) : Out :=
  .next ((s.modCur fun sp => sp.setPair 62 (sp.spc + 4)).jump (s.target off) false)

/-- RET; a misaligned target is ALIGN (R281). -/
def execRet (a : BitVec 6) (s : State) : Out :=
  scalarWord (pairOk a) (pairReads a)
    (fun s =>
      let t := s.curSplit.spair a.toNat
      if t.toNat % 4 != 0 then .next (s.scalarFault ⟨.align, .none, t⟩) else .next (s.jump t false)) s

/-- LJMP. -/
def execLjmp (off : BitVec 22) (s : State) : Out := s.finish fun sp => { sp with lpc := sp.lpc + sext32 off }

/-! ### Loops (R282-R285) -/

/-- Pushes a loop entry, or raises LOOP_OVERFLOW (R283). -/
def pushLoop (count : Word) (fin : BitVec 16) (s : State) : Out :=
  if s.curSplit.loops.length ≥ 4 then .next (s.scalarTrap .loopOverflow)
  else
    let here := s.curSplit.spc
    s.finish fun sp =>
      { sp with loops := ⟨count, sp.lpc, s.offset (here + 4 * fin.setWidth 64), s.offset (here + 4)⟩ :: sp.loops }

/-- LOOP. -/
def execLoop (cnt : BitVec 10) (fin : BitVec 16) (s : State) : Out :=
  if cnt == 0 || fin.toNat < 2 then illegalOperand s else pushLoop (cnt.setWidth 32) fin s

/-- LOOPR; a count of 0 branches to the end (R283). -/
def execLoopr (r : BitVec 6) (fin : BitVec 16) (s : State) : Out :=
  scalarWord (2 ≤ fin.toNat) [r.toNat]
    (fun s =>
      let n := s.curSplit.sreg r.toNat
      if n == 0 then .next (s.jump (s.curSplit.spc + 4 * fin.setWidth 64) false) else pushLoop n fin s) s

/-- LBRK: arriving at END is a fall-through (R285). -/
def execLbrk (s : State) : Out :=
  match s.curSplit.loops with
  | [] => illegalOperand s
  | e :: es =>
    let sbase := s.curGroup.sbase
    .next (s.modCur fun sp => { ({ sp with loops := es }).fallTo sbase (sbase + e.fin.setWidth 64) with ageS := s.tick })

/-! ### LRUN (R7, R34) -/

/-- LRUN: what fits is enqueued, and the word blocks until the rest fits. -/
def execLrun (cnt : BitVec 10) (s : State) : Out :=
  if cnt == 0 then illegalOperand s
  else
    let sp := s.curSplit
    let want := if sp.lrun == 0 then cnt.toNat else sp.lrun
    let k := min want (16 - sp.queue.length)
    if k == 0 || !s.fetchReady s.cur (s.curGroup.laneAddr sp.lpc) (12 * k) then hold s
    else
      let (es, t) := fetchLanes k s s.cur sp sp.lpc s.curGroup.enq
      if (es.flatMap QEntry.captures).any (s.awaits s.cur) then hold s
      else
        let t := t.modGroup s.cur fun g => { g with enq := g.enq + k }
        let t := t.modCur fun sp =>
          { sp with queue := sp.queue ++ es, lpc := sp.lpc + BitVec.ofNat 32 k, lrun := want - k }
        if k == want then .next t.advance else .next t

/-! ### Splitting (R12, R286, R290) -/

/-- The active lanes for which the test of BRV holds. -/
def State.brvTaken (s : State) (p : BitVec 3) (n : Bool) : Mask :=
  s.curSplit.mask &&& (if n then ~~~(s.curGroup.preg p.toNat) else s.curGroup.preg p.toNat)

/-- The split divides: the half with the lowest lane keeps the number and the order identity (R12, R264, R286). -/
def State.divide (s : State) (idx : Nat) (t : Mask) (target : DWord) (rec_ : JoinRec) : State :=
  let sp := s.curSplit
  let sbase := s.curGroup.sbase
  let base := { sp with fetched := none, lastTry := none, ageS := s.tick }
  let tHalf := { base.branch sbase target true with mask := t, joins := rec_ :: sp.joins }
  let nHalf := { base with mask := sp.mask &&& ~~~t, spc := sp.spc + 4, joins := rec_ :: sp.joins }
  let (low, high) := if Mask.has t (Mask.lowest sp.mask) then (tHalf, nHalf) else (nHalf, tHalf)
  let s := s.modGroup s.cur fun g => { g with brvNext := g.brvNext + 1 }
  (s.setSplitOf s.cur low).forkSplit s.cur idx { high with rest := 0, setQueue := [], setReplay := [], setHead := false, aside := default }

/-- The split runs the branch masked-serial (R290). -/
def State.serialRun (s : State) (t : Mask) (target : DWord) (join : Word) : State :=
  let sp := s.curSplit
  let r : JoinRec :=
    ⟨.serial, join, s.curGroup.brvNext, 0, sp.mask &&& ~~~t, sp.mask &&& ~~~t, s.offset (sp.spc + 4), sp.lpc, sp.loops⟩
  let s := s.modGroup s.cur fun g => { g with brvNext := g.brvNext + 1 }
  (s.modCur fun sp => { sp with mask := t, joins := r :: sp.joins }).jump target false

/-- BRV. -/
def execBrv (p : BitVec 3) (n : Bool) (tgt join : BitVec 11) (s : State) : Out :=
  if tgt == 0 || join == 0 || 1024 ≤ join.toNat then illegalOperand s
  else
    afterResults (fun s =>
      let t := s.brvTaken p n
      let target := s.target tgt
      let joinOff := s.offset (s.curSplit.spc + 4 * join.setWidth 64)
      if t == s.curSplit.mask then .next (s.jump target true)
      else if t == 0 then .next s.advance
      else if s.curSplit.joins.length ≥ 4 then .next (s.scalarTrap .loopOverflow)
      else
        match if s.cur.split < 4 then s.curGroup.freeSplit 0 4 else none with
        | some idx => .next (s.divide idx t target ⟨.join, joinOff, s.curGroup.brvNext, 0, 0, 0, 0, 0, []⟩)
        | none => .next (s.serialRun t target joinOff)) s

/-! ### Joins (R264, R288, R289, R290) -/

/-- The split has reached the join of its innermost record, which is of the BRV (R288). -/
def Split.reached (sp : Split) (sbase : DWord) (brvid : Nat) : Bool :=
  (sp.status == .running || (sp.status == .trapped && !sp.quits)) && sp.atJoin sbase && sp.queue.isEmpty && sp.held.isEmpty && sp.drain.isNone
  && (sp.joins.head?.map (·.brvid)) == some brvid

/-- The first difference that R289 records: UAFF and UREG. -/
def firstDiff (ms : List Split) : Option (Bool × Nat) :=
  match ms with
  | [] => none
  | l :: rest =>
    let s := firstBelow 64 fun n => rest.any fun m => m.sreg n != l.sreg n
    let a := firstBelow 32 fun n => rest.any fun m => m.areg n != l.areg n
    match s, a with
    | some n, _ => some (false, n)
    | none, some n => some (true, n)
    | none, none => if rest.any fun m => m.lpc != l.lpc then some (true, 63) else none

/-- UDIV, UREG and UAFF at a merge (R163, R289). -/
def Group.noteDiff (g : Group) (d : Option (Bool × Nat)) : Group :=
  match d with
  | none => g
  | some (aff, n) => if g.udiv then g else { g with udiv := true, uaff := aff, ureg := BitVec.ofNat 6 n }

/-- The entries of splits that merge are the merged split's too, and older than all that it will enter; among themselves they stay as
they were (R264). What the members' loads have returned holds for the merged split, and their jobs become its own. -/
def State.adoptEnts (s : State) (olds : List Nat) (new : Nat) : State :=
  { s with
    ents := s.ents.map fun e => if olds.any e.own then { e with owners := e.owners ++ [new] } else e
    floors := (s.floors.filter fun f => !olds.contains f.uid || s.ents.any fun e => e.uid == f.uid)
      ++ (s.floors.filter fun f => olds.contains f.uid).map fun f => { f with uid := new }
    clusters := s.clusters.map fun c =>
      (c.1, { c.2 with window := c.2.window.map fun k => if olds.contains k.heir then { k with heir := new } else k }) }

/-- Merges the splits `ns` of a group, which have reached one join (R288, R289): several of them give a split with an order identity of
its own (R264). The lanes that outer serial records of any of them hold stay in the records (R290). -/
def State.mergeClass (s : State) (core slot : Nat) (ns : List Nat) : State :=
  let g := s.group core slot
  let ms := ns.map fun n => (n, g.split n)
  let lead := ms.foldl (fun a m => if Mask.lowest m.2.mask < Mask.lowest a.2.mask then m else a) (ms.headD (0, Split.empty))
  let others := (ms.filter fun m => m.1 != lead.1).map (·.2)
  let given := others.flatMap fun sp => sp.joins.drop 1
  let merged := { lead.2 with
    mask := ms.foldl (fun (m : Mask) x => m ||| x.2.mask) 0
    joins := (lead.2.joins.drop 1).map fun r => (given.filter fun x => x.brvid == r.brvid).foldl JoinRec.plus r
    swPark := ms.any fun x => x.2.swPark && 0 < s.untrOf x.2.uid
    uid := if others.isEmpty then lead.2.uid else s.nextUid }
  let g := { g.noteDiff (firstDiff (lead.2 :: others)) with splits := ns.foldl (fun t n => Tab.del t n) g.splits }
  let uids := ms.map fun m => m.2.uid
  let s := s.setGroup core slot ((g.shareArr uids merged.uid).setSplit (ns.foldl min 7) merged)
  if others.isEmpty then s else { s.adoptEnts uids s.nextUid with nextUid := s.nextUid + 1 }

/-- The classes of equal loop stacks, in order of split number. -/
def loopClasses (g : Group) : List Nat → List (List Nat)
  | [] => []
  | n :: ns =>
    let cs := loopClasses g ns
    if cs.any fun c => c.any fun m => (g.split m).loops == (g.split n).loops then
      cs.map fun c => if c.any fun m => (g.split m).loops == (g.split n).loops then n :: c else c
    else [n] :: cs

/-- The next run of a serial record, or its end (R290). -/
def Split.serialNext (sp : Split) (sbase : DWord) (r : JoinRec) (rest : List JoinRec) : Split :=
  if r.stage == 0 && r.other != 0 then
    { sp with
      mask := r.other, lpc := r.lpc, loops := r.loops, spc := sbase + r.next.setWidth 64, fetched := none,
      joins := { r with stage := 1, other := sp.mask } :: rest }
  else { sp with mask := sp.mask ||| r.other, joins := rest }

/-- Every split that shares a serial record has reached its join: they are one again, and the recorded lanes have their run, or all
lanes go on together (R288, R290). -/
def State.serialJoin (s : State) (core slot : Nat) (ns : List Nat) (r : JoinRec) : State :=
  let g := s.group core slot
  let r := ns.foldl (fun r n => ((g.split n).joins.head?.map r.plus).getD r) r
  let s := s.mergeClass core slot ns
  let n := ns.foldl min 7
  let sp := (s.group core slot).split n
  s.setGroup core slot ((s.group core slot).setSplit n (sp.serialNext g.sbase r sp.joins))

/-- JOIN_MERGE: every split that shares the BRV has arrived or ended (R288). -/
def execJoinMerge (core slot brvid : Nat) (s : State) : Out :=
  let g := s.group core slot
  let sharers := g.live8.filter fun n => (g.split n).shares brvid
  if !g.live || s.stateOn g.ctx core != .running || sharers.isEmpty || !(sharers.all fun n => (g.split n).reached g.sbase brvid) then hold s
  else
    match (g.split (sharers.headD 0)).joins.head? with
    | some r =>
      if r.kind == .serial then .next (s.serialJoin core slot sharers r)
      else .next ((loopClasses g sharers).foldl (fun s c => s.mergeClass core slot c) s)
    | none => hold s

/-! ### EXIT (R9, R291) -/

/-- EXIT: the split issues no further scalar word and ends when SPLIT_END finds its work done. A handler's split stays in trap mode until
then. The scalar PC stays at EXIT, so a fault that parks the waiting split records EXIT's own address, and EXIT runs again when the split
goes on (DESIGN CHOICE: R35 has EXIT issue and wait, and R37 names the first word not yet issued; log 76). -/
def execExit (s : State) : Out :=
  .next (s.modCur fun sp =>
    if sp.status == .trapped then { sp with quits := true, fetched := none, ageS := s.tick }
    else { sp with status := .exiting, fetched := none, ageS := s.tick })

/-- The split's results have landed and its lane words have issued (R9). For a handler's EXIT these are the words that the handler enqueued:
the words that trap entry set aside, and the lanes that parked without faulting, end with the split, and reports that wait for its record
go with it (DESIGN CHOICE: R9 and R318 do not say whether they hold EXIT back; log 76). -/
def State.mayEnd (s : State) (ag : Agent) : Bool :=
  let sp := s.splitOf ag
  ((sp.status == .exiting && sp.held.isEmpty) || (sp.status == .trapped && sp.quits)) && sp.queue.isEmpty && sp.drain.isNone
  && !(s.ents.any fun e => e.own sp.uid && e.tracked && (e.dstN > 0 || e.esc.isSome))
  && !((s.groupOf ag).arr.any fun a => a.own sp.uid)

/-- SPLIT_END. -/
def execSplitEnd (ag : Agent) (s : State) : Out :=
  if (s.groupOf ag).live && s.mayEnd ag then .next (s.endLanes ag) else hold s

/-! ### Words that steer (R292, R304, R308, R320) -/

/-- SNOP. -/
def execSnop (s : State) : Out := .next s.advance

/-- YIELD sets both issue ages to zero (R308). -/
def execYield (s : State) : Out := s.finish fun sp => { sp with ageL := s.tick }

/-- TRAP takes the exception for every lane of the split (R292). -/
def execTrap (code : BitVec 8) (s : State) : Out := .next (s.scalarTrap (.trap (code.setWidth 10)))

/-- Every earlier store of the split is visible at CORE scope (R320). -/
def State.storesVisible (s : State) (uid : Nat) : Bool :=
  (s.ownEnts uid).all fun e =>
    !(e.kind == .gStore || e.kind == .gAtomic || e.kind == .sStore || e.kind == .cStore || e.kind == .yStore) || e.visible 0

/-- The frame of the running split. -/
def State.curFrame (s : State) : DWord := s.frameAddr s.curGroup.ctx s.cur.core s.cur.slot s.cur.split

/-- TRET (R320): the frame is read by a packet of the core (R96-R99, R102, R358). -/
def execTret (s : State) : Out :=
  let ctx := s.curGroup.ctx
  let fa := s.curFrame
  if s.curSplit.status != .trapped then illegalOperand s
  else if !s.curSplit.queue.isEmpty || !s.storesVisible s.curSplit.uid then hold s
  else
    match s.coreCheck s.cur.core ctx fa with
    | some f => .next (s.scalarFault ⟨f.1, f.2, fa⟩)
    | none =>
      if !s.homeReady ctx fa || !s.coreMayAsk s.cur.core ctx none .load fa then hold s
      else .next ((s.coreAsk s.cur.core ctx none .load fa).trapReturn s.cur)

/-- The unassigned opcodes raise ILLEGAL_OP, in the stream that met them (R19, R20, R33). -/
def execIllegalOp (s : State) : Out :=
  if s.curLane then .next (s.laneTrap .illegalOp) else .next (s.scalarTrap .illegalOp)

/-- A word that IDEMB and IDEME forbid (R304): more than one split, a split that a fault has parked, its handler's run included, or a
nesting that does not fit. -/
def Group.badRegion (g : Group) (starts : Bool) : Bool :=
  1 < g.live8.length || g.mark.isSome == starts
  || g.live8.any fun n => (g.split n).status == .parked || (g.split n).status == .trapped || (g.split n).status == .resumePending

/-- What IDEMB records: the split as it stands at the next word (R284, R304). -/
def Group.idemRec (g : Group) (sp : Split) : IdemRec :=
  let f := sp.fallTo g.sbase (sp.spc + 4)
  ⟨f.spc, f.lpc, f.loops, g.g, sp.s, sp.a, g.p, g.tm, sp.flag⟩

/-- IDEMB. -/
def execIdemb (s : State) : Out :=
  let g := s.curGroup
  if !g.idem then .next s.advance
  else if g.badRegion true then illegalOperand s
  else .next (s.modGroup s.cur fun g => { g with mark := some (g.idemRec s.curSplit) }).advance

/-- IDEME. -/
def execIdeme (s : State) : Out :=
  let g := s.curGroup
  if !g.idem then .next s.advance
  else if g.badRegion false then illegalOperand s
  else .next (s.modGroup s.cur fun g => { g with mark := none }).advance

/-! ### REGGROW and REGSHRINK (R150, R152) -/

/-- The count of REGGROW and REGSHRINK. -/
def granCount (sp : Split) (b : BitVec 6) (imm : Bool) : Nat := (srcVal sp b imm).toNat

/-- R150 grants `k` granules to a group. -/
def State.growGrant (s : State) (core slot k : Nat) : Bool :=
  match s.ctxSlot core (s.group core slot).ctx with
  | some c => s.rowsGrant core c (32 * k)
  | none => false

/-- The waiting REGGROWs of a core: order, agent and count. -/
def State.growWaits (s : State) (core : Nat) : List (Nat × Agent × Nat) :=
  (s.groupsOn core).flatMap fun p =>
    p.2.live8.filterMap fun n =>
      match (p.2.split n).wait with
      | .grow k o => some (o, ⟨core, p.1, n⟩, k)
      | _ => none

/-- The element with the least number. -/
def leastBy {α : Type} (f : α → Nat) (l : List α) : Option α :=
  l.foldl (fun a x =>
    match a with
    | none => some x
    | some b => if f x < f b then some x else some b) none

/-- An earlier REGGROW of the same context slot still waits. -/
def State.growBehind (s : State) (ag : Agent) (order : Nat) : Bool :=
  (s.growWaits ag.core).any fun w => w.1 < order && s.ctxSlot ag.core (s.groupOf w.2.1).ctx == s.ctxSlot ag.core (s.groupOf ag).ctx

/-- The group of an agent grows by `k` granules (R151). -/
def State.grow (s : State) (ag : Agent) (k : Nat) : State :=
  let g := s.groupOf ag
  (s.giveRows ag.core ag.slot g.regs (32 * k)).modGroup ag fun g => { g with g := g.g + k }

/-- REGGROW completes for the running split. -/
def State.growDone (s : State) (k : Nat) : State :=
  ((s.grow s.cur k).modCur fun sp => { sp.setFlag false with wait := .none }).advance

/-- REGGROW. -/
def execReggrow (b : BitVec 6) (imm try_ : Bool) (s : State) : Out :=
  scalarWord true (srcReads b imm)
    (fun s =>
      let k := granCount s.curSplit b imm
      let order := (s.core s.cur.core).growNext
      if k == 0 || 20 < s.curGroup.g + k then illegalOperand s
      else if s.growGrant s.cur.core s.cur.slot k && !s.growBehind s.cur order then .next (s.growDone k)
      else if try_ then s.finish fun sp => sp.setFlag true
      else
        let c := s.core s.cur.core
        .next ((s.setCore s.cur.core { c with growNext := order + 1 }).modCur fun sp => { sp with wait := .grow k order })) s

/-- REGGROW_RETRY: the oldest waiting REGGROW that may be granted is granted (R152). -/
def execReggrowRetry (core : Nat) (s : State) : Out :=
  let ready := fun (w : Nat × Agent × Nat) =>
    s.stateOn (s.groupOf w.2.1).ctx core == .running && !s.growBehind w.2.1 w.1
    && (20 < (s.groupOf w.2.1).g + w.2.2 || s.growGrant core w.2.1.slot w.2.2)
  match leastBy (·.1) ((s.growWaits core).filter ready) with
  | none => hold s
  | some (_, ag, k) =>
    let s := { s with cur := ag, curLane := false }
    if 20 < s.curGroup.g + k then illegalOperand (s.modCur fun sp => { sp with wait := .none }) else .next (s.growDone k)

/-- REGSHRINK may take effect: the lane words enqueued before it have issued, and nothing it releases is pending. -/
def State.shrinkOk (s : State) (ag : Agent) (k barrier : Nat) : Bool :=
  let g := s.groupOf ag
  (g.live8.all fun n => ((g.split n).queue ++ (g.split n).setQueue).all fun e => barrier ≤ e.order)
  && (List.range (32 * k)).all fun i => !s.pendingReg ag.core ag.slot (32 * (g.g - k) + i)

/-- REGSHRINK takes effect for the running split. -/
def State.shrinkDone (s : State) (k : Nat) : State :=
  let g := s.curGroup
  let s := s.freeRows s.cur.core s.cur.slot (32 * (g.g - k)) (32 * k)
  ((s.modGroup s.cur fun g => { g with g := g.g - k }).modCur fun sp => { sp with wait := .none }).advance

/-- REGSHRINK. -/
def execRegshrink (b : BitVec 6) (imm : Bool) (s : State) : Out :=
  scalarWord true (srcReads b imm)
    (fun s =>
      let k := granCount s.curSplit b imm
      if k == 0 || s.curGroup.g < k + 1 then illegalOperand s
      else if s.shrinkOk s.cur k s.curGroup.enq then .next (s.shrinkDone k)
      else .next (s.modCur fun sp => { sp with wait := .shrink k s.curGroup.enq })) s

/-- REGSHRINK_RELEASE: a waiting REGSHRINK takes effect (R152). -/
def execRegshrinkRelease (ag : Agent) (s : State) : Out :=
  match (s.splitOf ag).wait with
  | .shrink k barrier =>
    if !(s.groupOf ag).live || s.stateOn (s.groupOf ag).ctx ag.core != .running then hold s
    else
      let s' := { s with cur := ag, curLane := false }
      if s'.curGroup.g < k + 1 then illegalOperand (s'.modCur fun sp => { sp with wait := .none })
      else if s.shrinkOk ag k barrier then .next (s'.shrinkDone k)
      else hold s
  | _ => hold s

end Sys2Proof.Machine
end

