-- ==== Sys2Proof/Machine/MemWords.lean ====
section
/-! DEFINITION. The lane memory words: LD, ST, LDE, LDL, STL, PRF, FENCE, ATOM and ATOMR (R103, R153-R156, R235-R252). -/

namespace Sys2Proof.Machine

/-! ### Addresses (R236) -/

/-- base(L). -/
def LaneEnv.base (e : LaneEnv) (w : LaneWord) (l : Nat) : DWord :=
  if isVec w.a then pair (e.g.vreg (w.a.toNat + 1) l) (e.g.vreg w.a.toNat l)
  else if isScal w.a then pair e.head.capA.w1 e.head.capA.w0
  else e.head.capA.affine.lane l

/-- addr(L), with the displacement in units of `unit` bytes. -/
def LaneEnv.addr (e : LaneEnv) (w : LaneWord) (unit l : Nat) : DWord :=
  let index : DWord := if w.b.toNat == 736 then 0 else sext64 (e.opB w l)
  e.base w l + index + sext64 w.xa * BitVec.ofNat 64 unit

/-- The windows that an address reads. -/
def addrWins (w : LaneWord) : List (Nat × Nat) := vecWin w.a 2 ++ vecWin w.b 1

/-! ### Packets (R103, R240, R262) -/

/-- One lane's access as the coalescer takes it: its lane, its address, its bytes of data, and the register offset of the
bytes. -/
structure Piece where
  lane : Nat
  addr : DWord
  n    : Nat
  data : List Byte
  reg  : Nat
deriving DecidableEq, Repr

/-- What two pieces share when they travel in one packet: the line on a translated path. A scratch or a system access of a lane is one
entry by itself; in a FIFO a higher lane's stands behind a lower lane's, so that its bytes stay (R240, R262). -/
def Piece.packet (p : Piece) : Nat × Nat × Nat :=
  if translated (pathOf p.addr) then ((lineOf p.addr).toNat, 0, 2) else (p.addr.toNat, p.lane, 1)

/-- The packets of a list of pieces, in the order of the lowest lane each holds. -/
def packets (ps : List Piece) : List (List Piece) :=
  (ps.map Piece.packet).eraseDups.map fun k => ps.filter fun p => p.packet == k

/-- An entry of the lane word that issues: `kind` by path, its pieces, and the fields common to the word. -/
def State.laneEnt (s : State) (op : Nat) (w : LaneWord) (kind : EKind) (ps : List Piece) : Entry :=
  let va := (ps.head?.map (·.addr)).getD 0
  let line := lineOf va
  let d := w.d.toNat + (ps.head?.map (·.reg)).getD 0
  { s.newEnt kind (pathOf va) line (ps.map fun p => ⟨p.lane, p.addr, p.n, p.data⟩) with
    op := op, fn := w.fn.toNat, dst := d, resp := s.keyHere s.curGroup line, word := (s.headOf s.cur).word,
    caps := [(s.headOf s.cur).capA, (s.headOf s.cur).capB, (s.headOf s.cur).capC], lpc := (s.headOf s.cur).lpc, scw := false,
    retry := if s.curSplit.headFault then s.curSplit.lastTry else none }

/-- The acquire scope of a word on a path; the system path has none (R243). -/
def acqOf (w : LaneWord) (path : Nat) : Option Nat := if ordOf w == 1 && path != 5 then some (scopeOf w) else none

/-- The release scope of a word on a path (R243). -/
def relOf (w : LaneWord) (path : Nat) : Option Nat := if ordOf w == 2 && path != 5 then some (scopeOf w) else none

/-- A memory word's ordering marks on an entry; .prom acts on translated paths (R242). -/
def Entry.marked (e : Entry) (w : LaneWord) : Entry :=
  { e with acq := acqOf w e.path, rel := relOf w e.path, prom := promOf w && translated e.path }

/-! ### Issue (R37, R239, R247) -/

/-- A load or an atomic that is an acquire and acts in no lane (R29, R243). -/
def State.idleAcquire (s : State) (op : Nat) (w : LaneWord) : Bool :=
  [0x58, 0x5A, 0x5B, 0x5F].contains op && ordOf w == 1 && s.acting w == 0

/-- A memory word at issue: the checks of laneIssue, and it waits behind an incomplete fence of its split (R247). An acquire that acts in no lane
sends nothing and is complete at once, when every earlier acquire of the split is (R29, R269). -/
def memIssue (op : Nat) (w : LaneWord) (wins : List (Nat × Nat)) (go : State → Out) (s : State) : Out :=
  laneIssue op w wins true (fun s =>
    if s.fenced s.curSplit.uid then hold s
    else if !s.idleAcquire op w then go s
    else if s.acquiring s.curSplit.uid then hold s
    else go (s.acquireDrop s.cur.core (scopeOf w))) s

/-- The acting lanes with a fault of the requester's checks, and those without (R239). -/
def State.laneChecks (s : State) (e : LaneEnv) (w : LaneWord) (r : Reach) (unit width align : Nat) :
    List (Nat × Fail) × List Nat :=
  let one (l : Nat) : Option Fail :=
    (s.requesterCheck s.curGroup s.cur.core r (e.addr w unit l) width align).map fun f => ⟨f.1, f.2, e.addr w unit l⟩
  let act := Mask.list e.act
  (act.filterMap fun l => (one l).map fun f => (l, f), act.filter fun l => (one l).isNone)

/-- The word issues with its effect in the lanes without a fault, and its faulting lanes park (R37, R239, R314). -/
def State.issueWith (s : State) (fails : List (Nat × Fail)) (sw : Bool) (perform : State → State) : State :=
  if fails.isEmpty then (perform s).laneDone sw else s.laneFault fails sw perform

/-- The word issues: its entries enter the machine, and its faulting lanes park. -/
def State.issueMem (s : State) (fails : List (Nat × Fail)) (sw : Bool) (es : List Entry) : State :=
  s.issueWith fails sw fun s => s.enterAll es

/-! ### LD and ST (R241) -/

/-- The load entries of the good lanes. -/
def State.loadEnts (s : State) (op : Nat) (e : LaneEnv) (w : LaneWord) (good : List Nat) : List Entry :=
  let width := widthBytes w.fn
  (packets (good.map fun l => ⟨l, e.addr w width l, width, [], 0⟩)).map fun ps =>
    let path := pathOf ((ps.head?.map (·.addr)).getD 0)
    let x := s.laneEnt op w (if path == 5 then .yLoad else .load) ps
    ({ x with dstN := widthRegs ((ps.head?.map Piece.n).getD 0), trk := trkOf w }).marked w

/-- LD. -/
def execLd (w : LaneWord) (s : State) : Out :=
  let width := widthBytes w.fn
  memIssue 0x58 w (vecWin w.d (widthRegs width) ++ addrWins w)
    (fun s =>
      let e := s.laneEnv w
      let (fails, good) := s.laneChecks e w .lane width width width
      .next (s.issueMem fails w.sw (s.loadEnts 0x58 e w good))) s

/-- The store data of one lane: the low bytes of D (R241). -/
def LaneEnv.storeData (e : LaneEnv) (w : LaneWord) (width l : Nat) : List Byte :=
  if isVec w.d then
    (List.range (widthRegs width)).flatMap fun i => toBytes (e.g.vreg (w.d.toNat + i) l).toNat (min 4 width)
  else toBytes (e.raw w.d e.head.capC l).toNat (min 4 width)

/-- The store entries of the good lanes. -/
def State.storeEnts (s : State) (e : LaneEnv) (w : LaneWord) (good : List Nat) : List Entry :=
  let width := widthBytes w.fn
  (packets (good.map fun l => ⟨l, e.addr w width l, width, e.storeData w width l, 0⟩)).map fun ps =>
    let va := (ps.head?.map (·.addr)).getD 0
    (s.laneEnt 0x59 w (s.storeKind s.curGroup s.cur.core va) ps).marked w

/-- ST. -/
def execSt (w : LaneWord) (s : State) : Out :=
  let width := widthBytes w.fn
  memIssue 0x59 w (vecWin w.d (widthRegs width) ++ addrWins w)
    (fun s =>
      let e := s.laneEnv w
      let (fails, good) := s.laneChecks e w .store width width width
      .next (s.issueMem fails w.sw (s.storeEnts e w good))) s

/-! ### Escorts (R153-R156) -/

/-- The escort count of a word. -/
def escCount (w : LaneWord) : Nat := modBits w 2 0 + 1

/-- The home slice that an escort is charged to; none for another node (R154). -/
def State.escSlice (s : State) (va : DWord) : Option Nat :=
  if nodeOf va == s.node.toNat then some (dieOf va * 16 + sliceOf va) else none

/-- The refusal cause of an escorted word; 0 when it may depart (R154). `first` is the first good lane's address. Where several budgets refuse,
the lowest number is the cause (DESIGN CHOICE: R154 and R156 give no order; log 85). -/
def State.escCause (s : State) (n : Nat) (first : Option DWord) : Nat :=
  if s.curGroup.ecap ≤ s.eabr s.cur.core s.cur.slot then 1
  else if (s.core s.cur.core).escLimit < s.escUsed s.cur.core + n then 2
  else
    match first.bind s.escSlice with
    | some k => if Config.homeWindowBytes < s.windowUsed (clusterOfCore s.cur.core) k + 128 * n then 3 else 0
    | none => 0

/-- The packed escort set of a word (R155); a register that an untracked load is still to write gives what a lane word would read (R10). -/
def State.packEscort (s : State) (w : LaneWord) (va : DWord) : Escort :=
  let g := s.viewOf s.cur
  let base := w.c.toNat
  ⟨base, escCount w,
    (List.range (escCount w)).flatMap fun i => lanes.map fun l => (32 * i + l, g.vreg (base + i) l), s.escSlice va⟩

/-- The entries of an escorted word leave: the first packet carries the set, and its rows are free (R155). -/
def State.sendOff (s : State) (w : LaneWord) (es : List Entry) : State :=
  match es with
  | [] => s
  | x :: xs =>
    let rows := s.packEscort w x.line
    (s.freeRows s.cur.core s.cur.slot w.c.toNat (escCount w)).enterAll ({ x with esc := some rows } :: xs)

/-- An escorted word departs with its entries, where it issues (R37, R155). -/
def State.depart (s : State) (fails : List (Nat × Fail)) (w : LaneWord) (es : List Entry) : State :=
  s.issueWith fails w.sw fun s => s.sendOff w es

/-- A .try word that is not refused clears the scalar flag, where it issues (R37, R156). -/
def State.notRefused (s : State) (w : LaneWord) (fails : List (Nat × Fail)) : State :=
  if xcBits w 0 0 == 1 && s.faultIssues (Mask.ofList (fails.map (·.1))) then s.modCur fun sp => sp.setFlag false else s

/-- An escorted word at issue: it departs, waits at the head of the queue, or is refused (R154-R156). A retry from the head of the queue
sends no escort (R326). -/
def State.escorted (s : State) (e : LaneEnv) (w : LaneWord) (fails : List (Nat × Fail)) (good : List Nat) (unit : Nat)
    (es : List Entry) : Out :=
  let cause := if e.act == 0 then 0 else s.escCause (escCount w) ((good.head?).map fun l => e.addr w unit l)
  if s.curSplit.headFault then .next ((s.notRefused w fails).issueMem fails w.sw es)
  else if cause == 0 then .next ((s.notRefused w fails).depart fails w es)
  else if xcBits w 0 0 == 1 then
    let s := s.modGroup s.cur fun g => { g with erc := BitVec.ofNat 3 cause }
    .next ((s.modCur fun sp => sp.setFlag true).laneDone w.sw)
  else hold s

/-- LDE. -/
def execLde (w : LaneWord) (s : State) : Out :=
  let width := widthBytes w.fn
  memIssue 0x5A w (vecWin w.d (widthRegs width) ++ addrWins w ++ vecWin w.c (escCount w))
    (fun s =>
      let e := s.laneEnv w
      let (fails, good) := s.laneChecks e w .escort width width width
      s.escorted e w fails good width ((s.loadEnts 0x5A e w good).map fun x => { x with trk := true })) s

/-- An escorted word stands at the head of a split's queue (R156). -/
def escortWaits (s : State) (ag : Agent) : Bool :=
  let op := ((s.headOf ag).word.extractLsb' 88 7).toNat
  (op == 0x5A || op == 0x5F) && !(s.splitOf ag).queue.isEmpty

/-! ### LDL and STL (R244) -/

/-- The address of line `j`. -/
def LaneEnv.lineAddr (e : LaneEnv) (w : LaneWord) (j : Nat) : DWord :=
  e.base w 0 + sext64 w.xa * 128 + BitVec.ofNat 64 (128 * j)

/-- The lines of LDL and STL with a fault, and those without. -/
def State.lineChecks (s : State) (e : LaneEnv) (w : LaneWord) (r : Reach) (n : Nat) : List Fail × List Nat :=
  let one (j : Nat) : Option Fail :=
    (s.requesterCheck s.curGroup s.cur.core r (e.lineAddr w j) 128 128).map fun f => ⟨f.1, f.2, e.lineAddr w j⟩
  ((List.range n).filterMap one, (List.range n).filter fun j => (one j).isNone)

/-- LDL and STL: the good lines move, and a faulting line faults the whole split, whose switch marker waits for what the good lines return
(R10, R37, R244). -/
def State.issueLines (s : State) (fails : List Fail) (sw : Bool) (es : List Entry) : State :=
  match fails with
  | [] => (s.enterAll es).laneDone sw
  | f :: _ =>
    if s.curSplit.drain.isSome then s.finishDrain s.cur true
    else ((s.enterAll es).modCur fun sp => { sp with swPark := sw }).laneFault ((Mask.list s.curSplit.mask).map fun l => (l, f)) sw id

/-- The 32 pieces of line `j`. -/
def LaneEnv.linePieces (e : LaneEnv) (w : LaneWord) (j : Nat) (data : Nat → List Byte) : List Piece :=
  lanes.map fun k => ⟨k, e.lineAddr w j + BitVec.ofNat 64 (4 * k), 4, data k, j⟩

/-- LDL. -/
def execLdl (w : LaneWord) (s : State) : Out :=
  let n := w.b.toNat + 1
  memIssue 0x5B w (vecWin w.d n)
    (fun s =>
      let e := s.laneEnv w
      if e.act == 0 then .next (s.laneDone w.sw)
      else
        let (fails, good) := s.lineChecks e w .line n
        .next (s.issueLines fails w.sw (good.map fun j =>
          let x := s.laneEnt 0x5B w .load (e.linePieces w j fun _ => [])
          ({ x with dstN := 1, trk := trkOf w }).marked w))) s

/-- STL. -/
def execStl (w : LaneWord) (s : State) : Out :=
  let n := w.b.toNat + 1
  memIssue 0x5C w (vecWin w.d n)
    (fun s =>
      let e := s.laneEnv w
      if e.act == 0 then .next (s.laneDone w.sw)
      else
        let (fails, good) := s.lineChecks e w .lineStore n
        .next (s.issueLines fails w.sw (good.map fun j =>
          let kind := s.storeKind s.curGroup s.cur.core (e.lineAddr w j)
          (s.laneEnt 0x5C w kind (e.linePieces w j fun k => toBytes (e.g.vreg (w.d.toNat + j) k).toNat 4)).marked w))) s

/-! ### PRF and FENCE (R245-R247) -/

/-- PRF. -/
def execPrf (w : LaneWord) (s : State) : Out :=
  memIssue 0x5D w (addrWins w)
    (fun s =>
      let e := s.laneEnv w
      let (fails, good) := s.laneChecks e w .prefetch 128 1 1
      let ps := packets (good.map fun l => ⟨l, e.addr w 128 l, 1, [], 0⟩)
      .next (s.issueMem fails w.sw (ps.map fun p => s.laneEnt 0x5D w .prefetch p))) s

/-- FENCE enters as a marker (R268). -/
def execFence (w : LaneWord) (s : State) : Out :=
  memIssue 0x60 w []
    (fun s =>
      let kind := w.fn.toNat
      let scope := if kind == 0 then some (scopeOf w) else none
      let x := { s.laneEnt 0x60 w .fence [] with
        level := ordOf w
        acq := if ordOf w == 2 then none else scope
        rel := if ordOf w == 1 then none else scope
        dst := 0 }
      .next ((s.enter { x with fn := kind }).laneDone w.sw)) s

/-! ### ATOM and ATOMR (R248-R252) -/

/-- The operand bytes of a lane: v, or cmp and then v (R250). An affine code gives base + L × stride, lane by lane, as R24 reads it (DEDUCED;
log 94). -/
def LaneEnv.operand (e : LaneEnv) (w : LaneWord) (l : Nat) : List Byte :=
  if isVec w.d then (List.range (atomRegs w.fn)).flatMap fun i => toBytes (e.g.vreg (w.d.toNat + i) l).toNat 4
  else toBytes (e.raw w.d e.head.capC l).toNat 4

/-- The atomic entries of the good lanes. -/
def State.atomEnts (s : State) (op : Nat) (e : LaneEnv) (w : LaneWord) (good : List Nat) (returns : Bool) : List Entry :=
  let width := atomBytes w.fn
  (packets (good.map fun l => ⟨l, e.addr w width l, width, e.operand w l, 0⟩)).map fun ps =>
    let x := s.laneEnt op w .gAtomic ps
    ({ x with dstN := if returns then width / 4 else 0, trk := returns && trkOf w }).marked w

/-- ATOM. -/
def execAtom (w : LaneWord) (s : State) : Out :=
  let width := atomBytes w.fn
  memIssue 0x5E w (vecWin w.d (atomRegs w.fn) ++ addrWins w)
    (fun s =>
      let e := s.laneEnv w
      let (fails, good) := s.laneChecks e w .atomic width width width
      .next (s.issueMem fails w.sw (s.atomEnts 0x5E e w good false))) s

/-- ATOMR, with or without an escort set. -/
def execAtomr (w : LaneWord) (s : State) : Out :=
  let width := atomBytes w.fn
  let escorts := w.c.toNat != 736
  memIssue 0x5F w (vecWin w.d (atomRegs w.fn) ++ addrWins w ++ (if escorts then vecWin w.c (escCount w) else []))
    (fun s =>
      let e := s.laneEnv w
      let (fails, good) := s.laneChecks e w .atomic width width width
      let es := s.atomEnts 0x5F e w good true
      if escorts then s.escorted e w fails good width (es.map fun x => { x with trk := true })
      else .next (s.issueMem fails w.sw es)) s

end Sys2Proof.Machine
end

