-- ==== Sys2Proof/Machine/Reduce.lean ====
section
/-! DEFINITION. The operators of atomics and of XRED (R131, R249). -/

namespace Sys2Proof.Machine

/-- A sum of two f32 patterns, rounded nearest-even (R131, R249). -/
def addF32 (a b : Nat) : Nat := f32.roundWord 0 ((f32.decode a).add (f32.decode b) false)

/-- A sum of two pairs of b16, each half rounded nearest-even. -/
def addB16x2 (a b : Nat) : Nat :=
  let half (x y : Nat) : Nat := b16.roundWord 0 ((b16.decode x).add (b16.decode y) false)
  half (a % 65536) (b % 65536) + 65536 * half (a / 65536) (b / 65536)

/-- The smaller or larger of two words, signed or not. -/
def pickWord (signed larger : Bool) (a b : Nat) : Nat :=
  let v (x : Nat) : Int := if signed then signedNat 32 x else x
  if larger then (if v a < v b then b else a) else (if v b < v a then b else a)

/-- The new value in memory of an atomic (R249): `v` is the operand, or cmp and v for .cas. -/
def atomNew (fn old v cmp : Nat) : Nat :=
  match fn with
  | 0 => (old + v) % 2 ^ 32
  | 1 => (old + v) % 2 ^ 32
  | 2 => addF32 old v
  | 3 => addB16x2 old v
  | 4 => pickWord true false old v
  | 5 => pickWord true true old v
  | 6 => pickWord false false old v
  | 7 => pickWord false true old v
  | 8 => old &&& v
  | 9 => old ||| v
  | 10 => old ^^^ v
  | 11 => v
  | 12 => if old == cmp then v else old
  | 13 => if v ≤ old then 0 else old + 1
  | 14 => v
  | _ => if old == cmp then v else old

/-- min.f32 and max.f32 of XRED: a NaN input gives the canonical NaN (R131). -/
def redF32 (larger : Bool) (a b : Nat) : Nat :=
  if (f32.decode a).isNan || (f32.decode b).isNan then f32.canonNan
  else if larger then f32.maxBits2 a b else f32.minBits a b

/-- op of XRED (R131). -/
def xredOp (op a b : Nat) : Nat :=
  match op with
  | 0 => (a + b) % 2 ^ 32
  | 1 => (a + b) % 2 ^ 32
  | 2 => addF32 a b
  | 3 => addB16x2 a b
  | 4 => pickWord true false a b
  | 5 => pickWord true true a b
  | 6 => redF32 false a b
  | 7 => redF32 true a b
  | 8 => a &&& b
  | 9 => a ||| b
  | _ => a ^^^ b

/-- tree(lo, n) of R131 over the rows of a list, with fuel for its depth. -/
def xredTree (op : Nat) : Nat → List Nat → Nat
  | 0, l => l.headD 0
  | k + 1, l =>
    if l.length ≤ 1 then l.headD 0
    else
      let h := (l.length + 1) / 2
      xredOp op (xredTree op k (l.take h)) (xredTree op k (l.drop h))

/-- The reduced value of one element from its rows and, under ACC, the destination's value (R131). A single f32 or b16
row passes through unchanged. -/
def xredValue (op order : Nat) (acc : Option Nat) (rows : List Nat) : Nat :=
  if order == 0 then
    match acc, rows with
    | some d, rs => rs.foldl (xredOp op) d
    | none, r :: rs => rs.foldl (xredOp op) r
    | none, [] => 0
  else
    let x := xredTree op 17 rows
    match acc with
    | some d => xredOp op d x
    | none => x

end Sys2Proof.Machine
end

