-- ==== Sys2Proof/Machine/FieldSteps.lean ====
section
/-! DEFINITION. The steps of the Field Machine: requests at the owner, commits, performs, atomics, loads that complete,
fills, drops, probes and timeouts (R43, R117, R156, R158, R248, R251, R265-R269). -/

namespace Sys2Proof.Machine

/-! ### Requests at the owner (R43) -/

/-- The owner answers an entry's request, once its channel has served it and it has crossed Traverse where it must: a key, or the fault
of its first failing check (R43, R96, R102). -/
def State.answer (s : State) (e : Entry) : State :=
  match (s.brought e).ownerCheck e.ctx e.lease e.access (noPath e.line) with
  | (.ok (key, _), s) => s.setEnt { e with resp := .ok key s.tick }
  | (.error f, s) => s.setEnt { e with resp := .bad ⟨f.1, f.2, e.firstAddr⟩ s.tick }

/-- A hint reaches the die that its address names, and is on its way no longer (R76). -/
def State.hintArrives (s : State) (e : Entry) : State :=
  (((s.noteServed e).leave (dieOfCore e.ag.core) e.line 0).dropEnt e.id).modDie (ownerOf e.line) fun d =>
    { d with hints := d.hints ++ [⟨e.ctx, e.launch, e.firstAddr, e.fn⟩] }

/-! ### Landing (R158, R161, R266) -/

/-- Register writes into a group. -/
def Group.putWrites (g : Group) (ws : List RegWrite) : Group := ws.foldl (fun g x => g.setV x.1 x.2.1 x.2.2) g

/-- A scalar result reaches every split that counts the access as its own (R264, R279). -/
def Group.putScalar (g : Group) (e : Entry) (vs : List (Nat × Word)) : Group :=
  g.live8.foldl (fun g n =>
    if e.own (g.split n).uid then g.setSplit n (vs.foldl (fun sp v => sp.setS v.1 v.2) (g.split n)) else g) g

/-- The writes that bring an escort set back (R158). -/
def Escort.writes (x : Escort) : List RegWrite :=
  (List.range x.count).flatMap fun i => lanes.map fun l => (x.base + i, l, Tab.get 0 x.rows (32 * i + l))

/-- The entry's reply lands: its escort set comes back, then its results are written, and the entry is gone (R158). -/
def State.land (s : State) (e : Entry) (ws : List RegWrite) (vs : List (Nat × Word)) : State :=
  let old := s
  let s := s.dropEnt e.id
  let here := (s.group e.ag.core e.ag.slot).live && (s.group e.ag.core e.ag.slot).tag == e.tag
  let s := match e.esc with
    | some x => if here then s.useRows e.ag.core e.ag.slot e.ctx x.base x.count else s
    | none => s
  let set := (e.esc.map Escort.writes).getD []
  let s := s.modHolder e fun g => ((g.putWrites set).putWrites ws).putScalar e vs
  s.reimage old e ((set ++ ws).map (·.1)).eraseDups

/-- An acquire completes with the last packet of its word (R269). -/
def State.acqDone (s : State) (e : Entry) : State :=
  match e.acq with
  | some scope => if s.ents.any fun x => x.wid == e.wid && x.acq.isSome then s else s.acquireDrop e.ag.core scope
  | none => s

/-- A reply lands that carries a fault: the escort set comes back, and nothing is read or written (R158, R251). -/
def State.landBad (s : State) (e : Entry) : State := (s.land e [] []).dropFloors e.id

/-- A packet of an entry's word whose reply carries a fault, and is the one that its cluster's channel serves next (R99). -/
def State.nextBad (s : State) (e : Entry) : Option HeldFault :=
  s.ents.findSome? fun x =>
    match x.resp with
    | .bad f _ => if x.wid == e.wid && s.replyNext x then some ⟨x, f⟩ else none
    | _ => none

/-- The replies of an entry's word that carry faults land while one of them comes next, `k` of them at most: their reports, and the state. -/
def landBads : Nat → State → Entry → List HeldFault × State
  | 0, s, _ => ([], s)
  | k + 1, s, e =>
    match s.nextBad e with
    | none => ([], s)
    | some h =>
      match landBads k ((if translated h.entry.path then s.noteReply h.entry.writer h.entry.line else s).landBad h.entry) e with
      | (hs, s) => (h :: hs, s)

/-- A reply carries a fault: the lanes of every packet of the word whose reply carries a fault, and comes in turn with this one, park together
(R99, R158, R251, R312, R315). -/
def State.landFault (s : State) (e : Entry) (f : Fail) : State :=
  match landBads s.ents.length (s.landBad e) e with
  | (hs, t) => ((t.faultEnts e ((⟨e, f⟩ :: hs).map fun h => { h with entry := { h.entry with esc := none } })).reimage t e []).acqDone e

/-! ### Loads (R266) -/

/-- What each part of a load takes: none where the home cannot be read, and the bytes it is bound to where it is (R10). -/
def State.taken (s : State) (e : Entry) : List (Part × Option (List Taken)) :=
  e.parts.map fun p => (p, if e.bound then some (p.data.map fun b => ⟨b, .home 0⟩) else s.takePart e p)

/-- The scalar result of an entry from its bytes. -/
def Entry.scalarOut (e : Entry) (bs : List Byte) : List (Nat × Word) :=
  match e.sdst with
  | some d => [(d, BitVec.ofNat 32 (ofBytes bs))]
  | none => []

/-- The parts of a load that its fault keeps from landing: those that cannot be read, and all of a line of which one cannot (R239,
R244). -/
def lostParts (e : Entry) (ts : List (Part × Option (List Taken))) : List Part :=
  let bad := (ts.filter fun x => x.2.isNone).map (·.1)
  if e.wholeSplit && !bad.isEmpty then e.parts else bad

/-- A load's reply brings bytes from the home (R99, R266). -/
def State.fromHome (s : State) (e : Entry) : Bool :=
  !e.bound && translated e.path
  && e.parts.any fun p => (List.range p.width).any fun i => (s.nearByte e (p.addr + BitVec.ofNat 64 i) (s.mustGoHome e)).isNone

/-- A load completes (R266): its home slice holds the line that it brings (R116), its good lanes land, and a lane whose line is poisoned parks (R64). -/
def State.completeLoad (s : State) (e : Entry) : State :=
  let ts := s.taken e
  let bad := lostParts e ts
  let got := ts.filterMap fun x => if bad.contains x.1 then none else x.2.map fun t => (x.1, t)
  let ws := if e.dstN == 0 then [] else got.flatMap fun x => e.writesOf x.1 (x.2.map (·.byte))
  let vs := (got.head?.map fun x => e.scalarOut (x.2.map (·.byte))).getD []
  let s := match e.resp with
    | .ok key _ => if bad.isEmpty && !s.fromHome e then s else (s.homeRead e.ctx (noPath e.line) key 1).2
    | _ => s
  let s := if translated e.path then s.touchCopy e.ag.core (classOf e.path) e.ctx (lineOf (noPath e.line)) else s
  let s := (if e.bound then s else (s.noteFloors e got).bindTwins e (got.map fun x => (x.1, x.2.map (·.byte)))).land e ws vs
  let s := match bad with
    | [] => s
    | p :: _ => (s.faultEnt { e with parts := bad, esc := none } ⟨.poison, .none, p.addr⟩).reimage s e []
  s.acqDone e

/-- A prefetch is answered: with a clean copy of its line, or by the line in its home slice alone; a fault brings nothing (R60, R116, R245). -/
def State.completePrefetch (s : State) (e : Entry) : State :=
  let s := s.dropEnt e.id
  match e.resp with
  | .ok key _ =>
    if e.fn == 0 then s.fill e.ag.core (classOf e.path) e.ctx e.line else (s.homeRead e.ctx (noPath e.line) key 1).2
  | _ => s

/-- A reply may land, in the order in which its home sent its replies to the cluster and the cluster's channel serves what waits
(R96, R97, R99, R266, R269). -/
def State.replyOk (s : State) (e : Entry) : Bool :=
  match e.resp with
  | .none => false
  | .bad _ _ => s.replyNext e
  | .ok _ _ =>
    match e.kind with
    | .load => s.completeOk e && !s.probeWaits e && (!s.fromHome e || s.replyNext e)
    | .gAtomic => 0 < e.level && s.replyNext e
    | .prefetch => s.replyNext e
    | _ => false

/-- A reply lands (R158, R266). -/
def State.reply (s : State) (e : Entry) : State :=
  let s := if translated e.path && (e.kind != .load || s.fromHome e) then s.noteReply e.writer e.line else s
  if e.kind == .prefetch then s.completePrefetch e
  else
    match e.resp with
    | .bad f _ => s.landFault e f
    | _ =>
      if e.kind == .gAtomic then
        (s.land e (if e.dstN == 0 then [] else e.parts.flatMap fun p => e.writesOf p p.data) []).acqDone e
      else s.completeLoad e

/-- The home meets a fault where it serves an entry: its reply is sent now, and lands at once where it may (R43, R96, R99). -/
def State.answerBad (s : State) (e : Entry) (f : Fail) : State :=
  let e := { e with resp := .bad f s.tick }
  let s := s.setEnt e
  if s.replyOk e then s.reply e else s

/-! ### Stores (R265) -/

/-- Runs of bytes at consecutive offsets. -/
def runsFrom : List (Option Byte) → Nat → List (Nat × List Byte)
  | [], _ => []
  | b :: rest, i =>
    match b, runsFrom rest (i + 1) with
    | none, r => r
    | some x, (j, bs) :: r => if j == i + 1 then (i, x :: bs) :: r else (i, [x]) :: (j, bs) :: r
    | some x, [] => [(i, [x])]

/-- The runs of bytes that an entry stores to its line (R240). -/
def Entry.runs (e : Entry) : List (Nat × List Byte) :=
  let base := e.spot e.line
  runsFrom ((List.range 128).map fun i => e.byteAt (base + i)) 0

/-- A release log forgets a performed entry (R269). -/
def State.logPerformed (s : State) (id : Nat) : State :=
  { s with relLog := (s.relLog.map fun r => { r with covers := r.covers.filter (· != id) }).filter fun r => !r.covers.isEmpty }

/-- Writes the bytes of an entry at its home, and what the core's clean copies hold of them; false for poison (R64, R80, R117, R266). -/
def State.putRuns (s : State) (e : Entry) (key : Nat) (rel : Option Nat) : Bool × State :=
  let n := s.wseq
  match e.runs.foldl (fun (p : Bool × State) r =>
    if p.1 then
      let va := noPath e.line + BitVec.ofNat 64 r.1
      match p.2.homePut e.ctx va (key + r.1) r.2 rel with
      | (true, s) => (true, s.updateCopies e.ag.core e.ctx va r.2 (s.wseq - 1))
      | (false, s) => (false, s)
    else p) (true, s) with
  | (false, s) => (false, s)
  | (true, s) => (true, (s.chargeMirror e.ctx (noPath e.line) key e.payload).settleFloors e.id n)

/-- A generic store is performed at its home; poison parks its lanes (R64, R265, R269). -/
def State.performStore (s : State) (e : Entry) (key : Nat) : State :=
  match s.putRuns e key (if e.rel == some 0 then some e.ag.core else none) with
  | (false, s) => s.answerBad e ⟨.poison, .none, e.firstAddr⟩
  | (true, s) => (s.logPerformed e.id).dropEnt e.id

/-- A scratch store is performed at its bank; a lane that meets a live phaser, or a line that does, writes nothing and parks (R244, R255,
R265). -/
def State.performBank (s : State) (e : Entry) : State :=
  match s.clobbers e with
  | [] => s.performScratch e
  | p :: ps =>
    ((s.dropFloors e.id).bankWrite e (e.parts.filter fun q => !(p :: ps).contains q)).faultEnt { e with parts := p :: ps }
      ⟨.phaserClobber, .none, p.addr⟩

/-- A system store is performed at its target (log 15). -/
def State.performSystem (s : State) (e : Entry) : State :=
  let s := e.parts.foldl (fun s p =>
    let k := sysKey (bitsNat p.addr.toNat 47 0)
    ({ s with mem := s.mem.writeN k p.data }).stampKeys ((List.range p.data.length).map (k + ·))) s
  s.dropEnt e.id

/-- A system load is performed at its target and returns its value. -/
def State.performSysLoad (s : State) (e : Entry) : State :=
  let ps := if e.bound then e.parts else e.parts.map s.systemPart
  let ws := if e.dstN == 0 then [] else ps.flatMap fun p => e.writesOf p p.data
  let vs := (ps.head?.map fun p => e.scalarOut p.data).getD []
  (s.bindTwins e (ps.map fun p => (p, p.data))).land e ws vs

/-! ### Atomics (R248-R251) -/

/-- The die whose service group performs an atomic, and whose key it works under: the holder of the frame, or the owner for a page in
transit (R66, R83, R248). -/
def State.atomDie (s : State) (ctx : Nat) (va : DWord) (key : Nat) : Nat :=
  if (s.transitOf ctx va).isSome then ownerOf va else key / 2 ^ 50

/-- One lane of an atomic at the home: the old bytes, or none for poison. -/
def State.atomLane (s : State) (e : Entry) (key : Nat) (p : Part) : Option (List Byte) × State :=
  let va := noPath p.addr
  let k := e.keyAt key p.addr
  let di := s.atomDie e.ctx va k
  match s.homeReadBy di e.ctx va k p.width with
  | (none, s) => (none, s)
  | (some old, s) =>
    let cmp := ofBytes (p.data.take p.width)
    let v := if e.fn == 12 || e.fn == 15 then ofBytes (p.data.drop p.width) else cmp
    let (_, s) := s.homePutBy di e.ctx va k (toBytes (atomNew e.fn (ofBytes old) v cmp) p.width) none
    (some old, s)

/-- The lanes of an atomic in increasing order: the parts with their old bytes, or none for poison. -/
def atomLanes (e : Entry) (key : Nat) : List Part → State → Option (List Part) × State
  | [], s => (some [], s)
  | p :: ps, s =>
    match s.atomLane e key p with
    | (none, s) => (none, s)
    | (some old, s) =>
      match atomLanes e key ps s with
      | (none, s) => (none, s)
      | (some qs, s) => (some ({ p with data := old } :: qs), s)

/-- The home writes of the bytes that an atomic has written in one lane. -/
def State.atomWrites (s : State) (e : Entry) (key : Nat) (p : Part) : List Taken :=
  (List.range p.width).map fun i =>
    let a := p.addr + BitVec.ofNat 64 i
    ⟨0, .home (Tab.get 0 s.bver (s.serve e.ctx (noPath a) (e.keyAt key a)).1)⟩

/-- An atomic's splits read nothing of its bytes from then on that is older than its write (R265, R266, R270). -/
def State.atomFloors (s : State) (e : Entry) (key : Nat) : State :=
  s.noteFloors e (e.parts.map fun p => (p, s.atomWrites e key p))

/-- The service group takes an atomic packet (R248); `err` is an uncorrectable error between its read and its write
(R251, log 14). -/
def State.serviceAtomic (s : State) (e : Entry) (key : Nat) (err : Bool) : State :=
  let poison := ⟨.poison, .none, e.firstAddr⟩
  let n := s.wseq
  if err then (s.poisonServed e.ctx (noPath e.line) key).answerBad e poison
  else
    match atomLanes e key e.parts s with
    | (none, s) => s.answerBad e poison
    | (some ps, s) =>
      let s := ((s.settleFloors e.id n).atomFloors e key).chargeMirror e.ctx (noPath e.line) key 128
      if e.dstN == 0 then (s.dropEnt e.id).acqDone e
      else s.setEnt { e with parts := ps, level := s.wseq, resp := .ok key s.tick }

/-- SERVICE_GROUP_ATOMIC; an acquire with .prom waits for its promote probe first, which the write would make void (R252, R269). -/
def execServiceGroupAtomic (id : Nat) (err : Bool) (s : State) : Out :=
  match s.ent id with
  | some e =>
    match e.kind, e.resp with
    | .gAtomic, .ok key _ => if s.performOk e && !s.probeWaits e then .next (s.serviceAtomic e key err) else hold s
    | _, _ => hold s
  | none => hold s

/-- Performs a memory entry that may be performed (R265). -/
def State.performMem (s : State) (e : Entry) : State :=
  match e.kind, e.resp with
  | .gStore, .ok key _ => s.performStore e key
  | .gAtomic, .ok key _ => if s.probeWaits e then s else s.serviceAtomic e key false
  | .sStore, _ => s.performBank e
  | .cStore, _ => s.performBank e
  | .yStore, _ => s.performSystem e
  | .yLoad, _ => s.performSysLoad e
  | _, _ => s

/-- COMMIT. -/
def execCommit (id : Nat) (s : State) : Out :=
  match s.ent id with
  | some e => if s.commitOk e then .next (s.commitEnt e) else hold s
  | none => hold s

/-! ### Sending a line at once (R117, R269, R273, R330) -/

/-- One entry's whole way to its home, when it may be performed: its request, and then its perform or its fault. -/
def State.pushEnt (s : State) (id : Nat) : State :=
  match s.ent id with
  | none => s
  | some e =>
    if !s.performOk e then s
    else
      let s := s.injectAll
      let s := match s.ent id with
        | some e => if s.requestOk e then s.answer e else s
        | none => s
      match s.ent id with
      | none => s
      | some e =>
        match e.resp with
        | .bad _ _ => if s.replyOk e then s.reply e else s
        | _ => s.performMem e

/-- Pushes entries in order of identity. -/
def State.pushAll (s : State) (ids : List Nat) : State := ids.foldl State.pushEnt s

/-- L1_STORE_TIMEOUT: L1 sends the unsent bytes of a line (R117). -/
def execL1StoreTimeout (core : Nat) (va : DWord) (s : State) : Out :=
  .next (s.pushAll ((s.ents.filter fun e =>
    e.kind == .gStore && 0 < e.level && e.ag.core == core && noPath e.line == lineOf (noPath va)).map (·.id)))

/-- The entries that the releases of a line on a core cover, with what stands before them in their FIFOs (R269). -/
def State.covered (s : State) (core line : Nat) : List Nat :=
  let logs := s.relLog.filter fun r => r.core == core && r.key == line
  let ids := logs.flatMap (·.covers)
  (s.ents.filter fun e =>
    e.inG && ids.any fun i =>
      match s.ent i with
      | some c => e.id ≤ i && c.owners.any fun u => e.own u
      | none => false).map (·.id)

/-- PROMOTE_PROBE: the releaser's responder performs what its releases of the line cover, and answers when it is done. -/
def execPromoteProbe (id : Nat) (s : State) : Out :=
  match s.ent id with
  | none => hold s
  | some e =>
    if !s.probeWaits e then hold s
    else
      match s.servedLine e with
      | some k =>
        match (s.line k).releaser with
        | none => hold s
        | some c =>
          let line := (noPath e.line).toNat
          let s := s.pushAll (s.covered c line)
          if (s.covered c line).isEmpty then .next (s.setEnt { e with probed := some (s.lineVer k) }) else .next s
      | none => hold s

/-! ### Copies (R118, R265) -/

/-- FILL: a core's own request for a line, which for another node needs the context's key on the core's die (R98, R102, R106). -/
def execFill (core : Nat) (cls : PathClass) (ctx : Nat) (va : DWord) (s : State) : Out :=
  if s.keyedFor (dieOfCore core) ctx va && s.homeReady ctx (noPath va) && s.coreMayAsk core ctx none .load va then
    .next ((s.coreAsk core ctx none .load va).fill core cls ctx va)
  else hold s

/-- DROP. -/
def execDrop (core : Nat) (cls : PathClass) (ctx : Nat) (va : DWord) (s : State) : Out :=
  .next { s with copies := s.copies.filter fun c =>
    !(c.core == core && c.cls == cls && c.ctx == ctx && c.line == lineOf (noPath va)) }

/-! ### Escorts that wait (R156) -/

/-- ESCORT_DEPART: a word that waits for its budget departs as soon as R154 holds. -/
def execEscortDepart (ag : Agent) (s : State) : Out :=
  if s.laneReady ag && escortWaits s ag then
    let s' := { s with cur := ag, curLane := true }
    let bits := (s.headOf ag).word
    let w := laneFields bits
    if (bits.extractLsb' 88 7).toNat == 0x5A then execLde w s' else execAtomr w s'
  else hold s

end Sys2Proof.Machine
end

