-- ==== Sys2Proof/Machine/Phaser.lean ====
section
/-! DEFINITION. Phasers: the object, its arrivals and phases, and the words PHINIT, PHROLE, PHARR, PHWAIT and PHFREE
(R253-R261, R272). -/

namespace Sys2Proof.Machine

/-! ### The object (R253) -/

/-- The fields of a phaser object. -/
structure PhObj where
  ph    : Word
  nsig  : Nat
  arr   : Nat
  nwait : Nat
  dsig  : Int
  dwait : Int
  scope : Nat
  wpend : Nat
  live  : Bool
deriving DecidableEq, Repr

/-- The object of 128 bits. -/
def objOf (n : Nat) : PhObj :=
  ⟨BitVec.ofNat 32 (bitsNat n 127 96), bitsNat n 95 84, bitsNat n 83 72, bitsNat n 71 60, signedNat 8 (bitsNat n 59 52),
   signedNat 8 (bitsNat n 51 44), bitsNat n 43 41, bitsNat n 19 8, bitNat n 0⟩

/-- The 128 bits of an object. -/
def PhObj.bits (o : PhObj) : Nat :=
  o.ph.toNat * 2 ^ 96 + o.nsig % 4096 * 2 ^ 84 + o.arr % 4096 * 2 ^ 72 + o.nwait % 4096 * 2 ^ 60 + wrapNat 8 o.dsig * 2 ^ 52
  + wrapNat 8 o.dwait * 2 ^ 44 + o.scope * 2 ^ 41 + o.wpend % 4096 * 2 ^ 8 + b2n o.live

/-- The object at a place. -/
def State.obj (s : State) (core off : Nat) : PhObj := objOf (s.objBits core off)

/-- A live object stands at a place (R253). -/
def State.objLive (s : State) (core off : Nat) : Bool := (s.core core).phasers.any fun p => p.off == off

/-- Writes the object at a place. -/
def State.setObj (s : State) (ctx core off : Nat) (o : PhObj) : State := s.putObjBits ctx core off o.bits

/-! ### Arrivals and phases (R254) -/

/-- The object after one arrival, and whether its phase has completed. -/
def PhObj.arrive (o : PhObj) : PhObj × Bool :=
  if o.arr + 1 == o.nsig then
    ({ o with ph := o.ph + 1, arr := 0, nsig := (o.nsig + o.dsig).toNat, nwait := (o.nwait + o.dwait).toNat, dsig := 0, dwait := 0 },
     true)
  else ({ o with arr := o.arr + 1 }, false)

/-- The splits that wait at an object, with their waits. -/
def State.waitersAt (s : State) (core off : Nat) : List (Agent × Nat × Word) :=
  s.liveGroups.flatMap fun p =>
    p.2.2.live8.filterMap fun n =>
      match (p.2.2.split n).wait with
      | .phaser c o d t => if c == core && o == off then some (⟨p.1, p.2.1, n⟩, d, t) else none
      | _ => none

/-- A PHWAIT completes for a split: S[D] := PH, the flag is cleared, the split goes on, and the wait is an acquire (R259). -/
def State.waitDone (s : State) (ag : Agent) (d : Nat) (ph : Word) (scope : Nat) : State :=
  let sbase := (s.groupOf ag).sbase
  let s := s.modSplit ag fun sp =>
    { ((({ sp with wait := .none }).setS d ph).setFlag false).fallTo sbase (sp.spc + 4) with ageS := s.tick }
  s.acquireDrop ag.core scope

/-- PHASE_COMPLETE: the waits whose target is now before PH complete (R254). -/
def State.completeWaits (s : State) (ctx core off : Nat) : State :=
  (s.waitersAt core off).foldl (fun s w =>
    let o := s.obj core off
    if before32 w.2.2 o.ph then
      (s.setObj ctx core off { o with wpend := o.wpend - 1 }).waitDone w.1 w.2.1 o.ph o.scope
    else s) s

/-- The phaser unit applies an arrival (R254). -/
def State.applyArrival (s : State) (ctx core off : Nat) : State :=
  let (o, complete) := (s.obj core off).arrive
  let s := s.setObj ctx core off o
  if complete then s.completeWaits ctx core off else s

/-! ### Checks of the words (R256-R260, R272) -/

/-- The place that a phaser word's address names: its core and its offset in the core's scratchpad. `own` asks for the
issuing unit's own partition (R256). -/
def State.phaserPlace (s : State) (va : DWord) (own : Bool) : Except Fail (Nat × Nat) :=
  if va.toNat % 16 != 0 then .error ⟨.align, .none, va⟩
  else if pathOf va != 2 && pathOf va != 3 then .error ⟨.path, .none, va⟩
  else
    match s.requesterCheck s.curGroup s.cur.core .lane va 16 16 with
    | some f => .error ⟨f.1, f.2, va⟩
    | none =>
      match (s.unitOf s.curGroup).bind fun u => s.scratchUnit u va with
      | none => .error ⟨.path, .none, va⟩
      | some t => if own && t.core != s.cur.core then .error ⟨.path, .none, va⟩ else .ok (t.place va)

/-- The split's earlier accesses that a phaser word stands behind: an incomplete fence or acquire (R247, R269). -/
def State.phaserWaits (s : State) : Bool :=
  s.fenced s.curSplit.uid || (s.ownEnts s.curSplit.uid).any fun e => e.acq.isSome

/-- The split's release of a scope is enabled: its loads have landed, its array words have read their rows, and its stores are visible
at the scope (R221, R268). -/
def State.released (s : State) (scope : Nat) : Bool :=
  relClear (s.ownEnts s.curSplit.uid) scope && !s.curGroup.rowsDue s.curSplit.uid

/-- A phaser word at issue: its operands are checked, then its place (R36), and `go` runs at it. -/
def phaserPlaced (reads : List Nat) (a : BitVec 6) (own : Bool) (ok : Split → Bool) (go : Nat → Nat → State → Out) (s : State) : Out :=
  scalarWord (pairOk a) (pairReads a ++ reads)
    (fun s =>
      if s.phaserWaits then hold s
      else if !ok s.curSplit then illegalOperand s
      else
        match s.phaserPlace (s.curSplit.spair a.toNat) own with
        | .error f => .next (s.scalarFault f)
        | .ok (core, off) => go core off s) s

/-- A phaser word that orders memory: the lane words enqueued before it issue first (R263). -/
def phaserWord (reads : List Nat) (a : BitVec 6) (own : Bool) (ok : Split → Bool) (go : Nat → Nat → State → Out) (s : State) : Out :=
  phaserPlaced reads a own ok (fun core off s => if s.curSplit.queue.isEmpty then go core off s else hold s) s

/-- Accesses of the split to the object's bytes that have not been performed (R256). -/
def State.objBusy (s : State) (core off : Nat) : Bool :=
  (s.ownEnts s.curSplit.uid).any fun e =>
    (e.kind == .sStore || e.kind == .cStore || e.kind == .load)
    && (List.range 16).any fun i => e.covers (scrKey core off + i)

/-! ### The words -/

/-- The configuration of PHINIT is in its ranges (R256). -/
def initOk (x : Word) : Bool :=
  let n := x.toNat
  1 ≤ bitsNat n 11 0 && bitsNat n 26 24 ≤ 4 && bitsNat n 31 27 == 0

/-- PHINIT. -/
def execPhinit (a b : BitVec 6) (s : State) : Out :=
  phaserWord [b.toNat] a true (fun sp => initOk (sp.sreg b.toNat))
    (fun core off s =>
      let x := s.curSplit.sreg b.toNat
      let n := x.toNat
      let c := s.core core
      let limit := ((s.unitOf s.curGroup).map (·.phn)).getD 0
      if s.objLive core off then illegalOperand s
      else if s.objBusy core off then hold s
      else if limit ≤ (c.phasers.filter fun p => p.unit == s.curGroup.unit).length || Config.phasersPerCore ≤ c.phasers.length then
        s.finish fun sp => sp.setFlag true
      else
        let o : PhObj := ⟨0, bitsNat n 11 0, 0, bitsNat n 23 12, 0, 0, bitsNat n 26 24, 0, true⟩
        let s := s.setCore core { c with phasers := c.phasers ++ [⟨s.curGroup.unit, off⟩] }
        (s.setObj s.curGroup.ctx core off o).finish fun sp => sp.setFlag false) s

/-- sig(r) of R257. -/
def roleSig (r : BitVec 2) : Int := if r == 1 || r == 3 then 1 else 0

/-- wait(r) of R257. -/
def roleWait (r : BitVec 2) : Int := if r == 2 || r == 3 then 1 else 0

/-- The object after PHROLE; none when the change is refused (R257). -/
def PhObj.role (o : PhObj) (src dst : BitVec 2) : Option PhObj :=
  let x := o.dsig + roleSig dst - roleSig src
  let y := o.dwait + roleWait dst - roleWait src
  if 1 ≤ o.nsig + x && o.nsig + x ≤ 4095 && 0 ≤ o.nwait + y && o.nwait + y ≤ 4095 && -128 ≤ x && x ≤ 127 && -128 ≤ y && y ≤ 127
  then some { o with dsig := x, dwait := y } else none

/-- An arrival, a change of role or a wait (`op` 0, 1, 2) that goes to another core's phaser unit; `fn` holds PHROLE's
roles, and the address of a PHWAIT is kept (R258, R259). -/
def State.remoteEnt (s : State) (op fn : Nat) (sdst : Option Nat) (va : DWord) : Entry :=
  { s.newEnt .arrive (pathOf va) (lineOf va) [⟨0, va, 16, []⟩] with
    op := op, fn := fn, sdst := sdst, resp := s.keyHere s.curGroup (lineOf va), retry := s.curSplit.lastTry,
    lpc := s.offset s.curSplit.spc }

/-- A phaser unit refuses a word: at once on the own core, and by its reply on another (R256-R259, R312). -/
def phaserRefuses (core : Nat) (e : Entry) (s : State) : Out :=
  if core == s.cur.core then illegalOperand s
  else
    let id := s.nextId
    .next (((s.enter e).advance).faultEnt { e with id := id, wid := id } ⟨.illegalOperand, .none, e.firstAddr⟩)

/-- The object after a change of role at a phaser unit; none when it is refused (R257). -/
def State.roleAt (s : State) (core off fn : Nat) : Option PhObj :=
  if s.objLive core off then (s.obj core off).role (BitVec.ofNat 2 (fn / 4)) (BitVec.ofNat 2 fn) else none

/-- PHROLE. -/
def execPhrole (a : BitVec 6) (src dst : BitVec 2) (s : State) : Out :=
  phaserPlaced [] a false (fun _ => true)
    (fun core off s =>
      let fn := 4 * src.toNat + dst.toNat
      match s.roleAt core off fn with
      | some o => .next (s.setObj s.curGroup.ctx core off o).advance
      | none => phaserRefuses core (s.remoteEnt 1 fn none (s.curSplit.spair a.toNat)) s) s

/-- PHARR: the release, and then the arrival; an arrival on another core's object crosses the network as an entry. -/
def execPharr (d a : BitVec 6) (s : State) : Out :=
  phaserWord [] a false (fun _ => true)
    (fun core off s =>
      let o := s.obj core off
      let va := s.curSplit.spair a.toNat
      if core == s.cur.core && !s.objLive core off then illegalOperand s
      else if !s.released o.scope then hold s
      else if core == s.cur.core then
        (s.applyArrival s.curGroup.ctx core off).finish fun sp => sp.setS d.toNat o.ph
      else
        .next (s.enter (s.remoteEnt 0 0 (some d.toNat) va)).advance) s

/-- PHASER_ARRIVE: an arrival that crossed the cluster's network reaches its object (R258), or a change of role that is
tried again. One whose object has been freed meanwhile has been refused (`State.arrivalsLose`), and its reply lands (COMPLETE_LOAD). -/
def execPhaserArrive (id : Nat) (s : State) : Out :=
  match s.ent id with
  | none => hold s
  | some e =>
    match e.kind, e.resp with
    | .arrive, .ok key _ =>
      let k := e.keyAt key e.firstAddr - 2 ^ 62
      let core := k / 2 ^ 21
      let off := k % 2 ^ 21
      if e.op == 1 then
        match s.roleAt core off e.fn with
        | some o => .next ((s.setObj e.ctx core off o).land e [] [])
        | none => .next (s.landFault e ⟨.illegalOperand, .none, e.firstAddr⟩)
      else if !s.objLive core off then .next (s.landFault e ⟨.illegalOperand, .none, e.firstAddr⟩)
      else
        let ph := (s.obj core off).ph
        .next ((s.applyArrival e.ctx core off).land e [] ((e.sdst.map fun d => [(d, ph)]).getD []))
    | _, _ => hold s

/-- PHWAIT. -/
def execPhwait (d a b : BitVec 6) (try_ : Bool) (s : State) : Out :=
  phaserWord [b.toNat] a false (fun _ => true)
    (fun core off s =>
      let o := s.obj core off
      let t := s.curSplit.sreg b.toNat
      if !s.objLive core off then phaserRefuses core (s.remoteEnt 2 0 (some d.toNat) (s.curSplit.spair a.toNat)) s
      else if before32 t o.ph then .next (s.waitDone s.cur d.toNat o.ph o.scope)
      else if try_ then s.finish fun sp => (sp.setS d.toNat o.ph).setFlag true
      else
        let s := s.setObj s.curGroup.ctx core off { o with wpend := o.wpend + 1 }
        .next (s.modCur fun sp => { sp with wait := .phaser core off d.toNat t })) s

/-- PHFREE. -/
def execPhfree (a : BitVec 6) (s : State) : Out :=
  phaserWord [] a true (fun _ => true)
    (fun core off s =>
      let o := s.obj core off
      if !s.objLive core off then illegalOperand s
      else if 0 < o.wpend then s.finish fun sp => sp.setFlag true
      else
        let c := s.core core
        let s := s.setCore core { c with phasers := c.phasers.filter fun p => p.off != off }
        let s := (s.cardsLose s.curGroup.unit (off - ((s.unitOf s.curGroup).map (·.pbase)).getD 0)).arrivalsLose core off
        (s.setObj s.curGroup.ctx core off { o with live := false }).finish fun sp => sp.setFlag false) s

end Sys2Proof.Machine
end

