-- ==== Sys2Proof/Machine/Engine.lean ====
section
/-! DEFINITION. The cluster engines: job cards, the engine words, the elements of a job, the task scheduler's start and the
completion of a job (R123-R138, R271, R366). -/

namespace Sys2Proof.Machine

/-! ### The card's fields (R124, R125) -/

def Card.tl (c : Card) (hi lo : Nat) : Nat := bitsNat c.tail.toNat hi lo
def Card.kind (c : Card) : Nat := c.hdr 127 124
def Card.esize (c : Card) : Nat := 2 ^ c.hdr 123 122
def Card.mcast (c : Card) : Nat := c.hdr 115 108
def Card.scope (c : Card) : Nat := c.hdr 107 105
def Card.ev (c : Card) : Bool := c.hdr 104 104 == 1
def Card.acc (c : Card) : Bool := c.hdr 85 85 == 1
def Card.count (c : Card) : Nat := c.hdr 63 32
def Card.idxptr (c : Card) : DWord := BitVec.ofNat 64 (c.tl 127 64)
def Card.rows (c : Card) : Nat := c.tl 63 48
def Card.sstride (c : Card) : Nat := c.tl 47 24
def Card.dstride (c : Card) : Nat := c.tl 23 0

/-- Descriptor `n` of the card. -/
def Card.desc (c : Card) (n : Nat) : Desc := c.descs.getD n ⟨0, 0⟩

/-- Elements that the engines perform: for XRED, one for each destination element (R129). -/
def Card.elems (c : Card) : Nat := if c.kind == 1 then c.rows * c.count else c.count

/-- The header keeps R124 for an instruction of kind `k`. -/
def Card.headerOk (c : Card) (k : Nat) : Bool :=
  c.kind == k && (k != 4 || c.hdr 123 122 == 2) && (if k == 4 then c.hdr 121 120 < 2 && c.hdr 119 116 ≤ 10 else c.hdr 121 116 == 0)
  && (k == 1 || c.mcast == 0) && 1 ≤ c.scope && c.scope ≤ 4 && (c.phv || c.phoff == 0) && (k == 4 || !c.acc)
  && c.hdr 84 64 == 0 && c.hdr 15 0 == 0 && 1 ≤ c.count

/-- The index list lies inside D2 (R125). -/
def Card.listOk (c : Card) : Bool :=
  c.idxptr.toNat % 4 == 0 && (c.desc 2).base.toNat ≤ c.idxptr.toNat
  && c.idxptr.toNat + 4 * c.count ≤ (c.desc 2).base.toNat + (c.desc 2).bytes

/-- The tail keeps R125. -/
def Card.tailOk (c : Card) (k : Nat) : Bool :=
  let indexed := k == 2 || k == 3
  (if indexed then c.rows == 1 else 1 ≤ c.rows && c.idxptr == 0) && c.count * c.rows < 2 ^ 32
  && c.sstride % c.esize == 0 && c.dstride % c.esize == 0 && ((k != 2 && k != 4) || c.dstride == 0)

/-- A descriptor's word keeps R55 and R126, whether or not it is empty. -/
def Desc.wordOk (d : Desc) : Bool := d.gran < 5 && bitsNat d.word.toNat 23 0 == 0 && !d.a && !d.x

/-- A descriptor that is not empty keeps R55 and R126. -/
def Desc.cardOk (d : Desc) : Bool :=
  let path := pathOf d.base
  d.base.toNat % granBytes d.gran == 0
  && (path == 0 || ((path == 1 || path == 4)) || ((path == 2 || path == 3) && d.gran < 2))

/-- The four roles of R126: the shape of each descriptor. -/
def Card.rolesOk (c : Card) (k : Nat) : Bool :=
  let full (n : Nat) : Bool := 0 < (c.desc n).count
  let ro (d : Desc) : Bool := pathOf d.base == 1 || pathOf d.base == 4
  ((List.range 4).all fun n => (c.desc n).wordOk && (!full n || (c.desc n).cardOk))
  && full 0 && (c.desc 0).r
  && full 1 && (c.desc 1).w && !ro (c.desc 1) && (c.mcast == 0 || pathOf (c.desc 1).base == 2) && (!c.acc || (c.desc 1).r)
  && (if k == 2 || k == 3 then full 2 && (c.desc 2).r && c.listOk else !full 2)
  && (!full 3 || !ro (c.desc 3) || !(c.desc 3).w)

/-! ### Regions (R133) -/

/-- A byte range in the generic space, or in a core's partition. -/
structure Region where
  core : Option Nat
  lo   : Nat
  hi   : Nat
deriving DecidableEq, Repr

/-- Two regions overlap. -/
def Region.meets (a b : Region) : Bool := a.core == b.core && a.lo < b.hi && b.lo < a.hi

/-- The core that a scratch address names, for an issuing core. -/
def scratchCore (core : Nat) (va : DWord) : Nat :=
  if pathOf va == 2 then core else 8 * clusterOfCore core + bitsNat va.toNat 34 32

/-- The region of a descriptor for an issuing core. -/
def Desc.region (d : Desc) (core : Nat) : Region :=
  if pathOf d.base == 2 || pathOf d.base == 3 then
    let o := bitsNat d.base.toNat 31 0
    ⟨some (scratchCore core d.base), o, o + d.bytes⟩
  else ⟨none, d.start, d.start + d.bytes⟩

/-- The destination's regions: one for each target core of a multicast. -/
def Card.targets (c : Card) : List Region :=
  let r := (c.desc 1).region c.ag.core
  if c.mcast == 0 then [r]
  else (below 8 fun j => bitNat c.mcast j).map fun j => { r with core := some (8 * clusterOfCore c.ag.core + j) }

/-- The read regions of a card (R133). -/
def Card.reads (c : Card) : List Region :=
  ((List.range 4).filter fun n => 0 < (c.desc n).count && (c.desc n).r).map fun n => (c.desc n).region c.ag.core

/-- The write regions of a card (R133). -/
def Card.writes (c : Card) : List Region :=
  ((List.range 4).filter fun n => 0 < (c.desc n).count && (c.desc n).w).flatMap fun n =>
    if n == 1 then c.targets else [(c.desc n).region c.ag.core]

/-- A region of one list overlaps a region of another. -/
def anyMeets (a b : List Region) : Bool := a.any fun x => b.any x.meets

/-- A card conflicts with an earlier card (R134). -/
def Card.conflicts (c e : Card) : Bool :=
  c.ctx == e.ctx && (anyMeets c.reads e.writes || anyMeets c.writes e.reads || anyMeets c.writes e.writes)

/-- A W-role region overlaps a region of another role (R127). -/
def Card.selfOverlap (c : Card) : Bool :=
  anyMeets c.targets (([0, 2].filter fun n => 0 < (c.desc n).count).map fun n => (c.desc n).region c.ag.core)

/-! ### Issue (R127) -/

/-- The card at an offset of the issuing unit's partition. -/
def State.readCard (s : State) (u : UnitRec) (off : Nat) : Card :=
  let bs := s.scrRead u.ctx u.core (u.pbase + off) 96
  let d (n : Nat) : DWord := BitVec.ofNat 64 (ofBytes ((bs.drop n).take 8))
  { job := (s.cluster (clusterOfCore u.core)).jobCtr, header := BitVec.ofNat 128 (ofBytes (bs.take 16)),
    descs := (List.range 4).map fun i => ⟨d (16 + 16 * i), d (24 + 16 * i)⟩, tail := BitVec.ofNat 128 (ofBytes ((bs.drop 80).take 16)),
    ag := s.cur, tag := s.curGroup.tag, uid := s.curSplit.uid, bound := s.nextId, heir := s.curSplit.uid, unit := s.curGroup.unit,
    ctx := u.ctx, launch := s.curGroup.launch, started := false, status := 0, badAddr := 0, perf := [], idxs := [], rowVals := [],
    vals := [], sent := [], opened := [], phgone := false }

/-- A scratch descriptor lies inside its partition (R127). -/
def State.descInside (s : State) (u : UnitRec) (d : Desc) : Bool :=
  d.count == 0 || !(pathOf d.base == 2 || pathOf d.base == 3)
  || (match s.scratchUnit u d.base with
      | some t => bitsNat d.base.toNat 31 0 + d.bytes ≤ t.psize
      | none => false)

/-- The unit of a set on a core. -/
def State.setUnit (s : State) (u : UnitRec) (core : Nat) : Option UnitRec :=
  (s.units.find? fun p => p.2.core == core && u.set.isSome && p.2.set == u.set && !p.2.ended).map (·.2)

/-- MCAST names cores of the issuing unit's set (R127). -/
def State.mcastOk (s : State) (u : UnitRec) (c : Card) : Bool :=
  c.mcast == 0 || (below 8 fun j => bitNat c.mcast j).all fun j => (s.setUnit u (8 * clusterOfCore u.core + j)).isSome

/-- PHOFF names a live phaser of the issuing unit (R127). -/
def State.phoffOk (s : State) (u : UnitRec) (c : Card) : Bool :=
  !c.phv || (s.core u.core).phasers.any fun p => p.off == u.pbase + c.phoff && p.unit == c.unit

/-- The read of the card, a scratch load of the split, cannot complete yet: an earlier fence or acquire is incomplete, or an earlier store
or load of the card's bytes (R127, R247, R266, R269). -/
def State.cardBusy (s : State) (u : UnitRec) (off : Nat) : Bool :=
  s.phaserWaits || (s.ownEnts s.curSplit.uid).any fun e =>
    (e.kind == .sStore || e.kind == .cStore || e.kind == .load)
    && (List.range 96).any fun i => e.covers (scrKey u.core (u.pbase + off) + i)

/-- An engine word of kind `k`: what is illegal comes before PATH, once the card can be read (R36, R127). The PATH of a descriptor outside its
partition names the card's address (DESIGN CHOICE: R127 gives no VADDR for it; log 89). -/
def engineWord (k : Nat) (d a : BitVec 6) (s : State) : Out :=
  orderWord true [a.toNat]
    (fun s =>
      let off := (s.curSplit.sreg a.toNat).toNat
      let va := BitVec.ofNat 64 (2 * 2 ^ 60 + off)
      match s.unitOf s.curGroup with
      | none => .next (s.scalarFault ⟨.path, .none, va⟩)
      | some u =>
        let cl := s.cluster (clusterOfCore u.core)
        if off % 16 != 0 then .next (s.scalarFault ⟨.align, .none, va⟩)
        else if u.psize < off + 96 then .next (s.scalarFault ⟨.path, .none, va⟩)
        else if s.cardBusy u off then hold s
        else
          let c := s.readCard u off
          if !(c.headerOk k && c.tailOk k && c.rolesOk k && s.mcastOk u c && s.phoffOk u c) || c.selfOverlap then illegalOperand s
          else if !((List.range 4).all fun n => s.descInside u (c.desc n)) then .next (s.scalarFault ⟨.path, .none, va⟩)
          else if Config.windowCards ≤ cl.window.length then hold s
          else
            let s := s.setCluster (clusterOfCore u.core) { cl with jobCtr := cl.jobCtr + 1, window := cl.window ++ [c] }
            s.finish fun sp => sp.setS d.toNat c.job) s

/-- XCOPY. -/
def execXcopy (d a : BitVec 6) (s : State) : Out := engineWord 1 d a s

/-- XGATH. -/
def execXgath (d a : BitVec 6) (s : State) : Out := engineWord 2 d a s

/-- XSCAT. -/
def execXscat (d a : BitVec 6) (s : State) : Out := engineWord 3 d a s

/-- XRED. -/
def execXred (d a : BitVec 6) (s : State) : Out := engineWord 4 d a s

/-! ### Elements and their accesses (R128-R131, R271) -/

/-- The source address of an element; `idx` is its index. -/
def Card.source (c : Card) (i : Nat) (idx : Word) : DWord :=
  let base := (c.desc 0).base
  match c.kind with
  | 1 => base + BitVec.ofNat 64 (i / c.count * c.sstride + i % c.count * c.esize)
  | 2 => base + BitVec.ofNat 64 (idx.toNat * c.sstride)
  | _ => base + BitVec.ofNat 64 (i * c.esize)

/-- The destination address of an element. -/
def Card.dest (c : Card) (i : Nat) (idx : Word) : DWord :=
  let base := (c.desc 1).base
  match c.kind with
  | 1 => base + BitVec.ofNat 64 (i / c.count * c.dstride + i % c.count * c.esize)
  | 3 => base + BitVec.ofNat 64 (idx.toNat * c.dstride)
  | _ => base + BitVec.ofNat 64 (i * c.esize)

/-- One access of an element: its index; row `r` of XRED, the destination's own value being row ROWS; the source; and the write to the
target numbered `j`. -/
inductive EngineStep where
  | index
  | row (r : Nat)
  | source
  | write (j : Nat)
deriving DecidableEq, Repr

/-- The cores an element is written to: none for the address as it stands (R128). -/
def Card.targetCores (c : Card) : List (Option Nat) :=
  if c.mcast == 0 then [none]
  else (below 8 fun j => bitNat c.mcast j).map fun j => some (8 * clusterOfCore c.ag.core + j)

/-- The rows of an XRED element that are still to be read; with ACC the destination's value is one more. -/
def Card.rowsLeft (c : Card) (i : Nat) : List Nat :=
  below (c.rows + b2n c.acc) fun r => !Tab.has c.rowVals (65536 * i + r)

/-- The targets that an element is still to be written to. -/
def Card.targetsLeft (c : Card) (i : Nat) : List Nat := below c.targetCores.length fun j => !Tab.has c.sent (8 * i + j)

/-- The next access of an element: the rows of XRED and the targets of a multicast are accesses of their own, in no fixed order; `n`
chooses among them (R128, R271). -/
def Card.nextStep (c : Card) (i n : Nat) : EngineStep :=
  if (c.kind == 2 || c.kind == 3) && !Tab.has c.idxs i then .index
  else if !Tab.has c.vals i then
    (if c.kind == 4 then .row ((c.rowsLeft i).getD (n % (c.rowsLeft i).length) 0) else .source)
  else .write ((c.targetsLeft i).getD (n % (c.targetsLeft i).length) 0)

/-- The address of an access. -/
def Card.stepAddr (c : Card) (i : Nat) : EngineStep → DWord
  | .index => c.idxptr + BitVec.ofNat 64 (4 * i)
  | .row r => if r < c.rows then (c.desc 0).base + BitVec.ofNat 64 (r * c.sstride + 4 * i) else c.dest i 0
  | .source => c.source i (Tab.get 0 c.idxs i)
  | .write _ => c.dest i (Tab.get 0 c.idxs i)

/-- The descriptor of an access. -/
def Card.stepDesc (c : Card) : EngineStep → Nat
  | .index => 2
  | .row r => if r < c.rows then 0 else 1
  | .source => 0
  | .write _ => 1

/-- The bytes of an access. -/
def Card.stepBytes (c : Card) : EngineStep → Nat
  | .index => 4
  | _ => c.esize

/-- The access writes. -/
def EngineStep.writes : EngineStep → Bool
  | .write _ => true
  | _ => false

/-! ### Packets (R70, R92, R98, R102, R136) -/

/-- The line of an access, among those of its kind. -/
def Card.lineKey (c : Card) (i : Nat) (st : EngineStep) : Nat :=
  (2 * c.stepDesc st + b2n st.writes) * 2 ^ 64 + (lineOf (noPath (c.stepAddr i st))).toNat

/-- The access is the job's first in its line: a packet is sent for it, and the line is charged once (R98). -/
def Card.opens (c : Card) (i : Nat) (st : EngineStep) : Bool :=
  translated (pathOf (c.stepAddr i st)) && !Tab.has c.opened (c.lineKey i st)

/-- The bytes that the packet of an access carries: what the element's row writes of the line, or an XSCAT's one element; a read carries
none (R98, log 68). -/
def Card.payload (c : Card) (i : Nat) (st : EngineStep) : Nat :=
  if !st.writes then 0
  else if c.kind == 3 then c.esize
  else
    let row := if c.kind == 1 then c.count else c.elems
    let start := (c.dest (i / row * row) 0).toNat
    let line := (lineOf (c.stepAddr i st)).toNat
    min (line + 128) (start + row * c.esize) - max line start

/-- The job writes its source to generic memory line for line (R98). -/
def Card.lineForLine (c : Card) : Bool :=
  c.kind == 1 && translated (pathOf (c.desc 0).base) && translated (pathOf (c.desc 1).base)
  && (c.desc 0).base.toNat % 128 == (c.desc 1).base.toNat % 128 && (c.rows == 1 || c.sstride % 128 == c.dstride % 128)

/-- The flits that an access that opens its line is charged (R98). -/
def Card.charge (c : Card) (i : Nat) (st : EngineStep) : Nat :=
  if st.writes then flitsOf (c.payload i st) else if c.lineForLine then 0 else 1

/-- The access kind of R60. -/
def EngineStep.access (st : EngineStep) : Access := if st.writes then .engineWrite else .engineRead

/-! ### Accesses of the engines (R128, R129, R136, R271) -/

/-- The status of an owner's fault (R129). -/
def statusOf (k : FaultKind) : Nat :=
  match k with
  | .path => 2
  | .perm => 3
  | .poison => 4
  | .lease => 5
  | _ => 2

/-- The requester's checks of an element: its address keeps its descriptor, ESIZE and its path, and the context's key is on the
requester's die for another node (R43, R106, R129); the status otherwise. -/
def State.elemCheck (s : State) (c : Card) (d : Desc) (va : DWord) (n : Nat) : Nat :=
  let a := va.toNat
  if !(d.base.toNat ≤ a && a + n ≤ d.base.toNat + d.bytes) then 1
  else if a % n != 0 then 7
  else if !translated (pathOf va) then 0
  else if !s.populated (nodeOf va) then 2
  else if !s.keyedFor (dieOfCore c.ag.core) c.ctx va then 4
  else 0

/-- An element of an XSCAT with a larger number that goes to the same destination element has been performed (R128). -/
def Card.beaten (c : Card) (i : Nat) : Bool :=
  c.kind == 3 && c.idxs.any fun p => i < p.1 && c.dest p.1 p.2 == c.dest i (Tab.get 0 c.idxs i) && Tab.has c.perf p.1

/-- A packet leaves for an access: it is the job's first in its line, no larger element has taken its place, and the requester's checks let it
go (R98, R106, R128). -/
def State.engineSends (s : State) (c : Card) (i : Nat) (st : EngineStep) : Bool :=
  c.opens i st && !(st.writes && c.beaten i) && s.elemCheck c (c.desc (c.stepDesc st)) (c.stepAddr i st) (c.stepBytes st) == 0

/-- The channel of an access (R96): the engines of a cluster ask from its die. -/
def State.engineChan (s : State) (cl : Nat) (va : DWord) : Nat := s.chanTo (cl / 8) va

/-- An access may be made. Where it goes to memory, that is ready (R358); the quota of the cluster's engines, its channel and the links
have room for the packet that it opens (R96-R98, R102, R105); and what it reads may come back now (R99). -/
def State.engineReady (s : State) (cl : Nat) (c : Card) (i : Nat) (st : EngineStep) : Bool :=
  let va := c.stepAddr i st
  !translated (pathOf va) || s.elemCheck c (c.desc (c.stepDesc st)) va (c.stepBytes st) != 0 || (st.writes && c.beaten i)
  || (s.homeReady c.ctx (noPath va) && (st.writes || s.replyNow cl va)
      && (!s.engineSends c i st
          || ((c.charge i st == 0 || s.mayPace (engineSource cl) (c.charge i st)) && s.nowNext (s.engineChan cl va) cl
              && s.mayCross (cl / 8) c.ctx (some c.launch) st.access va (c.payload i st))))

/-- The packet of an access leaves, where one does. -/
def State.engineSend (s : State) (cl : Nat) (c : Card) (i : Nat) (st : EngineStep) : State :=
  let va := c.stepAddr i st
  if s.engineSends c i st then
    let s := ((s.charge (engineSource cl) (c.charge i st)).noteWriter (s.engineChan cl va) cl).cross (cl / 8) c.ctx (some c.launch) st.access
      va (c.payload i st)
    if st.writes then s else s.noteReply cl va
  else s

/-- Where an engine's scratch address lies; `core` overrides the core for a multicast. -/
def State.enginePlace (s : State) (c : Card) (core : Option Nat) (va : DWord) : Option (Nat × Nat) :=
  match (s.units.find? fun p => p.1 == c.unit).map (·.2) with
  | none => none
  | some u =>
    match core with
    | some k => (s.setUnit u k).bind fun t => if bitsNat va.toNat 31 0 < t.psize then some (t.place va) else none
    | none => (s.scratchUnit u va).map fun t => t.place va

/-- The owner's checks of an engine access; the packet that opens a line counts (R70, R136). -/
def State.engineOwner (s : State) (c : Card) (a : Access) (va : DWord) (opens : Bool) :
    (Except (FaultKind × Cause) (Nat × Leaf)) × State :=
  if opens then s.ownerCheck c.ctx (some c.launch) a (noPath va) else s.ownerLook c.ctx (some c.launch) a (noPath va)

/-- Reads `n` bytes for a card: the home order alone, or the bank (R271); the error is a status. -/
def State.engineRead (s : State) (c : Card) (d : Desc) (va : DWord) (n : Nat) (opens : Bool) : (Except Nat Nat) × State :=
  let bad := s.elemCheck c d va n
  if bad != 0 then (.error bad, s)
  else if translated (pathOf va) then
    match s.engineOwner c .engineRead va opens with
    | (.error f, s) => (.error (statusOf f.1), s)
    | (.ok (key, _), s) =>
      match s.homeRead c.ctx (noPath va) key n with
      | (none, s) => (.error 4, s)
      | (some bs, s) =>
        let view (i : Nat) (b : Byte) : Byte :=
          if pathOf va == 4 then s.viewByte c.ctx (noPath va + BitVec.ofNat 64 i) b else b
        (.ok (ofBytes ((bs.zipIdx).map fun x => view x.2 x.1)), s)
  else
    match s.enginePlace c none va with
    | some (core, off) => (.ok (ofBytes (s.scrRead c.ctx core off n)), s)
    | none => (.error 2, s)

/-- The write of an element is mirrored to a move's destination (R80). -/
def State.engineMirrors (s : State) (c : Card) (va : DWord) : Bool :=
  translated (pathOf va) &&
  match (s.ownerLook c.ctx (some c.launch) .engineWrite (noPath va)).1 with
  | .ok (key, _) => (s.serve c.ctx (noPath va) key).2.isSome
  | .error _ => false

/-- Writes one element to one target; the answer is a status. A poisoned line is tested for each element by itself, and no run of
elements counts as one store of a whole line (DESIGN CHOICE: R64 does not say; log 22). `mirror` is the payload that is charged for the
line's mirror (R92). -/
def State.engineWrite (s : State) (c : Card) (core : Option Nat) (va : DWord) (n v : Nat) (opens : Bool) (mirror : Option Nat) :
    Nat × State :=
  let bad := s.elemCheck c (c.desc 1) va n
  if bad != 0 then (bad, s)
  else if translated (pathOf va) then
    match s.engineOwner c .engineWrite va opens with
    | (.error f, s) => (statusOf f.1, s)
    | (.ok (key, _), s) =>
      let s := match mirror with
        | some k => s.chargeMirror c.ctx (noPath va) key k
        | none => s
      match s.homePut c.ctx (noPath va) key (toBytes v n) none with
      | (true, s) => (0, s)
      | (false, s) => (4, s)
  else
    match s.enginePlace c core va with
    | none => (2, s)
    | some (k, off) => if s.phaserHit k off n then (2, s) else (0, s.scrWrite c.ctx k off (toBytes v n))

/-! ### The steps of a job (R128-R131) -/

/-- Replaces a card in its cluster's window. -/
def State.setCard (s : State) (cl : Nat) (c : Card) : State :=
  let k := s.cluster cl
  s.setCluster cl { k with window := k.window.map fun x => if x.job == c.job then c else x }

/-- Element `i` fails, and has no more targets to write: the job stops at its first failure, or has been cancelled before (R129, R138). -/
def State.failCard (s : State) (cl : Nat) (c : Card) (i status : Nat) (va : DWord) : State :=
  let c := { c with sent := (List.range 8).foldl (fun t j => Tab.del t (8 * i + j)) c.sent }
  s.setCard cl (if c.status == 0 then { c with status := status, badAddr := va } else c)

/-- The card once an access of an element has read a value: with its last row, an XRED element has its reduced value (R131). -/
def Card.took (c : Card) (i : Nat) (st : EngineStep) (x : Nat) : Card :=
  match st with
  | .index => { c with idxs := Tab.put c.idxs i (BitVec.ofNat 32 x) }
  | .row r =>
    let c := { c with rowVals := Tab.put c.rowVals (65536 * i + r) (BitVec.ofNat 32 x) }
    if !(c.rowsLeft i).isEmpty then c
    else
      let val (r : Nat) : Nat := (Tab.get 0 c.rowVals (65536 * i + r)).toNat
      let v := xredValue (c.hdr 119 116) (c.hdr 121 120) (if c.acc then some (val c.rows) else none) ((List.range c.rows).map val)
      { c with
        vals := Tab.put c.vals i (BitVec.ofNat 64 v)
        rowVals := (List.range (c.rows + 1)).foldl (fun t r => Tab.del t (65536 * i + r)) c.rowVals }
  | _ => { c with vals := Tab.put c.vals i (BitVec.ofNat 64 x) }

/-- The card once an element has been performed. -/
def Card.performed (c : Card) (i : Nat) : Card :=
  { c with
    perf := Tab.put c.perf i (), vals := Tab.del c.vals i
    sent := (List.range 8).foldl (fun t j => Tab.del t (8 * i + j)) c.sent }

/-- The card once an element has been written to target `j`: with its last target it has been performed. -/
def Card.wrote (c : Card) (i j : Nat) : Card :=
  let c := { c with sent := Tab.put c.sent (8 * i + j) () }
  if (c.targetsLeft i).isEmpty then c.performed i else c

/-- The line of a write, among the lines whose mirror has been charged (R92). -/
def Card.mirrorKey (c : Card) (i : Nat) (st : EngineStep) : Nat := 8 * 2 ^ 64 + c.lineKey i st

/-- The next access of an element (R128, R130, R271). A line's mirror is charged once, with the first element of it that is mirrored
(R92, R98). -/
def State.engineStep (s : State) (cl : Nat) (c : Card) (i : Nat) (st : EngineStep) : State :=
  let va := c.stepAddr i st
  let opens := c.opens i st
  let c' := if opens then { c with opened := Tab.put c.opened (c.lineKey i st) () } else c
  match st with
  | .write j =>
    if c.beaten i then s.setCard cl (c.performed i)
    else
      let mirror := !Tab.has c.opened (c.mirrorKey i st) && s.engineMirrors c va
      let c' := if mirror then { c' with opened := Tab.put c'.opened (c.mirrorKey i st) () } else c'
      match s.engineWrite c ((c.targetCores.getD j none)) va c.esize (Tab.get 0 c.vals i).toNat opens
          (if mirror then some (c.payload i st) else none) with
      | (0, s) => s.setCard cl (c'.wrote i j)
      | (e, s) => s.failCard cl c' i e va
  | st =>
    match s.engineRead c (c.desc (c.stepDesc st)) va (c.stepBytes st) opens with
    | (.error e, s) => s.failCard cl c' i e va
    | (.ok x, s) => s.setCard cl (c'.took i st x)

/-- An element has been written to some of its targets, and not to all of them. -/
def Card.partly (c : Card) (i : Nat) : Bool := (List.range 8).any fun j => Tab.has c.sent (8 * i + j)

/-- An element can take its turn: its job has not performed it, and runs, or has stopped with the element under way: a job stops at an element
boundary (R138). -/
def Card.runs (c : Card) (i : Nat) : Bool :=
  c.started && (c.status == 0 || c.partly i) && i < c.elems && !Tab.has c.perf i

/-- The turn of an element (R128): a job that is not in the window has none. -/
def State.engineTurn (s : State) (cl job elem : Nat) : State :=
  match (s.cluster cl).window.find? fun c => c.job.toNat == job with
  | some c =>
    let st := c.nextStep elem (Config.freeNat s.tick 40)
    if c.runs elem && s.engineReady cl c elem st then (s.engineSend cl c elem st).engineStep cl c elem st else s
  | none => s

/-! ### The task scheduler (R134, R135) -/

/-- The cards before a job in its window. -/
def Cluster.before (k : Cluster) (job : Word) : List Card := k.window.takeWhile fun c => c.job != job

/-- The issue of the card is released at its scope: the issuing split's earlier loads and array words have completed, its earlier stores
are visible at SCOPE, and no earlier acquire or fence of it is incomplete (R135, R268, R269, R271). What the job writes, they have then
read. -/
def State.cardReleased (s : State) (c : Card) : Bool :=
  let older := s.ents.filter fun e => e.own c.uid && e.id < c.bound
  let g := s.group c.ag.core c.ag.slot
  relClear older c.scope && !(older.any fun e => e.acq.isSome || e.kind == .fence)
  && !(g.live && g.tag == c.tag && g.arr.any fun a => (a.own c.heir || a.own c.uid) && a.id < c.bound)

/-- JOB_START. -/
def execJobStart (cluster job : Nat) (s : State) : Out :=
  let k := s.cluster cluster
  match k.window.find? fun c => c.job.toNat == job with
  | none => hold s
  | some c =>
    if c.started || (k.before c.job).any c.conflicts || !s.cardReleased c then hold s
    else .next (s.setCard cluster { c with started := true })

/-! ### Completion (R129, R137, R142, R366) -/

/-- DONE: the elements below it have all been performed (R129, R142). -/
def Card.doneCount (c : Card) : Nat :=
  let n := if c.perf.length == c.elems then c.elems else (firstBelow (c.perf.length + 1) fun i => !Tab.has c.perf i).getD 0
  if c.kind == 4 then n * c.rows else n

/-- The completion record (R142). -/
def Card.record (c : Card) (status : Nat) : Nat :=
  0x01 * 2 ^ 120 + status * 2 ^ 112 + c.ag.core * 2 ^ 104 + c.kind * 2 ^ 100 + c.job.toNat * 2 ^ 64 + c.hdr 31 16 * 2 ^ 48 + c.doneCount

/-- The job's arrival on its phaser; a phaser that was freed, even where another has been made in its place, gives status 0x08 (R129,
R137). -/
def State.jobArrive (s : State) (c : Card) : Nat × State :=
  if !c.phv then (c.status, s)
  else
    match (s.units.find? fun p => p.1 == c.unit).map (·.2) with
    | none => (if c.status == 0 then 8 else c.status, s)
    | some u =>
      if s.objLive u.core (u.pbase + c.phoff) && !c.phgone then (c.status, s.applyArrival c.ctx u.core (u.pbase + c.phoff))
      else (if c.status == 0 then 8 else c.status, s)

/-- JOB_LEASE_END: the LEASE record is written for the split that issued the card, and the unit ends (R60, R366). -/
def State.jobLeaseEnd (s : State) (c : Card) : State :=
  let core := c.ag.core
  let slot := c.ag.slot
  let g := s.group core slot
  let here := g.live && g.tag == c.tag
  let n := if !here then none else (g.live8.find? fun n => (g.split n).uid == c.heir).orElse fun _ => g.live8.head?
  let fail : Fail := ⟨.lease, .none, c.badAddr⟩
  let r : FaultRec :=
    match n with
    | some i => s.recordOf ⟨core, slot, i⟩ ⟨(g.split i).mask, fail, (g.split i).lpc, false, false, false, [], false⟩ false
    | none => ⟨c.badAddr, 0, 0, Mask.full, c.launch, s.chframe, .lease, .none, 0, false, false, false, false, slot⟩
  let s := s.sendRecord ⟨core, slot, n.getD 0⟩ c.tag c.ctx 2 (toBytes r.bits 32)
  (s.snapFire FaultKind.lease.code false).killUnit c.unit true

/-- JOB_COMPLETE: the writes are visible, the arrival, the record, and the card leaves the window (R137). -/
def execJobComplete (cluster job : Nat) (s : State) : Out :=
  match (s.cluster cluster).window.find? fun c => c.job.toNat == job with
  | none => hold s
  | some c =>
    if !((c.status != 0 && c.sent.isEmpty) || (c.started && c.perf.length == c.elems)) then hold s
    else
      let (status, s) := s.jobArrive c
      let s := if c.ev || status != 0 then (s.postEvent c.ctx (c.record status)).2 else s
      let k := s.cluster cluster
      let s := s.setCluster cluster { k with window := k.window.filter fun x => x.job != c.job }
      .next (if c.status == 5 then s.jobLeaseEnd c else s)

/-- A CANCEL stops the cards of a unit with status 0x06 (R138). -/
def State.cancelCards (s : State) (unit : Nat) : State :=
  { s with clusters := s.clusters.map fun p =>
      (p.1, { p.2 with window := p.2.window.map fun c => if c.unit == unit && c.status == 0 then { c with status := 6 } else c }) }

/-- A unit's cards are still in a window (R61, R138). -/
def State.cardsOf (s : State) (unit : Nat) : Bool := s.clusters.any fun p => p.2.window.any fun c => c.unit == unit

end Sys2Proof.Machine
end

