-- ==== Sys2Proof/Machine/EventQueue.lean ====
section
/-! DEFINITION. The event queue's words EVPOP and EVPOST, and the writes of its registers (R139-R144). -/

namespace Sys2Proof.Machine

/-- The words of the oldest record, when there is one (R139, R143). -/
def State.oldestEvent (s : State) (ctx : Nat) : Option Nat :=
  let c := s.ctx ctx
  if c.eqSize == 0 || c.eqhead == c.eqtail then none else some (ofBytes (s.mem.readN (s.eqKey c c.eqhead.toNat) 16))

/-- Four words of a record into S[D] to S[D+3] (R143). -/
def Split.putRecord (sp : Split) (d n : Nat) : Split :=
  (List.range 4).foldl (fun sp i => sp.setS (d + i) (BitVec.ofNat 32 (n / 2 ^ (32 * i)))) sp

/-- EVPOP is an acquire at DEV scope; the record is read once its memory is ready (R358). -/
def execEvpop (d : BitVec 6) (try_ : Bool) (s : State) : Out :=
  orderWord (d.toNat % 4 == 0) []
    (fun s =>
      let ctx := s.curGroup.ctx
      let c := s.ctx ctx
      if s.phaserWaits then hold s
      else if c.eqOwn then .next (s.scalarFault ⟨.perm, .system, 0⟩)
      else
        match s.oldestEvent ctx with
        | none => if try_ then s.finish fun sp => sp.setFlag true else hold s
        | some n =>
          if s.memReady (s.eqKey c c.eqhead.toNat) then
            let s := s.setCtx ctx { c with eqhead := ringNext c.eqhead c.eqSize }
            (s.acquireDrop s.cur.core 3).finish fun sp => (sp.putRecord d.toNat n).setFlag false
          else hold s) s

/-- The record of EVPOST (R144). -/
def postRecord (sp : Split) (a : Nat) : Nat :=
  0x02 * 2 ^ 120 + (sp.sreg (a + 3)).toNat % 2 ^ 24 * 2 ^ 96 + (sp.sreg (a + 2)).toNat * 2 ^ 64 + (sp.sreg (a + 1)).toNat * 2 ^ 32
  + (sp.sreg a).toNat

/-- EVPOST is a release at DEV scope; the flag says that the record was dropped, so the word waits while that is not known (R358). -/
def execEvpost (a : BitVec 6) (s : State) : Out :=
  orderWord (a.toNat % 4 == 0) ((List.range 4).map (a.toNat + ·))
    (fun s =>
      if s.phaserWaits || !s.released 3 || !s.eventReady s.curGroup.ctx then hold s
      else
        let (ok, s) := s.postEvent s.curGroup.ctx (postRecord s.curSplit a.toNat)
        s.finish fun sp => sp.setFlag (!ok)) s

/-! ### The registers (R139) -/

/-- A ring index that a write may move its head to: forward, and not past the tail (R59, R93, R139, R298). In a ring that is disabled, and to an
index at or above its size, the head does not move (DESIGN CHOICE: the rules name only a move past the tail; log 83). -/
def headMayMove (head tail idx : BitVec 16) (n : Nat) : Bool :=
  n != 0 && idx.toNat < n && ringHeld head idx n ≤ ringHeld head tail n

/-- A write of a register of block 0x5; true when it is ignored (R139, R293). -/
def State.writeEventReg (s : State) (index : Nat) (val : DWord) : Bool × State :=
  let k := s.eqsel.toNat
  let c := s.ctx k
  match index with
  | 0 => if bitsNat val.toNat 31 10 == 0 then (false, { s with eqsel := val.setWidth 10 }) else (true, s)
  | 1 => (false, s.setCtx k { c with eqbase := val, eqhead := 0, eqtail := 0 })
  | 2 =>
    if c.eqOwn && headMayMove c.eqhead c.eqtail (val.setWidth 16) c.eqSize then
      (false, s.setCtx k { c with eqhead := val.setWidth 16 })
    else (true, s)
  | 4 => if bitsNat val.toNat 31 1 == 0 then (false, s.setCtx k { c with eqOwn := val.getLsbD 0 }) else (true, s)
  | 5 =>
    let drops := bitsNat val.toNat 31 16 != 0
    let ovf := bitNat val.toNat 1
    (false, s.setCtx k { c with eqDrops := if drops then 0 else c.eqDrops, eqOvf := c.eqOvf && !ovf })
  | _ => (true, s)

/-- EQBASE_WRITE: the ring of the selected context is set up anew. -/
def execEqbaseWrite (val : DWord) (s : State) : Out := .next (s.writeEventReg 1 val).2

/-- EQHEAD_WRITE: the control core consumes records. -/
def execEqheadWrite (val : DWord) (s : State) : Out := .next (s.writeEventReg 2 val).2

end Sys2Proof.Machine
end

