-- ==== Sys2Proof/Machine/Matrix.lean ====
section
/-! DEFINITION. The matrix array: MLOOP with its rounds and steps, tiles out and tile masks (R216-R226). -/

namespace Sys2Proof.Machine

/-! ### Rows, elements and columns (R216) -/

/-- Elements of a format in a 128-byte string. -/
def elemsPer (code : Nat) : Nat := 1024 / elemBits code

/-- The elements of a string of bytes, lowest first (R216). -/
def elemsOf (code : Nat) (bs : List Byte) : List Nat :=
  let n := ofBytes bs
  (List.range (8 * bs.length / elemBits code)).map fun e => n / 2 ^ (elemBits code * e) % 2 ^ elemBits code

/-- The 128 bytes of a register, lane 0 first (R171). -/
def Group.regBytes (g : Group) (n : Nat) : List Byte := lanes.flatMap fun l => toBytes (g.vreg n l).toNat 4

/-- Scratch bytes that a group's array word reads (R220, R221). -/
def State.panelBytes (s : State) (g : Group) (va : DWord) (n : Nat) : List Byte :=
  match (s.unitOf g).bind fun u => s.scratchUnit u va with
  | some t => s.scrRead g.ctx (t.place va).1 (t.place va).2 n
  | none => List.replicate n 0

/-- The fault of the first address that breaks the rules of a panel: alignment of all addresses first, and then the path
(R218, R227). -/
def State.panelCheck (s : State) (r : Reach) (n align : Nat) (addrs : List DWord) : Option Fail :=
  match addrs.find? fun a => a.toNat % align != 0 with
  | some a => some ⟨.align, .none, a⟩
  | none =>
    addrs.findSome? fun a =>
      if pathOf a != 2 && pathOf a != 3 then some ⟨.path, .none, a⟩
      else (s.requesterCheck s.curGroup s.cur.core r a n 1).map fun f => ⟨f.1, f.2, a⟩

/-- The whole split faults at issue (R218). -/
def State.laneFail (s : State) (f : Fail) : State :=
  s.laneFault ((Mask.list s.curSplit.mask).map fun l => (l, f)) false id

/-! ### The K-step's arithmetic (R220) -/

/-- node(lo, 2^k) over a list of exact products. -/
def treeSum : Nat → List Val → Val
  | 0, l => l.headD (.fin false 0 0)
  | k + 1, l => ((treeSum k (l.take (2 ^ k))).add (treeSum k (l.drop (2 ^ k))) false).toX48

/-- node(0, E) over two strings of values. -/
def stepSum (a b : List Val) : Val := treeSum a.length.log2 ((a.zip b).map fun p => p.1.mul p.2)

/-- The values of a string of elements, under the slot's FTZ. -/
def stringVals (slot : Word) (bs : List Byte) : List Val :=
  (elemsOf (slotElem slot) bs).map fun x => readElem slot (slotElem slot) x

/-- Update for a float accumulator. -/
def updateFloat (slot : Word) (rm : Nat) (sat : Bool) (acc : Word) (a b : List Val) : Word :=
  let x := f32.decode acc.toNat
  let t := stepSum a b
  let sum := if x.isNan then x else if t.isNan then .nan none else x.add t (rm == 3)
  BitVec.ofNat 32 (f32.round rm sat (slotNan slot) sum)

/-- The exact integer of Update. -/
def updateInt (slot : Word) (acc : Word) (a b : List Byte) : Int :=
  let t := slotElem slot
  ((elemsOf t a).zip (elemsOf t b)).foldl (fun x p => x + intOf t p.1 * intOf t p.2) (intOf (slotAcc slot) acc.toNat)

/-! ### MLOOP's fields and checks (R217, R218) -/

def mloopForm (w : LaneWord) : Nat := modBits w 9 8
def mloopK (w : LaneWord) : Nat := modBits w 5 0 + 1
def mloopSat (w : LaneWord) : Bool := modBits w 6 6 == 1
def mloopTmv (w : LaneWord) : Bool := xcBits w 7 7 == 1
def mloopTm (w : LaneWord) : Nat := xcBits w 3 0

/-- Registers of a B window. -/
def mloopBw (w : LaneWord) : Nat := if mloopForm w == 1 then 64 else 16

/-- The slot pairs ELEM and ACC as R217 says. -/
def mloopSlotOk (w : LaneWord) (slot : Word) : Bool :=
  let e := slotElem slot
  slotScale slot == 0 && (slotAcc slot == 0 || w.rm == 0)
  && (match slotAcc slot with
      | 0 => 1 ≤ e && e ≤ 5
      | 0xA => e == 6 || e == 8
      | 0xB => e == 7 || e == 9
      | _ => false)

/-- The B windows of the steps from `k` on. -/
def bWins (w : LaneWord) (k : Nat) : List (Nat × Nat) :=
  ((List.range (mloopK w)).filter (k ≤ ·)).map fun i => (w.b.toNat + w.xb.toNat * i, mloopBw w)

/-- Every window that the loop keeps pending from step `k` on (R221). -/
def loopWins (w : LaneWord) (k : Nat) : List (Nat × Nat) := (w.d.toNat, 32) :: bWins w k

/-- inc of MLOOP. -/
def mloopInc (w : LaneWord) (cap : Capture) : Word := if isScal w.c then cap.w0 else constOf w.c.toNat

/-- rowaddr(ρ, k) (R220). -/
def ArrayWord.rowaddr (a : ArrayWord) (row k : Nat) : DWord :=
  a.aBase + sext64 a.w.xa * 128 + BitVec.ofNat 64 row * sext64 a.aStride + 128 * a.inc.setWidth 64 * BitVec.ofNat 64 k

/-- Groups of a unit (R299, R305). -/
def State.unitGroups (s : State) (unit : Nat) : Nat :=
  match s.units.find? fun p => p.1 == unit with
  | some (_, u) => ((s.launches.find? fun p => p.1 == u.launch.toNat).map fun p => p.2.rec_.groups).getD 0
  | none => 0

/-- The array word is a loop of the round `n`. -/
def ArrayWord.inRound (a : ArrayWord) (n : Nat) : Bool := a.op == 0x48 && mloopForm a.w != 1 && a.round == n

/-- The slots of the members of round `n` of a group's quad that have issued, in order of member number (R218). -/
def State.roundSlots (s : State) (core : Nat) (g : Group) (n : Nat) : List Nat :=
  (List.range 4).filterMap fun j =>
    ((s.groupsOn core).find? fun p =>
      p.2.unit == g.unit && p.2.num == g.num / 4 * 4 + j
      && (match p.2.arr with
          | some a => a.inRound n
          | none => false)).map (·.1)

/-- The slots of every member of the loop that a slot's group has issued. -/
def State.loopSlots (s : State) (core slot : Nat) : List Nat :=
  match (s.group core slot).arr with
  | some a => if mloopForm a.w == 1 then [slot] else s.roundSlots core (s.group core slot) a.round
  | none => []

/-- The loop is complete: solo, or a round with its four members (R219). -/
def State.loopComplete (s : State) (core slot : Nat) : Bool :=
  match (s.group core slot).arr with
  | some a => a.op == 0x48 && (mloopForm a.w == 1 || (s.loopSlots core slot).length == 4)
  | none => false

/-- A later member of a round agrees with its first on K and FS; the quad has all its members (R218). -/
def State.roundOk (s : State) (w : LaneWord) : Bool :=
  let g := s.curGroup
  mloopForm w == 1 ||
  (g.num / 4 * 4 + 4 ≤ s.unitGroups g.unit
    && (s.roundSlots s.cur.core g g.rounds).all fun k =>
        match (s.group s.cur.core k).arr with
        | some a => mloopK a.w == mloopK w && a.w.fs == w.fs
        | none => true)

/-- Changes the array word of a group. -/
def State.modArr (s : State) (core slot : Nat) (f : ArrayWord → ArrayWord) : State :=
  let g := s.group core slot
  s.setGroup core slot { g with arr := g.arr.map f }

/-- A stopped loop as MLS and the sequencer record say it goes on (R165, R222). -/
def Group.takeMls (g : Group) (a : ArrayWord) : ArrayWord :=
  if !a.stopped || !g.mls0.getLsbD 31 then a
  else
    let m0 := g.mls0.toNat
    let m1 := g.mls1.toNat
    let form := bitsNat m0 30 29
    let done := bitsNat m0 15 10
    let k := bitsNat m0 22 16 + done
    let bstr := g.seqr.bstr.toNat % 256
    let w : LaneWord := { a.w with
      d := BitVec.ofNat 10 (bitsNat m0 9 0), b := BitVec.ofNat 10 (bitsNat m1 31 22 + 1024 * 64 - bstr * done), xb := BitVec.ofNat 8 bstr,
      xc := BitVec.ofNat 8 (bitsNat m1 17 17 * 128 + bitsNat m1 21 18), rm := g.seqr.rm.setWidth 3, fs := g.seqr.slot.setWidth 3,
      mod := BitVec.ofNat 10 (form * 256 + g.seqr.sat.toNat % 2 * 64 + (k - 1)) }
    { a with
      w := w, done := done, k := k, inc := g.seqr.inc, aStride := g.seqr.stride,
      aBase := pair g.mls3 g.mls2 - sext64 w.xa * 128 - 128 * g.seqr.inc.setWidth 64 * BitVec.ofNat 64 done }

/-- The loop takes the next place in the core's admission order; a stopped one goes on from MLS (R165, R219). -/
def State.completeLoop (s : State) (core slot : Nat) : State :=
  let c := s.core core
  let s' := s.setCore core { c with admitNext := c.admitNext + 1 }
  (s.loopSlots core slot).foldl (fun s k => s.modArr core k fun a =>
    { (s.group core k).takeMls a with order := some c.admitNext, stopped := false, started := false, halt := false }) s'

/-- An array word that the head of the running split's queue issues. -/
def State.newArr (s : State) (op : Nat) (w : LaneWord) (wins : List (Nat × Nat)) : ArrayWord :=
  let h := s.headOf s.cur
  let aff (c : Capture) : Affine := c.affine
  { op := op, w := w, ag := s.cur, uid := s.curSplit.uid, heirs := [], lpc := h.lpc, aBase := (aff h.capA).base, aStride := (aff h.capA).stride,
    bBase := (aff h.capB).base, bStride := (aff h.capB).stride, cBase := (aff h.capC).base, cStride := (aff h.capC).stride,
    inc := 0, k := 0, done := 0, round := 0, started := false, stopped := false, halt := false, order := none, id := s.nextId, src := [],
    wins := wins }

/-- The array word has issued: it is the group's, in its place among the split's accesses (R135, R219). -/
def State.putArr (s : State) (a : ArrayWord) : State :=
  { s.modGroup s.cur fun g => { g with arr := some a } with nextId := s.nextId + 1 }

/-- An array word at issue: it waits until the group's earlier array word has finished (R219), and, where it reads memory, behind an
incomplete fence or acquire of its split, since its reads are loads of the split (R221, R247, R269). -/
def arrayIssue (op : Nat) (w : LaneWord) (wins : List (Nat × Nat)) (ok reads : Bool) (go : State → Out) (s : State) : Out :=
  laneIssue op w wins ok
    (fun s => if s.curGroup.arr.isSome || (reads && s.acquiring s.curSplit.uid) then hold s else go s) s

/-- Every row address of the loop (R218). -/
def ArrayWord.loopRows (a : ArrayWord) : List DWord :=
  (List.range a.k).flatMap fun k => (List.range 16).map fun r => a.rowaddr r k

/-- MLOOP. -/
def execMloop (w : LaneWord) (s : State) : Out :=
  let clear := (bWins w 0).all fun b => !overlaps w.d.toNat 32 b.1 b.2
  arrayIssue 0x48 w (loopWins w 0) (mloopSlotOk w (s.curGroup.slotWord w) && clear && s.roundOk w) true
    (fun s =>
      let a := { s.newArr 0x48 w (loopWins w 0) with
        inc := mloopInc w (s.headOf s.cur).capC, k := mloopK w, round := s.curGroup.rounds }
      match s.panelCheck .line 128 128 a.loopRows with
      | some f => .next (s.laneFail f)
      | none =>
        let solo := mloopForm w == 1
        let s := (s.putArr a).modGroup s.cur fun g => { g with rounds := if solo then g.rounds else g.rounds + 1 }
        let (core, slot) := (s.cur.core, s.cur.slot)
        let anyStopped := (s.loopSlots core slot).any fun k => ((s.group core k).arr.map (·.stopped)).getD false
        let s := if s.loopComplete core slot && !anyStopped then s.completeLoop core slot else s
        .next (s.laneDone w.sw)) s

/-! ### Admission, steps and stops (R219, R220, R222) -/

/-- The group runs again: its context runs on the core and no split of it is parked or awaits RESUME (DESIGN CHOICE: R222 does not say when a
group of which one split has faulted runs again; log 93). -/
def State.groupRuns (s : State) (core slot : Nat) : Bool :=
  let g := s.group core slot
  s.stateOn g.ctx core == .running
  && g.live8.all fun n => (g.split n).status != .parked && (g.split n).status != .resumePending

/-- The lane pipelines that a loop needs (R219). -/
def loopPipes (slots : List Nat) : List Nat := slots.map (· % 4)

/-- A loop admitted earlier that has not finished needs one of the arrays (R219). -/
def State.arrayBusy (s : State) (core : Nat) (order : Nat) (slots : List Nat) : Bool :=
  (s.groupsOn core).any fun p =>
    match p.2.arr with
    | some b =>
      (match b.order with
       | some o => o < order
       | none => false) && (loopPipes slots).contains (p.1 % 4)
    | none => false

/-- MLOOP_ADMIT: a complete loop starts once its arrays are free. -/
def execMloopAdmit (core loop : Nat) (s : State) : Out :=
  match (s.group core loop).arr with
  | some a =>
    match a.order with
    | some o =>
      if a.op != 0x48 || a.started || s.arrayBusy core o (s.loopSlots core loop) then hold s
      else .next ((s.loopSlots core loop).foldl (fun s k => s.modArr core k fun a => { a with started := true }) s)
    | none => hold s
  | none => hold s

/-- MLS of a loop stopped at a boundary (R165, R222). -/
def Group.writeMls (g : Group) (a : ArrayWord) : Group :=
  let form := mloopForm a.w
  let addr := a.rowaddr 0 a.done
  let bwin := (a.w.b.toNat + a.w.xb.toNat * a.done) % 1024
  let tpos := if form == 2 then 0 else a.done
  { g with
    mls0 := BitVec.ofNat 32 (2 ^ 31 + form * 2 ^ 29 + (a.k - a.done) * 2 ^ 16 + a.done * 2 ^ 10 + a.w.d.toNat)
    mls1 := BitVec.ofNat 32 (bwin * 2 ^ 22 + mloopTm a.w * 2 ^ 18 + b2n (mloopTmv a.w) * 2 ^ 17 + tpos * 2 ^ 11)
    mls2 := loW addr
    mls3 := hiW addr
    seqr := ⟨a.aStride, a.inc, a.w.xb.setWidth 32, a.w.rm.setWidth 32, if mloopSat a.w then 1 else 0, a.w.fs.setWidth 32,
             BitVec.ofNat 32 form⟩ }

/-- MLOOP_STOP: every member of the loop stops at the boundary and leaves the admission order (R219, R222). -/
def State.stopLoop (s : State) (core slot : Nat) : State :=
  (s.loopSlots core slot).foldl (fun s k =>
    let g := s.group core k
    match g.arr with
    | some a =>
      s.setGroup core k { g.writeMls a with arr := some { a with stopped := true, started := false, halt := false, order := none } }
    | none => s) s

/-- The B columns of step `k`: 64 strings of 128 bytes (R216, R220). -/
def State.columns (s : State) (core slot k : Nat) : List (List Byte) :=
  let col (h : Nat) (i : Nat) : List Byte :=
    let g := s.group core h
    match g.arr with
    | some a => (s.viewOf ⟨core, h, 0⟩).regBytes (a.w.b.toNat + a.w.xb.toNat * k + i)
    | none => List.replicate 128 0
  match s.loopSlots core slot with
  | [h] => (List.range 64).map (col h)
  | hs => hs.flatMap fun h => (List.range 16).map (col h)

/-- The member skips step `k` (R220). -/
def Group.skips (g : Group) (a : ArrayWord) (k : Nat) : Bool :=
  mloopForm a.w != 2 && mloopTmv a.w && !(g.tmreg (mloopTm a.w)).getLsbD k

/-- The rows that a member multiplies (R220). -/
def Group.rowsOf (g : Group) (a : ArrayWord) : List Nat :=
  if mloopForm a.w == 2 then below 16 fun r => (g.tmreg (mloopTm a.w)).getLsbD (16 * (g.num % 4) + r) else List.range 16

/-- One row of one member at step `k`; `v` is the group as a word of it reads it (R10). -/
def stepRow (slot : Word) (a : ArrayWord) (bytes : List Byte) (cols : List (List Byte)) (v g : Group) (row : Nat) : Group :=
  let reg (c : Nat) : Nat := a.w.d.toNat + 2 * row + c / 32
  let sat := mloopSat a.w || slotSat slot
  if slotAcc slot == 0 then
    let av := stringVals slot bytes
    (cols.zipIdx).foldl (fun g x =>
      g.setV (reg x.2) (x.2 % 32)
        (updateFloat slot a.w.rm.toNat sat (v.vreg (reg x.2) (x.2 % 32)) av (stringVals slot x.1))) g
  else
    (cols.zipIdx).foldl (fun g x =>
      let n := updateInt slot (v.vreg (reg x.2) (x.2 % 32)) bytes x.1
      (g.setV (reg x.2) (x.2 % 32) (BitVec.ofNat 32 (intOut (slotAcc slot) sat n))).noteOv (accOver slot n)) g

/-- One K-step of one member (R220). An accumulator register still awaited from an untracked load is read as in a lane word (R10). -/
def State.memberStep (s : State) (core slot k : Nat) (cols : List (List Byte)) : State :=
  let g := s.group core slot
  match g.arr with
  | some a =>
    if g.skips a k then s
    else s.setGroup core slot ((g.rowsOf a).foldl (fun h r =>
      stepRow (g.slotWord a.w) a (s.panelBytes g (a.rowaddr r k) 128) cols (s.viewOf ⟨core, slot, 0⟩) h r) g)
  | none => s

/-- The step has been performed: the next follows, or the loop ends (R221, R222). -/
def State.stepDone (s : State) (core slot : Nat) : State :=
  let g := s.group core slot
  match g.arr with
  | some a =>
    if a.done + 1 < a.k then s.modArr core slot fun a => { a with done := a.done + 1, wins := loopWins a.w (a.done + 1) }
    else s.setGroup core slot { g with arr := none, seqr := default, mls0 := g.mls0 &&& 0x7FFFFFFF#32 }
  | none => s

/-- A pre-emption, or a fault in a split of its group, has reached a member of the loop (R222). A loop that starts while a split of the group
is parked has not been reached. -/
def State.loopReached (s : State) (core slot : Nat) : Bool :=
  s.stateOn (s.group core slot).ctx core != .running || ((s.group core slot).arr.any fun a => a.halt)

/-- MLOOP_STEP: one K-step of a started loop, or its stop at the boundary. A B register still awaited from an untracked load is read as
in a lane word (R221). -/
def execMloopStep (core loop : Nat) (s : State) : Out :=
  match (s.group core loop).arr with
  | some a =>
    if a.op != 0x48 || !a.started then hold s
    else
      let slots := s.loopSlots core loop
      if slots.any fun k => s.loopReached core k then .next (s.stopLoop core loop)
      else
        let s := slots.foldl (fun s k => s.bindRacers ⟨core, k, 0⟩) s
        let cols := s.columns core loop a.done
        let s := slots.foldl (fun s k => s.memberStep core k a.done cols) s
        .next (slots.foldl (fun s k => s.stepDone core k) s)
  | none => hold s

/-- A stopped loop becomes complete again when all its members run (R219, R222). -/
def State.settleLoops (s : State) : State :=
  s.liveGroups.foldl (fun s p =>
    match (s.group p.1 p.2.1).arr with
    | some a =>
      if a.stopped && s.loopComplete p.1 p.2.1 && (s.loopSlots p.1 p.2.1).all fun k => s.groupRuns p.1 k then
        s.completeLoop p.1 p.2.1
      else s
    | none => s) s

/-- A loop that has issued and not started is saved as stopped before its first step (R330). -/
def State.saveLoop (s : State) (core slot : Nat) : State :=
  let g := s.group core slot
  match g.arr with
  | some a =>
    if a.op == 0x48 && !a.stopped then
      s.setGroup core slot { g.writeMls a with arr := some { a with stopped := true, started := false, halt := false, order := none } }
    else s
  | none => s

/-! ### TSTORE (R223, R224) -/

/-- A number whose digits of `e` bits are the list's, lowest first. -/
def packElems (e : Nat) : List Nat → Nat
  | [] => 0
  | x :: xs => x % 2 ^ e + 2 ^ e * packElems e xs

/-- TSTORE's slot; it has no scale operand (R175, R223). -/
def tstoreSlotOk (w : LaneWord) (slot : Word) : Bool :=
  slotScale slot == 0 && isFloat (slotElem slot) == (slotAcc slot == 0) && (slotAcc slot == 0 || w.rm == 0)

/-- The 1,024 converted patterns of an accumulator, in order of element (R223, R224). -/
def tilePatterns (w : LaneWord) (slot : Word) (g : Group) : List Nat :=
  (List.range 1024).map fun j =>
    conv slot false (slotAcc slot) (slotElem slot) (g.vreg (w.b.toNat + j / 32) (j % 32)).toNat (.fin false 1 0) w.rm.toNat
      (xcBits w 0 0 == 1 || slotSat slot)

/-- The tile image (R224). -/
def tileImage (elem budget : Nat) (pats : List Nat) : List Byte :=
  let e := elemBits elem
  let nz := (pats.filter (· != 0)).length
  let size := 144 + roundup16 ((nz * e + 7) / 8)
  let bmp := budget != 0 && size ≤ budget
  let total := if bmp then size else 16 + 128 * e
  let head := budget * 2 ^ 48 + total * 2 ^ 32 + b2n (budget != 0 && !bmp) * 2 ^ 21 + b2n bmp * 2 ^ 20 + elem * 2 ^ 16 + nz
  toBytes head 16 ++
    (if bmp then toBytes (packElems 1 (pats.map fun p => b2n (p != 0))) 128 ++ toBytes (packElems e (pats.filter (· != 0))) (size - 144)
     else toBytes (packElems e pats) (128 * e))

/-- Cuts bytes into pieces of `n`, at rising addresses. -/
def cutBytes (n : Nat) : Nat → DWord → List Byte → List (DWord × List Byte)
  | 0, _, _ => []
  | k + 1, va, bs => if bs.isEmpty then [] else (va, bs.take n) :: cutBytes n k (va + BitVec.ofNat 64 n) (bs.drop n)

/-- A store entry of a whole-split word: one piece of its image (R223, R234). -/
def State.imageEnt (s : State) (op : Nat) (w : LaneWord) (va : DWord) (bs : List Byte) : Entry :=
  { s.laneEnt op w (s.storeKind s.curGroup s.cur.core va) [⟨0, va, bs.length, bs, 0⟩] with dst := 0 }

/-- Stores an image in pieces of `n` bytes: a fault of the address or of the partition stops it whole, and a piece that
meets a live phaser faults the split alone (R223, R234, R255). -/
def storeImage (op : Nat) (w : LaneWord) (n align : Nat) (va : DWord) (image : List Byte) (s : State) : Out :=
  let check (a : DWord) (k : Nat) : Option Fail :=
    (s.requesterCheck s.curGroup s.cur.core .lineStore a k 1).map fun f => ⟨f.1, f.2, a⟩
  let whole : Option Fail := if va.toNat % align != 0 then some ⟨.align, .none, va⟩ else check va image.length
  let pieces : List (DWord × List Byte) := cutBytes n (image.length / n + 1) va image
  match whole.filter fun f => f.kind != .phaserClobber with
  | some f => .next (s.laneFail f)
  | none =>
    let bad := pieces.filterMap fun p => check p.1 p.2.length
    let good := pieces.filter fun p => (check p.1 p.2.length).isNone
    .next (s.issueLines bad w.sw (good.map fun p => s.imageEnt op w p.1 p.2))

/-- TSTORE. -/
def execTstore (w : LaneWord) (s : State) : Out :=
  memIssue 0x49 w (vecWin w.b 32)
    (fun s =>
      let slot := s.curGroup.slotWord w
      if !tstoreSlotOk w slot then .next (s.laneTrap .illegalOperand)
      else
        let va := (s.headOf s.cur).capA.affine.base + sext64 w.xa * 128
        let image := tileImage (slotElem slot) (16 * w.mod.toNat) (tilePatterns w slot (s.viewOf s.cur))
        storeImage 0x49 w 128 128 va image s) s

/-! ### Tile masks (R226) -/

/-- TMSET. -/
def execTmset (w : LaneWord) (s : State) : Out :=
  let g := 2 ^ w.fn.toNat
  let n := modBits w 5 0 + 1
  laneWord 0x4A w (vecWin w.a (n * g)) true
    (fun e h =>
      let bit (i : Nat) : Bool :=
        i < n && (List.range g).any fun k => lanes.any fun l => e.g.vreg (w.a.toNat + g * i + k) l != 0
      h.setTm w.d.toNat ((BitVec.ofBoolListLE ((List.range 64).map bit)).setWidth 64)) s

/-- TMLOG. -/
def execTmlog (w : LaneWord) (s : State) : Out :=
  laneWord 0x4B w [] true
    (fun e h =>
      let a := e.g.tmreg w.a.toNat
      let b := e.g.tmreg w.b.toNat
      h.setTm w.d.toNat ((BitVec.ofBoolListLE ((List.range 64).map fun i =>
        plogOp w.fn.toNat (a.getLsbD i) (b.getLsbD i))).setWidth 64)) s

end Sys2Proof.Machine
end

