-- ==== Sys2Proof/Machine/Parcel.lean ====
section
/-! DEFINITION. The parcel stage: SIGH, PARC, PCOMP, SCAT, PSUM and PLAT, and the end of an array word (R227-R234, R365). -/

namespace Sys2Proof.Machine

/-! ### Fields and windows (R227, R228) -/

/-- N. -/
def parcN (w : LaneWord) : Nat := modBits w 7 0 + 1

/-- w of R227: registers for N rows. -/
def parcW (w : LaneWord) : Nat := (parcN w + 31) / 32

/-- K of the words that read rows. -/
def parcK (w : LaneWord) : Nat := xcBits w 5 0 + 1

/-- RULE. -/
def parcRule (w : LaneWord) : Nat := modBits w 9 8

/-- The slot's ELEM is in the table of R217, and it has no scale operand (R175, R227). -/
def parcSlotOk (slot : Word) : Bool := slotScale slot == 0 && 1 ≤ slotElem slot && slotElem slot ≤ 9

/-- Row i of a panel. -/
def rowAddr (base stride : DWord) (i k : Nat) : DWord :=
  base + BitVec.ofNat 64 i * stride + BitVec.ofNat 64 (128 * k)

/-- The row and step addresses of `n` rows. -/
def rowAddrs (base stride : DWord) (n k : Nat) : List DWord :=
  (List.range n).flatMap fun i => (List.range k).map fun j => rowAddr base stride i j

/-- Lane L of register r of a window, read from a snapshot. -/
def snapRow (src : Tab Word) (reg i : Nat) : Nat := (Tab.get 0 src (32 * reg + i)).toNat

/-- The registers of a window as a snapshot. -/
def Group.snapWin (g : Group) (base n : Nat) : Tab Word :=
  (List.range n).flatMap fun r => lanes.map fun l => (32 * r + l, g.vreg (base + r) l)

/-- The parcel number of each of the first `n` rows of a parcel window (R228). -/
def parcels (src : Tab Word) (n : Nat) : List Nat := (List.range n).map fun i => snapRow src 0 i

/-- The monument entry of a parcel (R228). -/
def monument (src : Tab Word) (w p : Nat) : Nat := snapRow src w p

/-- P: one more than the largest parcel number (R228). -/
def parcelCount (ps : List Nat) : Nat := (ps.map (· + 1)).foldl max 0

/-- The rows of a parcel, in increasing order. -/
def membersOf (ps : List Nat) (p : Nat) : List Nat := (ps.zipIdx.filter fun x => x.1 == p).map (·.2)

/-- The checks of R365 on a parcel window. -/
def windowOk (src : Tab Word) (n w : Nat) (monuments mean : Bool) : Bool :=
  let ps := parcels src n
  let count := parcelCount ps
  ps.all (· < n) && (!monuments || (List.range count).all fun p => monument src w p < n)
  && (!mean || (List.range count).all fun p => ps.contains p)

/-- Writes a list of lane values from register `d` on, with `fill` above them to `n` registers. -/
def Group.putRows (g : Group) (d n fill : Nat) (vals : List Nat) : Group :=
  (List.range (32 * n)).foldl (fun g i => g.setV (d + i / 32) (i % 32) (BitVec.ofNat 32 (vals.getD i fill))) g

/-! ### SIGH (R230) -/

/-- The panel bases of an array word: its A and its B operand with their displacements. -/
def ArrayWord.panelA (a : ArrayWord) : DWord := a.aBase + sext64 a.w.xa * 128
def ArrayWord.panelB (a : ArrayWord) : DWord := a.bBase + sext64 a.w.xb * 128

/-- SIGH. -/
def execSigh (w : LaneWord) (s : State) : Out :=
  let slot := s.curGroup.slotWord w
  let wins := vecWin w.d (parcW w)
  arrayIssue 0x4C w wins (parcSlotOk slot) true
    (fun s =>
      let a := { s.newArr 0x4C w wins with k := parcK w }
      let table := (w.fn.toNat + 1) * a.k * (elemsPer (slotElem slot) / 2)
      let fail := (s.panelCheck .line 128 128 (rowAddrs a.panelA (sext64 a.aStride) (parcN w) a.k)).orElse fun _ =>
        s.panelCheck .line table 16 [a.bBase]
      match fail with
      | some f => .next (s.laneFail f)
      | none => .next ((s.putArr a).laneDone w.sw)) s

/-- The signature bit of a row for a plane: the sum over the steps is not below zero. -/
def signBit (rows planes : List (List Val)) : Bool :=
  let ts := (rows.zip planes).map fun p => stepSum p.1 p.2
  let sum := (ts.drop 1).foldl (fun (x y : Val) => (x.add y false).toX48) (ts.headD (.fin false 0 0))
  match sum with
  | .nan _ => true
  | .inf n => !n
  | .fin n m _ => m == 0 || !n

/-- SIGH finishes. -/
def State.sighDone (s : State) (core slot : Nat) (a : ArrayWord) : State :=
  let g := s.group core slot
  let sw := g.slotWord a.w
  let half := elemsPer (slotElem sw) / 2
  let plane (j k : Nat) : List Val :=
    (elemsOf 5 (s.panelBytes g (a.bBase + BitVec.ofNat 64 ((j * a.k + k) * half)) half)).map fun x => valueOf 5 x
  let row (i : Nat) : List (List Val) :=
    (List.range a.k).map fun k => stringVals sw (s.panelBytes g (rowAddr a.panelA (sext64 a.aStride) i k) 128)
  let sign (i : Nat) : Nat :=
    let r := row i
    sumOver (List.range (a.w.fn.toNat + 1)) fun j => b2n (signBit r ((List.range a.k).map (plane j))) * 2 ^ j
  s.setGroup core slot ({ g with arr := none }.putRows a.w.d.toNat (parcW a.w) 0 ((List.range (parcN a.w)).map sign))

/-! ### PARC (R231) -/

/-- PARC. -/
def execParc (w : LaneWord) (s : State) : Out :=
  let n := parcW w
  let wins := vecWin w.d (2 * n)
  let slot := s.curGroup.slotWord w
  arrayIssue 0x4D w (wins ++ vecWin w.a n)
    ((parcRule w != 1 || parcSlotOk slot) && !overlaps w.d.toNat (2 * n) w.a.toNat n) (parcRule w == 1)
    (fun s =>
      let a := { s.newArr 0x4D w wins with k := parcK w, src := (s.viewOf s.cur).snapWin w.a.toNat n }
      let fail := if parcRule w == 1 then
          s.panelCheck .line 128 128 (rowAddrs a.panelB (sext64 a.bStride) (parcN w) a.k) else none
      match fail with
      | some f => .next (s.laneFail f)
      | none => .next ((s.putArr a).laneDone w.sw)) s

/-- Numbers the rows by signature: the parcel of each row, in order. -/
def numberRows (sigs : List Nat) : List Nat :=
  let firsts := sigs.eraseDups
  sigs.map fun x => firsts.idxOf x

/-- The key of a row under .norm: its rank, and its exact sum of squares. -/
def rowKey (vals : List Val) : Nat × Val :=
  if vals.any Val.isNan then (0, .fin false 0 0)
  else if vals.any (fun v => match v with
      | .inf _ => true
      | _ => false) then (2, .fin false 0 0)
  else (1, vals.foldl (fun (x v : Val) => x.add (v.mul v) false) (.fin false 0 0))

/-- The key is greater. -/
def keyLess (a b : Nat × Val) : Bool := a.1 < b.1 || (a.1 == b.1 && a.2.cmp b.2 < 0)

/-- The member with the greatest key, ties to the lowest row. -/
def topRow (key : Nat → Nat × Val) (rows : List Nat) : Nat :=
  rows.foldl (fun m i => if keyLess (key m) (key i) then i else m) (rows.headD 0)

/-- PARC finishes. -/
def State.parcDone (s : State) (core slot : Nat) (a : ArrayWord) : State :=
  let g := s.group core slot
  let n := parcN a.w
  let ps := numberRows ((List.range n).map fun i => snapRow a.src 0 i)
  let key (i : Nat) : Nat × Val :=
    rowKey ((List.range a.k).flatMap fun k =>
      stringVals (g.slotWord a.w) (s.panelBytes g (rowAddr a.panelB (sext64 a.bStride) i k) 128))
  let mon (p : Nat) : Nat :=
    let rows := membersOf ps p
    if parcRule a.w == 1 then topRow key rows else rows.headD 0
  let g := { g with arr := none }
  let g := g.putRows a.w.d.toNat (parcW a.w) 0xFFFFFFFF ps
  s.setGroup core slot (g.putRows (a.w.d.toNat + parcW a.w) (parcW a.w) 0xFFFFFFFF ((List.range (parcelCount ps)).map mon))

/-! ### PCOMP (R232) -/

/-- The dense rows' addresses. -/
def ArrayWord.denseRows (a : ArrayWord) (count : Nat) : List DWord := rowAddrs a.cBase (sext64 a.cStride) count a.k

/-- The bytes at a scratch address belong to a live phaser (R255). -/
def State.panelTagged (s : State) (g : Group) (va : DWord) (n : Nat) : Bool :=
  match (s.unitOf g).bind fun u => s.scratchUnit u va with
  | some t => s.phaserHit (t.place va).1 (t.place va).2 n
  | none => false

/-- PCOMP. -/
def execPcomp (w : LaneWord) (s : State) : Out :=
  let n := parcW w
  let wins := [(1000 + w.d.toNat, 4)]
  arrayIssue 0x4E w (vecWin w.a (2 * n)) (parcSlotOk (s.curGroup.slotWord w)) true
    (fun s =>
      let src := (s.viewOf s.cur).snapWin w.a.toNat (2 * n)
      let a := { s.newArr 0x4E w wins with k := parcK w, src := src }
      let mean := parcRule w == 2
      let count := parcelCount (parcels src (parcN w))
      if !windowOk src (parcN w) n (!mean) mean then .next (s.laneTrap .illegalOperand)
      else
        let dense := a.denseRows count
        let fail := (s.panelCheck .line 128 128 (rowAddrs a.panelB (sext64 a.bStride) (parcN w) a.k ++ dense)).orElse fun _ =>
          (dense.find? fun va => s.panelTagged s.curGroup va 128).map fun va => ⟨.phaserClobber, .none, va⟩
        match fail with
        | some f => .next (s.laneFail f)
        | none => .next ((s.putArr a).laneDone w.sw)) s

/-- A value divided by a count: the quotient with a sticky bit below 64 further bits, which rounds alike. -/
def Val.divNat (v : Val) (n : Nat) : Val :=
  match v with
  | .fin s m e =>
    if m = 0 then .fin s 0 e
    else
      let q := m * 2 ^ 64 / n
      .fin s (2 * q + (if m * 2 ^ 64 % n = 0 then 0 else 1)) (e - 65)
  | v => v

/-- The exact sum of a list, with the zero and NaN rules of R196. -/
def sumVals (rm : Nat) (vs : List Val) : Val :=
  match firstNan vs with
  | some s => .nan s
  | none =>
    match vs.foldl (fun (a v : Val) => a.add v false) (.fin false 0 0) with
    | .fin n m e => .fin (if m = 0 then zeroSum rm (vs.map Val.isNeg) else n) m e
    | v => v

/-- One element of a synthetic row (R232). -/
def meanElem (slot : Word) (xs : List Nat) : Nat :=
  let t := slotElem slot
  let v := (sumVals 0 (xs.map fun x => readElem slot t x)).divNat xs.length
  if isFloat t then flushOut slot t ((fmtOf t).round 0 (slotSat slot) (slotNan slot) v) else intRound t 0 v

/-- The bytes of a synthetic row's step. -/
def meanBytes (slot : Word) (rows : List (List Byte)) : List Byte :=
  let t := slotElem slot
  let es := rows.map (elemsOf t)
  toBytes (packElems (elemBits t) ((List.range (elemsPer t)).map fun e => meanElem slot (es.map fun r => r.getD e 0))) 128

/-- The tile mask bits of R232. -/
def parcelMask (count m : Nat) : DWord := BitVec.ofNat 64 (2 ^ min 64 (count - 64 * m) - 1)

/-- PCOMP finishes: its rows are written, but for those of a live phaser, and then it faults (R232, R255). Where the dense panel overlaps the
source panel, every source row is read before any row is written (DESIGN CHOICE: R232 does not say; log 41). -/
def State.pcompDone (s : State) (core slot : Nat) (a : ArrayWord) : State :=
  let g := s.group core slot
  let n := parcN a.w
  let ps := parcels a.src n
  let count := parcelCount ps
  let bytes (i k : Nat) : List Byte := s.panelBytes g (rowAddr a.panelB (sext64 a.bStride) i k) 128
  let row (p k : Nat) : List Byte :=
    if parcRule a.w == 2 then meanBytes (g.slotWord a.w) ((membersOf ps p).map fun i => bytes i k)
    else bytes (monument a.src (parcW a.w) p) k
  let items := (List.range count).flatMap fun p =>
    (List.range a.k).map fun k => (rowAddr a.cBase (sext64 a.cStride) p k, row p k)
  let bad := items.filter fun x => s.panelTagged g x.1 128
  let tagged (p : Nat) : Bool := (List.range a.k).any fun k => s.panelTagged g (rowAddr a.cBase (sext64 a.cStride) p k) 128
  let good := (List.range count).flatMap fun p =>
    if tagged p then [] else (List.range a.k).map fun k => (rowAddr a.cBase (sext64 a.cStride) p k, row p k)
  let s := good.foldl (fun s x =>
    match (s.unitOf g).bind fun u => s.scratchUnit u x.1 with
    | some t => s.scrWrite g.ctx (t.place x.1).1 (t.place x.1).2 x.2
    | none => s) s
  let s := s.setGroup core slot { g with
    arr := none
    tm := (List.range 4).foldl (fun t m => Tab.put t (a.w.d.toNat + m) (parcelMask count m)) g.tm }
  match bad with
  | [] => s
  | x :: _ =>
    let s := { s with cur := a.ag }
    let e := { s.newEnt .sStore (pathOf x.1) x.1 [] with uid := a.uid, owners := a.uid :: a.heirs, op := 0x4E, lpc := a.lpc, scw := false }
    s.replyFault core slot g.tag [⟨e, ⟨.phaserClobber, .none, x.1⟩⟩]

/-! ### The end of an array word (R229) -/

/-- The group's SIGH, PARC or PCOMP runs to its end; none when it has no such word. -/
def State.finishArray (s : State) (core slot : Nat) : Option State :=
  match (s.group core slot).arr with
  | some a =>
    match a.op with
    | 0x4C => some (s.sighDone core slot a)
    | 0x4D => some (s.parcDone core slot a)
    | 0x4E => some (s.pcompDone core slot a)
    | _ => none
  | none => none

/-- ARRAY_WORD_FINISH: SIGH, PARC or PCOMP has run and its results land. -/
def execArrayWordFinish (core slot : Nat) (s : State) : Out :=
  match s.finishArray core slot with
  | some t => .next t
  | none => hold s

/-! ### SCAT and PSUM (R233) -/

/-- parcel(i) in a group's parcel window. -/
def Group.parcelAt (g : Group) (base i : Nat) : Nat := (g.vreg (base + i / 32) (i % 32)).toNat

/-- Word (row, column) of an accumulator-shaped window (R216). -/
def Group.accAt (g : Group) (base row col : Nat) : Word := g.vreg (base + 2 * row + col / 32) (col % 32)

/-- Writes one row of an accumulator-shaped window. -/
def Group.setAccRow (g : Group) (base row : Nat) (f : Nat → Word) : Group :=
  (List.range 64).foldl (fun g c => g.setV (base + 2 * row + c / 32) (c % 32) (f c)) g

/-- The windows of SCAT and PSUM. Of the parcel window, whose length R233 does not give, the one register that the word reads is checked
(DESIGN CHOICE, log 41). -/
def scatWins (w : LaneWord) : List (Nat × Nat) := [(w.d.toNat, 32), (w.a.toNat, 32), (scatReg w, 1)]

/-- SCAT. -/
def execScat (w : LaneWord) (s : State) : Out :=
  let ib := 16 * modBits w 3 0
  let pb := 16 * modBits w 7 4
  laneWord 0x4F w (scatWins w) true
    (fun e h => (List.range 16).foldl (fun h o =>
      let p := e.g.parcelAt w.b.toNat (ib + o)
      if p != 0xFFFFFFFF && pb ≤ p && p - pb ≤ 15 then h.setAccRow w.d.toNat o fun c => e.g.accAt w.a.toNat (p - pb) c
      else h) h) s

/-- PSUM. -/
def execPsum (w : LaneWord) (s : State) : Out :=
  let ib := 16 * modBits w 3 0
  let pb := 16 * modBits w 7 4
  laneWord 0x50 w (scatWins w) true
    (fun e h => (List.range 16).foldl (fun h o =>
      let rows := below 16 fun r => e.g.parcelAt w.b.toNat (ib + r) == pb + o
      if rows.isEmpty then h
      else h.setAccRow w.d.toNat o fun c =>
        BitVec.ofNat 32 (f32.roundWord w.rm.toNat (sumVals w.rm.toNat
          (((e.g.accAt w.d.toNat o c) :: rows.map fun r => e.g.accAt w.a.toNat r c).map fun x => f32.decode x.toNat)))) h) s

/-! ### PLAT (R234) -/

/-- A table of n16 entries, padded to 16 bytes. -/
def n16Table (xs : List Nat) : List Byte :=
  let bs := xs.flatMap fun x => toBytes (x % 65536) 2
  bs ++ List.replicate (roundup16 bs.length - bs.length) 0

/-- The plat map image. -/
def platImage (rule sigw : Nat) (ps mons counts : List Nat) : List Byte :=
  let t1 := n16Table ps
  let t2 := n16Table mons
  let t3 := n16Table counts
  let offmon := 16 + t1.length
  let offcnt := offmon + t2.length
  let head := 2 ^ 112 + (offcnt + t3.length) * 2 ^ 96 + offcnt * 2 ^ 80 + offmon * 2 ^ 64 + rule * 2 ^ 36
    + sigw % 16 * 2 ^ 32 + mons.length * 2 ^ 16 + ps.length
  toBytes head 16 ++ t1 ++ t2 ++ t3

/-- PLAT. -/
def execPlat (w : LaneWord) (s : State) : Out :=
  let n := parcW w
  memIssue 0x51 w (vecWin w.b (2 * n))
    (fun s =>
      let src := (s.viewOf s.cur).snapWin w.b.toNat (2 * n)
      if !windowOk src (parcN w) n true false then .next (s.laneTrap .illegalOperand)
      else
        let ps := parcels src (parcN w)
        let count := parcelCount ps
        let image := platImage (parcRule w) (w.fn.toNat + 1) ps ((List.range count).map (monument src n))
          ((List.range count).map fun p => (membersOf ps p).length)
        storeImage 0x51 w 16 16 ((s.headOf s.cur).capA.affine.base + sext64 w.xa * 128) image s) s

end Sys2Proof.Machine
end

