-- ==== Sys2Proof/Machine/Launch.lean ====
section
/-! DEFINITION. The work hierarchy: handles, launch records, leases, placement, completion, and the words LAUNCH, CCNT and
CANCEL (R56-R61, R145, R147, R173, R295-R305). -/

namespace Sys2Proof.Machine

/-! ### Handles (R295-R297) -/

/-- LEVEL of a handle. -/
def handleLevel (h : Word) : Nat := bitsNat h.toNat 31 29

/-- The named object of a handle. -/
def State.handle (s : State) (h : Word) : Option Handle := (s.handles.find? fun p => p.1 == h.toNat).map (·.2)

/-- The number of a status in a counter word (R295). -/
def HStatus.code (x : HStatus) : Nat :=
  match x with
  | .running => 0
  | .completed => 1
  | .failed => 2
  | .cancelled => 3

/-- A completion counter word (R295). -/
def Handle.word (h : Handle) : Word := BitVec.ofNat 32 (h.status.code * 2 ^ 30 + h.count % 2 ^ 30)

/-- A new handle of a level, with the next serial number. -/
def State.newHandle (s : State) (level : Nat) (h : Handle) : Word × State :=
  let n := level * 2 ^ 29 + s.nextSer % 2 ^ 29
  (BitVec.ofNat 32 n, { s with handles := Tab.put s.handles n h, nextSer := s.nextSer + 1 })

/-- Changes a named object. -/
def State.modHandle (s : State) (h : Word) (f : Handle → Handle) : State :=
  match s.handle h with
  | some x => { s with handles := Tab.put s.handles h.toNat (f x) }
  | none => s

/-- The outcome of an object that completes (R296). -/
def Handle.outcome (h : Handle) : HStatus := if h.cancelling then .cancelled else if h.failing then .failed else .completed

/-- An object completes, and lowers its parent's COUNT, which may complete in turn (R296). -/
def completeUp : Nat → State → Word → State
  | 0, s, _ => s
  | k + 1, s, h =>
    match s.handle h with
    | none => s
    | some x =>
      let s := s.modHandle h fun x => { x with status := x.outcome }
      let s := s.modHandle x.parent fun p => { p with count := p.count - 1, failing := p.failing || x.outcome != .completed }
      match s.handle x.parent with
      | some p => if p.closed && p.count == 0 && p.status == .running then completeUp k s x.parent else s
      | none => s

/-- Objects of a level in the table (R297). -/
def State.handlesAt (s : State) (level : Nat) : Nat := s.handles.countP fun p => p.1 / 2 ^ 29 == level

/-- DSRES with ERR (R297). -/
def State.dsErr (s : State) : State := { s with ds := { s.ds with res := s.ds.res ||| 0x8000000000000000#64 } }

/-- DSRES after a success (R297). -/
def State.dsOk (s : State) (h : Word) : State := { s with ds := { s.ds with res := h.setWidth 64 } }

/-- An object that can take a child of a context. -/
def State.takesChild (s : State) (h : Word) (level ctx : Nat) : Bool :=
  match s.handle h with
  | some p => handleLevel h == level && p.ctx == ctx && p.status == .running && !p.closed
  | none => false

/-- DSCMD's OPEN (R297). -/
def State.dsOpen (s : State) (level ctx : Nat) (parent : Word) : State :=
  let ok := 2 ≤ level && level ≤ 4 && (if level == 4 then parent == 0 else s.takesChild parent (level + 1) ctx)
    && s.handlesAt level < Config.handleLimit
  if !ok then s.dsErr
  else
    let s := s.modHandle parent fun p => { p with count := p.count + 1 }
    let (h, s) := s.newHandle level ⟨ctx, parent, .running, 0, false, false, false⟩
    s.dsOk h

/-- DSCMD's CLOSE (R297): an object with no children left completes. -/
def State.dsClose (s : State) (h : Word) : State :=
  match s.handle h with
  | none => s.dsErr
  | some x =>
    if handleLevel h < 2 then s.dsErr
    else
      let s := (s.modHandle h fun x => { x with closed := true }).dsOk h
      if x.count == 0 && x.status == .running then completeUp 4 s h else s

/-- DSCMD's RETIRE (R297). -/
def State.dsRetire (s : State) (h : Word) : State :=
  match s.handle h with
  | none => s.dsErr
  | some x => if x.status == .running then s.dsErr else { s with handles := Tab.del s.handles h.toNat }.dsOk h

/-- OPEN. -/
def execOpenHandle (level : BitVec 3) (ctx : BitVec 10) (parent : Word) (s : State) : Out :=
  .next (s.dsOpen level.toNat ctx.toNat parent)

/-- CLOSE. -/
def execCloseHandle (handle : Word) (s : State) : Out := .next (s.dsClose handle)

/-- RETIRE. -/
def execRetireHandle (handle : Word) (s : State) : Out := .next (s.dsRetire handle)

/-- A write of DSCMD (R297). -/
def State.dsCommand (s : State) (val : DWord) : State :=
  let n := val.toNat
  let h : Word := BitVec.ofNat 32 n
  let level := bitsNat n 59 57
  if bitsNat n 56 42 != 0 then s.dsErr
  else
    match bitsNat n 63 60 with
    | 1 => s.dsOpen level (bitsNat n 41 32) h
    | 2 => if level == 0 then s.dsClose h else s.dsErr
    | 3 => if level == 0 then s.dsRetire h else s.dsErr
    | _ => s.dsErr

/-! ### Launch records (R56, R173, R174, R299, R300) -/

/-- A non-empty descriptor keeps R56. -/
def Desc.launchOk (d : Desc) : Bool :=
  d.count == 0
  || (pathOf d.base == 0 && d.gran < 5 && d.base.toNat % granBytes d.gran == 0 && (d.r || d.w || d.a || d.x)
      && bitsNat d.word.toNat 23 0 == 0 && localOf d.base + d.bytes ≤ 2 ^ 49)

/-- Descriptors from bytes. -/
def descsOf (n : Nat) (bs : List Byte) : List Desc :=
  (List.range n).map fun i =>
    ⟨BitVec.ofNat 64 (ofBytes ((bs.drop (16 * i)).take 8)), BitVec.ofNat 64 (ofBytes ((bs.drop (16 * i + 8)).take 8))⟩

/-- Word `n` of a launch record. -/
def recWord (bs : List Byte) (n : Nat) : Nat := ofBytes ((bs.drop (8 * n)).take 8)

/-- A code address of a launch record: its alignment, on path 0x0 or 0x1 (R299). -/
def codeOk2 (a align : Nat) : Bool := a % align == 0 && a / 2 ^ 60 ≤ 1

/-- The fields of a launch record's first 256 bytes keep R299 and R173. -/
def recordOk (bs : List Byte) : Bool :=
  let w := recWord bs
  let nf := bitsNat (w 6) 53 48
  let gx := bitsNat (w 4) 15 0
  let gy := bitsNat (w 4) 31 16
  let gz := bitsNat (w 4) 47 32
  codeOk2 (w 0) 4 && codeOk2 (w 1) 128
  && (if nf ≤ 10 then w 3 == 0 else w 3 % 16 == 0 && w 3 / 2 ^ 60 == 0)
  && 1 ≤ gx && 1 ≤ gy && 1 ≤ gz && gx * gy * gz < 2 ^ 30 && bitsNat (w 4) 63 48 == 0
  && bitsNat (w 5) 63 48 == 0 && 1 ≤ bitsNat (w 5) 47 40 && bitsNat (w 5) 47 40 ≤ 32 && bitsNat (w 5) 39 36 ≤ 8
  && 1 ≤ bitsNat (w 5) 35 31 && bitsNat (w 5) 35 31 ≤ 20 && 1 ≤ bitsNat (w 5) 30 27 && bitsNat (w 5) 30 27 ≤ 8
  && bitsNat (w 5) 26 19 ≤ 128 && bitsNat (w 5) 18 11 ≤ 128 && bitsNat (w 5) 10 9 ≤ 2 && bitsNat (w 5) 6 0 == 0
  && nf ≤ 32 && bitsNat (w 6) 47 32 == 0 && w 7 == 0
  && ((List.range 10).all fun i => i < nf || (w (12 + 2 * i) == 0 && w (13 + 2 * i) == 0))
  && (List.range 8).all fun i => slotOk (BitVec.ofNat 32 (w (8 + i / 2) / 2 ^ (32 * (i % 2))))

/-- The launch record of 256 bytes and the bytes of its further descriptors (R299). -/
def launchRecOf (bs more : List Byte) : LaunchRec :=
  let w := recWord bs
  let nf := bitsNat (w 6) 53 48
  let d (n : Nat) : DWord := BitVec.ofNat 64 (w n)
  { sbase := d 0, lbase := d 1, ctxb := d 2, gx := bitsNat (w 4) 15 0, gy := bitsNat (w 4) 31 16, gz := bitsNat (w 4) 47 32,
    groups := bitsNat (w 5) 47 40, cset := bitsNat (w 5) 39 36, regg := bitsNat (w 5) 35 31, ecap := bitsNat (w 5) 30 27,
    scr := bitsNat (w 5) 26 19, phn := bitsNat (w 5) 18 11, cls := bitsNat (w 5) 10 9, idem := bitNat (w 5) 8,
    sysp := bitNat (w 5) 7, ctx := bitsNat (w 6) 63 54, graph := BitVec.ofNat 32 (w 6),
    slots := (List.range 8).map fun i => (i, BitVec.ofNat 32 (w (8 + i / 2) / 2 ^ (32 * (i % 2)))),
    foots := descsOf (min nf 10) (bs.drop 96) ++ descsOf (nf - 10) more }

/-- The distributor may send a request for an address: its node is there, and the context's key on die 0, whose gateway the request takes (R41,
R106; log 69). -/
def State.distOpen (s : State) (ctx : Nat) (va : DWord) : Bool := s.populated (nodeOf va) && s.keyedFor 0 ctx va

/-- The distributor reads bytes by virtual address (R298, R300). -/
def State.distRead (s : State) (ctx : Nat) (va : DWord) (n : Nat) : Option (List Byte) × State :=
  if !(linesOf va n false).all fun x => s.distOpen ctx x.1 then (none, s)
  else
    match s.vRead ctx va n with
    | (.error _, s) => (none, s)
    | (.ok bs, s) => (some bs, s)

/-- The lines of a launch record, and of its further descriptors where its bytes name some. -/
def State.launchLines (s : State) (ctx : Nat) (va : DWord) : List (DWord × Nat) :=
  (linesOf va 256 false ++
    match (s.distRead ctx va 256).1 with
    | none => []
    | some bs =>
      if recordOk bs then linesOf (BitVec.ofNat 64 (recWord bs 3)) (16 * (bitsNat (recWord bs 6) 53 48 - 10)) false
      else []).filter fun x => s.distOpen ctx x.1

/-- A launch record may be read: the memory at its homes is ready (R358), and its requests may cross Traverse (R102, R105). -/
def State.mayReadLaunch (s : State) (ctx : Nat) (va : DWord) : Bool :=
  let ls := s.launchLines ctx va
  ls.all (fun x => s.homeReady ctx (noPath x.1)) && State.mayCrossAll 0 ctx none .load ls s

/-- Reads a launch record by virtual address, over Traverse where it lies at another node (R102): none when it cannot be read, or breaks
R299, R56 or R173 (R300). -/
def State.readLaunch (s : State) (ctx : Nat) (va : DWord) : Option LaunchRec × State :=
  let s := s.crossAll 0 ctx none .load (s.launchLines ctx va)
  match s.distRead ctx va 256 with
  | (none, s) => (none, s)
  | (some bs, s) =>
    if !recordOk bs then (none, s)
    else
      let nf := bitsNat (recWord bs 6) 53 48
      match s.distRead ctx (BitVec.ofNat 64 (recWord bs 3)) (16 * (nf - 10)) with
      | (none, s) => (none, s)
      | (some more, s) =>
        let r := launchRecOf bs more
        if r.foots.all Desc.launchOk then (some r, s) else (none, s)

/-- Units of a launch. -/
def LaunchRec.total (r : LaunchRec) : Nat := r.gx * r.gy * r.gz

/-- LAUNCH_REJECT: a rejected launch receives a handle with STATUS failed and COUNT 0, and its graph has a failed child
(R296, R300). What an entry of the inlet names that is no graph is nobody's parent. -/
def State.rejectLaunch (s : State) (ctx : Nat) (graph : Word) : Word × State :=
  let s := if handleLevel graph == 2 then s.modHandle graph fun p => if p.status == .running then { p with failing := true } else p else s
  s.newHandle 1 ⟨ctx, graph, .failed, 0, true, true, false⟩

/-- A launch that the distributor takes: its handle, its units to place and its ranges to grant (R57, R296, R301). -/
def State.takeLaunch (s : State) (r : LaunchRec) (graph : Word) : Word × State :=
  let s := s.modHandle graph fun p => { p with count := p.count + 1 }
  let (h, s) := s.newHandle 1 ⟨r.ctx, graph, .running, r.total, true, false, false⟩
  let leases := ((r.foots.zipIdx).filter fun d => 0 < d.1.count).map fun d =>
    (⟨h, d.2, r.ctx, ownerOf d.1.base, d.1, false, false⟩ : Lease)
  (h, { s with
    launches := Tab.put s.launches h.toNat ⟨r, s.nextLaunch, 0, 0, false, false, false⟩
    nextLaunch := s.nextLaunch + 1
    leases := s.leases ++ leases })

/-- Launches that still have units to place: the distributor's inlet (R301). -/
def State.inletHeld (s : State) : Nat :=
  s.launches.countP fun p => !p.2.complete && !p.2.cancelled && p.2.placed < p.2.rec_.total

/-- LAUNCH is a release at DEV scope (R301). -/
def execLaunch (d a : BitVec 6) (try_ : Bool) (s : State) : Out :=
  scalarWord (pairOk a) (pairReads a)
    (fun s =>
      let va := s.curSplit.spair a.toNat
      let g := s.curGroup
      if va.toNat % 256 != 0 then .next (s.scalarFault ⟨.align, .none, va⟩)
      else if 1 < pathOf va || !s.populated (nodeOf va) then .next (s.scalarFault ⟨.path, .none, va⟩)
      else if Config.inletLaunches ≤ s.inletHeld then
        (if try_ then s.finish fun sp => sp.setFlag true else hold s)
      else if !s.released 3 || !s.mayReadLaunch g.ctx va then hold s
      else
        let graph := ((s.handle g.launch).map (·.parent)).getD 0
        let (r, s) := s.readLaunch g.ctx va
        let (h, s) :=
          match r with
          | none => s.rejectLaunch g.ctx graph
          | some r =>
            if r.graph != 0 || r.ctx != g.ctx || (r.sysp && !g.sysp) || !s.takesChild graph 2 g.ctx then s.rejectLaunch g.ctx graph
            else s.takeLaunch r graph
        s.finish fun sp => (sp.setS d.toNat h).setFlag false) s

/-! ### The host's inlet (R297, R298) -/

/-- The key of an entry of the inlet. -/
def State.inletKey (s : State) (i : Nat) : Nat :=
  physKey (s.ownDie (bitsNat s.ds.ibase.toNat 11 10)) 0 (ringBase s.ds.ibase + 16 * i)

/-- Entries of the inlet ring; 0 when it is disabled. -/
def State.inletSize (s : State) : Nat := ringSize s.ds.ibase 9

/-- DSITAIL may be moved (R298). -/
def State.inletMayMove (s : State) (val : DWord) : Bool :=
  let n := s.inletSize
  let held := ringHeld s.ds.ihead s.ds.itail n
  let new := ringHeld s.ds.ihead (val.setWidth 16) n
  n != 0 && bitsNat val.toNat 15 0 < n && held ≤ new && new ≤ n - 1

/-- The slots of the inlet ring between the present tail and a new one. -/
def State.inletNew (s : State) (val : DWord) : List Nat :=
  let n := s.inletSize
  (List.range ((bitsNat val.toNat 15 0 + n - s.ds.itail.toNat) % n)).map fun i => (s.ds.itail.toNat + i) % n

/-- The host may have written an entry of the inlet through BAR 2 since the tail last moved, where its memory is ready: any 16 bytes, or none
(R112, R298, R358; log 71). -/
def State.hostEntry (s : State) (i : Nat) : State :=
  if s.memReady (s.inletKey i) && Config.freeBit s.tick (1048576 + i) then
    s.unitWrite (s.inletKey i) ((List.range 4).flatMap fun w => toBytes (Config.freeWord s.tick (1048576 + 4 * i + w)).toNat 4)
  else s

/-- DSITAIL_WRITE: the host has written the entries up to the new tail. A write that is not taken changes nothing (R298). -/
def execDsitailWrite (val : DWord) (s : State) : Out :=
  if s.inletMayMove val then
    let t := (s.inletNew val).foldl State.hostEntry s
    .next { t with ds := { t.ds with itail := val.setWidth 16 } }
  else .next s

/-- The record that an inlet entry names is not read, or may be read now. -/
def State.inletReady (s : State) (va : DWord) (graph : Word) : Bool :=
  match s.handle graph with
  | none => true
  | some p => !s.takesChild graph 2 p.ctx || va.toNat % 256 != 0 || 1 < pathOf va || s.mayReadLaunch p.ctx va

/-- The launch of an inlet entry: its record is read in the context of its graph (R298). -/
def State.inletLaunch (s : State) (va : DWord) (graph : Word) : Word × State :=
  match s.handle graph with
  | none => s.rejectLaunch 0 0
  | some p =>
    if !s.takesChild graph 2 p.ctx || va.toNat % 256 != 0 || 1 < pathOf va then s.rejectLaunch p.ctx graph
    else
      match s.readLaunch p.ctx va with
      | (none, s) => s.rejectLaunch p.ctx graph
      | (some r, s) =>
        if r.ctx != p.ctx || (r.graph != 0 && r.graph != graph) then s.rejectLaunch p.ctx graph else s.takeLaunch r graph

/-- DSI_ENTRY: the distributor takes the entry at DSIHEAD and writes the launch handle into it, once the memory of the entry is ready (R358). -/
def execDsiEntry (s : State) : Out :=
  let n := s.inletSize
  if n == 0 || s.ds.ihead == s.ds.itail || Config.inletLaunches ≤ s.inletHeld then hold s
  else
    let key := s.inletKey s.ds.ihead.toNat
    let e := ofBytes (s.mem.readN key 16)
    let va : DWord := BitVec.ofNat 64 (bitsNat e 127 64)
    if !s.memReady key || !s.inletReady va (BitVec.ofNat 32 e) then hold s
    else
      let (h, s) := s.inletLaunch va (BitVec.ofNat 32 e)
      let s := s.unitWrite (key + 4) (toBytes h.toNat 4)
      .next { s with ds := { s.ds with ihead := ringNext s.ds.ihead n } }

/-! ### Leases (R57, R58, R61) -/

/-- The pages of a range from `va` to `stop`: their leaves, or the address of the first that is not resident (R57, R58). A malformed
leaf with V = 1 and STATE 0 or 1 counts as not resident, since it maps no page that could be pinned (DESIGN CHOICE: R57 tests V and STATE
alone); the address is the one at which the walk met the page, 4 KiB aligned, and not the start of a larger page (DESIGN CHOICE: R58 says
only which page; log 72). -/
def rangePages (s : State) (ctx : Nat) : Nat → DWord → Nat → Except DWord (List Leaf)
  | 0, _, _ => .ok []
  | k + 1, va, stop =>
    if stop ≤ va.toNat then .ok []
    else
      match s.walkNow ctx va with
      | .error _ => .error (va &&& 0xFFFFFFFFFFFFF000#64)
      | .ok l =>
        if 2 ≤ l.state then .error (va &&& 0xFFFFFFFFFFFFF000#64)
        else
          match rangePages s ctx k (BitVec.ofNat 64 (pageOf va l.lo + l.size)) stop with
          | .error a => .error a
          | .ok ls => .ok (l :: ls)

/-- Walks a range. -/
def State.walkRange (s : State) (ctx : Nat) (d : Desc) : Except DWord (List Leaf) :=
  rangePages s ctx (d.bytes / 4096 + 2) (noPath d.base) (d.start + d.bytes)

/-- The tables of every page that the walk of a range meets, from `va` to `stop`, can be read (R358). -/
def tablesFrom (s : State) (ctx : Nat) : Nat → DWord → Nat → Bool
  | 0, _, _ => true
  | k + 1, va, stop =>
    if stop ≤ va.toNat then true
    else
      s.tablesReady ctx va &&
      match s.walkNow ctx va with
      | .error _ => true
      | .ok l => 2 ≤ l.state || tablesFrom s ctx k (BitVec.ofNat 64 (pageOf va l.lo + l.size)) stop

/-- Writes LEASE of a leaf (R57, R61). -/
def State.setLeaseBit (s : State) (key : Nat) (on : Bool) : State :=
  let e := (s.raw64 key).toNat
  let bit := bitNat e 6
  if bit == on then s else s.unitWrite key (toBytes (if on then e + 64 else e - 64) 8)

/-- Replaces a lease. -/
def State.putLease (s : State) (l : Lease) : State :=
  { s with leases := s.leases.map fun x => if x.launch == l.launch && x.idx == l.idx then l else x }

/-- The residency request of a range (R58). -/
def Lease.request (l : Lease) (va : DWord) : Nat :=
  va.toNat * 2 ^ 64 + l.launch.toNat * 2 ^ 32 + l.ctx % 1024 * 2 ^ 22 + l.idx % 64 * 2 ^ 16 + 1

/-- The key of the next slot of a die's residency ring (R59). -/
def State.lrKey (s : State) (di : Nat) : Nat := physKey di 0 (ringBase (s.die di).lrbase + 16 * (s.die di).lrtail.toNat)

/-- The lease unit can answer a range now: its tables can be read, and the memory that it names is ready, or the ring has room, in memory that is
ready (R57-R59, R358). -/
def State.leaseReady (s : State) (l : Lease) : Bool :=
  tablesFrom s l.ctx (l.desc.bytes / 4096 + 2) (noPath l.desc.base) (l.desc.start + l.desc.bytes) &&
  match s.walkRange l.ctx l.desc with
  | .ok ls => ls.all fun x => s.pageReady (x.keyOf l.die 0) x.size
  | .error _ => !ringFull (s.die l.die).lrhead (s.die l.die).lrtail (ringSize (s.die l.die).lrbase 11) && s.memReady (s.lrKey l.die)

/-- The lease unit takes a range: it is granted, or a request is written; until it can answer, nothing happens (R57-R59, R358). -/
def State.askLease (s : State) (l : Lease) : State :=
  if !s.leaseReady l then s
  else
    match s.walkRange l.ctx l.desc with
    | .ok ls => (ls.foldl (fun s x => s.setLeaseBit x.key true) s).putLease { l with granted := true, asked := false }
    | .error va =>
      let n := ringSize (s.die l.die).lrbase 11
      let s := s.unitWrite (s.lrKey l.die) (toBytes (l.request va) 16)
      (s.modDie l.die fun d => { d with lrtail := ringNext d.lrtail n }).putLease { l with asked := true }

/-- The distributor's packet about a lease, a descriptor of 16 bytes, may leave for the lease unit of its die (R57, R61, R102; log 69). -/
def State.mayTell (s : State) (l : Lease) : Bool := s.mayLeaveFor 0 (l.die / 4) l.desc.base 16

/-- The packet leaves. -/
def State.tellLease (s : State) (l : Lease) : State := s.leaveFor 0 (l.die / 4) l.desc.base 16

/-- LEASE_REQUEST: a range of a launch that has not been asked for. -/
def execLeaseRequest (launch desc : Nat) (s : State) : Out :=
  match s.leases.find? fun l => l.launch.toNat == launch && l.idx == desc && !l.granted && !l.asked with
  | some l => if s.leaseReady l && s.mayTell l then .next ((s.tellLease l).askLease l) else hold s
  | none => hold s

/-- RECHECK: every pending range of the context on the die is walked again from its start (R58). -/
def State.recheck (s : State) (die ctx : Nat) : State :=
  (s.leases.filter fun l => l.die == die && l.ctx == ctx && !l.granted).foldl (fun s l => s.askLease { l with asked := false })
    { s with leases := s.leases.map fun l => if l.die == die && l.ctx == ctx && !l.granted then { l with asked := false } else l }

/-- RECHECK of a die of the own node. -/
def execRecheck (die ctx : Nat) (s : State) : Out := .next ((s.recheck (s.ownDie die) ctx).clearStage (s.ownDie die))

/-- Another granted range of the context touches a page. -/
def pageHeld (ls : List Lease) (ctx start size : Nat) : Bool :=
  ls.any fun l => l.granted && l.ctx == ctx && start < l.desc.start + l.desc.bytes && l.desc.start < start + size

/-- Gives a granted range back: LEASE is cleared on each page whose count reaches zero (R61). -/
def releasePages : Nat → State → Lease → DWord → State
  | 0, s, _, _ => s
  | k + 1, s, l, va =>
    if l.desc.start + l.desc.bytes ≤ va.toNat then s
    else
      match s.walkNow l.ctx va with
      | .error _ => releasePages k s l (BitVec.ofNat 64 (pageOf va 12 + 4096))
      | .ok x =>
        let start := pageOf va x.lo
        let s := if pageHeld s.leases l.ctx start x.size then s else s.setLeaseBit x.key false
        releasePages k s l (BitVec.ofNat 64 (start + x.size))

/-- Releases one range. -/
def State.releaseLease (s : State) (l : Lease) : State :=
  let s := { s with leases := s.leases.filter fun x => !(x.launch == l.launch && x.idx == l.idx) }
  if l.granted then releasePages (l.desc.bytes / 4096 + 2) s l (noPath l.desc.base) else s

/-- Every unit of a launch has ended, and its requests and jobs are done; a hint has no reply to wait for (R61, R76). -/
def State.launchQuiet (s : State) (launch : Word) (l : Launch) : Bool :=
  l.ended == l.rec_.total && !(s.ents.any fun e => e.launch == launch && e.kind != .hint)
  && !(s.clusters.any fun p => p.2.window.any fun c => c.launch == launch)

/-- A launch's ranges are all granted (R57). -/
def State.launchGranted (s : State) (launch : Word) : Bool := (s.leases.filter fun l => l.launch == launch).all (·.granted)

/-- Leases are released one after the other, each by a packet to its die (R61, R102); none while one of them cannot leave. -/
def releaseAll : List Lease → State → Option State
  | [], s => some s
  | l :: ls, s => if s.mayTell l then releaseAll ls ((s.tellLease l).releaseLease l) else none

/-- LEASE_RELEASE: a launch that is quiet gives its leases back. -/
def execLeaseRelease (launch : Nat) (s : State) : Out :=
  match s.launches.find? fun p => p.1 == launch with
  | some (_, l) =>
    let h : Word := BitVec.ofNat 32 launch
    match if s.launchQuiet h l then releaseAll (s.leases.filter fun x => x.launch == h) s else none with
    | some t => .next t
    | none => hold s
  | none => hold s

/-- LAUNCH_COMPLETE: the launch is quiet and its leases are released (R296). -/
def execLaunchComplete (launch : Nat) (s : State) : Out :=
  match s.launches.find? fun p => p.1 == launch with
  | some (_, l) =>
    let h : Word := BitVec.ofNat 32 launch
    if l.complete || !s.launchQuiet h l || s.leases.any (fun x => x.launch == h) then hold s
    else
      let s := { s with launches := Tab.put s.launches launch { l with complete := true } }
      .next (completeUp 4 s h)
  | none => hold s

/-! ### Placement (R119, R122, R145, R147, R305) -/

/-- The units that are resident on a core. -/
def State.unitsOn (s : State) (core : Nat) : List UnitRec :=
  (s.units.filter fun p => p.2.core == core && !p.2.ended && !p.2.away).map (·.2)

/-- The partition bases of a core with a free run of `n` bytes (R119). -/
def State.freeBases (s : State) (core n : Nat) : List Nat :=
  ((List.range (Config.scratchBytes / Config.partUnit)).map (· * Config.partUnit)).filter fun b =>
    b + n ≤ Config.scratchBytes && (s.unitsOn core).all fun u => !overlaps b n u.pbase u.psize

/-- A free base, as the distributor chooses (log 12); 0 for a unit without a partition. -/
def State.pickBase (s : State) (core n salt : Nat) : Option Nat :=
  if n == 0 then some 0
  else
    let bs := s.freeBases core n
    bs[Config.freeNat s.tick (500 + salt) % bs.length]?

/-- The free slots of a pipeline, in increasing order (R305). -/
def State.freeSlots (s : State) (core pipe : Nat) : List Nat :=
  below Config.slotsPerCore fun k => k % 4 == pipe && !(s.group core k).live

/-- The context slot that a context has, or would take (R145). -/
def State.slotFor (s : State) (core ctx : Nat) : Option Nat := (s.ctxSlot core ctx).orElse fun _ => s.freeCtxSlot core

/-- A core fits a unit of a launch (R305). -/
def State.fits (s : State) (core : Nat) (r : LaunchRec) : Bool :=
  let c := s.slotFor core r.ctx
  (match c with
   | some k => s.rowsGrant core k (r.groups * r.regg * 32)
   | none => false)
  && (s.stateOn r.ctx core == .running || s.stateOn r.ctx core == .absent || s.stateOn r.ctx core == .preempted || s.stateOn r.ctx core == .halted)
  && ((List.range 4).all fun p => ((List.range r.groups).filter fun n => n % 4 == p).length ≤ (s.freeSlots core p).length)
  && (r.scr == 0 || !(s.freeBases core (r.scr * Config.partUnit)).isEmpty)
  && sumOver (s.unitsOn core) (·.phn) + r.phn ≤ Config.phasersPerCore

/-- The least by a number, the earliest of equals. -/
def leastOf (f : Nat → Nat) (l : List Nat) : Option Nat := leastBy f l

/-- The cores of the next units of a launch, in order: one core, or the cores of a set (R122, R305). -/
def State.spot (s : State) (l : Launch) : Option (List Nat) :=
  let r := l.rec_
  if r.cset == 0 then
    (leastOf (fun c => (s.groupsOn c).length) (below Config.coresPerPackage fun c => s.fits c r)).map fun c => [c]
  else
    let n := min r.cset (r.total - l.placed)
    let cores (k : Nat) : List Nat := (List.range n).map (8 * k + ·)
    (leastOf (fun k => sumOver (cores k) fun c => (s.groupsOn c).length)
      (below 32 fun k => (cores k).all fun c => s.fits c r)).map cores

/-- A launch that the distributor may place from. -/
def State.placeable (s : State) (h : Nat) (l : Launch) : Bool :=
  !l.complete && !l.cancelled && l.placed < l.rec_.total && s.launchGranted (BitVec.ofNat 32 h)

/-- A launch stands before another (R305). -/
def Launch.precedes (l m : Launch) : Bool := l.rec_.cls < m.rec_.cls || (l.rec_.cls == m.rec_.cls && l.order < m.order)

/-- The split that a group starts with (R9, R147). -/
def firstSplit (sbase : DWord) (uid : Nat) (tick : Nat) : Split :=
  { Split.empty with status := .running, mask := Mask.full, spc := sbase, uid := uid, ageS := tick, ageL := tick }

/-- Places group `n` of a unit (R147, R305). -/
def State.placeGroup (s : State) (launch : Word) (r : LaunchRec) (unit core idx csIdx n : Nat) : State :=
  match (s.freeSlots core (n % 4)).head? with
  | none => s
  | some slot =>
    let g := { Group.empty with
      live := true, ctx := r.ctx, launch := launch, unit := unit, num := n, x := idx % r.gx, y := idx / r.gx % r.gy,
      z := idx / r.gx / r.gy, csIdx := csIdx, cls := r.cls, ecap := r.ecap, idem := r.idem, sysp := r.sysp, sbase := r.sbase,
      lbase := r.lbase, ctxb := r.ctxb, slots := r.slots, g := r.regg, tag := (s.group core slot).tag,
      splits := [(0, firstSplit r.sbase s.nextUid s.tick)] }
    let s := ({ s with nextUid := s.nextUid + 1 }.setGroup core slot g).giveRows core slot 0 (32 * r.regg)
    { s with units := s.units.map fun p => if p.1 == unit then (p.1, { p.2 with slots := p.2.slots ++ [slot] }) else p }

/-- A context becomes resident on a core (R145, R321). -/
def State.enterCore (s : State) (ctx core : Nat) : State :=
  let s :=
    match s.ctxSlot core ctx, s.freeCtxSlot core with
    | none, some k =>
      let c := s.core core
      s.setCore core { c with ctxSlots := Tab.put c.ctxSlots k ctx }
    | _, _ => s
  if s.stateOn ctx core == .absent then s.setCtxCore ctx core { s.ctxCore ctx core with state := .running } else s

/-- Places one unit on a core (R305). -/
def State.placeUnit (s : State) (launch : Word) (r : LaunchRec) (idx core csIdx : Nat) (set : Option Nat) : State :=
  match s.pickBase core (r.scr * Config.partUnit) csIdx with
  | none => s
  | some base =>
    let unit := s.nextUnit
    let u : UnitRec :=
      ⟨launch, idx, core, r.ctx, [], base, r.scr * Config.partUnit, set, csIdx, r.phn, r.groups, false, false⟩
    let s := { s.enterCore r.ctx core with nextUnit := unit + 1, units := Tab.put s.units unit u }
    (List.range r.groups).foldl (fun s n => s.placeGroup launch r unit core idx csIdx n) s

/-- UNIT_PLACE: the distributor places the next unit of a launch, or its next cluster set, when no launch before it can be
placed. -/
def execUnitPlace (launch : Nat) (s : State) : Out :=
  match s.launches.find? fun p => p.1 == launch with
  | none => hold s
  | some (_, l) =>
    let ahead := s.launches.any fun p => p.2.precedes l && s.placeable p.1 p.2 && (s.spot p.2).isSome
    if ahead || !s.placeable launch l then hold s
    else
      match s.spot l with
      | none => hold s
      | some cores =>
        let h : Word := BitVec.ofNat 32 launch
        let set := if l.rec_.cset == 0 then none else some s.nextSet
        let s := { s with
          launches := Tab.put s.launches launch { l with placed := l.placed + cores.length }
          nextSet := s.nextSet + 1 }
        .next ((cores.zipIdx).foldl (fun s c => s.placeUnit h l.rec_ (l.placed + c.2) c.1 c.2 set) s)

/-! ### CCNT and CANCEL (R302, R303) -/

/-- The handle that a level names among the ancestors of a launch: 1 launch to 4 job. -/
def State.ancestor (s : State) (launch : Word) : Nat → Word
  | 0 => launch
  | 1 => launch
  | n + 1 => ((s.handle (s.ancestor launch n)).map (·.parent)).getD 0

/-- The counter word of a handle of a context; none for an invalid one. -/
def State.counter (s : State) (ctx : Nat) (h : Word) : Option Word :=
  match s.handle h with
  | some x => if x.ctx == ctx then some x.word else none
  | none => none

/-- CCNT. -/
def execCcnt (d a : BitVec 6) (byHandle : Bool) (level : BitVec 3) (s : State) : Out :=
  scalarWord (levelOk byHandle a level) (if byHandle then [a.toNat] else [])
    (fun s =>
      let g := s.curGroup
      let own := BitVec.ofNat 32 (((s.unitOf g).map (·.left)).getD 0)
      let w := if byHandle then s.counter g.ctx (s.curSplit.sreg a.toNat)
        else if level == 0 then some own
        else s.counter g.ctx (s.ancestor g.launch level.toNat)
      match w with
      | none => s.finish fun sp => (sp.setS d.toNat 0xFFFFFFFF#32).setFlag true
      | some x =>
        let s := if x.toNat / 2 ^ 30 == 1 then s.acquireDrop s.cur.core 3 else s
        s.finish fun sp => (sp.setS d.toNat x).setFlag false) s

/-- A group that CANCEL ends stops: its waits are withdrawn, and its array word other than MLOOP finishes with nobody to
fault (R229, R303). -/
def State.cancelGroup (s : State) (core slot : Nat) : State :=
  let g := s.group core slot
  let s := g.live8.foldl (fun s n => s.withdrawWait g.ctx (g.split n).wait) s
  let s := s.setGroup core slot { s.group core slot with splits := [] }
  (s.finishArray core slot).getD s

/-- Ends a placed unit by CANCEL: its cards stop, even those that have outlived it, its array words other than MLOOP finish, its groups end
(R138, R229, R303). -/
def State.cancelUnit (s : State) (unit : Nat) : State :=
  match s.units.find? fun p => p.1 == unit with
  | none => s
  | some (_, u) =>
    let s := s.cancelCards unit
    if u.ended then s
    else
      let s := if u.away then s else u.slots.foldl (fun s slot => s.cancelGroup u.core slot) s
      s.killUnit unit true

/-- A pending range of another node's die, whose lease unit has been asked: its release is a packet, LEASE_RELEASE's (R61, R102). -/
def State.askedAfar (s : State) (l : Lease) : Bool := l.asked && l.die / 4 != s.node.toNat

/-- Cancels a launch: the units not placed never are, and its pending leases are released (R303). -/
def State.cancelLaunch (s : State) (h : Nat) : State :=
  match s.launches.find? fun p => p.1 == h with
  | none => s
  | some (_, l) =>
    if l.complete || l.cancelled then s
    else
      let w : Word := BitVec.ofNat 32 h
      let s := { s with
        launches := Tab.put s.launches h { l with cancelled := true }
        leases := s.leases.filter fun x => x.launch != w || x.granted || s.askedAfar x }
      let s := s.launchUnitsEnded w (l.rec_.total - l.placed) true
      (s.units.filter fun p => p.2.launch == w).foldl (fun s p => s.cancelUnit p.1) s

/-- The handles of an object's subtree that have not completed. -/
def State.subtree (s : State) (h : Word) : List Word :=
  let kids (l : List Word) : List Word :=
    (s.handles.filter fun p => p.2.status == .running && l.any fun x => x == p.2.parent).map fun p => BitVec.ofNat 32 p.1
  let a := kids [h]
  let b := kids a
  [h] ++ a ++ b ++ kids b

/-- Cancels a named object: every object of its subtree that has not completed (R296, R303). -/
def State.cancelHandle (s : State) (h : Word) : State :=
  let tree := s.subtree h
  let s := tree.foldl (fun s x => s.modHandle x fun o => { o with cancelling := true }) s
  tree.foldl (fun s x => if handleLevel x == 1 then s.cancelLaunch x.toNat else s) s

/-- CANCEL. -/
def execCancel (a : BitVec 6) (byHandle : Bool) (level : BitVec 3) (s : State) : Out :=
  scalarWord (levelOk byHandle a level) (if byHandle then [a.toNat] else [])
    (fun s =>
      let g := s.curGroup
      let go (flag : Bool) : State := (s.modCur fun sp => sp.setFlag flag).advance
      if !byHandle && level == 0 then .next ((go false).cancelUnit g.unit)
      else
        let h := if byHandle then s.curSplit.sreg a.toNat else s.ancestor g.launch level.toNat
        match s.handle h with
        | none => .next (go true)
        | some x =>
          if x.ctx != g.ctx then .next (go true)
          else if x.status != .running then .next (go false)
          else .next ((go false).cancelHandle h)) s

end Sys2Proof.Machine
end

