-- ==== Sys2Proof/Machine/Context.lean ====
section
/-! DEFINITION. The context commands and RESUME, the deferred reports, the watchdog and BKPT (R292, R309, R315, R321-R329). -/

namespace Sys2Proof.Machine

/-! ### CTXCMD (R321, R327) -/

/-- The cores that a command names (R327). -/
def State.cmdCores (s : State) (ctx : Nat) (all : Bool) (core : Nat) : List Nat := if all then s.coresOf ctx else [core]

/-- A refused command sets ERR and changes nothing (R327). -/
def State.ctxErr (s : State) (ctx : Nat) : State := s.modCtx ctx fun c => { c with resErr := true }

/-- The context's state on a core changes. -/
def State.setStateOn (s : State) (ctx core : Nat) (x : CtxState) : State :=
  s.setCtxCore ctx core { s.ctxCore ctx core with state := x }

/-- Issue of a context stops on a core where it runs, and the loops of its groups there are to stop at their next boundary, even where RUN comes
first (R222, R328). -/
def State.stopIssue (s : State) (ctx core : Nat) (x : CtxState) : State :=
  let s := if s.stateOn ctx core == .running then
      { s with groups := s.groups.map fun p => (p.1, if p.1 / 64 == core && p.2.live && p.2.ctx == ctx then p.2.haltLoop else p.2) }
    else s
  s.setStateOn ctx core x

/-- An accepted command: CTXRES follows its progress to the state `goal` on the cores that it names (R321, R327). -/
def State.ctxOk (s : State) (ctx : Nat) (all : Bool) (core : Nat) (cores : List Nat) (goal : CtxState) : State :=
  (s.modCtx ctx fun c => { c with
    resErr := false, resCore := core, resAll := all, resGoal := some goal, resCores := cores, resDone := false }).noteDone ctx

/-- A command that moves the context on every core it names from one of the states `from_` to `next` (R327). `cores` are the
cores that it names. -/
def State.ctxMove (s : State) (ctx : Nat) (all : Bool) (core : Nat) (cores : List Nat) (from_ : List CtxState) (next goal : CtxState) :
    State :=
  if cores.isEmpty || cores.any fun k => !(from_.contains (s.stateOn ctx k)) then s.ctxErr ctx
  else (cores.foldl (fun s k => s.stopIssue ctx k next) s).ctxOk ctx all core cores goal

/-- QUERY is done at once, since it names no state to reach, and reports the state of its core, with ERR when the context is absent there (R327). -/
def execQuery (ctx : Nat) (all : Bool) (core : Nat) (s : State) : Out :=
  let s := s.ctxOk ctx all core [] .absent
  .next (if !all && s.stateOn ctx core == .absent then s.ctxErr ctx else s)

/-- PREEMPT (R328). -/
def execPreempt (ctx : Nat) (all : Bool) (core : Nat) (s : State) : Out :=
  .next (s.ctxMove ctx all core (s.cmdCores ctx all core) [.running] .preempted .preempted)

/-- HALT, which fires the snapshot trigger of R340. -/
def execHalt (ctx : Nat) (all : Bool) (core : Nat) (s : State) : Out :=
  let s := s.ctxMove ctx all core (s.cmdCores ctx all core) [.running, .preempted] .halted .halted
  .next (if (s.ctx ctx).resErr then s else s.snapFire 12 false)

/-- RUN. -/
def execRun (ctx : Nat) (all : Bool) (core : Nat) (s : State) : Out :=
  .next (s.ctxMove ctx all core (s.cmdCores ctx all core) [.preempted, .halted] .running .running)

/-- The cores on which the units of the cluster sets of a context's units on some cores stand, for placed or for evicted
units (R330). -/
def State.setCores (s : State) (ctx : Nat) (away : Bool) (cores : List Nat) : List Nat :=
  let mine := (s.units.filter fun p => p.2.ctx == ctx && !p.2.ended && p.2.away == away).map (·.2)
  let sets := (mine.filter fun u => cores.contains u.core).filterMap (·.set)
  (cores ++ ((mine.filter fun u => u.set.any sets.contains).map (·.core))).eraseDups

/-- The named cores with those that their cluster sets bring in, to the last (R330). -/
def State.linkedCores (s : State) (ctx : Nat) (away : Bool) (cores : List Nat) : List Nat :=
  (List.range 8).foldl (fun cs _ => s.setCores ctx away cs) cores

/-- EVICT. -/
def execEvict (ctx : Nat) (all : Bool) (core : Nat) (s : State) : Out :=
  .next (s.ctxMove ctx all core (s.linkedCores ctx false (s.cmdCores ctx all core)) [.running, .preempted, .halted]
    .evicting .evicted)

/-- RESTORE; the units of a cluster set come back together (R330, R338, log 32). -/
def execRestore (ctx : Nat) (all : Bool) (core : Nat) (s : State) : Out :=
  .next (s.ctxMove ctx all core (s.linkedCores ctx true (s.cmdCores ctx all core)) [.evicted] .restoring .running)

/-- BKPT: the context halts on every core when its debugger is armed (R292, R327). -/
def execBkpt (_code : BitVec 8) (s : State) : Out :=
  let ctx := s.curGroup.ctx
  let s := s.advance
  if !(s.ctx ctx).arm then .next s
  else
    let cores := (s.coresOf ctx).filter fun k => s.stateOn ctx k == .running || s.stateOn ctx k == .preempted
    .next ((cores.foldl (fun s k => s.stopIssue ctx k .halted) s).snapFire 12 false)

/-! ### RESUME (R322-R326) -/

/-- The fields of a RESUME command (R322). -/
structure ResumeCmd where
  act   : Nat
  tv    : Bool
  tdie  : Nat
  core  : Nat
  slot  : Nat
  frame : Nat
  token : Word
deriving DecidableEq, Repr

/-- The fields of a command word; none when it breaks R322. -/
def resumeOf (cmd : DWord) : Option ResumeCmd :=
  let n := cmd.toNat
  if bitsNat n 63 60 == 1 && bitsNat n 59 58 != 3 && bitsNat n 37 32 == 0 then
    some ⟨bitsNat n 59 58, bitNat n 57, bitsNat n 56 55, bitsNat n 54 47, bitsNat n 46 41, bitsNat n 40 38, BitVec.ofNat 32 n⟩
  else none

/-- A refused RESUME sets ERR and changes nothing else (R323). -/
def State.fltErr (s : State) (ctx : Nat) : State := s.modCtx ctx fun c => { c with fltErr := true }

/-- The split awaits RESUME and its record is not LEASE (R323). -/
def Split.awaitsResume (sp : Split) : Bool := sp.status == .parked && sp.record.kind != .lease

/-- A split that holds an accepted RESUME. -/
def Split.hold (sp : Split) (r : ResumeCmd) : Split :=
  { sp with status := .resumePending, resume := some ⟨r.act, r.tv && r.act == 0, r.tdie, r.token⟩ }

/-- An accepted RESUME is applied (R320, R323). -/
def State.applyResume (s : State) (ag : Agent) (act : Nat) (tv : Bool) : State :=
  let r := (s.splitOf ag).record
  s.resolve ag act r.mask (if act == 0 && !tv then some ⟨r.kind, r.cause, r.vaddr⟩ else none)

/-- RESUME for a group in its slot: a retry with a token, or where the context does not run, is held (R323, R324). -/
def State.resumeHere (s : State) (ag : Agent) (r : ResumeCmd) : State :=
  if r.act == 0 && (r.tv || s.stateOn (s.groupOf ag).ctx ag.core != .running) then s.modSplit ag fun sp => sp.hold r
  else s.applyResume ag r.act r.tv

/-- RESUME for a group of an evicted context: it is stored in the image (R323, R336). -/
def State.resumeSaved (s : State) (ctx : Nat) (ag : Agent) (g : Group) (r : ResumeCmd) : State :=
  let c := s.ctxCore ctx ag.core
  (s.setCtxCore ctx ag.core { c with saved := Tab.put c.saved ag.slot (g.setSplit ag.split ((g.split ag.split).hold r)) }).resave s
    ctx ag.core ag.slot []

/-- A write of FLTCMD: a RESUME for a context (R322, R323). -/
def State.resume (s : State) (ctx : Nat) (cmd : DWord) : State :=
  match resumeOf cmd with
  | none => s.fltErr ctx
  | some r =>
      let ag : Agent := ⟨r.core, r.slot, r.frame⟩
      let g := s.groupOf ag
      let ok := s.modCtx ctx fun c => { c with fltErr := false }
      if g.live && g.ctx == ctx then
        if (g.split r.frame).awaitsResume then ok.resumeHere ag r else s.fltErr ctx
      else
        match (s.ctxCore ctx r.core).saved.find? fun p => p.1 == r.slot with
        | some (_, h) => if (h.split r.frame).awaitsResume then ok.resumeSaved ctx ag h r else s.fltErr ctx
        | none => s.fltErr ctx

/-- A RESUME whose ACT is `act`; a command with another ACT is not this step. -/
def State.resumeAct (s : State) (ctx act : Nat) (cmd : DWord) : State :=
  if bitsNat cmd.toNat 59 58 == act then s.resume ctx cmd else s

/-- RESUME_RETRY. -/
def execResumeRetry (ctx : Nat) (cmd : DWord) (s : State) : Out := .next (s.resumeAct ctx 0 cmd)

/-- RESUME_SKIP. -/
def execResumeSkip (ctx : Nat) (cmd : DWord) (s : State) : Out := .next (s.resumeAct ctx 1 cmd)

/-- RESUME_END. -/
def execResumeEnd (ctx : Nat) (cmd : DWord) (s : State) : Out := .next (s.resumeAct ctx 2 cmd)

/-- A held RESUME may be applied: the context runs, and the token has been acknowledged (R324). -/
def State.resumeReady (s : State) (ag : Agent) (h : HeldResume) : Bool :=
  s.stateOn (s.groupOf ag).ctx ag.core == .running
  && (h.act != 0 || !h.tv || acked (s.die (s.ownDie h.tdie)).mtack h.token)

/-- RESUME_REPLAY. -/
def execResumeReplay (ag : Agent) (s : State) : Out :=
  let sp := s.splitOf ag
  match sp.status, sp.resume with
  | .resumePending, some h =>
    if (s.groupOf ag).live && s.resumeReady ag h then .next (s.applyResume ag h.act h.tv) else hold s
  | _, _ => hold s

/-! ### Deferred reports and the watchdog (R309, R315) -/

/-- DEFERRED_FAULT_REPORT: the reports of the first word that waited for the split's record are made. -/
def execDeferredFaultReport (ag : Agent) (s : State) : Out :=
  let sp := s.splitOf ag
  match sp.held with
  | h :: _ =>
    if (s.groupOf ag).live && !(s.groupOf ag).disc && (sp.status == .running || sp.status == .exiting) then
      .next ((s.setSplitOf ag { sp with held := sp.held.filter fun x => x.entry.wid != h.entry.wid }).faultHere h.entry
        (sp.held.filter fun x => x.entry.wid == h.entry.wid))
    else hold s
  | [] => hold s

/-- A split awaits the driver. -/
def Split.onDriver (sp : Split) : Bool := sp.status == .parked || sp.status == .resumePending

/-- The context waits on the driver, so its watchdog does not count (R309). -/
def State.awaitingResume (s : State) (ctx : Nat) : Bool :=
  ((s.splitsOfCtx ctx).any fun p => p.2.onDriver)
  || (s.ctxCores.filter fun p => p.1 / 256 == ctx).any fun p =>
      p.2.saved.any fun q => q.2.live8.any fun n => (q.2.split n).onDriver

/-- The split faults with WATCHDOG at its next word: its oldest queued lane word, or its next scalar word (R309, R37). -/
def State.watchdogFault (s : State) (ag : Agent) : State :=
  let sp := s.splitOf ag
  let f : Fail := ⟨.watchdog, .none, 0⟩
  if sp.status != .running && sp.status != .exiting then s
  else
  match sp.queue with
  | e :: _ =>
    if sp.drain.isSome then s.finishDrain ag true else s.park ag ⟨sp.mask, f, e.lpc, false, false, true, [], repeats sp.lastTry f⟩
  | [] =>
    if sp.drain.isSome then s.finishDrain ag true
    else if sp.status == .exiting then s
    else s.park ag ⟨sp.mask, f, sp.lpc, true, false, false, [], repeats sp.lastTry f⟩

/-- Every split of a group that an eviction has saved faults in its image (R309, R336). -/
def State.watchdogSaved (s : State) (ctx core slot : Nat) (g : Group) : State :=
  (s.inSave ctx core slot g fun s => g.live8.foldl (fun s n => s.watchdogFault ⟨core, slot, n⟩) s).resave s ctx core slot []

/-- The groups that evictions of a context have saved: core, slot and group. A discarded group has no split until it restarts. -/
def State.savedGroups (s : State) (ctx : Nat) : List (Nat × Nat × Group) :=
  (below Config.coresPerPackage fun k => !(s.ctxCore ctx k).saved.isEmpty).flatMap fun k =>
    ((s.ctxCore ctx k).saved.filter fun p => Tab.has (s.ctxCore ctx k).rowOff p.1).map fun p => (k, p.1, p.2)

/-- WATCHDOG_EXPIRY: the count of a context reaches WDINT (log 7); every split faults that is neither parked nor in trap mode, in its slot
or in a save (log 54). -/
def execWatchdogExpiry (ctx : Nat) (s : State) : Out :=
  let placed := s.splitsOfCtx ctx
  if (s.ctx ctx).wdint == 0 || s.awaitingResume ctx || !(placed.any fun p => s.stateOn ctx p.1.core == .running) then hold s
  else
    let t := placed.foldl (fun s p => s.watchdogFault p.1) s
    .next ((s.savedGroups ctx).foldl (fun s p => s.watchdogSaved ctx p.1 p.2.1 p.2.2) t)

end Sys2Proof.Machine
end

