-- ==== Sys2Proof/Machine/Transit.lean ====
section
/-! DEFINITION. The translation block's commands, heat, hints and the Transit engine (R51-R54, R65, R68-R94, R363). -/

namespace Sys2Proof.Machine

/-! ### MTCMD and MTSTAT (R52-R54, R65) -/

/-- A rejected command sets ERR, and the first also ECMD and ECTX (R52, R53). -/
def State.mtReject (s : State) (di cmd ctx : Nat) : State :=
  s.modDie di fun d =>
    if d.mtErr then d else { d with mtErr := true, mtEcmd := BitVec.ofNat 4 cmd, mtEctx := BitVec.ofNat 10 ctx }

/-- A TLBSYNC command takes the next number (R54). -/
def State.tlbsync (s : State) (di ctx : Nat) (all : Bool) : State :=
  s.modDie di fun d => { d with mtseq := d.mtseq + 1, syncs := d.syncs ++ [⟨d.mtseq + 1, ctx, all, none, d.tlb⟩] }

/-- TLBSYNC. -/
def execTlbsync (die ctx : Nat) (all : Bool) (s : State) : Out :=
  .next ((s.tlbsync (s.ownDie die) (ctx % 1024) all).clearStage (s.ownDie die))

/-- A unit of the context is resident on the package (R65). -/
def State.ctxResident (s : State) (ctx : Nat) : Bool := s.units.any fun p => p.2.ctx == ctx && !p.2.ended && !p.2.away

/-- Writes KEY of the context's entry on a die (R44, R65). -/
def State.setKeyBit (s : State) (di ctx : Nat) (on : Bool) : State :=
  let k := s.ctxEntryKey di ctx
  let lo := (s.raw64 k).toNat
  if bitNat lo 1 == on then s else s.unitWrite k (toBytes (if on then lo + 2 else lo - 2) 8)

/-- The staging registers as one 512-bit key, MTKEY0 lowest (R65). -/
def Die.stagedKey (d : Die) : BitVec 512 :=
  BitVec.ofNat 512 (sumOver (List.range 8) fun i => (Tab.get 0 d.mtkey i).toNat * 2 ^ (64 * i))

/-- A unit of the context is resident on the package of a die; at a peer, whose units are not in the state, a free bit (R65, log 6). -/
def State.residentAt (s : State) (di ctx : Nat) : Bool :=
  if di / 4 == s.node.toNat then s.ctxResident ctx else Config.freeBit s.tick 940

/-- The key that KEYSET loads on a die: what its staging registers hold; at a peer, whatever its driver has staged there (R65, R66,
log 6). -/
def State.keyAt (s : State) (di : Nat) : BitVec 512 :=
  if di / 4 == s.node.toNat then (s.die di).stagedKey
  else BitVec.ofNat 512 (sumOver (List.range 16) fun i => (Config.freeWord s.tick (941 + i)).toNat * 2 ^ (32 * i))

/-- KEYSET's effect. -/
def State.keyset (s : State) (di ctx : Nat) : State :=
  if s.residentAt di ctx then s.mtReject di 3 ctx
  else (s.modDie di fun d => { d with keys := Tab.put d.keys ctx (s.keyAt di) }).setKeyBit di ctx true

/-- KEYCLR's effect. -/
def State.keyclr (s : State) (di ctx : Nat) : State :=
  if s.residentAt di ctx then s.mtReject di 4 ctx else s.setKeyBit di ctx false

/-- KEYSET and KEYCLR of a context need not wait: they are rejected, or the memory of the context's entry is ready (R65, R358). -/
def State.keyReady (s : State) (di ctx : Nat) : Bool := s.residentAt di ctx || s.memReady (s.ctxEntryKey di ctx)

/-- KEYSET, by the driver of the die's package (R65, R66). -/
def execKeyset (die ctx : Nat) (s : State) : Out :=
  if !s.keyReady (s.dieAt die) (ctx % 1024) then hold s
  else .next ((s.keyset (s.dieAt die) (ctx % 1024)).clearStage (s.dieAt die))

/-- KEYCLR, by the driver of the die's package (R65, R66). -/
def execKeyclr (die ctx : Nat) (s : State) : Out :=
  if !s.keyReady (s.dieAt die) (ctx % 1024) then hold s
  else .next ((s.keyclr (s.dieAt die) (ctx % 1024)).clearStage (s.dieAt die))

/-- A write of MTCMD (R52): a command, or its rejection. -/
def State.mtCommand (s : State) (di : Nat) (val : DWord) : State :=
  let n := val.toNat
  let cmd := bitsNat n 63 60
  let ctx := bitsNat n 59 50
  let s :=
    if bitsNat n 48 0 != 0 then s.mtReject di cmd ctx
    else
      match cmd with
      | 1 => s.tlbsync di ctx (bitNat n 49)
      | 2 => s.recheck di ctx
      | 3 => s.keyset di ctx
      | 4 => s.keyclr di ctx
      | _ => s.mtReject di cmd ctx
  s.clearStage di

/-- A write of MTCMD need not wait: it is no KEYSET or KEYCLR, or the context's entry can be written (R65, R358). -/
def State.mtReadyFor (s : State) (di : Nat) (val : DWord) : Bool :=
  let n := val.toNat
  bitsNat n 48 0 != 0 || (bitsNat n 63 60 != 3 && bitsNat n 63 60 != 4) || s.keyReady di (bitsNat n 59 50)

/-- A write of MTSTAT (R53). -/
def State.mtStatWrite (s : State) (di : Nat) (val : DWord) : State :=
  if bitNat val.toNat 0 then s.modDie di fun d => { d with mtErr := false, mtEcmd := 0, mtEctx := 0 } else s

/-- MTSTAT_WRITE. -/
def execMtstatWrite (die : Nat) (val : DWord) (s : State) : Out := .next (s.mtStatWrite (s.ownDie die) val)

/-! ### Heat (R70-R72, R94) -/

/-- The count of a block; an absent block counts 0 (R71). -/
def Die.heatOf (d : Die) (region : Bool) (ctx : Nat) (va : DWord) : Nat :=
  let block := localOf va / 2 ^ (if region then 21 else 16)
  ((d.heat.find? fun h => h.region == region && h.ctx == ctx && h.block == block).map (·.count)).getD 0

/-- HEAT_DECAY: the interval of TXDECAY has passed since the last halving. The halving belongs to the frame boundary at which the
interval ended: counts made since find it done (R72). -/
def execHeatDecay (die : Nat) (s : State) : Out :=
  let di := s.ownDie die
  if (s.die di).dueDecays s.chframe == 0 then hold s else .next (s.setDie di ((s.die di).decay s.chframe))

/-- A granted lease of the launch covers the address with any right (R76, R94). -/
def State.anyLease (s : State) (launch : Word) (va : DWord) : Bool :=
  s.leases.any fun l => l.launch == launch && l.granted && l.desc.covers va

/-- What HEATR returns (R94): the value of its pseudocode, which names neither the page's STATE nor KEY; for a page with STATE = 2 and a context
with KEY = 0 its Faults line could mean 0 (DEDUCED; log 79). -/
def State.heatValue (s : State) (e : Entry) : Word :=
  let va := noPath e.firstAddr
  if !s.anyLease e.launch va then 0
  else
    match (s.walk e.ctx va).1 with
    | .error _ => 0
    | .ok l =>
      if !l.heat then 0
      else BitVec.ofNat 32 (l.tier * 1024 + b2n (l.state == 1) * 512 + 256 + ((s.die (ownerOf va)).decay s.chframe).heatOf (e.fn == 1) e.ctx va)

/-- HEATR: the read leaves for the owner; without the context's key on the core's die no packet for another node is sent, and it reads as 0
(R94, R106). -/
def execHeatr (d a : BitVec 6) (region : Bool) (s : State) : Out :=
  scalarWord (pairOk a) (pairReads a)
    (fun s =>
      let va := s.curSplit.spair a.toNat
      if !translated (pathOf va) || !s.populated (nodeOf va) then .next (s.scalarFault ⟨.path, .none, va⟩)
      else if !s.keyedFor (dieOfCore s.cur.core) s.curGroup.ctx va then s.finish fun sp => sp.setS d.toNat 0
      else
        let e := { s.newEnt .heatr (pathOf va) (lineOf va) [⟨0, va, 4, []⟩] with sdst := some d.toNat, fn := b2n region }
        .next (s.enter e).advance) s

/-! ### Orders (R73, R74, R363) -/

/-- The fields of a move order. -/
structure Order where
  va     : DWord
  frame  : Nat
  ctx    : Nat
  tier   : Nat
  size   : Nat
  cmd    : Nat
  tag    : BitVec 16
  rsv    : Bool
deriving DecidableEq, Repr

/-- The order of 256 bits (R73). -/
def orderOf (n : Nat) : Order :=
  ⟨BitVec.ofNat 64 (bitsNat n 255 192), bitsNat n 191 156, bitsNat n 155 146, bitsNat n 145 144, bitsNat n 143 142,
   bitsNat n 141 140, BitVec.ofNat 16 (bitsNat n 127 112), bitsNat n 139 128 != 0 || bitsNat n 111 64 != 0⟩

/-- The bits of an order other than STATUS. -/
def Order.bits (o : Order) : Nat :=
  o.va.toNat * 2 ^ 192 + o.frame * 2 ^ 156 + o.ctx * 2 ^ 146 + o.tier * 2 ^ 144 + o.size * 2 ^ 142 + o.cmd * 2 ^ 140
  + o.tag.toNat * 2 ^ 112

/-- Bytes of an order's SIZE. -/
def sizeBytes (k : Nat) : Nat := if k == 0 then 4096 else if k == 1 then 65536 else 2 * 1024 * 1024

/-- Reserved fields and codes: 0x16. -/
def Order.reserved (o : Order) : Bool := o.rsv || o.size == 3 || 2 ≤ o.cmd

/-- Addresses: 0x15. DFRAME of a cancel order is ignored. -/
def Order.misplaced (o : Order) (di : Nat) : Bool :=
  pathOf o.va != 0 || ownerOf o.va != di || o.va.toNat % sizeBytes o.size != 0
  || (o.cmd == 0 && (o.frame * 4096) % sizeBytes o.size != 0)

/-- The leaf of an address as memory holds it now. -/
def State.leafNow (s : State) (ctx : Nat) (va : DWord) : Option Leaf :=
  match s.walkNow ctx va with
  | .ok l => some l
  | .error _ => none

/-- The tier of an order cannot be its destination: 0x14. -/
def State.badTier (s : State) (di : Nat) (o : Order) : Bool :=
  o.tier == 3 || (o.tier == 1 && !Config.hasLpddr) || (o.tier == 2 && !s.expander di (o.frame * 4096) (sizeBytes o.size))

/-- The code of a move order: 1 when it is accepted (R74, R363). The leaf is none when there is no valid one. -/
def State.moveCode (s : State) (di : Nat) (o : Order) (leaf : Option Leaf) : Nat :=
  if o.reserved then 0x16
  else if o.misplaced di then 0x15
  else
    match leaf with
    | none => 0x10
    | some l =>
      if l.size != sizeBytes o.size then 0x11
      else if l.state != 0 then 0x12
      else if l.tier == o.tier then 0x13
      else if s.badTier di o then 0x14
      else 1

/-- The key of a slot of the move ring (R73). -/
def State.moveKey (s : State) (di i : Nat) : Nat := physKey di 0 (ringBase (s.die di).txrbase + 32 * i)

/-- Slots of the move ring. -/
def Die.moveSize (d : Die) : Nat := ringSlots d.txrbase

/-- The transit record that an accepted order takes: the lowest free one (DESIGN CHOICE: R75 asks for a free one; log 67). -/
def Die.freeRec (d : Die) : Option Nat := firstBelow Config.transitRecords fun k => !Tab.has d.recs k

/-- Starts a TLBSYNC of a context for a record (R79, R84). -/
def State.recSync (s : State) (di tid ctx : Nat) : State :=
  s.modDie di fun d => { d with syncs := d.syncs ++ [⟨0, ctx, false, some tid, d.tlb⟩] }

/-- Writes a leaf's frame, tier, state and TID; its other fields stay (R79, R84). -/
def State.writeLeaf (s : State) (l : Leaf) (frame tier state tid : Nat) : State :=
  let keep := l.e % 4096
  s.unitWrite l.key (toBytes (tid * 2 ^ 52 + frame * 2 ^ 16 + state * 2 ^ 14 + tier * 2 ^ 12 + keep) 8)

/-- The order is accepted: the leaf goes into transit and the record starts (R79). -/
def State.startMove (s : State) (di tid slot : Nat) (hinted : Bool) (o : Order) (l : Leaf) : State :=
  let r : TransitRec :=
    ⟨.copying, o.va, o.ctx, l.size, l.tier, l.frame, o.tier, o.frame, 0, o.tag, hinted, slot, none, 0, true, (s.die di).moveAge⟩
  ((s.writeLeaf l l.frame l.tier 1 tid).modDie di fun d => { d with recs := Tab.put d.recs tid r, moveAge := d.moveAge + 1 }).recSync
    di tid o.ctx

/-- Writes a STATUS word into a slot of the move ring: the slot that the order was taken from, in the ring that TXRBASE names at the write
(DESIGN CHOICE: R73 is silent on a ring whose base has been written since; log 83). -/
def State.writeStatus (s : State) (di slot status : Nat) : State := s.unitWrite (s.moveKey di slot) (toBytes status 8)

/-- The order at the head of the move ring: its slot and fields, when the engine may take it, and the memory of its slot and of the page's tables
is ready (R73, R75, R93, R358). -/
def State.nextOrder (s : State) (di : Nat) : Option (Nat × Order) :=
  let d := s.die di
  let key := s.moveKey di d.txrhead.toNat
  let o := orderOf (ofBytes (s.mem.readN key 32))
  if !d.txReady || d.moveSize == 0 || d.txrhead == d.txrtail || d.freeRec.isNone || !s.memReady key || !s.tablesReady o.ctx o.va then none
  else some (d.txrhead.toNat, o)

/-- The engine has taken the order at the head. -/
def State.tookOrder (s : State) (di : Nat) : State := s.modDie di fun d => { d with txrhead := ringNext d.txrhead d.moveSize }

/-- MOVE_ORDER. -/
def execMoveOrder (die : Nat) (s : State) : Out :=
  let di := s.ownDie die
  match s.nextOrder di with
  | none => hold s
  | some (slot, o) =>
    if o.cmd == 1 then hold s
    else
      let leaf := s.leafNow o.ctx o.va
      let code := s.moveCode di o leaf
      let s := s.tookOrder di
      match leaf, (s.die di).freeRec with
      | some l, some tid =>
        if code == 1 then .next ((s.startMove di tid slot false o l).writeStatus di slot (statusWord 1 tid l.tier 0))
        else .next (s.writeStatus di slot (statusWord code 0 0 0))
      | _, _ => .next (s.writeStatus di slot (statusWord code 0 0 0))

/-! ### Aborts (R85, R87, R89, R90) -/

/-- Changes a transit record. -/
def State.modRec (s : State) (di tid : Nat) (f : TransitRec → TransitRec) : State :=
  s.modDie di fun d => { d with recs := d.recs.map fun p => if p.1 == tid then (p.1, f p.2) else p }

/-- The transit record of a die. -/
def State.rec_ (s : State) (di tid : Nat) : Option TransitRec := ((s.die di).recs.find? fun p => p.1 == tid).map (·.2)

/-- The leaf of a record, while it still holds STATE = 1 with the record's TID (R85). -/
def State.recLeaf (s : State) (tid : Nat) (r : TransitRec) : Option Leaf :=
  (s.leafNow r.ctx r.va).filter fun l => l.state == 1 && l.tid == tid

/-- A move in COPYING is aborted for a reason: the leaf names the source again, in the poisoned-abort state when the source
is lost; a leaf that software has changed is left alone, for reason 4 (R85, R87, R89). -/
def State.abortMove (s : State) (di tid reason : Nat) : State :=
  match s.rec_ di tid with
  | none => s
  | some r =>
    if r.state != .copying then s
    else
      let (s, why) :=
        match s.recLeaf tid r with
        | some l => (s.writeLeaf l r.srcFrame r.srcTier (if reason == 2 then 2 else 0) 0, reason)
        | none => (s, 4)
      (s.modRec di tid fun r => { r with state := .aborting, reason := why, sync := true }).recSync di tid r.ctx

/-- MOVE_ABORT: an uncorrectable error at the destination of a move. -/
def execMoveAbort (die tid : Nat) (s : State) : Out := .next (s.abortMove (s.ownDie die) tid 1)

/-- CANCEL_ORDER (R90, R363). -/
def execCancelOrder (die : Nat) (s : State) : Out :=
  let di := s.ownDie die
  match s.nextOrder di with
  | none => hold s
  | some (slot, o) =>
    if o.cmd != 1 then hold s
    else
      let s := s.tookOrder di
      if o.reserved then .next (s.writeStatus di slot (statusWord 0x16 0 0 0))
      else if o.misplaced di then .next (s.writeStatus di slot (statusWord 0x15 0 0 0))
      else
        match (s.die di).recs.find? fun p => p.2.va == o.va && p.2.ctx == o.ctx && p.2.state == .copying with
        | none => .next (s.writeStatus di slot (statusWord 0x17 0 0 0))
        | some (tid, r) =>
          let s := (s.abortMove di tid 3).modRec di tid fun r => { r with cancel := some slot }
          .next (s.writeStatus di slot (statusWord 1 tid r.srcTier 0))

/-! ### Copying (R75, R82, R84, R88, R92) -/

/-- The move is among the 16 oldest in COPYING (R75). -/
def Die.mayCopy (d : Die) (r : TransitRec) : Bool := (d.recs.filter fun p => p.2.state == .copying && p.2.age < r.age).length < 16

/-- The move whose turn it is to copy a line, among those that can: the next after the move that copied last, in order of
acceptance, and the oldest after the youngest (R75). -/
def Die.copyTurn (d : Die) (can : List TransitRec) : Option TransitRec :=
  let oldest (l : List TransitRec) : Option TransitRec :=
    l.foldl (fun a r =>
      match a with
      | none => some r
      | some b => if r.age < b.age then some r else some b) none
  (oldest (can.filter fun r => (d.copied.map fun n => decide (n < r.age)).getD true)).orElse fun _ => oldest can

/-- The quota admits a packet of `n` flits: it is not spent, or it is unspent and the packet is larger than it (R92, R98). -/
def Die.copyQuota (d : Die) (n : Nat) : Bool := d.txquota != 0 && (d.spent + n ≤ d.txquota || d.spent == 0)

/-- The node that holds the source of a move's next line: the own node, or the peer of a mirror-tier source (R80). -/
def State.copyNode (s : State) (di : Nat) (r : TransitRec) : Nat :=
  if r.srcTier == 3 then r.srcKey di (r.va + BitVec.ofNat 64 (128 * r.cursor)) / 2 ^ 52 else s.node.toNat

/-- The read of a source line that a peer holds may leave for it. It travels on the plane of the line's address, as a load's request
does (DEDUCED from R80 and R102; log 69). -/
def State.copyMayLeave (s : State) (di : Nat) (r : TransitRec) : Bool :=
  s.mayLeaveFor (di % 4) (s.copyNode di r) (r.va + BitVec.ofNat 64 (128 * r.cursor)) 0

/-- The read of a source line leaves for the peer that holds it. -/
def State.copyLeave (s : State) (di : Nat) (r : TransitRec) : State :=
  s.leaveFor (di % 4) (s.copyNode di r) (r.va + BitVec.ofNat 64 (128 * r.cursor)) 0

/-- The channels that the packets of a copied line travel on, from a die: the home's, for a source and a destination on the own node, and the
die's gateway for a source that a peer holds (R80, R96). -/
def State.copyChans (s : State) (di : Nat) (r : TransitRec) : List Nat :=
  let home := homeOf (r.va + BitVec.ofNat 64 (128 * r.cursor))
  if s.copyNode di r == s.node.toNat then [home] else [64 + di % 4, home]

/-- The channels of the next line serve the engine's packets next (R96, R97, R99). -/
def State.copyNext (s : State) (di : Nat) (r : TransitRec) : Bool :=
  (s.copyChans di r).all fun c => s.nowNext c (engineWriter (di % 4))

/-- The packets of a line leave the engine: its quota is charged, its channels have served it, and a read for a peer is on its link (R92, R96,
R102). -/
def State.copySend (s : State) (di : Nat) (r : TransitRec) : State :=
  let s := (s.copyChans di r).foldl (fun s c => s.noteWriter c (engineWriter (di % 4))) (s.copyLeave di r)
  s.modDie di fun d => { d with spent := d.spent + 2, copied := some r.age }

/-- The move can copy its next line now: its TLBSYNC is done, and the memory at both ends is ready (R75, R79, R358). -/
def State.canCopy (s : State) (di : Nat) (r : TransitRec) : Bool :=
  let va := r.va + BitVec.ofNat 64 (128 * r.cursor)
  r.state == .copying && !r.sync && (s.die di).mayCopy r && s.memReady (r.srcKey di va) && s.memReady (r.dstKey di va)
  && s.copyMayLeave di r

/-- Copies line `r.cursor` with its ciphertext, tag and mark (R82); an uncorrectable source line has its mark set at both ends, so
that a later access meets it before and after the switch alike (R88). -/
def State.copyLine (s : State) (di : Nat) (r : TransitRec) (bad : Bool) : State :=
  let va := r.va + BitVec.ofNat 64 (128 * r.cursor)
  let src := r.srcKey di va
  let dst := r.dstKey di va
  let s := if bad then s.poisonLine src else s
  let m := s.line (src / 128)
  let s := s.setLine (dst / 128) m
  { s with
    mem := s.mem.writeN dst (s.mem.readN src 128)
    bver := (List.range 128).foldl (fun t i => Tab.put t (dst + i) (Tab.get 0 t (src + i))) s.bver }

/-- MOVE_SWITCH: the record is DONE, the leaf names the destination, and a TLBSYNC starts; a leaf that software has changed
ends the move as an abort (R84, R85). -/
def State.switchMove (s : State) (di tid : Nat) (r : TransitRec) : State :=
  match s.recLeaf tid r with
  | none => s.abortMove di tid 4
  | some l =>
    ((s.writeLeaf l r.dstFrame r.dstTier 0 0).modRec di tid fun r => { r with state := .done, sync := true }).recSync di tid r.ctx

/-- COPY_LINE: one line of the move whose turn it is, once its channels serve it, and the switch after the last. A source that cannot be
reached is an uncorrectable source (R88). -/
def execCopyLine (die tid : Nat) (err : CopyError) (s : State) : Out :=
  let di := s.ownDie die
  match s.rec_ di tid with
  | none => hold s
  | some r =>
    let d := s.die di
    let va := r.va + BitVec.ofNat 64 (128 * r.cursor)
    let turn := d.copyTurn ((d.recs.map (·.2)).filter (s.canCopy di))
    if !s.canCopy di r || !d.copyQuota 2 || turn.map (·.age) != some r.age || !s.copyNext di r then hold s
    else if err == .destBad || s.unreachable (r.dstKey di va) then .next ((s.copySend di r).abortMove di tid 1)
    else
      let bad : Bool := err == .sourceBad || s.unreachable (r.srcKey di va) || s.expanderBad (r.srcKey di va)
      let s := (s.copySend di r).copyLine di r bad
      let s := s.modRec di tid fun r => { r with cursor := r.cursor + 1 }
      .next (if (r.cursor + 1) * 128 == r.size then s.switchMove di tid r else s)

/-! ### TLBSYNC_COMPLETE (R51, R52, R54, R77, R84, R87, R90, R91) -/

/-- Requests of a context (or of all) that have been translated on the die and have not been performed. -/
def State.translating (s : State) (di : Nat) (y : Sync) : Bool :=
  s.ents.any fun e =>
    translated e.path && ownerOf e.line == di && (y.all || e.ctx == y.ctx)
    && (match e.resp with
        | .ok _ _ => !(e.kind == .gAtomic && 0 < e.level)
        | _ => false)

/-- The 16-byte MIGRATE_ABORT record (R91). -/
def TransitRec.abortBits (r : TransitRec) (tid : Nat) : Nat :=
  0x40 * 2 ^ 120 + r.reason * 2 ^ 116 + r.srcTier * 2 ^ 114 + r.dstTier * 2 ^ 112 + tid * 2 ^ 100 + r.cursor * 2 ^ 85
  + r.order.toNat * 2 ^ 64 + r.va.toNat

/-- The key of the next slot of the hint log (R77). -/
def State.logKey (s : State) (di : Nat) : Nat :=
  physKey di 0 (ringBase (s.die di).txlbase + 32 * (s.die di).txltail.toNat)

/-- HINT_LOG_WRITE: an entry of the hint log (R77). -/
def State.hintLog (s : State) (di bits : Nat) : State :=
  (s.unitWrite (s.logKey di) (toBytes bits 32)).modDie di fun d => { d with txltail := ringNext d.txltail (ringSlots d.txlbase) }

/-- MOVE_RECORD_FREE: the final code of a move, and of the cancel order that aborted it; the record is free (R84, R87, R90). -/
def State.freeMove (s : State) (di tid : Nat) (r : TransitRec) : State :=
  let code := if r.state == .done then 2 else 3
  let status := statusWord code tid r.srcTier r.srcFrame
  let s := if r.hinted then s.hintLog di (r.orderBits status) else s.writeStatus di r.slot status
  let s := match r.cancel with
    | some slot => s.writeStatus di slot status
    | none => s
  let s := s.modDie di fun d => { d with recs := Tab.del d.recs tid }
  if code == 3 then ((s.postEvent r.ctx (r.abortBits tid)).2).snapFire 15 false else s

/-- What the end of a move writes can be written: its STATUS, in the move ring or the hint log, and that of its cancel order (R358). -/
def State.freeReady (s : State) (di : Nat) (r : TransitRec) : Bool :=
  (if r.hinted then s.memReady (s.logKey di) else s.memReady (s.moveKey di r.slot))
  && match r.cancel with
     | some slot => s.memReady (s.moveKey di slot)
     | none => true

/-- What a record does once its TLBSYNC has completed can be done now. -/
def State.syncReady (s : State) (di : Nat) (tid : Option Nat) : Bool :=
  match tid.bind (s.rec_ di) with
  | some r => r.state == .copying || s.freeReady di r
  | none => true

/-- What a record does once its TLBSYNC has completed. -/
def State.recSynced (s : State) (di tid : Nat) : State :=
  match s.rec_ di tid with
  | none => s
  | some r => if r.state == .copying then s.modRec di tid fun r => { r with sync := false } else s.freeMove di tid r

/-- A move that was aborted while it still waited for its first TLBSYNC waits for its second too. -/
def Die.lastSync (d : Die) (tid : Nat) : Bool := !(d.syncs.any fun y => y.tid == some tid)

/-- TLBSYNC_COMPLETE: the oldest TLBSYNC of a die completes once every request that its context's old translations served
has been performed; the entries cached before it arrived are gone. -/
def execTlbsyncComplete (die : Nat) (s : State) : Out :=
  let di := s.ownDie die
  match (s.die di).syncs with
  | [] => hold s
  | y :: rest =>
    if s.translating di y || !s.syncReady di y.tid then hold s
    else
      let s := s.modDie di fun d => { d with syncs := rest, tlb := d.tlb.filter fun t => !((y.all || t.ctx == y.ctx) && y.old.contains t) }
      match y.tid with
      | none => .next (s.modDie di fun d => { d with mtack := y.seq })
      | some tid => .next (if (s.die di).lastSync tid then s.recSynced di tid else s)

/-! ### Hints (R76-R78) -/

/-- MHINT: the split goes on at once, and the hint travels to the owner as a load's request does, charged to the core's quota; no split counts
it among its accesses (R76, R78). A hint for an unpopulated node, or for another node without the context's key on the core's die (R106), reaches
no die: it is dropped and no TXSTAT counts it. A hint on a path other than 0x0, 0x1 and 0x4 goes to the die that bits [59:49] name, which drops
and counts it (DESIGN CHOICE: R76 names no die for either; log 70). -/
def execMhint (a : BitVec 6) (tier : BitVec 2) (s : State) : Out :=
  scalarWord (pairOk a && tier != 3) (pairReads a)
    (fun s =>
      let va := s.curSplit.spair a.toNat
      if (s.coreCheck s.cur.core s.curGroup.ctx va).isSome then .next s.advance
      else
        let e := { s.newEnt .hint 0 (lineOf (noPath va)) [⟨0, va, 4, []⟩] with owners := [], fn := tier.toNat }
        .next (s.enter e).advance) s

/-- TXPOL allows one more hint-made move of the context into the tier (R76, R93). -/
def Die.hintAllowed (d : Die) (h : Hint) : Bool :=
  let w := (Tab.get 0 d.txpol h.ctx).toNat
  let rate := bitsNat w 15 8
  bitsNat w 31 16 == 0 && bitsNat w 7 3 == 0 && rate != 0 && bitNat w h.tier
  && d.recs.countP (fun p => p.2.hinted && p.2.ctx == h.ctx) < rate

/-- The hint log has a free entry for one more move (R77, log 31). -/
def Die.logRoom (d : Die) : Bool :=
  let n := ringSlots d.txlbase
  ringHeld d.txlhead d.txltail n + d.recs.countP (fun p => p.2.hinted) + 1 < n

/-- The key of a frame pool's descriptor (R78). -/
def State.poolKey (s : State) (di tier size : Nat) : Nat := physKey di 0 ((s.die di).txptab.toNat + 16 * (3 * tier + size))

/-- Takes the next aligned frame from a ring, skipping the others: the new HEAD, and the frame (R78). -/
def takeFrame (s : State) (di base n tail align : Nat) : Nat → Nat → Nat × Option Nat
  | 0, head => (head, none)
  | k + 1, head =>
    if head == tail then (head, none)
    else
      let pa := (s.raw64 (physKey di 0 (base + 8 * head))).toNat
      let next := (head + 1) % n
      if pa % align == 0 then (next, some (pa / 4096 % 2 ^ 36)) else takeFrame s di base n tail align k next

/-- Takes a frame from the pool of a tier and a size; the engine writes HEAD (R78). HEAD and TAIL are taken as indices modulo SIZE, and HEAD is
written back reduced (DESIGN CHOICE: R78 does not say whether they are that or counters that run on; log 78). A descriptor whose SIZE is no power
of two from 1 to 32,768 reads as empty, and bits [63:48] of a frame word are dropped (DESIGN CHOICE; log 78). -/
def State.poolTake (s : State) (di tier size : Nat) : Option Nat × State :=
  let k := s.poolKey di tier size
  let lo := (s.raw64 k).toNat
  let n := bitsNat lo 47 32
  let legal := bitsNat lo 63 48 == 0 && 1 ≤ n && n ≤ 32768 && n == 2 ^ n.log2
  if !legal then (none, s)
  else
    let head := bitsNat lo 31 16 % n
    let (new, f) := takeFrame s di (s.raw64 (k + 8)).toNat n (bitsNat lo 15 0 % n) (sizeBytes size) n head
    (f, if new == head then s else s.unitWrite (k + 2) (toBytes new 2))

/-- The memory of a pool's descriptor and of its ring is ready (R78, R358). -/
def State.poolReady (s : State) (di tier size : Nat) : Bool :=
  let k := s.poolKey di tier size
  s.memReady k && s.pageReady (physKey di 0 (s.raw64 (k + 8)).toNat) (8 * bitsNat (s.raw64 k).toNat 47 32)

/-- SIZE of a page; none for 1 GiB. -/
def sizeCode (lo : Nat) : Option Nat := if lo == 12 then some 0 else if lo == 16 then some 1 else if lo == 21 then some 2 else none

/-- A dropped hint (R76). -/
def State.dropHint (s : State) (di : Nat) : State := s.modDie di fun d => { d with txDrops := min 255 (d.txDrops + 1) }

/-- The hint becomes an order with a frame from the pool; an order that R74 refuses has its code in the hint log (R76, R77). -/
def State.hintOrder (s : State) (di tid : Nat) (h : Hint) (l : Leaf) (size : Nat) : State :=
  match s.poolTake di h.tier size with
  | (none, s) => s.dropHint di
  | (some f, s) =>
    let va : DWord := BitVec.ofNat 64 (pageOf h.addr l.lo)
    let o : Order := ⟨va, f, h.ctx, h.tier, size, 0, 0xFFFF, false⟩
    let code := s.moveCode di o (some l)
    if code == 1 then s.startMove di tid 0 true o l else s.hintLog di (o.bits + statusWord code 0 0 0)

/-- The engine can look at a hint's page, and take its frame: the memory of the page's tables, of the hint log's next entry and of the frame pool
is ready (R358). -/
def State.hintReady (s : State) (di : Nat) (h : Hint) : Bool :=
  let va := noPath h.addr
  s.tablesReady h.ctx va && s.memReady (s.logKey di)
  && match s.leafNow h.ctx va with
     | some l => (match sizeCode l.lo with
       | some size => s.poolReady di h.tier size
       | none => true)
     | none => true

/-- HINT: the engine takes the oldest hint of its die. A hint waits, and is not dropped, while the engine is not READY or no transit record
is free (DESIGN CHOICE: R76 names neither among its conditions, and R75 has an order wait for a record; log 70). -/
def execHint (die : Nat) (s : State) : Out :=
  let di := s.ownDie die
  let d := s.die di
  match d.hints, d.freeRec with
  | h :: rest, some tid =>
    let ok := d.hintAllowed h && translated (pathOf h.addr) && s.anyLease h.launch h.addr && d.logRoom
    if !d.txReady || (ok && !s.hintReady di h) then hold s
    else
      let s := s.setDie di { d with hints := rest }
      match (if ok then s.leafNow h.ctx (noPath h.addr) else none) with
      | none => .next (s.dropHint di)
      | some l =>
        match sizeCode l.lo with
        | some size =>
          if l.state != 0 || l.tier == h.tier then .next (s.dropHint di) else .next (s.hintOrder di tid h l size)
        | none => .next (s.dropHint di)
  | _, _ => hold s

/-! ### TXRTAIL (R93) -/

/-- TXRTAIL may be moved. -/
def Die.txMayMove (d : Die) (val : DWord) : Bool :=
  let n := d.moveSize
  let held := ringHeld d.txrhead d.txrtail n
  let new := ringHeld d.txrhead (ringIndex val n) n
  n != 0 && held ≤ new && new ≤ n - 1

/-- A write of TXRTAIL; false when it is ignored. -/
def State.txrtailWrite (s : State) (di : Nat) (val : DWord) : Bool × State :=
  if (s.die di).txMayMove val then (true, s.modDie di fun d => { d with txrtail := ringIndex val d.moveSize }) else (false, s)

/-- TXRTAIL_WRITE. -/
def execTxrtailWrite (die : Nat) (val : DWord) (s : State) : Out := .next (s.txrtailWrite (s.ownDie die) val).2

end Sys2Proof.Machine
end

