-- ==== Sys2Proof/Machine/Power.lean ====
section
/-! DEFINITION. Ports, peers and the host's window; power, telemetry, bring-up and snapshots (R89, R112-R114, R353-R361). -/

namespace Sys2Proof.Machine

/-! ### Ports and peers (R89, R113, R114) -/

/-- The dies of the own node. -/
def State.ownDies (s : State) : List Nat := (List.range 4).map s.ownDie

/-- Aborts the moves in COPYING of the own dies that a test names, for a reason. -/
def State.abortWhere (s : State) (reason : Nat) (f : TransitRec → Bool) : State :=
  s.ownDies.foldl (fun s di =>
    (((s.die di).recs.filter fun p => p.2.state == .copying && f p.2).map (·.1)).foldl (fun s tid => s.abortMove di tid reason) s) s

/-- A frame of tier 2 on a port (R114). -/
def onPort (port tier frame : Nat) : Bool := tier == 2 && bitsNat (frame * 4096) 47 46 == port

/-- PORT_LINK_DOWN: an expander's frames read as poisoned, moves from the port end, and LINK_DEGRADE is posted; a move whose
destination lies on the port meets an uncorrectable destination (R87, R89, R114). -/
def execPortLinkDown (port : Nat) (s : State) : Out :=
  if 4 ≤ port then hold s
  else
    let s := if port == 0 || s.downPorts.contains port then s else { s with downPorts := s.downPorts ++ [port] }
    let s := if port == 0 then s
      else (s.abortWhere 2 fun r => onPort port r.srcTier r.srcFrame).abortWhere 1 fun r => onPort port r.dstTier r.dstFrame
    .next (s.linkDegrade 6 false port 0 0 0)

/-- PEER_LOST: the peer that holds tier-3 sources is lost to Traverse (R89). -/
def execPeerLost (node : Nat) (s : State) : Out :=
  if node == s.node.toNat || s.lostPeers.contains node then hold s
  else
    let s := { s with lostPeers := s.lostPeers ++ [node] }
    .next (s.abortWhere 2 fun r => r.srcTier == 3 && bitsNat r.srcFrame 35 27 == node)

/-- The virtual address of an offset in the HDM range (R113). -/
def State.hdmAddr (s : State) (off : DWord) : DWord := s.ds.hmbase + off

/-- HOST_HDM_ACCESS: a host access is translated, checked and served line by line at the owner, over Traverse where that is another
node (R102), by the gateway of die 0 and under its key (R106; log 69); one that fails has a completer abort.
`data` is what a write stores, or as many bytes as a read asks for. -/
def execHostHdmAccess (write : Bool) (off : DWord) (data : List Byte) (s : State) : Out :=
  let ctx := bitsNat s.ds.hmctx.toNat 9 0
  let va := s.hdmAddr off
  if !bitNat s.ds.hmctx.toNat 10 || pathOf va != 0 || !s.populated (nodeOf va) || !s.keyedFor 0 ctx va || data.isEmpty then .next s
  else
    let a : Access := if write then .store else .load
    let ls := linesOf va data.length write
    if !ls.all (fun x => s.homeReady ctx x.1) || !State.mayCrossAll 0 ctx none a ls s then hold s
    else
      let s := s.crossAll 0 ctx none a ls
      if write then .next (s.vWrite ctx va data).2 else .next (s.vRead ctx va data.length).2

/-! ### Power and telemetry (R353-R357) -/

/-- The band of the present interval about the mean of the latest sample, in mW: UP and DOWN are in W/ms, and a sample takes a tenth of a
millisecond (R354). -/
def Power.low (p : Power) : Nat := p.latest.mw.toNat - 100 * p.down
def Power.high (p : Power) : Nat := min (p.latest.mw.toNat + 100 * p.up) (1000 * p.cap)

/-- The mean of an interval lies in its band; the first after power-on has none (R354). A CAP below the band's lower end leaves nothing in
it: then the mean lies between CAP and that end (DESIGN CHOICE; log 18). -/
def Power.held (p : Power) (mw : Nat) : Bool := !p.runs || (p.low ≤ mw && mw ≤ p.high) || (p.high ≤ mw && mw ≤ p.low)

/-- The time at which a sample may end: on a multiple of 100 µs while time is locked, and 100 µs after the sample before it where time has
been locked since (R354, R357). -/
def Power.onTime (p : Power) (ns : DWord) : Bool := !p.lock || (ns.toNat % 100000 == 0 && (!p.synced || ns == p.latest.ns + 100000))

/-- A sample ends: new rates and caps take effect, and the limiter answers the demand (R354-R356). Promotion and burn end where demand lies
inside the band. Below it FILL is promoted, and burn cycles run where that does not reach the band (`more`). -/
def Power.sample (p : Power) (watts demand : Nat) (mw : Word) (ns : DWord) (more : Bool) : Power :=
  let p := { p with down := p.newDown, up := p.newUp, cap := p.newCap, mean := watts, runs := true }
  let p := { p with latest := ⟨ns, mw, p.latest.acc + mw.toNat⟩, synced := p.lock }
  let below : Bool := 1000 * demand < p.low
  let above : Bool := p.high < 1000 * demand
  { p with
    capped := 1000 * p.cap < mw.toNat + 100 * p.up, throttle := above, promote := below || (above && p.promote),
    burn := (below && more) || ((below || above) && p.burn) }

/-- POWER_SAMPLE: a 100 µs sample ends. Its mean in W is the mean in mW rounded down (DESIGN CHOICE; log 18). -/
def execPowerSample (watts demand : Nat) (mw : Word) (ns : DWord) (s : State) : Out :=
  if !s.power.onTime ns || !s.power.held mw.toNat || mw.toNat / 1000 != watts then hold s
  else .next { s with power := s.power.sample watts demand mw ns (Config.freeBit s.tick 920) }

/-- A read of TELTIME latches the latest sample. -/
def State.telLatch (s : State) : State := { s with power := { s.power with latched := s.power.latest } }

/-- TELTIME_LATCH. -/
def execTeltimeLatch (s : State) : Out := .next s.telLatch

/-- PTP_LOCK. -/
def execPtpLock (lock : Bool) (offset : Word) (s : State) : Out :=
  .next { s with power := { s.power with lock := lock, offset := offset, synced := s.power.synced && lock } }

/-! ### Bring-up (R358, R361) -/

/-- FUNCTION_READY: a function reports ready in RDYSUM and in its own register. -/
def execFunctionReady (bit : Nat) (s : State) : Out :=
  if 25 ≤ bit || (bit == 14 && !Config.hasLpddr) then hold s
  else
    let s := { s with ready := s.ready ||| BitVec.ofNat 64 (2 ^ bit) }
    if 2 ≤ bit && bit ≤ 5 then .next (s.modDie (s.ownDie (bit - 2)) fun d => { d with mtReady := true })
    else if 21 ≤ bit then .next (s.modDie (s.ownDie (bit - 21)) fun d => { d with txReady := true })
    else if bit == 20 then .next { s with eqReady := true }
    else .next s

/-- A physical key that the package's power-on leaves alone: a peer's memory or the system's. -/
def State.foreignKey (s : State) (key : Nat) : Bool :=
  if key < 2 ^ 61 then key / 2 ^ 50 / 4 != s.node.toNat else key < 2 ^ 62

/-- POWER_ON: every register takes its reset value and the package's memory is empty, so every line is unwritten; the peers and the system's
memory stand, and the domain map is the host's (R361; log 63). -/
def execPowerOn (s : State) : Out :=
  .next { State.reset with
    agenda := s.agenda, node := s.node, tick := s.tick, domain := s.domainNow, lostPeers := s.lostPeers
    mem := s.mem.filter fun c => s.foreignKey c.1
    lines := s.lines.filter fun p => s.foreignKey (128 * p.1)
    dies := s.dies.filter fun p => p.1 / 4 != s.node.toNat
    bver := s.bver, wseq := s.wseq, nextId := s.nextId, nextUid := s.nextUid }

/-! ### Snapshots (R340, R359) -/

/-- FIRE: a host write of SNPCTL.FIRE. -/
def execFire (s : State) : Out := .next (s.snapFire 18 true)

/-- A write of SNPSTAT with FULL = 0 releases the held snapshot. -/
def State.snapRelease (s : State) : State := { s with snap := { s.snap with full := false } }

/-- SNPSTAT_RELEASE. -/
def execSnpstatRelease (s : State) : Out := .next s.snapRelease

/-- DEBUGGER_TRIGGER. -/
def execDebuggerTrigger (s : State) : Out := .next (s.snapFire 14 false)

end Sys2Proof.Machine
end

