-- ==== Sys2Proof/Machine/SysWrite.lean ====
section
/-! DEFINITION. Writes of the system registers, under each register's own rules, and SYSR and SYSW (R293, R294). -/

namespace Sys2Proof.Machine

/-! ### Writes: false is a write that is ignored (R293) -/

/-- A field of a value. -/
def vBits (val : DWord) (hi lo : Nat) : Nat := bitsNat val.toNat hi lo

/-- Block 0x1 (R52, R53, R54, R59, R65, R114). A write of LRBASE takes LRHEAD and LRTAIL modulo the new size (DESIGN CHOICE; log 83). -/
def State.writeDie (s : State) (di index : Nat) (val : DWord) : Bool × State :=
  let d := s.die di
  if 5 ≤ index && index ≤ 12 then (true, s.setDie di { d with mtkey := Tab.put d.mtkey (index - 5) val })
  else if 16 ≤ index then (true, s.setDie di { d with cxrng := Tab.put d.cxrng (index - 16) val })
  else
    match index with
    | 0 => (true, s.setDie di { d with mtctx := val })
    | 1 => (true, s.mtCommand di val)
    | 2 => (true, s.mtStatWrite di val)
    | 13 =>
      let n := ringSize val 11
      (true, s.setDie di { d with lrbase := val, lrhead := ringCut d.lrhead n, lrtail := ringCut d.lrtail n })
    | 14 =>
      if headMayMove d.lrhead d.lrtail (val.setWidth 16) (ringSize d.lrbase 11) then
        (true, s.setDie di { d with lrhead := val.setWidth 16 })
      else (false, s)
    | _ => (false, s)

/-- Block 0x2 (R92, R93). A write of TXDECAY begins a new interval (DESIGN CHOICE: R72 does not say; log 24), a write of TXQUOTA holds
for the rest of the present frame (DESIGN CHOICE: R364 speaks of CHQUOTA alone; log 80), and a write of a ring's base takes the ring's
indices modulo its new size (log 83). -/
def State.writeTransit (s : State) (di index : Nat) (val : DWord) : Bool × State :=
  let d := s.die di
  match index with
  | 0 => (true, if vBits val 15 8 != 0 then s.setDie di { d with txDrops := 0 } else s)
  | 1 => if vBits val 31 16 == 0 then (true, s.setDie di { d with txquota := vBits val 15 0 }) else (false, s)
  | 2 => (true, s.setDie di { d.decay s.chframe with txdecay := val.setWidth 32, lastDecay := s.chframe })
  | 3 =>
    let n := ringSlots val
    (true, s.setDie di { d with txrbase := val, txrhead := ringCut d.txrhead n, txrtail := ringCut d.txrtail n })
  | 4 =>
    let n := ringSlots val
    (true, s.setDie di { d with txlbase := val, txlhead := ringCut d.txlhead n, txltail := ringCut d.txltail n })
  | 6 => s.txrtailWrite di val
  | 7 =>
    let idx := ringIndex val (ringSlots d.txlbase)
    if headMayMove d.txlhead d.txltail idx (ringSlots d.txlbase) then (true, s.setDie di { d with txlhead := idx }) else (false, s)
  | 9 => (true, s.setDie di { d with txptab := val &&& 0xFFFFFFFFFFFFFFF0#64 })
  | 10 => (true, s.setDie di { d with txsel := val.setWidth 12 })
  | _ => (false, s)

/-- Changes the status of the ring that RNGSEL names. -/
def Die.setRing (d : Die) (f : RingStat → RingStat) : Die := { d with rings := Tab.put d.rings d.rngsel.toNat (f (d.ring d.rngsel.toNat)) }

/-- Block 0x4 (R98, R100, R101, R364). A write of RNGSTAT sets FAULT and SPARE and leaves LOCK (DESIGN CHOICE: R100 gives these fields no
access; log 81), and one of RNGSEL whose CHAN or WL names no ring is ignored (DESIGN CHOICE; log 88). -/
def State.writeChain (s : State) (di index : Nat) (val : DWord) : Bool × State :=
  let d := s.die di
  match index with
  | 0 =>
    if vBits val 31 21 == 0 && vBits val 7 5 == 0 && vBits val 20 14 ≤ 103 && vBits val 4 0 ≤ 17 then
      (true, s.setDie di { d with rngsel := val.setWidth 32 })
    else (false, s)
  | 1 => if d.rngLoop then (false, s) else (true, s.setDie di (d.setRing fun r => { r with code := val.setWidth 12 }))
  | 3 => (true, s.setDie di (d.setRing fun r => { r with fault := bitNat val.toNat 2, spare := bitNat val.toNat 1 }))
  | 4 =>
    if vBits val 31 17 == 0 then (true, s.setDie di { d with rngLoop := bitNat val.toNat 16, rngPeriod := val.setWidth 16 })
    else (false, s)
  | 6 => if vBits val 31 9 == 0 && vBits val 8 0 ≤ 291 then (true, { s with chqsel := val.setWidth 9 }) else (false, s)
  | 7 =>
    if vBits val 31 16 == 0 && vBits val 15 0 != 0 then
      (true, { s with quotas := Tab.put s.quotas s.chqsel.toNat (vBits val 15 0) })
    else (false, s)
  | _ => (false, s)

/-- Block 0x6 (R146, R160). -/
def State.writeCore (s : State) (core index : Nat) (val : DWord) : Bool × State :=
  let c := s.core core
  let lims := [vBits val 7 0, vBits val 15 8, vBits val 23 16, vBits val 31 24]
  match index with
  | 0 =>
    if lims.sum ≤ 240 then (true, s.setCore core { c with lim := lims.zipIdx.map fun x => (x.2, x.1) }) else (false, s)
  | 5 =>
    if vBits val 31 26 == 0 && vBits val 15 10 == 0 then (true, s.setCore core { c with escLimit := min 512 (vBits val 9 0) })
    else (false, s)
  | _ => (false, s)

/-- A write of CTXCMD (R321, R327). -/
def State.ctxCommand (s : State) (ctx : Nat) (val : DWord) : State :=
  let all := bitNat val.toNat 59
  let core := vBits val 58 51
  let go (o : Out) : State :=
    match o with
    | .next t => t
    | _ => s
  if vBits val 50 0 != 0 then s.ctxErr ctx
  else
    match vBits val 63 60 with
    | 0 => go (execQuery ctx all core s)
    | 1 => go (execPreempt ctx all core s)
    | 2 => go (execRun ctx all core s)
    | 3 => go (execEvict ctx all core s)
    | 4 => go (execRestore ctx all core s)
    | 5 => go (execHalt ctx all core s)
    | _ => s.ctxErr ctx

/-- Block 0x7 (R42, R294, R309, R321, R322). A write of SWL with a bit of [63:50] is ignored (DESIGN CHOICE: R294 says only that they are zero; log 88). -/
def State.writeCtx (s : State) (ctx index : Nat) (val : DWord) : Bool × State :=
  let c := s.ctx ctx
  if 2 ≤ index && index < 34 then
    if index % 2 == 0 then
      (true, s.setCtx ctx { c with swb := Tab.put c.swb ((index - 2) / 2) (val &&& 0x0000FFFFFFFFFFFF#64) })
    else if vBits val 63 50 == 0 then (true, s.setCtx ctx { c with swl := Tab.put c.swl ((index - 2) / 2) val })
    else (false, s)
  else
    match index with
    | 0 => (true, s.setCtx ctx { c with pri := val.setWidth 3 })
    | 1 => (true, s.setCtx ctx { c with wdint := val.setWidth 32 })
    | 0x40 => if !bitNat val.toNat 1 && pathOf val ≤ 1 then (true, s.setCtx ctx { c with trvec := val }) else (false, s)
    | 0x41 =>
      if vBits val 31 12 == 0 && !bitNat val.toNat 0 then (true, s.setCtx ctx { c with trmask := val.setWidth 32 }) else (false, s)
    | 0x42 => (true, s.setCtx ctx { c with trlpc := val.setWidth 32 })
    | 0x43 => if vBits val 22 1 == 0 && pathOf val == 0 then (true, s.setCtx ctx { c with savbase := val }) else (false, s)
    | 0x44 => (true, s.ctxCommand ctx val)
    | 0x46 => (true, s.resume ctx val)
    | 0x48 => if vBits val 31 1 == 0 then (true, s.setCtx ctx { c with arm := bitNat val.toNat 0 }) else (false, s)
    | _ => (false, s)

/-- Block 0x8 (R297, R298). -/
def State.writeDist (s : State) (index : Nat) (val : DWord) : Bool × State :=
  let d := s.ds
  match index with
  | 0 => (true, s.dsCommand val)
  | 2 => (true, { s with ds := { d with ibase := val } })
  | 4 => if s.inletMayMove val then (true, { s with ds := { d with itail := val.setWidth 16 } }) else (false, s)
  | 5 => if vBits val 29 0 == 0 && pathOf val == 0 then (true, { s with ds := { d with hmbase := val } }) else (false, s)
  | 6 => if vBits val 31 11 == 0 then (true, { s with ds := { d with hmctx := val.setWidth 32 } }) else (false, s)
  | _ => (false, s)

/-- Block 0x9 (R353, R359). -/
def State.writePower (s : State) (index : Nat) (val : DWord) : Bool × State :=
  let p := s.power
  let up := vBits val 15 0
  let down := vBits val 31 16
  match index with
  | 0 =>
    if 1 ≤ up && up ≤ 4400 && 1 ≤ down && down ≤ 4400 then (true, { s with power := { p with newDown := down, newUp := up } })
    else (false, s)
  | 1 => if down == 0 && 500 ≤ up && up ≤ Config.tdp then (true, { s with power := { p with newCap := up } }) else (false, s)
  | 8 =>
    if vBits val 31 19 == 0 then
      let s := { s with snap := { s.snap with src := BitVec.ofNat 18 (vBits val 18 1) } }
      (true, if bitNat val.toNat 0 then s.snapFire 18 true else s)
    else (false, s)
  | 9 => (true, { s with snap := { s.snap with frame := val.setWidth 32 } })
  | 10 => (true, if bitNat val.toNat 0 then s else s.snapRelease)
  | 11 =>
    if 1 ≤ vBits val 15 8 && vBits val 15 8 ≤ 9 then
      (true, { s with snap := { s.snap with selBlock := vBits val 15 8, selIndex := vBits val 7 0 } })
    else (false, s)
  | _ => (false, s)

/-- A write of the register that a legal selector names (R293, R294). -/
def State.writeSys (s : State) (x : Sel) (val : DWord) : Bool × State :=
  match x.block with
  | 1 => s.writeDie (s.ownDie x.die) x.index val
  | 2 => s.writeTransit (s.ownDie x.die) x.index val
  | 3 => (true, s.modDie (s.ownDie x.die) fun d => { d with txpol := Tab.put d.txpol x.unit (val.setWidth 32) })
  | 4 => s.writeChain (s.ownDie x.die) x.index val
  | 5 =>
    match s.writeEventReg x.index val with
    | (ignored, t) => (!ignored, t)
  | 6 => s.writeCore x.unit x.index val
  | 7 => s.writeCtx x.unit x.index val
  | 8 => s.writeDist x.index val
  | 9 => s.writePower x.index val
  | _ => (false, s)

/-- A write by selector: false when it is refused or ignored (R293). -/
def State.sysWrite (s : State) (sel : Word) (val : DWord) : Bool × State :=
  if selOk sel then s.writeSys (selOf sel) val else (false, s)

/-- A write by selector need not wait for memory: only one of MTCMD may have to (R65, R358). -/
def State.sysReady (s : State) (sel : Word) (val : DWord) : Bool :=
  let x := selOf sel
  !selOk sel || x.block != 1 || x.index != 1 || s.mtReadyFor (s.ownDie x.die) val

/-- WRITE_REGISTER: a control core or the host writes a register. -/
def execWriteRegister (sel : Word) (val : DWord) (s : State) : Out :=
  if s.sysReady sel val then .next (s.sysWrite sel val).2 else hold s

/-! ### SYSR and SYSW (R293) -/

/-- A register access of the running split, as an entry of FIFO Y: the selector is kept as `lpc` and the value as `word`. -/
def State.sysEnt (s : State) (kind : EKind) (sel : Word) (val : DWord) (sdst : Option Nat) : Entry :=
  { s.newEnt kind 5 0 [] with lpc := sel, word := val.setWidth 96, sdst := sdst }

/-- A register access at issue: it is permitted to launches with SYSP alone. -/
def sysWord (reads : List Nat) (d : BitVec 6) (e : State → Entry) (s : State) : Out :=
  scalarWord (pairOk d) reads
    (fun s =>
      if !s.curGroup.sysp then .next (s.scalarFault ⟨.perm, .system, 0⟩)
      else if s.fenced s.curSplit.uid then hold s
      else .next (s.enter (e s)).advance) s

/-- SYSR. -/
def execSysr (d a : BitVec 6) (s : State) : Out :=
  sysWord [a.toNat] d (fun s => s.sysEnt .sysr (s.curSplit.sreg a.toNat) 0 (some d.toNat)) s

/-- SYSW. -/
def execSysw (d a : BitVec 6) (s : State) : Out :=
  sysWord ([a.toNat] ++ pairReads d) d (fun s => s.sysEnt .sysw (s.curSplit.sreg a.toNat) (s.curSplit.spair d.toNat) none) s

/-- The flag of every split that counts the access as its own (R276, R293). -/
def State.sysFlag (s : State) (e : Entry) (flag : Bool) : State :=
  s.modHolder e fun g =>
    g.live8.foldl (fun g n => if e.own (g.split n).uid then g.setSplit n ((g.split n).setFlag flag) else g) g

/-- A SYSR is performed: its value and the flag; a read of TELTIME latches (R293, R357). -/
def State.performSysr (s : State) (e : Entry) : State :=
  let x := selOf e.lpc
  let ok := selOk e.lpc
  let v := if ok then s.sysValue x else 0
  let s := if ok && x.block == 9 && x.index == 3 then s.telLatch else s
  let vs := (e.sdst.map fun d => [(d, loW v), (d + 1, hiW v)]).getD []
  (s.sysFlag e (!ok)).land e [] vs

/-- A SYSW is performed. -/
def State.performSysw (s : State) (e : Entry) : State :=
  match (s.dropEnt e.id).sysWrite e.lpc (e.word.setWidth 64) with
  | (ok, t) => t.sysFlag e (!ok)

/-! ### A split's flag while a register access is under way -/

/-- The word reads or writes the scalar flag (R276). -/
def usesFlag (i : Instr) : Bool :=
  match i with
  | .brc p _ _ => p == 0
  | .scmp .. => true
  | .ssel .. => true
  | .sget .. => true
  | .sset .. => true
  | .reggrow .. => true
  | .idemb => true
  | .phinit .. => true
  | .phwait .. => true
  | .phfree .. => true
  | .evpop .. => true
  | .evpost .. => true
  | .launch .. => true
  | .ccnt .. => true
  | .cancel .. => true
  | .sysr .. => true
  | .sysw .. => true
  | .lde .. => true
  | .atomr .. => true
  | _ => false

/-- A SYSR or SYSW of the split has not been performed, so its flag is still to come (R293). -/
def State.flagDue (s : State) (ag : Agent) : Bool :=
  (s.ownEnts (s.splitOf ag).uid).any fun e => e.kind == .sysr || e.kind == .sysw

end Sys2Proof.Machine
end

