-- ==== Sys2Proof/Machine/Evict.lean ====
section
/-! DEFINITION. Requests, replies and performs of every kind of entry, and eviction and restore (R43, R94, R158, R265, R266, R313,
R330-R338). -/

namespace Sys2Proof.Machine

/-! ### The save path at its home (R313, R330, R331) -/

/-- An eviction that is abandoned discards nothing; what its groups' accesses have reported is reported (R330). -/
def State.keepDiscards (s : State) (ctx core : Nat) : State :=
  (((s.groupsOn core).filter fun p => p.2.ctx == ctx).map (·.1)).foldl (fun s k => s.setGroup core k { s.group core k with disc := false }) s

/-- A write of the image has failed: the eviction is abandoned, the context stays pre-empted with nothing given up, and ERR is set (R330). -/
def State.abandon (s : State) (ctx core : Nat) : State :=
  let s := s.keepDiscards ctx core
  (s.setCtxCore ctx core { s.ctxCore ctx core with state := .preempted, sent := none }).ctxErr ctx

/-- What follows a write of the save path: for a fault record FREC and the notice, whether or not it has taken place (log 16); for a line of an
image that an eviction writes, nothing, or the end of the eviction (R313, R330). -/
def State.saveDone (s : State) (e : Entry) (ok : Bool) : State :=
  let s := s.dropEnt e.id
  if 0 < e.op then s.recorded e
  else if !ok && s.stateOn e.ctx e.ag.core == .evicting then s.abandon e.ctx e.ag.core
  else s

/-- A write of the save path is served at its home (R96, R102, R331). -/
def State.deliver (s : State) (e : Entry) : State :=
  match (s.brought e).ownerCheck e.ctx e.lease e.access (noPath e.line) with
  | (.error _, s) => (s.dropFloors e.id).saveDone e false
  | (.ok (key, _), s) =>
    match s.putRuns e key none with
    | (false, s) => (s.dropFloors e.id).saveDone e false
    | (true, s) => s.saveDone e true

/-- A read of a save area is served at its home, and its reply lands; the restore looks at the bytes once it has all of them (R96, R102, R338). -/
def State.saveLook (s : State) (e : Entry) : State :=
  ((((s.brought e).ownerCheck e.ctx e.lease e.access (noPath e.line)).2).noteReply e.writer e.line).dropEnt e.id

/-- REQUEST_AT_OWNER. -/
def execRequestAtOwner (id : Nat) (s : State) : Out :=
  match s.ent id with
  | some e =>
    if e.kind == .heatr || !s.requestOk e then hold s
    else if e.kind == .hint then .next (s.hintArrives e)
    else if e.kind == .save then .next (s.deliver e)
    else if e.kind == .saveRead then (if s.replyNext e then .next (s.saveLook e) else hold s)
    else .next (s.answer e)
  | none => hold s

/-! ### COMPLETE_LOAD and PERFORM -/

/-- A HEATR read is served at the owner, and its reply lands (R94). -/
def State.performHeatr (s : State) (e : Entry) : State :=
  (((s.noteServed e).leave (dieOfCore e.ag.core) e.line 0).noteReply e.writer e.line).land e [] ((e.sdst.map fun d => [(d, s.heatValue e)]).getD [])

/-- COMPLETE_LOAD: the reply of a load, of a returned atomic, of a prefetch, or of a HEATR read lands. -/
def execCompleteLoad (id : Nat) (s : State) : Out :=
  match s.ent id with
  | none => hold s
  | some e =>
    if e.kind == .heatr then
      (if s.requestOk e && s.replyNext e then .next (s.performHeatr e) else hold s)
    else if s.replyOk e then .next (s.reply e)
    else hold s

/-- Performs an entry that may be performed and that its owner, where it has one, has answered. -/
def State.performEnt (s : State) (e : Entry) : State :=
  match e.kind with
  | .sysr => s.performSysr e
  | .sysw => s.performSysw e
  | _ =>
    match e.resp with
    | .bad _ _ => if s.replyOk e then s.reply e else s
    | _ => s.performMem e

/-- An entry may be performed now: a SYSW may have to wait for memory (R265, R358). -/
def State.mayPerform (s : State) (e : Entry) : Bool :=
  s.performOk e && (e.kind != .sysw || s.sysReady e.lpc (e.word.setWidth 64))

/-- PERFORM. -/
def execPerform (id : Nat) (s : State) : Out :=
  match s.ent id with
  | none => hold s
  | some e => if s.mayPerform e then .next (s.performEnt e) else hold s

/-! ### What an eviction waits for (R330) -/

/-- The group slots of a context on a core. -/
def State.ctxSlotsOn (s : State) (ctx core : Nat) : List Nat := ((s.groupsOn core).filter fun p => p.2.ctx == ctx).map (·.1)

/-- The placed units of a context on a core, by partition offset. -/
def State.ctxUnits (s : State) (ctx core : Nat) (away : Bool) : List (Nat × UnitRec) :=
  sortBy (fun a b => a.2.pbase ≤ b.2.pbase)
    (s.units.filter fun p => p.2.ctx == ctx && p.2.core == core && !p.2.ended && p.2.away == away)

/-- Cards of the context's units, array words other than MLOOP, loads of its partitions, and arrivals that cross to objects in them are still
under way (R138, R229, R258; log 33). -/
def State.evictWaits (s : State) (ctx core : Nat) : Bool :=
  let us := s.ctxUnits ctx core false
  (s.clusters.any fun p => p.2.window.any fun c => us.any fun u => u.1 == c.unit)
  || ((s.ctxSlotsOn ctx core).any fun k => (s.group core k).arr.any fun a => a.op != 0x48)
  || s.ents.any fun e =>
      (e.kind == .load || e.kind == .arrive) &&
      match e.resp with
      | .ok key _ => us.any fun u => scrKey core u.2.pbase ≤ key && key < scrKey core (u.2.pbase + u.2.psize)
      | _ => false

/-- Stops the loops of a context's groups at the boundary that they stand at (R222, R330). -/
def State.stopLoops (s : State) (ctx core : Nat) : State :=
  (s.ctxSlotsOn ctx core).foldl (fun s k =>
    if (s.group core k).arr.any fun a => a.started then s.stopLoop core k else s.saveLoop core k) s

/-- The entry is in one of the FIFOs of the splits of a context's units on a core, ended groups' included (R273, R330). -/
def inFifos (ctx core : Nat) (e : Entry) : Bool :=
  e.ctx == ctx && e.ag.core == core
  && (e.inG || e.kind == .sStore || e.kind == .cStore || e.inY)

/-- Commits and performs one entry as far as it goes. -/
def State.pushLate (s : State) (id : Nat) : State :=
  let s := match s.ent id with
    | some e => if s.commitOk e then s.commitEnt e else s
    | none => s
  match s.ent id with
  | none => s
  | some e => if e.kind == .sysr || e.kind == .sysw then (if s.mayPerform e then s.performEnt e else s) else s.pushEnt id

/-- Performs the FIFO entries of a context on a core (R273, R330). -/
def State.pushCtx (s : State) (ctx core : Nat) : State :=
  ((s.ents.filter (inFifos ctx core)).map (·.id)).foldl State.pushLate s

/-! ### Discards and withdrawn waits (R259, R337) -/

/-- The group is discarded instead of saved (R337). -/
def Group.discards (g : Group) : Bool :=
  g.idem && g.mark.isSome
  && g.live8.all fun n => (g.split n).status == .running || (g.split n).status == .exiting

/-- Step 3: the eviction chooses the groups that it discards, before anything of them is performed (R330, R337). -/
def State.chooseDiscards (s : State) (ctx core : Nat) : State :=
  (s.ctxSlotsOn ctx core).foldl (fun s k =>
    let g := s.group core k
    s.setGroup core k { g with disc := g.disc || g.discards }) s

/-- A discarded group restarts from its IDEMB record with every vector register zero (R304). -/
def Group.restart (g : Group) (uid tick : Nat) : Group :=
  match g.mark with
  | none => g
  | some m =>
    let sp := { firstSplit g.sbase uid tick with spc := m.spc, lpc := m.lpc, loops := m.loops, s := m.s, a := m.a, flag := m.flag }
    { g with v := [], under := [], disc := false, pend := [], p := m.p, tm := m.tm, g := m.g, arr := none,
             mls0 := 0, mls1 := 0, mls2 := 0, mls3 := 0, seqr := default, splits := [(0, sp)] }

/-- The offset lies in the partition of one of the units. -/
def inUnits (us : List (Nat × UnitRec)) (off : Nat) : Bool := us.any fun u => u.2.pbase ≤ off && off < u.2.pbase + u.2.psize

/-- A split's wait does not outlive the eviction: it belongs to the context there, or its object does. A wait for an object that has ended
stays as it is: it never completes (R261). -/
def Split.waitEnds (sp : Split) (core : Nat) (us : List (Nat × UnitRec)) (mine : Bool) : Bool :=
  match sp.wait with
  | .phaser c o _ _ => mine || (c == core && inUnits us o)
  | .dead => false
  | _ => mine

/-- Withdraws the waits that an eviction ends; their words run again on restore (R259, R330). -/
def State.withdrawAll (s : State) (ctx core : Nat) : State :=
  let us := s.ctxUnits ctx core false
  s.liveGroups.foldl (fun s p =>
    (Group.live8 p.2.2).foldl (fun s n =>
      let ag : Agent := ⟨p.1, p.2.1, n⟩
      let sp := s.splitOf ag
      if sp.waitEnds core us (p.1 == core && p.2.2.ctx == ctx) then
        (s.withdrawWait p.2.2.ctx sp.wait).modSplit ag fun sp => { sp with wait := .none, fetched := none }
      else s) s) s

/-! ### The image (R332) -/

/-- The ROWOFF of each saved group: packed in increasing slot order. -/
def rowOffs (s : State) (core : Nat) : List Nat → Nat → Tab Nat
  | [], _ => []
  | k :: ks, o => (k, o) :: rowOffs s core ks (o + (s.group core k).regs)

/-- The slots that are saved, and not discarded, in increasing order. -/
def State.savedSlots (s : State) (ctx core : Nat) : List Nat :=
  (below Config.slotsPerCore (s.ctxSlotsOn ctx core).contains).filter fun k => !(s.group core k).disc

/-- The live objects of a context's units: the unit, its index, and the offset in its partition. -/
def State.ctxObjs (s : State) (ctx core : Nat) : List (Nat × Nat × Nat) :=
  sortBy (fun a b => a.2.1 < b.2.1 || (a.2.1 == b.2.1 && a.2.2 ≤ b.2.2))
    ((s.ctxUnits ctx core false).flatMap fun u =>
      ((s.core core).phasers.filter fun p => p.unit == u.1).map fun p => (u.1, u.2.index, p.off - u.2.pbase))

/-- The pieces of a core image, but for the groups: header, unit table, phaser list and partitions (R332). -/
def State.coreImage (s : State) (ctx core late : Nat) : List ImgPiece :=
  let us := s.ctxUnits ctx core false
  [ (0, padTo 64 (words4 [1, ctx, core, (s.ctxSlotsOn ctx core).length, us.length, late])),
    (0x100, padTo 4096 (us.flatMap fun u =>
      padTo 64 (words4 [u.2.launch.toNat, u.2.index, u.2.csIdx, u.2.psize, u.2.pbase]))),
    (0x2000, padTo 1024 ((s.ctxObjs ctx core).flatMap fun o => words4 [o.2.1, o.2.2])) ]
  ++ (us.filter fun u => 0 < u.2.psize).map fun u => (0x510000 + u.2.pbase, s.scrRead ctx core u.2.pbase u.2.psize)

/-- The pieces of the groups' records and rows; a discarded group has DISC and its IDEMB record alone (R333, R337). -/
def State.groupImages (s : State) (ctx core : Nat) (offs : Tab Nat) : List ImgPiece :=
  (s.ctxSlotsOn ctx core).flatMap fun k =>
    match offs.find? fun p => p.1 == k with
    | some (_, o) =>
      shiftPieces (recOff k) (s.groupImage core k o) ++ (s.group core k).rowPieces o (List.range (s.group core k).regs)
    | none =>
      let g := s.group core k
      [(recOff k + 0x8540, words4 [1]), (recOff k + 0x8800, idemImage g.mark g.sbase)]

/-- The replies due for the groups that are saved. -/
def State.lateOf (s : State) (core : Nat) (slots : List Nat) : Nat :=
  s.ents.countP fun e => e.due && slots.any fun k => e.inGroup core k (s.group core k).tag

/-- The whole image. -/
def State.image (s : State) (ctx core : Nat) : List ImgPiece :=
  let slots := s.savedSlots ctx core
  s.coreImage ctx core (s.lateOf core slots) ++ s.groupImages ctx core (rowOffs s core slots 0)

/-! ### EVICT_SAVE (R330, R337) -/

/-- Step 6: the context's rows, slots, partitions, phasers and context slot are free, and the save holds its groups. Entries of a discarded
group stay until they are answered, and their charges with them (R158, R337). -/
def State.giveUp (s : State) (ctx core : Nat) : State :=
  let slots := s.savedSlots ctx core
  let all := s.ctxSlotsOn ctx core
  let offs := rowOffs s core slots 0
  let objs : List PhaserTag := (s.ctxObjs ctx core).map fun o => ⟨o.1, o.2.2⟩
  let us := s.ctxUnits ctx core false
  let saved := all.foldl (fun t k =>
    let g := s.group core k
    Tab.put t k (if slots.contains k then g else g.restart (s.nextUid + k) s.tick)) ([] : Tab Group)
  let s := { s with nextUid := s.nextUid + Config.slotsPerCore }
  let s := all.foldl (fun s k => s.dropGroup core k) s
  let c := s.core core
  let s := s.setCore core { c with phasers := c.phasers.filter fun p => !(us.any fun u => u.1 == p.unit) }
  let gone (k : Nat) : Bool := us.any fun u => u.1 == k
  let mark (p : Nat × UnitRec) : Nat × UnitRec := if gone p.1 then (p.1, { p.2 with away := true }) else p
  let s := { s with units := s.units.map mark }
  s.setCtxCore ctx core ⟨.evicted, saved, offs, objs, none⟩

/-- The core image is sent, as far as what the context has there has changed since it was sent; or, where nothing has, the context is given up
(R330, R331; log 77). -/
def State.saveCore (s : State) (ctx core : Nat) : State :=
  let w := s.withdrawAll ctx core
  let now := imageLines (w.image ctx core)
  match newLines now ((s.ctxCore ctx core).sent.getD []) with
  | [] => ((w.giveUp ctx core).noteDone ctx).snapFire 13 false
  | ls =>
    match s.sendLines ctx core ls with
    | (false, s) => s.abandon ctx core
    | (true, s) => s.setCtxCore ctx core { s.ctxCore ctx core with sent := some now }

/-- EVICT_SAVE: the loops stop, the FIFOs are performed, and the core image is sent; once every line of it has been written and holds what the
context has there, the context is given up. -/
def execEvictSave (ctx core : Nat) (s : State) : Out :=
  if s.stateOn ctx core != .evicting || s.evictWaits ctx core || s.saving ctx core then hold s
  else
    let s := ((s.stopLoops ctx core).chooseDiscards ctx core).pushCtx ctx core
    if s.ents.any (inFifos ctx core) || s.evictWaits ctx core then .next s
    else .next (s.saveCore ctx core)

/-! ### RESTORE_PLACE (R338) -/

/-- Reads bytes of a core image. -/
def State.readImage (s : State) (ctx core off n : Nat) : Option (List Byte) × State :=
  match s.vRead ctx (s.imageAddr ctx core + BitVec.ofNat 64 off) n with
  | (.ok bs, s) => (some bs, s)
  | (.error _, s) => (none, s)

/-- A 32-bit word of bytes. -/
def w4 (bs : List Byte) (o : Nat) : Word := BitVec.ofNat 32 (ofBytes ((bs.drop o).take 4))

/-- A 64-bit word of bytes. -/
def w8 (bs : List Byte) (o : Nat) : DWord := BitVec.ofNat 64 (ofBytes ((bs.drop o).take 8))

/-- Affine registers from bytes, 16 bytes each (R334). -/
def affsOf (b : List Byte) : Tab Affine := (List.range 32).foldl (fun t n => Tab.put t n ⟨w8 b (16 * n), w4 b (16 * n + 8)⟩) []

/-- Words from bytes, numbered from `base` (R333, R334). -/
def wordsOf (n base : Nat) (b : List Byte) : Tab Word := (List.range n).foldl (fun t i => Tab.put t (base + i) (w4 b (4 * i))) []

/-- A lane-queue entry with the word and the captures that its bytes hold (R334). -/
def QEntry.readBack (e : QEntry) (b : List Byte) : QEntry :=
  let cap (o : Nat) : Capture := ⟨w4 b o, w4 b (o + 4), w4 b (o + 8)⟩
  { e with word := BitVec.ofNat 96 (ofBytes (b.take 12)), capA := cap 12, capB := cap 24, capC := cap 36 }

/-- A join-list record with the fields that its bytes hold: LANES are the lanes of the second run, which the record holds during the first
(R335). -/
def JoinRec.readBack (r : JoinRec) (b : List Byte) : JoinRec :=
  let r := { r with join := w4 b 4, brvid := (w4 b 8).toNat }
  if w4 b 0 == 2 then
    { r with
      kind := .serial, stage := (w4 b 0xC).toNat, lanes := w4 b 0x10, next := w4 b 0x14, lpc := w4 b 0x18
      other := if w4 b 0xC == 0 then w4 b 0x10 else r.other
      loops := loopsOfBytes (w4 b 0x1C).toNat (b.drop 0x20) }
  else { r with kind := .join }

/-- A join list with what the bytes of its records hold, oldest first (R334). -/
def joinsBack (js : List JoinRec) (b : List Byte) : List JoinRec :=
  ((js.reverse.zipIdx).map fun x => if x.2 < 4 then x.1.readBack (b.drop (128 * x.2)) else x.1).reverse

/-- A split with what its split state holds: registers, lane queue, loop stack, PCs, mask, flag and join list (R334, R335). -/
def Split.readBack (sp : Split) (sbase : DWord) (b : List Byte) : Split :=
  let stat := (w4 b 0x6CC).toNat
  let js := joinsBack sp.savedJoins (b.drop 0xC00)
  { sp with
    s := wordsOf 64 0 b, a := affsOf (b.drop 0x100)
    queue := (sp.queue.zipIdx).map fun x => if x.2 < 16 then x.1.readBack (b.drop (0x300 + 48 * x.2)) else x.1
    loops := loopsOfBytes (bitsNat stat 3 1) (b.drop 0x600)
    spc := sbase + (w4 b 0x6C0).setWidth 64, lpc := w4 b 0x6C4, mask := w4 b 0x6C8, flag := bitNat stat 0
    joins := if sp.setJoins.isEmpty then js else sp.joins, setJoins := if sp.setJoins.isEmpty then [] else js }

/-- The IDEMB record that its bytes hold (R304, R333, log 73). -/
def idemOf (sbase : DWord) (b : List Byte) : IdemRec :=
  let stat := (w4 b 0x348).toNat
  { spc := sbase + (w4 b 0x340).setWidth 64, lpc := w4 b 0x344, loops := loopsOfBytes (bitsNat stat 3 1) (b.drop 0x300),
    g := (w4 b 0x34C).toNat, s := wordsOf 64 0 b, a := affsOf (b.drop 0x100), p := wordsOf 7 1 (b.drop 0x350),
    tm := (List.range 16).foldl (fun t n => Tab.put t n (w8 b (0x370 + 8 * n))) [], flag := bitNat stat 0 }

/-- The registers that PEND names and that no access of the saved group accounts for (R338). -/
def Group.pendBack (g : Group) (b : List Byte) : List Nat :=
  let ws := g.heldEnts.flatMap Entry.windows ++ ((g.arr.map (·.wins)).getD [])
  below 640 fun n => (w4 b (4 * (n / 32))).getLsbD (n % 32) && !(ws.any fun p => p.1 ≤ n && n < p.1 + p.2)

/-- A group with the status, scoreboard, MLS, sequencer record, predicates, tile masks and IDEMB record that its record holds; `b` starts at
0x8400 (R333, R338). -/
def Group.readBack (g : Group) (b : List Byte) : Group :=
  { g.setGstat (w4 b 0) with
    pend := g.pendBack (b.drop 0x10)
    mls0 := w4 b 0x70, mls1 := w4 b 0x74, mls2 := w4 b 0x78, mls3 := w4 b 0x7C
    seqr := ⟨w4 b 0x80, w4 b 0x84, w4 b 0x88, w4 b 0x8C, w4 b 0x90, w4 b 0x94, w4 b 0x98⟩
    p := wordsOf 7 1 (b.drop 0xA0)
    tm := (List.range 16).foldl (fun t n => Tab.put t n (w8 b (0xC0 + 8 * n))) []
    mark := g.mark.map fun _ => idemOf g.sbase (b.drop 0x400) }

/-- The splits of a saved group, read back. -/
def State.readSplits (s : State) (ctx core slot : Nat) : List Nat → Group → Option Group × State
  | [], g => (some g, s)
  | n :: ns, g =>
    match s.readImage ctx core (recOff slot + 0x400 + 0x1000 * n) 0xE00 with
    | (none, s) => (none, s)
    | (some b, s) => s.readSplits ctx core slot ns (g.setSplit n ((g.split n).readBack g.sbase b))

/-- A discarded group restarts from the IDEMB record of its image (R304, R337). -/
def State.readDiscarded (s : State) (ctx core slot : Nat) (g : Group) : Option Group × State :=
  match s.readImage ctx core (recOff slot + 0x8800) 0x3F0 with
  | (none, s) => (none, s)
  | (some b, s) => (some ({ g with mark := some (idemOf g.sbase b) }.restart (g.split 0).uid s.tick), s)

/-- A saved group, read back from its record and its rows; every row that it takes is then its own context's (R67, R151). -/
def State.readGroup (s : State) (ctx core slot : Nat) (g : Group) : Option Group × State :=
  match (s.ctxCore ctx core).rowOff.find? fun p => p.1 == slot with
  | none => s.readDiscarded ctx core slot g
  | some (_, o) =>
    match s.readSplits ctx core slot g.live8 g with
    | (none, s) => (none, s)
    | (some g, s) =>
      match s.readImage ctx core (recOff slot + 0x8400) 0x7F0 with
      | (none, s) => (none, s)
      | (some b, s) =>
        match s.readImage ctx core (0x410000 + 128 * o) (128 * g.regs) with
        | (none, s) => (none, s)
        | (some r, s) => (some { g.readBack b with v := wordsOf (32 * g.regs) 0 r, under := [] }, s)

/-- A restored group in its slot: the slot's tag, no fetched word, and rows of its own (R338). -/
def State.putBack (s : State) (core slot : Nat) (g : Group) : State :=
  let tag := (s.group core slot).tag
  let g := g.live8.foldl (fun g n =>
    g.setSplit n { g.split n with held := (g.split n).held.map fun h => { h with entry := { h.entry with tag := tag } } }) g
  (s.useRows core slot g.ctx 0 g.regs).setGroup core slot { g with tag := tag }

/-- Every saved group comes back (R338). -/
def State.putGroups (s : State) (ctx core : Nat) : List (Nat × Group) → Option State
  | [] => some s
  | (k, g) :: rest =>
    match s.readGroup ctx core k g with
    | (none, _) => none
    | (some g, s) => (s.putBack core k g).putGroups ctx core rest

/-- Every unit's partition comes back at a free offset, with its bytes from the image (R338). -/
def State.putUnits (s : State) (ctx core : Nat) : List (Nat × UnitRec) → Option State
  | [] => some s
  | (k, u) :: rest =>
    match s.pickBase core u.psize k, s.readImage ctx core (0x510000 + u.pbase) u.psize with
    | some base, (some bs, s) =>
      let s := { s with units := Tab.put s.units k { u with pbase := base, away := false } }
      let s := (List.range (u.psize / 128)).foldl (fun s i => s.scrWrite ctx core (base + 128 * i) ((bs.drop (128 * i)).take 128)) s
      s.putUnits ctx core rest
    | _, _ => none

/-- The unit that an entry of the phaser list names by its index: the unit that held the object, while its index is that one. -/
def State.objUnit (s : State) (ctx core unit index : Nat) : Option (Nat × UnitRec) :=
  let us := s.ctxUnits ctx core false
  (us.find? fun p => p.1 == unit && p.2.index == index).orElse fun _ => us.find? fun p => p.2.index == index

/-- The objects of the phaser list, read from the image, are tagged and registered again, but for those of a unit that has ended (R261, R332,
R338). -/
def State.putObjs (s : State) (ctx core : Nat) (objs : List PhaserTag) : Option State :=
  match s.readImage ctx core 0x2000 (8 * objs.length) with
  | (none, _) => none
  | (some b, s) =>
    let c := s.core core
    some (s.setCore core { c with
      phasers := c.phasers ++ (objs.zipIdx).filterMap fun o =>
        (if o.1.unit == 0 then none else s.objUnit ctx core o.1.unit (w4 b (8 * o.2)).toNat).map fun p => ⟨p.1, p.2.pbase + (w4 b (8 * o.2 + 4)).toNat⟩ })

/-- The room that a restore waits for: slots, rows, a context slot and phasers (R338). -/
def State.restoreRoom (s : State) (ctx core : Nat) : Bool :=
  let c := s.ctxCore ctx core
  s.late ctx core == 0
  && (c.saved.all fun p => !(s.group core p.1).live)
  && (match s.slotFor core ctx with
      | some k => s.rowsGrant core k (sumOver c.saved fun p => p.2.regs)
      | none => false)
  && sumOver (s.unitsOn core) (·.phn) + sumOver (s.ctxUnits ctx core true) (fun u => u.2.phn) ≤ Config.phasersPerCore

/-- One core of a restore; none when room is still missing (R338). -/
def State.restoreCore (s : State) (ctx core : Nat) : Option State :=
  if s.stateOn ctx core != .restoring || !s.restoreRoom ctx core then none
  else
    let c := s.ctxCore ctx core
    ((s.enterCore ctx core).putUnits ctx core (s.ctxUnits ctx core true)).bind fun s =>
      (s.putObjs ctx core c.objs).bind fun s =>
        (s.putGroups ctx core c.saved).map fun s => (s.setCtxCore ctx core ⟨.running, [], [], [], none⟩).leaveCore ctx core

/-- The parts of a core image that a restore reads: offsets and lengths (R332-R334, R338). -/
def State.restoreParts (s : State) (ctx core : Nat) : List (Nat × Nat) :=
  let c := s.ctxCore ctx core
  (s.ctxUnits ctx core true).map (fun u => (0x510000 + u.2.pbase, u.2.psize)) ++ [(0x2000, 8 * c.objs.length)]
  ++ c.saved.flatMap fun p =>
    match c.rowOff.find? fun q => q.1 == p.1 with
    | none => [(recOff p.1 + 0x8800, 0x3F0)]
    | some (_, o) =>
      p.2.live8.map (fun n => (recOff p.1 + 0x400 + 0x1000 * n, 0xE00))
      ++ [(recOff p.1 + 0x8400, 0x7F0), (0x410000 + 128 * o, 128 * p.2.regs)]

/-- A restore sends its reads of the image, one packet for each line (R102, R331, R338; log 77). -/
def State.askImage (s : State) (ctx core : Nat) : State :=
  let base := s.imageAddr ctx core
  let lines := (s.restoreParts ctx core).flatMap fun p => linesOf (base + BitVec.ofNat 64 p.1) p.2 false
  let s := lines.foldl (fun s x => s.enter (savePacket .saveRead ⟨core, 0, 0⟩ 0 ctx 0 0 x.1 [])) s
  s.setCtxCore ctx core { s.ctxCore ctx core with sent := some [] }

/-- A core that a restore takes back is ready for it: there is room, its save path has sent all, and the image can be read (R41, R106, R338). -/
def State.mayRestore (s : State) (ctx core : Nat) : Bool :=
  s.stateOn ctx core == .restoring && s.restoreRoom ctx core && !s.saving ctx core
  && (s.coreCheck core ctx (s.imageAddr ctx core)).isNone

/-- RESTORE_PLACE: the images are read, and the saved groups are placed back, with those of the same cluster sets on other cores. -/
def execRestorePlace (ctx core : Nat) (s : State) : Out :=
  let ks := s.linkedCores ctx true [core]
  if !ks.all (s.mayRestore ctx) then hold s
  else if ks.any fun k => (s.ctxCore ctx k).sent.isNone then .next (ks.foldl (fun s k => s.askImage ctx k) s)
  else
    match ks.foldl (fun r k => r.bind fun s => s.restoreCore ctx k) (some s) with
    | some t => .next (t.noteDone ctx)
    | none => hold s

end Sys2Proof.Machine
end

