-- ==== Sys2Proof/Machine/Dispatch.lean ====
section
/-! DEFINITION. Dispatch: one arm per constructor, each a call of the instruction's meaning. -/

namespace Sys2Proof.Machine

/-- What an instruction does to a state. -/
def exec (i : Instr) (s : State) : Host.Outcome State Fault Refusal :=
  match i with
  | .br off => Sys2Proof.Machine.execBr off s
  | .brc p n off => Sys2Proof.Machine.execBrc p n off s
  | .brv p n tgt join => Sys2Proof.Machine.execBrv p n tgt join s
  | .call off => Sys2Proof.Machine.execCall off s
  | .ret a => Sys2Proof.Machine.execRet a s
  | .exit => Sys2Proof.Machine.execExit s
  | .loop cnt fin => Sys2Proof.Machine.execLoop cnt fin s
  | .loopr r fin => Sys2Proof.Machine.execLoopr r fin s
  | .lbrk => Sys2Proof.Machine.execLbrk s
  | .lrun cnt => Sys2Proof.Machine.execLrun cnt s
  | .ljmp off => Sys2Proof.Machine.execLjmp off s
  | .sadd d a b imm => Sys2Proof.Machine.execSadd d a b imm s
  | .ssub d a b imm => Sys2Proof.Machine.execSsub d a b imm s
  | .smul d a b imm => Sys2Proof.Machine.execSmul d a b imm s
  | .smulh d a b imm uns => Sys2Proof.Machine.execSmulh d a b imm uns s
  | .sand d a b imm => Sys2Proof.Machine.execSand d a b imm s
  | .sor d a b imm => Sys2Proof.Machine.execSor d a b imm s
  | .sxor d a b imm => Sys2Proof.Machine.execSxor d a b imm s
  | .sshl d a b imm => Sys2Proof.Machine.execSshl d a b imm s
  | .sshr d a b imm => Sys2Proof.Machine.execSshr d a b imm s
  | .ssra d a b imm => Sys2Proof.Machine.execSsra d a b imm s
  | .smin d a b imm uns => Sys2Proof.Machine.execSmin d a b imm uns s
  | .smax d a b imm uns => Sys2Proof.Machine.execSmax d a b imm uns s
  | .scmp d a b imm cond uns => Sys2Proof.Machine.execScmp d a b imm cond uns s
  | .ssel d a b => Sys2Proof.Machine.execSsel d a b s
  | .smovi d imm14 => Sys2Proof.Machine.execSmovi d imm14 s
  | .slui d imm14 => Sys2Proof.Machine.execSlui d imm14 s
  | .slea d off => Sys2Proof.Machine.execSlea d off s
  | .sld d a imm14 => Sys2Proof.Machine.execSld d a imm14 s
  | .sst d a imm14 => Sys2Proof.Machine.execSst d a imm14 s
  | .sget d item => Sys2Proof.Machine.execSget d item s
  | .sset a item => Sys2Proof.Machine.execSset a item s
  | .amov d a imm14 => Sys2Proof.Machine.execAmov d a imm14 s
  | .aadd d b imm => Sys2Proof.Machine.execAadd d b imm s
  | .aadda d a b imm => Sys2Proof.Machine.execAadda d a b imm s
  | .ascl d b imm => Sys2Proof.Machine.execAscl d b imm s
  | .ashl d b imm => Sys2Proof.Machine.execAshl d b imm s
  | .astr d b imm => Sys2Proof.Machine.execAstr d b imm s
  | .aget d a str => Sys2Proof.Machine.execAget d a str s
  | .reggrow b imm try_ => Sys2Proof.Machine.execReggrow b imm try_ s
  | .regshrink b imm => Sys2Proof.Machine.execRegshrink b imm s
  | .idemb => Sys2Proof.Machine.execIdemb s
  | .ideme => Sys2Proof.Machine.execIdeme s
  | .phinit a b => Sys2Proof.Machine.execPhinit a b s
  | .phrole a src dst => Sys2Proof.Machine.execPhrole a src dst s
  | .pharr d a => Sys2Proof.Machine.execPharr d a s
  | .phwait d a b try_ => Sys2Proof.Machine.execPhwait d a b try_ s
  | .phfree a => Sys2Proof.Machine.execPhfree a s
  | .evpop d try_ => Sys2Proof.Machine.execEvpop d try_ s
  | .evpost a => Sys2Proof.Machine.execEvpost a s
  | .launch d a try_ => Sys2Proof.Machine.execLaunch d a try_ s
  | .cancel a byHandle level => Sys2Proof.Machine.execCancel a byHandle level s
  | .snop => Sys2Proof.Machine.execSnop s
  | .ccnt d a byHandle level => Sys2Proof.Machine.execCcnt d a byHandle level s
  | .xcopy d a => Sys2Proof.Machine.execXcopy d a s
  | .xgath d a => Sys2Proof.Machine.execXgath d a s
  | .xscat d a => Sys2Proof.Machine.execXscat d a s
  | .xred d a => Sys2Proof.Machine.execXred d a s
  | .mhint a tier => Sys2Proof.Machine.execMhint a tier s
  | .heatr d a region => Sys2Proof.Machine.execHeatr d a region s
  | .trap code => Sys2Proof.Machine.execTrap code s
  | .tret => Sys2Proof.Machine.execTret s
  | .sysr d a => Sys2Proof.Machine.execSysr d a s
  | .sysw d a => Sys2Proof.Machine.execSysw d a s
  | .bkpt code => Sys2Proof.Machine.execBkpt code s
  | .yield => Sys2Proof.Machine.execYield s
  | .iadd w => Sys2Proof.Machine.execIadd w s
  | .isub w => Sys2Proof.Machine.execIsub w s
  | .imul w => Sys2Proof.Machine.execImul w s
  | .imulh w => Sys2Proof.Machine.execImulh w s
  | .imad w => Sys2Proof.Machine.execImad w s
  | .imadw w => Sys2Proof.Machine.execImadw w s
  | .iaddx w => Sys2Proof.Machine.execIaddx w s
  | .imin w => Sys2Proof.Machine.execImin w s
  | .imax w => Sys2Proof.Machine.execImax w s
  | .iabs w => Sys2Proof.Machine.execIabs w s
  | .and w => Sys2Proof.Machine.execAnd w s
  | .or w => Sys2Proof.Machine.execOr w s
  | .xor w => Sys2Proof.Machine.execXor w s
  | .andn w => Sys2Proof.Machine.execAndn w s
  | .shl w => Sys2Proof.Machine.execShl w s
  | .shr w => Sys2Proof.Machine.execShr w s
  | .sra w => Sys2Proof.Machine.execSra w s
  | .rot w => Sys2Proof.Machine.execRot w s
  | .bfx w => Sys2Proof.Machine.execBfx w s
  | .bfi w => Sys2Proof.Machine.execBfi w s
  | .popc w => Sys2Proof.Machine.execPopc w s
  | .clz w => Sys2Proof.Machine.execClz w s
  | .icmp w => Sys2Proof.Machine.execIcmp w s
  | .fadd w => Sys2Proof.Machine.execFadd w s
  | .fsub w => Sys2Proof.Machine.execFsub w s
  | .fmul w => Sys2Proof.Machine.execFmul w s
  | .ffma w => Sys2Proof.Machine.execFfma w s
  | .fmin w => Sys2Proof.Machine.execFmin w s
  | .fmax w => Sys2Proof.Machine.execFmax w s
  | .fcmp w => Sys2Proof.Machine.execFcmp w s
  | .frcp w => Sys2Proof.Machine.execFrcp w s
  | .frsq w => Sys2Proof.Machine.execFrsq w s
  | .fexp2 w => Sys2Proof.Machine.execFexp2 w s
  | .flog2 w => Sys2Proof.Machine.execFlog2 w s
  | .fscl w => Sys2Proof.Machine.execFscl w s
  | .frnd w => Sys2Proof.Machine.execFrnd w s
  | .fclass w => Sys2Proof.Machine.execFclass w s
  | .dp4 w => Sys2Proof.Machine.execDp4 w s
  | .dp8 w => Sys2Proof.Machine.execDp8 w s
  | .dph2 w => Sys2Proof.Machine.execDph2 w s
  | .cvt w => Sys2Proof.Machine.execCvt w s
  | .cvti w => Sys2Proof.Machine.execCvti w s
  | .pack w => Sys2Proof.Machine.execPack w s
  | .unpk w => Sys2Proof.Machine.execUnpk w s
  | .sel w => Sys2Proof.Machine.execSel w s
  | .plog w => Sys2Proof.Machine.execPlog w s
  | .vote w => Sys2Proof.Machine.execVote w s
  | .pmov w => Sys2Proof.Machine.execPmov w s
  | .mov w => Sys2Proof.Machine.execMov w s
  | .movi w => Sys2Proof.Machine.execMovi w s
  | .shuf w => Sys2Proof.Machine.execShuf w s
  | .gath w => Sys2Proof.Machine.execGath w s
  | .redl w => Sys2Proof.Machine.execRedl w s
  | .scanl w => Sys2Proof.Machine.execScanl w s
  | .mloop w => Sys2Proof.Machine.execMloop w s
  | .tstore w => Sys2Proof.Machine.execTstore w s
  | .tmset w => Sys2Proof.Machine.execTmset w s
  | .tmlog w => Sys2Proof.Machine.execTmlog w s
  | .sigh w => Sys2Proof.Machine.execSigh w s
  | .parc w => Sys2Proof.Machine.execParc w s
  | .pcomp w => Sys2Proof.Machine.execPcomp w s
  | .scat w => Sys2Proof.Machine.execScat w s
  | .psum w => Sys2Proof.Machine.execPsum w s
  | .plat w => Sys2Proof.Machine.execPlat w s
  | .ld w => Sys2Proof.Machine.execLd w s
  | .st w => Sys2Proof.Machine.execSt w s
  | .lde w => Sys2Proof.Machine.execLde w s
  | .ldl w => Sys2Proof.Machine.execLdl w s
  | .stl w => Sys2Proof.Machine.execStl w s
  | .prf w => Sys2Proof.Machine.execPrf w s
  | .atom w => Sys2Proof.Machine.execAtom w s
  | .atomr w => Sys2Proof.Machine.execAtomr w s
  | .fence w => Sys2Proof.Machine.execFence w s
  | .ltrap w => Sys2Proof.Machine.execLtrap w s
  | .lnop w => Sys2Proof.Machine.execLnop w s
  | .splitEnd ag => Sys2Proof.Machine.execSplitEnd ag s
  | .joinMerge core slot brvid => Sys2Proof.Machine.execJoinMerge core slot brvid s
  | .escortDepart ag => Sys2Proof.Machine.execEscortDepart ag s
  | .completeLoad id => Sys2Proof.Machine.execCompleteLoad id s
  | .commit id => Sys2Proof.Machine.execCommit id s
  | .perform id => Sys2Proof.Machine.execPerform id s
  | .fill core cls ctx va => Sys2Proof.Machine.execFill core cls ctx va s
  | .drop core cls ctx va => Sys2Proof.Machine.execDrop core cls ctx va s
  | .l1StoreTimeout core va => Sys2Proof.Machine.execL1StoreTimeout core va s
  | .promoteProbe id => Sys2Proof.Machine.execPromoteProbe id s
  | .requestAtOwner id => Sys2Proof.Machine.execRequestAtOwner id s
  | .serviceGroupAtomic id err => Sys2Proof.Machine.execServiceGroupAtomic id err s
  | .heatDecay die => Sys2Proof.Machine.execHeatDecay die s
  | .tlbsync die ctx all => Sys2Proof.Machine.execTlbsync die ctx all s
  | .tlbsyncComplete die => Sys2Proof.Machine.execTlbsyncComplete die s
  | .recheck die ctx => Sys2Proof.Machine.execRecheck die ctx s
  | .keyset die ctx => Sys2Proof.Machine.execKeyset die ctx s
  | .keyclr die ctx => Sys2Proof.Machine.execKeyclr die ctx s
  | .mtstatWrite die val => Sys2Proof.Machine.execMtstatWrite die val s
  | .leaseRequest launch desc => Sys2Proof.Machine.execLeaseRequest launch desc s
  | .leaseRelease launch => Sys2Proof.Machine.execLeaseRelease launch s
  | .moveOrder die => Sys2Proof.Machine.execMoveOrder die s
  | .cancelOrder die => Sys2Proof.Machine.execCancelOrder die s
  | .hint die => Sys2Proof.Machine.execHint die s
  | .copyLine die tid err => Sys2Proof.Machine.execCopyLine die tid err s
  | .moveAbort die tid => Sys2Proof.Machine.execMoveAbort die tid s
  | .txrtailWrite die val => Sys2Proof.Machine.execTxrtailWrite die val s
  | .frameBoundary => Sys2Proof.Machine.execFrameBoundary s
  | .driftLoopPass die => Sys2Proof.Machine.execDriftLoopPass die s
  | .flitReceive fibre grp seq crcOk macOk => Sys2Proof.Machine.execFlitReceive fibre grp seq crcOk macOk s
  | .flitAck fibre grp seq => Sys2Proof.Machine.execFlitAck fibre grp seq s
  | .wavelengthLoss fibre grp rx lost => Sys2Proof.Machine.execWavelengthLoss fibre grp rx lost s
  | .restripeNotice fibre grp => Sys2Proof.Machine.execRestripeNotice fibre grp s
  | .linkRestore fibre grp rx live => Sys2Proof.Machine.execLinkRestore fibre grp rx live s
  | .portLinkDown port => Sys2Proof.Machine.execPortLinkDown port s
  | .hostHdmAccess write off data => Sys2Proof.Machine.execHostHdmAccess write off data s
  | .jobStart cluster job => Sys2Proof.Machine.execJobStart cluster job s
  | .jobComplete cluster job => Sys2Proof.Machine.execJobComplete cluster job s
  | .eqbaseWrite val => Sys2Proof.Machine.execEqbaseWrite val s
  | .eqheadWrite val => Sys2Proof.Machine.execEqheadWrite val s
  | .reggrowRetry core => Sys2Proof.Machine.execReggrowRetry core s
  | .regshrinkRelease ag => Sys2Proof.Machine.execRegshrinkRelease ag s
  | .mloopAdmit core loop => Sys2Proof.Machine.execMloopAdmit core loop s
  | .mloopStep core loop => Sys2Proof.Machine.execMloopStep core loop s
  | .arrayWordFinish core slot => Sys2Proof.Machine.execArrayWordFinish core slot s
  | .phaserArrive id => Sys2Proof.Machine.execPhaserArrive id s
  | .dsitailWrite val => Sys2Proof.Machine.execDsitailWrite val s
  | .dsiEntry => Sys2Proof.Machine.execDsiEntry s
  | .openHandle level ctx parent => Sys2Proof.Machine.execOpenHandle level ctx parent s
  | .closeHandle handle => Sys2Proof.Machine.execCloseHandle handle s
  | .retireHandle handle => Sys2Proof.Machine.execRetireHandle handle s
  | .unitPlace launch => Sys2Proof.Machine.execUnitPlace launch s
  | .launchComplete launch => Sys2Proof.Machine.execLaunchComplete launch s
  | .watchdogExpiry ctx => Sys2Proof.Machine.execWatchdogExpiry ctx s
  | .deferredFaultReport ag => Sys2Proof.Machine.execDeferredFaultReport ag s
  | .resumeRetry ctx cmd => Sys2Proof.Machine.execResumeRetry ctx cmd s
  | .resumeSkip ctx cmd => Sys2Proof.Machine.execResumeSkip ctx cmd s
  | .resumeEnd ctx cmd => Sys2Proof.Machine.execResumeEnd ctx cmd s
  | .resumeReplay ag => Sys2Proof.Machine.execResumeReplay ag s
  | .query ctx all core => Sys2Proof.Machine.execQuery ctx all core s
  | .preempt ctx all core => Sys2Proof.Machine.execPreempt ctx all core s
  | .halt ctx all core => Sys2Proof.Machine.execHalt ctx all core s
  | .run ctx all core => Sys2Proof.Machine.execRun ctx all core s
  | .evict ctx all core => Sys2Proof.Machine.execEvict ctx all core s
  | .evictSave ctx core => Sys2Proof.Machine.execEvictSave ctx core s
  | .restore ctx all core => Sys2Proof.Machine.execRestore ctx all core s
  | .restorePlace ctx core => Sys2Proof.Machine.execRestorePlace ctx core s
  | .fire => Sys2Proof.Machine.execFire s
  | .snpstatRelease => Sys2Proof.Machine.execSnpstatRelease s
  | .powerSample watts demand mw ns => Sys2Proof.Machine.execPowerSample watts demand mw ns s
  | .teltimeLatch => Sys2Proof.Machine.execTeltimeLatch s
  | .functionReady bit => Sys2Proof.Machine.execFunctionReady bit s
  | .writeRegister sel val => Sys2Proof.Machine.execWriteRegister sel val s
  | .illegalOp => Sys2Proof.Machine.execIllegalOp s
  | .powerOn => Sys2Proof.Machine.execPowerOn s
  | .ptpLock lock offset => Sys2Proof.Machine.execPtpLock lock offset s
  | .peerLost node => Sys2Proof.Machine.execPeerLost node s
  | .debuggerTrigger => Sys2Proof.Machine.execDebuggerTrigger s

end Sys2Proof.Machine
end

