-- ==== Sys2Proof/Machine/Turns.lean ====
section
/-! DEFINITION. Whose turn it is: from a turn of the agenda, or a free one, to the instruction that runs, or to the state
that the turn leaves when none runs (R7, R16, R34, R37, R38, R128, R306). -/

namespace Sys2Proof.Machine

/-- What a turn comes to: an instruction runs; a word takes an exception before it runs; nothing issues; or the machine
stops. -/
inductive Pick where
  | run (i : Instr) (s : State)
  | took (s : State)
  | done (s : State)
  | stop (r : Fault)
deriving DecidableEq, Repr

/-- A step without an encoding: only these are events. -/
def isEvent (i : Instr) : Bool := (encodeScalar i).isNone && (laneOp i).isNone && i != .illegalOp

/-- The split exists (R12, R314). -/
def State.agentHere (s : State) (ag : Agent) : Bool :=
  ag.core < 256 && ag.slot < 64 && ag.split < 8 && (s.groupOf ag).live && (s.splitOf ag).status != .absent

/-- A word that reads or writes the scalar flag waits while a SYSR or SYSW of the split is under way (R276, R293). -/
def State.gated (s : State) (ag : Agent) (i : Instr) : Bool := usesFlag i && s.flagDue ag

/-- The scalar word that the split fetched, decoded (R19-R21): a field that must be zero and is not is ILLEGAL_OPERAND. -/
def State.runScalar (s : State) (ag : Agent) (w : Word) : Pick :=
  match decodeScalar w with
  | .badField => .took (s.scalarTrap .illegalOperand)
  | .instr i => if s.gated ag i then .done s else .run i s

/-- The scalar stream's turn: the word is fetched once and kept until it completes (R16, R34, R38). -/
def State.pickScalar (s : State) (ag : Agent) : Pick :=
  if !s.scalarReady ag then .done s
  else
    match (s.splitOf ag).fetched with
    | some w => s.runScalar ag w
    | none =>
      let va := (s.splitOf ag).spc
      if !s.fetchReady ag va 4 then .done s
      else
        match s.fetchBytes ag va 4 with
        | (.error f, t) => .took (t.scalarFault f)
        | (.ok bs, t) =>
          let w : Word := BitVec.ofNat 32 (leNat bs)
          (t.modSplit ag fun sp => { sp with fetched := some w }).runScalar ag w

/-- The head of the lane queue, decoded, with the untracked loads that race with it bound (R10, R33, R35). -/
def State.runLane (s : State) (ag : Agent) : Pick :=
  let i := decodeLane (s.headOf ag).word
  if s.gated ag i then .done s else .run i (s.bindRacers ag)

/-- A word whose fetch faulted is fetched again when its split retries it (R34, R326). Its scalar and affine operands have the values that they
had when it was enqueued (R8). -/
def State.refetch (s : State) (ag : Agent) : Option State :=
  let sp := s.splitOf ag
  let h := s.headOf ag
  if !s.fetchReady ag ((s.groupOf ag).laneAddr h.lpc) 12 then none
  else
    let regs := h.kept.getD (sp.s, sp.a)
    match s.fetchLane ag { sp with s := regs.1, a := regs.2 } h.lpc h.order with
    | (e, t) => some (t.modSplit ag fun sp => { sp with queue := e :: sp.queue.drop 1 })

/-- The lane stream's turn (R7, R35). -/
def State.pickLane (s : State) (ag : Agent) : Pick :=
  if !s.laneReady ag then .done s
  else if (s.splitOf ag).headFault && (s.headOf ag).fail.isSome then
    match s.refetch ag with
    | none => .done s
    | some t => t.runLane ag
  else s.runLane ag

/-- The turn of a stream that the agenda names must exist; a free turn of one that does not is idle (log 1, log 2). -/
def State.pickStream (s : State) (free : Bool) (ag : Agent) (lane : Bool) : Pick :=
  let s := { s with cur := ag, curLane := lane }
  if !s.agentHere ag then (if free then .done s else .stop .absentAgent)
  else if lane then s.pickLane ag
  else s.pickScalar ag

/-- What a turn comes to. -/
def State.pickTurn (s : State) (free : Bool) (t : Turn) : Pick :=
  match t with
  | .scalar ag => s.pickStream free ag false
  | .lane ag => s.pickStream free ag true
  | .engine cluster job elem => .done (s.engineTurn cluster job elem)
  | .event i => if isEvent i then .run i s else .done s

/-- The turn to take, whether it is free, and the state with the turn taken off the agenda; the step counter advances
(log 1, log 2). -/
def State.turn (s : State) : Turn × Bool × State :=
  match s.agenda with
  | t :: rest => (t, false, { s with agenda := rest, tick := s.tick + 1 })
  | [] => (Config.freeTurn s.tick, true, { s with tick := s.tick + 1 })

/-- What follows at once after every step: fences and stopped loops that have become complete, the packets that cores inject, and event records
whose memory has become ready (R98, R222, R247, R358). -/
def State.settle (s : State) : State := s.settleFences.settleLoops.injectAll.sendPosts

/-! ### A place for one word -/

/-- The context entry of a root table at physical address `root` with its key on (R44). -/
def entryWord (root : Nat) : Nat := root / 8192 * 2 ^ 13 + 3

/-- A non-leaf entry for the table at physical address `tbl` (R46). -/
def nodeWord (tbl : Nat) : Nat := tbl / 128 * 2 ^ 16 + 1

/-- A leaf entry with W and X for the HBM4 page at physical address `pa` (R47). -/
def leafWord (pa : Nat) : Nat := pa / 4096 * 2 ^ 16 + 0xE01

/-- The scalar code of the placed group: local address 0 of die 0 of the own node. -/
def State.placeBase (s : State) : DWord := BitVec.ofNat 64 (s.node.toNat * 2 ^ 51)

/-- The physical address of the placed page. -/
def placePage : Nat := 2 ^ 30

/-- The placed split: split 0, all lanes, at the first word. -/
def State.wordSplit (s : State) (lane : Bool) (w : Nat) : Split :=
  let sp := { Split.empty with status := .running, mask := Mask.full, spc := s.placeBase, uid := s.nextUid }
  if lane then { sp with queue := [queueEntry sp (BitVec.ofNat 96 w) 0 none 0], lpc := 1 } else sp

/-- The placed group: group slot 0 of core 0, context 0, 20 granules. -/
def State.wordGroup (s : State) (lane : Bool) (w : Nat) : Group :=
  { Group.empty with
    live := true, launch := 1, g := 20, sbase := s.placeBase, lbase := s.placeBase + 4096, ctxb := s.placeBase,
    tag := (s.group 0 0).tag + 1, enq := 1, splits := [(0, s.wordSplit lane w)] }

/-- The lease of the placed group: 1 GiB with every right (R55). -/
def State.wordLease (s : State) : Lease :=
  ⟨1, 0, 0, s.ownDie 0, ⟨s.placeBase, BitVec.ofNat 64 (2 ^ 32 + 4 * 2 ^ 28 + 0xF * 2 ^ 24)⟩, true, true⟩

/-- One word placed where the next step fetches it: context 0 with its table and page, a group that runs it, and the turn at
the head of the agenda (log 3). -/
def State.placeWord (s : State) (lane : Bool) (w : Nat) : State :=
  let di := s.ownDie 0
  let root := 2 ^ 16
  let tbl := 2 ^ 17
  let code := physKey di 0 (placePage + if lane then 4096 else 0)
  let s := { s with
    ready := BitVec.allOnes 64, leases := s.leases ++ [s.wordLease],
    agenda := (if lane then Turn.lane ⟨0, 0, 0⟩ else Turn.scalar ⟨0, 0, 0⟩) :: s.agenda,
    groups := Tab.put s.groups 0 (s.wordGroup lane w), nextUid := s.nextUid + 1 }
  let s := s.modDie di fun d => { d with tlb := [] }
  let s := s.setCtxCore 0 0 { s.ctxCore 0 0 with state := .running }
  let s := s.setCore 0 { s.core 0 with ctxSlots := [(0, 0)] }
  let s := s.dropCopies 0 .instruction
  let s := s.unitWrite (s.ctxEntryKey di 0) (leBytes 16 (entryWord root))
  let s := s.unitWrite (physKey di 0 root) (leBytes 8 (nodeWord tbl))
  let s := s.unitWrite (physKey di 0 tbl) (leBytes 8 (leafWord placePage))
  let s := s.setLine (code / 128) LineMeta.empty
  s.unitWrite code (leBytes (if lane then 12 else 4) w)

end Sys2Proof.Machine
end

