-- ==== Sys2Proof/Machine/Schedule.lean ====
section
/-! DEFINITION. The group scheduler: a split does not issue in a slot of its pipeline while a split that R307 prefers can
issue there (R306, R307). The issue ages and the cyclic order that decide between splits of one rank count cycles, which the
model leaves out (log 7). -/

namespace Sys2Proof.Machine

/-- The class by which a group is scheduled: HIGH 0, NORMAL 1, FILL 2; a promoted FILL group counts as NORMAL (R307, R356). -/
def State.slotClass (s : State) (g : Group) : Nat := if g.cls == 2 && s.power.promote then 1 else g.cls

/-- R307 prefers group `a` to group `b`, by its first two keys: a FILL split is chosen only when no split of another class is
eligible; then the higher CTXPRI, then the class (log 27). -/
def State.prefers (s : State) (a b : Group) : Bool :=
  let (ca, cb) := (s.slotClass a, s.slotClass b)
  if (ca == 2) != (cb == 2) then cb == 2
  else
    let (pa, pb) := ((s.ctx a.ctx).pri.toNat, (s.ctx b.ctx).pri.toNat)
    pb < pa || (pa == pb && ca < cb)

/-- The split's next word in a stream would issue now (R306): it does not wait. -/
def State.wouldIssue (s : State) (ag : Agent) (lane : Bool) : Bool :=
  match s.pickStream true ag lane with
  | .took _ => true
  | .run i t =>
    match exec i t with
    | .next u => u != t
    | _ => true
  | _ => false

/-- The splits that share the pipeline of a split, other than itself (R305). -/
def State.rivals (s : State) (ag : Agent) : List Agent :=
  ((s.groupsOn ag.core).filter fun p => p.1 % 4 == ag.slot % 4).flatMap fun p =>
    (p.2.live8.map fun n => (⟨ag.core, p.1, n⟩ : Agent)).filter (· != ag)

/-- A split that R307 prefers can issue in the slot (R307). -/
def State.outranked (s : State) (ag : Agent) (lane : Bool) : Bool :=
  (s.rivals ag).any fun r => s.prefers (s.groupOf r) (s.groupOf ag) && s.wouldIssue r lane

/-- What the next turn comes to: the turn of a stream is idle while the split is outranked. -/
def State.pick (s : State) : Pick :=
  match s.turn with
  | (.scalar ag, free, t) => if t.agentHere ag && t.outranked ag false then .done t else t.pickTurn free (.scalar ag)
  | (.lane ag, free, t) => if t.agentHere ag && t.outranked ag true then .done t else t.pickTurn free (.lane ag)
  | (turn, free, t) => t.pickTurn free turn

end Sys2Proof.Machine
end

