-- ==== Sys2Proof/Machine/Step.lean ====
section
/-! DEFINITION. One step of the machine, and the placing of one word where the next step fetches it. -/

namespace Sys2Proof.Machine

/-- One step: the next turn is picked, its instruction runs, and what follows at once is settled. -/
def step (s : State) : Host.Outcome State Fault Refusal :=
  match s.pick with
  | .took t => .next t.settle
  | .done t => .next t.settle
  | .stop r => .fault r
  | .run i t =>
    match exec i t with
    | .next u => .next u.settle
    | .fault r => .fault r
    | .refused r => .refused r

/-- The state with an instruction of the opcode table stored where `step` fetches next (log 3). -/
def State.withFetchWord (s : State) (nbits w : Nat) : State := s.placeWord (32 < nbits) w

end Sys2Proof.Machine
end

