-- ==== Sys2Proof/Safety.lean ====
section
/-! DEFINITION. What counts as a safe run, and the words in which the statements speak: what a step leaves as it was, and what
a word that completes writes. None of it is part of the machine. -/

namespace Sys2Proof.Safety

open Sys2Proof.Machine

/-! ### The invariant of every step -/

/-- The memory keeps its canonical form (log 5). -/
def MemOk (s : State) : Prop := s.mem.wf = true

/-- Splits that a turn of the agenda names exist, so that the next step does not stop (log 1). -/
def Safe (s : State) : Prop := ∀ r, step s ≠ .fault r

/-! ### What stays as it was -/

/-- Every byte of memory reads as before. -/
def SameBytes (s t : State) : Prop := ∀ k, t.mem.read k = s.mem.read k

/-- Nothing but group slots has changed: no memory, no metadata, no entry in flight, no core, die, context or device register. -/
def GroupsOnly (s t : State) : Prop := t = { s with groups := t.groups }

/-- No group slot has changed but that of the running word. -/
def OtherSlots (s t : State) : Prop :=
  ∀ core slot, slotKey core slot ≠ slotKey s.cur.core s.cur.slot → t.group core slot = s.group core slot

/-- The running group has changed in the running split alone: no vector register, no predicate, no tile mask, no status. -/
def SplitAlone (s t : State) : Prop :=
  t.curGroup = { s.curGroup with splits := t.curGroup.splits } ∧
  ∀ n, n ≠ s.cur.split → t.curGroup.split n = s.curGroup.split n

/-- The running split keeps its mask, its join list, its lane queue and its records: its scalar and affine registers, its
flag, its PCs, its loop stack, and what it keeps of the running word alone may change. -/
def SplitFrame (sp sq : Split) : Prop :=
  sq = { sp with
    s := sq.s, a := sq.a, flag := sq.flag, spc := sq.spc, lpc := sq.lpc, loops := sq.loops, fetched := sq.fetched,
    lastTry := sq.lastTry, ageS := sq.ageS, ageL := sq.ageL }

/-- The running split of `t` has the PCs and the loop stack of `sp` after falling through to the next word (R16, R284). -/
def FallsFrom (s t : State) (sp : Split) : Prop :=
  let q := sp.fallTo s.curGroup.sbase (s.curSplit.spc + 4)
  t.curSplit.spc = q.spc ∧ t.curSplit.lpc = q.lpc ∧ t.curSplit.loops = q.loops

/-- The running split has fallen through to the next word. -/
def FallsThrough (s t : State) : Prop := FallsFrom s t s.curSplit

/-- The running split stands at `va` with the loop stack `loops`; its lane PC and its flag are as before. -/
def Goes (s t : State) (va : DWord) (loops : List LoopEntry) : Prop :=
  t.curSplit.spc = va ∧ t.curSplit.lpc = s.curSplit.lpc ∧ t.curSplit.loops = loops ∧ t.curSplit.flag = s.curSplit.flag

/-- The range of a loop entry holds an offset from SBASE (R282). -/
def InRange (e : LoopEntry) (off : Nat) : Bool := e.start.toNat ≤ off && off < e.fin.toNat

/-- An address as an offset from SBASE. -/
def Offset (s : State) (va : DWord) : Nat := (va - s.curGroup.sbase).toNat % 2 ^ 32

/-- The loop stack after a branch of the running word to `va` that unwinds: the innermost entries whose range holds the word
and not the target are popped (R282). -/
def Unwound (s : State) (va : DWord) : List LoopEntry :=
  s.curSplit.loops.dropWhile fun e => InRange e (Offset s s.curSplit.spc) && !InRange e (Offset s va)

/-- The frame of a scalar word within its core: it may write the scalar registers `ds` and the affine registers `as_` of its
split, the flag and the PCs; no byte of memory, no other split, and no vector register, predicate, tile mask or status. -/
structure RegFrame (s t : State) (ds as_ : List Nat) : Prop where
  bytes : SameBytes s t
  slots : OtherSlots s t
  group : SplitAlone s t
  split : SplitFrame s.curSplit t.curSplit
  sregs : ∀ n, n ∉ ds → t.curSplit.sreg n = s.curSplit.sreg n
  aregs : ∀ n, n ∉ as_ → t.curSplit.areg n = s.curSplit.areg n

/-- The frame of a scalar word that changes nothing beyond its split. -/
structure ScalarFrame (s t : State) (ds as_ : List Nat) : Prop where
  regs : RegFrame s t ds as_
  rest : GroupsOnly s t

/-- Nothing but group slots has changed, and the accesses `es` that have entered the machine as its youngest (R263). -/
def Enters (s t : State) (es : List Entry) : Prop :=
  t = { s with groups := t.groups, ents := s.ents ++ es, nextId := s.nextId + es.length }

/-- The word completes: it writes `v` into S[d] and nothing else, and falls through; the flag becomes `flag`. -/
def WritesS (i : Instr) (s : State) (d : Nat) (v : Word) (flag : Bool) : Prop :=
  ∃ t, exec i s = .next t ∧ ScalarFrame s t [d] [] ∧ FallsThrough s t ∧ t.curSplit.sreg d = v ∧ t.curSplit.flag = flag

/-- The word completes: it writes `v` into the pair S[d+1]:S[d] and nothing else, and falls through. -/
def WritesPair (i : Instr) (s : State) (d : Nat) (v : DWord) : Prop :=
  ∃ t, exec i s = .next t ∧ ScalarFrame s t [d, d + 1] [] ∧ FallsThrough s t ∧ t.curSplit.spair d = v ∧
    t.curSplit.flag = s.curSplit.flag

/-- The word completes: it writes `v` into A[d] and nothing else, and falls through. -/
def WritesA (i : Instr) (s : State) (d : Nat) (v : Affine) : Prop :=
  ∃ t, exec i s = .next t ∧ ScalarFrame s t [] [d] ∧ FallsThrough s t ∧ t.curSplit.areg d = v ∧
    t.curSplit.flag = s.curSplit.flag

/-- The running split awaits none of the scalar registers `rs` (R277). -/
def Landed (s : State) (rs : List Nat) : Prop := ∀ n ∈ rs, s.awaits s.cur n = false

/-- The word waits: the split tries it again on a later turn, and nothing changes. -/
def Waits (i : Instr) (s : State) : Prop := exec i s = .next s

/-- The frame of a lane word that issues: it leaves the head of the split's queue, and its switch marker stands (R7, R10); no
byte of memory, no scalar or affine register, no flag, PC or loop stack, and no other split changes. -/
structure LaneFrame (s t : State) (w : LaneWord) : Prop where
  bytes  : SameBytes s t
  rest   : GroupsOnly s t
  slots  : OtherSlots s t
  splits : ∀ n, n ≠ s.cur.split → t.curGroup.split n = s.curGroup.split n
  split  : t.curSplit = { s.curSplit with
    queue := s.curSplit.queue.drop 1, headFault := false, headMask := 0, swPark := w.sw, ageL := s.tick
    lastTry := if s.curSplit.headFault then none else s.curSplit.lastTry }

/-- Every row of a group is the group's own in `h`, or holds what it held in `g` (R67). -/
def RowsKept (g h : Group) : Prop := ∀ r x, Tab.get x h.under r = Tab.get x g.under r ∨ Tab.get x h.under r = x

/-- The running group has changed in vector registers and the rows that they lie in, in its splits and in ACCOV alone. -/
def VectorAlone (s t : State) : Prop :=
  t.curGroup = { s.curGroup with
    v := t.curGroup.v, under := t.curGroup.under, accov := t.curGroup.accov, splits := t.curGroup.splits }
  ∧ RowsKept s.curGroup t.curGroup

/-- The running group has changed in predicates and in its splits alone. -/
def PredAlone (s t : State) : Prop :=
  t.curGroup = { s.curGroup with p := t.curGroup.p, splits := t.curGroup.splits }

/-- The head of the running split's queue may issue as the lane word `op`, with the registers `wins`: its fetch did not fail, its
fields are legal, its registers lie in the allocation, none of them is held by the scoreboard, and the split has no scalar fault
to make first (R14, R27, R36, R37, R161). -/
structure LaneReady (op : Nat) (w : LaneWord) (wins : List (Nat × Nat)) (s : State) : Prop where
  queue : s.curSplit.queue ≠ []
  fetch : (s.headOf s.cur).fail = none
  legal : laneLegal op w = true
  alloc : ∀ p ∈ wins, p.1 + p.2 ≤ 32 * s.curGroup.g
  free  : s.held s.cur (wins ++ tileWins op w) = false
  drain : s.curSplit.drain = none

/-- The lane word completes: in the lanes in which it acts it writes `f` into V[d], and no other register, lane, predicate, tile
mask or status changes (R29, R185). -/
def WritesV (i : Instr) (s : State) (w : LaneWord) (d : Nat) (f : Nat → Word) : Prop :=
  ∃ t, exec i s = .next t ∧ LaneFrame s t w ∧ VectorAlone s t ∧ t.curGroup.accov = s.curGroup.accov ∧
    ∀ r l, l < 32 → t.curGroup.vreg r l = if r = d ∧ (s.acting w).getLsbD l then f l else s.curGroup.vreg r l

/-- The lane word completes: in the lanes in which it acts it writes `f` into V[d+1]:V[d], and nothing else changes. -/
def WritesV2 (i : Instr) (s : State) (w : LaneWord) (d : Nat) (f : Nat → DWord) : Prop :=
  ∃ t, exec i s = .next t ∧ LaneFrame s t w ∧ VectorAlone s t ∧ t.curGroup.accov = s.curGroup.accov ∧
    ∀ r l, l < 32 → t.curGroup.vreg r l =
      if r = d ∧ (s.acting w).getLsbD l then (f l).extractLsb' 0 32
      else if r = d + 1 ∧ (s.acting w).getLsbD l then (f l).extractLsb' 32 32
      else s.curGroup.vreg r l

/-- The lane word completes: in the lanes in which it acts it writes `f` into the predicate `d`, in none when `d` is p0, and
nothing else changes (R148, R193). -/
def WritesP (i : Instr) (s : State) (w : LaneWord) (d : Nat) (f : Nat → Bool) : Prop :=
  ∃ t, exec i s = .next t ∧ LaneFrame s t w ∧ PredAlone s t ∧
    ∀ n l, l < 32 → (t.curGroup.preg n).getLsbD l =
      if n = d ∧ n ≠ 0 ∧ (s.acting w).getLsbD l then f l else (s.curGroup.preg n).getLsbD l

/-- The width and the signedness of the types .s32, .n32, .s8, .n8, .s4 and .n4 of an integer lane word (R188). -/
def IntWidth (fn : Nat) : Nat := if fn < 2 then 32 else if fn < 4 then 8 else 4
def IntSigned (fn : Nat) : Bool := fn % 2 == 0

/-- Element `j` of width `n` of a lane value (R171). -/
def Elem (n : Nat) (x : Word) (j : Nat) : Nat := x.toNat / 2 ^ (n * j) % 2 ^ n

/-- The integer that the low `n` bits of an element stand for (R170). -/
def IntValue (signed : Bool) (n x : Nat) : Int := if signed && 2 ^ (n - 1) ≤ x then (x : Int) - 2 ^ n else x

/-- What an integer word writes for the exact value `x`: it wraps, or is clamped to the range under .sat (R170, R190). -/
def IntResult (signed sat : Bool) (n : Nat) (x : Int) : Nat :=
  let lo : Int := if signed then -(2 ^ (n - 1)) else 0
  let hi : Int := if signed then 2 ^ (n - 1) - 1 else 2 ^ n - 1
  ((if sat then max lo (min hi x) else x) % 2 ^ n).toNat

/-- What the condition code of SCMP says of two words (R21). -/
def Holds (cond : Nat) (uns : Bool) (x y : Word) : Prop :=
  let lt := if uns then x.toNat < y.toNat else x.toInt < y.toInt
  (cond = 0 ∧ x = y) ∨ (cond = 1 ∧ x ≠ y) ∨ (cond = 2 ∧ lt) ∨ (cond = 3 ∧ (lt ∨ x = y)) ∨ (cond = 4 ∧ ¬(lt ∨ x = y))
    ∨ (cond = 5 ∧ ¬lt)

/-! ### Real values and rounding (R167, R177, R178) -/

/-- The float formats of R167. -/
def Floats : List FloatFmt := [f32, h16, b16, f8e4, f8e5, f4e2]

/-- The real number that a finite value is. -/
def Stands (v : Val) (x : ℝ) : Prop := ∃ n m e, v = .fin n m e ∧ x = (if n then -1 else 1) * (m : ℝ) * (2 : ℝ) ^ e

/-- What stands for a value whose rounding, away from zero, exceeds the largest finite one (R178). -/
def Beyond (f : FloatFmt) (neg sat : Bool) : Nat :=
  (if neg then 2 ^ (f.eb + f.mb) else 0) +
    if sat then f.maxBits
    else if f.inf then (2 ^ f.eb - 1) * 2 ^ f.mb
    else if f.nan then 2 ^ (f.eb + f.mb) - 1
    else f.maxBits

/-- The largest finite pattern of a sign. -/
def Largest (f : FloatFmt) (neg : Bool) : Nat := (if neg then 2 ^ (f.eb + f.mb) else 0) + f.maxBits

/-- `r` is `x` rounded into a float format under a mode, `neg` being its sign (R177, R178): no other value of the format lies
between them, and the mode decides between the two neighbours; beyond the largest finite value the table of R178 decides. -/
def RoundsTo (f : FloatFmt) (rm : Nat) (sat neg : Bool) (x : ℝ) (r : Nat) : Prop :=
  ∃ top prev, Stands (f.decode f.maxBits) top ∧ Stands (f.decode (f.maxBits - 1)) prev ∧
    (|x| ≤ top → ∃ y, Stands (f.decode r) y ∧ f.sign r = neg ∧
      (∀ p z, Stands (f.decode p) z →
        ¬(x < z ∧ z < y) ∧ ¬(y < z ∧ z < x)
        ∧ (rm = 0 → |x - y| ≤ |x - z| ∧ (|x - y| = |x - z| → z ≠ y → r % 2 = 0)))
      ∧ (rm = 1 → |y| ≤ |x|) ∧ (rm = 2 → x ≤ y) ∧ (rm = 3 → y ≤ x) ∧ (rm = 4 → x ≠ y → r % 2 = 1))
    ∧ (top < |x| →
      let half := top + (top - prev) / 2
      let away := rm = 2 ∧ neg = false ∨ rm = 3 ∧ neg = true
        ∨ rm = 0 ∧ (half < |x| ∨ |x| = half ∧ f.maxBits % 2 = 1)
      (away → r = Beyond f neg sat) ∧ (¬away → r = Largest f neg))

/-- `y` is `x` rounded to an integer under a mode (R177). -/
def RoundsInt (rm : Nat) (x : ℝ) (y : Int) : Prop :=
  |x - y| < 1 ∧ (rm = 0 → |x - y| ≤ 1 / 2 ∧ (|x - y| = 1 / 2 → y % 2 = 0)) ∧ (rm = 1 → |(y : ℝ)| ≤ |x|)
    ∧ (rm = 2 → x ≤ y) ∧ (rm = 3 → (y : ℝ) ≤ x) ∧ (rm = 4 → x ≠ y → y % 2 = 1)

/-- What the condition code of FCMP says of two values (R198). -/
def FloatHolds (cond : Nat) (x y : Val) : Prop :=
  let un := x.isNan = true ∨ y.isNan = true
  (cond = 0 ∧ ¬un ∧ x.cmp y = 0) ∨ (cond = 1 ∧ (un ∨ x.cmp y ≠ 0)) ∨ (cond = 2 ∧ ¬un ∧ x.cmp y < 0)
    ∨ (cond = 3 ∧ ¬un ∧ x.cmp y ≤ 0) ∨ (cond = 4 ∧ ¬un ∧ 0 < x.cmp y) ∨ (cond = 5 ∧ ¬un ∧ 0 ≤ x.cmp y)
    ∨ (cond = 6 ∧ ¬un) ∨ (cond = 7 ∧ un)

/-! ### Combining lanes (R212) -/

/-- The operation that FN of REDL and SCANL selects, on lane values read as R212 reads them. -/
def Combines (fn rm : Nat) (x y : Int) : Int :=
  if fn < 2 then x + y
  else if fn = 2 ∨ fn = 4 then min x y
  else if fn = 3 ∨ fn = 5 then max x y
  else if fn = 6 then (x.toNat &&& y.toNat : Nat)
  else if fn = 7 then (x.toNat ||| y.toNat : Nat)
  else if fn = 8 then (x.toNat ^^^ y.toNat : Nat)
  else if fn = 9 then (f32.roundWord rm ((f32.decode x.toNat).add (f32.decode y.toNat) (rm == 3)) : Nat)
  else if fn = 10 then (f32.minBits x.toNat y.toNat : Nat)
  else (f32.maxBits2 x.toNat y.toNat : Nat)

/-- The node over the 2^k lanes from `lo` on (R212). -/
def Node (op : Int → Int → Int) (x : Nat → Int) (act : Nat → Bool) (lo : Nat) : Nat → Option Int
  | 0 => if act lo then some (x lo) else none
  | k + 1 =>
    match Node op x act lo k, Node op x act (lo + 2 ^ k) k with
    | some u, some v => some (op u v)
    | some u, none => some u
    | none, v => v

/-- The running value over the acting lanes below a lane (R212). -/
def Running (op : Int → Int → Int) (x : Nat → Int) (act : Nat → Bool) : Nat → Option Int
  | 0 => none
  | l + 1 =>
    if act l then
      match Running op x act l with
      | some r => some (op r (x l))
      | none => some (x l)
    else Running op x act l

/-! ### Words that hand work on: memory words and array words (R10, R219, R263) -/

/-- The running split after a lane word has issued (R7, R10). -/
def Issued (s : State) (w : LaneWord) (sp : Split) : Split :=
  { sp with
    queue := sp.queue.drop 1, headFault := false, headMask := 0, lastTry := if sp.headFault then none else sp.lastTry, swPark := w.sw
    ageL := s.tick }

/-- A lane word has issued: no other slot, no other split of the group and nothing else of its own split has changed. -/
structure IssueFrame (s t : State) (w : LaneWord) : Prop where
  slots  : OtherSlots s t
  splits : ∀ n, n ≠ s.cur.split → t.curGroup.split n = s.curGroup.split n
  split  : t.curSplit = Issued s w s.curSplit

/-- No group slot but one has changed, and nothing else of the machine. -/
def SlotOnly (s t : State) (core slot : Nat) : Prop :=
  GroupsOnly s t ∧ ∀ c q, slotKey c q ≠ slotKey core slot → t.group c q = s.group c q

/-- The youngest entries of `t` are those of one word issued at `s`, in order. -/
def OneWord (s : State) (es : List Entry) : Prop :=
  ∀ i e, es[i]? = some e → e.id = s.nextId + i ∧ e.wid = s.nextId ∧ e.uid = s.curSplit.uid ∧ e.owners = [s.curSplit.uid]
    ∧ e.ag = s.cur ∧ e.ctx = s.curGroup.ctx ∧ e.lpc = (s.headOf s.cur).lpc ∧ e.scw = false

/-! ### Strings of bytes (R16, R171, R216) -/

/-- Element `j` of width `n` of a string of bytes. -/
def StringElem (n : Nat) (bs : List Byte) (j : Nat) : Nat := ofBytes bs / 2 ^ (n * j) % 2 ^ n

/-- The value of an element of a slot's format in a string. -/
def StringVal (slot : Word) (bs : List Byte) (j : Nat) : Val :=
  readElem slot (slotElem slot) (StringElem (elemBits (slotElem slot)) bs j)

/-- node(lo, 2^k) of R220. -/
def KTree (x : Nat → Val) (lo : Nat) : Nat → Val
  | 0 => x lo
  | k + 1 => ((KTree x lo k).add (KTree x (lo + 2 ^ k) k) false).toX48

/-- t of R220 for two strings of 128 bytes. -/
def StepValue (slot : Word) (a b : List Byte) : Val :=
  KTree (fun e => (StringVal slot a e).mul (StringVal slot b e)) 0 (1024 / elemBits (slotElem slot)).log2

/-! ### Lane memory words (R235-R241) -/

/-- addr(L) of a memory word, with its displacement in units of `unit` bytes (R236). -/
def LaneAddr (s : State) (w : LaneWord) (unit l : Nat) : DWord :=
  let e := s.laneEnv w
  let base : DWord :=
    if isVec w.a then e.g.vreg (w.a.toNat + 1) l ++ e.g.vreg w.a.toNat l
    else if isScal w.a then e.head.capA.w1 ++ e.head.capA.w0
    else e.head.capA.affine.base + BitVec.ofNat 64 l * e.head.capA.affine.stride.signExtend 64
  base + (if w.b.toNat = 736 then 0 else (e.opB w l).signExtend 64) + w.xa.signExtend 64 * BitVec.ofNat 64 unit

/-- Byte `i` of a lane of the window at D, or of the other operand that D names (R241, R250). -/
def DataByte (s : State) (w : LaneWord) (l i : Nat) : Byte :=
  let e := s.laneEnv w
  (if isVec w.d then e.g.vreg (w.d.toNat + i / 4) l else e.raw w.d e.head.capC l).extractLsb' (8 * (i % 4)) 8

/-- The lanes in which a word acts, in increasing order (R29). -/
def Acting (s : State) (w : LaneWord) : List Nat := (List.range 32).filter fun l => (s.acting w).getLsbD l

/-- Entries of one word with their identities, the youngest of the machine (R263). -/
def Stamped (s : State) (es : List Entry) : List Entry :=
  es.mapIdx fun i x => { x with id := s.nextId + i, wid := s.nextId }

/-- What every entry of a memory word carries: the word, its split, and the marks of its order and scope, none on the system
path; promotion acts on translated paths (R242, R243, R264). -/
def WordEntry (s : State) (op : Nat) (w : LaneWord) (x : Entry) : Prop :=
  x.op = op ∧ x.fn = w.fn.toNat ∧ x.uid = s.curSplit.uid ∧ x.owners = [s.curSplit.uid] ∧ x.ag = s.cur ∧ x.ctx = s.curGroup.ctx
    ∧ x.lpc = (s.headOf s.cur).lpc ∧ x.scw = false ∧ x.sdst = none ∧ x.probed = none
    ∧ x.acq = (if modBits w 8 7 = 1 ∧ x.path ≠ 5 then some (modBits w 6 4) else none)
    ∧ x.rel = (if modBits w 8 7 = 2 ∧ x.path ≠ 5 then some (modBits w 6 4) else none)
    ∧ x.prom = (modBits w 9 9 == 1 && translated x.path)

/-- The lanes of a memory word that fault at the requester, and the part that carries the access of each other lane (R239, R262). -/
def LaneFault (s : State) (w : LaneWord) (r : Reach) (unit width align l : Nat) : Option (FaultKind × Cause) :=
  s.requesterCheck s.curGroup s.cur.core r (LaneAddr s w unit l) width align

def LaneParts (s : State) (w : LaneWord) (unit width : Nat) (data : Nat → List Byte) (l : Nat) : List Part :=
  [⟨l, LaneAddr s w unit l, width, data l⟩]

/-- The entries carry exactly the accesses of the acting lanes that pass; those of one line and path travel together, and no two
entries of a translated path hold one line (R103, R240). -/
def Carries (s : State) (op : Nat) (w : LaneWord) (r : Reach) (unit width align : Nat) (data : Nat → List Byte)
    (es : List Entry) : Prop :=
  (es.flatMap (·.parts)).Perm
      (((Acting s w).filter fun l => (LaneFault s w r unit width align l).isNone).flatMap (LaneParts s w unit width data))
    ∧ (∀ x ∈ es, WordEntry s op w x ∧ ∀ p ∈ x.parts, pathOf p.addr = x.path ∧ (translated x.path = true → lineOf p.addr = x.line))
    ∧ es.Pairwise fun x y => translated x.path = true → x.line ≠ y.line

/-- A memory word that is an acquire and acts in no lane (R29, R243). -/
def IdleAcq (s : State) (op : Nat) (w : LaneWord) : Prop := op ∈ [0x58, 0x5A, 0x5B, 0x5F] ∧ modBits w 8 7 = 1 ∧ s.acting w = 0

/-- Such a word waits while an acquire or a fence of its split is incomplete; then it issues, sends nothing, and is complete: at CLUS or wider
its core drops its generic copies (R118, R269). `u` is `s`, or `s` with the flag cleared. -/
def Idles (i : Instr) (s u : State) (w : LaneWord) : Prop :=
  (s.acquiring s.curSplit.uid = true → Waits i s)
  ∧ (s.acquiring s.curSplit.uid = false →
    ∃ t, exec i s = .next t ∧ t = { s.acquireDrop s.cur.core (modBits w 6 4) with groups := t.groups } ∧ SameBytes s t
      ∧ IssueFrame u t w ∧ t.curGroup = { s.curGroup with splits := t.curGroup.splits })

/-- The lanes that fail a check of the requester, with their faults (R239). -/
def LaneFails (s : State) (w : LaneWord) (r : Reach) (unit width align : Nat) : List (Nat × Fail) :=
  (Acting s w).filterMap fun l => (LaneFault s w r unit width align l).map fun f => (l, ⟨f.1, f.2, LaneAddr s w unit l⟩)

/-- Every lane's part comes back as the scoreboard and the store FIFOs are told: `own` holds of each entry. The word issues whole
when no acting lane fails a check of the requester; the lanes that fail one park, and the others' accesses enter all the same
(R37, R239, R263). `u` is the state in which it does: `s`, or `s` with the flag cleared. -/
def IssuesMemAs (i : Instr) (s u : State) (op : Nat) (w : LaneWord) (r : Reach) (unit width align : Nat) (data : Nat → List Byte)
    (own : Entry → Prop) : Prop :=
  (IdleAcq s op w → Idles i s u w)
  ∧ (¬IdleAcq s op w →
    ∃ es : List Entry, Carries s op w r unit width align data es ∧ (∀ x ∈ es, own x ∧ x.esc = none)
      ∧ ((∀ l ∈ Acting s w, LaneFault s w r unit width align l = none) →
        ∃ t, exec i s = .next t ∧ IssueFrame u t w ∧ Enters u t (Stamped s es)
          ∧ t.curGroup = { s.curGroup with splits := t.curGroup.splits })
      ∧ ((∃ l ∈ Acting s w, LaneFault s w r unit width align l ≠ none) →
        exec i s = .next (u.laneFault (LaneFails s w r unit width align) w.sw fun v => v.enterAll es)))

/-- The word issues so, in `s` itself. -/
def IssuesMem (i : Instr) (s : State) (op : Nat) (w : LaneWord) (r : Reach) (unit width align : Nat) (data : Nat → List Byte)
    (own : Entry → Prop) : Prop :=
  IssuesMemAs i s s op w r unit width align data own

/-- A reply has landed in a group, `g` before it and `h` after it, in the lanes of its parts: no other register changes but those of its escort
set, which are written back as they left; and the charges of the set, USED, EABR and that of its home slice, are lowered (R158). -/
structure SetLands (s t : State) (e : Entry) (g h : Group) : Prop where
  frame : ∀ r l, l < 32 → (e.dstN = 0 ∨ r < e.dst ∨ e.dst + e.dstN ≤ r ∨ ∀ p ∈ e.parts, p.lane ≠ l) →
    (∀ z, e.esc = some z → r < z.base ∨ z.base + z.count ≤ r) → h.vreg r l = g.vreg r l
  set : ∀ z, e.esc = some z → ∀ k l, k < z.count → l < 32 →
    (e.dstN = 0 ∨ z.base + k < e.dst ∨ e.dst + e.dstN ≤ z.base + k ∨ ∀ p ∈ e.parts, p.lane ≠ l) →
    h.vreg (z.base + k) l = Tab.get 0 z.rows (32 * k + l)
  charges : s.ents.countP (fun x => x.id == e.id) = 1 → ∀ z, e.esc = some z →
    t.escUsed e.ag.core + z.count = s.escUsed e.ag.core ∧ t.eabr e.ag.core e.ag.slot + 1 = s.eabr e.ag.core e.ag.slot
    ∧ ∀ i, z.slice = some i → t.windowUsed (e.ag.core / 8) i + 128 * z.count = s.windowUsed (e.ag.core / 8) i

/-! ### Core images (R332-R335) -/

/-- The bytes `bs` stand at the offset `off` of an image. -/
def ImageHas (img : List ImgPiece) (off : Nat) (bs : List Byte) : Prop :=
  ∃ p ∈ img, ∃ i, p.1 + i = off ∧ (p.2.drop i).take bs.length = bs

/-- Entry `i` of a loop stack in its 16 bytes, oldest first, zero above the depth (R282). -/
def LoopWord (ls : List LoopEntry) (i : Nat) : List Byte :=
  toBytes ((ls.reverse[i]?.map fun e => e.count.toNat * 2 ^ 96 + e.lpc.toNat * 2 ^ 64 + e.fin.toNat * 2 ^ 32 + e.start.toNat).getD 0) 16

/-- A split state of R334 stands at `at_`: the registers, the lane queue with its captures, the loop stack, the PCs, the mask and STATUS, the replay
entry, and the join list in the records of R335. The join list and the replay that a trap has set aside are the ones saved (R318). -/
def SplitImage (img : List ImgPiece) (at_ : Nat) (sp : Split) (sbase : DWord) : Prop :=
  let has := fun (off : Nat) (bs : List Byte) => ImageHas img (at_ + off) bs
  let caps := fun (cs : List Capture) => cs.flatMap fun c => words4 [c.w0.toNat, c.w1.toNat, c.w2.toNat]
  let queued := fun (e : QEntry) => toBytes e.word.toNat 12 ++ caps [e.capA, e.capB, e.capC]
  let js := if sp.setJoins = [] then sp.joins else sp.setJoins
  let replay := if sp.replay = [] then sp.setReplay else sp.replay
  let code := if sp.status = .parked then 1 else if sp.status = .trapped then 2 else if sp.status = .resumePending then 3 else 0
  (∀ n, n < 64 → has (4 * n) (words4 [(sp.sreg n).toNat]))
  ∧ (∀ n, n < 32 → has (0x100 + 16 * n) (toBytes (sp.areg n).base.toNat 8 ++ words4 [(sp.areg n).stride.toNat, 0]))
  ∧ (∀ i, i < 16 → has (0x300 + 48 * i) ((sp.queue[i]?.map queued).getD (List.replicate 48 0)))
  ∧ (∀ i, i < 4 → has (0x600 + 16 * i) (LoopWord sp.loops i)) ∧ has 0x640 (List.replicate 128 0)
  ∧ has 0x6C0 (words4 [(sp.spc - sbase).toNat % 2 ^ 32, sp.lpc.toNat, sp.mask.toNat,
      (if sp.flag then 1 else 0) + 2 * sp.loops.length + 16 * js.length + 128 * code])
  ∧ (∀ l, l < 32 →
    let part := (replay.flatMap (·.parts)).find? fun p => p.lane == l
    has (0x800 + 8 * l) (toBytes ((part.map Part.addr).getD 0).toNat 8)
    ∧ has (0x900 + 16 * l) (padTo 16 (((part.map Part.data).getD []).take 16)))
  ∧ (∀ e rest, replay = e :: rest → has 0xB00 (toBytes e.word.toNat 12 ++ caps e.caps))
  ∧ (replay = [] → ∀ e rest, sp.headFault = true → sp.queue = e :: rest → has 0xB00 (queued e))
  ∧ (replay = [] → ∀ e rest, sp.headFault = false → sp.setHead = true → sp.setQueue = e :: rest → has 0xB00 (queued e))
  ∧ (replay = [] → sp.headFault = false → sp.setHead = false → has 0xB00 (List.replicate 48 0))
  ∧ ∀ i, i < 4 →
    has (0xC00 + 128 * i) ((js.reverse[i]?.map fun r =>
      if r.kind = .join then words4 [1, r.join.toNat, r.brvid] ++ List.replicate 116 0
      else words4 [2, r.join.toNat, r.brvid, r.stage, r.lanes.toNat, r.next.toNat, r.lpc.toNat, r.loops.length]
        ++ (List.range 4).flatMap (LoopWord r.loops) ++ List.replicate 32 0).getD (List.replicate 128 0))

/-- The rest of a group record of R333 stands at `at_`, for the group of a slot: GSTAT, g, ROWOFF and SPLITV, the scoreboard, MLS and the record of a
stopped loop, the predicates and the tile masks, DISC = 0, and the IDEMB record in the layout of log 73. -/
def RecordImage (img : List ImgPiece) (at_ : Nat) (s : State) (core slot rowOff : Nat) : Prop :=
  let g := s.group core slot
  let has := fun (off : Nat) (bs : List Byte) => ImageHas img (at_ + off) bs
  let saved := fun (n : Nat) => (g.split n).status ≠ .absent
  (∃ splitv, splitv < 256 ∧ (∀ n, n < 8 → (splitv.testBit n = true ↔ saved n))
    ∧ has 0x8400 (words4 [(s.gstat core slot).toNat, g.g, rowOff, splitv]))
  ∧ (∀ n, n < 20 → has (0x8410 + 4 * n) (words4 [(s.pendWord core slot n).toNat]))
  ∧ (∀ n, n < 8 → saved n → (∀ m, m < n → ¬saved m) → has 0x8460 (words4 [(s.pendx ⟨core, slot, n⟩).toNat, 0, 0, 0]))
  ∧ has 0x8470 (words4 [g.mls0.toNat, g.mls1.toNat, g.mls2.toNat, g.mls3.toNat])
  ∧ (g.mls0.getLsbD 31 = true → has 0x8480 (words4 [g.seqr.stride.toNat, g.seqr.inc.toNat, g.seqr.bstr.toNat, g.seqr.rm.toNat, g.seqr.sat.toNat,
      g.seqr.slot.toNat, g.seqr.form.toNat, 0]))
  ∧ (g.mls0.getLsbD 31 = false → has 0x8480 (List.replicate 32 0))
  ∧ (∀ n, n < 7 → has (0x84A0 + 4 * n) (words4 [(g.preg (n + 1)).toNat])) ∧ has 0x84BC (List.replicate 4 0)
  ∧ (∀ n, n < 16 → has (0x84C0 + 8 * n) (toBytes (g.tmreg n).toNat 8))
  ∧ has 0x8540 (words4 [0]) ∧ has 0x8800 ((idemImage g.mark g.sbase).take 0x3F0)

/-- The refusal cause of an escorted word with a set of `n` registers, 0 when it may depart: the cap of its group, the budget of
its core, and for a home on the own node the window of its cluster at the slice of the first packet (R154). -/
def RefusalCause (s : State) (n : Nat) (first : Option DWord) : Nat :=
  if s.curGroup.ecap ≤ s.eabr s.cur.core s.cur.slot then 1
  else if (s.core s.cur.core).escLimit < s.escUsed s.cur.core + n then 2
  else
    match first with
    | none => 0
    | some va =>
      if nodeOf va = s.node.toNat ∧
          16384 < s.windowUsed (s.cur.core / 8) (dieOf va * 16 + sliceOf va) + 128 * n then 3 else 0

/-- tree(lo, n) of R131, with fuel for its depth. -/
def RedTree (op : Nat → Nat → Nat) (row : Nat → Nat) : Nat → Nat → Nat → Nat
  | 0, lo, _ => row lo
  | k + 1, lo, n =>
    if n ≤ 1 then row lo
    else
      let h := (n + 1) / 2
      op (RedTree op row k lo h) (RedTree op row k (lo + h) (n - h))

/-! ### Phaser words (R253) -/

/-- A phaser word touches the 16 bytes of the object at key `K` and its own split: no other slot, no other split, no access in
flight, and no byte outside the object when the line's last writer is the context's own or none (R67). -/
structure ObjFrame (s t : State) (K : Nat) : Prop where
  slots : OtherSlots s t
  group : SplitAlone s t
  split : SplitFrame s.curSplit { t.curSplit with wait := s.curSplit.wait }
  aregs : t.curSplit.a = s.curSplit.a
  ents  : t.ents = s.ents
  bytes : (s.line (K / 128)).writer = none ∨ (s.line (K / 128)).writer = some s.curGroup.ctx →
    ∀ k, k < K ∨ K + 16 ≤ k → t.mem.read k = s.mem.read k

/-! ### Snapshots and link records (R110, R359) -/

/-- A trigger fires source `src` in state `u`, and `t` is the state after: nothing but the snapshot changes; a held snapshot stays, and takes
the source into HIT when the same step has latched it, or may where every trigger since has come in the cycle that latched it, and else
the trigger is counted as lost; with none held the registers of `u` are latched (R359; log 84). -/
def Fires (u t : State) (src : Nat) : Prop :=
  let p := u.snap
  t = { u with snap := t.snap }
    ∧ (p.full = true → p.at_ = u.tick → t.snap = { p with hit := p.hit ||| BitVec.ofNat 18 (2 ^ (src - 1)) })
    ∧ (p.full = true → p.at_ ≠ u.tick → t.snap = { p with lost := min 4095 (p.lost + 1), same := false }
      ∨ p.same = true ∧ t.snap = { p with hit := p.hit ||| BitVec.ofNat 18 (2 ^ (src - 1)) })
    ∧ (p.full = false → t.snap = { p with
        full := true, at_ := u.tick, same := true, seq := p.seq + 1, hit := BitVec.ofNat 18 (2 ^ (src - 1)), data := t.snap.data }
      ∧ ∀ b i, 1 ≤ b → b < 10 → i < 0x49 → indexOk b i = true → Tab.get 0 t.snap.data (256 * b + i) = u.sysValue ⟨b, 0, 0, i⟩)

/-- From `s` to `t` the transmit groups out of service have sent what they still held, from the oldest flit on, on groups in service that
had a slot for it; what they still hold has no room. Where they held nothing, nothing has happened (R105, R108, R341; log 20). -/
structure Replays (s t : State) : Prop where
  rest  : t = { s with links := t.links, turns := t.turns }
  rx    : ∀ f g, g < 4 → t.link (8 * f + 4 + g) = s.link (8 * f + 4 + g)
  up    : ∀ k, (s.link k).service = true → ∃ more, t.link k = { s.link k with
    replay := (s.link k).replay ++ more, next := (s.link k).next + BitVec.ofNat 32 more.length }
    ∧ (more ≠ [] → (s.link k).replay.length + more.length ≤ 256)
  lost  : ∀ k, (s.link k).service = false → ∃ n, t.link k = { s.link k with replay := (s.link k).replay.drop n }
  full  : ∀ f g, f < 64 → g < 4 → (s.link (8 * f + g)).service = false → (t.link (8 * f + g)).replay ≠ [] →
    ∀ p, t.planeUp f = some p → t.turnGroup (headGate (t.link (8 * f + g)).replay) p (headPacket (t.link (8 * f + g)).replay) = none
  quiet : (∀ f g, f < 64 → g < 4 → (s.link (8 * f + g)).service = false → (s.link (8 * f + g)).replay = []) → t = s

/-- Source `src` of SNPCTL is armed (R353). -/
def Armed (s : State) (src : Nat) : Prop := s.snap.src.getLsbD (src - 1) = true

/-- One LINK_DEGRADE record is posted to the host's link ring; its TIME is a free value (R110, log 7). -/
def Degrades (s t : State) (reason : Nat) (rx : Bool) (plane group : Nat) (live : BitVec 16) (replayed : Nat) : Prop :=
  ∃ r : BitVec 128, t.linkRing = s.linkRing ++ [r]
    ∧ (r.extractLsb' 64 64).toNat = 0x41 * 2 ^ 56 + reason * 2 ^ 52 + (if rx then 2 ^ 51 else 0) + plane % 64 * 2 ^ 45
      + group % 4 * 2 ^ 43 + live.toNat * 2 ^ 27 + replayed % 2 ^ 16 * 2 ^ 11

end Sys2Proof.Safety
end

