-- ==== Sys2Proof/Certificates/Slice0/Obligations.lean ====
section
/-! DEFINITION. The statements for the provers. -/

open Sys2Proof Sys2Proof.Machine Sys2Proof.Safety

/-! ### Scalar words that write registers (R166, R278) -/

/-- The scalar ALU words: the value that each writes, from its sources as they stand before the word, in the destination alone;
no word but SCMP writes the flag (R278). -/
def Obligations.ScalarAlu : Prop :=
  ∀ (s : State) (d a b : BitVec 6) (imm uns : Bool),
    Landed s (a.toNat :: if imm then [] else [b.toNat]) →
    let x := s.curSplit.sreg a.toNat
    let y : Word := if imm then BitVec.ofNat 32 b.toNat else s.curSplit.sreg b.toNat
    let W := fun (i : Instr) (v : Word) => WritesS i s d.toNat v s.curSplit.flag
    W (.sadd d a b imm) (BitVec.ofNat 32 (x.toNat + y.toNat))
    ∧ W (.ssub d a b imm) (BitVec.ofInt 32 ((x.toNat : Int) - y.toNat))
    ∧ W (.smul d a b imm) (BitVec.ofNat 32 (x.toNat * y.toNat))
    ∧ W (.smulh d a b imm uns)
        (if uns then BitVec.ofNat 32 (x.toNat * y.toNat / 2 ^ 32) else BitVec.ofInt 32 (x.toInt * y.toInt / 2 ^ 32))
    ∧ W (.sand d a b imm) (BitVec.ofNat 32 (x.toNat &&& y.toNat))
    ∧ W (.sor d a b imm) (BitVec.ofNat 32 (x.toNat ||| y.toNat))
    ∧ W (.sxor d a b imm) (BitVec.ofNat 32 (x.toNat ^^^ y.toNat))
    ∧ W (.sshl d a b imm) (if y.toNat < 32 then BitVec.ofNat 32 (x.toNat * 2 ^ y.toNat) else 0)
    ∧ W (.sshr d a b imm) (if y.toNat < 32 then BitVec.ofNat 32 (x.toNat / 2 ^ y.toNat) else 0)
    ∧ W (.ssra d a b imm)
        (if y.toNat < 32 then BitVec.ofInt 32 (x.toInt / 2 ^ y.toNat) else if x.toInt < 0 then BitVec.ofInt 32 (-1) else 0)
    ∧ W (.smin d a b imm uns) (if (if uns then x.toNat < y.toNat else x.toInt < y.toInt) then x else y)
    ∧ W (.smax d a b imm uns) (if (if uns then x.toNat < y.toNat else x.toInt < y.toInt) then y else x)

/-- SCMP writes whether its condition holds into S[D] and the flag; its two reserved conditions take ILLEGAL_OPERAND (R21,
R278). -/
def Obligations.ScalarCompare : Prop :=
  ∀ (s : State) (d a b : BitVec 6) (imm uns : Bool) (cond : BitVec 3),
    let x := s.curSplit.sreg a.toNat
    let y : Word := if imm then BitVec.ofNat 32 b.toNat else s.curSplit.sreg b.toNat
    (cond.toNat < 6 → Landed s (a.toNat :: if imm then [] else [b.toNat]) →
      (Holds cond.toNat uns x y → WritesS (.scmp d a b imm cond uns) s d.toNat 1 true)
      ∧ (¬Holds cond.toNat uns x y → WritesS (.scmp d a b imm cond uns) s d.toNat 0 false))
    ∧ (6 ≤ cond.toNat → exec (.scmp d a b imm cond uns) s = .next (s.scalarTrap .illegalOperand))

/-- SSEL, SMOVI, SLUI and SLEA (R278); an odd pair field takes ILLEGAL_OPERAND (R22). -/
def Obligations.ScalarMoves : Prop :=
  ∀ (s : State) (d a b : BitVec 6) (imm14 : BitVec 14) (off : BitVec 20),
    (Landed s [a.toNat, b.toNat] →
      WritesS (.ssel d a b) s d.toNat (if s.curSplit.flag then s.curSplit.sreg a.toNat else s.curSplit.sreg b.toNat)
        s.curSplit.flag)
    ∧ WritesS (.smovi d imm14) s d.toNat (BitVec.ofInt 32 imm14.toInt) s.curSplit.flag
    ∧ WritesS (.slui d imm14) s d.toNat (BitVec.ofNat 32 (imm14.toNat * 2 ^ 18)) s.curSplit.flag
    ∧ (d.toNat % 2 = 0 →
      WritesPair (.slea d off) s d.toNat (BitVec.ofInt 64 (s.curGroup.ctxb.toNat + off.toInt)))
    ∧ (d.toNat % 2 = 1 → exec (.slea d off) s = .next (s.scalarTrap .illegalOperand))

/-- The affine words: the base or the stride that each writes, in A[D] alone, and AGET, which reads one back; an odd pair
field or an affine register above a31 takes ILLEGAL_OPERAND (R22, R166). -/
def Obligations.AffineWords : Prop :=
  ∀ (s : State) (d a b : BitVec 6) (imm14 : BitVec 14) (imm : Bool),
    let x : Word := if imm then BitVec.ofNat 32 b.toNat else s.curSplit.sreg b.toNat
    let src := if imm then [] else [b.toNat]
    let old := s.curSplit.areg d.toNat
    (d.toNat < 32 → a.toNat % 2 = 0 → Landed s [a.toNat, a.toNat + 1] →
      WritesA (.amov d a imm14) s d.toNat ⟨s.curSplit.spair a.toNat, BitVec.ofInt 32 imm14.toInt⟩)
    ∧ (d.toNat < 32 → Landed s src →
      WritesA (.aadd d b imm) s d.toNat ⟨BitVec.ofInt 64 (old.base.toNat + x.toInt), old.stride⟩
      ∧ WritesA (.ascl d b imm) s d.toNat ⟨old.base, BitVec.ofNat 32 (old.stride.toNat * x.toNat)⟩
      ∧ WritesA (.ashl d b imm) s d.toNat ⟨old.base, BitVec.ofNat 32 (old.stride.toNat * 2 ^ (x.toNat % 32))⟩
      ∧ WritesA (.astr d b imm) s d.toNat ⟨old.base, x⟩)
    ∧ (d.toNat < 32 → a.toNat < 32 → Landed s src →
      WritesA (.aadda d a b imm) s d.toNat
        ⟨BitVec.ofInt 64 ((s.curSplit.areg a.toNat).base.toNat + x.toInt * (s.curSplit.areg a.toNat).stride.toInt),
          (s.curSplit.areg a.toNat).stride⟩)
    ∧ (a.toNat < 32 → WritesS (.aget d a true) s d.toNat (s.curSplit.areg a.toNat).stride s.curSplit.flag)
    ∧ (a.toNat < 32 → d.toNat % 2 = 0 → WritesPair (.aget d a false) s d.toNat (s.curSplit.areg a.toNat).base)
    ∧ (32 ≤ d.toNat →
      exec (.aadd d b imm) s = .next (s.scalarTrap .illegalOperand)
      ∧ exec (.ascl d b imm) s = .next (s.scalarTrap .illegalOperand)
      ∧ exec (.ashl d b imm) s = .next (s.scalarTrap .illegalOperand)
      ∧ exec (.astr d b imm) s = .next (s.scalarTrap .illegalOperand))
    ∧ (32 ≤ d.toNat ∨ a.toNat % 2 = 1 → exec (.amov d a imm14) s = .next (s.scalarTrap .illegalOperand))
    ∧ (32 ≤ d.toNat ∨ 32 ≤ a.toNat → exec (.aadda d a b imm) s = .next (s.scalarTrap .illegalOperand))
    ∧ (32 ≤ a.toNat → exec (.aget d a true) s = .next (s.scalarTrap .illegalOperand))
    ∧ (32 ≤ a.toNat ∨ d.toNat % 2 = 1 → exec (.aget d a false) s = .next (s.scalarTrap .illegalOperand))

/-! ### Scalar memory words and status items (R162, R163, R279, R280) -/

/-- SLD and SST: an odd pair field takes ILLEGAL_OPERAND; a failing check at the requester takes its fault, at the address; and
otherwise the access enters the machine as its youngest, owned by the split, and the word falls through (R22, R263, R279). SLD
names the register it will write and SST carries the bytes of its own. -/
def Obligations.ScalarMemory : Prop :=
  ∀ (s : State) (d a : BitVec 6) (imm14 : BitVec 14),
    let va : DWord := BitVec.ofInt 64 ((s.curSplit.spair a.toNat).toNat + imm14.toInt)
    (a.toNat % 2 = 1 →
      exec (.sld d a imm14) s = .next (s.scalarTrap .illegalOperand)
      ∧ exec (.sst d a imm14) s = .next (s.scalarTrap .illegalOperand))
    ∧ (a.toNat % 2 = 0 → Landed s [a.toNat, a.toNat + 1] → s.fenced s.curSplit.uid = false →
      (∀ k c, s.requesterCheck s.curGroup s.cur.core .lane va 4 4 = some (k, c) →
        exec (.sld d a imm14) s = .next (s.scalarFault ⟨k, c, va⟩))
      ∧ (s.requesterCheck s.curGroup s.cur.core .lane va 4 4 = none →
        ∃ t e, exec (.sld d a imm14) s = .next t ∧ RegFrame s t [] [] ∧ FallsThrough s t ∧ Enters s t [e]
          ∧ t.curSplit.flag = s.curSplit.flag
          ∧ e.id = s.nextId ∧ e.owners = [s.curSplit.uid] ∧ e.kind = (if pathOf va = 5 then .yLoad else .load)
          ∧ e.parts = [⟨0, va, 4, []⟩] ∧ e.sdst = some d.toNat ∧ e.acq = none ∧ e.rel = none))
    ∧ (a.toNat % 2 = 0 → Landed s [d.toNat, a.toNat, a.toNat + 1] → s.fenced s.curSplit.uid = false →
      (∀ k c, s.requesterCheck s.curGroup s.cur.core .store va 4 4 = some (k, c) →
        exec (.sst d a imm14) s = .next (s.scalarFault ⟨k, c, va⟩))
      ∧ (s.requesterCheck s.curGroup s.cur.core .store va 4 4 = none →
        ∃ t e, exec (.sst d a imm14) s = .next t ∧ RegFrame s t [] [] ∧ FallsThrough s t ∧ Enters s t [e]
          ∧ t.curSplit.flag = s.curSplit.flag
          ∧ e.id = s.nextId ∧ e.owners = [s.curSplit.uid]
          ∧ (pathOf va = 0 → e.kind = .gStore) ∧ (pathOf va = 2 → e.kind = .sStore) ∧ (pathOf va = 5 → e.kind = .yStore)
          ∧ (∃ bs, e.parts = [⟨0, va, 4, bs⟩] ∧ bs.length = 4 ∧ ofBytes bs = (s.curSplit.sreg d.toNat).toNat)
          ∧ e.sdst = none ∧ e.acq = none ∧ e.rel = none))

/-- SGET: every item of the two tables has its word, once the split's lane words before it have issued and written their results, those of an
array word included, and every other item takes
ILLEGAL_OPERAND. SSET: item 0x20 writes the flag from bit 0, item 0x00 replaces GSTAT[31:20] of the group, and every other item takes
ILLEGAL_OPERAND (R162, R163, R280). -/
def Obligations.StatusWords : Prop :=
  (∀ (s : State) (d : BitVec 6),
    let g := s.curGroup
    let sp := s.curSplit
    let W := fun (item : Nat) (v : Word) => WritesS (.sget d (BitVec.ofNat 8 item)) s d.toNat v sp.flag
    (sp.queue = [] → (∀ a, g.arr = some a → a.own sp.uid = false) →
      (∃ v, W 0x00 v ∧ v.getLsbD 31 = g.udiv ∧ v.getLsbD 30 = g.accov ∧ v.getLsbD 29 = g.uaff
        ∧ v.extractLsb' 23 6 = g.ureg ∧ v.extractLsb' 20 3 = g.erc
        ∧ v.extractLsb' 16 4 = BitVec.ofNat 4 (s.eabr s.cur.core s.cur.slot) ∧ v.extractLsb' 0 16 = 0)
      ∧ (∀ n, n < 20 → ∃ v, W (1 + n) v ∧
        ∀ i, i < 32 → v.getLsbD i = (32 * n + i < 32 * g.g ∧ s.pendingReg s.cur.core s.cur.slot (32 * n + i) = true))
      ∧ (∃ v, W 0x15 v ∧ v.toNat = min 255 (s.untrOf sp.uid) * 256 + s.eabr s.cur.core s.cur.slot % 16)
      ∧ W 0x18 g.mls0 ∧ W 0x19 g.mls1 ∧ W 0x1A g.mls2 ∧ W 0x1B g.mls3
      ∧ W 0x20 (if sp.flag then 1 else 0) ∧ W 0x21 sp.mask ∧ W 0x22 sp.lpc ∧ W 0x23 (BitVec.ofNat 32 sp.loops.length)
      ∧ W 0x24 (g.ctxb.extractLsb' 0 32) ∧ W 0x25 (g.ctxb.extractLsb' 32 32)
      ∧ W 0x26 (g.frec.extractLsb' 0 32) ∧ W 0x27 (g.frec.extractLsb' 32 32)
      ∧ (∃ v, W 0x28 v ∧ v.toNat < 256 ∧ ∀ n, n < 8 → v.getLsbD n = ((g.split n).status ≠ .absent))
      ∧ (∀ n, n < 4 →
        (∀ e, sp.loops.reverse[n]? = some e →
          W (0x30 + 4 * n) e.start ∧ W (0x31 + 4 * n) e.fin ∧ W (0x32 + 4 * n) e.lpc ∧ W (0x33 + 4 * n) e.count)
        ∧ (sp.loops.length ≤ n → ∀ w, w < 4 → W (0x30 + 4 * n + w) 0)))
    ∧ (∀ item, item ∈ [0x16, 0x17, 0x1C, 0x1D, 0x1E, 0x1F] ∨ (0x29 ≤ item ∧ item < 0x30) ∨ (0x40 ≤ item ∧ item < 256) →
      exec (.sget d (BitVec.ofNat 8 item)) s = .next (s.scalarTrap .illegalOperand)))
  ∧ (∀ (s : State) (a : BitVec 6) (item : BitVec 8),
    let x := s.curSplit.sreg a.toNat
    let done := s.curSplit.queue = [] ∧ ∀ a, s.curGroup.arr = some a → a.own s.curSplit.uid = false
    (item = 0x20 → Landed s [a.toNat] → done →
      ∃ t, exec (.sset a item) s = .next t ∧ ScalarFrame s t [] [] ∧ FallsThrough s t ∧ t.curSplit.flag = x.getLsbD 0)
    ∧ (item = 0x00 → Landed s [a.toNat] → done →
      ∃ t, exec (.sset a item) s = .next t ∧ SameBytes s t ∧ GroupsOnly s t ∧ OtherSlots s t ∧ FallsThrough s t
        ∧ t.curGroup = { s.curGroup with
            udiv := x.getLsbD 31, accov := x.getLsbD 30, uaff := x.getLsbD 29, ureg := x.extractLsb' 23 6,
            erc := x.extractLsb' 20 3, splits := t.curGroup.splits }
        ∧ (∀ n, n ≠ s.cur.split → t.curGroup.split n = s.curGroup.split n)
        ∧ SplitFrame s.curSplit t.curSplit ∧ t.curSplit.s = s.curSplit.s ∧ t.curSplit.a = s.curSplit.a
        ∧ t.curSplit.flag = s.curSplit.flag)
    ∧ (item ≠ 0x00 → item ≠ 0x20 → exec (.sset a item) s = .next (s.scalarTrap .illegalOperand))
    ∧ (item = 0x00 ∨ item = 0x20 → Landed s [a.toNat] → ¬done → Waits (.sset a item) s))
/-! ### Branches, loops and the words that steer (R281-R285, R292, R304, R308) -/

/-- BR and a taken BRC unwind and go to the target; an untaken BRC falls through; BRC waits until the lane words before it have issued, and where
it tests a predicate until they have written their results, those of the split's array word included (R11, R156); CALL leaves the next address in S[63]:S[62];
RET goes to a pair; LJMP moves the lane PC. CALL, RET and LJMP leave the loop stack, and CALL and RET the lane PC (R22, R281,
R282). -/
def Obligations.Branches : Prop :=
  ∀ (s : State) (off : BitVec 22) (p : BitVec 3) (n : Bool) (a : BitVec 6),
    let sp := s.curSplit
    let va : DWord := BitVec.ofInt 64 (sp.spc.toNat + 4 * off.toInt)
    let test : Prop := if p = 0 then sp.flag = true else ∃ l, l < 32 ∧ (s.curGroup.preg p.toNat).getLsbD l ∧ sp.mask.getLsbD l
    let done := sp.queue = [] ∧ (p ≠ 0 → ∀ w, s.curGroup.arr = some w → w.own sp.uid = false)
    let Goto := fun (i : Instr) (ds : List Nat) (x : DWord) (loops : List LoopEntry) (q : State → Prop) =>
      ∃ t, exec i s = .next t ∧ ScalarFrame s t ds [] ∧ Goes s t x loops ∧ q t
    Goto (.br off) [] va (Unwound s va) (fun _ => True)
    ∧ (done → (test ↔ n = false) → Goto (.brc p n off) [] va (Unwound s va) (fun _ => True))
    ∧ (done → (test ↔ n = true) →
      ∃ t, exec (.brc p n off) s = .next t ∧ ScalarFrame s t [] [] ∧ FallsThrough s t ∧ t.curSplit.flag = sp.flag)
    ∧ (¬done → Waits (.brc p n off) s)
    ∧ Goto (.call off) [62, 63] va sp.loops (fun t => t.curSplit.spair 62 = sp.spc + 4)
    ∧ (a.toNat % 2 = 0 → Landed s [a.toNat, a.toNat + 1] → (sp.spair a.toNat).toNat % 4 = 0 →
      Goto (.ret a) [] (sp.spair a.toNat) sp.loops (fun _ => True))
    ∧ (a.toNat % 2 = 0 → Landed s [a.toNat, a.toNat + 1] → (sp.spair a.toNat).toNat % 4 ≠ 0 →
      exec (.ret a) s = .next (s.scalarFault ⟨.align, .none, sp.spair a.toNat⟩))
    ∧ (a.toNat % 2 = 1 → exec (.ret a) s = .next (s.scalarTrap .illegalOperand))
    ∧ ∃ t, exec (.ljmp off) s = .next t ∧ ScalarFrame s t [] []
        ∧ FallsFrom s t { sp with lpc := BitVec.ofInt 32 (sp.lpc.toNat + off.toInt) } ∧ t.curSplit.flag = sp.flag

/-- A push of the loop stack by the running word: the entry, and then the next word (R283). -/
def Obligations.LoopPush : Prop :=
  ∀ (s : State) (cnt : BitVec 10) (fin : BitVec 16) (r : BitVec 6),
    let sp := s.curSplit
    let entry := fun (count : Word) => (⟨count, sp.lpc, BitVec.ofNat 32 (Offset s sp.spc + 4 * fin.toNat),
      BitVec.ofNat 32 (Offset s sp.spc + 4)⟩ : LoopEntry)
    let Pushes := fun (i : Instr) (count : Word) =>
      ∃ t, exec i s = .next t ∧ ScalarFrame s t [] [] ∧ Goes s t (sp.spc + 4) (entry count :: sp.loops)
    (2 ≤ fin.toNat →
      (cnt ≠ 0 → sp.loops.length < 4 → Pushes (.loop cnt fin) (BitVec.ofNat 32 cnt.toNat))
      ∧ (cnt ≠ 0 → 4 ≤ sp.loops.length → exec (.loop cnt fin) s = .next (s.scalarTrap .loopOverflow))
      ∧ (Landed s [r.toNat] →
        (sp.sreg r.toNat ≠ 0 → sp.loops.length < 4 → Pushes (.loopr r fin) (sp.sreg r.toNat))
        ∧ (sp.sreg r.toNat ≠ 0 → 4 ≤ sp.loops.length → exec (.loopr r fin) s = .next (s.scalarTrap .loopOverflow))
        ∧ (sp.sreg r.toNat = 0 →
          ∃ t, exec (.loopr r fin) s = .next t ∧ ScalarFrame s t [] []
            ∧ Goes s t (sp.spc + BitVec.ofNat 64 (4 * fin.toNat)) sp.loops)))
    ∧ (cnt = 0 ∨ fin.toNat < 2 → exec (.loop cnt fin) s = .next (s.scalarTrap .illegalOperand))
    ∧ (fin.toNat < 2 → exec (.loopr r fin) s = .next (s.scalarTrap .illegalOperand))

/-- Falling through to an address: spent entries that end there are popped; then an entry that ends there takes the split back
to its START with its LPC and one iteration fewer, and otherwise the split goes on at the address (R284). SNOP and LBRK fall
through, LBRK to the END of the entry that it pops (R285, R292). -/
def Obligations.LoopBack : Prop :=
  ∀ (s : State),
    let sp := s.curSplit
    let sbase := s.curGroup.sbase
    let Falls := fun (t : State) (va : DWord) (loops : List LoopEntry) =>
      let here := loops.dropWhile fun e => e.fin.toNat == Offset s va && e.count.toNat ≤ 1
      t.curSplit.flag = sp.flag ∧
      match here with
      | [] => t.curSplit.spc = va ∧ t.curSplit.lpc = sp.lpc ∧ t.curSplit.loops = []
      | e :: es =>
        if e.fin.toNat = Offset s va then
          (t.curSplit.spc - sbase).toNat % 2 ^ 32 = e.start.toNat ∧ t.curSplit.lpc = e.lpc
            ∧ t.curSplit.loops = ⟨BitVec.ofNat 32 (e.count.toNat - 1), e.lpc, e.fin, e.start⟩ :: es
        else t.curSplit.spc = va ∧ t.curSplit.lpc = sp.lpc ∧ t.curSplit.loops = e :: es
    (∃ t, exec .snop s = .next t ∧ ScalarFrame s t [] [] ∧ Falls t (sp.spc + 4) sp.loops)
    ∧ (∀ e es, sp.loops = e :: es →
      ∃ t, exec .lbrk s = .next t ∧ ScalarFrame s t [] [] ∧ Falls t (sbase + BitVec.ofNat 64 e.fin.toNat) es)
    ∧ (sp.loops = [] → exec .lbrk s = .next (s.scalarTrap .illegalOperand))

/-- YIELD, IDEMB, IDEME and BKPT: YIELD sets both issue ages to zero; outside a launch with IDEM the region words do nothing,
and inside one they set and clear the group's record, which is of the split as it stands at the next word, or take ILLEGAL_OPERAND where
they do not fit; BKPT goes on when no debugger is armed, and when one is halts the context on every core on which it runs or is
pre-empted, and on no other (R292, R304, R308, R327). -/
def Obligations.SteeringWords : Prop :=
  ∀ (s : State) (code : BitVec 8),
    let sp := s.curSplit
    let g := s.curGroup
    let f := sp.fallTo g.sbase (sp.spc + 4)
    let splits := (List.range 8).filter fun n => (g.split n).status != .absent
    let faulted := ∃ n, n < 8 ∧ (g.split n).status ∈ [.parked, .trapped, .resumePending]
    let Nop := fun (i : Instr) =>
      ∃ t, exec i s = .next t ∧ ScalarFrame s t [] [] ∧ FallsThrough s t ∧ t.curSplit.flag = sp.flag
    (∃ t, exec .yield s = .next t ∧ ScalarFrame s t [] [] ∧ FallsThrough s t ∧ t.curSplit.flag = sp.flag
      ∧ t.curSplit.ageS = s.tick ∧ t.curSplit.ageL = s.tick)
    ∧ (g.idem = false → Nop .idemb ∧ Nop .ideme)
    ∧ (g.idem = true → splits.length ≤ 1 → ¬faulted → g.mark = none →
      ∃ t m, exec .idemb s = .next t ∧ SameBytes s t ∧ GroupsOnly s t ∧ OtherSlots s t ∧ FallsThrough s t
        ∧ t.curGroup = { g with mark := some m, splits := t.curGroup.splits }
        ∧ m.spc = f.spc ∧ m.lpc = f.lpc ∧ m.loops = f.loops ∧ m.g = g.g ∧ m.s = sp.s ∧ m.a = sp.a ∧ m.p = g.p ∧ m.tm = g.tm
        ∧ m.flag = sp.flag)
    ∧ (g.idem = true → splits.length ≤ 1 → ¬faulted → g.mark.isSome →
      ∃ t, exec .ideme s = .next t ∧ SameBytes s t ∧ GroupsOnly s t ∧ OtherSlots s t ∧ FallsThrough s t
        ∧ t.curGroup = { g with mark := none, splits := t.curGroup.splits })
    ∧ (g.idem = true → 1 < splits.length ∨ faulted ∨ g.mark.isSome → exec .idemb s = .next (s.scalarTrap .illegalOperand))
    ∧ (g.idem = true → 1 < splits.length ∨ faulted ∨ g.mark = none → exec .ideme s = .next (s.scalarTrap .illegalOperand))
    ∧ ((s.ctx g.ctx).arm = false → Nop (.bkpt code))
    ∧ ((s.ctx g.ctx).arm = true →
      ∃ t, exec (.bkpt code) s = .next t ∧ SameBytes s t ∧ FallsThrough s t
        ∧ ∀ core, core < 256 → t.stateOn g.ctx core =
          if s.stateOn g.ctx core = .running ∨ s.stateOn g.ctx core = .preempted then .halted else s.stateOn g.ctx core)

/-! ### Lane words enqueued, splits divided, joined and ended (R7, R9, R12, R286-R291) -/

/-- LRUN: with nothing awaited and its code ready, it enqueues as many of its words as fit, in order of lane PC, and moves the
lane PC past them; it falls through once all of them fit, and on a later turn goes on with the rest (R7, R34). Each entry carries the word
that its fetch brought, or the fetch's fault, and the scalar and affine registers that its fields name as they stand (R8, R16); the second
field of MOVI is its immediate and names none (R205, R334), and a word whose fetch failed keeps the registers as they stand for its retry, at which
they are taken as they were then (R8, R34). -/
def Obligations.RunLaneWords : Prop :=
  ∀ (s : State) (cnt : BitVec 10),
    let sp := s.curSplit
    let want := if sp.lrun = 0 then cnt.toNat else sp.lrun
    let k := min want (16 - sp.queue.length)
    let wordAt := fun (i : Nat) => s.curGroup.lbase + 12 * (sp.lpc + BitVec.ofNat 32 i).setWidth 64
    let Captures := fun (c : BitVec 10) (x : Capture) =>
      (640 ≤ c.toNat → c.toNat < 704 →
        x.w0 = sp.sreg (c.toNat - 640) ∧ x.w1 = if c.toNat = 703 then 0 else sp.sreg (c.toNat - 639))
      ∧ (704 ≤ c.toNat → c.toNat < 736 →
        x.w1 ++ x.w0 = (sp.areg (c.toNat - 704)).base ∧ x.w2 = (sp.areg (c.toNat - 704)).stride)
    (cnt ≠ 0 → k ≠ 0 → (∀ n, s.awaits s.cur n = false) →
      s.fetchReady s.cur (s.curGroup.lbase + 12 * sp.lpc.setWidth 64) (12 * k) = true →
      ∃ (t : State) (es : List QEntry) (u : Nat → State), exec (.lrun cnt) s = .next t ∧ SameBytes s t ∧ OtherSlots s t
        ∧ t.curSplit.queue = sp.queue ++ es ∧ es.length = k ∧ u 0 = s
        ∧ (∀ i e, es[i]? = some e →
          let got := (u i).fetchBytes s.cur (wordAt i) 12
          let op := (e.word.extractLsb' 88 7).toNat
          u (i + 1) = got.2 ∧ e.lpc = sp.lpc + BitVec.ofNat 32 i ∧ e.order = s.curGroup.enq + i
            ∧ (∀ f, got.1 = .error f → e.fail = some f ∧ e.kept = some (sp.s, sp.a))
            ∧ ∀ bs, got.1 = .ok bs → e.fail = none ∧ e.kept = none ∧ e.word = BitVec.ofNat 96 (ofBytes bs)
              ∧ Captures (e.word.extractLsb' 60 10) e.capA
              ∧ (op ≠ 0x3D → Captures (e.word.extractLsb' 42 10) e.capB) ∧ (op = 0x3D → e.capB = ⟨0, 0, 0⟩)
              ∧ Captures (if op = 0x59 ∨ op = 0x5E then e.word.extractLsb' 70 10 else e.word.extractLsb' 24 10) e.capC)
        ∧ t.curSplit.s = sp.s ∧ t.curSplit.a = sp.a ∧ t.curSplit.flag = sp.flag ∧ t.curGroup.enq = s.curGroup.enq + k
        ∧ (k = want → t.curSplit.lrun = 0 ∧ FallsFrom s t { sp with lpc := sp.lpc + BitVec.ofNat 32 k })
        ∧ (k ≠ want → t.curSplit.lrun = want - k ∧ t.curSplit.spc = sp.spc
            ∧ t.curSplit.lpc = sp.lpc + BitVec.ofNat 32 k))
    ∧ (cnt ≠ 0 → 16 ≤ sp.queue.length → Waits (.lrun cnt) s)
    ∧ (cnt = 0 → exec (.lrun cnt) s = .next (s.scalarTrap .illegalOperand))

/-- BRV: with every active lane in T the split branches, with none it falls through, and otherwise it divides while one of the
numbers 0 to 3 is free, once the lane words before it have written their results, those of the split's array word included (R11): the half with the lowest active lane keeps the number, the other takes the lowest free one, and each
half has its lanes, its PCs, and the join record on top (R12, R22, R286, R287, R290). That the lanes which an outer serial record holds
stay with the half that keeps the number is the model's reading (log 35). -/
def Obligations.BranchVarying : Prop :=
  ∀ (s : State) (p : BitVec 3) (n : Bool) (tgt join : BitVec 11),
    let sp := s.curSplit
    let g := s.curGroup
    let T : Mask := sp.mask &&& (if n then ~~~(g.preg p.toNat) else g.preg p.toNat)
    let target : DWord := BitVec.ofInt 64 (sp.spc.toNat + 4 * tgt.toInt)
    let joinAt : Word := BitVec.ofNat 32 (Offset s sp.spc + 4 * join.toNat)
    let i : Instr := .brv p n tgt join
    let joins := fun (own : Bool) => if own then sp.joins else sp.joins.map JoinRec.copied
    let done := sp.queue = [] ∧ ∀ w, g.arr = some w → w.own sp.uid = false
    (tgt = 0 ∨ join = 0 ∨ 1024 ≤ join.toNat → exec i s = .next (s.scalarTrap .illegalOperand))
    ∧ (tgt ≠ 0 → join ≠ 0 → join.toNat < 1024 →
      (¬done → Waits i s)
      ∧ (done → T = sp.mask →
        ∃ t, exec i s = .next t ∧ ScalarFrame s t [] [] ∧ Goes s t target (Unwound s target))
      ∧ (done → T ≠ sp.mask → T = 0 →
        ∃ t, exec i s = .next t ∧ ScalarFrame s t [] [] ∧ FallsThrough s t ∧ t.curSplit.flag = sp.flag)
      ∧ (done → T ≠ sp.mask → T ≠ 0 → 4 ≤ sp.joins.length → exec i s = .next (s.scalarTrap .loopOverflow))
      ∧ (done → T ≠ sp.mask → T ≠ 0 → sp.joins.length < 4 → s.cur.split < 4 → ∀ k, k < 4 → k ≠ s.cur.split →
        (g.split k).status = .absent → (∀ j, j < k → (g.split j).status ≠ .absent) → sp.status ≠ .absent →
        ∃ t r kt kn, exec i s = .next t ∧ SameBytes s t ∧ OtherSlots s t
          ∧ r.kind = .join ∧ r.join = joinAt ∧ r.brvid = g.brvNext
          ∧ (if T.getLsbD (Mask.lowest sp.mask) then kt = s.cur.split ∧ kn = k else kt = k ∧ kn = s.cur.split)
          ∧ (∀ j, j ≠ kt → j ≠ kn → t.curGroup.split j = g.split j)
          ∧ (let a := t.curGroup.split kt
             a.mask = T ∧ a.spc = target ∧ a.lpc = sp.lpc ∧ a.loops = Unwound s target ∧ a.joins = r :: joins (kt != k)
               ∧ a.s = sp.s ∧ a.a = sp.a ∧ a.flag = sp.flag ∧ a.status = sp.status)
          ∧ (let b := t.curGroup.split kn
             b.mask = sp.mask &&& ~~~T ∧ b.spc = sp.spc + 4 ∧ b.lpc = sp.lpc ∧ b.loops = sp.loops ∧ b.joins = r :: joins (kn != k)
               ∧ b.s = sp.s ∧ b.a = sp.a ∧ b.flag = sp.flag ∧ b.status = sp.status))
      ∧ (done → T ≠ sp.mask → T ≠ 0 → sp.joins.length < 4 →
        (4 ≤ s.cur.split ∨ ∀ k, k < 4 → (g.split k).status ≠ .absent) →
        ∃ t r, exec i s = .next t ∧ SameBytes s t ∧ OtherSlots s t ∧ t.curSplit.mask = T ∧ t.curSplit.spc = target
          ∧ t.curSplit.joins = r :: sp.joins ∧ r.kind = .serial ∧ r.join = joinAt ∧ r.other = sp.mask &&& ~~~T
          ∧ r.next = BitVec.ofNat 32 (Offset s sp.spc + 4) ∧ r.lpc = sp.lpc ∧ r.loops = sp.loops
          ∧ t.curSplit.s = sp.s ∧ t.curSplit.a = sp.a ∧ t.curSplit.flag = sp.flag))

/-- JOIN_MERGE: two splits that share a BRV, that stand at its join with empty queues and equal loop stacks, become one: it has
the lower of their numbers, the union of their lanes, the registers, the flag and the lane PC of the one with the lowest active
lane, and the record popped, and the lanes that outer serial records of either hold stay in the records (R290); a register that differs
sets UDIV. The merged split is a new one in order, and the entries of the two
are older than all that it enters (R264, R288, R289). -/
def Obligations.JoinMerges : Prop :=
  ∀ (s : State) (core slot brvid a b : Nat),
    let g := s.group core slot
    let x := g.split a
    let y := g.split b
    let lead := if Mask.lowest y.mask < Mask.lowest x.mask then y else x
    let trail := if Mask.lowest y.mask < Mask.lowest x.mask then x else y
    g.live = true → s.stateOn g.ctx core = .running → a < b → b < 8 →
    (∀ n, n < 8 → ((g.split n).status ≠ .absent ∧ (g.split n).shares brvid = true ↔ n = a ∨ n = b)) →
    x.reached g.sbase brvid = true → y.reached g.sbase brvid = true → x.loops = y.loops →
    (∀ r, x.joins.head? = some r → r.kind = .join) →
    ∃ t, exec (.joinMerge core slot brvid) s = .next t ∧ SameBytes s t
      ∧ (let m := (t.group core slot).split a
         m.mask = x.mask ||| y.mask ∧ m.s = lead.s ∧ m.a = lead.a ∧ m.flag = lead.flag ∧ m.lpc = lead.lpc
           ∧ m.joins = ((lead.joins.drop 1).map fun r =>
               ((trail.joins.drop 1).filter fun q => q.brvid == r.brvid).foldl JoinRec.plus r) ∧ m.uid = s.nextUid)
      ∧ (∀ e ∈ s.ents, e.own x.uid = true ∨ e.own y.uid = true → { e with owners := e.owners ++ [s.nextUid] } ∈ t.ents)
      ∧ ((t.group core slot).split b).status = .absent
      ∧ (∀ n, n ≠ a → n ≠ b → (t.group core slot).split n = g.split n)
      ∧ ((t.group core slot).udiv = true ↔ g.udiv = true ∨ (∃ n, n < 64 ∧ x.sreg n ≠ y.sreg n)
          ∨ (∃ n, n < 32 ∧ x.areg n ≠ y.areg n) ∨ x.lpc ≠ y.lpc)

/-- EXIT makes its split issue no further scalar word; SPLIT_END takes away an exiting split whose lane words have issued and
whose tracked results have landed, and the group with its last split (R9, R291). A handler's EXIT ends its split in the same way: the words
that trap entry set aside do not hold it back (log 76). -/
def Obligations.SplitEnds : Prop :=
  ∀ (s : State),
    (∃ t, exec .exit s = .next t ∧ SameBytes s t ∧ GroupsOnly s t ∧ OtherSlots s t ∧ SplitAlone s t
      ∧ (s.curSplit.status ≠ .trapped → t.curSplit = { s.curSplit with status := .exiting, fetched := none, ageS := s.tick })
      ∧ (s.curSplit.status = .trapped → t.curSplit = { s.curSplit with quits := true, fetched := none, ageS := s.tick }))
    ∧ ∀ (ag : Agent),
      let sp := s.splitOf ag
      let leaves := sp.status = .exiting ∧ sp.held = [] ∨ sp.status = .trapped ∧ sp.quits = true
      (s.groupOf ag).live = true → leaves → sp.queue = [] → sp.drain = none →
      (∀ e ∈ s.ents, e.own sp.uid = true → e.tracked = true → e.dstN = 0 ∧ e.esc = none) →
      (∀ w, (s.groupOf ag).arr = some w → w.own sp.uid = false) → (∀ r ∈ sp.joins ++ sp.setJoins, r.kind = .join) →
      ∃ t, exec (.splitEnd ag) s = .next t
        ∧ ((∃ p ∈ (s.groupOf ag).splits, p.1 ≠ ag.split) →
            SameBytes s t ∧ GroupsOnly s t ∧ (t.groupOf ag).split ag.split = Split.empty
              ∧ ∀ n, n ≠ ag.split → (t.groupOf ag).split n = (s.groupOf ag).split n)
        ∧ ((∀ p ∈ (s.groupOf ag).splits, p.1 = ag.split) → (t.groupOf ag).live = false)

/-! ### Taking an exception and returning from it (R37, R292, R311-R320) -/

/-- A scalar-word fault: with no lane word queued the whole split parks with the record of R312. It goes to the context's
handler when R317 sends it there, by the entry of R318, and it stays parked for the driver otherwise, as it does while the group is in the
save of an eviction (R336). The core sends the record, of 32 bytes, to the frame, or for a handler the whole frame of R319 with the record
first; FREC is as it was until that has been written (FieldRequests says what follows then, R313), and names the frame at once where nothing
can be sent (log 16). With lane words queued, those issue first (R37). TRAP is such a fault, and so is an unassigned
opcode of the scalar stream (R20, R292). -/
def Obligations.ScalarFaultParks : Prop :=
  ∀ (s : State) (f : Fail) (code : BitVec 8),
    let sp := s.curSplit
    let g := s.curGroup
    let frame := s.frameAddr g.ctx s.cur.core s.cur.slot s.cur.split
    let here : Prop := (s.ctx g.ctx).toHandler f.kind false = true ∧ s.stateOn g.ctx s.cur.core ≠ .evicted
      ∧ s.stateOn g.ctx s.cur.core ≠ .restoring
    let t := s.scalarFault f
    exec (.trap code) s = .next (s.scalarFault ⟨.trap (code.setWidth 10), .none, 0⟩)
    ∧ (s.curLane = false → exec .illegalOp s = .next (s.scalarFault ⟨.illegalOp, .none, 0⟩))
    ∧ (sp.queue = [] → sp.status = .running → f.kind ≠ .lease →
      (let r := t.curSplit.record
       r.vaddr = f.vaddr ∧ r.spc.toNat = Offset s sp.spc ∧ r.lpc = sp.lpc ∧ r.mask = sp.mask ∧ r.launch = g.launch
          ∧ r.time = s.chframe ∧ r.kind = f.kind ∧ r.cause = f.cause ∧ r.scw = true ∧ r.nest = false ∧ r.rpl = false
          ∧ r.slot = s.cur.slot ∧ r.eabr = s.eabr s.cur.core s.cur.slot)
      ∧ (g.live = true → s.saveOpen s.cur.core g.ctx frame = false → t.curGroup.frec = frame)
      ∧ (s.saveOpen s.cur.core g.ctx frame = true → t.curGroup.frec = g.frec
        ∧ ∃ e ∈ t.ents, s.nextId ≤ e.id ∧ e.kind = .save ∧ e.ag = s.cur ∧ e.tag = g.tag ∧ e.ctx = g.ctx ∧ e.line = frame
          ∧ (¬here → e.op = 2 ∧ e.parts = [⟨0, frame, 32, toBytes t.curSplit.record.bits 32⟩])
          ∧ (here → e.op = 1 ∧ ∃ b, e.parts = [⟨0, frame, 128, b⟩] ∧ b.take 32 = toBytes t.curSplit.record.bits 32
            ∧ (b.drop 0x20).take 64 = loopBytes sp.loops
            ∧ (∀ i, i < 4 → (b.drop (0x60 + 4 * i)).take 4 = toBytes (sp.sreg (60 + i)).toNat 4)
            ∧ (b.drop 0x70).take 4 = toBytes sp.mask.toNat 4 ∧ (b.drop 0x74).take 4 = toBytes sp.lpc.toNat 4
            ∧ (b.drop 0x78).take 4 = toBytes ((if sp.flag then 1 else 0) + 2 * sp.loops.length) 4
            ∧ (b.drop 0x7C).take 4 = toBytes (if ∃ c, f.kind = .trap c then 1 else 0) 4))
      ∧ t.curGroup.v = g.v ∧ t.curGroup.p = g.p ∧ t.curGroup.g = g.g
      ∧ t.curSplit.mask = sp.mask ∧ t.curSplit.a = sp.a
      ∧ (here →
        t.curSplit.status = .trapped ∧ t.curSplit.spc = (s.ctx g.ctx).trvec &&& 0xFFFFFFFFFFFFFFFC#64
          ∧ t.curSplit.lpc = (s.ctx g.ctx).trlpc ∧ t.curSplit.loops = [] ∧ t.curSplit.flag = false ∧ t.curSplit.joins = []
          ∧ t.curSplit.setJoins = sp.joins ∧ t.curSplit.setQueue = sp.queue ∧ t.curSplit.spair 60 = frame
          ∧ ∀ n, n ≠ 60 → n ≠ 61 → t.curSplit.sreg n = sp.sreg n)
      ∧ (¬here →
        t.curSplit.status = .parked ∧ t.curSplit.spc = sp.spc ∧ t.curSplit.lpc = sp.lpc ∧ t.curSplit.loops = sp.loops
          ∧ t.curSplit.flag = sp.flag ∧ t.curSplit.joins = sp.joins ∧ t.curSplit.s = sp.s))
    ∧ (sp.queue ≠ [] →
      SameBytes s t ∧ GroupsOnly s t ∧ OtherSlots s t ∧ SplitAlone s t
        ∧ t.curSplit = { sp with drain := some f, drainRpl := false, fetched := none })

/-- LTRAP raises TRAP in its acting lanes and LNOP does nothing: with every lane of the split acting the split parks whole, and
with some of them a new split of the lowest free index of 4 to 7 parks with these lanes and a copy of the registers, while the
others go on past the word (R214, R215, R314). The copy takes no lanes that a serial record holds for the others (R290, log 35).
A fault that a reply reports parks the lanes of its packet in the same way, at the word that issued the access: the whole split, or a
split apart; the record has that word's lane PC, the fault and its lowest lane's address; and of a scalar access it parks the split with RPL
and SCW set, once its lane words have issued (R251, R279, R312, R315). -/
def Obligations.LaneTraps : Prop :=
  (∀ (s : State) (id k : Nat) (e : Entry) (f : Fail) (tick : Nat) (p : Part) (ps : List Part),
    s.ent id = some e → e.kind = .load → e.resp = .bad f tick → s.replyNext e = true → e.esc = none → e.acq = none →
    (∀ x ∈ s.ents, x.wid = e.wid → x.id = id) → (s.ctxCore e.ctx e.ag.core).saved = [] → k < 8 → e.ag.slot < 64 →
    let g := s.group e.ag.core e.ag.slot
    let sp := g.split k
    let at_ := fun (t : State) (n : Nat) => (t.group e.ag.core e.ag.slot).split n
    let gone := fun (t : State) => ∀ x, x.kind ≠ .save → (x ∈ t.ents ↔ x ∈ s.ents ∧ x.id ≠ id)
    let records := fun (q : Split) (m : Mask) =>
      q.status = .parked ∧ q.s = sp.s ∧ q.a = sp.a ∧ q.queue = sp.queue ∧ q.headFault = false ∧ q.record.kind = f.kind
        ∧ q.record.cause = f.cause ∧ q.record.mask = m ∧ q.record.nest = false ∧ q.record.slot = e.ag.slot ∧ q.replay = [e]
    g.live = true → g.tag = e.tag → g.disc = false → sp.status = .running → sp.drain = none → sp.joins = [] →
    (∀ n, n < 8 → n ≠ k → (g.split n).status = .absent) → f.kind ≠ .lease → (s.ctx g.ctx).toHandler f.kind false = false →
    (e.scw = false → e.wholeSplit = false → e.parts = p :: ps → e.parts.Pairwise (fun x y => x.lane < y.lane) →
      (∀ x ∈ e.parts, x.lane < 32 ∧ sp.mask.getLsbD x.lane = true) →
      let m : Mask := Mask.ofList (e.parts.map (·.lane))
      (m = sp.mask → ∃ t, exec (.completeLoad id) s = .next t ∧ gone t ∧ records (at_ t k) m ∧ (at_ t k).mask = m
        ∧ (at_ t k).record.vaddr = p.addr ∧ (at_ t k).record.lpc = e.lpc ∧ (at_ t k).record.scw = false ∧ (at_ t k).record.rpl = false)
      ∧ (m ≠ sp.mask → k < 4 → ∃ t, exec (.completeLoad id) s = .next t
        ∧ (at_ t k).status = .running ∧ (at_ t k).mask = sp.mask &&& ~~~m ∧ (at_ t k).s = sp.s ∧ (at_ t k).queue = sp.queue
        ∧ records (at_ t 4) m ∧ (at_ t 4).mask = m ∧ (at_ t 4).record.vaddr = p.addr ∧ (at_ t 4).record.lpc = e.lpc
        ∧ (at_ t 4).record.scw = false ∧ (at_ t 4).record.rpl = false))
    ∧ (e.scw = true → sp.uid = e.uid →
      (sp.queue = [] → ∃ t, exec (.completeLoad id) s = .next t ∧ gone t ∧ records (at_ t k) sp.mask
        ∧ (at_ t k).record.vaddr = f.vaddr ∧ (at_ t k).record.lpc = sp.lpc ∧ (at_ t k).record.scw = true ∧ (at_ t k).record.rpl = true)
      ∧ (sp.queue ≠ [] → ∃ t, exec (.completeLoad id) s = .next t ∧ gone t
        ∧ at_ t k = { sp with drain := some f, drainRpl := true, replay := [e], fetched := none })))
  ∧ ∀ (s : State) (w : LaneWord) (h : QEntry) (rest : List QEntry),
    let sp := s.curSplit
    let g := s.curGroup
    let act := s.acting w
    sp.queue = h :: rest → h.fail = none → sp.status = .running → sp.headFault = false → sp.drain = none →
    (s.ctx g.ctx).toHandler (.trap w.mod) false = false →
    (laneLegal 0x69 w = true →
      ∃ t, exec (.lnop w) s = .next t ∧ LaneFrame s t w ∧ t.curGroup = { g with splits := t.curGroup.splits })
    ∧ (laneLegal 0x68 w = true →
      (act = 0 → ∃ t, exec (.ltrap w) s = .next t ∧ LaneFrame s t w ∧ t.curGroup = { g with splits := t.curGroup.splits })
      ∧ (act ≠ 0 → act = sp.mask →
        ∃ t, exec (.ltrap w) s = .next t ∧ t.curSplit.status = .parked ∧ t.curSplit.mask = sp.mask ∧ t.curSplit.s = sp.s
          ∧ t.curSplit.queue = sp.queue
          ∧ t.curSplit.record.kind = .trap w.mod ∧ t.curSplit.record.mask = act ∧ t.curSplit.record.lpc = h.lpc
          ∧ t.curSplit.record.scw = false)
      ∧ (act ≠ 0 → act ≠ sp.mask → s.cur.split < 4 → ∀ k, 4 ≤ k → k < 8 → (g.split k).status = .absent →
        (∀ j, 4 ≤ j → j < k → (g.split j).status ≠ .absent) →
        ∃ t, exec (.ltrap w) s = .next t
          ∧ t.curSplit.status = .running ∧ t.curSplit.mask = sp.mask &&& ~~~act ∧ t.curSplit.queue = rest ∧ t.curSplit.s = sp.s
          ∧ t.curSplit.joins = sp.joins
          ∧ (let q := t.curGroup.split k
             q.status = .parked ∧ q.mask = act ∧ q.s = sp.s ∧ q.a = sp.a ∧ q.flag = sp.flag ∧ q.lpc = sp.lpc
               ∧ q.loops = sp.loops ∧ q.joins = sp.joins.map JoinRec.copied ∧ q.queue = sp.queue ∧ q.headFault = true
               ∧ q.record.kind = .trap w.mod ∧ q.record.mask = act ∧ q.record.scw = false)))

/-- TRET: outside trap mode it takes ILLEGAL_OPERAND; in it, it waits for the handler's lane words and stores, and then, with the
frame read, obeys ACT (R292, R319, R320). Each return restores s60 to s63, the loop stack, the flag and the lane PC from the frame, and
the join list and the words that entry set aside, and a switch marker while a result that it waits for stands out (R10). A retry (0) goes on at the frame's SPC, with the faulting word at the head of the
words or the scalar access of the replay entry performed again; a skip (1) drops them, and goes past the word of a scalar-word fault
with RPL = 0; an end (2) ends the parked lanes, and the lanes that did not fault go on as after a skip; a post (3) leaves the
split parked, and posts the notice. Parked lanes that the frame's MASK leaves out end.
The frame is read by a packet of the core, for which TRET waits, and TRET's own read faults where that may not be sent (R98, R102, R106, R358); it is
read through the core's view (log 28), and SCW, RPL and the record's MASK are those of the frame (log 35). -/
def Obligations.TrapReturns : Prop :=
  ∀ (s : State),
    let sp := s.curSplit
    let g := s.curGroup
    (sp.status ≠ .trapped → exec .tret s = .next (s.scalarTrap .illegalOperand))
    ∧ (sp.status = .trapped → sp.queue ≠ [] → Waits .tret s)
    ∧ (sp.status = .trapped → s.storesVisible sp.uid = false → Waits .tret s)
    ∧ (∀ f, sp.status = .trapped → sp.queue = [] → s.storesVisible sp.uid = true → s.coreCheck s.cur.core g.ctx s.curFrame = some f →
        exec .tret s = .next (s.scalarFault ⟨f.1, f.2, s.curFrame⟩))
    ∧ (sp.status = .trapped → sp.queue = [] → s.storesVisible sp.uid = true → s.coreCheck s.cur.core g.ctx s.curFrame = none →
        s.homeReady g.ctx s.curFrame = false ∨ s.coreMayAsk s.cur.core g.ctx none .load s.curFrame = false → Waits .tret s)
    ∧ ∀ b : List Byte,
      let fa := s.frameAddr g.ctx s.cur.core s.cur.slot s.cur.split
      let word := fun (o : Nat) => (BitVec.ofNat 32 (ofBytes ((b.drop o).take 4)) : Word)
      let act := (word 0x7C).toNat % 4
      let keep := word 12 &&& word 0x70
      let past : DWord := if (word 0).getLsbD 8 && !(word 0).getLsbD 6 then 4 else 0
      let back : Split → Prop := fun q =>
        q.lpc = word 0x74 ∧ q.flag = (word 0x78).getLsbD 0
          ∧ q.loops = loopsOfBytes (((word 0x78).toNat / 2) % 8) (b.drop 0x20)
          ∧ q.sreg 60 = word 0x60 ∧ q.sreg 61 = word 0x64 ∧ q.sreg 62 = word 0x68 ∧ q.sreg 63 = word 0x6C
          ∧ (∀ n, n < 60 → q.sreg n = sp.sreg n) ∧ q.a = sp.a ∧ q.joins = sp.setJoins
          ∧ (q.swPark = true ↔ sp.setSw = true ∧ ∃ e ∈ s.ents, e.untracked sp.uid = true ∧ e.id < sp.trapId)
      let words := if sp.setHead = true ∧ act ≠ 0 then sp.setQueue.drop 1 else sp.setQueue
      sp.status = .trapped → sp.queue = [] → s.storesVisible sp.uid = true →
      s.coreCheck s.cur.core g.ctx fa = none → s.homeReady g.ctx fa = true → s.coreMayAsk s.cur.core g.ctx none .load fa = true →
      ((s.coreAsk s.cur.core g.ctx none .load fa).coreRead s.cur.core g.ctx fa 128).1 = .ok b → (∀ r ∈ sp.setJoins, r.kind ≠ .serial) →
      (act ≤ 1 → keep ≠ 0 → (∀ e ∈ sp.setReplay, e.isWait = false) →
        ∃ t, exec .tret s = .next t ∧ t.curSplit.status = .running ∧ t.curSplit.mask = sp.rest ||| keep
          ∧ t.curSplit.spc = g.sbase + (word 20).setWidth 64 + (if act = 1 then past else 0) ∧ back t.curSplit
          ∧ t.curSplit.queue = words ∧ t.curSplit.headFault = (sp.setHead && act == 0) ∧ t.curSplit.replay = []
          ∧ (act = 0 → ∀ e, sp.setReplay = [e] → e.scw = true → e.parts ≠ [] →
              ∃ x ∈ t.ents, s.nextId ≤ x.id ∧ x.uid = sp.uid ∧ x.kind = e.kind ∧ x.op = e.op ∧ x.line = e.line ∧ x.parts = e.parts
                ∧ x.level = 0))
      ∧ (act = 2 → sp.rest ≠ 0 →
        ∃ t, exec .tret s = .next t ∧ t.curSplit.status = .running ∧ t.curSplit.mask = sp.rest
          ∧ t.curSplit.spc = g.sbase + (word 20).setWidth 64 + past ∧ back t.curSplit ∧ t.curSplit.queue = words)
      ∧ (act = 2 → sp.rest = 0 → sp.setJoins = [] → ∃ t, exec .tret s = .next t ∧ t.curSplit.status = .absent)
      ∧ (act = 3 → keep ≠ 0 →
        ∃ x : State, exec .tret s = .next (x.postNotice g.ctx fa) ∧ x.curSplit.status = .parked
          ∧ x.curSplit.mask = sp.rest ||| keep ∧ x.curSplit.record.mask = keep
          ∧ x.curSplit.spc = g.sbase + (word 20).setWidth 64 ∧ back x.curSplit ∧ x.curSplit.queue = sp.setQueue
          ∧ x.curSplit.headFault = sp.setHead ∧ x.curSplit.replay = sp.setReplay)

/-! ### Integer lane words (R188-R193) -/

/-- The element-wise integer words: in each acting lane, each element of V[D] is what R189 says of the elements of A, B and C in
its place, wrapped or clamped as R190 says. -/
def Obligations.LaneInteger : Prop :=
  ∀ (s : State) (w : LaneWord),
    let e := s.laneEnv w
    let n := IntWidth w.fn.toNat
    let sg := IntSigned w.fn.toNat
    let sat := w.mod.getLsbD 0
    let V := IntValue sg n
    let E := fun (op k : Nat) (i : Instr) (f : Nat → Nat → Nat → Int) =>
      LaneReady op w (vecWin w.d 1 ++ ([w.a, w.b, w.c].take k).flatMap fun c => vecWin c 1) s →
      ∃ r : Nat → Word, WritesV i s w w.d.toNat r ∧
        ∀ l j, l < 32 → j < 32 / n →
          Elem n (r l) j = IntResult sg sat n (f (Elem n (e.opA w l) j) (Elem n (e.opB w l) j) (Elem n (e.opC w l) j))
    E 0x00 2 (.iadd w) (fun a b _ => V a + V b)
    ∧ E 0x01 2 (.isub w) (fun a b _ => V a - V b)
    ∧ E 0x02 2 (.imul w) (fun a b _ => V a * V b)
    ∧ E 0x03 2 (.imulh w) (fun a b _ => V a * V b / 2 ^ 32)
    ∧ E 0x04 3 (.imad w) (fun a b c => V a * V b + V c)
    ∧ E 0x07 2 (.imin w) (fun a b _ => if V a ≤ V b then V a else V b)
    ∧ E 0x08 2 (.imax w) (fun a b _ => if V a ≤ V b then V b else V a)
    ∧ E 0x09 1 (.iabs w) (fun a _ _ => if V a < 0 then -V a else V a)
    ∧ E 0x0A 2 (.and w) (fun a b _ => (a &&& b : Nat))
    ∧ E 0x0B 2 (.or w) (fun a b _ => (a ||| b : Nat))
    ∧ E 0x0C 2 (.xor w) (fun a b _ => (a ^^^ b : Nat))
    ∧ E 0x0D 2 (.andn w) (fun a b _ => (a &&& (2 ^ n - 1 - b) : Nat))
    ∧ E 0x0E 2 (.shl w) (fun a b _ => V a * 2 ^ b)
    ∧ E 0x0F 2 (.shr w) (fun a b _ => (a / 2 ^ b : Nat))
    ∧ E 0x10 2 (.sra w) (fun a b _ => IntValue true n a / 2 ^ b)
    ∧ E 0x11 2 (.rot w) (fun a b _ => (a * 2 ^ (b % n) + a / 2 ^ (n - b % n) : Nat))
    ∧ E 0x12 3 (.bfx w) (fun a b c =>
        let len := min (c % 64) (32 - b % 32)
        if len = 0 then 0 else IntValue sg len (a / 2 ^ (b % 32) % 2 ^ len))
    ∧ E 0x14 1 (.popc w) (fun a _ _ => (((List.range n).filter fun k => a.testBit k).length : Nat))
    ∧ E 0x15 1 (.clz w) (fun a _ _ => if a = 0 then (n : Int) else n - 1 - Nat.log2 a)

/-- BFI puts the low bits of A into the field of V[D] and keeps the others; ICMP writes the condition into a predicate; IADDX and
IMADW write their 64-bit value, wrapped or clamped, into a window of two (R191-R193). -/
def Obligations.LaneIntegerForms : Prop :=
  ∀ (s : State) (w : LaneWord),
    let e := s.laneEnv w
    let sg := IntSigned w.fn.toNat
    let sat := w.mod.getLsbD 0
    let V := fun (x : Word) => IntValue sg 32 x.toNat
    let wide := fun (c : BitVec 10) (x : BitVec 8) (lo : Word) (l : Nat) =>
      if isVec c then IntValue sg 64 ((e.above c x l).toNat * 2 ^ 32 + lo.toNat) else V lo
    let out := fun (x : Int) => (BitVec.ofNat 64 (IntResult sg sat 64 x) : DWord)
    (LaneReady 0x13 w (vecWin w.d 1 ++ vecWin w.a 1 ++ vecWin w.b 1 ++ vecWin w.c 1) s →
      ∃ r : Nat → Word, WritesV (.bfi w) s w w.d.toNat r ∧
        ∀ l k, l < 32 → k < 32 →
          let pos := (e.opB w l).toNat % 32
          let len := min ((e.opC w l).toNat % 64) (32 - pos)
          (r l).getLsbD k =
            if pos ≤ k ∧ k < pos + len then (e.opA w l).getLsbD (k - pos) else (e.g.vreg w.d.toNat l).getLsbD k)
    ∧ (LaneReady 0x16 w (vecWin w.a 1 ++ vecWin w.b 1) s →
      ∃ r : Nat → Bool, WritesP (.icmp w) s w w.d.toNat r ∧
        ∀ l, l < 32 → (r l = true ↔ Holds (modBits w 3 1) (w.fn == 1) (e.opA w l) (e.opB w l)))
    ∧ (LaneReady 0x06 w (vecWin w.d 2 ++ vecWin w.a 2 ++ vecWin w.b 2) s →
      WritesV2 (.iaddx w) s w w.d.toNat fun l =>
        out (wide w.a w.xa (e.opA w l) l + wide w.b w.xb (e.opB w l) l))
    ∧ (LaneReady 0x05 w (vecWin w.d 2 ++ vecWin w.a 1 ++ vecWin w.b 1 ++ vecWin w.c 2) s →
      WritesV2 (.imadw w) s w w.d.toNat fun l =>
        out (V (e.opA w l) * V (e.opB w l) + wide w.c w.xc (e.opC w l) l))

/-! ### Floating point (R167-R184, R195-R204) -/

/-- A pattern stands for the value that R167 gives it; sums, products and negations of finite values are exact, with the signs of
zero of R196, and comparisons are those of the values; infinities follow the rules of R196. -/
def Obligations.ExactValues : Prop :=
  (∀ f ∈ Floats, ∀ p : Nat, p < 2 ^ (1 + f.eb + f.mb) →
    let ex := p / 2 ^ f.mb % 2 ^ f.eb
    let fr := p % 2 ^ f.mb
    let sg : ℝ := if p.testBit (f.eb + f.mb) then -1 else 1
    let top := ex = 2 ^ f.eb - 1
    (top → f.inf = true → fr = 0 → f.decode p = .inf (p.testBit (f.eb + f.mb)))
    ∧ (top → (f.inf = true ∧ fr ≠ 0 ∨ f.inf = false ∧ f.nan = true ∧ fr = 2 ^ f.mb - 1) → (f.decode p).isNan = true)
    ∧ (¬top ∨ f.inf = false ∧ ¬(f.nan = true ∧ fr = 2 ^ f.mb - 1) →
      (ex ≠ 0 → Stands (f.decode p) (sg * (2 : ℝ) ^ ((ex : ℤ) - f.bias) * (1 + (fr : ℝ) / 2 ^ f.mb)))
      ∧ (ex = 0 → Stands (f.decode p) (sg * (2 : ℝ) ^ ((1 : ℤ) - f.bias) * ((fr : ℝ) / 2 ^ f.mb)))))
  ∧ (∀ (a b : Val) (x y : ℝ) (z : Bool), Stands a x → Stands b y →
    Stands (a.add b z) (x + y) ∧ Stands (a.mul b) (x * y) ∧ Stands a.neg (-x)
    ∧ (x + y = 0 → (a.add b z).isNeg = if a.isNeg = b.isNeg then a.isNeg else z)
    ∧ (x * y = 0 → (a.mul b).isNeg = (a.isNeg != b.isNeg))
    ∧ (a.cmp b < 0 ↔ x < y) ∧ (a.cmp b = 0 ↔ x = y) ∧ (0 < a.cmp b ↔ y < x)
    ∧ (∀ n, (Val.inf n).add b z = .inf n ∧ a.add (.inf n) z = .inf n
      ∧ (Val.inf n).mul b = (if y = 0 then .nan none else .inf (n != b.isNeg))))
  ∧ (∀ n k z, (Val.inf n).add (.inf k) z = (if n = k then .inf n else .nan none) ∧ (Val.inf n).mul (.inf k) = .inf (n != k))

/-- Rounding follows R177 and R178 in every format and every mode, a finite pattern rounds to itself, an infinite value gives what
R178 says of it, and rounding to an integer follows R177. -/
def Obligations.RoundingRule : Prop :=
  (∀ f ∈ Floats, ∀ rm, rm < 5 → ∀ (sat neg : Bool) (m : Nat) (e : Int),
    RoundsTo f rm sat neg ((if neg then -1 else 1) * (m : ℝ) * (2 : ℝ) ^ e) (f.roundFin rm sat neg m e))
  ∧ (∀ f ∈ Floats, ∀ p, p < 2 ^ (1 + f.eb + f.mb) → ∀ x, Stands (f.decode p) x →
    ∀ rm sat pol, f.round rm sat pol (f.decode p) = p)
  ∧ (∀ f ∈ Floats, ∀ rm sat pol neg, f.round rm sat pol (.inf neg) = Beyond f neg sat)
  ∧ (∀ rm, rm < 5 → ∀ (neg : Bool) (m : Nat) (e : Int),
    RoundsInt rm ((if neg then -1 else 1) * (m : ℝ) * (2 : ℝ) ^ e) (roundInt rm neg m e))

/-- Reciprocal, reciprocal square root and scaling are correctly rounded, powers and logarithms of 2 are so where they are exact, a
float rounded to an integral value is the integer of R177, and the special inputs give the results of R199.
Nothing is said of powers and logarithms elsewhere (log 13). -/
def Obligations.CorrectlyRounded : Prop :=
  ∀ f ∈ [f32, h16, b16], ∀ rm, rm < 5 → ∀ p, p < 2 ^ (1 + f.eb + f.mb) →
    let v := f.decode p
    let neg := p.testBit (f.eb + f.mb)
    let nan := f.canonNan
    let zero := fun (n : Bool) => if n then 2 ^ (f.eb + f.mb) else 0
    let inf := fun (n : Bool) => Beyond f n false
    let R := f.roundWord rm
    (∀ x, Stands v x → x ≠ 0 →
      RoundsTo f rm false neg (1 / x) (R (recip v))
      ∧ (0 < x → RoundsTo f rm false false (1 / Real.sqrt x) (R (rsqrt v)))
      ∧ (x < 0 → R (rsqrt v) = nan ∧ R (log2Val v) = nan)
      ∧ (∀ n : ℤ, RoundsTo f rm false neg (x * (2 : ℝ) ^ n) (R (scaleBy v n)))
      ∧ (∀ k : ℤ, x = k → RoundsTo f rm false false ((2 : ℝ) ^ k) (R (exp2 v)))
      ∧ (∀ k : ℤ, x = (2 : ℝ) ^ k → RoundsTo f rm false (decide (k < 0)) k (R (log2Val v)))
      ∧ (∃ y, RoundsInt rm x y ∧ RoundsTo f rm false neg y (R (integral rm v))))
    ∧ (Stands v 0 →
      R (recip v) = inf neg ∧ R (rsqrt v) = inf neg ∧ RoundsTo f rm false false 1 (R (exp2 v)) ∧ R (log2Val v) = inf true
      ∧ R (integral rm v) = zero neg ∧ ∀ n, R (scaleBy v n) = zero neg)
    ∧ (v = .inf neg →
      R (recip v) = zero neg ∧ R (rsqrt v) = (if neg then nan else zero false) ∧ R (exp2 v) = (if neg then zero false else inf false)
      ∧ R (log2Val v) = (if neg then nan else inf false) ∧ R (integral rm v) = inf neg ∧ ∀ n, R (scaleBy v n) = inf neg)
    ∧ (v.isNan = true →
      R (recip v) = nan ∧ R (rsqrt v) = nan ∧ R (exp2 v) = nan ∧ R (log2Val v) = nan ∧ R (integral rm v) = nan
      ∧ ∀ n, R (scaleBy v n) = nan)

/-- The element-wise float words: in each acting lane, each element of V[D] is the rounded exact result on the elements in its
place, with the zero signs of R196; FMIN and FMAX put -0 below +0 and a number before a NaN; FCLASS sets one bit; FCMP writes its
condition into a predicate (R195-R198, R200). -/
def Obligations.FloatWords : Prop :=
  ∀ (s : State) (w : LaneWord),
    let e := s.laneEnv w
    let f := fmtOf w.fn.toNat
    let n := if w.fn = 0 then 32 else 16
    let rm := w.rm.toNat
    let D := f.decode
    let R := f.roundWord rm
    let z := w.rm == 3
    let E := fun (op k : Nat) (i : Instr) (g : Nat → Nat → Nat → Nat) =>
      LaneReady op w (vecWin w.d 1 ++ ([w.a, w.b, w.c].take k).flatMap fun c => vecWin c 1) s →
      ∃ r : Nat → Word, WritesV i s w w.d.toNat r ∧
        ∀ l j, l < 32 → j < 32 / n → Elem n (r l) j = g (Elem n (e.opA w l) j) (Elem n (e.opB w l) j) (Elem n (e.opC w l) j)
    let below := fun (a b : Nat) => (D a).cmp (D b) < 0 || ((D a).cmp (D b) == 0 && (D a).isNeg)
    let pick := fun (a b : Nat) (lesser : Bool) =>
      if (D a).isNan ∧ (D b).isNan then f.canonNan else if (D a).isNan then b else if (D b).isNan then a
      else if lesser then a else b
    E 0x20 2 (.fadd w) (fun a b _ => R ((D a).add (D b) z))
    ∧ E 0x21 2 (.fsub w) (fun a b _ => R ((D a).add (D b).neg z))
    ∧ E 0x22 2 (.fmul w) (fun a b _ => R ((D a).mul (D b)))
    ∧ E 0x23 3 (.ffma w) (fun a b c => R (((D a).mul (D b)).add (D c) z))
    ∧ E 0x24 2 (.fmin w) (fun a b _ => pick a b (below a b))
    ∧ E 0x25 2 (.fmax w) (fun a b _ => pick a b (below b a))
    ∧ E 0x27 1 (.frcp w) (fun a _ _ => R (recip (D a)))
    ∧ E 0x28 1 (.frsq w) (fun a _ _ => R (rsqrt (D a)))
    ∧ E 0x29 1 (.fexp2 w) (fun a _ _ => R (exp2 (D a)))
    ∧ E 0x2A 1 (.flog2 w) (fun a _ _ => R (log2Val (D a)))
    ∧ E 0x2B 2 (.fscl w) (fun a b _ => R (scaleBy (D a) (IntValue true n b)))
    ∧ E 0x2C 1 (.frnd w) (fun a _ _ => R (integral rm (D a)))
    ∧ E 0x2D 1 (.fclass w) (fun a _ _ =>
        let sub := a / 2 ^ f.mb % 2 ^ f.eb = 0
        2 ^ match D a with
          | .nan _ => if a.testBit (f.mb - 1) then 9 else 8
          | .inf neg => if neg then 0 else 7
          | .fin neg m _ => if m = 0 then (if neg then 3 else 4) else if sub then (if neg then 2 else 5) else if neg then 1 else 6)
    ∧ (LaneReady 0x26 w (vecWin w.a 1 ++ vecWin w.b 1) s →
      ∃ r : Nat → Bool, WritesP (.fcmp w) s w w.d.toNat r ∧
        ∀ l, l < 32 → (r l = true ↔ FloatHolds (modBits w 3 1) (D (e.opA w l).toNat) (D (e.opB w l).toNat)))

/-- The dot products: with an integer accumulator the exact sum wraps or is clamped, and ACCOV notes, for the whole group, a sum
out of range; with an f32 accumulator the exact sum is rounded once, and a NaN is written under the policy of the slot (R202,
R203). -/
def Obligations.DotProducts : Prop :=
  ∀ (s : State) (w : LaneWord),
    let e := s.laneEnv w
    let slot := s.curGroup.slotWord w
    let elem := slotElem slot
    let sat := w.mod.getLsbD 0 || slotSat slot
    let E := fun (op n : Nat) (i : Instr) =>
      LaneReady op w (vecWin w.d 1 ++ vecWin w.a 1 ++ vecWin w.b 1 ++ (if slotScale slot = 0 then [] else vecWin w.c 1)) s →
      dotSlotOk w slot n = true →
      let k := 32 / n
      let A := fun l j => Elem k (e.opA w l) j
      let B := fun l j => Elem k (e.opB w l) j
      let d := fun l => e.g.vreg w.d.toNat l
      ∃ (t : State) (r : Nat → Word), exec i s = .next t ∧ LaneFrame s t w ∧ VectorAlone s t
        ∧ (∀ q l, l < 32 →
          t.curGroup.vreg q l = if q = w.d.toNat ∧ (s.acting w).getLsbD l then r l else s.curGroup.vreg q l)
        ∧ (slotAcc slot ≠ 0 →
          let sg := slotAcc slot == 0xA
          let x := fun l => (IntValue sg 32 (d l).toNat : Int) + ∑ j ∈ Finset.range n, IntValue sg k (A l j) * IntValue sg k (B l j)
          (∀ l, l < 32 → (r l).toNat = IntResult sg sat 32 (x l))
          ∧ (t.curGroup.accov = true ↔ s.curGroup.accov = true
            ∨ ∃ l, l < 32 ∧ (s.acting w).getLsbD l = true
              ∧ (x l < (if sg then -2 ^ 31 else 0) ∨ (if sg then 2 ^ 31 - 1 else 2 ^ 32 - 1) < x l)))
        ∧ (slotAcc slot = 0 → t.curGroup.accov = s.curGroup.accov ∧ ∀ l, l < 32 →
          let av := fun j => readElem slot elem (A l j)
          let bv := fun j => readElem slot elem (B l j)
          let dv := f32.decode (d l).toNat
          let sv := scaleOf slot (e.opC w l)
          (∀ (x c : ℝ) (y z : Nat → ℝ), Stands dv x → Stands sv c → (∀ j, j < n → Stands (av j) (y j) ∧ Stands (bv j) (z j)) →
            let q := x + c * ∑ j ∈ Finset.range n, y j * z j
            ∃ neg, (q < 0 → neg = true) ∧ (0 < q → neg = false) ∧ RoundsTo f32 w.rm.toNat sat neg q (r l).toNat)
          ∧ ((dv.isNan = true ∨ sv.isNan = true ∨ ∃ j, j < n ∧ ((av j).isNan = true ∨ (bv j).isNan = true)) →
            (slotNan slot = 0 → r l = 0x7FC00000) ∧ (slotNan slot = 1 → r l = 0)
            ∧ (slotNan slot = 2 → (f32.decode (r l).toNat).isNan = true ∧ (r l).getLsbD 22 = true)))
    E 0x30 4 (.dp4 w) ∧ E 0x31 8 (.dp8 w) ∧ E 0x32 2 (.dph2 w)

/-- The conversions: in each acting lane the named element of D becomes Conv of the named element of A, and the other elements
stay; PACK and UNPK convert a pair (R183, R184). Conv reads, scales and rounds once as R182 says, and flushes on the side of the
slot. -/
def Obligations.Conversions : Prop :=
  (∀ (s : State) (w : LaneWord),
    let e := s.laneEnv w
    let slot := s.curGroup.slotWord w
    let elem := slotElem slot
    let fn := w.fn.toNat
    let dir := w.mod.getLsbD 1
    let sf := if dir then elem else fn
    let tf := if dir then fn else elem
    let sat := w.mod.getLsbD 0 || slotSat slot
    let sc := fun l => scaleOf slot (e.opC w l)
    let cw := if slotScale slot = 0 then [] else vecWin w.c 1
    let E := fun (op : Nat) (isInt : Bool) (i : Instr) =>
      LaneReady op w (vecWin w.d (if tf = 0xC then 2 else 1) ++ vecWin w.a (if sf = 0xC then 2 else 1) ++ cw) s →
      cvtOk isInt w slot = true →
      let src := fun l =>
        if sf = 0xC then (e.above w.a w.xa l).toNat * 2 ^ 32 + (e.opA w l).toNat
        else Elem (elemBits sf) (e.opA w l) (modBits w 4 2)
      let res := fun l => conv slot dir sf tf (src l) (sc l) w.rm.toNat sat
      (tf = 0xC → WritesV2 i s w w.d.toNat fun l => BitVec.ofNat 64 (res l))
      ∧ (tf ≠ 0xC → ∃ r : Nat → Word, WritesV i s w w.d.toNat r ∧ ∀ l j, l < 32 → j < 32 / elemBits tf →
          Elem (elemBits tf) (r l) j = if j = modBits w 7 5 then res l % 2 ^ elemBits tf
            else Elem (elemBits tf) (e.g.vreg w.d.toNat l) j)
    E 0x34 false (.cvt w) ∧ E 0x35 true (.cvti w)
    ∧ (LaneReady 0x36 w (vecWin w.d 1 ++ vecWin w.a 1 ++ vecWin w.b 1 ++ cw) s → packOk w slot = true →
      let k := 2 * modBits w 2 1
      let into := fun (x : Word) l => conv slot false fn elem x.toNat (sc l) w.rm.toNat sat % 2 ^ elemBits elem
      ∃ r : Nat → Word, WritesV (.pack w) s w w.d.toNat r ∧ ∀ l j, l < 32 → j < 32 / elemBits elem →
        Elem (elemBits elem) (r l) j = if j = k then into (e.opA w l) l else if j = k + 1 then into (e.opB w l) l
          else Elem (elemBits elem) (e.g.vreg w.d.toNat l) j)
    ∧ (LaneReady 0x37 w (vecWin w.d 2 ++ vecWin w.a 1 ++ cw) s → packOk w slot = true →
      (∀ q ∈ vecWin w.a 1 ++ cw, q.1 ≠ w.d.toNat ∧ q.1 ≠ w.d.toNat + 1) →
      let k := 2 * modBits w 2 1
      let out := fun j l => conv slot true elem fn (Elem (elemBits elem) (e.opA w l) j) (sc l) w.rm.toNat sat
      ∃ r : Nat → DWord, WritesV2 (.unpk w) s w w.d.toNat r ∧ ∀ l, l < 32 →
        ((r l).extractLsb' 0 32).toNat = out k l % 2 ^ 32 ∧ ((r l).extractLsb' 32 32).toNat = out (k + 1) l % 2 ^ 32))
  ∧ (∀ (slot : Word) (dir : Bool) (sf tf bits : Nat) (scale : Val) (rm : Nat) (sat : Bool),
    rm < 5 → sf ≤ 0xC → tf ≤ 0xC →
    let x := if dir then readElem slot sf bits else valueOf sf bits
    let r := conv slot dir sf tf bits scale rm sat
    let f := fmtOf tf
    (x.isNan = true ∨ scale.isNan = true → r = 0 ∨ tf ≤ 5 ∧ (f.decode r).isNan = true)
    ∧ (∀ q c, Stands x q → Stands scale c →
      (5 < tf → ∃ y, RoundsInt rm (q * c) y ∧ r = (max (intMin tf) (min (intMax tf) y) % 2 ^ elemBits tf).toNat)
      ∧ (tf ≤ 5 → ∃ u neg, (q * c < 0 → neg = true) ∧ (0 < q * c → neg = false) ∧ RoundsTo f rm sat neg (q * c) u
        ∧ (dir = true ∨ slotFtz slot = false ∨ f.isSub u = false → r = u)
        ∧ (dir = false → slotFtz slot = true → f.isSub u = true → r = if neg then 2 ^ (f.eb + f.mb) else 0))))

/-! ### Operands, selects and cross-lane words (R24-R29, R205-R212) -/

/-- What a lane word reads: a vector register, the captured scalar, the low half of the captured affine value, the constants of
R25, the specials of R26; then the crossbar of R28; and it acts in the lanes of R29. A register that an untracked load is still
to write gives its old value or the value that the load would write, in each lane by itself (R10).
Which of the two is a free value (log 11). -/
def Obligations.OperandCodes : Prop :=
  (∀ (s : State) (w : LaneWord) (c : BitVec 10) (cap : Capture) (l : Nat),
    let e := s.laneEnv w
    let g := s.curGroup
    let n := c.toNat
    (n < 640 → e.raw c cap l = e.g.vreg n l)
    ∧ (640 ≤ n → n < 704 → e.raw c (captureOf s.curSplit c) l = s.curSplit.sreg (n - 640))
    ∧ (704 ≤ n → n < 736 → e.raw c (captureOf s.curSplit c) l =
      (((s.curSplit.areg (n - 704)).base + BitVec.ofNat 64 l * (s.curSplit.areg (n - 704)).stride.signExtend 64).extractLsb' 0 32))
    ∧ (736 ≤ n → n < 800 → (e.raw c cap l).toNat = n - 736)
    ∧ (800 ≤ n → n < 816 → (e.raw c cap l).toInt = 799 - (n : Int))
    ∧ (816 ≤ n → n < 832 → (e.raw c cap l).toNat = (127 + n - 823) * 2 ^ 23)
    ∧ (832 ≤ n → n < 848 → (e.raw c cap l).toNat = (127 + n - 839) * 2 ^ 23 + 2 ^ 31)
    ∧ (n = 848 → e.raw c cap l = 0x80000000#32) ∧ (n = 849 → e.raw c cap l = 0x7F800000#32)
    ∧ (n = 850 → e.raw c cap l = 0xFF800000#32) ∧ (n = 851 → e.raw c cap l = 0x7FC00000#32)
    ∧ (n = 852 → e.raw c cap l = 0x7F7FFFFF#32) ∧ (n = 853 → e.raw c cap l = 0x00800000#32)
    ∧ (n = 854 → e.raw c cap l = 0x7FFFFFFF#32) ∧ (n = 855 → e.raw c cap l = 0x3FB8AA3B#32)
    ∧ (n = 856 → e.raw c cap l = 0x3F803F80#32) ∧ (n = 857 → e.raw c cap l = 0x3C003C00#32)
    ∧ (n = 858 → e.raw c cap l = 0x38383838#32) ∧ (n = 859 → e.raw c cap l = 0x3C3C3C3C#32)
    ∧ (n = 860 → e.raw c cap l = 0x22222222#32) ∧ (n = 861 → e.raw c cap l = 0x01010101#32)
    ∧ (n = 862 → e.raw c cap l = 0x11111111#32) ∧ (n = 863 → e.raw c cap l = 0x40490FDB#32)
    ∧ (n = 864 → l < 32 → (e.raw c cap l).toNat = l)
    ∧ (n = 865 → e.raw c cap l = BitVec.ofNat 32 g.num) ∧ (n = 866 → e.raw c cap l = BitVec.ofNat 32 s.cur.split)
    ∧ (n = 867 → e.raw c cap l = BitVec.ofNat 32 g.x) ∧ (n = 868 → e.raw c cap l = BitVec.ofNat 32 g.y)
    ∧ (n = 869 → e.raw c cap l = BitVec.ofNat 32 g.z) ∧ (n = 870 → e.raw c cap l = BitVec.ofNat 32 s.cur.core)
    ∧ (n = 871 → e.raw c cap l = BitVec.ofNat 32 g.csIdx) ∧ (n = 872 → (e.raw c cap l).toNat = s.node.toNat)
    ∧ (n = 873 → (e.raw c cap l).toNat = s.cur.slot % 4)
    ∧ (l < 32 → (s.acting w).getLsbD l =
      (s.curSplit.mask.getLsbD l && ((g.preg w.pred.toNat).getLsbD l != w.pn)
        && (if s.curSplit.headFault then s.curSplit.record.mask.getLsbD l
          else s.curSplit.headMask == 0 || s.curSplit.headMask.getLsbD l)))
    ∧ g.preg 0 = BitVec.allOnes 32
    ∧ (s.racers s.cur.core s.cur.slot = [] → e.g = g)
    ∧ (∀ r, l < 32 → e.g.vreg r l = g.vreg r l
      ∨ ∃ en ∈ s.racers s.cur.core s.cur.slot, ∃ ws, en.landWrites = some ws ∧
        ∃ q k, 32 * q + k = 32 * r + l ∧ (q, k, e.g.vreg r l) ∈ ws))
  ∧ (∀ (x : BitVec 8) (f : Nat → Word) (l : Nat), l < 32 → xbarOk x = true →
    let k := x.toNat % 32
    let p := x.toNat / 32
    (p = 0 → routed x f l = f l) ∧ (p = 1 → routed x f l = f ((l + k) % 32)) ∧ (p = 2 → routed x f l = f k)
    ∧ (p = 3 → routed x f l = f (l ^^^ k)) ∧ (p = 4 → routed x f l = f (l ^^^ (2 ^ k - 1)))
    ∧ (p = 5 → routed x f l = if 31 < l + k then 0 else f (l + k)) ∧ (p = 6 → routed x f l = f (l - l % 4 + k % 4)))

/-- Selects and moves: SEL chooses by its own predicate, PLOG computes on routed predicates, MOV and MOVI copy, and PMOV moves
between predicates, vector lanes and tile masks, a tile mask once for the whole group (R205, R206, R208, R209). -/
def Obligations.SelectWords : Prop :=
  ∀ (s : State) (w : LaneWord),
    let e := s.laneEnv w
    let P := fun (c : BitVec 10) (x : BitVec 8) l => routedBit x (fun k => (s.curGroup.preg c.toNat).getLsbD k) l
    let fn := w.fn.toNat
    (LaneReady 0x38 w (vecWin w.d 1 ++ vecWin w.a 1 ++ vecWin w.b 1) s →
      WritesV (.sel w) s w w.d.toNat fun l =>
        if ((s.curGroup.preg (modBits w 2 0)).getLsbD l != w.mod.getLsbD 3) then e.opA w l else e.opB w l)
    ∧ (LaneReady 0x39 w [] s →
      ∃ r, WritesP (.plog w) s w w.d.toNat r ∧ ∀ l, l < 32 →
        let x := P w.a w.xa l
        let y := P w.b w.xb l
        r l = (if fn = 0 then x && y else if fn = 1 then x || y else if fn = 2 then xor x y else if fn = 3 then x && !y
          else if fn = 4 then x || !y else if fn = 5 then !(x && y) else if fn = 6 then !(x || y) else !(xor x y)))
    ∧ (LaneReady 0x3B w (vecWin w.a 1) s → fn = 0 → WritesP (.pmov w) s w w.d.toNat fun l => e.opA w l != 0)
    ∧ (LaneReady 0x3B w (vecWin w.d 1) s → fn = 1 → WritesV (.pmov w) s w w.d.toNat fun l => if P w.a w.xa l then 1 else 0)
    ∧ (LaneReady 0x3B w (vecWin w.a 1) s → fn = 2 →
      ∃ t, exec (.pmov w) s = .next t ∧ LaneFrame s t w
        ∧ t.curGroup = { s.curGroup with tm := t.curGroup.tm, splits := t.curGroup.splits }
        ∧ ∀ n, t.curGroup.tmreg n =
          if n = w.d.toNat ∧ s.acting w ≠ 0 then e.opA w 1 ++ e.opA w 0 else s.curGroup.tmreg n)
    ∧ (LaneReady 0x3B w (vecWin w.d 1) s → fn = 3 →
      WritesV (.pmov w) s w w.d.toNat fun l => (s.curGroup.tmreg w.a.toNat).extractLsb' (if l % 2 = 0 then 0 else 32) 32)
    ∧ (LaneReady 0x3B w [] s → fn = 4 → WritesP (.pmov w) s w w.d.toNat fun l => P w.a w.xa l)
    ∧ (LaneReady 0x3C w (vecWin w.d 1 ++ vecWin w.a 1) s → WritesV (.mov w) s w w.d.toNat fun l => e.opA w l)
    ∧ (LaneReady 0x3D w (vecWin w.d 1) s → ∀ b : LBits, w = laneFields b →
      WritesV (.movi w) s w w.d.toNat fun _ => b.extractLsb' 32 32)

/-- Words that combine lanes: VOTE over the acting lanes, SHUF by a lane's index, GATH from the bytes of a window, REDL by the tree
of R212 and SCANL by a running value in lane order (R207, R210-R212). -/
def Obligations.CrossLane : Prop :=
  ∀ (s : State) (w : LaneWord),
    let e := s.laneEnv w
    let fn := w.fn.toNat
    let act := fun l => l < 32 && (s.acting w).getLsbD l
    let yes := fun l => routedBit w.xa (fun k => (s.curGroup.preg w.a.toNat).getLsbD k) l
    let Q := (List.range 32).filter act
    let x := fun l => IntValue (fn == 0 || fn == 2 || fn == 3) 32 (e.opA w l).toNat
    let op := Combines fn w.rm.toNat
    let out := fun (v : Int) => (BitVec.ofNat 32 (IntResult (fn == 0) (w.mod.getLsbD 0 && fn < 2) 32 v) : Word)
    (LaneReady 0x3A w [] s →
      (fn = 0 → WritesP (.vote w) s w w.d.toNat fun _ => Q.all yes)
      ∧ (fn = 1 → WritesP (.vote w) s w w.d.toNat fun _ => Q.any yes)
      ∧ (fn = 2 → WritesP (.vote w) s w w.d.toNat fun _ => Q.all yes || !Q.any yes))
    ∧ (LaneReady 0x3A w (vecWin w.d 1) s →
      (fn = 3 → ∃ v : Word, WritesV (.vote w) s w w.d.toNat (fun _ => v) ∧ ∀ j, j < 32 → v.getLsbD j = (act j && yes j))
      ∧ (fn = 4 → WritesV (.vote w) s w w.d.toNat fun _ => BitVec.ofNat 32 (Q.filter yes).length))
    ∧ (LaneReady 0x3E w (vecWin w.d 1 ++ vecWin w.a 1 ++ vecWin w.b 1) s →
      WritesV (.shuf w) s w w.d.toNat fun l => e.opA w ((e.opB w l).toNat % 32))
    ∧ (let n := modBits w 5 0 + 1
      LaneReady 0x3F w (vecWin w.d 1 ++ vecWin w.a n ++ vecWin w.b 1) s →
      ∃ r, WritesV (.gath w) s w w.d.toNat r ∧ ∀ l, l < 32 →
        let i := (e.opB w l).toNat
        let byte := fun (o : Nat) => (e.g.vreg (w.a.toNat + o / 128) (o % 128 / 4)).toNat / 2 ^ (8 * (o % 4)) % 256
        (fn = 0 → (r l).toNat = if 128 * n ≤ 4 * i then 0 else
          byte (4 * i) + 256 * byte (4 * i + 1) + 256 ^ 2 * byte (4 * i + 2) + 256 ^ 3 * byte (4 * i + 3))
        ∧ (fn = 1 → (r l).toNat = if 128 * n ≤ i then 0 else byte i))
    ∧ (LaneReady 0x40 w (vecWin w.d 1 ++ vecWin w.a 1) s →
      WritesV (.redl w) s w w.d.toNat fun _ => out ((Node op x act 0 5).getD 0))
    ∧ (LaneReady 0x41 w (vecWin w.d 1 ++ vecWin w.a 1) s →
      (w.mod.getLsbD 1 = false → WritesV (.scanl w) s w w.d.toNat fun l => out ((Running op x act (l + 1)).getD 0))
      ∧ (w.mod.getLsbD 1 = true → ∃ r, WritesV (.scanl w) s w w.d.toNat r ∧ ∀ l, l < 32 →
        (∀ v, Running op x act l = some v → r l = out v)
        ∧ (Running op x act l = none → r l =
          if fn = 2 then 0x7FFFFFFF else if fn = 3 then 0x80000000 else if fn = 4 ∨ fn = 6 then 0xFFFFFFFF
          else if fn = 10 then 0x7F800000 else if fn = 11 then 0xFF800000 else 0)))

/-! ### The matrix array and the parcel stage (R216-R234, R365) -/

/-- The array words at issue: MLOOP, SIGH, PARC and PCOMP wait behind an earlier array word of their group, and those that read memory
(PARC under .norm alone) behind an incomplete fence or acquire of their split, since their reads are loads of the split (R221, R247, R269); an address that fails
its check faults the whole split with nothing changed; and otherwise the word becomes the group's array word, with the panel
addresses captured, and its split goes on. A solo loop is complete at issue and takes the next place of its core's admission
order; a quad loop joins its round (R217-R219, R227-R232, R365). -/
def Obligations.ArrayWords : Prop :=
  ∀ (s : State) (w : LaneWord),
    let h := s.headOf s.cur
    let g := s.curGroup
    let slot := g.slotWord w
    let N := parcN w
    let K := parcK w
    let W := (N + 31) / 32
    let bytes := fun (x : BitVec 8) => x.signExtend 64 * 128
    let rows := fun (b : DWord) (st : Word) => rowAddrs b (st.signExtend 64) N K
    let A := h.capA.affine
    let B := h.capB.affine
    let C := h.capC.affine
    let issues := fun (i : Instr) (op : Nat) (more : ArrayWord → State → Prop) =>
      ∃ t a, exec i s = .next t ∧ IssueFrame s t w ∧ SameBytes s t ∧ t.ents = s.ents ∧ t.nextId = s.nextId + 1 ∧ a.id = s.nextId
        ∧ t.curGroup = { g with arr := some a, rounds := t.curGroup.rounds, splits := t.curGroup.splits }
        ∧ a.op = op ∧ a.w = w ∧ a.uid = s.curSplit.uid ∧ a.heirs = [] ∧ a.lpc = h.lpc ∧ a.done = 0 ∧ a.started = false ∧ a.stopped = false
        ∧ a.aBase = A.base ∧ a.aStride = A.stride ∧ more a t
    let checked := fun (i : Instr) (l : List DWord) (ok : Prop) =>
      (s.panelCheck .line 128 128 l = none → ok)
      ∧ (∀ f, s.panelCheck .line 128 128 l = some f → exec i s = .next (s.laneFail f))
    let alone := fun (t : State) => t = { s with groups := t.groups, nextId := s.nextId + 1 }
    (∀ op wins, LaneReady op w wins s → g.arr ≠ none ∨ s.acquiring s.curSplit.uid = true →
      (op = 0x4C → wins = vecWin w.d W → parcSlotOk slot = true → Waits (.sigh w) s)
      ∧ (op = 0x48 → wins = loopWins w 0 → mloopSlotOk w slot = true → s.roundOk w = true →
        (∀ b ∈ bWins w 0, overlaps w.d.toNat 32 b.1 b.2 = false) → Waits (.mloop w) s)
      ∧ (op = 0x4E → wins = vecWin w.a (2 * W) → parcSlotOk slot = true → Waits (.pcomp w) s)
      ∧ (op = 0x4D → wins = vecWin w.d (2 * W) ++ vecWin w.a W → (parcRule w = 1 → parcSlotOk slot = true) →
        overlaps w.d.toNat (2 * W) w.a.toNat W = false → g.arr ≠ none ∨ parcRule w = 1 → Waits (.parc w) s))
    ∧ (g.arr = none →
      (LaneReady 0x4C w (vecWin w.d W) s → parcSlotOk slot = true → s.acquiring s.curSplit.uid = false →
        let table := (w.fn.toNat + 1) * K * (512 / elemBits (slotElem slot))
        s.panelCheck .line table 16 [B.base] = none →
        checked (.sigh w) (rows (A.base + bytes w.xa) A.stride)
          (issues (.sigh w) 0x4C fun a t => a.k = K ∧ a.bBase = B.base ∧ a.wins = vecWin w.d W ∧ alone t
            ∧ t.curGroup.rounds = g.rounds))
      ∧ (LaneReady 0x4D w (vecWin w.d (2 * W) ++ vecWin w.a W) s →
        (parcRule w = 1 → parcSlotOk slot = true ∧ s.acquiring s.curSplit.uid = false) → overlaps w.d.toNat (2 * W) w.a.toNat W = false →
        checked (.parc w) (if parcRule w = 1 then rows (B.base + bytes w.xb) B.stride else [])
          (issues (.parc w) 0x4D fun a t => a.k = K ∧ a.bBase = B.base ∧ a.bStride = B.stride ∧ a.wins = vecWin w.d (2 * W)
            ∧ alone t ∧ t.curGroup.rounds = g.rounds
            ∧ ∀ i, i < N → Tab.get 0 a.src i = (s.viewOf s.cur).vreg (w.a.toNat + i / 32) (i % 32)))
      ∧ (LaneReady 0x4E w (vecWin w.a (2 * W)) s → parcSlotOk slot = true → s.acquiring s.curSplit.uid = false →
        let num := fun i => ((s.viewOf s.cur).vreg (w.a.toNat + i / 32) (i % 32)).toNat
        let mon := fun p => ((s.viewOf s.cur).vreg (w.a.toNat + W + p / 32) (p % 32)).toNat
        let P := ((List.range N).map fun i => num i + 1).foldl max 0
        let good := (∀ i, i < N → num i < N) ∧ (parcRule w ≠ 2 → ∀ p, p < P → mon p < N)
          ∧ (parcRule w = 2 → ∀ p, p < P → ∃ i, i < N ∧ num i = p)
        let dense := rowAddrs C.base (C.stride.signExtend 64) P K
        (¬good → exec (.pcomp w) s = .next (s.laneTrap .illegalOperand))
        ∧ (good → (∀ va ∈ dense, s.panelTagged g va 128 = false) →
          checked (.pcomp w) (rows (B.base + bytes w.xb) B.stride ++ dense)
            (issues (.pcomp w) 0x4E fun a t => a.k = K ∧ a.bBase = B.base ∧ a.bStride = B.stride ∧ a.cBase = C.base
              ∧ a.cStride = C.stride ∧ alone t ∧ t.curGroup.rounds = g.rounds)))
      ∧ (LaneReady 0x48 w (loopWins w 0) s → mloopSlotOk w slot = true → s.roundOk w = true →
        (∀ b ∈ bWins w 0, overlaps w.d.toNat 32 b.1 b.2 = false) → s.acquiring s.curSplit.uid = false →
        let inc : Word := if isScal w.c then h.capC.w0 else BitVec.ofNat 32 (w.c.toNat - 736)
        let addr := fun (k r : Nat) => A.base + bytes w.xa + BitVec.ofNat 64 r * A.stride.signExtend 64
          + 128 * inc.setWidth 64 * BitVec.ofNat 64 k
        let solo := modBits w 9 8 = 1
        checked (.mloop w) ((List.range (modBits w 5 0 + 1)).flatMap fun k => (List.range 16).map fun r => addr k r)
          ((solo → issues (.mloop w) 0x48 fun a t => a.k = modBits w 5 0 + 1 ∧ a.inc = inc ∧ a.wins = loopWins w 0
              ∧ a.order = some (s.core s.cur.core).admitNext ∧ t.curGroup.rounds = g.rounds
              ∧ (t.core s.cur.core).admitNext = (s.core s.cur.core).admitNext + 1)
            ∧ (¬solo → (s.roundSlots s.cur.core g g.rounds).length < 3 →
              issues (.mloop w) 0x48 fun a t => a.k = modBits w 5 0 + 1 ∧ a.inc = inc ∧ a.wins = loopWins w 0 ∧ a.order = none
                ∧ a.round = g.rounds ∧ t.curGroup.rounds = g.rounds + 1 ∧ alone t))))

/-- The loops of the matrix array, solo, quad and .PAR: a complete loop starts in all its members once no loop admitted earlier needs one
of its arrays; a step of a loop that runs updates, in each member, every element of the accumulator from the row's bytes and the column's
register, by the tree of R220 with one rounding or by the exact integer sum, unless the tile mask skips the step or, under .PAR, the row;
the columns of a round are those of its four members, sixteen from each; the last step ends the loop; and a loop that a pre-emption or a
fault of a member's group has reached stops in all its members at the boundary, with MLS and the sequencer record written (R165,
R219-R222). A B register or an accumulator register that an untracked load is still to write is read as in a lane word, once the loads that
race with the step have taken their bytes (R10, R221, log 11). -/
def Obligations.MloopTurns : Prop :=
  ∀ (s : State) (core slot : Nat) (a : ArrayWord),
    let hs := s.loopSlots core slot
    let r := hs.foldl (fun u h => u.bindRacers ⟨core, h, 0⟩) s
    let k := a.done
    let word := fun h => (s.group core h).arr.getD a
    let form := fun h => modBits (word h).w 9 8
    let only := fun (s t : State) => GroupsOnly s t ∧ ∀ c q, (∀ h ∈ hs, slotKey c q ≠ slotKey core h) → t.group c q = s.group c q
    let col := fun c =>
      if form slot = 1 then (r.viewOf ⟨core, slot, 0⟩).regBytes (a.w.b.toNat + a.w.xb.toNat * k + c)
      else
        let h := hs.getD (c / 16) 0
        (r.viewOf ⟨core, h, 0⟩).regBytes ((word h).w.b.toNat + (word h).w.xb.toNat * k + c % 16)
    (s.group core slot).arr = some a → a.op = 0x48 → hs.Nodup → (form slot ≠ 1 → hs.length = 4) →
    (∀ h ∈ hs, (word h).done = k ∧ (word h).k = a.k ∧ (word h).started = a.started) →
    (∀ o, a.order = some o → a.started = false →
      (∀ p ∈ s.groupsOn core, (∃ h ∈ hs, p.1 % 4 = h % 4) → ∀ b q, p.2.arr = some b → b.order = some q → o ≤ q) →
      ∃ t, exec (.mloopAdmit core slot) s = .next t ∧ only s t
        ∧ ∀ h ∈ hs, t.group core h = { s.group core h with arr := some { word h with started := true } })
    ∧ (a.started = false → Waits (.mloopStep core slot) s)
    ∧ (a.started = true → (∃ h ∈ hs, s.stateOn (s.group core h).ctx core ≠ .running ∨ (word h).halt = true) →
      ∃ t, exec (.mloopStep core slot) s = .next t ∧ only s t ∧ ∀ h ∈ hs,
        (let u := t.group core h
        let g := s.group core h
        let b := word h
        let addr := b.aBase + b.w.xa.signExtend 64 * 128 + 128 * b.inc.setWidth 64 * BitVec.ofNat 64 k
        u.arr = some { b with stopped := true, started := false, halt := false, order := none } ∧ u.v = g.v ∧ u.tm = g.tm
          ∧ u.splits = g.splits
          ∧ u.mls0 = BitVec.ofNat 32 (2 ^ 31 + form h * 2 ^ 29 + (a.k - k) * 2 ^ 16 + k * 2 ^ 10 + b.w.d.toNat)
          ∧ u.mls1 = BitVec.ofNat 32 ((b.w.b.toNat + b.w.xb.toNat * k) % 1024 * 2 ^ 22 + xcBits b.w 3 0 * 2 ^ 18
            + xcBits b.w 7 7 * 2 ^ 17 + (if form h = 2 then 0 else k) * 2 ^ 11)
          ∧ u.mls2 = addr.extractLsb' 0 32 ∧ u.mls3 = addr.extractLsb' 32 32
          ∧ u.seqr.stride = b.aStride ∧ u.seqr.inc = b.inc ∧ u.seqr.bstr.toNat = b.w.xb.toNat ∧ u.seqr.rm.toNat = b.w.rm.toNat
          ∧ u.seqr.slot.toNat = b.w.fs.toNat ∧ u.seqr.form = BitVec.ofNat 32 (form h)
          ∧ u.seqr.sat = if b.w.mod.getLsbD 6 then 1 else 0))
    ∧ (a.started = true →
      (∀ h ∈ hs, s.stateOn (s.group core h).ctx core = .running ∧ (word h).halt = false ∧ (word h).w.d.toNat + 32 ≤ 640) →
      ∃ t, exec (.mloopStep core slot) s = .next t ∧ only r t ∧ ∀ h ∈ hs,
        (let u := t.group core h
        let g := s.group core h
        let b := word h
        let fmt := g.slotWord b.w
        let d := b.w.d.toNat
        let sat := b.w.mod.getLsbD 6 || slotSat fmt
        let addr := fun i => b.aBase + b.w.xa.signExtend 64 * 128 + BitVec.ofNat 64 i * b.aStride.signExtend 64
          + 128 * b.inc.setWidth 64 * BitVec.ofNat 64 k
        let mask := g.tmreg (xcBits b.w 3 0)
        let on : Nat → Prop := fun i =>
          if form h = 2 then mask.getLsbD (16 * (g.num % 4) + i) = true else xcBits b.w 7 7 = 0 ∨ mask.getLsbD k = true
        let v := r.viewOf ⟨core, h, 0⟩
        let acc := fun (g : Group) (i c : Nat) => g.vreg (d + 2 * i + c / 32) (c % 32)
        let row := fun i => s.panelBytes g (addr i) 128
        (k + 1 < a.k → u = { g with
          v := u.v, under := u.under, accov := u.accov, arr := some { b with done := k + 1, wins := loopWins b.w (k + 1) } })
        ∧ (a.k ≤ k + 1 → u = { g with
          v := u.v, under := u.under, accov := u.accov, arr := none, seqr := default, mls0 := g.mls0 &&& 0x7FFFFFFF#32 })
        ∧ RowsKept g u ∧ (∀ q l, l < 32 → q < d ∨ d + 32 ≤ q → u.vreg q l = g.vreg q l)
        ∧ (∀ i c, i < 16 → c < 64 → ¬on i → acc u i c = acc g i c)
        ∧ (slotAcc fmt = 0 → u.accov = g.accov ∧ ∀ i c, i < 16 → c < 64 → on i →
          let x := f32.decode (acc v i c).toNat
          let y := StepValue fmt (row i) (col c)
          (acc u i c).toNat = f32.round b.w.rm.toNat sat (slotNan fmt)
            (if x.isNan then x else if y.isNan then .nan none else x.add y (b.w.rm == 3)))
        ∧ (slotAcc fmt = 0xA ∨ slotAcc fmt = 0xB →
          let sg := slotAcc fmt == 0xA
          let n := elemBits (slotElem fmt)
          let int := fun bs j => intOf (slotElem fmt) (StringElem n bs j)
          let x := fun i c => IntValue sg 32 (acc v i c).toNat
            + ∑ j ∈ Finset.range (1024 / n), int (row i) j * int (col c) j
          (∀ i c, i < 16 → c < 64 → on i → (acc u i c).toNat = IntResult sg sat 32 (x i c))
          ∧ (u.accov = true ↔ g.accov = true ∨ ∃ i c, i < 16 ∧ c < 64 ∧ on i
            ∧ (x i c < (if sg then -2 ^ 31 else 0) ∨ (if sg then 2 ^ 31 - 1 else 2 ^ 32 - 1) < x i c)))))

/-- The end of SIGH, PARC and PCOMP: SIGH writes the sign bits of R230; PARC numbers the rows in order of their first appearance
and names the monument of each parcel, the lowest member or under .norm the one with the greatest key; PCOMP writes the tile masks
of the parcels and the dense rows (R228, R230-R232). The panel is read, and the results are written, in the one step in which the word
finishes (log 41, DEDUCED). -/
def Obligations.ArrayFinish : Prop :=
  ∀ (s : State) (core slot : Nat) (a : ArrayWord),
    let g := s.group core slot
    let fmt := g.slotWord a.w
    let d := a.w.d.toNat
    let N := modBits a.w 7 0 + 1
    let W := (N + 31) / 32
    let E := 1024 / elemBits (slotElem fmt)
    let sig := fun i => (Tab.get 0 a.src i).toNat
    let rowB := fun i k => s.panelBytes g (a.bBase + a.w.xb.signExtend 64 * 128 + BitVec.ofNat 64 i * a.bStride.signExtend 64
      + BitVec.ofNat 64 (128 * k)) 128
    g.arr = some a → d + 2 * W ≤ 640 →
    (a.op = 0x4C →
      let row := fun i k => s.panelBytes g (a.aBase + a.w.xa.signExtend 64 * 128 + BitVec.ofNat 64 i * a.aStride.signExtend 64
        + BitVec.ofNat 64 (128 * k)) 128
      let plane := fun j k => s.panelBytes g (a.bBase + BitVec.ofNat 64 ((j * a.k + k) * (E / 2))) (E / 2)
      let t := fun i j k => KTree (fun e => (StringVal fmt (row i k) e).mul (f4e2.decode (StringElem 4 (plane j k) e))) 0 E.log2
      let sum := fun i j => (List.range (a.k - 1)).foldl (fun x k => (x.add (t i j (k + 1)) false).toX48) (t i j 0)
      1 ≤ a.k → slotElem fmt ≤ 9 → 1 ≤ slotElem fmt →
      ∃ u, exec (.arrayWordFinish core slot) s = .next u ∧ SlotOnly s u core slot
        ∧ u.group core slot = { g with arr := none, v := (u.group core slot).v, under := (u.group core slot).under }
        ∧ RowsKept g (u.group core slot)
        ∧ (∀ q l, l < 32 → q < d ∨ d + W ≤ q → (u.group core slot).vreg q l = g.vreg q l)
        ∧ ∀ i, i < 32 * W →
          let x := (u.group core slot).vreg (d + i / 32) (i % 32)
          (N ≤ i → x = 0) ∧ (i < N → ∀ j, j < 32 →
            (x.getLsbD j = true ↔ j ≤ a.w.fn.toNat ∧ ((sum i j).isNan = true ∨ (sum i j).isZero = true ∨ (sum i j).isNeg = false))))
    ∧ (a.op = 0x4D →
      let key := fun i => rowKey ((List.range a.k).flatMap fun k => (List.range E).map fun e => StringVal fmt (rowB i k) e)
      ∃ (u : State) (p : Nat → Nat) (P : Nat) (m : Nat → Nat),
        exec (.arrayWordFinish core slot) s = .next u ∧ SlotOnly s u core slot
        ∧ u.group core slot = { g with arr := none, v := (u.group core slot).v, under := (u.group core slot).under }
        ∧ RowsKept g (u.group core slot)
        ∧ (∀ q l, l < 32 → q < d ∨ d + 2 * W ≤ q → (u.group core slot).vreg q l = g.vreg q l)
        ∧ (∀ i, i < 32 * W → ((u.group core slot).vreg (d + i / 32) (i % 32)).toNat = if i < N then p i else 0xFFFFFFFF)
        ∧ (∀ i, i < 32 * W → ((u.group core slot).vreg (d + W + i / 32) (i % 32)).toNat = if i < P then m i else 0xFFFFFFFF)
        ∧ (∀ i j, i < N → j < N → (p i = p j ↔ sig i = sig j))
        ∧ (∀ i, i < N → (∃ j, j < i ∧ p j = p i) ∨ ((∀ j, j < i → p j < p i) ∧ (p i = 0 ∨ ∃ j, j < i ∧ p j + 1 = p i)))
        ∧ (∀ q, q < P ↔ ∃ i, i < N ∧ p i = q)
        ∧ (∀ q, q < P → m q < N ∧ p (m q) = q
          ∧ (parcRule a.w ≠ 1 → ∀ i, i < N → p i = q → m q ≤ i)
          ∧ (parcRule a.w = 1 → 1 ≤ slotElem fmt → slotElem fmt ≤ 9 → ∀ i, i < N → p i = q →
            keyLess (key (m q)) (key i) = false ∧ (i < m q → keyLess (key i) (key (m q)) = true))))
    ∧ (a.op = 0x4E →
      let p := fun i => sig i
      let P := ((List.range N).map fun i => p i + 1).foldl max 0
      let mon := fun q => (Tab.get 0 a.src (32 * W + q)).toNat
      let D := fun q k => a.cBase + BitVec.ofNat 64 q * a.cStride.signExtend 64 + BitVec.ofNat 64 (128 * k)
      let place := fun va => ((s.unitOf g).bind fun u => s.scratchUnit u va).map fun u => u.place va
      (∀ q k, q < P → k < a.k → s.panelTagged g (D q k) 128 = false) →
      ∃ u, exec (.arrayWordFinish core slot) s = .next u
        ∧ u.group core slot = { g with arr := none, tm := (u.group core slot).tm }
        ∧ (∀ n, n < d ∨ d + 4 ≤ n → (u.group core slot).tmreg n = g.tmreg n)
        ∧ (∀ n b, n < 4 → b < 64 → ((u.group core slot).tmreg (d + n)).getLsbD b = decide (64 * n + b < P))
        ∧ ∀ at_ : Nat → Nat → Nat × Nat,
          (∀ q k, q < P → k < a.k → place (D q k) = some (at_ q k) ∧ (at_ q k).2 % 128 = 0) →
          (∀ q k q' k', q < P → k < a.k → q' < P → k' < a.k →
            scrKey (at_ q k).1 (at_ q k).2 = scrKey (at_ q' k').1 (at_ q' k').2 → q = q' ∧ k = k') →
          ∀ q k, q < P → k < a.k → u.scrRead g.ctx (at_ q k).1 (at_ q k).2 128 =
            if parcRule a.w = 2 then meanBytes fmt (((List.range N).filter fun i => p i == q).map fun i => rowB i k)
            else rowB (mon q) k)

/-- TMSET and TMLOG write one tile mask; SCAT copies the row of a parcel in its block to each output row, and PSUM adds the rows of
each parcel with one rounding; none of them looks at the split's mask (R206, R226, R229, R233). SCAT and PSUM have the one register of the
parcel window that they read checked, since R233 gives that window no length (log 41). -/
def Obligations.TileWords : Prop :=
  (∀ (s : State) (w : LaneWord),
    let v := s.viewOf s.cur
    let g := s.curGroup
    let tile := fun (i : Instr) (f : Nat → Bool) =>
      ∃ t, exec i s = .next t ∧ LaneFrame s t w ∧ t.curGroup = { g with tm := t.curGroup.tm, splits := t.curGroup.splits }
        ∧ ∀ n b, b < 64 → (t.curGroup.tmreg n).getLsbD b = if n = w.d.toNat then f b else (g.tmreg n).getLsbD b
    let acc := fun (h : Group) (b r c : Nat) => h.vreg (b + 2 * r + c / 32) (c % 32)
    let parcel := fun i => (v.vreg (w.b.toNat + i / 32) (i % 32)).toNat
    let ib := 16 * modBits w 3 0
    let pb := 16 * modBits w 7 4
    let out := fun (i : Instr) (f : Nat → Nat → Word) =>
      ∃ t, exec i s = .next t ∧ LaneFrame s t w ∧ VectorAlone s t ∧ t.curGroup.accov = g.accov
        ∧ (∀ q l, l < 32 → q < w.d.toNat ∨ w.d.toNat + 32 ≤ q → t.curGroup.vreg q l = g.vreg q l)
        ∧ ∀ o c, o < 16 → c < 64 → acc t.curGroup w.d.toNat o c = f o c
    (LaneReady 0x4A w (vecWin w.a ((modBits w 5 0 + 1) * 2 ^ w.fn.toNat)) s →
      tile (.tmset w) fun i => decide (i < modBits w 5 0 + 1 ∧
        ∃ k, k < 2 ^ w.fn.toNat ∧ ∃ l, l < 32 ∧ v.vreg (w.a.toNat + 2 ^ w.fn.toNat * i + k) l ≠ 0))
    ∧ (LaneReady 0x4B w [] s →
      tile (.tmlog w) fun i =>
        let x := (g.tmreg w.a.toNat).getLsbD i
        let y := (g.tmreg w.b.toNat).getLsbD i
        let fn := w.fn.toNat
        if fn = 0 then x && y else if fn = 1 then x || y else if fn = 2 then xor x y else if fn = 3 then x && !y
        else if fn = 4 then x || !y else if fn = 5 then !(x && y) else if fn = 6 then !(x || y) else !(xor x y))
    ∧ (LaneReady 0x4F w [(w.d.toNat, 32), (w.a.toNat, 32), (w.b.toNat + ib / 32, 1)] s →
      out (.scat w) fun o c =>
        let p := parcel (ib + o)
        if p ≠ 0xFFFFFFFF ∧ pb ≤ p ∧ p ≤ pb + 15 then acc v w.a.toNat (p - pb) c else acc g w.d.toNat o c)
    ∧ (LaneReady 0x50 w [(w.d.toNat, 32), (w.a.toNat, 32), (w.b.toNat + ib / 32, 1)] s →
      out (.psum w) fun o c =>
        let rows := (List.range 16).filter fun r => parcel (ib + r) == pb + o
        if rows = [] then acc g w.d.toNat o c
        else BitVec.ofNat 32 (f32.roundWord w.rm.toNat (sumVals w.rm.toNat
          (f32.decode (acc v w.d.toNat o c).toNat :: rows.map fun r => f32.decode (acc v w.a.toNat r c).toNat)))))
  ∧ ∀ (rm : Nat) (vs : List Val) (xs : List ℝ), List.Forall₂ Stands vs xs → Stands (sumVals rm vs) xs.sum

/-- TSTORE and PLAT: with every check passed, the image goes out as plain stores at rising addresses, in pieces of 128 and of 16
bytes. A tile image is a header with the bitmap form under its budget or the dense form; a plat map is a header and three tables
(R223, R224, R234). -/
def Obligations.ImageWords : Prop :=
  ∀ (s : State) (w : LaneWord),
    let v := s.viewOf s.cur
    let fmt := s.curGroup.slotWord w
    let T := (s.headOf s.cur).capA.affine.base + w.xa.signExtend 64 * 128
    let stores := fun (i : Instr) (n : Nat) (image : List Byte) =>
      ∃ (t : State) (es : List Entry), exec i s = .next t ∧ IssueFrame s t w ∧ Enters s t es ∧ OneWord s es ∧ es.length = (image.length + n - 1) / n
        ∧ t.curGroup = { s.curGroup with splits := t.curGroup.splits }
        ∧ ∀ (j : Nat) (e : Entry), es[j]? = some e → e.parts = [⟨0, T + BitVec.ofNat 64 (n * j), min n (image.length - n * j), (image.drop (n * j)).take n⟩]
          ∧ e.rel = none ∧ e.acq = none ∧ e.dstN = 0
    let allowed := fun (size n : Nat) =>
      s.requesterCheck s.curGroup s.cur.core .lineStore T size 1 = none ∧
      ∀ j, n * j < size →
        s.requesterCheck s.curGroup s.cur.core .lineStore (T + BitVec.ofNat 64 (n * j)) (min n (size - n * j)) 1 = none
    s.fenced s.curSplit.uid = false →
    (LaneReady 0x49 w (vecWin w.b 32) s → tstoreSlotOk w fmt = true →
      let bits := elemBits (slotElem fmt)
      let budget := 16 * w.mod.toNat
      let pat := fun j => conv fmt false (slotAcc fmt) (slotElem fmt) (v.vreg (w.b.toNat + j / 32) (j % 32)).toNat (.fin false 1 0)
        w.rm.toNat (xcBits w 0 0 == 1 || slotSat fmt)
      let set := fun n => ((List.range n).filter fun j => pat j != 0).length
      let fit := 144 + ((set 1024 * bits + 7) / 8 + 15) / 16 * 16
      let bmp := budget ≠ 0 ∧ fit ≤ budget
      let size := if bmp then fit else 16 + 128 * bits
      (T.toNat % 128 ≠ 0 → exec (.tstore w) s = .next (s.laneFail ⟨.align, .none, T⟩))
      ∧ (T.toNat % 128 = 0 → allowed size 128 →
        ∃ image, stores (.tstore w) 128 image ∧ image.length = size
          ∧ ofBytes (image.take 16) = budget * 2 ^ 48 + size * 2 ^ 32 + (if budget ≠ 0 ∧ ¬bmp then 2 ^ 21 else 0)
            + (if bmp then 2 ^ 20 else 0) + slotElem fmt * 2 ^ 16 + set 1024
          ∧ (¬bmp → ∀ j, j < 1024 → StringElem bits (image.drop 16) j = pat j)
          ∧ (bmp → ∀ j, j < 1024 → (StringElem 1 (image.drop 16) j = if pat j = 0 then 0 else 1)
            ∧ (pat j ≠ 0 → StringElem bits (image.drop 144) (set j) = pat j))))
    ∧ (LaneReady 0x51 w (vecWin w.b (2 * ((modBits w 7 0 + 1 + 31) / 32))) s →
      let N := modBits w 7 0 + 1
      let W := (N + 31) / 32
      let p := fun i => (v.vreg (w.b.toNat + i / 32) (i % 32)).toNat
      let m := fun q => (v.vreg (w.b.toNat + W + q / 32) (q % 32)).toNat
      let P := ((List.range N).map fun i => p i + 1).foldl max 0
      let pad := fun n => (2 * n + 15) / 16 * 16
      let mon := 16 + pad N
      let cnt := mon + pad P
      let size := cnt + pad P
      let good := (∀ i, i < N → p i < N) ∧ ∀ q, q < P → m q < N
      (¬good → exec (.plat w) s = .next (s.laneTrap .illegalOperand))
      ∧ (good → T.toNat % 16 ≠ 0 → exec (.plat w) s = .next (s.laneFail ⟨.align, .none, T⟩))
      ∧ (good → T.toNat % 16 = 0 → allowed size 16 →
        ∃ image, stores (.plat w) 16 image ∧ image.length = size
          ∧ ofBytes (image.take 16) = 2 ^ 112 + size * 2 ^ 96 + cnt * 2 ^ 80 + mon * 2 ^ 64 + parcRule w * 2 ^ 36
            + (w.fn.toNat + 1) % 16 * 2 ^ 32 + P * 2 ^ 16 + N
          ∧ (∀ i, i < N → StringElem 16 (image.drop 16) i = p i)
          ∧ (∀ q, q < P → StringElem 16 (image.drop mon) q = m q
            ∧ StringElem 16 (image.drop cnt) q = ((List.range N).filter fun i => p i == q).length)))

/-! ### Lane memory words (R153-R156, R235-R250) -/

/-- LD, ST, PRF, ATOM and an unescorted ATOMR issue one entry for each packet of their good lanes: a load names the register that
each lane lands in, a store and an atomic carry the data read at issue, and a prefetch carries none (R237-R241, R245, R248,
R250). The requester's checks: an address off its alignment is ALIGN; a path that does not accept the access, a node that is not there,
a scratch access outside the partition that it names and a system access outside every window are PATH; another node without the context's
key on the core's die is POISON; a system window without the right is PERM with cause "system"; and a scratch store that meets a live phaser
is PHASER_CLOBBER (R40-R42, R106, R239, R255). Of windows that overlap the one with the lowest index decides (log 66). -/
def Obligations.LaneMemory : Prop :=
  (∀ (s : State) (g : Group) (core : Nat) (r : Reach) (va : DWord) (width align : Nat), 1 ≤ width →
    let fault := s.requesterCheck g core r va width align
    let a := va.toNat
    let path := pathOf va
    let writes := r = .store ∨ r = .lineStore ∨ r = .atomic
    let accepted := match r with
      | .lane => path ≤ 4 ∨ path = 5 ∧ width ≤ 8
      | .line => path ≤ 4
      | .store => path ∈ [0, 2, 3] ∨ path = 5 ∧ width ≤ 8
      | .lineStore => path ∈ [0, 2, 3]
      | .escort => path ∈ [0, 1, 4]
      | .atomic => path = 0
      | .prefetch => path ∈ [0, 1, 4]
    (a % align ≠ 0 → fault = some (.align, .none))
    ∧ (a % align = 0 → ¬accepted → fault = some (.path, .none))
    ∧ (a % align = 0 → accepted →
      (path ∈ [0, 1, 4] →
        (s.populated (nodeOf va) = false → fault = some (.path, .none))
        ∧ (s.populated (nodeOf va) = true → nodeOf va ≠ s.node.toNat → s.keyOn (4 * s.node.toNat + core / 64 % 4) g.ctx = false →
          fault = some (.poison, .none))
        ∧ (s.populated (nodeOf va) = true → nodeOf va = s.node.toNat ∨ s.keyOn (4 * s.node.toNat + core / 64 % 4) g.ctx = true →
          fault = none))
      ∧ (path = 5 →
        let c := s.ctx g.ctx
        let covers := fun (i : Nat) =>
          let b := (Tab.get 0 c.swb i).toNat % 2 ^ 48
          let l := (Tab.get 0 c.swl i).toNat % 2 ^ 48
          0 < l ∧ b ≤ a % 2 ^ 48 ∧ a % 2 ^ 48 + width ≤ b + l
        (a / 2 ^ 48 % 2 ^ 12 ≠ 0 ∨ (∀ i, i < 16 → ¬covers i) → fault = some (.path, .none))
        ∧ ∀ i, a / 2 ^ 48 % 2 ^ 12 = 0 → i < 16 → covers i → (∀ j, j < i → ¬covers j) →
          (writes → fault = if (Tab.get 0 c.swl i).getLsbD 49 then none else some (.perm, .system))
          ∧ (¬writes → fault = if (Tab.get 0 c.swl i).getLsbD 48 then none else some (.perm, .system)))
      ∧ (path = 2 →
        let off := a % 2 ^ 32
        (s.unitOf g = none → fault = some (.path, .none))
        ∧ ∀ u, s.unitOf g = some u →
          let inside := u.ended = false ∧ a / 2 ^ 32 % 2 ^ 28 = 0 ∧ off + width ≤ u.psize
          let tagged := ∃ p ∈ (s.core u.core).phasers, p.off < u.pbase + off + width ∧ u.pbase + off < p.off + 16
          (¬inside → fault = some (.path, .none)) ∧ (inside → writes → tagged → fault = some (.phaserClobber, .none))
          ∧ (inside → ¬(writes ∧ tagged) → fault = none))
      ∧ (path = 3 → (∀ u, s.unitOf g = some u → s.scratchUnit u va = none) → fault = some (.path, .none))
      ∧ (path = 3 → ∀ u t, s.unitOf g = some u → s.scratchUnit u va = some t → t.psize < a % 2 ^ 32 + width →
        fault = some (.path, .none))))
  ∧ ∀ (s : State) (w : LaneWord),
    let fn := w.fn.toNat
    let width := if fn ≤ 1 then 1 else if fn ≤ 3 then 2 else if fn = 4 then 4 else if fn = 5 then 8 else 16
    let regs := fun (n : Nat) => if n ≤ 4 then 1 else n / 4
    let wide := if fn ≥ 14 then 8 else 4
    let opRegs := if fn = 12 ∨ fn = 14 then 2 else if fn = 15 then 4 else 1
    let trk := w.mod.getLsbD 3
    let address := vecWin w.a 2 ++ vecWin w.b 1
    let ready := fun (op : Nat) (wins : List (Nat × Nat)) => LaneReady op w (wins ++ address) s
    let data := fun (n l : Nat) => (List.range n).map (DataByte s w l)
    s.fenced s.curSplit.uid = false →
    (ready 0x58 (vecWin w.d (regs width)) →
      IssuesMem (.ld w) s 0x58 w .lane width width width (fun _ => []) fun x =>
        x.kind = (if x.path = 5 then .yLoad else .load) ∧ x.trk = trk
          ∧ ∀ p ∈ x.parts, x.dstN = regs p.width ∧ x.dst = w.d.toNat)
    ∧ (ready 0x59 (vecWin w.d (regs width)) →
      IssuesMem (.st w) s 0x59 w .store width width width (data width) fun x =>
        x.dstN = 0 ∧ x.kind = (if x.path = 2 then .sStore else if x.path = 5 then .yStore
          else if x.path = 3 then s.storeKind s.curGroup s.cur.core ((x.parts.map (·.addr)).headD 0) else .gStore))
    ∧ (ready 0x5D [] →
      IssuesMem (.prf w) s 0x5D w .prefetch 128 1 1 (fun _ => []) fun x => x.kind = .prefetch ∧ x.dstN = 0)
    ∧ (ready 0x5E (vecWin w.d opRegs) →
      IssuesMem (.atom w) s 0x5E w .atomic wide wide wide (data (4 * opRegs)) fun x => x.kind = .gAtomic ∧ x.dstN = 0)
    ∧ (w.c.toNat = 736 → ready 0x5F (vecWin w.d opRegs) →
      IssuesMem (.atomr w) s 0x5F w .atomic wide wide wide (data (4 * opRegs)) fun x =>
        x.kind = .gAtomic ∧ x.dst = w.d.toNat ∧ x.dstN = wide / 4 ∧ x.trk = trk)

/-- LDL and STL act for all 32 lanes when one lane acts, one packet for each line of 128 bytes; a line that fails its check faults
the split, and the others are performed: a switch marker of the word then waits for what they return (R10, R244). FENCE enters as a marker of its kind and scope (R246, R247, R268). A memory word
waits behind an incomplete fence of its split (R247). -/
def Obligations.LineWords : Prop :=
  ∀ (s : State) (w : LaneWord),
    let n := w.b.toNat + 1
    let e := s.laneEnv w
    let X : DWord := e.head.capA.w1 ++ e.head.capA.w0 + w.xa.signExtend 64 * 128
    let line := fun (j : Nat) => X + BitVec.ofNat 64 (128 * j)
    let check := fun (r : Reach) j => s.requesterCheck s.curGroup s.cur.core r (line j) 128 128
    let parts := fun (data : Nat → List Byte) j =>
      (List.range 32).map fun k => (⟨k, line j + BitVec.ofNat 64 (4 * k), 4, data k⟩ : Part)
    let word := fun (v : Word) => (List.range 4).map fun i => v.extractLsb' (8 * i) 8
    let moves := fun (i : Instr) (op : Nat) (r : Reach) (data : Nat → Nat → List Byte) (own : Nat → Entry → Prop) =>
      LaneReady op w (vecWin w.d n) s →
      (s.fenced s.curSplit.uid = true → Waits i s)
      ∧ (s.fenced s.curSplit.uid = false →
        (IdleAcq s op w → Idles i s s w)
        ∧ (s.acting w = 0 → ¬IdleAcq s op w →
          ∃ t, exec i s = .next t ∧ LaneFrame s t w ∧ t.curGroup = { s.curGroup with splits := t.curGroup.splits })
        ∧ (s.acting w ≠ 0 → ∃ es : List Entry,
          let good := (List.range n).filter fun j => (check r j).isNone
          es.length = good.length
          ∧ (∀ (m j : Nat) (x : Entry), good[m]? = some j → es[m]? = some x →
            WordEntry s op w x ∧ x.parts = parts (data j) j ∧ x.esc = none ∧ own j x)
          ∧ ((∀ j, j < n → check r j = none) →
            ∃ t, exec i s = .next t ∧ IssueFrame s t w ∧ Enters s t (Stamped s es)
              ∧ t.curGroup = { s.curGroup with splits := t.curGroup.splits })
          ∧ (∀ j f, j < n → check r j = some f → (∀ k, k < j → check r k = none) →
            exec i s = .next (((s.enterAll es).modCur fun sp => { sp with swPark := w.sw }).laneFault
              (((List.range 32).filter fun l => s.curSplit.mask.getLsbD l).map fun l => (l, ⟨f.1, f.2, line j⟩)) w.sw id))))
    moves (.ldl w) 0x5B .line (fun _ _ => []) (fun j x => x.kind = .load ∧ x.dst = w.d.toNat + j ∧ x.dstN = 1
      ∧ x.trk = w.mod.getLsbD 3)
    ∧ moves (.stl w) 0x5C .lineStore (fun j k => word (e.g.vreg (w.d.toNat + j) k)) (fun j x => x.dstN = 0
      ∧ x.kind = s.storeKind s.curGroup s.cur.core (line j))
    ∧ (LaneReady 0x60 w [] s →
      (s.fenced s.curSplit.uid = true → Waits (.fence w) s)
      ∧ (s.fenced s.curSplit.uid = false →
        let scope := if w.fn = 0 then some (modBits w 6 4) else none
        ∃ t x, exec (.fence w) s = .next t ∧ IssueFrame s t w ∧ Enters s t [x]
          ∧ t.curGroup = { s.curGroup with splits := t.curGroup.splits }
          ∧ x.id = s.nextId ∧ x.kind = .fence ∧ x.owners = [s.curSplit.uid] ∧ x.fn = w.fn.toNat ∧ x.parts = [] ∧ x.dstN = 0
          ∧ x.acq = (if modBits w 8 7 = 2 then none else scope) ∧ x.rel = (if modBits w 8 7 = 1 then none else scope)))

/-- An escorted word (LDE, and ATOMR with an escort set) departs when the budgets of R154 allow it: the first packet takes all 32
lanes of the set along, its rows are free, and .try clears the flag. Otherwise the plain form waits and .try is refused, with the
flag set and the cause in ERC, the lowest where several budgets refuse (log 85). The flag is cleared also where lanes of a .try word fault, all of
them or some (R156); a word that acts in no lane is neither refused nor kept waiting (log 90). A register of the set that an untracked load is still to
write is packed as a lane word would read it (R10, log 11). A retry from the head of the queue sends no escort (R326). A word that waits departs by ESCORT_DEPART as by its
own issue (R153-R156). -/
def Obligations.EscortedWords : Prop :=
  (∀ (s : State) (w : LaneWord),
    let fn := w.fn.toNat
    let width := if fn ≤ 1 then 1 else if fn ≤ 3 then 2 else if fn = 4 then 4 else if fn = 5 then 8 else 16
    let wide := if fn ≥ 14 then 8 else 4
    let opRegs := if fn = 12 ∨ fn = 14 then 2 else if fn = 15 then 4 else 1
    let n := modBits w 2 0 + 1
    let base := w.c.toNat
    let try_ := xcBits w 0 0 = 1
    let g := s.curGroup
    let escorts := fun (i : Instr) (op wid regs : Nat) (r : Reach) (data : Nat → List Byte) (own : Entry → Prop) =>
      let good := (Acting s w).filter fun l => (LaneFault s w r wid wid wid l).isNone
      let cause := RefusalCause s n (good.head?.map (LaneAddr s w wid))
      LaneReady op w (vecWin w.d regs ++ (vecWin w.a 2 ++ vecWin w.b 1) ++ vecWin w.c n) s → s.fenced s.curSplit.uid = false →
      let clear := s.modCur fun sp => sp.setFlag false
      (s.curSplit.headFault = true →
        IssuesMemAs i s (if try_ then clear else s) op w r wid wid wid data fun x => own x ∧ x.trk = true)
      ∧ (s.curSplit.headFault = false → s.acting w ≠ 0 → cause = 0 → (∃ l ∈ Acting s w, LaneFault s w r wid wid wid l ≠ none) →
        ∃ es : List Entry, Carries s op w r wid wid wid data es ∧ (∀ x ∈ es, own x ∧ x.esc = none ∧ x.trk = true)
          ∧ exec i s = .next ((if try_ then clear else s).laneFault (LaneFails s w r wid wid wid) w.sw fun v => v.sendOff w es))
      ∧ (s.curSplit.headFault = false → s.acting w ≠ 0 → cause ≠ 0 →
        (¬try_ → Waits i s)
        ∧ (try_ → ∃ t, exec i s = .next t ∧ SameBytes s t ∧ GroupsOnly s t ∧ OtherSlots s t
          ∧ (∀ k, k ≠ s.cur.split → t.curGroup.split k = g.split k)
          ∧ t.curGroup = { g with erc := BitVec.ofNat 3 cause, splits := t.curGroup.splits }
          ∧ t.curSplit = { Issued s w s.curSplit with flag := true }))
      ∧ (s.curSplit.headFault = false → s.acting w ≠ 0 → cause = 0 → (∀ l ∈ Acting s w, LaneFault s w r wid wid wid l = none) →
        ∃ (t : State) (x : Entry) (xs : List Entry),
          exec i s = .next t ∧ SameBytes s t ∧ OtherSlots s t ∧ t.ents = s.ents ++ Stamped s (x :: xs)
          ∧ t.curSplit = { Issued s w s.curSplit with flag := if try_ then false else s.curSplit.flag }
          ∧ t.curGroup = { g with splits := t.curGroup.splits }
          ∧ Carries s op w r wid wid wid data (x :: xs) ∧ (∀ y ∈ x :: xs, own y ∧ y.trk = true)
          ∧ (∀ y ∈ xs, y.esc = none)
          ∧ (∃ z, x.esc = some z ∧ z.base = base ∧ z.count = n
            ∧ ∀ k l, k < n → l < 32 → Tab.get 0 z.rows (32 * k + l) = (s.laneEnv w).g.vreg (base + k) l)
          ∧ (t.core s.cur.core).rows = (s.core s.cur.core).rows ++ (List.range n).map fun k => g.rowImage (base + k))
      ∧ (s.curSplit.headFault = false → IdleAcq s op w → Idles i s (if try_ then clear else s) w)
      ∧ (s.curSplit.headFault = false → s.acting w = 0 → ¬IdleAcq s op w → ∃ t, exec i s = .next t ∧ SameBytes s t ∧ GroupsOnly s t
        ∧ t.curGroup = { g with splits := t.curGroup.splits }
        ∧ t.curSplit = { Issued s w s.curSplit with flag := if try_ then false else s.curSplit.flag })
    escorts (.lde w) 0x5A width (if width ≤ 4 then 1 else width / 4) .escort (fun _ => []) (fun x => x.kind = .load)
    ∧ (base ≠ 736 → escorts (.atomr w) 0x5F wide opRegs .atomic
      (fun l => (List.range (4 * opRegs)).map (DataByte s w l)) (fun x => x.kind = .gAtomic ∧ x.dst = w.d.toNat ∧ x.dstN = wide / 4)))
  ∧ ∀ (s : State) (ag : Agent),
    let bits := (s.headOf ag).word
    let op := (bits.extractLsb' 88 7).toNat
    let u : State := { s with cur := ag, curLane := true }
    (s.laneReady ag = true → op = 0x5A → exec (.escortDepart ag) s = exec (.lde (laneFields bits)) u)
    ∧ (s.laneReady ag = true → op = 0x5F → exec (.escortDepart ag) s = exec (.atomr (laneFields bits)) u)
    ∧ (s.laneReady ag = false ∨ op ≠ 0x5A ∧ op ≠ 0x5F → Waits (.escortDepart ag) s)

/-! ### The steps of the field (R43, R50, R60, R117, R248-R251, R265-R269) -/

/-- A request at its owner: the lease is checked first, then the walk and the rights of the leaf, then the key of the die, and the
first failure decides; the answer is kept with the entry, and no byte changes (R43, R50, R60). A request is answered when its channel
serves it: not while another that waits for the channel and could be served has the older frame stamp, or, of one stamp, a writer that
stands earlier in the ring order from the last one served, or, of one writer, was injected before (R96, R97, R99, log 68). A hint reaches
the die that its address names (R76). A write of a core's save path is served so too, without a lease, after the stores of the core's view to its
line that it comes after and the writes before it (log 28): its bytes are written; then FREC names the frame of a fault record, and the notice of one
for the driver is posted; and of a line of an image that cannot be written the eviction is abandoned (R313, R330, R331). A read of a save area takes
its turn in the same way. FILL takes a
clean copy of a line from its home, the only one of its core, class and context, in place of the least recently used of a full set (R115,
R265, log 62); DROP discards one. A packet of a core that is no entry, as a fill's is, waits while the core holds another packet (R98),
while an earlier one of the core for the same remote line waits (R109), while an earlier reply of the home to the cluster waits (R99), and
to another node without the context's key (R106). -/
def Obligations.FieldRequests : Prop :=
  (∀ (s : State) (ctx : Nat) (lease : Option Word) (a : Access) (va : DWord),
    let r := (s.ownerCheck ctx lease a va).1
    let t := (s.ownerCheck ctx lease a va).2
    let leased := ∀ l, lease = some l → s.leaseOk l a va = true
    t.mem = s.mem ∧ t.ents = s.ents ∧ t.groups = s.groups
    ∧ (¬leased → r = .error (.lease, .none))
    ∧ (leased → ∀ c, (s.walk ctx va).1 = .error c → r = .error (.perm, c))
    ∧ (leased → ∀ l : Leaf, (s.walk ctx va).1 = .ok l →
      (l.w = false → a = .store ∨ a = .engineWrite ∨ a = .atomic → r = .error (.perm, .write))
      ∧ (l.x = false → a = .fetch → r = .error (.perm, .execute))
      ∧ (l.w = true → a = .atomic → l.tier = 3 → l.state ≠ 1 → l.rap = false → r = .error (.perm, .atomic))
      ∧ (a = .load → l.state = 2 → r = .error (.poison, .none))
      ∧ (a = .load → l.state ≠ 2 → r =
        if s.keyOn (ownerOf va) ctx then .ok (l.keyOf (ownerOf va) (localOf va), l) else .error (.poison, .none))
      ∧ (l.w = true → a = .store → l.state ≠ 2 → s.keyOn (ownerOf va) ctx = true →
        r = .ok (l.keyOf (ownerOf va) (localOf va), l))))
  ∧ (∀ (s : State) (id : Nat) (e : Entry), s.ent id = some e →
    (s.requestOk e = false ∨ e.kind = .heatr → Waits (.requestAtOwner id) s)
    ∧ (∀ x ∈ s.ents, x.id ≠ e.id → s.channelOf x = s.channelOf e → s.canServe x = true →
      ∀ fx nx fe ne, x.inj = some (fx, nx) → e.inj = some (fe, ne) →
      let gap := fun (y : Entry) => (y.ag.core / 8 + 127 - Tab.get 127 s.served (s.channelOf e)) % 128
      (fx ≠ fe → (fe - fx).toNat ≤ 2 ^ 31 → s.requestOk e = false)
      ∧ (fx = fe → x.ag.core / 8 ≠ e.ag.core / 8 → gap x < gap e → s.requestOk e = false)
      ∧ (fx = fe → x.ag.core / 8 = e.ag.core / 8 → nx < ne → s.requestOk e = false))
    ∧ (s.requestOk e = true → e.kind = .hint →
      ∃ t, exec (.requestAtOwner id) s = .next t ∧ SameBytes s t ∧ t.groups = s.groups ∧ (∀ x, x ∈ t.ents ↔ x ∈ s.ents ∧ x.id ≠ id)
        ∧ t.die (ownerOf e.line) = { s.die (ownerOf e.line) with
            hints := (s.die (ownerOf e.line)).hints ++ [⟨e.ctx, e.launch, (e.parts.head?.map (·.addr)).getD 0, e.fn⟩] }
        ∧ ∀ j, j ≠ ownerOf e.line → t.die j = s.die j)
    ∧ (s.requestOk e = true → e.kind ∉ [.heatr, .hint, .save, .saveRead] → nodeOf e.line = s.node.toNat →
      ∃ t r, exec (.requestAtOwner id) s = .next t ∧ SameBytes s t ∧ t.groups = s.groups
        ∧ Tab.get 127 t.served (s.channelOf e) = e.ag.core / 8
        ∧ t.ents = s.ents.map (fun x => if x.id = id then { e with resp := r } else x)
        ∧ (∀ k l, (s.ownerCheck e.ctx (some e.launch) e.access (noPath e.line)).1 = .ok (k, l) → r = .ok k t.tick)
        ∧ (∀ k c, (s.ownerCheck e.ctx (some e.launch) e.access (noPath e.line)).1 = .error (k, c) →
          r = .bad ⟨k, c, (e.parts.head?.map (·.addr)).getD 0⟩ t.tick))
    ∧ (e.kind = .saveRead →
      (s.replyNext e = false → Waits (.requestAtOwner id) s)
      ∧ (s.requestOk e = true → s.replyNext e = true →
        ∃ t, exec (.requestAtOwner id) s = .next t ∧ SameBytes s t ∧ t.groups = s.groups ∧ ∀ x, x ∈ t.ents ↔ x ∈ s.ents ∧ x.id ≠ id))
    ∧ (e.kind = .save →
      let core := e.ag.core
      let g := s.group core e.ag.slot
      let look := (s.ownerCheck e.ctx none .store (noPath e.line)).1
      (∀ x ∈ s.ents, x.ag.core = core → x.ctx = e.ctx → noPath x.line = noPath e.line →
        x.kind = .gStore ∧ 0 < x.level ∧ x.level < e.level ∨ x.kind = .save ∧ x.id < e.id → Waits (.requestAtOwner id) s)
      ∧ (s.requestOk e = true → nodeOf e.line = s.node.toNat →
        (∀ f, look = .error f → e.op = 0 →
          ∃ t, exec (.requestAtOwner id) s = .next t ∧ SameBytes s t ∧ (∀ x, x ∈ t.ents ↔ x ∈ s.ents ∧ x.id ≠ id)
            ∧ t.stateOn e.ctx core = if s.stateOn e.ctx core = .evicting then .preempted else s.stateOn e.ctx core)
        ∧ ∀ key l p, look = .ok (key, l) → e.parts = [p] → key % 128 = 0 → e.line.toNat % 128 = 0 → p.addr.toNat % 128 + p.width ≤ 128 →
          lineOf p.addr = e.line → 0 < p.width → p.data.length = p.width → translated e.path = true →
          (∀ i, i < 128 → s.transitOf e.ctx (noPath e.line + BitVec.ofNat 64 i) = none) →
          (∀ i, i < 128 → s.unreachable (key + i) = false) → s.expanderBad key = false → (s.line (key / 128)).poison = false →
          (s.line (key / 128)).written = false ∨ (s.line (key / 128)).tag = none
            ∨ (s.line (key / 128)).tag = some (s.tagFor (ownerOf e.line) e.ctx (noPath e.line)) →
          let K := key + p.addr.toNat % 128
          ∃ u : State, exec (.requestAtOwner id) s = .next (if e.op = 2 then u.postNotice e.ctx e.line else u)
            ∧ (∀ x, x ∈ u.ents ↔ x ∈ s.ents ∧ x.id ≠ id)
            ∧ (∀ i, i < p.width → u.mem.read (K + i) = p.data.getD i 0) ∧ (∀ k, k < K ∨ K + p.width ≤ k → u.mem.read k = s.mem.read k)
            ∧ (e.op = 0 → u.groups = s.groups)
            ∧ (0 < e.op → g.live = true → g.tag = e.tag → u.group core e.ag.slot = { g with frec := e.line }))))
  ∧ ∀ (s : State) (core : Nat) (cls : PathClass) (ctx : Nat) (va : DWord),
    let line := lineOf (noPath va)
    let mine := fun (c : Copy) => c.core = core ∧ c.cls = cls ∧ c.ctx = ctx ∧ c.line = line
    (∃ t, exec (.drop core cls ctx va) s = .next t ∧ t = { s with copies := t.copies }
      ∧ ∀ c, c ∈ t.copies ↔ c ∈ s.copies ∧ ¬mine c)
    ∧ (let keyed := nodeOf va = s.node.toNat ∨ s.keyOn (4 * s.node.toNat + core / 64 % 4) ctx = true
    let home := fun (x : Entry) => ownerOf x.line = ownerOf va ∧ sliceOf x.line = sliceOf va
    (s.homeReady ctx (noPath va) = false ∨ ¬keyed ∨ s.coreMayAsk core ctx none .load va = false → Waits (.fill core cls ctx va) s)
    ∧ (∀ x ∈ s.ents, x.ag.core = core → s.toInject x = true → Waits (.fill core cls ctx va) s)
    ∧ (∀ x ∈ s.ents, nodeOf va ≠ s.node.toNat → translated x.path = true → x.resp = .none → x.inj ≠ none → x.ag.core = core →
      lineOf (noPath x.line) = line → Waits (.fill core cls ctx va) s)
    ∧ (∀ x ∈ s.ents, ∀ f tick, x.resp = .bad f tick → translated x.path = true → x.ag.core / 8 = core / 8 → home x →
      Waits (.fill core cls ctx va) s)
    ∧ (s.homeReady ctx (noPath va) = true → keyed → s.coreMayAsk core ctx none .load va = true →
      ∃ t, exec (.fill core cls ctx va) s = .next t ∧ SameBytes s t ∧ t.groups = s.groups ∧ t.ents = s.ents
      ∧ (let u := s.coreAsk core ctx none .load va
      let c0 : Copy := ⟨core, cls, ctx, line, [], []⟩
      let rivals := s.copies.filter fun d => !c0.same d && c0.rivals d
      let places := if cls = .instruction then 512 else 12
      ((∃ f, (u.ownerLook ctx none .load line).1 = .error f) → t = u)
      ∧ ∀ k l bs, (u.ownerLook ctx none .load line).1 = .ok (k, l) →
        ((u.ownerLook ctx none .load line).2.homeRead ctx line k 128).1 = some bs → cls ≠ .compressed →
        ∃ c, mine c ∧ c.bytes = bs
          ∧ (rivals.length < places → ∀ d, d ∈ t.copies ↔ d = c ∨ d ∈ s.copies ∧ ¬mine d)
          ∧ ∀ r rs, rivals = r :: rs → places ≤ rivals.length →
            ∀ d, d ∈ t.copies ↔ d = c ∨ d ∈ s.copies ∧ ¬mine d ∧ r.same d = false)))

/-- Commit and Perform: a store commits when it is the oldest level-0 store of its FIFO, no older acquire or fence is incomplete,
no older load of its bytes is in the pool, and its release may go: not while an array word of its split has rows to read still (R221), unless its
context is being evicted (log 33); its bytes then join the core view, and a CORE-scope release is
logged with every level-1 entry of its core. A generic store is performed at its home when it is the oldest of its FIFO, and no earlier write of its core's save path to its line
waits (log 28): its bytes, the highest lane's where lanes meet, are written there and no others, the line's tag names the releasing core or none, and
the entry is gone; the line may be unwritten or hold the context's own bytes, and no expander reports poison on it (log 14). A scratch
store is performed at its bank when it is the oldest of its FIFO, and takes its line for its context (R67); a system store or load at its
target when it is the oldest of FIFO Y (log 15), with the load's value in its register. A timeout
sends a line's level-1 bytes, and a promote probe is answered once its releaser's stores are performed, for the line as it then stands
(R64, R117, R240, R265, R268, R269). -/
def Obligations.StorePerforms : Prop :=
  ∀ (s : State) (id : Nat) (e : Entry), s.ent id = some e →
    let older := s.older e
    let here := s.group e.ag.core e.ag.slot
    let rows := here.live = true ∧ here.tag = e.tag ∧ s.stateOn e.ctx e.ag.core ≠ .evicting
      ∧ ∃ a, here.arr = some a ∧ a.reads = true ∧ a.own e.uid = true ∧ a.id < e.id
    let free := (∀ x ∈ older, x.wid ≠ e.wid → x.acq = none ∧ x.kind ≠ .fence)
      ∧ (∀ x ∈ older, x.kind = .load → ∀ b, (∃ c, (b, c) ∈ e.bytes) → x.covers b = false)
      ∧ ∀ scope, e.rel = some scope → ¬rows ∧ ∀ x ∈ older, x.wid ≠ e.wid →
        x.kind ≠ .load ∧ ¬(x.kind = .gAtomic ∧ 0 < x.dstN) ∧ x.visible scope = true
    let ahead := ∃ x ∈ s.ents, x.kind = .save ∧ x.ag.core = e.ag.core ∧ x.ctx = e.ctx ∧ noPath x.line = noPath e.line ∧ x.level < e.level
    let commits := e.kind = .gStore ∧ e.level = 0 ∧ free ∧ ∀ x ∈ older, x.kind = .gStore → x.level ≠ 0
    (¬commits → Waits (.commit id) s)
    ∧ (commits → ∃ t, exec (.commit id) s = .next t
      ∧ t = { s with ents := t.ents, wseq := s.wseq + 1, relLog := t.relLog }
      ∧ t.ents = s.ents.map (fun x => if x.id = id then { e with level := s.wseq } else x)
      ∧ (e.rel ≠ some 0 → t.relLog = s.relLog)
      ∧ (e.rel = some 0 → ∃ r, t.relLog = s.relLog ++ [r] ∧ r.core = e.ag.core ∧ r.key = (noPath e.line).toNat
        ∧ ∀ n, n ∈ r.covers ↔ ∃ x ∈ t.ents, x.id = n ∧ x.kind = .gStore ∧ 0 < x.level ∧ x.ag.core = e.ag.core))
    ∧ (e.kind = .gStore → (e.level = 0 ∨ ahead ∨ ∃ x ∈ older, x.kind = .gStore ∨ x.kind = .gAtomic ∧ x.level = 0) → Waits (.perform id) s)
    ∧ (e.kind = .gStore → 0 < e.level → ¬ahead → (∀ x ∈ older, x.kind ≠ .gStore ∧ (x.kind = .gAtomic → x.level ≠ 0)) → e.path = 0 →
      ∀ key tick, e.resp = .ok key tick → key % 128 = 0 → e.line.toNat % 128 = 0 →
      (∀ i, i < 128 → s.transitOf e.ctx (noPath e.line + BitVec.ofNat 64 i) = none) →
      (∀ i, i < 128 → s.unreachable (key + i) = false) → s.expanderBad key = false → (s.line (key / 128)).poison = false →
      (s.line (key / 128)).written = false ∨ (s.line (key / 128)).tag = none
        ∨ (s.line (key / 128)).tag = some (s.tagFor (ownerOf e.line) e.ctx (noPath e.line)) →
      let at_ := fun (i : Nat) => e.byteAt ((noPath e.line).toNat + i)
      (∃ i, i < 128 ∧ at_ i ≠ none) →
      ∃ t, exec (.perform id) s = .next t ∧ t.groups = s.groups ∧ (∀ x, x ∈ t.ents ↔ x ∈ s.ents ∧ x.id ≠ id)
        ∧ (∀ i, i < 128 → t.mem.read (key + i) = (at_ i).getD (s.mem.read (key + i)))
        ∧ (∀ k, k < key ∨ key + 128 ≤ k → t.mem.read k = s.mem.read k)
        ∧ (t.line (key / 128)).releaser = (if e.rel = some 0 then some e.ag.core else none)
        ∧ (t.line (key / 128)).written = true)
    ∧ (∀ core va, e.kind = .gStore → 0 < e.level → e.ag.core = core → noPath e.line = lineOf (noPath va) →
      (∀ x ∈ s.ents, x.kind = .gStore → 0 < x.level → x.ag.core = core → noPath x.line = lineOf (noPath va) → x = e) →
      s.ents.countP (fun x => x.id == id) = 1 →
      (s.performOk e = false → exec (.l1StoreTimeout core va) s = .next s)
      ∧ (s.performOk e = true → ∀ key tick, e.resp = .ok key tick →
        exec (.l1StoreTimeout core va) s = .next (s.injectAll.performStore e key))
      ∧ (s.performOk e = true → ∀ f tick, e.resp = .bad f tick →
        exec (.l1StoreTimeout core va) s = .next (if s.injectAll.replyOk e then s.injectAll.reply e else s.injectAll)))
    ∧ (let first := fun (kinds : List EKind) => ∀ x ∈ older, x.kind ∉ kinds
      let y : List EKind := [.yLoad, .yStore, .sysr, .sysw]
      let gone := fun (t : State) => ∀ x, x ∈ t.ents ↔ x ∈ s.ents ∧ x.id ≠ id
      (e.kind = .sStore ∨ e.kind = .cStore → ¬(free ∧ first [e.kind]) → Waits (.perform id) s)
      ∧ (e.kind = .yStore ∨ e.kind = .yLoad → ¬(free ∧ first y) → Waits (.perform id) s)
      ∧ (e.kind = .sStore ∨ e.kind = .cStore → free → first [e.kind] → ∀ p core off key tick, e.parts = [p] → e.resp = .ok key tick →
        off < 2 ^ 21 → key + (p.addr - e.line).toNat = scrKey core off → off % 128 + p.width ≤ 128 → p.data.length = p.width →
        s.phaserHit core off p.width = false →
        ((s.line (scrKey core off / 128)).writer = none ∨ (s.line (scrKey core off / 128)).writer = some e.ctx) →
        let K := scrKey core off
        ∃ t, exec (.perform id) s = .next t ∧ t.groups = s.groups ∧ gone t ∧ (t.line (K / 128)).writer = some e.ctx
          ∧ (∀ i, i < p.width → t.mem.read (K + i) = p.data.getD i 0) ∧ ∀ k, k < K ∨ K + p.width ≤ k → t.mem.read k = s.mem.read k)
      ∧ (∀ p key tick, e.parts = [p] → e.resp = .ok key tick →
        let K := sysKey (p.addr.toNat % 2 ^ 48)
        let read := s.mem.readN K p.width
        (e.kind = .yStore → free → first y → p.data.length = p.width →
          ∃ t, exec (.perform id) s = .next t ∧ t.groups = s.groups ∧ gone t
            ∧ (∀ i, i < p.width → t.mem.read (K + i) = p.data.getD i 0) ∧ ∀ k, k < K ∨ K + p.width ≤ k → t.mem.read k = s.mem.read k)
        ∧ (e.kind = .yLoad → free → first y → e.bound = false → e.esc = none → (∀ x ∈ s.ents, x.wid = e.wid → x.id = id) →
          (s.ctxCore e.ctx e.ag.core).saved = [] → (s.group e.ag.core e.ag.slot).live = true →
          (s.group e.ag.core e.ag.slot).tag = e.tag → p.lane < 32 → (0 < e.dstN → e.dstN = if p.width ≤ 4 then 1 else p.width / 4) →
          let g := s.group e.ag.core e.ag.slot
          ∃ t, exec (.perform id) s = .next t ∧ SameBytes s t ∧ gone t
            ∧ (let h := t.group e.ag.core e.ag.slot
            h = { g with v := h.v, under := h.under, splits := h.splits }
            ∧ (p.width = 4 ∨ p.width = 8 →
              ∀ j, j < e.dstN → (h.vreg (e.dst + j) p.lane).toNat = ofBytes ((read.drop (4 * j)).take 4))
            ∧ (∀ r l, l < 32 → (e.dstN = 0 ∨ r < e.dst ∨ e.dst + e.dstN ≤ r ∨ l ≠ p.lane) → h.vreg r l = g.vreg r l)
            ∧ ∀ n d, n < 8 → (g.split n).status ≠ .absent → (g.split n).uid ∈ e.owners → e.sdst = some d → p.width = 4 →
              ((h.split n).sreg d).toNat = ofBytes read))))
    ∧ (s.probeWaits e = false → Waits (.promoteProbe id) s)
    ∧ (s.probeWaits e = true → ∀ key tick c, e.resp = .ok key tick →
      (s.line ((s.serve e.ctx (noPath e.line) key).1 / 128)).releaser = some c →
      (∀ r ∈ s.relLog, r.core = c → r.key = (noPath e.line).toNat → r.covers = []) →
      exec (.promoteProbe id) s =
        .next (s.setEnt { e with probed := some (s.lineVer ((s.serve e.ctx (noPath e.line) key).1 / 128)) }))

/-- A load packet completes when no older acquire or fence of its split is incomplete, no older load of its bytes is in the pool and
no older atomic of its bytes is unperformed, nothing that it takes from the home order is earlier than what its split has read of it, and
its reply is the next on the cluster's channel: those that its home sent to the cluster before have landed (R99), and of those that wait
none carries an older stamp, or of the same stamp comes first in ring order (R96, R97); a load that a racing word has read early has its bytes already
(R10, log 11); each byte comes from the first source of R266 that holds it, the lanes land with the
extension of R237, a scalar load lands in the splits that own it, and the entry is gone. A byte that an older store of the split
holds is the youngest such store's. Of one word's lanes that read the same bytes on untranslated paths, all take what the first takes
(R240). An escort set is written back as it left, and USED, EABR and the home window are lowered by it, whatever the reply brings; the reply of an atomic
writes the returned values into the lanes of its packet; and that of a prefetch brings a clean copy of its line, or its home slice holds the line, with no
register written, and a fault brings nothing (R60, R158, R245, R250). HEATR's value lands in its register (R158, R237, R245, R264, R266, R274), for a page in STATE 2 or a context without a key as log 79
reads R94. -/
def Obligations.LoadCompletes : Prop :=
  (∀ (s : State) (id : Nat) (e : Entry), s.ent id = some e → e.kind = .load →
    let core := e.ag.core
    let slot := e.ag.slot
    let g := s.group core slot
    let older := s.older e
    let meets := fun (x : Entry) => ∃ b c, (b, c) ∈ e.bytes ∧ x.covers b = true
    let free := (∀ x ∈ older, x.wid ≠ e.wid → x.acq = none ∧ x.kind ≠ .fence)
      ∧ (∀ x ∈ older, x.kind = .load → ¬meets x)
      ∧ (∀ x ∈ older, x.kind = .gAtomic → x.level = 0 → ¬meets x)
      ∧ ∀ p ∈ e.parts, ∀ i, i < p.width →
        let a := p.addr + BitVec.ofNat 64 i
        s.source1 e (e.spot a) = none → s.source2 e (e.spot a) = none → s.source3 e a (s.mustGoHome e) = none →
        ∀ v n, s.source4 e a = some ⟨v, .home n⟩ →
        ∀ f ∈ s.floors, f.uid = e.uid → f.addr.toNat = e.spot a → ∃ m, f.fl = .home m ∧ m ≤ n
    let byte := fun (p : Part) (i : Nat) =>
      if e.bound then p.data[i]? else (s.takeByte e (p.addr + BitVec.ofNat 64 i) (s.mustGoHome e)).map (·.byte)
    let image := fun (p : Part) (j : Nat) (v : Word) =>
      ∀ i, i < 32 → 8 * (4 * j) + i < 8 * p.width → ∀ b, byte p (4 * j + i / 8) = some b → v.getLsbD i = b.getLsbD (i % 8)
    (e.resp = .none → Waits (.completeLoad id) s)
    ∧ (∀ key tick, e.resp = .ok key tick → e.bound = false → ¬free → Waits (.completeLoad id) s)
    ∧ (∀ key tick, e.resp = .ok key tick → e.bound = false → s.fromHome e = true →
      let stamp := (e.inj.map (·.1)).getD s.chframe
      (s.replyNext e = false → Waits (.completeLoad id) s)
      ∧ ∀ x ∈ s.ents, x.id ≠ e.id → x.ag.core / 8 = core / 8 → translated x.path = true → ∀ f sent, x.resp = .bad f sent →
        (ownerOf x.line = ownerOf e.line → sliceOf x.line = sliceOf e.line → sent < s.tick → Waits (.completeLoad id) s)
        ∧ (s.repliesBefore x = true → ∀ fx nx, x.inj = some (fx, nx) → fx ≠ stamp → (stamp - fx).toNat ≤ 2 ^ 31 →
          Waits (.completeLoad id) s))
    ∧ (∀ key tick, e.resp = .ok key tick → e.bound = true ∨ free ∧ (s.fromHome e = false ∨ s.replyNext e = true) →
      (e.bound = true → ∀ p ∈ e.parts, p.data.length = p.width) → s.probeWaits e = false → e.acq = none →
      g.live = true → g.tag = e.tag → (∀ p ∈ e.parts, ∀ i, i < p.width → byte p i ≠ none) →
      (s.ctxCore e.ctx core).saved = [] → e.parts.Pairwise (fun p q => p.lane ≠ q.lane) →
      (∀ p ∈ e.parts, p.lane < 32 ∧ p.width ∈ [1, 2, 4, 8, 16] ∧ (e.dstN > 0 → e.dstN = if p.width ≤ 4 then 1 else p.width / 4)) →
      ∃ t, exec (.completeLoad id) s = .next t ∧ SameBytes s t
        ∧ (translated e.path = true ∨ e.bound = true ∨ (∀ x ∈ s.ents, x.wid = e.wid → x.id = id) →
          ∀ x, x ∈ t.ents ↔ x ∈ s.ents ∧ x.id ≠ id)
        ∧ (∀ x ∈ t.ents, ∃ y ∈ s.ents, y.id ≠ id ∧ x = { y with parts := x.parts } ∧ (y.wid ≠ e.wid → x = y))
        ∧ (translated e.path = false → e.bound = false → ∀ p, e.parts = [p] → ∀ y ∈ s.ents, ∀ q, y.parts = [q] → y.wid = e.wid →
          y.kind = .load → y.id ≠ id → translated y.path = false → q.data = [] → q.width = p.width →
          (∀ i, i < p.width → y.spot (q.addr + BitVec.ofNat 64 i) = e.spot (p.addr + BitVec.ofNat 64 i)) →
          ∃ bs, bs.length = p.width ∧ (∀ i, i < p.width → byte p i = bs[i]?) ∧ { y with parts := [{ q with data := bs }] } ∈ t.ents)
        ∧ (∀ c q, slotKey c q ≠ slotKey core slot → t.group c q = s.group c q)
        ∧ (let h := t.group core slot
        h = { g with v := h.v, under := h.under, splits := h.splits } ∧ RowsKept g h
        ∧ SetLands s t e g h
        ∧ (∀ p ∈ e.parts, ∀ j, j < e.dstN →
          let v := h.vreg (e.dst + j) p.lane
          image p j v ∧ (p.width < 4 → ∀ i, 8 * p.width ≤ i → i < 32 →
            v.getLsbD i = ((e.op = 0x58 ∨ e.op = 0x5A) && (e.fn = 1 ∨ e.fn = 3) && v.getLsbD (8 * p.width - 1))))
        ∧ ∀ n, n < 8 →
          ((g.split n).status ≠ .absent → (g.split n).uid ∈ e.owners → ∀ d p ps, e.sdst = some d → e.parts = p :: ps → p.width = 4 →
            (∀ q, q ≠ d → (h.split n).sreg q = (g.split n).sreg q) ∧ image p 0 ((h.split n).sreg d))
          ∧ ((g.split n).uid ∉ e.owners ∨ e.sdst = none → h.split n = g.split n))))
  ∧ (∀ (s : State) (e : Entry) (a : DWord) (noCopy : Bool),
    (∀ t, s.source1 e (e.spot a) = some t → s.takeByte e a noCopy = some t)
    ∧ (s.source1 e (e.spot a) = none → ∀ t, s.source2 e (e.spot a) = some t → s.takeByte e a noCopy = some t)
    ∧ (s.source1 e (e.spot a) = none → s.source2 e (e.spot a) = none →
      (∀ t, s.source3 e a noCopy = some t → s.takeByte e a noCopy = some t)
      ∧ (s.source3 e a noCopy = none → s.takeByte e a noCopy = s.source4 e a))
    ∧ (e.path = 1 ∨ e.path = 4 → s.source1 e (e.spot a) = none ∧ s.source2 e (e.spot a) = none)
    ∧ (e.path = 2 ∨ e.path = 3 → s.source2 e (e.spot a) = none ∧ s.source3 e a noCopy = none)
    ∧ (e.path = 0 → ∀ x ∈ s.older e, x.kind = .gStore → x.covers (e.spot a) = true →
      (0 < x.level → ∀ z ∈ s.ents, z.kind = .save → z.sameLine x = true → x.level < z.level → z.covers (e.spot a) = false) →
      (∀ y ∈ s.older e, y.kind = .gStore → y.covers (e.spot a) = true → y.id ≤ x.id ∧ (y.id = x.id → y = x)) →
      (s.takeByte e a noCopy).map (·.byte) = x.byteAt (e.spot a)))
  ∧ (∀ (s : State) (id : Nat) (e : Entry), s.ent id = some e → e.kind = .gAtomic →
    let g := s.group e.ag.core e.ag.slot
    ∀ key tick, e.resp = .ok key tick →
      (e.level = 0 ∨ s.replyNext e = false → Waits (.completeLoad id) s)
      ∧ (0 < e.level → s.replyNext e = true → e.acq = none → g.live = true → g.tag = e.tag → (s.ctxCore e.ctx e.ag.core).saved = [] →
        e.parts.Pairwise (fun p q => p.lane ≠ q.lane) →
        (∀ p ∈ e.parts, p.lane < 32 ∧ p.data.length = p.width ∧ (p.width = 4 ∨ p.width = 8) ∧ (0 < e.dstN → e.dstN = p.width / 4)) →
        e.op ≠ 0x58 → e.op ≠ 0x5A →
        ∃ t, exec (.completeLoad id) s = .next t ∧ SameBytes s t ∧ (∀ x, x ∈ t.ents ↔ x ∈ s.ents ∧ x.id ≠ id)
          ∧ (∀ c q, slotKey c q ≠ slotKey e.ag.core e.ag.slot → t.group c q = s.group c q)
          ∧ (let h := t.group e.ag.core e.ag.slot
          h = { g with v := h.v, under := h.under, splits := h.splits } ∧ RowsKept g h ∧ (∀ n, n < 8 → h.split n = g.split n)
          ∧ SetLands s t e g h
          ∧ ∀ p ∈ e.parts, ∀ j, j < e.dstN → (h.vreg (e.dst + j) p.lane).toNat = ofBytes ((p.data.drop (4 * j)).take 4))))
  ∧ (∀ (s : State) (e : Entry), e ∈ s.ents →
    let g := s.group e.ag.core e.ag.slot
    g.live = true → g.tag = e.tag → (s.ctxCore e.ctx e.ag.core).saved = [] →
    let t := s.landBad e
    let h := t.group e.ag.core e.ag.slot
    SameBytes s t ∧ (∀ x, x ∈ t.ents ↔ x ∈ s.ents ∧ x.id ≠ e.id) ∧ SetLands s t { e with dstN := 0 } g h)
  ∧ (∀ (s : State) (id : Nat) (e : Entry), s.ent id = some e → e.kind = .prefetch →
    let u := (if translated e.path then s.noteReply e.writer e.line else s).dropEnt id
    let line := lineOf (noPath e.line)
    let cls := classOf e.path
    (e.resp = .none ∨ s.replyNext e = false → Waits (.completeLoad id) s)
    ∧ (e.resp ≠ .none → s.replyNext e = true →
      ∃ t, exec (.completeLoad id) s = .next t ∧ SameBytes s t ∧ t.groups = s.groups ∧ (∀ x, x ∈ t.ents ↔ x ∈ s.ents ∧ x.id ≠ id)
        ∧ ((∃ f tick, e.resp = .bad f tick) → t = u)
        ∧ ∀ key tick, e.resp = .ok key tick →
          (e.fn = 0 → ∀ k l bs, (u.ownerLook e.ctx none .load line).1 = .ok (k, l) →
            ((u.ownerLook e.ctx none .load line).2.homeRead e.ctx line k 128).1 = some bs → cls ≠ .compressed →
            ∃ c ∈ t.copies, c.core = e.ag.core ∧ c.cls = cls ∧ c.ctx = e.ctx ∧ c.line = line ∧ c.bytes = bs)
          ∧ (e.fn ≠ 0 → t.copies = s.copies
            ∧ ((u.homeRead e.ctx (noPath e.line) key 1).1 ≠ none → t.inL2 (u.serve e.ctx (noPath e.line) key).1 = true))))
  ∧ ∀ (s : State) (id : Nat) (e : Entry), s.ent id = some e → e.kind = .heatr → e.esc = none → nodeOf e.line = s.node.toNat →
    (s.requestOk e = false ∨ s.homeReady e.ctx (noPath e.line) = false ∨ s.replyNext e = false → Waits (.completeLoad id) s)
    ∧ (s.requestOk e = true → s.replyNext e = true → (s.group e.ag.core e.ag.slot).live = true →
      (s.group e.ag.core e.ag.slot).tag = e.tag → (s.ctxCore e.ctx e.ag.core).saved = [] →
      ∃ t, exec (.completeLoad id) s = .next t ∧ SameBytes s t ∧ (∀ x, x ∈ t.ents ↔ x ∈ s.ents ∧ x.id ≠ id)
        ∧ ∀ n d, n < 8 → ((s.group e.ag.core e.ag.slot).split n).status ≠ .absent →
          ((s.group e.ag.core e.ag.slot).split n).uid ∈ e.owners → e.sdst = some d →
          ((t.group e.ag.core e.ag.slot).split n).sreg d = s.heatValue e)

/-- The service group applies a packet's lanes in order, each to the value that the lane before it left, and keeps each lane's old
value for the reply; the operations are those of R249. It works under the key of the die that holds the frame, a peer's for an aperture
page (R66). An uncorrectable error writes nothing and poisons the line, and its copy where a move has copied it (R81, R83, R248, R249,
R251); its reply is sent then, and lands at once where it is the next on the cluster's channel (R96, R99). -/
def Obligations.AtomicService : Prop :=
  (∀ (fn old v cmp : Nat), old < 2 ^ 32 → v < 2 ^ 32 →
    let r := atomNew fn old v cmp
    let sg := IntValue true 32
    (fn = 0 ∨ fn = 1 → r = (old + v) % 2 ^ 32) ∧ (fn = 2 → r = f32.roundWord 0 ((f32.decode old).add (f32.decode v) false))
    ∧ (fn = 3 → r % 65536 = b16.roundWord 0 ((b16.decode (old % 65536)).add (b16.decode (v % 65536)) false)
      ∧ r / 65536 = b16.roundWord 0 ((b16.decode (old / 65536)).add (b16.decode (v / 65536)) false))
    ∧ (fn = 4 → sg r = min (sg old) (sg v)) ∧ (fn = 5 → sg r = max (sg old) (sg v)) ∧ (fn = 6 → r = min old v)
    ∧ (fn = 7 → r = max old v) ∧ (fn = 8 → r = old &&& v) ∧ (fn = 9 → r = old ||| v) ∧ (fn = 10 → r = old ^^^ v)
    ∧ (fn = 11 ∨ fn = 14 → r = v) ∧ (fn = 12 ∨ fn = 15 → r = if old = cmp then v else old)
    ∧ (fn = 13 → r = if v ≤ old then 0 else old + 1))
  ∧ ∀ (s : State) (id : Nat) (e : Entry), s.ent id = some e →
    (e.kind ≠ .gAtomic ∨ e.resp = .none ∨ s.performOk e = false ∨ s.probeWaits e = true →
      ∀ err, Waits (.serviceGroupAtomic id err) s)
    ∧ (e.kind = .gAtomic → ∀ key tick, e.resp = .ok key tick → s.performOk e = true → s.probeWaits e = false → e.path = 0 →
      ∀ (a : DWord) (width : Nat), (∀ p ∈ e.parts, p.addr = a ∧ p.width = width) → e.parts ≠ [] → width = 4 ∨ width = 8 →
      let va := noPath a
      let k := key + (a - e.line).toNat
      s.transitOf e.ctx va = none → s.transitOf e.ctx (noPath e.line) = none →
      s.unreachable k = false → s.expanderBad k = false → k % 128 + width ≤ 128 → (s.line (k / 128)).poison = false →
      (s.line (k / 128)).written = false ∨ (s.line (k / 128)).tag = some (s.tagFor (k / 2 ^ 50) e.ctx va) →
      let operand := fun (p : Part) => ofBytes (p.data.take width)
      let value := fun (p : Part) => if e.fn = 12 ∨ e.fn = 15 then ofBytes (p.data.drop width) else operand p
      let after := fun (n : Nat) => (e.parts.take n).foldl (fun old p => atomNew e.fn old (value p) (operand p) % 2 ^ (8 * width))
        (ofBytes (s.mem.readN k width))
      ∃ t, exec (.serviceGroupAtomic id false) s = .next t ∧ t.groups = s.groups
        ∧ ofBytes (t.mem.readN k width) = after e.parts.length
        ∧ (∀ j, j < k ∨ k + width ≤ j → t.mem.read j = s.mem.read j)
        ∧ (e.dstN = 0 → e.acq = none → ∀ x, x ∈ t.ents ↔ x ∈ s.ents ∧ x.id ≠ id)
        ∧ (e.dstN ≠ 0 → ∃ x, t.ent id = some x ∧ x = { e with parts := x.parts, level := x.level, resp := .ok key s.tick }
          ∧ x.parts.length = e.parts.length
          ∧ ∀ (n : Nat) (p : Part), x.parts[n]? = some p → ofBytes p.data = after n ∧ p.data.length = width))
    ∧ (e.kind = .gAtomic → ∀ key tick, e.resp = .ok key tick → s.performOk e = true → s.probeWaits e = false →
      let fail : Fail := ⟨.poison, .none, (e.parts.head?.map (·.addr)).getD 0⟩
      (s.transitOf e.ctx (noPath e.line) = none →
        exec (.serviceGroupAtomic id true) s = .next ((s.poisonLine key).answerBad e fail))
      ∧ ∀ src dst, s.serve e.ctx (noPath e.line) key = (src, some dst) →
        exec (.serviceGroupAtomic id true) s = .next (((s.poisonLine src).poisonLine dst).answerBad e fail))
    ∧ ∀ f : Fail,
      let b := { e with resp := .bad f s.tick }
      s.answerBad e f = if (s.setEnt b).replyNext b then (s.setEnt b).reply b else s.setEnt b


/-! ### The allocation, phasers and the event queue (R139-R144, R150-R152, R253-R260) -/

/-- REGGROW and REGSHRINK: a count of 0, a grow past 20 granules and a shrink below 1 take ILLEGAL_OPERAND; a grow that R150 grants,
and that no earlier one of the slot still waits before, adds k granules and clears the flag; one that it does not grant sets the
flag under .try, and waits in its order otherwise. A shrink takes k granules away once every lane word enqueued before it has
issued and none of the registers is pending, and waits until then. REGGROW_RETRY grants the oldest waiting grow, and
REGSHRINK_RELEASE a waiting shrink, when they may go (R150, R152). -/
def Obligations.Allocation : Prop :=
  let grown := fun (s t : State) (k : Nat) => SameBytes s t ∧ OtherSlots s t ∧ FallsThrough s t ∧ t.ents = s.ents
    ∧ t.curGroup = { s.curGroup with g := s.curGroup.g + k, v := t.curGroup.v, under := t.curGroup.under, splits := t.curGroup.splits }
    ∧ (∀ r l, l < 32 → r < 32 * s.curGroup.g → t.curGroup.vreg r l = s.curGroup.vreg r l)
    ∧ (∀ n, n ≠ s.cur.split → t.curGroup.split n = s.curGroup.split n)
    ∧ t.curSplit.flag = false ∧ t.curSplit.s = s.curSplit.s ∧ t.curSplit.a = s.curSplit.a ∧ t.curSplit.wait = .none
  let shrunk := fun (s t : State) (k : Nat) => SameBytes s t ∧ OtherSlots s t ∧ FallsThrough s t ∧ t.ents = s.ents
    ∧ t.curGroup = { s.curGroup with g := s.curGroup.g - k, splits := t.curGroup.splits }
    ∧ (∀ n, n ≠ s.cur.split → t.curGroup.split n = s.curGroup.split n)
    ∧ t.curSplit.flag = s.curSplit.flag ∧ t.curSplit.s = s.curSplit.s ∧ t.curSplit.a = s.curSplit.a ∧ t.curSplit.wait = .none
  let at_ := fun (s : State) (ag : Agent) => ({ s with cur := ag, curLane := false } : State)
  (∀ (s : State) (b : BitVec 6) (imm try_ : Bool), Landed s (if imm then [] else [b.toNat]) →
    let k := (if imm then b.setWidth 32 else s.curSplit.sreg b.toNat).toNat
    let g := s.curGroup.g
    let grants := s.growGrant s.cur.core s.cur.slot k = true ∧ s.growBehind s.cur (s.core s.cur.core).growNext = false
    (k = 0 ∨ 20 < g + k → exec (.reggrow b imm try_) s = .next (s.scalarTrap .illegalOperand))
    ∧ (k = 0 ∨ g ≤ k → exec (.regshrink b imm) s = .next (s.scalarTrap .illegalOperand))
    ∧ (0 < k → g + k ≤ 20 →
      (grants → ∃ t, exec (.reggrow b imm try_) s = .next t ∧ grown s t k)
      ∧ (¬grants → try_ = true →
        ∃ t, exec (.reggrow b imm try_) s = .next t ∧ ScalarFrame s t [] [] ∧ FallsThrough s t ∧ t.curSplit.flag = true)
      ∧ (¬grants → try_ = false → ∃ t, exec (.reggrow b imm try_) s = .next t ∧ SameBytes s t ∧ OtherSlots s t ∧ SplitAlone s t
        ∧ t.curSplit = { s.curSplit with wait := .grow k (s.core s.cur.core).growNext }
        ∧ (t.core s.cur.core).growNext = (s.core s.cur.core).growNext + 1))
    ∧ (0 < k → k < g →
      (s.shrinkOk s.cur k s.curGroup.enq = true → ∃ t, exec (.regshrink b imm) s = .next t ∧ shrunk s t k)
      ∧ (s.shrinkOk s.cur k s.curGroup.enq = false → ∃ t, exec (.regshrink b imm) s = .next t ∧ GroupsOnly s t ∧ OtherSlots s t
        ∧ SplitAlone s t ∧ t.curSplit = { s.curSplit with wait := .shrink k s.curGroup.enq })))
  ∧ (∀ (s : State) (core : Nat),
    (s.growWaits core = [] → Waits (.reggrowRetry core) s)
    ∧ ∀ o ag k, (o, ag, k) ∈ s.growWaits core → (∀ w ∈ s.growWaits core, w ≠ (o, ag, k) → o < w.1) →
      s.stateOn (s.groupOf ag).ctx core = .running → (s.groupOf ag).g + k ≤ 20 → s.growGrant core ag.slot k = true →
      ∃ t, exec (.reggrowRetry core) s = .next t ∧ t.cur = ag ∧ grown (at_ s ag) t k)
  ∧ ∀ (s : State) (ag : Agent) (k barrier : Nat), (s.splitOf ag).wait = .shrink k barrier → k < (s.groupOf ag).g →
    (s.groupOf ag).live = true → s.stateOn (s.groupOf ag).ctx ag.core = .running →
    (s.shrinkOk ag k barrier = true → ∃ t, exec (.regshrinkRelease ag) s = .next t ∧ t.cur = ag ∧ shrunk (at_ s ag) t k)
    ∧ (s.shrinkOk ag k barrier = false → Waits (.regshrinkRelease ag) s)

/-- PHINIT, PHROLE and PHFREE: a misaligned address takes ALIGN, a path other than 0x2 and 0x3 takes PATH, and every other failing
address its fault. PHINIT writes the object of R253, or sets the flag where a limit of R256 is met; PHROLE records the change of
registration for the next phase boundary, and refuses one that leaves its range; PHFREE frees an object on which nothing waits,
and the jobs that were to arrive on it find it gone (R129), and an arrival that still crosses to it is refused (R258), and sets the flag otherwise; a configuration out of its ranges, a live object
under PHINIT and one that is not live under the others take ILLEGAL_OPERAND, the configuration before the address (R36, R253, R256, R257,
R260). That a place of another core is reached, and that PHROLE acts on it in its own step, is log 50 (DEDUCED). -/
def Obligations.PhaserObjects : Prop :=
  ∀ (s : State) (a b : BitVec 6) (src dst : BitVec 2), a.toNat % 2 = 0 → Landed s [a.toNat, a.toNat + 1] → s.phaserWaits = false →
    let va := s.curSplit.spair a.toNat
    let x := s.curSplit.sreg b.toNat
    let nsig := x.toNat % 4096
    let cfg := 1 ≤ nsig ∧ x.toNat / 2 ^ 24 ≤ 4
    let all := fun (o : Out) => Landed s [b.toNat] →
      (cfg → exec (.phinit a b) s = o) ∧ exec (.phfree a) s = o ∧ exec (.phrole a src dst) s = o
    (Landed s [b.toNat] → ¬cfg → exec (.phinit a b) s = .next (s.scalarTrap .illegalOperand))
    ∧ (va.toNat % 16 ≠ 0 → all (.next (s.scalarFault ⟨.align, .none, va⟩)))
    ∧ (va.toNat % 16 = 0 → pathOf va ≠ 2 → pathOf va ≠ 3 → all (.next (s.scalarFault ⟨.path, .none, va⟩)))
    ∧ (∀ f, s.phaserPlace va false = .error f → all (.next (s.scalarFault f)))
    ∧ (∀ core off, s.phaserPlace va false = .ok (core, off) →
      let o := s.obj core off
      let K := scrKey core off
      let live := s.objLive core off
      let here := core = s.cur.core
      let writes := fun (i : Instr) (flag : Bool) (p : PhObj) =>
        ∃ t, exec i s = .next t ∧ ObjFrame s t K ∧ FallsThrough s t ∧ t.curSplit.flag = flag ∧ t.curSplit.s = s.curSplit.s
          ∧ t.obj core off = p ∧ t.objLive core off = p.live
      let flags := fun (i : Instr) =>
        ∃ t, exec i s = .next t ∧ ScalarFrame s t [] [] ∧ FallsThrough s t ∧ t.curSplit.flag = true
      let limit := ((s.unitOf s.curGroup).map (·.phn)).getD 0
      let full := limit ≤ ((s.core core).phasers.filter fun p => p.unit == s.curGroup.unit).length
        ∨ 128 ≤ (s.core core).phasers.length
      (¬here → (Landed s [b.toNat] → cfg → exec (.phinit a b) s = .next (s.scalarFault ⟨.path, .none, va⟩))
        ∧ exec (.phfree a) s = .next (s.scalarFault ⟨.path, .none, va⟩))
      ∧ (here → s.curSplit.queue ≠ [] → (Landed s [b.toNat] → cfg → Waits (.phinit a b) s) ∧ Waits (.phfree a) s)
      ∧ (here → s.curSplit.queue = [] → Landed s [b.toNat] →
        (live = true → exec (.phinit a b) s = .next (s.scalarTrap .illegalOperand))
        ∧ (live = false → cfg → s.objBusy core off = true → Waits (.phinit a b) s)
        ∧ (live = false → cfg → s.objBusy core off = false → full → flags (.phinit a b))
        ∧ (live = false → cfg → s.objBusy core off = false → ¬full → writes (.phinit a b) false
          { ph := 0, nsig := nsig, arr := 0, nwait := x.toNat / 4096 % 4096, dsig := 0, dwait := 0, scope := x.toNat / 2 ^ 24,
            wpend := 0, live := true }))
      ∧ (here → s.curSplit.queue = [] →
        (live = false → exec (.phfree a) s = .next (s.scalarTrap .illegalOperand))
        ∧ (live = true → 0 < o.wpend → flags (.phfree a))
        ∧ (live = true → o.wpend = 0 →
          let lost := fun (x : Entry) => x.kind = .arrive ∧ ∃ key tick, x.resp = .ok key tick ∧ key + (x.firstAddr - x.line).toNat = K
          ((∀ x ∈ s.ents, ¬lost x) → writes (.phfree a) false { o with live := false })
          ∧ ∃ t, exec (.phfree a) s = .next t
            ∧ (∀ x ∈ s.ents, (lost x → { x with resp := .bad ⟨.illegalOperand, .none, x.firstAddr⟩ s.tick } ∈ t.ents)
              ∧ (¬lost x → x ∈ t.ents))
            ∧ ∀ cl, (t.cluster cl).window = (s.cluster cl).window.map fun c =>
            if c.unit = s.curGroup.unit ∧ c.phv = true ∧ c.phoff = off - ((s.unitOf s.curGroup).map (·.pbase)).getD 0 then
              { c with phgone := true } else c))
      ∧ (let sig := fun (r : BitVec 2) => (if r.toNat = 1 ∨ r.toNat = 3 then 1 else 0 : Int)
        let wait := fun (r : BitVec 2) => (if r.toNat = 2 ∨ r.toNat = 3 then 1 else 0 : Int)
        let dsig := o.dsig + sig dst - sig src
        let dwait := o.dwait + wait dst - wait src
        let good := live = true ∧ 1 ≤ o.nsig + dsig ∧ o.nsig + dsig ≤ 4095 ∧ 0 ≤ o.nwait + dwait ∧ o.nwait + dwait ≤ 4095
          ∧ -128 ≤ dsig ∧ dsig ≤ 127 ∧ -128 ≤ dwait ∧ dwait ≤ 127
        (good → ∃ t, exec (.phrole a src dst) s = .next t ∧ ObjFrame s t K ∧ FallsThrough s t
          ∧ t.curSplit.flag = s.curSplit.flag ∧ t.curSplit.s = s.curSplit.s ∧ t.obj core off = { o with dsig := dsig, dwait := dwait })
        ∧ (here → ¬good → exec (.phrole a src dst) s = .next (s.scalarTrap .illegalOperand))))

/-- PHARR and PHWAIT, and PHASER_ARRIVE for an arrival that crossed the network: an arrival adds 1 to ARR and leaves PH, or completes
the phase, applies DSIG and DWAIT and ends every wait whose target is now before PH; it returns the PH before it and waits for the
split's release, which no array word of the split may hold back by rows that it has to read still (R221, R268). PHWAIT completes once PH is after its target; .try sets the flag instead of waiting; and a wait raises WPEND
(R254, R258, R259). That a PHWAIT on another core's object acts and registers there at its own turn is log 50 (DEDUCED). -/
def Obligations.PhaserPhases : Prop :=
  (∀ (s : State) (d a b : BitVec 6) (try_ : Bool) (core off : Nat), a.toNat % 2 = 0 → Landed s [a.toNat, a.toNat + 1] →
    s.phaserWaits = false → s.phaserPlace (s.curSplit.spair a.toNat) false = .ok (core, off) → s.curSplit.queue = [] →
    let o := s.obj core off
    let K := scrKey core off
    let live := s.objLive core off
    let here := core = s.cur.core
    let va := s.curSplit.spair a.toNat
    let after := fun (ph t : Word) => (ph - 1 - t).toNat < 2 ^ 31
    let after1 := ({ o with
      ph := o.ph + 1, arr := 0, nsig := (o.nsig + o.dsig).toNat, nwait := (o.nwait + o.dwait).toNat, dsig := 0, dwait := 0 } : PhObj)
    (∀ w, s.curGroup.arr = some w → w.reads = true → w.own s.curSplit.uid = true → ∀ scope, s.released scope = false)
    ∧ (here → live = false → exec (.pharr d a) s = .next (s.scalarTrap .illegalOperand))
    ∧ (here → live = true → s.released o.scope = false → Waits (.pharr d a) s)
    ∧ (here → live = true → s.released o.scope = true →
      (o.arr + 1 < o.nsig → ∃ t, exec (.pharr d a) s = .next t ∧ ObjFrame s t K ∧ FallsThrough s t
        ∧ t.curSplit.flag = s.curSplit.flag ∧ t.curSplit.sreg d.toNat = o.ph
        ∧ (∀ n, n ≠ d.toNat → t.curSplit.sreg n = s.curSplit.sreg n) ∧ t.obj core off = { o with arr := o.arr + 1 })
      ∧ (o.arr + 1 = o.nsig → 1 ≤ o.nsig + o.dsig → o.nsig + o.dsig ≤ 4095 → 0 ≤ o.nwait + o.dwait → o.nwait + o.dwait ≤ 4095 →
        (∀ w ∈ s.waitersAt core off, w.1 ≠ s.cur) → s.cur.slot < 64 →
        ∃ t, exec (.pharr d a) s = .next t ∧ FallsThrough s t ∧ t.ents = s.ents ∧ t.curSplit.sreg d.toNat = o.ph
          ∧ t.obj core off = { after1 with
              wpend := o.wpend - ((s.waitersAt core off).filter fun w => decide (after (o.ph + 1) w.2.2)).length }
          ∧ ∀ ag e tgt, (ag, e, tgt) ∈ s.waitersAt core off → after (o.ph + 1) tgt →
            (t.splitOf ag).wait = .none ∧ (t.splitOf ag).sreg e = o.ph + 1 ∧ (t.splitOf ag).flag = false))
    ∧ (¬here → s.released o.scope = true → ∃ t e, exec (.pharr d a) s = .next t ∧ RegFrame s t [] [] ∧ FallsThrough s t
      ∧ Enters s t [e] ∧ t.curSplit.flag = s.curSplit.flag ∧ e.kind = .arrive ∧ e.op = 0 ∧ e.sdst = some d.toNat
      ∧ e.owners = [s.curSplit.uid] ∧ e.parts = [⟨0, va, 16, []⟩])
    ∧ (Landed s [b.toNat] →
      let x := s.curSplit.sreg b.toNat
      (here → live = false → exec (.phwait d a b try_) s = .next (s.scalarTrap .illegalOperand))
      ∧ (live = true → after o.ph x → ∃ t, exec (.phwait d a b try_) s = .next t ∧ ObjFrame s t K ∧ SameBytes s t
        ∧ FallsThrough s t ∧ t.curSplit.wait = .none ∧ t.curSplit.flag = false ∧ t.curSplit.sreg d.toNat = o.ph
        ∧ (∀ n, n ≠ d.toNat → t.curSplit.sreg n = s.curSplit.sreg n)
        ∧ (o.scope = 0 → t.copies = s.copies)
        ∧ (o.scope ≠ 0 → ∀ c ∈ t.copies, ¬(c.core = s.cur.core ∧ c.cls = .generic)))
      ∧ (live = true → ¬after o.ph x → try_ = true → ∃ t, exec (.phwait d a b try_) s = .next t
        ∧ ScalarFrame s t [d.toNat] [] ∧ FallsThrough s t ∧ t.curSplit.flag = true ∧ t.curSplit.sreg d.toNat = o.ph)
      ∧ (live = true → ¬after o.ph x → try_ = false → o.wpend < 4095 → ∃ t, exec (.phwait d a b try_) s = .next t
        ∧ ObjFrame s t K ∧ t.curSplit = { s.curSplit with wait := .phaser core off d.toNat x }
        ∧ t.obj core off = { o with wpend := o.wpend + 1 })))
  ∧ ∀ (s : State) (id : Nat) (e : Entry) (key tick core off : Nat), s.ent id = some e → e.kind = .arrive → e.esc = none →
    e.resp = .ok key tick → off < 2 ^ 21 → e.keyAt key e.firstAddr = scrKey core off →
    (s.group e.ag.core e.ag.slot).live = true → (s.group e.ag.core e.ag.slot).tag = e.tag → (s.ctxCore e.ctx e.ag.core).saved = [] →
    let o := s.obj core off
    let holder := fun (t : State) => t.group e.ag.core e.ag.slot
    e.op = 0 → s.objLive core off = true → o.arr + 1 < o.nsig →
    ∃ t, exec (.phaserArrive id) s = .next t ∧ (∀ x, x ∈ t.ents ↔ x ∈ s.ents ∧ x.id ≠ id)
      ∧ t.obj core off = { o with arr := o.arr + 1 }
      ∧ ∀ n d, n < 8 → ((holder s).split n).status ≠ .absent → ((holder s).split n).uid ∈ e.owners → e.sdst = some d →
        ((holder t).split n).sreg d = o.ph

/-- The event queue: EVPOST enters the record of R144 in the slot at EQTAIL and moves the tail on, or drops it, counts the drop and
sets the flag when the queue is full or disabled; EVPOP takes the oldest record into four registers and moves the head on, and an
empty queue makes it wait or, under .try, sets the flag; a SYSW of EQBASE empties the queue, and one of EQHEAD moves the head of a
queue that the control core owns, not past the tail (R139, R140, R143, R144). Both wait for the memory of their slot, and a record that another unit
posts waits for it behind those before it (R358, log 46). That posts and pops go by these registers whatever READY says is
log 87. -/
def Obligations.EventQueue : Prop :=
  let size := fun (c : Ctx) => if c.eqbase.toNat / 16 % 64 = 0 ∧ 4 ≤ c.eqbase.toNat % 16 then 2 ^ (c.eqbase.toNat % 16) else 0
  let slot := fun (s : State) (c : Ctx) (i : Nat) => physKey (4 * s.node.toNat + c.eqbase.toNat / 1024 % 4) 0 (c.eqbase.toNat / 4096 * 4096 + 16 * i)
  let next := fun (i : BitVec 16) (n : Nat) => (i.toNat + 1) % n
  (∀ (s : State) (r : BitVec 6) (try_ : Bool),
    let k := s.curGroup.ctx
    let c := s.ctx k
    let n := size c
    let regs := [r.toNat, r.toNat + 1, r.toNat + 2, r.toNat + 3]
    let full := n = 0 ∨ next c.eqtail n = c.eqhead.toNat % n
    let behind := ∃ p ∈ s.posts, p.1 = k
    (r.toNat % 4 ≠ 0 → exec (.evpop r try_) s = .next (s.scalarTrap .illegalOperand)
      ∧ exec (.evpost r) s = .next (s.scalarTrap .illegalOperand))
    ∧ (r.toNat % 4 = 0 → s.curSplit.queue = [] → s.phaserWaits = false →
      (c.eqOwn = true → exec (.evpop r try_) s = .next (s.scalarFault ⟨.perm, .system, 0⟩))
      ∧ (c.eqOwn = false → n = 0 ∨ c.eqhead = c.eqtail →
        (try_ = false → Waits (.evpop r try_) s)
        ∧ (try_ = true → ∃ t, exec (.evpop r try_) s = .next t ∧ ScalarFrame s t [] [] ∧ FallsThrough s t ∧ t.curSplit.flag = true))
      ∧ (c.eqOwn = false → n ≠ 0 → c.eqhead ≠ c.eqtail → s.memReady (slot s c c.eqhead.toNat) = false → Waits (.evpop r try_) s)
      ∧ (c.eqOwn = false → n ≠ 0 → c.eqhead ≠ c.eqtail → s.memReady (slot s c c.eqhead.toNat) = true →
        ∃ t, exec (.evpop r try_) s = .next t ∧ RegFrame s t regs [] ∧ FallsThrough s t ∧ t.curSplit.flag = false
          ∧ (∀ i, i < 4 → (t.curSplit.sreg (r.toNat + i)).toNat = ofBytes (s.mem.readN (slot s c c.eqhead.toNat + 4 * i) 4))
          ∧ ∃ h : BitVec 16, h.toNat = next c.eqhead n ∧ t.ctx k = { c with eqhead := h })
      ∧ (Landed s regs → s.released 3 = false → Waits (.evpost r) s)
      ∧ (Landed s regs → behind ∨ ¬full ∧ s.memReady (slot s c c.eqtail.toNat) = false → Waits (.evpost r) s)
      ∧ (Landed s regs → s.released 3 = true → full → ¬behind →
        ∃ t, exec (.evpost r) s = .next t ∧ RegFrame s t [] [] ∧ FallsThrough s t ∧ t.curSplit.flag = true
          ∧ t.ctx k = { c with eqDrops := min 65535 (c.eqDrops + 1), eqOvf := true })
      ∧ (Landed s regs → s.released 3 = true → ¬full → ¬behind → s.memReady (slot s c c.eqtail.toNat) = true →
        let K := slot s c c.eqtail.toNat
        ∃ t, exec (.evpost r) s = .next t ∧ OtherSlots s t ∧ SplitAlone s t ∧ FallsThrough s t ∧ t.curSplit.flag = false
          ∧ t.curSplit.s = s.curSplit.s ∧ (∃ h : BitVec 16, h.toNat = next c.eqtail n ∧ t.ctx k = { c with eqtail := h })
          ∧ (∀ i, i < 3 → ofBytes (t.mem.readN (K + 4 * i) 4) = (s.curSplit.sreg (r.toNat + i)).toNat)
          ∧ ofBytes (t.mem.readN (K + 12) 3) = (s.curSplit.sreg (r.toNat + 3)).toNat % 2 ^ 24 ∧ t.mem.read (K + 15) = 2
          ∧ ∀ j, j < K ∨ K + 16 ≤ j → t.mem.read j = s.mem.read j)))
  ∧ (∀ (s : State) (k record : Nat),
    let c := s.ctx k
    let n := size c
    (∃ p ∈ s.posts, p.1 = k) ∨ ¬(n = 0 ∨ next c.eqtail n = c.eqhead.toNat % n) ∧ s.memReady (slot s c c.eqtail.toNat) = false →
    s.postEvent k record = (true, { s with posts := s.posts ++ [(k, record)] }))
  ∧ ∀ (s : State) (val : DWord),
    let k := s.eqsel.toNat
    let c := s.ctx k
    let n := size c
    let v := val.toNat % 65536
    (∃ t, exec (.eqbaseWrite val) s = .next t ∧ t = { s with ctxs := t.ctxs } ∧ t.ctx k = { c with eqbase := val, eqhead := 0, eqtail := 0 }
      ∧ ∀ j, j ≠ k → t.ctx j = s.ctx j)
    ∧ (c.eqOwn = false ∨ n ≤ v → Waits (.eqheadWrite val) s)
    ∧ (c.eqOwn = true → n ≠ 0 → v < n → c.eqhead.toNat < n → c.eqtail.toNat < n →
      let ahead := fun (i : Nat) => (i + n - c.eqhead.toNat) % n
      (ahead v ≤ ahead c.eqtail.toNat → ∃ t, exec (.eqheadWrite val) s = .next t ∧ t = { s with ctxs := t.ctxs }
        ∧ t.ctx k = { c with eqhead := BitVec.ofNat 16 v } ∧ ∀ j, j ≠ k → t.ctx j = s.ctx j)
      ∧ (ahead c.eqtail.toNat < ahead v → Waits (.eqheadWrite val) s))

/-! ### The work hierarchy and the engines (R57-R61, R123-R137, R295-R305, R366) -/

/-- LAUNCH, CCNT and CANCEL. LAUNCH takes ALIGN and PATH for its address; a full inlet makes it wait or sets the flag; and otherwise
once the launch record may be read (R102, R358), the next launch handle goes to S[D] and the flag is cleared, running with every unit to come when the record keeps its rules, and
failed with a COUNT of 0 when it does not, or cannot be read: at another node without the context's key on die 0, whose gateway the read takes (R106,
log 69); the number of a handle is its level and a counter of the model (log 49). CCNT writes the counter word of the object, and all ones with the flag for an invalid
handle. CANCEL of an invalid handle sets the flag; of a completed one it changes nothing; of a launch it cancels the launch and ends
every unit of it; and of the own unit it ends that (R295, R296, R300-R303). CCNT's reply comes in the step in which it issues (log 7). -/
def Obligations.LaunchWords : Prop :=
  ∀ (s : State) (d a : BitVec 6) (try_ byHandle : Bool) (level : BitVec 3),
    let g := s.curGroup
    let va := s.curSplit.spair a.toNat
    let number := 2 ^ 29 + s.nextSer % 2 ^ 29
    let graph := ((s.handle g.launch).map (·.parent)).getD 0
    let keyed := nodeOf va = s.node.toNat ∨ s.keyOn (4 * s.node.toNat) g.ctx = true
    (a.toNat % 2 = 0 → Landed s [a.toNat, a.toNat + 1] →
      (va.toNat % 256 ≠ 0 → exec (.launch d a try_) s = .next (s.scalarFault ⟨.align, .none, va⟩))
      ∧ (va.toNat % 256 = 0 → 1 < pathOf va ∨ s.populated (nodeOf va) = false →
        exec (.launch d a try_) s = .next (s.scalarFault ⟨.path, .none, va⟩))
      ∧ (va.toNat % 256 = 0 → pathOf va ≤ 1 → s.populated (nodeOf va) = true →
        (1024 ≤ s.inletHeld → try_ = false → Waits (.launch d a try_) s)
        ∧ (1024 ≤ s.inletHeld → try_ = true →
          ∃ t, exec (.launch d a try_) s = .next t ∧ ScalarFrame s t [] [] ∧ FallsThrough s t ∧ t.curSplit.flag = true)
        ∧ (s.inletHeld < 1024 → s.released 3 = false → Waits (.launch d a try_) s)
        ∧ (s.inletHeld < 1024 → keyed ∧ (s.homeReady g.ctx (noPath va) = false ∨ s.homeReady g.ctx (noPath (va + 128)) = false)
          ∨ s.mayReadLaunch g.ctx va = false → Waits (.launch d a try_) s)
        ∧ (¬keyed → (s.readLaunch g.ctx va).1 = none)
        ∧ (s.inletHeld < 1024 → s.released 3 = true → s.mayReadLaunch g.ctx va = true →
          let taken := fun (r : LaunchRec) => (s.readLaunch g.ctx va).1 = some r ∧ r.graph = 0 ∧ r.ctx = g.ctx
            ∧ (r.sysp = true → g.sysp = true) ∧ s.takesChild graph 2 g.ctx = true
          ∃ t, exec (.launch d a try_) s = .next t ∧ RegFrame s t [d.toNat] [] ∧ FallsThrough s t ∧ t.curSplit.flag = false
            ∧ (t.curSplit.sreg d.toNat).toNat = number ∧ t.nextSer = s.nextSer + 1
            ∧ (∀ r, taken r → t.handle (BitVec.ofNat 32 number) = some ⟨r.ctx, graph, .running, r.total, true, false, false⟩
              ∧ (∀ p, s.handle graph = some p → t.handle graph = some { p with count := p.count + 1 })
              ∧ ∃ l, t.launches.find? (fun x => x.1 == number) = some (number, l) ∧ l.rec_ = r ∧ l.placed = 0)
            ∧ ((¬∃ r, taken r) → t.launches = s.launches
              ∧ t.handle (BitVec.ofNat 32 number) = some ⟨g.ctx, graph, .failed, 0, true, true, false⟩))))
    ∧ (levelOk byHandle a level = true → (byHandle = true → Landed s [a.toNat]) →
      let h := if byHandle then s.curSplit.sreg a.toNat else s.ancestor g.launch level.toNat
      let own := byHandle = false ∧ level = 0
      let code := fun (x : HStatus) => match x with
        | .running => 0
        | .completed => 1
        | .failed => 2
        | .cancelled => 3
      let reads := fun (i : Instr) (n : Nat) (flag : Bool) =>
        ∃ t, exec i s = .next t ∧ RegFrame s t [d.toNat] [] ∧ FallsThrough s t ∧ t.curSplit.flag = flag
          ∧ (t.curSplit.sreg d.toNat).toNat = n
      let flags := fun (i : Instr) (flag : Bool) =>
        ∃ t, exec i s = .next t ∧ ScalarFrame s t [] [] ∧ FallsThrough s t ∧ t.curSplit.flag = flag
      (own → ∀ u, s.unitOf g = some u → u.left < 2 ^ 30 → reads (.ccnt d a byHandle level) u.left false)
      ∧ (¬own → (∀ x, s.handle h = some x → x.ctx ≠ g.ctx) →
        reads (.ccnt d a byHandle level) 0xFFFFFFFF true ∧ flags (.cancel a byHandle level) true)
      ∧ (¬own → ∀ x, s.handle h = some x → x.ctx = g.ctx →
        reads (.ccnt d a byHandle level) (code x.status * 2 ^ 30 + x.count % 2 ^ 30) false
        ∧ (x.status ≠ .running → flags (.cancel a byHandle level) false)
        ∧ (x.status = .running → h.toNat / 2 ^ 29 = 1 → ∀ l : Launch, s.launches.find? (fun p => p.1 == h.toNat) = some (h.toNat, l) →
          l.complete = false → l.cancelled = false →
          ∃ t, exec (.cancel a byHandle level) s = .next t
            ∧ (∃ m, t.launches.find? (fun p => p.1 == h.toNat) = some (h.toNat, m) ∧ m.cancelled = true)
            ∧ (∃ y, t.handle h = some y ∧ y.cancelling = true)
            ∧ ∀ p ∈ s.units, p.2.launch = h → ∃ u, t.units.find? (fun x => x.1 == p.1) = some (p.1, u) ∧ u.ended = true))
      ∧ (own → ∀ u, s.units.find? (fun p => p.1 == g.unit) = some (g.unit, u) → u.ended = false → u.away = false →
        ∃ t, exec (.cancel a byHandle level) s = .next t
          ∧ (∃ v, t.units.find? (fun p => p.1 == g.unit) = some (g.unit, v) ∧ v.ended = true)
          ∧ ∀ slot ∈ u.slots, (t.group u.core slot).live = false))
    ∧ (a.toNat % 2 = 1 → exec (.launch d a try_) s = .next (s.scalarTrap .illegalOperand))
    ∧ ((byHandle = true ∧ level ≠ 0) ∨ (byHandle = false ∧ (a ≠ 0 ∨ 5 ≤ level.toNat)) →
      exec (.ccnt d a byHandle level) s = .next (s.scalarTrap .illegalOperand)
      ∧ exec (.cancel a byHandle level) s = .next (s.scalarTrap .illegalOperand))

/-- OPEN gives a running object of its level with the next serial number under its parent; CLOSE of an object without children
completes it; RETIRE frees the handle of one that no longer runs; DSRES holds the handle, and its ERR bit is set where a command is
refused (R296, R297). DSITAIL takes a write that keeps the entries held, with whatever the host has written into the new ones (log 71),
and DSI_ENTRY takes the entry at DSIHEAD, once its memory is ready and the launch record that it names may be read (R102, R358), and writes the new handle into it (R297, R298). A handle's serial number is a counter of the model
(log 49). -/
def Obligations.Handles : Prop :=
  (∀ (s : State) (level : BitVec 3) (ctx : BitVec 10) (parent : Word),
    let room := (s.handles.countP fun p => p.1 / 2 ^ 29 == level.toNat) < 65536
    let fits := (level = 4 ∧ parent = 0) ∨ ((level = 2 ∨ level = 3) ∧ ∃ p : Handle, s.handle parent = some p ∧ p.ctx = ctx.toNat
      ∧ p.status = .running ∧ p.closed = false ∧ parent.toNat / 2 ^ 29 = level.toNat + 1)
    let number := level.toNat * 2 ^ 29 + s.nextSer % 2 ^ 29
    (¬(room ∧ fits) → exec (.openHandle level ctx parent) s =
      .next { s with ds := { s.ds with res := s.ds.res ||| 0x8000000000000000#64 } })
    ∧ (room → fits → ∃ t, exec (.openHandle level ctx parent) s = .next t
      ∧ t = { s with handles := t.handles, nextSer := s.nextSer + 1, ds := { s.ds with res := BitVec.ofNat 64 number } }
      ∧ t.handle (BitVec.ofNat 32 number) = some ⟨ctx.toNat, parent, .running, 0, false, false, false⟩
      ∧ ∀ p, s.handle parent = some p → parent.toNat / 2 ^ 29 = level.toNat + 1 →
        t.handle parent = some { p with count := p.count + 1 }))
  ∧ (∀ (s : State) (h : Word),
    let refused := fun (i : Instr) => exec i s = .next { s with ds := { s.ds with res := s.ds.res ||| 0x8000000000000000#64 } }
    (s.handle h = none ∨ h.toNat / 2 ^ 29 < 2 → refused (.closeHandle h))
    ∧ (∀ x, s.handle h = some x → 2 ≤ h.toNat / 2 ^ 29 →
      ∃ t, exec (.closeHandle h) s = .next t ∧ t = { s with handles := t.handles, ds := { s.ds with res := h.setWidth 64 } }
        ∧ ∃ y, t.handle h = some y ∧ y.closed = true
          ∧ (x.count ≠ 0 ∨ x.status ≠ .running → y = { x with closed := true })
          ∧ (x.count = 0 → x.status = .running → y.status =
            if x.cancelling then .cancelled else if x.failing then .failed else .completed))
    ∧ (s.handle h = none ∨ (∃ x, s.handle h = some x ∧ x.status = .running) → refused (.retireHandle h))
    ∧ (∀ x, s.handle h = some x → x.status ≠ .running →
      ∃ t, exec (.retireHandle h) s = .next t ∧ t = { s with handles := t.handles, ds := { s.ds with res := h.setWidth 64 } }
        ∧ t.handle h = none ∧ ∀ k, k ≠ h → t.handle k = s.handle k))
  ∧ ∀ (s : State) (val : DWord),
    let b := s.ds.ibase.toNat
    let n := if b / 16 % 64 = 0 ∧ b % 16 ≠ 0 then 2 ^ (b % 16) else 0
    let ahead := fun (i : Nat) => (i + n - s.ds.ihead.toNat % n) % n
    let K := physKey (4 * s.node.toNat + b / 1024 % 4) 0 (b / 4096 * 4096 + 16 * s.ds.ihead.toNat)
    let v := val.toNat % 65536
    (n = 0 ∨ n ≤ v → Waits (.dsitailWrite val) s)
    ∧ (n ≠ 0 → v < n →
      (ahead v < ahead s.ds.itail.toNat → Waits (.dsitailWrite val) s)
      ∧ (ahead s.ds.itail.toNat ≤ ahead v →
        let slot := fun (i : Nat) => physKey (4 * s.node.toNat + b / 1024 % 4) 0 (b / 4096 * 4096 + 16 * i)
        ∃ t, exec (.dsitailWrite val) s = .next t ∧ t.ds = { s.ds with itail := BitVec.ofNat 16 v } ∧ t.groups = s.groups
          ∧ t.ents = s.ents ∧ ∀ j, (∀ m, m < (v + n - s.ds.itail.toNat) % n →
            let at_ := slot ((s.ds.itail.toNat + m) % n)
            j < at_ ∨ at_ + 16 ≤ j) → t.mem.read j = s.mem.read j))
    ∧ (n = 0 ∨ s.ds.ihead = s.ds.itail ∨ 1024 ≤ s.inletHeld ∨ s.memReady K = false → Waits .dsiEntry s)
    ∧ (s.inletReady (BitVec.ofNat 64 (ofBytes (s.mem.readN (K + 8) 8))) (BitVec.ofNat 32 (ofBytes (s.mem.readN K 4))) = false →
      Waits .dsiEntry s)
    ∧ (n ≠ 0 → s.ds.ihead ≠ s.ds.itail → s.inletHeld < 1024 →
      let graph : Word := BitVec.ofNat 32 (ofBytes (s.mem.readN K 4))
      let va : DWord := BitVec.ofNat 64 (ofBytes (s.mem.readN (K + 8) 8))
      let number := 2 ^ 29 + s.nextSer % 2 ^ 29
      s.memReady K = true → s.inletReady va graph = true →
      ∃ t, exec .dsiEntry s = .next t ∧ t.nextSer = s.nextSer + 1 ∧ t.groups = s.groups ∧ t.ents = s.ents
        ∧ (∃ h : BitVec 16, h.toNat = (s.ds.ihead.toNat + 1) % n ∧ t.ds = { s.ds with ihead := h })
        ∧ ofBytes (t.mem.readN (K + 4) 4) = number
        ∧ (∀ j, j < K + 4 ∨ K + 8 ≤ j → t.mem.read j = s.mem.read j)
        ∧ (s.handle graph = none → ∃ x, t.handle (BitVec.ofNat 32 number) = some x ∧ x.status = .failed ∧ x.count = 0)
        ∧ ∀ p, s.handle graph = some p →
          ∃ x, t.handle (BitVec.ofNat 32 number) = some x ∧ x.ctx = p.ctx ∧ x.parent = graph ∧
            (let good := fun (r : LaunchRec) => s.takesChild graph 2 p.ctx = true ∧ va.toNat % 256 = 0 ∧ pathOf va ≤ 1
              ∧ (s.readLaunch p.ctx va).1 = some r ∧ r.ctx = p.ctx ∧ (r.graph = 0 ∨ r.graph = graph)
            (∀ r, good r → x.status = .running ∧ x.count = r.total) ∧ ((¬∃ r, good r) → x.status = .failed ∧ x.count = 0)))

/-- The lease unit and the distributor. LEASE_REQUEST grants a range whose pages are all resident and sets LEASE in their leaves, or
writes a residency request when the ring has room; it waits for the memory that the lease unit reads and writes (R358), and, as a release does,
for a link where the unit is another node's (R57, R61, R102, log 69); RECHECK walks a pending range again; LEASE_RELEASE gives the leases of a quiet
launch back, and LAUNCH_COMPLETE then completes it. UNIT_PLACE places the next unit of the first launch that may be placed, on the
core that R305 chooses, with each group in the lowest free slot of its pipeline at its first word (R57-R61, R147, R296, R305).
Which rows and which partition are free values (log 12). -/
def Obligations.Placement : Prop :=
  (∀ (s : State) (launch desc : Nat),
    let asked := s.leases.find? fun l => l.launch.toNat == launch && l.idx == desc && !l.granted && !l.asked
    (asked = none → Waits (.leaseRequest launch desc) s)
    ∧ ∀ l, asked = some l →
      let d := s.die l.die
      let b := d.lrbase.toNat
      let n := if b / 16 % 256 = 0 ∧ b % 16 ≠ 0 then 2 ^ (b % 16) else 0
      let K := physKey l.die 0 (b / 4096 * 4096 + 16 * d.lrtail.toNat)
      (s.leaseReady l = false ∨ s.mayTell l = false → Waits (.leaseRequest launch desc) s)
      ∧ (∀ ls, s.walkRange l.ctx l.desc = .ok ls → (∃ x ∈ ls, s.pageReady (x.keyOf l.die 0) x.size = false) →
        Waits (.leaseRequest launch desc) s)
      ∧ (∀ ls, s.walkRange l.ctx l.desc = .ok ls → s.leaseReady l = true → s.mayTell l = true →
        ∃ t, exec (.leaseRequest launch desc) s = .next t ∧ t.groups = s.groups ∧ t.ents = s.ents
          ∧ t.leases = s.leases.map (fun x => if x.launch = l.launch ∧ x.idx = l.idx then { l with granted := true } else x)
          ∧ ∀ x ∈ ls, (t.raw64 x.key).getLsbD 6 = true)
      ∧ (∀ va, s.walkRange l.ctx l.desc = .error va →
        (n = 0 ∨ (d.lrtail.toNat + 1) % n = d.lrhead.toNat % n → Waits (.leaseRequest launch desc) s)
        ∧ (s.memReady K = false → Waits (.leaseRequest launch desc) s)
        ∧ (s.leaseReady l = true → s.mayTell l = true →
          ∃ t, exec (.leaseRequest launch desc) s = .next t ∧ t.groups = s.groups
            ∧ ofBytes (t.mem.readN (K + 8) 8) = va.toNat ∧ ofBytes (t.mem.readN (K + 4) 4) = l.launch.toNat
            ∧ ofBytes (t.mem.readN K 4) = l.ctx % 1024 * 2 ^ 22 + l.idx % 64 * 2 ^ 16 + 1
            ∧ (∀ j, j < K ∨ K + 16 ≤ j → t.mem.read j = s.mem.read j)
            ∧ (∃ h : BitVec 16, h.toNat = (d.lrtail.toNat + 1) % n ∧ t.die l.die = { d with lrtail := h }))))
  ∧ (∀ (s : State) (die ctx : Nat) (l : Lease) (ls : List Leaf), die < 4 →
    (s.leases.filter fun x => x.die == 4 * s.node.toNat + die && x.ctx == ctx && !x.granted) = [l] →
    s.walkRange ctx l.desc = .ok ls → s.leaseReady l = true →
    ∃ t, exec (.recheck die ctx) s = .next t ∧ t.groups = s.groups
      ∧ t.leases = s.leases.map (fun x => if x.launch = l.launch ∧ x.idx = l.idx then { l with granted := true, asked := false } else x))
  ∧ (∀ (s : State) (h : Word) (l : Launch), s.launches.find? (fun p => p.1 == h.toNat) = some (h.toNat, l) →
    let quiet := l.ended = l.rec_.total ∧ (∀ e ∈ s.ents, e.launch ≠ h) ∧ ∀ p ∈ s.clusters, ∀ c ∈ p.2.window, c.launch ≠ h
    let leased := ∃ x ∈ s.leases, x.launch = h
    (¬quiet → Waits (.leaseRelease h.toNat) s ∧ Waits (.launchComplete h.toNat) s)
    ∧ (quiet → (∀ x ∈ s.leases, x.launch = h → x.die / 4 = s.node.toNat) → ∃ t, exec (.leaseRelease h.toNat) s = .next t)
    ∧ (quiet → (∀ x ∈ s.leases, x.launch = h → s.mayTell x = false) → leased → Waits (.leaseRelease h.toNat) s)
    ∧ (∀ t, exec (.leaseRelease h.toNat) s = .next t → t ≠ s → t.groups = s.groups ∧ t.ents = s.ents
      ∧ ∀ x, x ∈ t.leases ↔ x ∈ s.leases ∧ x.launch ≠ h)
    ∧ (quiet → leased → Waits (.launchComplete h.toNat) s)
    ∧ (quiet → ¬leased → l.complete = false → ∃ t, exec (.launchComplete h.toNat) s = .next t
      ∧ t = { s with launches := t.launches, handles := t.handles }
      ∧ t.launches.find? (fun p => p.1 == h.toNat) = some (h.toNat, { l with complete := true })
      ∧ ∀ x, s.handle h = some x → ∃ y, t.handle h = some y
        ∧ y.status = if x.cancelling then .cancelled else if x.failing then .failed else .completed))
  ∧ ∀ (s : State) (h : Word) (l : Launch), s.launches.find? (fun p => p.1 == h.toNat) = some (h.toNat, l) →
    let r := l.rec_
    let ahead := ∃ p ∈ s.launches, p.2.precedes l = true ∧ s.placeable p.1 p.2 = true ∧ (s.spot p.2).isSome = true
    let least := fun (core : Nat) => core < 256 ∧ s.fits core r = true ∧ ∀ c, c < 256 → s.fits c r = true →
      (s.groupsOn core).length < (s.groupsOn c).length ∨ ((s.groupsOn core).length = (s.groupsOn c).length ∧ core ≤ c)
    (ahead ∨ s.placeable h.toNat l = false → Waits (.unitPlace h.toNat) s)
    ∧ (¬ahead → s.placeable h.toNat l = true → r.cset = 0 → (∀ c, c < 256 → s.fits c r = false) → Waits (.unitPlace h.toNat) s)
    ∧ (¬ahead → s.placeable h.toNat l = true → r.cset = 0 → ∀ core, least core →
      ∃ t, exec (.unitPlace h.toNat) s = .next t ∧ SameBytes s t ∧ t.ents = s.ents
        ∧ t.launches.find? (fun p => p.1 == h.toNat) = some (h.toNat, { l with placed := l.placed + 1 })
        ∧ (∃ u, t.units.find? (fun p => p.1 == s.nextUnit) = some (s.nextUnit, u) ∧ u.launch = h ∧ u.index = l.placed
          ∧ u.core = core ∧ u.ctx = r.ctx ∧ u.psize = r.scr * 16384 ∧ u.left = r.groups ∧ u.ended = false ∧ u.phn = r.phn)
        ∧ (∀ c q, s.group c q ≠ t.group c q → (s.group c q).live = false)
        ∧ ∀ n, n < r.groups → ∃ slot, slot < 64 ∧ slot % 4 = n % 4 ∧ (s.group core slot).live = false
          ∧ ((List.range slot).filter fun q => q % 4 == n % 4 && !(s.group core q).live).length = n / 4 ∧
          (let g := t.group core slot
          g.live = true ∧ g.num = n ∧ g.unit = s.nextUnit ∧ g.launch = h ∧ g.ctx = r.ctx ∧ g.g = r.regg ∧ g.cls = r.cls
            ∧ g.ecap = r.ecap ∧ g.idem = r.idem ∧ g.sysp = r.sysp ∧ g.sbase = r.sbase ∧ g.lbase = r.lbase ∧ g.ctxb = r.ctxb
            ∧ g.slots = r.slots ∧ g.x = l.placed % r.gx ∧ g.y = l.placed / r.gx % r.gy ∧ g.z = l.placed / r.gx / r.gy
            ∧ g.p = [] ∧ g.tm = [] ∧ ∃ sp, g.splits = [(0, sp)] ∧ sp.status = .running ∧ sp.mask = Mask.full ∧ sp.spc = r.sbase
              ∧ sp.lpc = 0 ∧ sp.flag = false ∧ sp.s = [] ∧ sp.a = [] ∧ sp.loops = [] ∧ sp.joins = [] ∧ sp.queue = []))

/-- XCOPY, XGATH, XSCAT and XRED check their card and enter it in their cluster's window with the next job number, which goes to
S[D]; a full window makes them wait. JOB_START starts a job that no earlier card of the window conflicts with, once its issuer's
accesses let it. The accesses of an element are those of R128 and R131: an index that XGATH and XSCAT read from their list, the source element
or the rows of XRED and, under ACC, the destination, and the write of its ESIZE bytes to each target, of a multicast one for each core that MCAST
names; XRED writes the value that its rows reduce to, in sequence or as a tree; of several elements of an XSCAT with one target the largest stays; a
failing check stops the job with its status, and a target that meets a live phaser stops it with 0x02 (R255). JOB_COMPLETE posts the record that EV or a failure asks for
and takes the card out, and ends the unit after a LEASE failure (R123-R129, R132-R137, R142, R366).
What is illegal in a card comes before the PATH of its descriptors (R36), and a job whose phaser has been freed ends with status 0x08.
An element's accesses are steps of their own, each tested by itself, in an order that nothing fixes (log 22), and DONE counts the elements
done without a gap (log 45). -/
def Obligations.EngineJobs : Prop :=
  (∀ (s : State) (d a : BitVec 6) (k : Nat) (i : Instr) (u : UnitRec),
    (k, i) ∈ [(1, Instr.xcopy d a), (2, .xgath d a), (3, .xscat d a), (4, .xred d a)] →
    Landed s [a.toNat] → s.curSplit.queue = [] → s.unitOf s.curGroup = some u →
    let off := (s.curSplit.sreg a.toNat).toNat
    let va : DWord := BitVec.ofNat 64 (2 ^ 61 + off)
    let c := s.readCard u off
    let cl := u.core / 8
    let form := c.headerOk k = true ∧ c.tailOk k = true ∧ c.rolesOk k = true ∧ s.mcastOk u c = true ∧ s.phoffOk u c = true
      ∧ c.selfOverlap = false
    let inside := ∀ n, n < 4 → s.descInside u (c.desc n) = true
    (off % 16 ≠ 0 → exec i s = .next (s.scalarFault ⟨.align, .none, va⟩))
    ∧ (off % 16 = 0 → u.psize < off + 96 → exec i s = .next (s.scalarFault ⟨.path, .none, va⟩))
    ∧ (off % 16 = 0 → off + 96 ≤ u.psize →
      (s.cardBusy u off = true → Waits i s)
      ∧ (s.cardBusy u off = false →
        (¬form → exec i s = .next (s.scalarTrap .illegalOperand))
        ∧ (form → ¬inside → exec i s = .next (s.scalarFault ⟨.path, .none, va⟩))
        ∧ (form → inside → 64 ≤ (s.cluster cl).window.length → Waits i s)
        ∧ (form → inside → (s.cluster cl).window.length < 64 →
          ∃ t, exec i s = .next t ∧ RegFrame s t [d.toNat] [] ∧ FallsThrough s t ∧ t.curSplit.flag = s.curSplit.flag
            ∧ t = { s with groups := t.groups, clusters := t.clusters }
            ∧ t.curSplit.sreg d.toNat = (s.cluster cl).jobCtr
            ∧ t.cluster cl = { jobCtr := (s.cluster cl).jobCtr + 1, window := (s.cluster cl).window ++ [c] }
            ∧ c.job = (s.cluster cl).jobCtr ∧ c.started = false ∧ c.status = 0 ∧ c.bound = s.nextId
            ∧ c.heir = s.curSplit.uid ∧ c.phgone = false))))
  ∧ (∀ (s : State) (cl job : Nat) (c : Card), (s.cluster cl).window.find? (fun x => x.job.toNat == job) = some c →
    let w := (s.cluster cl).window
    let held := c.started = true ∨ (∃ e ∈ w.takeWhile fun x => x.job != c.job, c.conflicts e = true) ∨ s.cardReleased c = false
    (held → Waits (.jobStart cl job) s)
    ∧ (¬held → ∃ t, exec (.jobStart cl job) s = .next t ∧ t = { s with clusters := t.clusters }
      ∧ (t.cluster cl).window = w.map (fun x => if x.job = c.job then { c with started := true } else x))
    ∧ (let done := c.status ≠ 0 ∧ c.sent = [] ∨ (c.started = true ∧ c.perf.length = c.elems)
      let x := s.ctx c.ctx
      let n := x.eqSize
      let K := s.eqKey x x.eqtail.toNat
      let leaves := fun (t : State) => t.groups = s.groups ∧ t.ents = s.ents
        ∧ (t.cluster cl).window = w.filter (fun y => y.job != c.job)
      (¬done → Waits (.jobComplete cl job) s)
      ∧ (done → c.phv = false → c.status ≠ 5 → c.ev = false → c.status = 0 →
        ∃ t, exec (.jobComplete cl job) s = .next t ∧ leaves t ∧ SameBytes s t ∧ t.ctxs = s.ctxs)
      ∧ (done → c.phv = false → c.status ≠ 5 → c.ev = true ∨ c.status ≠ 0 → c.status < 256 → c.ag.core < 256 → c.doneCount < 2 ^ 32 →
        ringFull x.eqhead x.eqtail n = false → s.eventReady c.ctx = true →
        ∃ t, exec (.jobComplete cl job) s = .next t ∧ leaves t
          ∧ ofBytes (t.mem.readN K 16) = 2 ^ 120 + c.status * 2 ^ 112 + c.ag.core * 2 ^ 104 + c.kind * 2 ^ 100
            + c.job.toNat * 2 ^ 64 + c.hdr 31 16 * 2 ^ 48 + c.doneCount)
      ∧ (done → c.phv = true → c.phgone = true → c.status = 0 → c.ag.core < 256 → c.doneCount < 2 ^ 32 →
        ringFull x.eqhead x.eqtail n = false → s.eventReady c.ctx = true →
        ∃ t, exec (.jobComplete cl job) s = .next t ∧ leaves t
          ∧ ofBytes (t.mem.readN K 16) = 2 ^ 120 + 8 * 2 ^ 112 + c.ag.core * 2 ^ 104 + c.kind * 2 ^ 100
            + c.job.toNat * 2 ^ 64 + c.hdr 31 16 * 2 ^ 48 + c.doneCount)
      ∧ (done → c.phv = false → c.status = 5 → ∀ u, s.units.find? (fun p => p.1 == c.unit) = some (c.unit, u) →
        ∃ t v, exec (.jobComplete cl job) s = .next t ∧ t.units.find? (fun p => p.1 == c.unit) = some (c.unit, v)
          ∧ v.ended = true)))
  ∧ (∀ (s : State) (cl job i : Nat) (c : Card),
    (s.cluster cl).window.find? (fun x => x.job.toNat == job) = some c → c.started = true → c.status = 0 → i < c.elems →
    Tab.has c.perf i = false →
    let col := i % c.count
    let row := i / c.count
    let idx := (Tab.get 0 c.idxs i).toNat
    let listed := c.kind = 2 ∨ c.kind = 3
    let D := fun (n x : Nat) => (c.desc n).base + BitVec.ofNat 64 x
    let dst : DWord :=
      if c.kind = 1 then D 1 (row * c.dstride + col * c.esize) else if c.kind = 3 then D 1 (idx * c.dstride) else D 1 (i * c.esize)
    let addr : EngineStep → DWord := fun st => match st with
      | .index => c.idxptr + BitVec.ofNat 64 (4 * i)
      | .row r => if r < c.rows then D 0 (r * c.sstride + 4 * i) else dst
      | .source => if c.kind = 1 then D 0 (row * c.sstride + col * c.esize) else if c.kind = 2 then D 0 (idx * c.sstride) else D 0 (i * c.esize)
      | .write _ => dst
    let role : EngineStep → Desc := fun st => match st with
      | .index => c.desc 2
      | .row r => c.desc (if r < c.rows then 0 else 1)
      | .source => c.desc 0
      | .write _ => c.desc 1
    let bytes : EngineStep → Nat := fun st => match st with
      | .index => 4
      | _ => c.esize
    let st := c.nextStep i (Config.freeNat s.tick 40)
    let t := s.engineTurn cl job i
    let u := s.engineSend cl c i st
    let va := addr st
    let becomes := fun (q : Card → Prop) => ∃ y, (t.cluster cl).window.find? (fun x => x.job.toNat == job) = some y ∧ q y
    let check := s.elemCheck c (role st) va (bytes st)
    let ready := s.engineReady cl c i st = true
    let look := fun (a : Access) => u.engineOwner c a va (c.opens i st)
    let got : Option Nat :=
      if translated (pathOf va) then
        match look .engineRead with
        | (.ok (key, _), x) => (x.homeRead c.ctx (noPath va) key (bytes st)).1.map ofBytes
        | (.error _, _) => none
      else (s.enginePlace c none va).map fun p => ofBytes (s.scrRead c.ctx p.1 p.2 (bytes st))
    (listed → Tab.has c.idxs i = false → st = .index)
    ∧ (¬(listed ∧ Tab.has c.idxs i = false) → Tab.has c.vals i = false →
      (c.kind ≠ 4 → st = .source)
      ∧ (c.kind = 4 → c.rowsLeft i ≠ [] →
        ∃ r, st = .row r ∧ r < c.rows + (if c.acc then 1 else 0) ∧ Tab.has c.rowVals (65536 * i + r) = false))
    ∧ (¬(listed ∧ Tab.has c.idxs i = false) → Tab.has c.vals i = true → c.targetsLeft i ≠ [] →
      ∃ j, st = .write j ∧ j < c.targetCores.length ∧ Tab.has c.sent (8 * i + j) = false)
    ∧ (¬ready → t = s)
    ∧ (st.writes = false → check ≠ 0 → SameBytes s t ∧ becomes fun y => y.status = check ∧ y.badAddr = va ∧ y.perf = c.perf)
    ∧ (st.writes = false → check = 0 → ready → pathOf va ≠ 4 → ∀ x, got = some x →
      SameBytes s t ∧ becomes fun y => y.status = 0 ∧ y.perf = c.perf ∧ y.sent = c.sent
        ∧ (st = .index → Tab.has y.idxs i = true ∧ (Tab.get 0 y.idxs i).toNat = x % 2 ^ 32 ∧ y.vals = c.vals)
        ∧ (st = .source → Tab.has y.vals i = true ∧ (Tab.get 0 y.vals i).toNat = x % 2 ^ 64)
        ∧ ∀ r, st = .row r →
          let val := fun q => if q = r then x % 2 ^ 32 else (Tab.get 0 c.rowVals (65536 * i + q)).toNat
          let op := xredOp (c.hdr 119 116)
          let last := ∀ q, q < c.rows + (if c.acc then 1 else 0) → q = r ∨ Tab.has c.rowVals (65536 * i + q) = true
          (¬last → y.vals = c.vals ∧ (Tab.get 0 y.rowVals (65536 * i + r)).toNat = x % 2 ^ 32)
          ∧ (last → 1 ≤ c.rows → c.rows < 2 ^ 16 → Tab.has y.vals i = true ∧
            (Tab.get 0 y.vals i).toNat % 2 ^ 64 = (
              let tree := RedTree op val 17 0 c.rows
              if c.hdr 121 120 = 0 then
                if c.acc then (List.range c.rows).foldl (fun z q => op z (val q)) (val c.rows)
                else (List.range (c.rows - 1)).foldl (fun z q => op z (val (q + 1))) (val 0)
              else if c.acc then op (val c.rows) tree else tree) % 2 ^ 64))
    ∧ ∀ j, st = .write j →
      let core := c.targetCores.getD j none
      let v := (Tab.get 0 c.vals i).toNat
      let alone := ∀ q, q < c.targetCores.length → q = j ∨ Tab.has c.sent (8 * i + q) = true
      let counted := becomes fun y => y.status = 0 ∧ (alone → Tab.has y.perf i = true ∧ Tab.has y.vals i = false)
        ∧ (¬alone → y.perf = c.perf ∧ y.vals = c.vals ∧ Tab.has y.sent (8 * i + j) = true)
      (c.mcast = 0 → core = none)
      ∧ (c.mcast ≠ 0 → ∃ k, core = some (8 * (c.ag.core / 8) + k) ∧ k < 8 ∧ c.mcast.testBit k = true
        ∧ ((List.range k).filter fun q => c.mcast.testBit q).length = j)
      ∧ (ready → c.beaten i = true → SameBytes s t ∧ becomes fun y => y.status = 0 ∧ Tab.has y.perf i = true)
      ∧ (c.beaten i = false → check ≠ 0 → SameBytes s t ∧ becomes fun y => y.status = check ∧ y.badAddr = va ∧ y.perf = c.perf)
      ∧ (c.beaten i = false → check = 0 → translated (pathOf va) = false → ∀ k off, s.enginePlace c core va = some (k, off) →
        off % 128 + c.esize ≤ 128 →
        (s.phaserHit k off c.esize = true → SameBytes s t ∧ becomes fun y => y.status = 2 ∧ y.badAddr = va)
        ∧ (s.phaserHit k off c.esize = false → ofBytes (t.mem.readN (scrKey k off) c.esize) = v % 2 ^ (8 * c.esize) ∧ counted))
      ∧ (c.beaten i = false → check = 0 → ready → translated (pathOf va) = true →
        (∀ f, (look .engineWrite).1 = .error f → SameBytes s t ∧ becomes fun y => y.status = statusOf f.1 ∧ y.badAddr = va)
        ∧ ∀ key l, (look .engineWrite).1 = .ok (key, l) → key % 128 + c.esize ≤ 128 → s.transitOf c.ctx (noPath va) = none →
          s.unreachable key = false → s.expanderBad key = false → (s.line (key / 128)).poison = false →
          (s.line (key / 128)).written = false ∨ (s.line (key / 128)).tag = some (s.tagFor (ownerOf (noPath va)) c.ctx (noPath va)) →
          ofBytes (t.mem.readN key c.esize) = v % 2 ^ (8 * c.esize)
            ∧ (∀ k, k < key ∨ key + c.esize ≤ k → t.mem.read k = s.mem.read k) ∧ counted))
  ∧ (∀ (s : State) (c : Card) (core : Option Nat) (va : DWord) (u : UnitRec), s.units.find? (fun p => p.1 == c.unit) = some (c.unit, u) →
    (∀ w, core = none → s.scratchUnit u va = some w → s.enginePlace c core va = some (w.core, w.pbase + va.toNat % 2 ^ 32))
    ∧ ∀ k w, core = some k → s.setUnit u k = some w → va.toNat % 2 ^ 32 < w.psize →
      s.enginePlace c core va = some (w.core, w.pbase + va.toNat % 2 ^ 32))
  ∧ ∀ op a b : Nat, a < 2 ^ 32 → b < 2 ^ 32 →
    let r := xredOp op a b
    let sg := IntValue true 32
    let nan := (f32.decode a).isNan = true ∨ (f32.decode b).isNan = true
    (op = 0 ∨ op = 1 → r = (a + b) % 2 ^ 32) ∧ (op = 2 → r = f32.roundWord 0 ((f32.decode a).add (f32.decode b) false))
    ∧ (op = 3 → r % 65536 = b16.roundWord 0 ((b16.decode (a % 65536)).add (b16.decode (b % 65536)) false)
      ∧ r / 65536 = b16.roundWord 0 ((b16.decode (a / 65536)).add (b16.decode (b / 65536)) false))
    ∧ (op = 4 → sg r = min (sg a) (sg b)) ∧ (op = 5 → sg r = max (sg a) (sg b))
    ∧ (op = 2 ∨ op = 6 ∨ op = 7 → nan → r = 0x7FC00000)
    ∧ (op = 6 → ¬nan → ∀ x y, Stands (f32.decode a) x → Stands (f32.decode b) y → x < y → r = a)
    ∧ (op = 7 → ¬nan → ∀ x y, Stands (f32.decode a) x → Stands (f32.decode b) y → x < y → r = b)
    ∧ (op = 8 → r = a &&& b) ∧ (op = 9 → r = a ||| b) ∧ (op = 10 → r = a ^^^ b)


/-! ### Translation commands, heat and the Transit engine (R52-R54, R65, R70-R94, R363) -/

/-- The commands of a die: TLBSYNC takes the next number and TLBSYNC_COMPLETE drops the cached entries and acknowledges it, once no
request that translated with them is left; KEYSET loads the staged key and sets KEY and KEYCLR clears it, unless a unit of the
context is resident, when the first rejection is kept in MTSTAT; a peer's driver does the same at its own die, where the key and the
units are not in the state and free (R66, log 6); every command clears the staging keys; a write of MTSTAT clears the
error. HEAT_DECAY halves every counter of a die once for each interval that has passed. MHINT and HEATR leave for the owner as entries, and MHINT's
is no split's own; HINT makes a move order of a hint or drops it (R52-R54, R65, R72, R76, R94). Without the context's key on the core's die no
packet for another node leaves: HEATR reads 0, and MHINT's hint is dropped (R94, R106; log 70). KEYSET, KEYCLR and HINT wait for memory that
is not ready (R358; log 46).
When the interval of a decay has passed is read as log 55 says; the room in the hint log is counted as log 31 says, a command is taken
whatever READY says, and ALL counts for TLBSYNC alone (log 48), and what becomes of a hint for an unpopulated node or for a busy engine is
log 70; a pool's HEAD and TAIL are indices (log 78). -/
def Obligations.DieCommands : Prop :=
  ∀ (s : State) (die ctx : Nat), die < 4 → ctx < 1024 →
    let di := 4 * s.node.toNat + die
    let d := s.die di
    let only := fun (t : State) (e : Die) => t.die di = e ∧ ∀ j, j ≠ di → t.die j = s.die j
    let quiet := fun (t : State) => t = { s with dies := t.dies }
    let resident := ∃ p ∈ s.units, p.2.ctx = ctx ∧ p.2.ended = false ∧ p.2.away = false
    let rejected := fun (i : Instr) (cmd : BitVec 4) => ∃ t, exec i s = .next t ∧ quiet t ∧ only t (if d.mtErr then { d with mtkey := [] }
      else { d with mtErr := true, mtEcmd := cmd, mtEctx := BitVec.ofNat 10 ctx, mtkey := [] })
    let E := physKey di 0 (d.mtctx.toNat + 16 * ctx)
    (∀ all, ∃ t, exec (.tlbsync die ctx all) s = .next t ∧ quiet t
      ∧ only t { d with mtseq := d.mtseq + 1, syncs := d.syncs ++ [⟨d.mtseq + 1, ctx, all, none, d.tlb⟩], mtkey := [] })
    ∧ (d.syncs = [] → Waits (.tlbsyncComplete die) s)
    ∧ (∀ y rest, d.syncs = y :: rest → s.translating di y = true → Waits (.tlbsyncComplete die) s)
    ∧ (∀ y rest, d.syncs = y :: rest → s.translating di y = false → y.tid = none →
      ∃ t, exec (.tlbsyncComplete die) s = .next t ∧ quiet t
        ∧ only t { d with mtack := y.seq, syncs := rest, tlb := d.tlb.filter fun e => !((y.all || e.ctx == y.ctx) && y.old.contains e) })
    ∧ (resident → rejected (.keyset die ctx) 3 ∧ rejected (.keyclr die ctx) 4)
    ∧ (¬resident → s.memReady E = false → Waits (.keyset die ctx) s ∧ Waits (.keyclr die ctx) s)
    ∧ (¬resident → s.memReady E = true →
      (∃ t, exec (.keyset die ctx) s = .next t ∧ only t { d with mtkey := [], keys := (t.die di).keys }
        ∧ (∀ i, i < 8 → (Tab.get 0 (t.die di).keys ctx).extractLsb' (64 * i) 64 = Tab.get 0 d.mtkey i)
        ∧ (∀ c, c ≠ ctx → Tab.get 0 (t.die di).keys c = Tab.get 0 d.keys c)
        ∧ (t.raw64 E).getLsbD 1 = true ∧ (∀ i, i ≠ 1 → (t.raw64 E).getLsbD i = (s.raw64 E).getLsbD i))
      ∧ (∃ t, exec (.keyclr die ctx) s = .next t ∧ only t { d with mtkey := [] }
        ∧ (t.raw64 E).getLsbD 1 = false ∧ (∀ i, i ≠ 1 → (t.raw64 E).getLsbD i = (s.raw64 E).getLsbD i)
        ∧ ∀ k, k < E ∨ E + 8 ≤ k → t.mem.read k = s.mem.read k))
    ∧ (∀ k, 0 < k → k < 512 →
      let pj := 4 * ((s.node.toNat + k) % 512) + die
      let p := s.die pj
      let F := physKey pj 0 (p.mtctx.toNat + 16 * ctx)
      let outcome := fun (t : State) (on : Bool) => (∀ j, j ≠ pj → t.die j = s.die j) ∧ (t.die pj).mtkey = []
        ∧ (∀ c, c ≠ ctx → Tab.get 0 (t.die pj).keys c = Tab.get 0 p.keys c)
        ∧ (t.mem = s.mem ∧ (t.die pj).keys = p.keys ∧ (t.die pj).mtErr = true ∨ (t.raw64 F).getLsbD 1 = on ∧ (t.die pj).mtErr = p.mtErr)
      (∃ t, exec (.keyset (4 * k + die) ctx) s = .next t ∧ outcome t true)
      ∧ ∃ t, exec (.keyclr (4 * k + die) ctx) s = .next t ∧ outcome t false ∧ (t.die pj).keys = p.keys)
    ∧ (∀ val : DWord, (val.getLsbD 0 = false → Waits (.mtstatWrite die val) s)
      ∧ (val.getLsbD 0 = true → ∃ t, exec (.mtstatWrite die val) s = .next t ∧ quiet t
        ∧ only t { d with mtErr := false, mtEcmd := 0, mtEctx := 0 }))
    ∧ (let due := d.txdecay ≠ 0 ∧ d.txdecay.toNat ≤ (s.chframe - d.lastDecay).toNat
      (¬due → Waits (.heatDecay die) s)
      ∧ (due → ∃ t, exec (.heatDecay die) s = .next t ∧ quiet t
        ∧ (let k := (s.chframe - d.lastDecay).toNat / d.txdecay.toNat
        only t { d with
          heat := d.heat.map fun h => { h with count := h.count / 2 ^ k }, lastDecay := d.lastDecay + BitVec.ofNat 32 k * d.txdecay })))
    ∧ (∀ (a r : BitVec 6) (tier : BitVec 2) (region : Bool),
      let va := s.curSplit.spair a.toNat
      let keyed := nodeOf va = s.node.toNat ∨ s.keyOn (4 * s.node.toNat + s.cur.core / 64 % 4) s.curGroup.ctx = true
      (a.toNat % 2 = 1 ∨ tier = 3 → exec (.mhint a tier) s = .next (s.scalarTrap .illegalOperand))
      ∧ (a.toNat % 2 = 1 → exec (.heatr r a region) s = .next (s.scalarTrap .illegalOperand))
      ∧ (a.toNat % 2 = 0 → Landed s [a.toNat, a.toNat + 1] →
        (tier ≠ 3 → s.populated (nodeOf va) = false ∨ ¬keyed →
          ∃ t, exec (.mhint a tier) s = .next t ∧ ScalarFrame s t [] [] ∧ FallsThrough s t ∧ t.curSplit.flag = s.curSplit.flag)
        ∧ (tier ≠ 3 → s.populated (nodeOf va) = true → keyed →
          ∃ t e, exec (.mhint a tier) s = .next t ∧ RegFrame s t [] [] ∧ FallsThrough s t ∧ Enters s t [e]
            ∧ t.curSplit.flag = s.curSplit.flag ∧ e.kind = .hint ∧ e.owners = [] ∧ e.fn = tier.toNat ∧ e.ctx = s.curGroup.ctx
            ∧ e.launch = s.curGroup.launch ∧ e.line = lineOf (noPath va) ∧ e.parts = [⟨0, va, 4, []⟩])
        ∧ (translated (pathOf va) = false ∨ s.populated (nodeOf va) = false →
          exec (.heatr r a region) s = .next (s.scalarFault ⟨.path, .none, va⟩))
        ∧ (translated (pathOf va) = true → s.populated (nodeOf va) = true → ¬keyed →
          WritesS (.heatr r a region) s r.toNat 0 s.curSplit.flag)
        ∧ (translated (pathOf va) = true → s.populated (nodeOf va) = true → keyed →
          ∃ t e, exec (.heatr r a region) s = .next t ∧ RegFrame s t [] [] ∧ FallsThrough s t ∧ Enters s t [e]
            ∧ t.curSplit.flag = s.curSplit.flag ∧ e.kind = .heatr ∧ e.sdst = some r.toNat ∧ e.owners = [s.curSplit.uid]
            ∧ e.fn = (if region then 1 else 0) ∧ e.parts = [⟨0, va, 4, []⟩])))
    ∧ (d.hints = [] ∨ d.freeRec = none ∨ d.txReady = false → Waits (.hint die) s)
    ∧ ∀ h rest tid, d.hints = h :: rest → d.freeRec = some tid → d.txReady = true →
      let ok := d.hintAllowed h = true ∧ translated (pathOf h.addr) = true ∧ s.anyLease h.launch h.addr = true ∧ d.logRoom = true
      let page := fun (l : Leaf) => (BitVec.ofNat 64 ((noPath h.addr).toNat / 2 ^ l.lo * 2 ^ l.lo) : DWord)
      let dropped := ∃ t, exec (.hint die) s = .next t ∧ quiet t ∧ only t { d with hints := rest, txDrops := min 255 (d.txDrops + 1) }
      (ok → s.hintReady di h = false → Waits (.hint die) s)
      ∧ (¬ok → dropped) ∧ (s.hintReady di h = true → s.leafNow h.ctx (noPath h.addr) = none → dropped)
      ∧ (∀ l, s.hintReady di h = true → s.leafNow h.ctx (noPath h.addr) = some l → l.state ≠ 0 ∨ l.tier = h.tier ∨ l.lo ∉ [12, 16, 21] → dropped)
      ∧ ∀ l f size, ok → s.hintReady di h = true → s.leafNow h.ctx (noPath h.addr) = some l → l.state = 0 → l.tier ≠ h.tier → (l.lo, size) ∈ [(12, 0), (16, 1), (21, 2)] →
        (s.poolTake di h.tier size).1 = some f → s.moveCode di ⟨page l, f, h.ctx, h.tier, size, 0, 0xFFFF, false⟩ (some l) = 1 →
        ∃ t r, exec (.hint die) s = .next t ∧ t.rec_ di tid = some r ∧ (t.die di).hints = rest ∧ r.hinted = true ∧ r.va = page l
          ∧ r.ctx = h.ctx ∧ r.dstTier = h.tier ∧ r.dstFrame = f ∧ r.srcTier = l.tier ∧ r.srcFrame = l.frame ∧ r.cursor = 0
          ∧ r.state = .copying ∧ r.order = 0xFFFF

/-- The Transit engine: an order receives the code of the first condition of R363 that holds; an accepted one puts its leaf into
transit, starts a record and a TLBSYNC; a line's copy moves 128 bytes and the cursor; the last line turns the leaf to the destination
and the record to DONE; an uncorrectable error at the destination, or a cancel order, turns both back; and the TLBSYNC that follows
frees the record with its final code (R73-R75, R79, R82, R84, R85, R87, R88, R90, R93, R363).
A line is copied when it is the turn of its move, the next in order of acceptance after the one that copied last, the copy quota admits
it, and its channels serve the engine next: a request for the same home that was injected in an earlier frame goes first (R96, R97). Its
packets are charged also where the copy then aborts (R92); a source line that is poisoned, or cannot be read, is marked at both ends (R88).
A destination that cannot be reached, a frame beyond the tier (log 64) or behind a port that is down (log 75), is an uncorrectable
destination (R87).
An order waits for the memory of its slot and of its page's tables, and a record's end for that of its slot (R358; log 46).
The engine's own TLBSYNCs have no number (log 47), and a copy is one step, whose packets take no time (log 7). -/
def Obligations.Moves : Prop :=
  ∀ (s : State) (die : Nat), die < 4 →
    let di := 4 * s.node.toNat + die
    let d := s.die di
    let b := d.txrbase.toNat
    let n := if b / 16 % 256 = 0 then 2 ^ (b % 16) else 0
    let slotKey := fun (i : Nat) => physKey di 0 (b / 4096 * 4096 + 32 * i)
    let i := d.txrhead.toNat
    let K := slotKey i
    let w := ofBytes (s.mem.readN K 32)
    let va : DWord := BitVec.ofNat 64 (w / 2 ^ 192)
    let frame := w / 2 ^ 156 % 2 ^ 36
    let ctx := w / 2 ^ 146 % 1024
    let tier := w / 2 ^ 144 % 4
    let size := w / 2 ^ 142 % 4
    let cmd := w / 2 ^ 140 % 4
    let bytes := if size = 0 then 4096 else if size = 1 then 65536 else 2 ^ 21
    let reserved := size = 3 ∨ 2 ≤ cmd ∨ w / 2 ^ 128 % 4096 ≠ 0 ∨ w / 2 ^ 64 % 2 ^ 48 ≠ 0
    let misplaced := pathOf va ≠ 0 ∨ ownerOf va ≠ di ∨ va.toNat % bytes ≠ 0 ∨ (cmd = 0 ∧ frame * 4096 % bytes ≠ 0)
    let leaf := s.leafNow ctx va
    let badTier := tier = 3 ∨ (tier = 1 ∧ Config.form = .tlv4p) ∨ (tier = 2 ∧ s.expander di (frame * 4096) bytes = false)
    let there := d.txReady = true ∧ n ≠ 0 ∧ d.txrhead ≠ d.txrtail ∧ d.freeRec ≠ none ∧ s.memReady K = true ∧ s.tablesReady ctx va = true
    let word := fun (t : State) (k : Nat) (v : Nat) => ofBytes (t.mem.readN k 8) = v
    let taken := fun (t : State) (code : Nat) => word t K (code * 2 ^ 56) ∧ (t.die di).txrhead.toNat = (i + 1) % n
      ∧ ∀ k, k < K ∨ K + 8 ≤ k → t.mem.read k = s.mem.read k
    let entry := fun (l : Leaf) (tid fr st ti : Nat) =>
      (BitVec.ofNat 64 (tid * 2 ^ 52 + fr * 2 ^ 16 + st * 2 ^ 14 + ti * 2 ^ 12 + l.e % 4096) : DWord)
    let apart := fun (k : Nat) (l : Leaf) => k + 8 ≤ l.key ∨ l.key + 8 ≤ k
    (¬there → Waits (.moveOrder die) s ∧ Waits (.cancelOrder die) s)
    ∧ (there → cmd = 1 → Waits (.moveOrder die) s)
    ∧ (there → cmd ≠ 1 → Waits (.cancelOrder die) s)
    ∧ (there → cmd ≠ 1 →
      let refused := fun (code : Nat) => ∃ t, exec (.moveOrder die) s = .next t ∧ taken t code ∧ (t.die di).recs = d.recs
      (reserved → refused 0x16) ∧ (¬reserved → misplaced → refused 0x15)
      ∧ (¬reserved → ¬misplaced → leaf = none → refused 0x10)
      ∧ ∀ l, ¬reserved → ¬misplaced → leaf = some l →
        (2 ^ l.lo ≠ bytes → refused 0x11) ∧ (2 ^ l.lo = bytes → l.state ≠ 0 → refused 0x12)
        ∧ (2 ^ l.lo = bytes → l.state = 0 → l.tier = tier → refused 0x13)
        ∧ (2 ^ l.lo = bytes → l.state = 0 → l.tier ≠ tier → badTier → refused 0x14)
        ∧ (2 ^ l.lo = bytes → l.state = 0 → l.tier ≠ tier → ¬badTier → apart K l → ∀ tid, d.freeRec = some tid →
          ∃ t r, exec (.moveOrder die) s = .next t ∧ t.rec_ di tid = some r
            ∧ word t K (2 ^ 56 + tid * 2 ^ 44 + l.tier * 2 ^ 42) ∧ (t.die di).txrhead.toNat = (i + 1) % n
            ∧ t.raw64 l.key = entry l tid l.frame 1 l.tier
            ∧ (t.die di).syncs = d.syncs ++ [⟨0, ctx, false, some tid, d.tlb⟩]
            ∧ r.state = .copying ∧ r.va = va ∧ r.ctx = ctx ∧ r.size = bytes ∧ r.srcTier = l.tier ∧ r.srcFrame = l.frame
            ∧ r.dstTier = tier ∧ r.dstFrame = frame ∧ r.cursor = 0 ∧ r.sync = true ∧ r.hinted = false ∧ r.slot = i))
    ∧ (there → cmd = 1 →
      let refused := fun (code : Nat) => ∃ t, exec (.cancelOrder die) s = .next t ∧ taken t code ∧ (t.die di).recs = d.recs
      (reserved → refused 0x16) ∧ (¬reserved → misplaced → refused 0x15)
      ∧ (¬reserved → ¬misplaced → (∀ p ∈ d.recs, ¬(p.2.va = va ∧ p.2.ctx = ctx ∧ p.2.state = .copying)) → refused 0x17)
      ∧ (∀ tid r, ¬reserved → ¬misplaced → d.recs = [(tid, r)] → r.va = va → r.ctx = ctx → r.state = .copying →
        ∃ t q, exec (.cancelOrder die) s = .next t ∧ t.rec_ di tid = some q ∧ q.state = .aborting ∧ q.sync = true ∧ q.cancel = some i
          ∧ (q.reason = 3 ∨ q.reason = 4) ∧ word t K ((2 ^ 56 + tid * 2 ^ 44 + r.srcTier * 2 ^ 42) % 2 ^ 64)))
    ∧ (∀ val : DWord,
      let ahead := fun (j : Nat) => (j + n - i % n) % n
      let v := val.toNat % n
      (n = 0 → Waits (.txrtailWrite die val) s)
      ∧ (n ≠ 0 → ahead v < ahead d.txrtail.toNat → Waits (.txrtailWrite die val) s)
      ∧ (n ≠ 0 → ahead d.txrtail.toNat ≤ ahead v →
        ∃ t, exec (.txrtailWrite die val) s = .next t ∧ t = { s with dies := t.dies }
          ∧ t.die di = { d with txrtail := BitVec.ofNat 16 v }))
    ∧ ∀ (tid : Nat) (r : TransitRec), s.rec_ di tid = some r →
      let at_ := r.va + BitVec.ofNat 64 (128 * r.cursor)
      let src := r.srcKey di at_
      let dst := r.dstKey di at_
      let later := fun (q : TransitRec) => (d.copied.map fun n => decide (n < q.age)).getD true
      let turn := ∀ p ∈ d.recs, s.canCopy di p.2 = true →
        (later r = later p.2 ∧ r.age ≤ p.2.age) ∨ (later r = true ∧ later p.2 = false)
      let free := r.state = .copying ∧ r.sync = false ∧ d.mayCopy r = true ∧ s.memReady src = true ∧ s.memReady dst = true
        ∧ s.copyMayLeave di r = true ∧ s.copyNext di r = true ∧ turn ∧ d.txquota ≠ 0 ∧ (d.spent + 2 ≤ d.txquota ∨ d.spent = 0)
      let copied := ({ s with mem := s.mem.writeN dst (s.mem.readN src 128) } : State)
      let aborts := fun (i : Instr) (sent : Bool) => ∃ t, exec i s = .next t
        ∧ (t.die di).spent = (if sent then d.spent + 2 else d.spent) ∧ (t.die di).copied = (if sent then some r.age else d.copied)
        ∧ t.rec_ di tid = some { r with state := .aborting, sync := true, reason := if s.recLeaf tid r = none then 4 else 1 }
        ∧ ∀ l, s.recLeaf tid r = some l → t.raw64 l.key = entry l 0 r.srcFrame 0 r.srcTier
      (r.state ≠ .copying → Waits (.moveAbort die tid) s) ∧ (r.state = .copying → aborts (.moveAbort die tid) false)
      ∧ (∀ err, ¬free → Waits (.copyLine die tid err) s)
      ∧ (∀ (x : Entry) f n err, x ∈ s.ents → x.inj = some (f, n) → f ≠ s.chframe → nodeOf x.line = s.node.toNat →
        dieOf x.line = dieOf at_ → sliceOf x.line = sliceOf at_ → s.canServe x = true → Waits (.copyLine die tid err) s)
      ∧ (free → aborts (.copyLine die tid .destBad) true)
      ∧ (∀ err, free → s.unreachable dst = true → aborts (.copyLine die tid err) true)
      ∧ (∀ err, free → err ≠ .destBad → s.unreachable dst = false →
        ∃ t q, exec (.copyLine die tid err) s = .next t ∧ t.rec_ di tid = some q ∧ (t.die di).spent = d.spent + 2
          ∧ (t.die di).copied = some r.age
          ∧ ((r.cursor + 1) * 128 ≠ r.size → q = { r with cursor := r.cursor + 1 }
            ∧ t.mem.readN dst 128 = s.mem.readN src 128 ∧ (∀ k, k < dst ∨ dst + 128 ≤ k → t.mem.read k = s.mem.read k)
            ∧ (let bad := decide (err = .sourceBad) || s.unreachable src || s.expanderBad src
            (t.line (dst / 128)).poison = ((s.line (src / 128)).poison || bad)
              ∧ (bad = true → (t.line (src / 128)).poison = true))
            ∧ (t.line (dst / 128)).tag = (s.line (src / 128)).tag)
          ∧ ((r.cursor + 1) * 128 = r.size →
            (∀ l, copied.recLeaf tid r = some l → q = { r with cursor := r.cursor + 1, state := .done, sync := true }
              ∧ t.raw64 l.key = entry l 0 r.dstFrame 0 r.dstTier)
            ∧ (copied.recLeaf tid r = none → q = { r with cursor := r.cursor + 1, state := .aborting, sync := true, reason := 4 })))
      ∧ (∀ y rest, d.syncs = y :: rest → s.translating di y = false → y.tid = some tid → (∀ z ∈ rest, z.tid ≠ some tid) →
        (r.state = .copying → ∃ t, exec (.tlbsyncComplete die) s = .next t ∧ t.rec_ di tid = some { r with sync := false })
        ∧ (r.state ≠ .copying → r.hinted = false → s.memReady (slotKey r.slot) = false → Waits (.tlbsyncComplete die) s)
        ∧ (r.state = .done → r.hinted = false → r.cancel = none → s.memReady (slotKey r.slot) = true → ∃ t, exec (.tlbsyncComplete die) s = .next t ∧ t.rec_ di tid = none
          ∧ word t (slotKey r.slot) ((2 * 2 ^ 56 + tid * 2 ^ 44 + r.srcTier * 2 ^ 42 + r.srcFrame) % 2 ^ 64)
          ∧ ∀ k, k < slotKey r.slot ∨ slotKey r.slot + 8 ≤ k → t.mem.read k = s.mem.read k)
        ∧ (r.state = .aborting → r.hinted = false → r.cancel = none → s.memReady (slotKey r.slot) = true → (∀ p ∈ s.posts, p.1 ≠ r.ctx) →
          ringFull (s.ctx r.ctx).eqhead (s.ctx r.ctx).eqtail (s.ctx r.ctx).eqSize = true →
          ∃ t, exec (.tlbsyncComplete die) s = .next t ∧ t.rec_ di tid = none ∧ (t.ctx r.ctx).eqOvf = true
            ∧ word t (slotKey r.slot) ((3 * 2 ^ 56 + tid * 2 ^ 44 + r.srcTier * 2 ^ 42 + r.srcFrame) % 2 ^ 64)))

/-! ### System registers, context commands, RESUME and the watchdog (R42, R52-R66, R93-R101, R293, R294, R309, R315, R321-R338) -/

/-- SYSR and SYSW take PERM with cause "system" outside launches with SYSP and ILLEGAL_OPERAND for an odd D, and enter FIFO Y
otherwise; performed, a SYSR writes the register's 64 bits, and each clears the flag, or sets it for an illegal selector or an ignored
write. A write of a register by WRITE_REGISTER follows the register's own rules: it is ignored where they say so, and otherwise the
register reads back as its fields were written (R293, R294).
That the flag is written when the access is performed, and bits above a register are ignored, is the reading of log 51 and log 52. That a
write of RNGSEL whose CHAN or WL names no ring, and one of SWL with a bit of [63:50], is ignored is log 88, that a write of RNGSTAT sets
FAULT and SPARE and leaves LOCK is log 81, that TXQUOTA holds at once is log 80, and that a write of TXRBASE or TXLBASE takes its ring's indices
modulo the new size, and one of LRBASE LRHEAD and LRTAIL, is log 83. A KEYSET or KEYCLR waits for the memory of the context's entry, and with it
the SYSW that makes it (R65, R358; log 46). -/
def Obligations.SystemRegisters : Prop :=
  (∀ (s : State) (d a : BitVec 6),
    let sp := s.curSplit
    (d.toNat % 2 = 1 → exec (.sysr d a) s = .next (s.scalarTrap .illegalOperand)
      ∧ exec (.sysw d a) s = .next (s.scalarTrap .illegalOperand))
    ∧ (d.toNat % 2 = 0 → Landed s [a.toNat, d.toNat, d.toNat + 1] → s.curGroup.sysp = false →
      exec (.sysr d a) s = .next (s.scalarFault ⟨.perm, .system, 0⟩) ∧ exec (.sysw d a) s = .next (s.scalarFault ⟨.perm, .system, 0⟩))
    ∧ (d.toNat % 2 = 0 → s.curGroup.sysp = true → s.fenced sp.uid = false →
      let enters := fun (i : Instr) (kind : EKind) (val : DWord) (dst : Option Nat) =>
        ∃ t e, exec i s = .next t ∧ RegFrame s t [] [] ∧ FallsThrough s t ∧ Enters s t [e] ∧ t.curSplit.flag = sp.flag
          ∧ e.kind = kind ∧ e.lpc = sp.sreg a.toNat ∧ e.word = val.setWidth 96 ∧ e.sdst = dst ∧ e.owners = [sp.uid]
      (Landed s [a.toNat] → enters (.sysr d a) .sysr 0 (some d.toNat))
      ∧ (Landed s [a.toNat, d.toNat, d.toNat + 1] → enters (.sysw d a) .sysw (sp.spair d.toNat) none)))
  ∧ (∀ (s : State) (id : Nat) (e : Entry) (n : Nat), s.ent id = some e → s.performOk e = true → e.esc = none → n < 8 →
    let g := s.group e.ag.core e.ag.slot
    g.live = true → g.tag = e.tag → (s.ctxCore e.ctx e.ag.core).saved = [] →
    (g.split n).status ≠ .absent → (g.split n).uid ∈ e.owners →
    let sq := fun (t : State) => (t.group e.ag.core e.ag.slot).split n
    (e.kind = .sysr → ∀ d, e.sdst = some d →
      let v := if selOk e.lpc then s.sysValue (selOf e.lpc) else 0
      ∃ t, exec (.perform id) s = .next t ∧ (∀ x, x ∈ t.ents ↔ x ∈ s.ents ∧ x.id ≠ id) ∧ (sq t).flag = !selOk e.lpc
        ∧ (sq t).sreg d = v.extractLsb' 0 32 ∧ (sq t).sreg (d + 1) = v.extractLsb' 32 32
        ∧ ∀ m, m ≠ d → m ≠ d + 1 → (sq t).sreg m = (g.split n).sreg m)
    ∧ (e.kind = .sysw → s.sysReady e.lpc (e.word.setWidth 64) = false → Waits (.perform id) s)
    ∧ (e.kind = .sysw → s.sysReady e.lpc (e.word.setWidth 64) = true → (s.dropEnt id).sysWrite e.lpc (e.word.setWidth 64) = (false, s.dropEnt id) →
      ∃ t, exec (.perform id) s = .next t ∧ (∀ x, x ∈ t.ents ↔ x ∈ s.ents ∧ x.id ≠ id) ∧ (sq t).flag = true
        ∧ (sq t).s = (g.split n).s)
    ∧ (e.kind = .sysw → s.sysReady e.lpc (e.word.setWidth 64) = true → ∀ u, (s.dropEnt id).sysWrite e.lpc (e.word.setWidth 64) = (true, u) → u.groups = s.groups →
      u.ctxCores = s.ctxCores →
      ∃ t, exec (.perform id) s = .next t ∧ t = { u with groups := t.groups } ∧ (sq t).flag = false ∧ (sq t).s = (g.split n).s))
  ∧ ∀ (s : State) (die core ctx i : Nat) (val : DWord), die < 4 → core < 256 → ctx < 1024 →
    let x := val.toNat
    let W := fun (block die unit index : Nat) (ok : Prop) (v : Nat) =>
      let sel : Word := BitVec.ofNat 32 (block * 2 ^ 28 + die * 2 ^ 26 + unit * 2 ^ 16 + index)
      (ok → ∃ t, exec (.writeRegister sel val) s = .next t ∧ SameBytes s t ∧ t.groups = s.groups ∧ t.ents = s.ents
        ∧ (t.sysValue ⟨block, die, unit, index⟩).toNat = v)
      ∧ (¬ok → Waits (.writeRegister sel val) s)
    let D := fun (block index : Nat) (ok : Prop) (v : Nat) => W block die 0 index ok v
    let C := fun (index : Nat) (ok : Prop) (v : Nat) => W 7 0 ctx index ok v
    let P := fun (block index : Nat) (ok : Prop) (v : Nat) => W block 0 0 index ok v
    D 1 0 True x ∧ D 1 13 True x ∧ (5 ≤ i → i < 13 → D 1 i True 0) ∧ (16 ≤ i → i < 20 → D 1 i True x)
    ∧ D 2 1 (x / 2 ^ 16 % 2 ^ 16 = 0) (x % 2 ^ 16) ∧ D 2 2 True (x % 2 ^ 32)
    ∧ D 2 9 True (x / 16 * 16) ∧ D 2 10 True (x % 4096)
    ∧ (∀ p ∈ [(3, 5), (3, 6), (4, 7), (4, 8)],
      let n := if x / 16 % 256 = 0 then 2 ^ (x % 16) else 0
      D 2 p.1 True x ∧ ∃ t, exec (.writeRegister (BitVec.ofNat 32 (2 * 2 ^ 28 + die * 2 ^ 26 + p.1)) val) s = .next t
        ∧ (t.sysValue ⟨2, die, 0, p.2⟩).toNat = (s.sysValue ⟨2, die, 0, p.2⟩).toNat % n)
    ∧ (let n := if x / 16 % 256 = 0 ∧ x % 16 ≠ 0 then 2 ^ (x % 16) else 0
      ∀ j ∈ [14, 15], ∃ t, exec (.writeRegister (BitVec.ofNat 32 (2 ^ 28 + die * 2 ^ 26 + 13)) val) s = .next t
        ∧ (t.sysValue ⟨1, die, 0, j⟩).toNat = (s.sysValue ⟨1, die, 0, j⟩).toNat % n)
    ∧ (let cmd := x / 2 ^ 60
      let named := x / 2 ^ 50 % 1024
      let key := physKey (4 * s.node.toNat + die) 0 ((s.die (4 * s.node.toNat + die)).mtctx.toNat + 16 * named)
      x % 2 ^ 49 = 0 → cmd = 3 ∨ cmd = 4 → (∀ p ∈ s.units, ¬(p.2.ctx = named ∧ p.2.ended = false ∧ p.2.away = false)) → s.memReady key = false →
        Waits (.writeRegister (BitVec.ofNat 32 (2 ^ 28 + die * 2 ^ 26 + 1)) val) s)
    ∧ W 3 die ctx 0 True (x % 2 ^ 32)
    ∧ D 4 0 (x / 2 ^ 21 % 2 ^ 11 = 0 ∧ x / 32 % 8 = 0 ∧ x / 2 ^ 14 % 128 ≤ 103 ∧ x % 32 ≤ 17) (x % 2 ^ 32)
    ∧ D 4 3 True (x % 8 / 2 * 2 + (s.sysValue ⟨4, die, 0, 3⟩).toNat % 2)
    ∧ D 4 4 (x / 2 ^ 17 % 2 ^ 15 = 0) (x % 2 ^ 17) ∧ D 4 6 (x / 512 % 2 ^ 23 = 0 ∧ x % 512 ≤ 291) (x % 512)
    ∧ D 4 7 (x / 2 ^ 16 % 2 ^ 16 = 0 ∧ x % 2 ^ 16 ≠ 0) (x % 2 ^ 16)
    ∧ P 5 0 (x / 2 ^ 10 % 2 ^ 22 = 0) (x % 1024) ∧ P 5 4 (x / 2 % 2 ^ 31 = 0) (x % 2)
    ∧ W 6 0 core 0 (x % 256 + x / 256 % 256 + x / 2 ^ 16 % 256 + x / 2 ^ 24 % 256 ≤ 240) (x % 2 ^ 32)
    ∧ W 6 0 core 5 (x / 2 ^ 26 % 64 = 0 ∧ x / 1024 % 64 = 0) (s.escUsed core * 65536 % 2 ^ 64 + min 512 (x % 1024))
    ∧ C 0 True (x % 8) ∧ C 1 True (x % 2 ^ 32) ∧ (i < 16 → C (2 + 2 * i) True (x % 2 ^ 48) ∧ C (3 + 2 * i) (x < 2 ^ 50) x)
    ∧ C 0x40 (x / 2 % 2 = 0 ∧ x / 2 ^ 60 ≤ 1) x ∧ C 0x41 (x / 4096 % 2 ^ 20 = 0 ∧ x % 2 = 0) (x % 2 ^ 32) ∧ C 0x42 True (x % 2 ^ 32)
    ∧ C 0x43 (x / 2 % 2 ^ 22 = 0 ∧ x / 2 ^ 60 = 0) x ∧ C 0x48 (x / 2 % 2 ^ 31 = 0) (x % 2)
    ∧ P 8 2 True x ∧ P 8 5 (x % 2 ^ 30 = 0 ∧ x / 2 ^ 60 = 0) x ∧ P 8 6 (x / 2 ^ 11 % 2 ^ 21 = 0) (x % 2 ^ 32)
    ∧ P 9 0 (1 ≤ x % 2 ^ 16 ∧ x % 2 ^ 16 ≤ 4400 ∧ 1 ≤ x / 2 ^ 16 % 2 ^ 16 ∧ x / 2 ^ 16 % 2 ^ 16 ≤ 4400) (x % 2 ^ 32)
    ∧ P 9 1 (x / 2 ^ 16 % 2 ^ 16 = 0 ∧ 500 ≤ x % 2 ^ 16 ∧ x % 2 ^ 16 ≤ Config.tdp) (x % 2 ^ 16) ∧ P 9 9 True (x % 2 ^ 32)
    ∧ P 9 11 (1 ≤ x / 256 % 256 ∧ x / 256 % 256 ≤ 9) (x % 2 ^ 16)
    ∧ (∀ sel : Word, selOk sel = false → Waits (.writeRegister sel val) s)
    ∧ ∀ p ∈ [(1, 3), (1, 4), (1, 15), (2, 5), (2, 8), (2, 11), (2, 12), (2, 13), (2, 14), (2, 15), (4, 2), (4, 5), (5, 3), (8, 1), (8, 3),
        (9, 2), (9, 3), (9, 4), (9, 5), (9, 6), (9, 7), (9, 12)],
      Waits (.writeRegister (BitVec.ofNat 32 (p.1 * 2 ^ 28 + p.2)) val) s

/-- The context commands: each moves the context on every core that it names when the table of R327 lists it for the state of every one of
them, and otherwise sets ERR and changes nothing; HALT is BKPT's effect too; DONE is set once the named cores have reached the command's goal,
at once where the command moves them there (R321, R327). A command that stops a running context's issue has every loop of its groups there stop
at its next boundary (R222, R328). EVICT_SAVE waits for the engines and array words. It sends the lines of the image that have changed since
they were sent, waits until they are written, and once nothing has changed gives the context's groups up on its core with the save holding
them; where nothing can be sent the context is left pre-empted with ERR (R330, R331; log 77). The image holds, at the offsets of R332 to R335,
the header, the unit table, the phaser list, the partitions, the record of each group with its splits, their queues, captures and joins, and its
rows, and of a discarded group the IDEMB record alone (R304, R337); what a restore reads back of a split, a group and its rows is what such
bytes say. A reply that lands after its group has been saved goes into the saved group, and the lines of the image that it changes are sent
again (R336). RESTORE_PLACE waits for room, sends a read of every line of the image, and then brings every saved group back to its slot, a
discarded one as its IDEMB record starts it (R338). The image is also kept in the state (log 39); RESTORE brings cluster sets back together
(log 32); and that a discarded group comes back as split 0 with all 32 lanes, whatever its lanes were, is the reading of log 53. -/
def Obligations.ContextCommands : Prop :=
  (∀ (s : State) (ctx : Nat) (all : Bool) (core : Nat), core < 256 → ctx < 1024 →
    let named := if all then (List.range 256).filter fun k => s.stateOn ctx k != .absent else [core]
    let moves := fun (i : Instr) (cores : List Nat) (from_ : List CtxState) (dest goal : CtxState) =>
      let ok := cores ≠ [] ∧ ∀ k ∈ cores, s.stateOn ctx k ∈ from_
      (¬ok → ∃ t, exec i s = .next t ∧ t = { s with ctxs := t.ctxs } ∧ t.ctx ctx = { s.ctx ctx with resErr := true })
      ∧ (ok → ∃ t, exec i s = .next t ∧ t = { s with ctxs := t.ctxs, ctxCores := t.ctxCores, snap := t.snap, groups := t.groups }
        ∧ (∀ k q, q < 64 → t.group k q =
          if k ∈ cores ∧ s.stateOn ctx k = .running ∧ (s.group k q).live = true ∧ (s.group k q).ctx = ctx then (s.group k q).haltLoop
          else s.group k q)
        ∧ t.ctx ctx = { s.ctx ctx with resErr := false, resCore := core, resAll := all, resGoal := some goal, resCores := cores,
                                       resDone := decide (dest = goal) }
        ∧ (∀ k ∈ cores, t.stateOn ctx k = dest)
        ∧ ∀ c k, c ≠ ctx ∨ k ∉ cores → k < 256 → (∀ j ∈ cores, j < 256) → t.ctxCore c k = s.ctxCore c k)
    moves (.preempt ctx all core) named [.running] .preempted .preempted
    ∧ moves (.halt ctx all core) named [.running, .preempted] .halted .halted
    ∧ moves (.run ctx all core) named [.preempted, .halted] .running .running
    ∧ moves (.evict ctx all core) (s.linkedCores ctx false named) [.running, .preempted, .halted] .evicting .evicted
    ∧ moves (.restore ctx all core) (s.linkedCores ctx true named) [.evicted] .restoring .running
    ∧ (∃ t, exec (.query ctx all core) s = .next t ∧ t = { s with ctxs := t.ctxs }
      ∧ t.ctx ctx = { s.ctx ctx with resErr := (!all && s.stateOn ctx core == .absent), resCore := core, resAll := all, resGoal := some .absent,
                                       resCores := [], resDone := true }
      ∧ ∀ c, c ≠ ctx → t.ctx c = s.ctx c))
  ∧ (∀ (s : State) (ctx core : Nat),
    let slots := ((s.groupsOn core).filter fun p => p.2.ctx == ctx).map (·.1)
    let u := s.chooseDiscards ctx core
    let now := imageLines ((u.withdrawAll ctx core).image ctx core)
    let ls := newLines now ((s.ctxCore ctx core).sent.getD [])
    let base := s.imageAddr ctx core
    (s.stateOn ctx core ≠ .evicting ∨ s.evictWaits ctx core = true ∨ s.saving ctx core = true → Waits (.evictSave ctx core) s)
    ∧ (s.stateOn ctx core = .evicting → s.evictWaits ctx core = false → s.saving ctx core = false →
      (∀ k ∈ slots, (s.group core k).arr = none) → (∀ e ∈ s.ents, inFifos ctx core e = false) →
      (ls ≠ [] → s.saveOpen core ctx base = true →
        ∃ t es, exec (.evictSave ctx core) s = .next t ∧ SameBytes s t ∧ t.stateOn ctx core = .evicting ∧ (t.ctxCore ctx core).sent = some now
          ∧ t.ents = s.ents ++ es ∧ (∀ k ∈ slots, t.group core k = { s.group core k with disc := (t.group core k).disc })
          ∧ List.Forall₂ (fun p x => x.kind = .save ∧ x.ag.core = core ∧ x.ctx = ctx ∧ x.op = 0
              ∧ x.parts = [⟨0, base + BitVec.ofNat 64 p.1, p.2.length, p.2⟩] ∧ x.line = lineOf (base + BitVec.ofNat 64 p.1)) ls es)
      ∧ (ls ≠ [] → s.saveOpen core ctx base = false →
        ∃ t, exec (.evictSave ctx core) s = .next t ∧ t.stateOn ctx core = .preempted ∧ (t.ctx ctx).resErr = true
          ∧ (∀ k ∈ slots, t.group core k = { s.group core k with disc := false })
          ∧ ∀ c q, (∀ k ∈ slots, slotKey c q ≠ slotKey core k) → t.group c q = s.group c q)
      ∧ (ls = [] →
        ∃ t, exec (.evictSave ctx core) s = .next t ∧ t.stateOn ctx core = .evicted
          ∧ (∀ k ∈ slots, (t.group core k).live = false ∧ Tab.has (t.ctxCore ctx core).saved k = true
            ∧ ((s.group core k).idem = false → (s.group core k).disc = false → (Tab.get Group.empty (t.ctxCore ctx core).saved k).v = (s.group core k).v
              ∧ (Tab.get Group.empty (t.ctxCore ctx core).saved k).g = (s.group core k).g))
          ∧ ∀ c q, (∀ k ∈ slots, slotKey c q ≠ slotKey core k) → (t.group c q).live = (s.group c q).live)))
  ∧ (∀ (img : List ImgPiece),
    (∀ p ∈ imageLines img, p.2 ≠ [] ∧ p.1 % 128 + p.2.length ≤ 128)
    ∧ (∀ p ∈ img, ∀ i, i < p.2.length → ∃ q ∈ imageLines img, q.1 ≤ p.1 + i ∧ q.2[p.1 + i - q.1]? = p.2[i]?)
    ∧ newLines img [] = img ∧ newLines img img = []
    ∧ ∀ (old : List ImgPiece), old.map (·.1) = img.map (·.1) → ∀ (i : Nat) (p q : ImgPiece), img[i]? = some p → old[i]? = some q → p ≠ q → p ∈ newLines img old)
  ∧ (∀ (s : State) (ctx core : Nat),
    let img := s.image ctx core
    let slots := ((s.groupsOn core).filter fun p => p.2.ctx == ctx).map (·.1)
    let saved := (List.range 64).filter fun k => slots.contains k && !(s.group core k).disc
    let us := s.ctxUnits ctx core false
    let objs := s.ctxObjs ctx core
    let late := s.ents.countP fun e => (e.returns || e.kind == .arrive) && saved.any fun k => e.inGroup core k (s.group core k).tag
    ImageHas img 0 (words4 [1, ctx, core, slots.length, us.length, late] ++ List.replicate 40 0)
    ∧ (∀ u, u ∈ us ↔ u ∈ s.units ∧ u.2.ctx = ctx ∧ u.2.core = core ∧ u.2.ended = false ∧ u.2.away = false)
    ∧ us.Pairwise (fun x y => x.2.pbase ≤ y.2.pbase)
    ∧ (∀ i, i < 64 → ImageHas img (0x100 + 64 * i) (match us[i]? with
      | some u => words4 [u.2.launch.toNat, u.2.index, u.2.csIdx, u.2.psize, u.2.pbase] ++ List.replicate 44 0
      | none => List.replicate 64 0))
    ∧ (∀ o, o ∈ objs ↔ ∃ u ∈ us, ∃ p ∈ (s.core core).phasers, p.unit = u.1 ∧ o = (u.1, u.2.index, p.off - u.2.pbase))
    ∧ objs.Pairwise (fun x y => x.2.1 < y.2.1 ∨ x.2.1 = y.2.1 ∧ x.2.2 ≤ y.2.2)
    ∧ (∀ i, i < 128 → ImageHas img (0x2000 + 8 * i) (match objs[i]? with
      | some o => words4 [o.2.1, o.2.2]
      | none => List.replicate 8 0))
    ∧ (∀ u ∈ us, 0 < u.2.psize → ImageHas img (0x510000 + u.2.pbase) (s.scrRead ctx core u.2.pbase u.2.psize))
    ∧ (∀ k ∈ saved,
      let g := s.group core k
      let off := ((saved.filter (· < k)).map fun j => (s.group core j).regs).sum
      let R := 0x10000 + 0x10000 * k
      (∀ n, n < 8 → (g.split n).status ≠ .absent → SplitImage img (R + 0x400 + 0x1000 * n) (g.split n) g.sbase)
      ∧ RecordImage img R s core k off
      ∧ ImageHas img (R + 0x8BF0) (List.replicate 0x410 0)
      ∧ ∀ n, n < g.regs → ImageHas img (0x410000 + 128 * (off + n)) (words4 ((List.range 32).map fun l => (g.vreg n l).toNat)))
    ∧ ∀ k ∈ slots, k < 64 → (s.group core k).disc = true →
      let R := 0x10000 + 0x10000 * k
      ImageHas img (R + 0x8540) (words4 [1]) ∧ ImageHas img (R + 0x8800) (idemImage (s.group core k).mark (s.group core k).sbase)
      ∧ ∀ p ∈ img, R ≤ p.1 → p.1 < R + 0x10000 → p.1 = R + 0x8540 ∨ p.1 = R + 0x8800)
  ∧ (∀ (sp q : Split) (sbase : DWord) (b : List Byte), SplitImage [(0, b)] 0 sp sbase →
    let r := q.readBack sbase b
    (∀ m, m < 64 → r.sreg m = sp.sreg m) ∧ (∀ m, m < 32 → r.areg m = sp.areg m)
    ∧ r.lpc = sp.lpc ∧ r.mask = sp.mask ∧ r.flag = sp.flag ∧ ((sp.spc - sbase).toNat < 2 ^ 32 → r.spc = sp.spc)
    ∧ (sp.loops.length ≤ 4 → r.loops = sp.loops)
    ∧ (∀ i x e, i < 16 → sp.queue[i]? = some e → q.queue[i]? = some x →
      r.queue[i]? = some { x with word := e.word, capA := e.capA, capB := e.capB, capC := e.capC })
    ∧ ∀ i x e, i < 4 → sp.savedJoins.reverse[i]? = some e → q.savedJoins.reverse[i]? = some x →
      ∃ y, r.savedJoins.reverse[i]? = some y ∧ y.kind = e.kind ∧ y.join = e.join ∧ (e.brvid < 2 ^ 32 → y.brvid = e.brvid)
        ∧ (e.kind = .serial → y.lanes = e.lanes ∧ y.next = e.next ∧ y.lpc = e.lpc ∧ (e.stage < 2 ^ 32 → y.stage = e.stage)
          ∧ (e.loops.length ≤ 4 → y.loops = e.loops)))
  ∧ (∀ (s : State) (core slot off : Nat) (h : Group) (b : List Byte), RecordImage [(0x8400, b)] 0 s core slot off →
    let g := s.group core slot
    let r := h.readBack b
    r.mls0 = g.mls0 ∧ r.mls1 = g.mls1 ∧ r.mls2 = g.mls2 ∧ r.mls3 = g.mls3 ∧ (g.mls0.getLsbD 31 = true → r.seqr = g.seqr)
    ∧ (∀ n, 1 ≤ n → n < 8 → r.preg n = g.preg n) ∧ (∀ n, n < 16 → r.tmreg n = g.tmreg n)
    ∧ r.udiv = g.udiv ∧ r.accov = g.accov ∧ r.uaff = g.uaff ∧ r.ureg = g.ureg ∧ r.erc = g.erc
    ∧ (∀ n, n ∈ r.pend ↔ n < 640 ∧ n < g.regs ∧ s.pendingReg core slot n = true
      ∧ ∀ p ∈ h.heldEnts.flatMap Entry.windows ++ ((h.arr.map (·.wins)).getD []), n < p.1 ∨ p.1 + p.2 ≤ n)
    ∧ ∀ m k, g.mark = some m → h.mark = some k → ∃ m', r.mark = some m'
      ∧ (∀ n, n < 64 → Tab.get 0 m'.s n = Tab.get 0 m.s n) ∧ (∀ n, n < 32 → Tab.get ⟨0, 0⟩ m'.a n = Tab.get ⟨0, 0⟩ m.a n)
      ∧ (∀ n, 1 ≤ n → n < 8 → Tab.get 0 m'.p n = Tab.get 0 m.p n) ∧ (∀ n, n < 16 → Tab.get 0 m'.tm n = Tab.get 0 m.tm n)
      ∧ m'.lpc = m.lpc ∧ m'.flag = m.flag ∧ (m.g < 2 ^ 32 → m'.g = m.g) ∧ (m.loops.length ≤ 4 → m'.loops = m.loops)
      ∧ (h.sbase = g.sbase → (m.spc - g.sbase).toNat < 2 ^ 32 → m'.spc = m.spc))
  ∧ (∀ (s y : State) (ctx core slot : Nat) (g h : Group), s.readGroup ctx core slot g = (some h, y) →
    let reads := fun (off n : Nat) (b : List Byte) => ∃ x, SameBytes s x ∧ (x.readImage ctx core off n).1 = some b
    let R := 0x10000 + 0x10000 * slot
    SameBytes s y
    ∧ (∀ p, (s.ctxCore ctx core).rowOff.find? (fun p => p.1 == slot) = some p →
      ∃ b r, reads (R + 0x8400) 0x7F0 b ∧ reads (0x410000 + 128 * p.2) (128 * g.regs) r
        ∧ h = { g.readBack b with v := h.v, under := [], splits := h.splits }
        ∧ (∀ n l, n < g.regs → l < 32 → (h.vreg n l).toNat = ofBytes ((r.drop (128 * n + 4 * l)).take 4))
        ∧ ∀ n, n < 8 → ((g.split n).status = .absent → h.split n = g.split n)
          ∧ ((g.split n).status ≠ .absent → ∃ d, reads (R + 0x400 + 0x1000 * n) 0xE00 d ∧ h.split n = (g.split n).readBack g.sbase d))
    ∧ ((s.ctxCore ctx core).rowOff.find? (fun p => p.1 == slot) = none →
      ∃ b k, reads (R + 0x8800) 0x3F0 b ∧ h = { g with mark := some (idemOf g.sbase b) }.restart (g.split 0).uid k))
  ∧ (∀ (s : State) (id : Nat) (e : Entry) (k : Nat) (g : Group), s.ent id = some e → e.kind = .load ∨ e.kind = .gAtomic →
    let core := e.ag.core
    let slot := e.ag.slot
    ((s.group core slot).live = false ∨ (s.group core slot).tag ≠ e.tag) → (s.ctxCore e.ctx core).holder e = some (k, g) →
    (s.ctxCore e.ctx core).saved.Pairwise (fun p q => p.1 ≠ q.1) →
    (∃ key tick, e.resp = .ok key tick) → s.replyOk e = true → e.acq = none →
    let byte := fun (p : Part) (i : Nat) =>
      if e.kind = .gAtomic ∨ e.bound = true then p.data[i]? else (s.takeByte e (p.addr + BitVec.ofNat 64 i) (s.mustGoHome e)).map (·.byte)
    let image := fun (p : Part) (j : Nat) (v : Word) =>
      ∀ i, i < 32 → 8 * (4 * j) + i < 8 * p.width → ∀ b, byte p (4 * j + i / 8) = some b → v.getLsbD i = b.getLsbD (i % 8)
    (e.kind = .gAtomic ∨ e.bound = true → ∀ p ∈ e.parts, p.data.length = p.width) →
    (∀ p ∈ e.parts, ∀ i, i < p.width → byte p i ≠ none) → e.parts.Pairwise (fun p q => p.lane ≠ q.lane) →
    (∀ p ∈ e.parts, p.lane < 32 ∧ p.width ∈ [1, 2, 4, 8, 16] ∧ (e.dstN > 0 → e.dstN = if p.width ≤ 4 then 1 else p.width / 4)) →
    ∃ u old regs, exec (.completeLoad id) s = .next (u.reimage old e regs) ∧ SameBytes s u ∧ u.groups = s.groups
      ∧ old.savedPieces e.ctx core slot regs = s.savedPieces e.ctx core slot regs
      ∧ (let c := u.ctxCore e.ctx core
      let h := Tab.get Group.empty c.saved slot
      c = { s.ctxCore e.ctx core with saved := c.saved } ∧ c.holder e = some (slot, h)
        ∧ h = { g with v := h.v, under := h.under, splits := h.splits }
        ∧ (∀ r, r ∉ regs → ∀ l, l < 32 → h.vreg r l = g.vreg r l)
        ∧ (∀ p ∈ e.parts, ∀ j, j < e.dstN → image p j (h.vreg (e.dst + j) p.lane))
        ∧ (∀ z, e.esc = some z → ∀ j l, j < z.count → l < 32 →
          (e.dstN = 0 ∨ z.base + j < e.dst ∨ e.dst + e.dstN ≤ z.base + j ∨ ∀ p ∈ e.parts, p.lane ≠ l) →
          h.vreg (z.base + j) l = Tab.get 0 z.rows (32 * j + l)))
      ∧ (∀ y ∈ u.ents, y.id ≠ id ∧ ∃ x ∈ s.ents, y = { x with parts := y.parts }) ∧ (∀ x ∈ s.ents, x.id ≠ id → ∃ y ∈ u.ents, y = { x with parts := y.parts })
      ∧ (s.ents.countP (fun x => x.id == id) = 1 → 0 < e.dstN ∨ e.kind = .load → u.late e.ctx core + 1 = s.late e.ctx core))
  ∧ (∀ (s old : State) (e : Entry) (g : Group) (off k : Nat) (regs : List Nat),
    let core := e.ag.core
    let slot := e.ag.slot
    (s.ctxCore e.ctx core).holder e = some (k, g) → (s.ctxCore e.ctx core).rowOff.find? (fun p => p.1 == slot) = some (slot, off) →
    (∀ h, (s.ctxCore e.ctx core).saved.find? (fun p => p.1 == slot) = some h → h.2 = g) →
    let R := 0x10000 + 0x10000 * slot
    let now := s.savedPieces e.ctx core slot regs
    let base := s.imageAddr e.ctx core
    (∀ n, n < 8 → (g.split n).status ≠ .absent → SplitImage now (R + 0x400 + 0x1000 * n) (g.split n) g.sbase)
    ∧ RecordImage now R (s.setGroup core slot g) core slot off
    ∧ (∀ r ∈ regs, ImageHas now (0x410000 + 128 * (off + r)) (words4 ((List.range 32).map fun l => (g.vreg r l).toNat)))
    ∧ ImageHas now 0x14 (words4 [s.late e.ctx core])
    ∧ (s.saveOpen core e.ctx base = true →
      ∃ es, (s.reimage old e regs).ents = s.ents ++ es ∧ SameBytes s (s.reimage old e regs)
        ∧ List.Forall₂ (fun p x => x.kind = .save ∧ x.ag.core = core ∧ x.ctx = e.ctx ∧ x.op = 0
            ∧ x.parts = [⟨0, base + BitVec.ofNat 64 p.1, p.2.length, p.2⟩] ∧ x.line = lineOf (base + BitVec.ofNat 64 p.1))
          (newLines (imageLines now) (imageLines (old.savedPieces e.ctx core slot regs))) es))
  ∧ ∀ (s : State) (ctx core : Nat),
    let c := s.ctxCore ctx core
    let open_ := s.stateOn ctx core = .restoring ∧ s.restoreRoom ctx core = true ∧ s.saving ctx core = false
      ∧ s.coreCheck core ctx (s.imageAddr ctx core) = none
    (¬open_ → Waits (.restorePlace ctx core) s)
    ∧ (s.linkedCores ctx true [core] = [core] → open_ → c.sent = none →
      ∃ t es, exec (.restorePlace ctx core) s = .next t ∧ SameBytes s t ∧ t.groups = s.groups ∧ t.ents = s.ents ++ es
        ∧ t.ctxCore ctx core = { c with sent := some [] }
        ∧ (∀ x ∈ es, x.kind = .saveRead ∧ x.ag.core = core ∧ x.ctx = ctx)
        ∧ (let reads := fun (off n : Nat) => ∀ i, i < n → ∃ x ∈ es, lineOf x.line = lineOf (s.imageAddr ctx core + BitVec.ofNat 64 (off + i))
        (∀ u ∈ s.ctxUnits ctx core true, reads (0x510000 + u.2.pbase) u.2.psize) ∧ reads 0x2000 (8 * c.objs.length)
          ∧ ∀ p ∈ c.saved,
            let R := 0x10000 + 0x10000 * p.1
            (c.rowOff.find? (fun q => q.1 == p.1) = none → reads (R + 0x8800) 0x3F0)
            ∧ ∀ q, c.rowOff.find? (fun q => q.1 == p.1) = some q → reads (R + 0x8400) 0x7F0 ∧ reads (0x410000 + 128 * q.2) (128 * p.2.regs)
              ∧ ∀ n, n < 8 → (p.2.split n).status ≠ .absent → reads (R + 0x400 + 0x1000 * n) 0xE00))
    ∧ (∀ k g, s.stateOn ctx core = .restoring → s.restoreRoom ctx core = true → c.rowOff = [] → c.objs = [] → c.saved = [(k, g)] →
      (∀ u ∈ s.ctxUnits ctx core true, u.2.psize = 0) → (s.readImage ctx core (0x10000 + 0x10000 * k + 0x8800) 0x3F0).1 ≠ none →
      ∃ t, s.restoreCore ctx core = some t)
    ∧ ∀ t, s.linkedCores ctx true [core] = [core] → open_ → c.sent ≠ none → s.restoreCore ctx core = some t → c.saved ≠ [] →
      c.saved.Pairwise (fun p q => p.1 ≠ q.1) → (∀ p ∈ c.saved, p.1 < 64 ∧ p.2.live = true ∧ p.2.ctx = ctx) →
      exec (.restorePlace ctx core) s = .next (t.noteDone ctx) ∧ t.stateOn ctx core = .running ∧ (t.ctxCore ctx core).saved = []
        ∧ ∀ p ∈ c.saved,
          let g := t.group core p.1
          g.live = true ∧ g.ctx = ctx ∧ g.num = p.2.num ∧ g.unit = p.2.unit ∧ g.launch = p.2.launch
            ∧ g.sbase = p.2.sbase ∧ g.lbase = p.2.lbase ∧ g.slots = p.2.slots ∧ g.idem = p.2.idem ∧ g.sysp = p.2.sysp
            ∧ (Tab.has c.rowOff p.1 = true → g.g = p.2.g)
            ∧ (Tab.has c.rowOff p.1 = false → g.v = [] ∧ ∃ sp, g.splits = [(0, sp)] ∧ sp.status = .running ∧ sp.mask = Mask.full)
            ∧ ∀ l1 l2, c.saved = l1 ++ p :: l2 →
              ∃ s1 s2 x h y, (s.enterCore ctx core).putUnits ctx core (s.ctxUnits ctx core true) = some s1
                ∧ s1.putObjs ctx core c.objs = some s2 ∧ s2.putGroups ctx core l1 = some x ∧ x.readGroup ctx core p.1 p.2 = (some h, y)
                ∧ g = { h with splits := g.splits, tag := g.tag }
                ∧ ∀ n, n < 8 → g.split n = { h.split n with held := (g.split n).held }

/-- RESUME: a malformed command, or one for a split that does not await it, sets ERR; a retry that carries a token, or that reaches a
context that does not run, is held; and of a split that parked whole, retry goes on at the faulting word, skip after it, and end ends
the split. RESUME_REPLAY applies a held one when its context runs and its token has been acknowledged. A report that waited for the
record is made afterwards, unless an eviction has chosen to discard the group, and an expired watchdog makes every split that runs take
WATCHDOG, whatever the state of its context on the core (R309, R315, R320, R322-R324, R330).
That WATCHDOG parks each split in the step of the expiry is the reading of log 54. -/
def Obligations.Resumes : Prop :=
  let whole := fun (sp : Split) => sp.record.nest = false ∧ sp.rest = 0 ∧ sp.replay = [] ∧ sp.joins = [] ∧ sp.record.mask ≠ 0
    ∧ sp.record.rpl = false ∧ sp.record.scw = !sp.headFault
  let resumed := fun (sp : Split) (act : Nat) (tv : Bool) =>
    { sp with
      status := .running, mask := sp.record.mask, resume := none, fetched := none, wait := .none,
      spc := if act = 1 ∧ sp.headFault = false then sp.spc + 4 else sp.spc,
      queue := if act = 1 ∧ sp.headFault = true then sp.queue.drop 1 else sp.queue,
      headFault := decide (act = 0) && sp.headFault,
      lastTry := if act = 0 ∧ tv = false then some ⟨sp.record.kind, sp.record.cause, sp.record.vaddr⟩ else none }
  (∀ (s : State) (ctx : Nat) (cmd : DWord) (k : Nat) (i : Instr),
    (k, i) ∈ [(0, Instr.resumeRetry ctx cmd), (1, .resumeSkip ctx cmd), (2, .resumeEnd ctx cmd)] →
    let n := cmd.toNat
    let ag : Agent := ⟨n / 2 ^ 47 % 256, n / 2 ^ 41 % 64, n / 2 ^ 38 % 8⟩
    let tv := n / 2 ^ 57 % 2 = 1
    let form := n / 2 ^ 60 = 1 ∧ n / 2 ^ 32 % 64 = 0
    let g := s.groupOf ag
    let sp := s.splitOf ag
    let here := g.live = true ∧ g.ctx = ctx
    let awaits := sp.status = .parked ∧ sp.record.kind ≠ .lease
    let refused := exec i s = .next (s.setCtx ctx { s.ctx ctx with fltErr := true })
    (n / 2 ^ 58 % 4 ≠ k → Waits i s)
    ∧ (n / 2 ^ 58 % 4 = k → ¬form → refused) ∧ (n / 2 ^ 58 % 4 = k → form → here → ¬awaits → refused)
    ∧ (n / 2 ^ 58 % 4 = k → form → ¬here → (s.ctxCore ctx ag.core).saved = [] → refused)
    ∧ (n / 2 ^ 58 % 4 = k → form → here → awaits →
      let held := k = 0 ∧ (tv ∨ s.stateOn ctx ag.core ≠ .running)
      (held → ∃ t, exec i s = .next t ∧ t = { s with ctxs := t.ctxs, groups := t.groups } ∧ (t.ctx ctx).fltErr = false
        ∧ t.splitOf ag = { sp with
            status := .resumePending, resume := some ⟨0, decide tv, n / 2 ^ 55 % 4, BitVec.ofNat 32 n⟩ })
      ∧ (¬held → whole sp → k < 2 → ∃ t, exec i s = .next t ∧ (t.ctx ctx).fltErr = false ∧ SameBytes s t ∧ t.ents = s.ents
        ∧ t.splitOf ag = { resumed sp k (decide tv) with record := { sp.record with nest := false } }
        ∧ ∀ m, m ≠ ag.split → (t.groupOf ag).split m = g.split m)
      ∧ (¬held → whole sp → sp.setJoins = [] → k = 2 → ∃ t, exec i s = .next t ∧ (t.splitOf ag).status = .absent)))
  ∧ (∀ (s : State) (ag : Agent),
    let sp := s.splitOf ag
    let g := s.groupOf ag
    (sp.status ≠ .resumePending ∨ sp.resume = none → Waits (.resumeReplay ag) s)
    ∧ ∀ h, sp.status = .resumePending → sp.resume = some h → g.live = true →
      let ready := s.stateOn g.ctx ag.core = .running
        ∧ (h.act ≠ 0 ∨ h.tv = false ∨ ((s.die (4 * s.node.toNat + h.tdie % 4)).mtack - h.token).toNat < 2 ^ 31)
      (¬ready → Waits (.resumeReplay ag) s)
      ∧ (ready → h.act = 0 → whole sp → ∃ t, exec (.resumeReplay ag) s = .next t ∧ SameBytes s t ∧ t.ents = s.ents
        ∧ t.splitOf ag = { resumed sp 0 h.tv with record := { sp.record with nest := false } }))
  ∧ (∀ (s : State) (ag : Agent),
    let sp := s.splitOf ag
    let g := s.groupOf ag
    (sp.held = [] → Waits (.deferredFaultReport ag) s)
    ∧ ∀ h, sp.held = [h] → g.live = true → g.disc = false → sp.status = .running → sp.joins = [] → h.entry.scw = false → h.entry.ag = ag →
      h.entry.tag = g.tag → h.entry.wholeSplit = false → sp.mask ≠ 0 → h.entry.lanes = sp.mask → h.fail.kind ≠ .lease → ag.split < 8 →
      (∀ n, n < 8 → n ≠ ag.split → (g.split n).status = .absent) → (s.ctx g.ctx).toHandler h.fail.kind false = false →
      ∃ t, exec (.deferredFaultReport ag) s = .next t ∧ (t.splitOf ag).status = .parked ∧ (t.splitOf ag).held = sp.drainReport
        ∧ (t.splitOf ag).record.kind = h.fail.kind ∧ (t.splitOf ag).record.mask = sp.mask ∧ (t.splitOf ag).record.scw = false
        ∧ (t.splitOf ag).s = sp.s)
  ∧ ∀ (s : State) (ctx : Nat),
    let counts := (s.ctx ctx).wdint ≠ 0 ∧ s.awaitingResume ctx = false ∧ ∃ p ∈ s.splitsOfCtx ctx, s.stateOn ctx p.1.core = .running
    (¬counts → Waits (.watchdogExpiry ctx) s)
    ∧ (counts → ∃ t, exec (.watchdogExpiry ctx) s = .next t ∧ ∀ ag sp, (ag, sp) ∈ s.splitsOfCtx ctx → s.splitOf ag = sp →
      sp.status = .running → sp.drain = none → (s.ctx ctx).toHandler .watchdog false = false →
      (t.splitOf ag).status = .parked ∧ (t.splitOf ag).record.kind = .watchdog ∧ (t.splitOf ag).record.mask = sp.mask
        ∧ (t.splitOf ag).record.scw = sp.queue.isEmpty)

/-! ### Links, ports, power, bring-up and snapshots (R89, R97-R110, R113, R114, R341, R353-R362) -/

/-- FRAME_BOUNDARY and DRIFT_LOOP_PASS; a link's flits, received or acknowledged; the loss of wavelengths, its notice, and their
restoration; a port that goes down, a peer that is lost, and the host's window. A group with 8 live wavelengths or more is restriped and
one with fewer goes out of service, and each event posts its record (R97, R101, R105, R107, R108, R113, R114, R362). A packet larger than what is
left of its quota waits for a frame that it starts (R98), and each gateway takes a fibre's groups in a turn of its own (R105, R341).
TIME of a record, and REPLAYED of a loss on a receive fibre, are free values (log 7, log 42); packets are counts of flits, and what a
group out of service still holds is replayed as other groups have room (log 20); that the spare stands in for one wavelength of its channel at
a time is the reading of log 81; that a flit that fails is replayed by its sender, the peer, is not seen here, MAC failures are counted by
group of a receive fibre and a CRC failure leaves the count (log 82), and a fibre that loses its last group posts reasons 2 and 3 (log 86); a
frame boundary is where the domain map changes (log 63). A move out of a port or a lost peer ends with its leaf in STATE 2 and reason 2
(R89), and a move into a port that goes down with its leaf at the source and reason 1, which is the model's reading (log 75); a leaf that
software has changed gives reason 4 instead. An access of the host leaves by die 0's gateway under die 0's key (R106; log 69). The far end's count of link MAC failures is the peer's (log 74); what the host sends and sees
of its window is log 21. -/
def Obligations.Links : Prop :=
  ∀ (s : State),
    let node := s.node.toNat
    (∃ u t, exec .frameBoundary s = .next t
      ∧ u = { s with chframe := s.chframe + 1, inForce := s.quotas, spent := [], frameAt := s.tick, domain := s.domainNow, dies := u.dies }
      ∧ (∀ d,
        let x := s.die d
        let past := (s.chframe + 1 - x.lastDecay).toNat
        u.die d = { x with
            spent := min (x.spent - x.txquota) x.txquota, heat := (u.die d).heat, lastDecay := (u.die d).lastDecay }
          ∧ (past < 2 ^ 31 → (u.die d).heat = x.heat ∧ (u.die d).lastDecay = x.lastDecay)
          ∧ (2 ^ 31 ≤ past → (u.die d).heat = x.heat.map fun h => { h with count := h.count / 2 ^ (past / x.txdecay.toNat) }))
      ∧ (∀ i, u.quotaNow i = s.quota i ∧ u.spentBy i = 0)
      ∧ (s.chframe + 1 = s.snap.frame → Armed s 17 → Fires u t 17) ∧ (s.chframe + 1 ≠ s.snap.frame ∨ ¬Armed s 17 → t = u))
    ∧ (∀ i n, s.mayCharge i n = true ↔ s.spentBy i + n ≤ s.quotaNow i ∨ s.spentBy i = 0 ∧ s.frameAt = s.tick)
    ∧ (∀ gate fibre n : Nat, gate < 4 → fibre < 64 →
      let turn := Tab.get 0 s.turns (64 * gate + fibre)
      let runs := fun (g : Nat) => (s.link (8 * fibre + g)).service = true ∧ (s.link (8 * fibre + g)).replay.length < 256
      (∀ g, s.turnGroup gate fibre n = some g ↔ ∃ i, i < 4 ∧ g = (turn + i) % 4 ∧ runs g ∧ (s.link (8 * fibre + g)).replay.length + n ≤ 256
        ∧ ∀ j, j < i → ¬runs ((turn + j) % 4))
      ∧ ∀ g, g < 4 →
        let t := s.sendOn gate fibre g n
        let l := s.link (8 * fibre + g)
        t = { s with links := t.links, turns := t.turns } ∧ Tab.get 0 t.turns (64 * gate + fibre) = (g + 1) % 4
          ∧ (∀ k, k ≠ 64 * gate + fibre → Tab.get 0 t.turns k = Tab.get 0 s.turns k)
          ∧ t.link (8 * fibre + g) = { l with
              next := l.next + BitVec.ofNat 32 n
              replay := l.replay ++ (List.range n).map fun i => ⟨l.next + BitVec.ofNat 32 i, l.next, gate⟩ }
          ∧ ∀ k, k ≠ 8 * fibre + g → t.link k = s.link k)
    ∧ (∀ die, die < 4 →
      let d := s.die (4 * node + die)
      (d.rngLoop = false → Waits (.driftLoopPass die) s)
      ∧ (d.rngLoop = true → ∃ t, exec (.driftLoopPass die) s = .next t ∧ t = { s with dies := t.dies }
        ∧ (∀ j, j ≠ 4 * node + die → t.die j = s.die j)
        ∧ ∀ chan site wl, chan < 104 → site < 64 → wl < 18 →
          let k := chan * 2 ^ 14 + site * 2 ^ 8 + wl
          let err : Int := (Config.ringPhotodiode k s.tick).toNat - Config.ringTarget k
          let r := (t.die (4 * node + die)).ring k
          ((r.code.toNat : Int) = max 0 (min 4095 ((d.ring k).code.toNat - Config.ringGain * err)))
            ∧ r.lock = decide ((err.natAbs : Int) ≤ Config.ringWindow)
            ∧ (r.fault = true ↔ (d.ring k).fault = true
              ∨ r.lock = false ∧ 63 ≤ (d.ring k).low ∧ (r.code = 0 ∨ r.code = 4095))
            ∧ (r.spare = true → (d.ring k).spare = true ∨ r.fault = true ∧ wl < 16
              ∧ ∀ site' wl', site' < 64 → wl' < 16 → wl' ≠ wl → ((t.die (4 * node + die)).ring (chan * 2 ^ 14 + site' * 2 ^ 8 + wl')).spare = false)))
    ∧ (∀ fibre grp (seq : Word), fibre < 64 → grp < 4 →
      let k := 8 * fibre + 4 + grp
      let l := s.link k
      let becomes := fun (i : Instr) (m : Link) => ∃ t, exec i s = .next t ∧ t = { s with links := t.links } ∧ t.link k = m
        ∧ ∀ j, j ≠ k → t.link j = s.link j
      (l.service = false → ∀ c m, Waits (.flitReceive fibre grp seq c m) s)
      ∧ (l.service = true → (∀ m, exec (.flitReceive fibre grp seq false m) s = .next s)
        ∧ becomes (.flitReceive fibre grp seq true true)
          { l with macBad := 0, expect := if seq = l.expect then l.expect + 1 else l.expect }
        ∧ (l.macBad < 15 → becomes (.flitReceive fibre grp seq true false) { l with macBad := l.macBad + 1 })
        ∧ (15 ≤ l.macBad → ∃ t, exec (.flitReceive fibre grp seq true false) s = .next t ∧ Degrades s t 4 true fibre grp l.live 0
          ∧ ∀ g, g < 4 → (t.link (8 * fibre + 4 + g)).service = false)))
    ∧ (∀ fibre grp (seq : Word), fibre < 64 → grp < 4 →
      let k := 8 * fibre + grp
      let l := s.link k
      ((∀ x ∈ l.replay, x.seq ≠ seq) → Waits (.flitAck fibre grp seq) s)
      ∧ ((∃ x ∈ l.replay, x.seq = seq) → ∃ u t, exec (.flitAck fibre grp seq) s = .next t ∧ Replays u t
        ∧ u = { s with links := u.links } ∧ u.link k = { l with replay := l.replay.filter (·.seq ≠ seq) } ∧ ∀ j, j ≠ k → u.link j = s.link j))
    ∧ (∀ fibre grp (rx : Bool) (mask : BitVec 16), fibre < 64 → grp < 4 →
      let k := 8 * fibre + (if rx then 4 else 0) + grp
      let l := s.link k
      let seen := ((l.notices.getLast?).map (·.1)).getD l.live
      let count := fun (m : BitVec 16) => ((List.range 16).filter fun i => m.getLsbD i).length
      let settles := fun (i : Instr) (live : BitVec 16) =>
        ∃ t n, exec i s = .next t ∧ (t.link k).live = live ∧ (t.link k).notices = [] ∧ (rx = false → n = l.replay.length) ∧ (n ≤ 256 ∨ rx = false)
          ∧ (8 ≤ count live → Degrades s t 1 rx fibre grp live n ∧ t.link k = { l with live := live, notices := [] })
          ∧ (count live < 8 → ∃ a v u : State, a = { s with links := a.links }
            ∧ a.link k = { l with live := live, notices := [], service := false } ∧ (∀ j, j ≠ k → a.link j = s.link j)
            ∧ Replays a v ∧ t.links = v.links ∧ Degrades s u 2 rx fibre grp live n
            ∧ ((∃ g, g < 4 ∧ g ≠ grp ∧ (s.link (8 * fibre + (if rx then 4 else 0) + g)).service = true) → t.linkRing = u.linkRing)
            ∧ ((∀ g, g < 4 → g ≠ grp → (s.link (8 * fibre + (if rx then 4 else 0) + g)).service = false) →
              Degrades u t 3 rx fibre grp live n))
      (l.service = false ∨ seen &&& mask = 0 → Waits (.wavelengthLoss fibre grp rx mask) s)
      ∧ (l.service = true → seen &&& mask ≠ 0 →
        (rx = false → ∃ t, exec (.wavelengthLoss fibre grp rx mask) s = .next t ∧ t = { s with links := t.links }
          ∧ t.link k = { l with notices := l.notices ++ [(seen &&& ~~~mask, (l.replay.head?.map (·.seq)).getD l.next)] }
          ∧ ∀ j, j ≠ k → t.link j = s.link j)
        ∧ (rx = true → settles (.wavelengthLoss fibre grp rx mask) (l.live &&& ~~~mask)))
      ∧ (rx = false → l.notices = [] → Waits (.restripeNotice fibre grp) s)
      ∧ (rx = false → l.notices ≠ [] → settles (.restripeNotice fibre grp) seen)
      ∧ ∃ a v t, exec (.linkRestore fibre grp rx mask) s = .next t ∧ Degrades s t 5 rx fibre grp (l.live ||| mask) 0
        ∧ a = { s with links := a.links }
        ∧ a.link k = { l with live := l.live ||| mask, service := decide (8 ≤ count (l.live ||| mask)) }
        ∧ (∀ j, j ≠ k → a.link j = s.link j) ∧ Replays a v ∧ t.links = v.links)
    ∧ (∀ n : Nat,
      let moves := fun (t : State) (hit : TransitRec → Bool) (reasons : List Nat) => ∀ die tid r, die < 4 →
        ((s.die (4 * node + die)).recs.map (·.1)).Pairwise (· ≠ ·) → s.rec_ (4 * node + die) tid = some r →
        if r.state = .copying ∧ hit r = true then
          ∃ q, t.rec_ (4 * node + die) tid = some q ∧ q.state = .aborting ∧ q.reason ∈ reasons
        else t.rec_ (4 * node + die) tid = some r
      let ends := fun (t : State) (any hit : TransitRec → Bool) (reason st : Nat) => ∀ die tid r, die < 4 →
        ((s.die (4 * node + die)).recs.map (·.1)).Pairwise (· ≠ ·) → s.rec_ (4 * node + die) tid = some r → r.state = .copying → hit r = true →
        (∀ d p, d < 4 → p ∈ (s.die (4 * node + d)).recs → p.2.state = .copying → any p.2 = true → d = die ∧ p = (tid, r)) →
        let u : State := { s with downPorts := t.downPorts, lostPeers := t.lostPeers }
        (∀ q, t.rec_ (4 * node + die) tid = some q → q.reason = if u.recLeaf tid r = none then 4 else reason)
        ∧ ∀ l, u.recLeaf tid r = some l →
          t.raw64 l.key = BitVec.ofNat 64 (r.srcFrame * 2 ^ 16 + st * 2 ^ 14 + r.srcTier * 2 ^ 12 + l.e % 4096)
      let port := fun (tier frame : Nat) => tier == 2 && frame * 4096 / 2 ^ 46 % 4 == n
      (4 ≤ n → Waits (.portLinkDown n) s)
      ∧ (n < 4 → ∃ t, exec (.portLinkDown n) s = .next t ∧ Degrades s t 6 false n 0 0 0 ∧ t.groups = s.groups ∧ t.ents = s.ents
        ∧ (∀ q, q ∈ t.downPorts ↔ q ∈ s.downPorts ∨ q = n ∧ n ≠ 0)
        ∧ (let out := fun (r : TransitRec) => n ≠ 0 && port r.srcTier r.srcFrame
          let into := fun (r : TransitRec) => n ≠ 0 && !port r.srcTier r.srcFrame && port r.dstTier r.dstFrame
          moves t (fun r => out r || into r) [1, 2, 4] ∧ ends t (fun r => out r || into r) out 2 2 ∧ ends t (fun r => out r || into r) into 1 0))
      ∧ (n = node ∨ n ∈ s.lostPeers → Waits (.peerLost n) s)
      ∧ (n ≠ node → n ∉ s.lostPeers → ∃ t, exec (.peerLost n) s = .next t ∧ t.lostPeers = s.lostPeers ++ [n] ∧ t.groups = s.groups
        ∧ t.ents = s.ents
        ∧ (let of := fun (r : TransitRec) => r.srcTier == 3 && r.srcFrame / 2 ^ 27 % 512 == n
          moves t of [2, 4] ∧ ends t of of 2 2)))
    ∧ ∀ (off : DWord) (data : List Byte),
      let ctx := s.ds.hmctx.toNat % 1024
      let va := s.ds.hmbase + off
      let n := data.length
      let opens := s.ds.hmctx.getLsbD 10 = true ∧ pathOf va = 0 ∧ s.populated (nodeOf va) = true ∧ data ≠ []
        ∧ (nodeOf va = node ∨ s.keyOn (4 * node) ctx = true)
      let ready := fun (w : Bool) => ∀ l ∈ linesOf va n w, s.homeReady ctx l.1 = true
      let x := s.cross 0 ctx none .store va n
      let u := (x.ownerCheck ctx none .store va).2
      (∀ w, ¬opens ∨ ¬ready w → Waits (.hostHdmAccess w off data) s)
      ∧ (State.mayCrossAll 0 ctx none .load (linesOf va n false) s = false → Waits (.hostHdmAccess false off data) s)
      ∧ (State.mayCrossAll 0 ctx none .store (linesOf va n true) s = false → Waits (.hostHdmAccess true off data) s)
      ∧ (va.toNat % 128 + n ≤ 128 → data ≠ [] → linesOf va n false = [(va, 0)] ∧ linesOf va n true = [(va, n)])
      ∧ (opens → ready false → State.mayCrossAll 0 ctx none .load (linesOf va n false) s = true →
        ∃ t, exec (.hostHdmAccess false off data) s = .next t ∧ SameBytes s t ∧ t.groups = s.groups ∧ t.ents = s.ents)
      ∧ (opens → ready true → s.mayCross 0 ctx none .store va n = true → va.toNat % 128 + n ≤ 128 →
          ((∃ f, (x.ownerCheck ctx none .store va).1 = .error f) → exec (.hostHdmAccess true off data) s = .next u ∧ SameBytes s u)
          ∧ ∀ key l, (x.ownerCheck ctx none .store va).1 = .ok (key, l) → u.transitOf ctx va = none → u.unreachable key = false →
            u.expanderBad key = false → (u.line (key / 128)).poison = false →
            (u.line (key / 128)).written = false ∨ (u.line (key / 128)).tag ∈ [none, some (u.tagFor (ownerOf va) ctx va)] →
            ∃ t, exec (.hostHdmAccess true off data) s = .next t ∧ t.groups = s.groups ∧ t.ents = s.ents
              ∧ (∀ i, i < n → t.mem.read (key + i) = data.getD i 0)
              ∧ ∀ k, k < key ∨ key + n ≤ k → t.mem.read k = s.mem.read k)

/-- Power samples, telemetry, time, bring-up, power-on and snapshots: a sample whose mean lies in the band of its interval takes the new
rates and cap, sets the next band and answers the demand, on a multiple of 100 µs, and 100 µs after the last one, while time is locked;
POWER_ON leaves the machine as reset with every line of the package unwritten; a trigger latches a snapshot, adds its bit to one of its
own step, or is lost (R353-R361). Every one of these completes wherever its conditions hold.
A sample's power and time are inputs, its W are its mW rounded down, and the band is about its mW; BURN is free below the band, and a cap
below the band leaves what lies between the two (log 18); a snapshot holds die 0, core 0 and context 0 (log 19), and whether sources of two
steps fire in one cycle is free (log 84); the domain map after power-on is the host's (log 63). What State.reset holds where no rule gives a
value is log 4, and that the bytes of a scratchpad read 0 after POWER_ON is log 5: R120 and R361 initialise no scratchpad. -/
def Obligations.PowerAndSnapshots : Prop :=
  ∀ (s : State),
    let node := s.node.toNat
    let p := s.power
    (∀ (watts demand : Nat) (mw : Word) (ns : DWord),
      let from_ := p.latest.mw.toNat - 100 * p.down
      let upTo := min (p.latest.mw.toNat + 100 * p.up) (1000 * p.cap)
      let m := mw.toNat
      let off := p.lock = true ∧ (ns.toNat % 100000 ≠ 0 ∨ p.synced = true ∧ ns ≠ p.latest.ns + 100000)
        ∨ p.runs = true ∧ ¬(from_ ≤ m ∧ m ≤ upTo) ∧ ¬(upTo ≤ m ∧ m ≤ from_)
        ∨ m / 1000 ≠ watts
      let lo := m - 100 * p.newDown
      let hi := min (m + 100 * p.newUp) (1000 * p.newCap)
      let below := 1000 * demand < lo
      let above := hi < 1000 * demand
      (off → Waits (.powerSample watts demand mw ns) s)
      ∧ (¬off → ∃ t, exec (.powerSample watts demand mw ns) s = .next t ∧ t = { s with power := t.power }
        ∧ t.power = { p with
            down := p.newDown, up := p.newUp, cap := p.newCap, mean := watts, runs := true, synced := p.lock
            capped := decide (1000 * p.newCap < m + 100 * p.newUp), throttle := decide above
            promote := decide (below ∨ above ∧ p.promote = true), burn := t.power.burn, latest := ⟨ns, mw, p.latest.acc + m⟩ }
        ∧ (t.power.burn = true → below ∨ above ∧ p.burn = true) ∧ (below ∨ above → p.burn = true → t.power.burn = true)))
    ∧ exec .teltimeLatch s = .next { s with power := { p with latched := p.latest } }
    ∧ (∀ lock offset, exec (.ptpLock lock offset) s =
      .next { s with power := { p with lock := lock, offset := offset, synced := p.synced && lock } })
    ∧ (∀ bit : Nat,
      let absent := 25 ≤ bit ∨ bit = 14 ∧ Config.hasLpddr = false
      (absent → Waits (.functionReady bit) s)
      ∧ (¬absent → ∃ t, exec (.functionReady bit) s = .next t
        ∧ t = { s with ready := t.ready, dies := t.dies, eqReady := t.eqReady }
        ∧ (∀ i, i < 64 → t.ready.getLsbD i = (s.ready.getLsbD i || decide (i = bit)))
        ∧ t.eqReady = (s.eqReady || decide (bit = 20))
        ∧ (∀ d, d < 4 →
          t.die (4 * node + d) = { s.die (4 * node + d) with
            mtReady := (s.die (4 * node + d)).mtReady || decide (bit = 2 + d)
            txReady := (s.die (4 * node + d)).txReady || decide (bit = 21 + d) })
        ∧ ∀ j, (∀ d, d < 4 → j ≠ 4 * node + d) → t.die j = s.die j))
    ∧ (∃ t, exec .powerOn s = .next t
      ∧ t = { State.reset with
          agenda := s.agenda, node := s.node, tick := s.tick, domain := s.domainNow, lostPeers := s.lostPeers, mem := t.mem, lines := t.lines,
          dies := t.dies, bver := s.bver, wseq := s.wseq, nextId := s.nextId, nextUid := s.nextUid }
      ∧ (∀ d, t.die d = if d / 4 = node then Die.empty else s.die d)
      ∧ (∀ k, (k < 2 ^ 61 → k / 2 ^ 52 = node → t.mem.read k = 0 ∧ t.line (k / 128) = LineMeta.empty)
        ∧ (k < 2 ^ 61 → k / 2 ^ 52 ≠ node → t.mem.read k = s.mem.read k ∧ t.line (k / 128) = s.line (k / 128))
        ∧ (2 ^ 61 ≤ k → k < 2 ^ 62 → t.mem.read k = s.mem.read k)
        ∧ (2 ^ 62 ≤ k → t.mem.read k = 0 ∧ t.line (k / 128) = LineMeta.empty)))
    ∧ (∃ t, exec .fire s = .next t ∧ Fires s t 18)
    ∧ exec .snpstatRelease s = .next { s with snap := { s.snap with full := false } }
    ∧ (Armed s 14 → ∃ t, exec .debuggerTrigger s = .next t ∧ Fires s t 14) ∧ (¬Armed s 14 → exec .debuggerTrigger s = .next s)

/-! ### Encodings, the step, reset and memory (R16-R24, R33, R34, R361, and the reset columns) -/

/-- Decoding and encoding agree, with every operand at every value: what the encoder gives decodes to the instruction, and a word that
decodes to an instruction other than ILLEGAL_OP is the word that the encoder gives, for scalar words and for lane words (R16-R23). -/
def Obligations.EncodeDecode : Prop :=
  (∀ (i : Instr) (w : Word), encodeScalar i = some w →
    decodeScalar w = .instr i ∧ decodeScalarBytes (encode i) = some (.instr i) ∧ decodeTableWord 32 w.toNat = some i)
  ∧ (∀ (i : Instr) (b : LBits), encodeLane i = some b →
    decodeLane b = i ∧ decodeLaneBytes (encode i) = some i ∧ decodeTableWord 96 b.toNat = some i)
  ∧ (∀ (i : Instr) (w : Word), decodeScalar w = .instr i → i ≠ .illegalOp → encodeScalar i = some w)
  ∧ (∀ (i : Instr) (b : LBits), decodeLane b = i → i ≠ .illegalOp → encodeLane i = some b)
  ∧ ∀ (i j : Instr), encode i = encode j → encode i ≠ [] → i = j

/-- A few words of the spec's listings decode to the instructions beside them: SLD s6, s4, 0; BRC ?sf, +3; LOOPR s21, +3; PHWAIT s24,
s12, s0; XCOPY s22, s10; IADD.s32 v1, v1, 32; LDL.trk v0:1, [s2 + 0]; ICMP.eq.s32 p1, v4, v5; MOVI v5, 0xFFFF_0000 (19). A must-be-zero
field that is not zero is no instruction (R21). -/
def Obligations.DecodeWords : Prop :=
  decodeTableWord 32 0x84610000 = some (.sld 6 4 0)
  ∧ decodeTableWord 32 0x08000003 = some (.brc 0 false 3)
  ∧ decodeTableWord 32 0x20150003 = some (.loopr 21 3)
  ∧ decodeTableWord 32 0xDD830000 = some (.phwait 24 12 0 false)
  ∧ decodeTableWord 32 0xFC258A00 = some (.xcopy 22 10)
  ∧ decodeTableWord 96 0x00000040100C000000000000 = some (.iadd ⟨false, 0, 0, false, 1, 1, 0, 768, 0, 0, 0, 0, 0, 0⟩)
  ∧ decodeTableWord 96 0x5B0000282000000000000008 = some (.ldl ⟨false, 0, 0, false, 0, 642, 0, 0, 0, 0, 0, 0, 0, 8⟩)
  ∧ decodeTableWord 96 0x3D000140FFFF000000000000 = some (.movi ⟨false, 0, 0, false, 5, 15, 255, 960, 0, 0, 0, 0, 0, 0⟩)
  ∧ decodeTableWord 96 0x160000404000140000000000 = some (.icmp ⟨false, 0, 0, false, 1, 4, 0, 5, 0, 0, 0, 0, 0, 0⟩)
  ∧ decodeTableWord 32 0x84010001 = some (.sld 0 4 1) ∧ decodeTableWord 32 0x18000001 = none

/-- A step runs the decoded instruction: of the scalar word that the split fetched, kept or read at the scalar PC, of the oldest word
of the lane queue, with the loads that race with it bound, or of an event; and then what follows at once is settled. A word whose must-be-zero field is not zero takes
ILLEGAL_OPERAND, a fetch that fails takes its fault, a turn that cannot issue is idle, and an agenda that names no split stops the
machine. A lane word whose fetch failed is fetched again at its retry. A fetch reads the bytes of memory where no clean copy serves it
(R7, R16, R21, R34, R38). It takes its captures from the registers as they stood when it was enqueued (R8). The turn of a split is idle while one that
shares its pipeline and can issue goes first: by a FILL class against any other, then by the priority of the context, then by the class, a FILL
group that the ramp limiter promotes counting as NORMAL (R306, R307, R356).
The agenda and its stop are choices of the model (log 1); so are keeping the word of a split that waits, and where a word that is fetched
again takes its captures (log 38); that a FILL class stands before the priority is the reading of log 27. -/
def Obligations.StepRuns : Prop :=
  (∀ (s : State) (ag : Agent) (rest : List Turn), s.agenda = .scalar ag :: rest →
    let u := { s with agenda := rest, tick := s.tick + 1 }
    let t := { u with cur := ag, curLane := false }
    let va := (t.splitOf ag).spc
    let runs := fun (v : State) (w : Word) =>
      (∀ i x, decodeScalar w = .instr i → v.gated ag i = false → exec i v = .next x → step s = .next x.settle)
      ∧ (decodeScalar w = .badField → step s = .next (v.scalarTrap .illegalOperand).settle)
    (u.agentHere ag = false → step s = .fault .absentAgent)
    ∧ (u.agentHere ag = true → u.outranked ag false = true → step s = .next u.settle)
    ∧ (u.agentHere ag = true → u.outranked ag false = false →
      (t.scalarReady ag = false → step s = .next t.settle)
      ∧ (t.scalarReady ag = true → ∀ w, (t.splitOf ag).fetched = some w → runs t w)
      ∧ (t.scalarReady ag = true → (t.splitOf ag).fetched = none →
        (t.fetchReady ag va 4 = false → step s = .next t.settle)
        ∧ (t.fetchReady ag va 4 = true →
          (∀ f v, t.fetchBytes ag va 4 = (.error f, v) → step s = .next (v.scalarFault f).settle)
          ∧ ∀ bs v, t.fetchBytes ag va 4 = (.ok bs, v) → bs.length = 4 →
            let w := BitVec.ofNat 32 (ofBytes bs)
            runs (v.modSplit ag fun sp => { sp with fetched := some w }) w))))
  ∧ (∀ (s : State) (ag : Agent) (rest : List Turn), s.agenda = .lane ag :: rest →
    let u := { s with agenda := rest, tick := s.tick + 1 }
    let t := { u with cur := ag, curLane := true }
    (u.agentHere ag = false → step s = .fault .absentAgent)
    ∧ (u.agentHere ag = true → u.outranked ag true = true → step s = .next u.settle)
    ∧ (u.agentHere ag = true → u.outranked ag true = false →
      (t.laneReady ag = false → step s = .next t.settle)
      ∧ (t.laneReady ag = true → ((t.splitOf ag).headFault = false ∨ (t.headOf ag).fail = none) → ∀ i x,
        decodeLane (t.headOf ag).word = i → t.gated ag i = false → exec i (t.bindRacers ag) = .next x → step s = .next x.settle)
      ∧ (t.laneReady ag = true → (t.splitOf ag).headFault = true → (t.headOf ag).fail ≠ none →
        (t.refetch ag = none → step s = .next t.settle)
        ∧ ∀ v, t.refetch ag = some v → ∀ i x, decodeLane (v.headOf ag).word = i → v.gated ag i = false →
          exec i (v.bindRacers ag) = .next x → step s = .next x.settle)))
  ∧ (∀ (s : State) (ag : Agent) (lane : Bool),
    let fill := fun (g : Group) => g.cls = 2 ∧ s.power.promote = false
    let class_ := fun (g : Group) => if g.cls = 2 ∧ s.power.promote = true then 1 else g.cls
    let pri := fun (g : Group) => (s.ctx g.ctx).pri.toNat
    (∀ a b, s.prefers a b = true ↔ ¬fill a ∧ fill b ∨ (fill a ↔ fill b) ∧ (pri b < pri a ∨ pri a = pri b ∧ class_ a < class_ b))
    ∧ (s.outranked ag lane = true ↔ ∃ r, r.core = ag.core ∧ r.slot % 4 = ag.slot % 4 ∧ r ≠ ag ∧ r.split < 8
      ∧ (∃ g, (r.slot, g) ∈ s.groupsOn ag.core ∧ (g.split r.split).status ≠ .absent)
      ∧ s.prefers (s.groupOf r) (s.groupOf ag) = true ∧ s.wouldIssue r lane = true)
    ∧ ((s.wouldIssue ag lane = true ↔ (∃ t, s.pickStream true ag lane = .took t)
      ∨ ∃ i t, s.pickStream true ag lane = .run i t ∧ exec i t ≠ .next t)))
  ∧ (∀ (s v : State) (ag : Agent), s.refetch ag = some v → ∀ regs a, (s.headOf ag).kept = some (regs, a) →
    let sp := { s.splitOf ag with s := regs, a := a }
    let e := v.headOf ag
    let w := laneFields e.word
    e.fail = none → s.agentHere ag = true → (s.splitOf ag).queue ≠ [] →
      e.capA = captureOf sp w.a ∧ (e.word.toNat / 2 ^ 88 % 128 ≠ 0x3D → e.capB = captureOf sp w.b) ∧ e.lpc = (s.headOf ag).lpc)
  ∧ (∀ (s : State) (i : Instr) (rest : List Turn) (x : State), s.agenda = .event i :: rest → isEvent i = true →
    exec i { s with agenda := rest, tick := s.tick + 1 } = .next x → step s = .next x.settle)
  ∧ (∀ (s : State) (ag : Agent) (va : DWord) (n : Nat),
    let g := s.groupOf ag
    let c := s.coreAsk ag.core g.ctx (some g.launch) .fetch va
    let u := (c.ownerCheck g.ctx (some g.launch) .fetch va).2
    s.fetchCheck ag va = none → va.toNat % 128 + n ≤ 128 →
    ∀ key l, (c.ownerCheck g.ctx (some g.launch) .fetch va).1 = .ok (key, l) →
      (∀ c ∈ s.copies, ¬(c.core = ag.core ∧ c.cls = .instruction ∧ c.ctx = g.ctx ∧ c.line = lineOf (noPath va))) →
      u.transitOf g.ctx (noPath va) = none → u.unreachable key = false → u.expanderBad key = false → (u.line (key / 128)).poison = false →
      (u.line (key / 128)).written = false ∨ (u.line (key / 128)).tag ∈ [none, some (u.tagFor (ownerOf (noPath va)) g.ctx (noPath va))] →
      (s.fetchBytes ag va n).1 = .ok (s.mem.readN key n))

/-- The machine after reset holds the values that the spec's register tables give: no group, no access in flight, no lease and no ready
bit; CHFRAME 0; the quotas, limits, rates and intervals at their reset values; every line unwritten, and every byte 0 (R93, R98, R100,
R139, R146, R160, R309, R353, R358, R361, R364). The memory is in its canonical form.
That nothing is placed, that MTSEQ, MTACK and the other registers that log 4 lists read 0, and that every link is up, are choices of
the model (log 4); that RNGSTAT.LOCK reads 0 until Chainline reports ready, when the calibration is done, is the model's choice (log 17); that a byte outside the translated
memories reads 0 is its choice (log 5). The quotas in force are those of the registers. -/
def Obligations.ResetState : Prop :=
  let s := State.reset
  MemOk s ∧ (∀ k, s.mem.read k = 0) ∧ (∀ k, (s.line k).written = false ∧ (s.line k).poison = false)
  ∧ (∀ core slot, (s.group core slot).live = false) ∧ s.ents = [] ∧ s.leases = [] ∧ s.copies = [] ∧ s.posts = [] ∧ s.launches = [] ∧ s.units = []
  ∧ (∀ ctx core, s.stateOn ctx core = .absent) ∧ (∀ ctx die, s.keyOn die ctx = false)
  ∧ (∀ die, die < 4 →
    let V := fun (block index : Nat) (v : Nat) => (s.sysValue ⟨block, die, 0, index⟩).toNat = v
    (∀ i ∈ [2, 3, 4, 13, 14, 15, 16, 17, 18, 19], V 1 i 0) ∧ V 2 0 0 ∧ V 2 1 4096 ∧ V 2 2 65536 ∧ (∀ i, 3 ≤ i → i < 16 → V 2 i 0)
    ∧ (∀ ctx, (s.sysValue ⟨3, die, ctx, 0⟩).toNat = 0)
    ∧ V 4 0 0 ∧ V 4 3 0 ∧ V 4 4 (2 ^ 16 + 18000) ∧ V 4 5 0 ∧ V 4 6 0)
  ∧ (∀ i, i < 292 → s.quota i = (if i < 256 then 256 else if i < 288 then 512 else 4096) ∧ s.quotaNow i = s.quota i ∧ s.spentBy i = 0)
  ∧ (∀ i, i < 6 → (s.sysValue ⟨5, 0, 0, i⟩).toNat = 0)
  ∧ (∀ core,
    let V := fun (index : Nat) (v : Nat) => (s.sysValue ⟨6, 0, core, index⟩).toNat = v
    V 0 240 ∧ V 1 0 ∧ V 2 0 ∧ V 3 0 ∧ V 4 0 ∧ V 5 512)
  ∧ (∀ ctx, (s.sysValue ⟨7, 0, ctx, 0⟩).toNat = 0 ∧ (s.sysValue ⟨7, 0, ctx, 1⟩).toNat = 2000000)
  ∧ (∀ i v, (i, v) ∈ [(0, 40 * 65536 + 40), (1, Config.tdp), (5, 0), (7, 0), (8, 0), (9, 0), (10, 0), (11, 0)] →
    (s.sysValue ⟨9, 0, 0, i⟩).toNat = v)
  ∧ s.power.lock = false

/-- Every step keeps the canonical form of memory, from every state that has it, so that equal memories are equal data (log 5). -/
def Obligations.MemoryKept : Prop := ∀ s t : State, MemOk s → step s = .next t → MemOk t
end

