-- ==== Sys2Proof/Laws/Tab.lean ====
section
/-! SUPPORT. Laws of the sparse tables and of the byte memory: a read after a write, and the canonical form. -/

namespace Sys2Proof.Machine

/-! ### Reads after writes -/

@[simp] theorem Tab.get_nil {α : Type} (d : α) (k : Nat) : Tab.get d [] k = d := rfl

theorem Tab.get_put {α : Type} (d : α) (t : Tab α) (k k' : Nat) (v : α) :
    Tab.get d (Tab.put t k v) k' = if k = k' then v else Tab.get d t k' := by
  induction t with
  | nil => rfl
  | cons p t ih =>
    obtain ⟨j, u⟩ := p
    unfold Tab.put
    split_ifs with h1 h2 h3 h4 h5 <;> simp_all [Tab.get]

@[simp] theorem Tab.get_put_same {α : Type} (d : α) (t : Tab α) (k : Nat) (v : α) :
    Tab.get d (Tab.put t k v) k = v := by simp [Tab.get_put]

theorem Tab.get_put_ne {α : Type} (d : α) (t : Tab α) {k k' : Nat} (v : α) (h : k ≠ k') :
    Tab.get d (Tab.put t k v) k' = Tab.get d t k' := by simp [Tab.get_put, h]

/-- The later of two writes at one key stands. -/
theorem Tab.put_put {α : Type} (t : Tab α) (k : Nat) (a b : α) : Tab.put (Tab.put t k a) k b = Tab.put t k b := by
  induction t with
  | nil => simp [Tab.put]
  | cons p t ih =>
    obtain ⟨j, u⟩ := p
    simp only [Tab.put]
    split
    · simp [Tab.put]
    · split
      · simp [Tab.put]
      · rename_i h1 h2
        simp [Tab.put, h1, h2, ih]

theorem Tab.get_del {α : Type} (d : α) (t : Tab α) (k k' : Nat) :
    Tab.get d (Tab.del t k) k' = if k = k' then d else Tab.get d t k' := by
  induction t with
  | nil => simp [Tab.del, Tab.get]
  | cons p t ih =>
    obtain ⟨j, u⟩ := p
    simp only [Tab.del, List.filter_cons] at *
    by_cases hj : j = k
    · subst hj
      simp [ih, Tab.get]
      split_ifs <;> rfl
    · simp [hj, Tab.get, ih]
      split_ifs <;> simp_all

/-! ### The memory -/

theorem Memory.read_write (m : Memory) (k k' : Nat) (b : Byte) :
    (m.write k b).read k' = if k = k' then b else m.read k' := by
  unfold Memory.write Memory.read
  split_ifs with h1 h2 h2 <;> simp [Tab.get_del, Tab.get_put, h1, h2]

@[simp] theorem Memory.read_write_same (m : Memory) (k : Nat) (b : Byte) : (m.write k b).read k = b := by
  simp [Memory.read_write]

theorem Memory.read_write_ne (m : Memory) {k k' : Nat} (b : Byte) (h : k ≠ k') : (m.write k b).read k' = m.read k' := by
  simp [Memory.read_write, h]

/-- A byte below or above the written bytes reads as before. -/
theorem Memory.read_writeN_out (m : Memory) (k : Nat) (bs : List Byte) {k' : Nat} (h : k' < k ∨ k + bs.length ≤ k') :
    (m.writeN k bs).read k' = m.read k' := by
  induction bs generalizing m k with
  | nil => rfl
  | cons b bs ih =>
    simp only [Memory.writeN]
    rw [ih]
    · exact Memory.read_write_ne _ _ (by simp at h; omega)
    · simp at h; omega

/-- A written byte reads as written. -/
theorem Memory.read_writeN_in (m : Memory) (k : Nat) (bs : List Byte) {i : Nat} (h : i < bs.length) :
    (m.writeN k bs).read (k + i) = bs[i] := by
  induction bs generalizing m k i with
  | nil => simp at h
  | cons b bs ih =>
    simp only [Memory.writeN]
    cases i with
    | zero =>
      rw [Memory.read_writeN_out _ _ _ (by omega)]
      simp
    | succ i =>
      have := ih (m.write k b) (k + 1) (i := i) (by simpa using h)
      simpa [Nat.add_assoc, Nat.add_comm 1 i] using this

@[simp] theorem Memory.readN_length (m : Memory) (k n : Nat) : (m.readN k n).length = n := by simp [Memory.readN]

/-! ### The canonical form -/

theorem Tab.sorted_tail {α : Type} {p : Nat × α} {t : Tab α} (h : Tab.sorted (p :: t) = true) : Tab.sorted t = true := by
  cases t with
  | nil => rfl
  | cons q t => simp [Tab.sorted] at h; exact h.2

/-- In a sorted table every later key is above the first. -/
theorem Tab.sorted_above {α : Type} {p : Nat × α} {t : Tab α} (h : Tab.sorted (p :: t) = true) :
    ∀ q ∈ t, p.1 < q.1 := by
  induction t generalizing p with
  | nil => simp
  | cons r t ih =>
    simp [Tab.sorted] at h
    intro q hq
    rcases List.mem_cons.mp hq with rfl | hq
    · exact h.1
    · exact lt_trans h.1 (ih h.2 q hq)

/-- A head below every key of a sorted table makes a sorted table. -/
theorem Tab.sorted_cons {α : Type} {p : Nat × α} {t : Tab α} (hs : Tab.sorted t = true) (h : ∀ q ∈ t, p.1 < q.1) :
    Tab.sorted (p :: t) = true := by
  cases t with
  | nil => rfl
  | cons q t => simp [Tab.sorted, hs, h q (by simp)]

theorem Tab.mem_put {α : Type} {t : Tab α} {k : Nat} {v : α} {q : Nat × α} (h : q ∈ Tab.put t k v) :
    q = (k, v) ∨ q ∈ t := by
  induction t with
  | nil => simpa [Tab.put] using h
  | cons p t ih =>
    obtain ⟨j, u⟩ := p
    unfold Tab.put at h
    split_ifs at h <;> simp_all
    · tauto
    · tauto

theorem Tab.sorted_put {α : Type} {t : Tab α} (h : Tab.sorted t = true) (k : Nat) (v : α) :
    Tab.sorted (Tab.put t k v) = true := by
  induction t with
  | nil => rfl
  | cons p t ih =>
    obtain ⟨j, u⟩ := p
    have ha := Tab.sorted_above h
    have ht := Tab.sorted_tail h
    unfold Tab.put
    split_ifs with h1 h2
    · subst h1
      exact Tab.sorted_cons ht ha
    · refine Tab.sorted_cons h ?_
      intro q hq
      rcases List.mem_cons.mp hq with rfl | hq
      · exact h2
      · exact lt_trans h2 (ha q hq)
    · refine Tab.sorted_cons (ih ht) ?_
      intro q hq
      rcases Tab.mem_put hq with rfl | hq
      · exact lt_of_le_of_ne (not_lt.mp h2) h1
      · exact ha q hq

/-- A table stays sorted when entries are taken out. -/
theorem Tab.sorted_filter {α : Type} {t : Tab α} (h : Tab.sorted t = true) (f : Nat × α → Bool) :
    Tab.sorted (t.filter f) = true := by
  induction t with
  | nil => rfl
  | cons p t ih =>
    rw [List.filter_cons]
    split_ifs
    · exact Tab.sorted_cons (ih (Tab.sorted_tail h)) fun q hq => Tab.sorted_above h q (List.mem_of_mem_filter hq)
    · exact ih (Tab.sorted_tail h)

theorem Memory.wf_iff (m : Memory) : m.wf = true ↔ Tab.sorted m = true ∧ ∀ c ∈ m, c.2 ≠ Memory.blank := by
  simp [Memory.wf]

/-- Taking cells out keeps the canonical form. -/
theorem Memory.wf_filter {m : Memory} (h : m.wf = true) (f : Host.Cell → Bool) :
    Memory.wf (m.filter f) = true := by
  rw [Memory.wf_iff] at *
  exact ⟨Tab.sorted_filter h.1 f, fun c hc => h.2 c (List.mem_of_mem_filter hc)⟩

/-- Writing a byte keeps the canonical form. -/
theorem Memory.wf_write {m : Memory} (h : m.wf = true) (k : Nat) (b : Byte) : (m.write k b).wf = true := by
  unfold Memory.write
  split_ifs with hb
  · exact Memory.wf_filter h _
  · rw [Memory.wf_iff] at *
    refine ⟨Tab.sorted_put h.1 k b, fun c hc => ?_⟩
    rcases Tab.mem_put hc with rfl | hc
    · exact hb
    · exact h.2 c hc

/-- Writing bytes keeps the canonical form. -/
theorem Memory.wf_writeN {m : Memory} (h : m.wf = true) (k : Nat) (bs : List Byte) : (m.writeN k bs).wf = true := by
  induction bs generalizing m k with
  | nil => exact h
  | cons b bs ih => exact ih (Memory.wf_write h k b) (k + 1)

/-- Two memories in canonical form that read alike are equal. -/
theorem Memory.ext_of_wf {m n : Memory} (hm : m.wf = true) (hn : n.wf = true) (h : ∀ k, m.read k = n.read k) : m = n := by
  induction m generalizing n with
  | nil =>
    cases n with
    | nil => rfl
    | cons q n =>
      have := h q.1
      rw [Memory.wf_iff] at hn
      exact absurd (by simpa [Memory.read, Tab.get] using this.symm) (hn.2 q (by simp))
  | cons p m ih =>
    rw [Memory.wf_iff] at hm
    cases n with
    | nil =>
      have := h p.1
      exact absurd (by simpa [Memory.read, Tab.get] using this) (hm.2 p (by simp))
    | cons q n =>
      rw [Memory.wf_iff] at hn
      have below (t : Memory) (k : Nat) (ht : ∀ c ∈ t, k < c.1) : Tab.get Memory.blank t k = Memory.blank := by
        induction t with
        | nil => rfl
        | cons c t iht =>
          obtain ⟨j, b⟩ := c
          have := ht (j, b) (by simp)
          simp only [Tab.get]
          rw [if_neg (by simp at this; omega)]
          exact iht fun c hc => ht c (by simp [hc])
      have hk : p.1 = q.1 := by
        rcases lt_trichotomy p.1 q.1 with hl | he | hl
        · have h1 := h p.1
          have h2 : Tab.get Memory.blank (q :: n) p.1 = Memory.blank :=
            below _ _ fun c hc => by
              rcases List.mem_cons.mp hc with rfl | hc
              · exact hl
              · exact lt_trans hl (Tab.sorted_above hn.1 c hc)
          simp only [Memory.read, h2] at h1
          exact absurd (by simpa [Tab.get] using h1) (hm.2 p (by simp))
        · exact he
        · have h1 := h q.1
          have h2 : Tab.get Memory.blank (p :: m) q.1 = Memory.blank :=
            below _ _ fun c hc => by
              rcases List.mem_cons.mp hc with rfl | hc
              · exact hl
              · exact lt_trans hl (Tab.sorted_above hm.1 c hc)
          simp only [Memory.read, h2] at h1
          exact absurd (by simpa [Tab.get] using h1.symm) (hn.2 q (by simp))
      have hv : p.2 = q.2 := by
        have h1 := h p.1
        simpa [Memory.read, Tab.get, hk] using h1
      have hpq : p = q := Prod.ext hk hv
      subst hpq
      congr 1
      refine ih ?_ ?_ fun k => ?_
      · rw [Memory.wf_iff]; exact ⟨Tab.sorted_tail hm.1, fun c hc => hm.2 c (by simp [hc])⟩
      · rw [Memory.wf_iff]; exact ⟨Tab.sorted_tail hn.1, fun c hc => hn.2 c (by simp [hc])⟩
      · by_cases hkp : p.1 = k
        · subst hkp
          rw [Memory.read, Memory.read, below m _ (Tab.sorted_above hm.1), below n _ (Tab.sorted_above hn.1)]
        · have h1 := h k
          obtain ⟨j, b⟩ := p
          simpa [Memory.read, Tab.get, hkp] using h1

end Sys2Proof.Machine
end

