-- ==== Sys2Proof/Laws/State.lean ====
section
/-! SUPPORT. Laws of State: one lemma per field per update, and what the accessors read after an update. -/

namespace Sys2Proof.Machine

/-! ### Fields that an update leaves alone -/

@[simp] theorem State.setGroup_agenda (s : State) (c k : Nat) (g : Group) : (s.setGroup c k g).agenda = s.agenda := rfl
@[simp] theorem State.setGroup_node (s : State) (c k : Nat) (g : Group) : (s.setGroup c k g).node = s.node := rfl
@[simp] theorem State.setGroup_cur (s : State) (c k : Nat) (g : Group) : (s.setGroup c k g).cur = s.cur := rfl
@[simp] theorem State.setGroup_curLane (s : State) (c k : Nat) (g : Group) : (s.setGroup c k g).curLane = s.curLane := rfl
@[simp] theorem State.setGroup_tick (s : State) (c k : Nat) (g : Group) : (s.setGroup c k g).tick = s.tick := rfl
@[simp] theorem State.setGroup_mem (s : State) (c k : Nat) (g : Group) : (s.setGroup c k g).mem = s.mem := rfl
@[simp] theorem State.setGroup_lines (s : State) (c k : Nat) (g : Group) : (s.setGroup c k g).lines = s.lines := rfl
@[simp] theorem State.setGroup_cores (s : State) (c k : Nat) (g : Group) : (s.setGroup c k g).cores = s.cores := rfl
@[simp] theorem State.setGroup_dies (s : State) (c k : Nat) (g : Group) : (s.setGroup c k g).dies = s.dies := rfl
@[simp] theorem State.setGroup_ctxs (s : State) (c k : Nat) (g : Group) : (s.setGroup c k g).ctxs = s.ctxs := rfl
@[simp] theorem State.setGroup_ctxCores (s : State) (c k : Nat) (g : Group) : (s.setGroup c k g).ctxCores = s.ctxCores := rfl
@[simp] theorem State.setGroup_clusters (s : State) (c k : Nat) (g : Group) : (s.setGroup c k g).clusters = s.clusters := rfl
@[simp] theorem State.setGroup_ents (s : State) (c k : Nat) (g : Group) : (s.setGroup c k g).ents = s.ents := rfl
@[simp] theorem State.setGroup_nextId (s : State) (c k : Nat) (g : Group) : (s.setGroup c k g).nextId = s.nextId := rfl
@[simp] theorem State.setGroup_nextUid (s : State) (c k : Nat) (g : Group) : (s.setGroup c k g).nextUid = s.nextUid := rfl
@[simp] theorem State.setGroup_copies (s : State) (c k : Nat) (g : Group) : (s.setGroup c k g).copies = s.copies := rfl
@[simp] theorem State.setGroup_bver (s : State) (c k : Nat) (g : Group) : (s.setGroup c k g).bver = s.bver := rfl
@[simp] theorem State.setGroup_wseq (s : State) (c k : Nat) (g : Group) : (s.setGroup c k g).wseq = s.wseq := rfl
@[simp] theorem State.setGroup_floors (s : State) (c k : Nat) (g : Group) : (s.setGroup c k g).floors = s.floors := rfl
@[simp] theorem State.setGroup_relLog (s : State) (c k : Nat) (g : Group) : (s.setGroup c k g).relLog = s.relLog := rfl
@[simp] theorem State.setGroup_leases (s : State) (c k : Nat) (g : Group) : (s.setGroup c k g).leases = s.leases := rfl
@[simp] theorem State.setGroup_handles (s : State) (c k : Nat) (g : Group) : (s.setGroup c k g).handles = s.handles := rfl
@[simp] theorem State.setGroup_nextSer (s : State) (c k : Nat) (g : Group) : (s.setGroup c k g).nextSer = s.nextSer := rfl
@[simp] theorem State.setGroup_launches (s : State) (c k : Nat) (g : Group) : (s.setGroup c k g).launches = s.launches := rfl
@[simp] theorem State.setGroup_nextLaunch (s : State) (c k : Nat) (g : Group) : (s.setGroup c k g).nextLaunch = s.nextLaunch := rfl
@[simp] theorem State.setGroup_units (s : State) (c k : Nat) (g : Group) : (s.setGroup c k g).units = s.units := rfl
@[simp] theorem State.setGroup_nextUnit (s : State) (c k : Nat) (g : Group) : (s.setGroup c k g).nextUnit = s.nextUnit := rfl
@[simp] theorem State.setGroup_nextSet (s : State) (c k : Nat) (g : Group) : (s.setGroup c k g).nextSet = s.nextSet := rfl
@[simp] theorem State.setGroup_chframe (s : State) (c k : Nat) (g : Group) : (s.setGroup c k g).chframe = s.chframe := rfl
@[simp] theorem State.setGroup_chqsel (s : State) (c k : Nat) (g : Group) : (s.setGroup c k g).chqsel = s.chqsel := rfl
@[simp] theorem State.setGroup_quotas (s : State) (c k : Nat) (g : Group) : (s.setGroup c k g).quotas = s.quotas := rfl
@[simp] theorem State.setGroup_inForce (s : State) (c k : Nat) (g : Group) : (s.setGroup c k g).inForce = s.inForce := rfl
@[simp] theorem State.setGroup_spent (s : State) (c k : Nat) (g : Group) : (s.setGroup c k g).spent = s.spent := rfl
@[simp] theorem State.setGroup_frameAt (s : State) (c k : Nat) (g : Group) : (s.setGroup c k g).frameAt = s.frameAt := rfl
@[simp] theorem State.setGroup_nextInj (s : State) (c k : Nat) (g : Group) : (s.setGroup c k g).nextInj = s.nextInj := rfl
@[simp] theorem State.setGroup_served (s : State) (c k : Nat) (g : Group) : (s.setGroup c k g).served = s.served := rfl
@[simp] theorem State.setGroup_eqsel (s : State) (c k : Nat) (g : Group) : (s.setGroup c k g).eqsel = s.eqsel := rfl
@[simp] theorem State.setGroup_eqReady (s : State) (c k : Nat) (g : Group) : (s.setGroup c k g).eqReady = s.eqReady := rfl
@[simp] theorem State.setGroup_ds (s : State) (c k : Nat) (g : Group) : (s.setGroup c k g).ds = s.ds := rfl
@[simp] theorem State.setGroup_power (s : State) (c k : Nat) (g : Group) : (s.setGroup c k g).power = s.power := rfl
@[simp] theorem State.setGroup_snap (s : State) (c k : Nat) (g : Group) : (s.setGroup c k g).snap = s.snap := rfl
@[simp] theorem State.setGroup_ready (s : State) (c k : Nat) (g : Group) : (s.setGroup c k g).ready = s.ready := rfl
@[simp] theorem State.setGroup_domain (s : State) (c k : Nat) (g : Group) : (s.setGroup c k g).domain = s.domain := rfl
@[simp] theorem State.setGroup_links (s : State) (c k : Nat) (g : Group) : (s.setGroup c k g).links = s.links := rfl
@[simp] theorem State.setGroup_linkRing (s : State) (c k : Nat) (g : Group) : (s.setGroup c k g).linkRing = s.linkRing := rfl
@[simp] theorem State.setGroup_turns (s : State) (c k : Nat) (g : Group) : (s.setGroup c k g).turns = s.turns := rfl
@[simp] theorem State.setGroup_posts (s : State) (c k : Nat) (g : Group) : (s.setGroup c k g).posts = s.posts := rfl
@[simp] theorem State.setGroup_downPorts (s : State) (c k : Nat) (g : Group) : (s.setGroup c k g).downPorts = s.downPorts := rfl
@[simp] theorem State.setGroup_lostPeers (s : State) (c k : Nat) (g : Group) : (s.setGroup c k g).lostPeers = s.lostPeers := rfl

@[simp] theorem State.setGroupOf_agenda (s : State) (ag : Agent) (g : Group) : (s.setGroupOf ag g).agenda = s.agenda := rfl
@[simp] theorem State.setGroupOf_node (s : State) (ag : Agent) (g : Group) : (s.setGroupOf ag g).node = s.node := rfl
@[simp] theorem State.setGroupOf_cur (s : State) (ag : Agent) (g : Group) : (s.setGroupOf ag g).cur = s.cur := rfl
@[simp] theorem State.setGroupOf_curLane (s : State) (ag : Agent) (g : Group) : (s.setGroupOf ag g).curLane = s.curLane := rfl
@[simp] theorem State.setGroupOf_tick (s : State) (ag : Agent) (g : Group) : (s.setGroupOf ag g).tick = s.tick := rfl
@[simp] theorem State.setGroupOf_mem (s : State) (ag : Agent) (g : Group) : (s.setGroupOf ag g).mem = s.mem := rfl
@[simp] theorem State.setGroupOf_lines (s : State) (ag : Agent) (g : Group) : (s.setGroupOf ag g).lines = s.lines := rfl
@[simp] theorem State.setGroupOf_cores (s : State) (ag : Agent) (g : Group) : (s.setGroupOf ag g).cores = s.cores := rfl
@[simp] theorem State.setGroupOf_dies (s : State) (ag : Agent) (g : Group) : (s.setGroupOf ag g).dies = s.dies := rfl
@[simp] theorem State.setGroupOf_ctxs (s : State) (ag : Agent) (g : Group) : (s.setGroupOf ag g).ctxs = s.ctxs := rfl
@[simp] theorem State.setGroupOf_ctxCores (s : State) (ag : Agent) (g : Group) : (s.setGroupOf ag g).ctxCores = s.ctxCores := rfl
@[simp] theorem State.setGroupOf_clusters (s : State) (ag : Agent) (g : Group) : (s.setGroupOf ag g).clusters = s.clusters := rfl
@[simp] theorem State.setGroupOf_ents (s : State) (ag : Agent) (g : Group) : (s.setGroupOf ag g).ents = s.ents := rfl
@[simp] theorem State.setGroupOf_nextId (s : State) (ag : Agent) (g : Group) : (s.setGroupOf ag g).nextId = s.nextId := rfl
@[simp] theorem State.setGroupOf_nextUid (s : State) (ag : Agent) (g : Group) : (s.setGroupOf ag g).nextUid = s.nextUid := rfl
@[simp] theorem State.setGroupOf_copies (s : State) (ag : Agent) (g : Group) : (s.setGroupOf ag g).copies = s.copies := rfl
@[simp] theorem State.setGroupOf_bver (s : State) (ag : Agent) (g : Group) : (s.setGroupOf ag g).bver = s.bver := rfl
@[simp] theorem State.setGroupOf_wseq (s : State) (ag : Agent) (g : Group) : (s.setGroupOf ag g).wseq = s.wseq := rfl
@[simp] theorem State.setGroupOf_floors (s : State) (ag : Agent) (g : Group) : (s.setGroupOf ag g).floors = s.floors := rfl
@[simp] theorem State.setGroupOf_relLog (s : State) (ag : Agent) (g : Group) : (s.setGroupOf ag g).relLog = s.relLog := rfl
@[simp] theorem State.setGroupOf_leases (s : State) (ag : Agent) (g : Group) : (s.setGroupOf ag g).leases = s.leases := rfl
@[simp] theorem State.setGroupOf_handles (s : State) (ag : Agent) (g : Group) : (s.setGroupOf ag g).handles = s.handles := rfl
@[simp] theorem State.setGroupOf_nextSer (s : State) (ag : Agent) (g : Group) : (s.setGroupOf ag g).nextSer = s.nextSer := rfl
@[simp] theorem State.setGroupOf_launches (s : State) (ag : Agent) (g : Group) : (s.setGroupOf ag g).launches = s.launches := rfl
@[simp] theorem State.setGroupOf_nextLaunch (s : State) (ag : Agent) (g : Group) : (s.setGroupOf ag g).nextLaunch = s.nextLaunch := rfl
@[simp] theorem State.setGroupOf_units (s : State) (ag : Agent) (g : Group) : (s.setGroupOf ag g).units = s.units := rfl
@[simp] theorem State.setGroupOf_nextUnit (s : State) (ag : Agent) (g : Group) : (s.setGroupOf ag g).nextUnit = s.nextUnit := rfl
@[simp] theorem State.setGroupOf_nextSet (s : State) (ag : Agent) (g : Group) : (s.setGroupOf ag g).nextSet = s.nextSet := rfl
@[simp] theorem State.setGroupOf_chframe (s : State) (ag : Agent) (g : Group) : (s.setGroupOf ag g).chframe = s.chframe := rfl
@[simp] theorem State.setGroupOf_chqsel (s : State) (ag : Agent) (g : Group) : (s.setGroupOf ag g).chqsel = s.chqsel := rfl
@[simp] theorem State.setGroupOf_quotas (s : State) (ag : Agent) (g : Group) : (s.setGroupOf ag g).quotas = s.quotas := rfl
@[simp] theorem State.setGroupOf_inForce (s : State) (ag : Agent) (g : Group) : (s.setGroupOf ag g).inForce = s.inForce := rfl
@[simp] theorem State.setGroupOf_spent (s : State) (ag : Agent) (g : Group) : (s.setGroupOf ag g).spent = s.spent := rfl
@[simp] theorem State.setGroupOf_frameAt (s : State) (ag : Agent) (g : Group) : (s.setGroupOf ag g).frameAt = s.frameAt := rfl
@[simp] theorem State.setGroupOf_nextInj (s : State) (ag : Agent) (g : Group) : (s.setGroupOf ag g).nextInj = s.nextInj := rfl
@[simp] theorem State.setGroupOf_served (s : State) (ag : Agent) (g : Group) : (s.setGroupOf ag g).served = s.served := rfl
@[simp] theorem State.setGroupOf_eqsel (s : State) (ag : Agent) (g : Group) : (s.setGroupOf ag g).eqsel = s.eqsel := rfl
@[simp] theorem State.setGroupOf_eqReady (s : State) (ag : Agent) (g : Group) : (s.setGroupOf ag g).eqReady = s.eqReady := rfl
@[simp] theorem State.setGroupOf_ds (s : State) (ag : Agent) (g : Group) : (s.setGroupOf ag g).ds = s.ds := rfl
@[simp] theorem State.setGroupOf_power (s : State) (ag : Agent) (g : Group) : (s.setGroupOf ag g).power = s.power := rfl
@[simp] theorem State.setGroupOf_snap (s : State) (ag : Agent) (g : Group) : (s.setGroupOf ag g).snap = s.snap := rfl
@[simp] theorem State.setGroupOf_ready (s : State) (ag : Agent) (g : Group) : (s.setGroupOf ag g).ready = s.ready := rfl
@[simp] theorem State.setGroupOf_domain (s : State) (ag : Agent) (g : Group) : (s.setGroupOf ag g).domain = s.domain := rfl
@[simp] theorem State.setGroupOf_links (s : State) (ag : Agent) (g : Group) : (s.setGroupOf ag g).links = s.links := rfl
@[simp] theorem State.setGroupOf_linkRing (s : State) (ag : Agent) (g : Group) : (s.setGroupOf ag g).linkRing = s.linkRing := rfl
@[simp] theorem State.setGroupOf_turns (s : State) (ag : Agent) (g : Group) : (s.setGroupOf ag g).turns = s.turns := rfl
@[simp] theorem State.setGroupOf_posts (s : State) (ag : Agent) (g : Group) : (s.setGroupOf ag g).posts = s.posts := rfl
@[simp] theorem State.setGroupOf_downPorts (s : State) (ag : Agent) (g : Group) : (s.setGroupOf ag g).downPorts = s.downPorts := rfl
@[simp] theorem State.setGroupOf_lostPeers (s : State) (ag : Agent) (g : Group) : (s.setGroupOf ag g).lostPeers = s.lostPeers := rfl

@[simp] theorem State.setSplitOf_agenda (s : State) (ag : Agent) (sp : Split) : (s.setSplitOf ag sp).agenda = s.agenda := rfl
@[simp] theorem State.setSplitOf_node (s : State) (ag : Agent) (sp : Split) : (s.setSplitOf ag sp).node = s.node := rfl
@[simp] theorem State.setSplitOf_cur (s : State) (ag : Agent) (sp : Split) : (s.setSplitOf ag sp).cur = s.cur := rfl
@[simp] theorem State.setSplitOf_curLane (s : State) (ag : Agent) (sp : Split) : (s.setSplitOf ag sp).curLane = s.curLane := rfl
@[simp] theorem State.setSplitOf_tick (s : State) (ag : Agent) (sp : Split) : (s.setSplitOf ag sp).tick = s.tick := rfl
@[simp] theorem State.setSplitOf_mem (s : State) (ag : Agent) (sp : Split) : (s.setSplitOf ag sp).mem = s.mem := rfl
@[simp] theorem State.setSplitOf_lines (s : State) (ag : Agent) (sp : Split) : (s.setSplitOf ag sp).lines = s.lines := rfl
@[simp] theorem State.setSplitOf_cores (s : State) (ag : Agent) (sp : Split) : (s.setSplitOf ag sp).cores = s.cores := rfl
@[simp] theorem State.setSplitOf_dies (s : State) (ag : Agent) (sp : Split) : (s.setSplitOf ag sp).dies = s.dies := rfl
@[simp] theorem State.setSplitOf_ctxs (s : State) (ag : Agent) (sp : Split) : (s.setSplitOf ag sp).ctxs = s.ctxs := rfl
@[simp] theorem State.setSplitOf_ctxCores (s : State) (ag : Agent) (sp : Split) : (s.setSplitOf ag sp).ctxCores = s.ctxCores := rfl
@[simp] theorem State.setSplitOf_clusters (s : State) (ag : Agent) (sp : Split) : (s.setSplitOf ag sp).clusters = s.clusters := rfl
@[simp] theorem State.setSplitOf_ents (s : State) (ag : Agent) (sp : Split) : (s.setSplitOf ag sp).ents = s.ents := rfl
@[simp] theorem State.setSplitOf_nextId (s : State) (ag : Agent) (sp : Split) : (s.setSplitOf ag sp).nextId = s.nextId := rfl
@[simp] theorem State.setSplitOf_nextUid (s : State) (ag : Agent) (sp : Split) : (s.setSplitOf ag sp).nextUid = s.nextUid := rfl
@[simp] theorem State.setSplitOf_copies (s : State) (ag : Agent) (sp : Split) : (s.setSplitOf ag sp).copies = s.copies := rfl
@[simp] theorem State.setSplitOf_bver (s : State) (ag : Agent) (sp : Split) : (s.setSplitOf ag sp).bver = s.bver := rfl
@[simp] theorem State.setSplitOf_wseq (s : State) (ag : Agent) (sp : Split) : (s.setSplitOf ag sp).wseq = s.wseq := rfl
@[simp] theorem State.setSplitOf_floors (s : State) (ag : Agent) (sp : Split) : (s.setSplitOf ag sp).floors = s.floors := rfl
@[simp] theorem State.setSplitOf_relLog (s : State) (ag : Agent) (sp : Split) : (s.setSplitOf ag sp).relLog = s.relLog := rfl
@[simp] theorem State.setSplitOf_leases (s : State) (ag : Agent) (sp : Split) : (s.setSplitOf ag sp).leases = s.leases := rfl
@[simp] theorem State.setSplitOf_handles (s : State) (ag : Agent) (sp : Split) : (s.setSplitOf ag sp).handles = s.handles := rfl
@[simp] theorem State.setSplitOf_nextSer (s : State) (ag : Agent) (sp : Split) : (s.setSplitOf ag sp).nextSer = s.nextSer := rfl
@[simp] theorem State.setSplitOf_launches (s : State) (ag : Agent) (sp : Split) : (s.setSplitOf ag sp).launches = s.launches := rfl
@[simp] theorem State.setSplitOf_nextLaunch (s : State) (ag : Agent) (sp : Split) : (s.setSplitOf ag sp).nextLaunch = s.nextLaunch := rfl
@[simp] theorem State.setSplitOf_units (s : State) (ag : Agent) (sp : Split) : (s.setSplitOf ag sp).units = s.units := rfl
@[simp] theorem State.setSplitOf_nextUnit (s : State) (ag : Agent) (sp : Split) : (s.setSplitOf ag sp).nextUnit = s.nextUnit := rfl
@[simp] theorem State.setSplitOf_nextSet (s : State) (ag : Agent) (sp : Split) : (s.setSplitOf ag sp).nextSet = s.nextSet := rfl
@[simp] theorem State.setSplitOf_chframe (s : State) (ag : Agent) (sp : Split) : (s.setSplitOf ag sp).chframe = s.chframe := rfl
@[simp] theorem State.setSplitOf_chqsel (s : State) (ag : Agent) (sp : Split) : (s.setSplitOf ag sp).chqsel = s.chqsel := rfl
@[simp] theorem State.setSplitOf_quotas (s : State) (ag : Agent) (sp : Split) : (s.setSplitOf ag sp).quotas = s.quotas := rfl
@[simp] theorem State.setSplitOf_inForce (s : State) (ag : Agent) (sp : Split) : (s.setSplitOf ag sp).inForce = s.inForce := rfl
@[simp] theorem State.setSplitOf_spent (s : State) (ag : Agent) (sp : Split) : (s.setSplitOf ag sp).spent = s.spent := rfl
@[simp] theorem State.setSplitOf_frameAt (s : State) (ag : Agent) (sp : Split) : (s.setSplitOf ag sp).frameAt = s.frameAt := rfl
@[simp] theorem State.setSplitOf_nextInj (s : State) (ag : Agent) (sp : Split) : (s.setSplitOf ag sp).nextInj = s.nextInj := rfl
@[simp] theorem State.setSplitOf_served (s : State) (ag : Agent) (sp : Split) : (s.setSplitOf ag sp).served = s.served := rfl
@[simp] theorem State.setSplitOf_eqsel (s : State) (ag : Agent) (sp : Split) : (s.setSplitOf ag sp).eqsel = s.eqsel := rfl
@[simp] theorem State.setSplitOf_eqReady (s : State) (ag : Agent) (sp : Split) : (s.setSplitOf ag sp).eqReady = s.eqReady := rfl
@[simp] theorem State.setSplitOf_ds (s : State) (ag : Agent) (sp : Split) : (s.setSplitOf ag sp).ds = s.ds := rfl
@[simp] theorem State.setSplitOf_power (s : State) (ag : Agent) (sp : Split) : (s.setSplitOf ag sp).power = s.power := rfl
@[simp] theorem State.setSplitOf_snap (s : State) (ag : Agent) (sp : Split) : (s.setSplitOf ag sp).snap = s.snap := rfl
@[simp] theorem State.setSplitOf_ready (s : State) (ag : Agent) (sp : Split) : (s.setSplitOf ag sp).ready = s.ready := rfl
@[simp] theorem State.setSplitOf_domain (s : State) (ag : Agent) (sp : Split) : (s.setSplitOf ag sp).domain = s.domain := rfl
@[simp] theorem State.setSplitOf_links (s : State) (ag : Agent) (sp : Split) : (s.setSplitOf ag sp).links = s.links := rfl
@[simp] theorem State.setSplitOf_linkRing (s : State) (ag : Agent) (sp : Split) : (s.setSplitOf ag sp).linkRing = s.linkRing := rfl
@[simp] theorem State.setSplitOf_turns (s : State) (ag : Agent) (sp : Split) : (s.setSplitOf ag sp).turns = s.turns := rfl
@[simp] theorem State.setSplitOf_posts (s : State) (ag : Agent) (sp : Split) : (s.setSplitOf ag sp).posts = s.posts := rfl
@[simp] theorem State.setSplitOf_downPorts (s : State) (ag : Agent) (sp : Split) : (s.setSplitOf ag sp).downPorts = s.downPorts := rfl
@[simp] theorem State.setSplitOf_lostPeers (s : State) (ag : Agent) (sp : Split) : (s.setSplitOf ag sp).lostPeers = s.lostPeers := rfl

@[simp] theorem State.modSplit_agenda (s : State) (ag : Agent) (f : Split → Split) : (s.modSplit ag f).agenda = s.agenda := rfl
@[simp] theorem State.modSplit_node (s : State) (ag : Agent) (f : Split → Split) : (s.modSplit ag f).node = s.node := rfl
@[simp] theorem State.modSplit_cur (s : State) (ag : Agent) (f : Split → Split) : (s.modSplit ag f).cur = s.cur := rfl
@[simp] theorem State.modSplit_curLane (s : State) (ag : Agent) (f : Split → Split) : (s.modSplit ag f).curLane = s.curLane := rfl
@[simp] theorem State.modSplit_tick (s : State) (ag : Agent) (f : Split → Split) : (s.modSplit ag f).tick = s.tick := rfl
@[simp] theorem State.modSplit_mem (s : State) (ag : Agent) (f : Split → Split) : (s.modSplit ag f).mem = s.mem := rfl
@[simp] theorem State.modSplit_lines (s : State) (ag : Agent) (f : Split → Split) : (s.modSplit ag f).lines = s.lines := rfl
@[simp] theorem State.modSplit_cores (s : State) (ag : Agent) (f : Split → Split) : (s.modSplit ag f).cores = s.cores := rfl
@[simp] theorem State.modSplit_dies (s : State) (ag : Agent) (f : Split → Split) : (s.modSplit ag f).dies = s.dies := rfl
@[simp] theorem State.modSplit_ctxs (s : State) (ag : Agent) (f : Split → Split) : (s.modSplit ag f).ctxs = s.ctxs := rfl
@[simp] theorem State.modSplit_ctxCores (s : State) (ag : Agent) (f : Split → Split) : (s.modSplit ag f).ctxCores = s.ctxCores := rfl
@[simp] theorem State.modSplit_clusters (s : State) (ag : Agent) (f : Split → Split) : (s.modSplit ag f).clusters = s.clusters := rfl
@[simp] theorem State.modSplit_ents (s : State) (ag : Agent) (f : Split → Split) : (s.modSplit ag f).ents = s.ents := rfl
@[simp] theorem State.modSplit_nextId (s : State) (ag : Agent) (f : Split → Split) : (s.modSplit ag f).nextId = s.nextId := rfl
@[simp] theorem State.modSplit_nextUid (s : State) (ag : Agent) (f : Split → Split) : (s.modSplit ag f).nextUid = s.nextUid := rfl
@[simp] theorem State.modSplit_copies (s : State) (ag : Agent) (f : Split → Split) : (s.modSplit ag f).copies = s.copies := rfl
@[simp] theorem State.modSplit_bver (s : State) (ag : Agent) (f : Split → Split) : (s.modSplit ag f).bver = s.bver := rfl
@[simp] theorem State.modSplit_wseq (s : State) (ag : Agent) (f : Split → Split) : (s.modSplit ag f).wseq = s.wseq := rfl
@[simp] theorem State.modSplit_floors (s : State) (ag : Agent) (f : Split → Split) : (s.modSplit ag f).floors = s.floors := rfl
@[simp] theorem State.modSplit_relLog (s : State) (ag : Agent) (f : Split → Split) : (s.modSplit ag f).relLog = s.relLog := rfl
@[simp] theorem State.modSplit_leases (s : State) (ag : Agent) (f : Split → Split) : (s.modSplit ag f).leases = s.leases := rfl
@[simp] theorem State.modSplit_handles (s : State) (ag : Agent) (f : Split → Split) : (s.modSplit ag f).handles = s.handles := rfl
@[simp] theorem State.modSplit_nextSer (s : State) (ag : Agent) (f : Split → Split) : (s.modSplit ag f).nextSer = s.nextSer := rfl
@[simp] theorem State.modSplit_launches (s : State) (ag : Agent) (f : Split → Split) : (s.modSplit ag f).launches = s.launches := rfl
@[simp] theorem State.modSplit_nextLaunch (s : State) (ag : Agent) (f : Split → Split) : (s.modSplit ag f).nextLaunch = s.nextLaunch := rfl
@[simp] theorem State.modSplit_units (s : State) (ag : Agent) (f : Split → Split) : (s.modSplit ag f).units = s.units := rfl
@[simp] theorem State.modSplit_nextUnit (s : State) (ag : Agent) (f : Split → Split) : (s.modSplit ag f).nextUnit = s.nextUnit := rfl
@[simp] theorem State.modSplit_nextSet (s : State) (ag : Agent) (f : Split → Split) : (s.modSplit ag f).nextSet = s.nextSet := rfl
@[simp] theorem State.modSplit_chframe (s : State) (ag : Agent) (f : Split → Split) : (s.modSplit ag f).chframe = s.chframe := rfl
@[simp] theorem State.modSplit_chqsel (s : State) (ag : Agent) (f : Split → Split) : (s.modSplit ag f).chqsel = s.chqsel := rfl
@[simp] theorem State.modSplit_quotas (s : State) (ag : Agent) (f : Split → Split) : (s.modSplit ag f).quotas = s.quotas := rfl
@[simp] theorem State.modSplit_inForce (s : State) (ag : Agent) (f : Split → Split) : (s.modSplit ag f).inForce = s.inForce := rfl
@[simp] theorem State.modSplit_spent (s : State) (ag : Agent) (f : Split → Split) : (s.modSplit ag f).spent = s.spent := rfl
@[simp] theorem State.modSplit_frameAt (s : State) (ag : Agent) (f : Split → Split) : (s.modSplit ag f).frameAt = s.frameAt := rfl
@[simp] theorem State.modSplit_nextInj (s : State) (ag : Agent) (f : Split → Split) : (s.modSplit ag f).nextInj = s.nextInj := rfl
@[simp] theorem State.modSplit_served (s : State) (ag : Agent) (f : Split → Split) : (s.modSplit ag f).served = s.served := rfl
@[simp] theorem State.modSplit_eqsel (s : State) (ag : Agent) (f : Split → Split) : (s.modSplit ag f).eqsel = s.eqsel := rfl
@[simp] theorem State.modSplit_eqReady (s : State) (ag : Agent) (f : Split → Split) : (s.modSplit ag f).eqReady = s.eqReady := rfl
@[simp] theorem State.modSplit_ds (s : State) (ag : Agent) (f : Split → Split) : (s.modSplit ag f).ds = s.ds := rfl
@[simp] theorem State.modSplit_power (s : State) (ag : Agent) (f : Split → Split) : (s.modSplit ag f).power = s.power := rfl
@[simp] theorem State.modSplit_snap (s : State) (ag : Agent) (f : Split → Split) : (s.modSplit ag f).snap = s.snap := rfl
@[simp] theorem State.modSplit_ready (s : State) (ag : Agent) (f : Split → Split) : (s.modSplit ag f).ready = s.ready := rfl
@[simp] theorem State.modSplit_domain (s : State) (ag : Agent) (f : Split → Split) : (s.modSplit ag f).domain = s.domain := rfl
@[simp] theorem State.modSplit_links (s : State) (ag : Agent) (f : Split → Split) : (s.modSplit ag f).links = s.links := rfl
@[simp] theorem State.modSplit_linkRing (s : State) (ag : Agent) (f : Split → Split) : (s.modSplit ag f).linkRing = s.linkRing := rfl
@[simp] theorem State.modSplit_turns (s : State) (ag : Agent) (f : Split → Split) : (s.modSplit ag f).turns = s.turns := rfl
@[simp] theorem State.modSplit_posts (s : State) (ag : Agent) (f : Split → Split) : (s.modSplit ag f).posts = s.posts := rfl
@[simp] theorem State.modSplit_downPorts (s : State) (ag : Agent) (f : Split → Split) : (s.modSplit ag f).downPorts = s.downPorts := rfl
@[simp] theorem State.modSplit_lostPeers (s : State) (ag : Agent) (f : Split → Split) : (s.modSplit ag f).lostPeers = s.lostPeers := rfl

@[simp] theorem State.modGroup_agenda (s : State) (ag : Agent) (f : Group → Group) : (s.modGroup ag f).agenda = s.agenda := rfl
@[simp] theorem State.modGroup_node (s : State) (ag : Agent) (f : Group → Group) : (s.modGroup ag f).node = s.node := rfl
@[simp] theorem State.modGroup_cur (s : State) (ag : Agent) (f : Group → Group) : (s.modGroup ag f).cur = s.cur := rfl
@[simp] theorem State.modGroup_curLane (s : State) (ag : Agent) (f : Group → Group) : (s.modGroup ag f).curLane = s.curLane := rfl
@[simp] theorem State.modGroup_tick (s : State) (ag : Agent) (f : Group → Group) : (s.modGroup ag f).tick = s.tick := rfl
@[simp] theorem State.modGroup_mem (s : State) (ag : Agent) (f : Group → Group) : (s.modGroup ag f).mem = s.mem := rfl
@[simp] theorem State.modGroup_lines (s : State) (ag : Agent) (f : Group → Group) : (s.modGroup ag f).lines = s.lines := rfl
@[simp] theorem State.modGroup_cores (s : State) (ag : Agent) (f : Group → Group) : (s.modGroup ag f).cores = s.cores := rfl
@[simp] theorem State.modGroup_dies (s : State) (ag : Agent) (f : Group → Group) : (s.modGroup ag f).dies = s.dies := rfl
@[simp] theorem State.modGroup_ctxs (s : State) (ag : Agent) (f : Group → Group) : (s.modGroup ag f).ctxs = s.ctxs := rfl
@[simp] theorem State.modGroup_ctxCores (s : State) (ag : Agent) (f : Group → Group) : (s.modGroup ag f).ctxCores = s.ctxCores := rfl
@[simp] theorem State.modGroup_clusters (s : State) (ag : Agent) (f : Group → Group) : (s.modGroup ag f).clusters = s.clusters := rfl
@[simp] theorem State.modGroup_ents (s : State) (ag : Agent) (f : Group → Group) : (s.modGroup ag f).ents = s.ents := rfl
@[simp] theorem State.modGroup_nextId (s : State) (ag : Agent) (f : Group → Group) : (s.modGroup ag f).nextId = s.nextId := rfl
@[simp] theorem State.modGroup_nextUid (s : State) (ag : Agent) (f : Group → Group) : (s.modGroup ag f).nextUid = s.nextUid := rfl
@[simp] theorem State.modGroup_copies (s : State) (ag : Agent) (f : Group → Group) : (s.modGroup ag f).copies = s.copies := rfl
@[simp] theorem State.modGroup_bver (s : State) (ag : Agent) (f : Group → Group) : (s.modGroup ag f).bver = s.bver := rfl
@[simp] theorem State.modGroup_wseq (s : State) (ag : Agent) (f : Group → Group) : (s.modGroup ag f).wseq = s.wseq := rfl
@[simp] theorem State.modGroup_floors (s : State) (ag : Agent) (f : Group → Group) : (s.modGroup ag f).floors = s.floors := rfl
@[simp] theorem State.modGroup_relLog (s : State) (ag : Agent) (f : Group → Group) : (s.modGroup ag f).relLog = s.relLog := rfl
@[simp] theorem State.modGroup_leases (s : State) (ag : Agent) (f : Group → Group) : (s.modGroup ag f).leases = s.leases := rfl
@[simp] theorem State.modGroup_handles (s : State) (ag : Agent) (f : Group → Group) : (s.modGroup ag f).handles = s.handles := rfl
@[simp] theorem State.modGroup_nextSer (s : State) (ag : Agent) (f : Group → Group) : (s.modGroup ag f).nextSer = s.nextSer := rfl
@[simp] theorem State.modGroup_launches (s : State) (ag : Agent) (f : Group → Group) : (s.modGroup ag f).launches = s.launches := rfl
@[simp] theorem State.modGroup_nextLaunch (s : State) (ag : Agent) (f : Group → Group) : (s.modGroup ag f).nextLaunch = s.nextLaunch := rfl
@[simp] theorem State.modGroup_units (s : State) (ag : Agent) (f : Group → Group) : (s.modGroup ag f).units = s.units := rfl
@[simp] theorem State.modGroup_nextUnit (s : State) (ag : Agent) (f : Group → Group) : (s.modGroup ag f).nextUnit = s.nextUnit := rfl
@[simp] theorem State.modGroup_nextSet (s : State) (ag : Agent) (f : Group → Group) : (s.modGroup ag f).nextSet = s.nextSet := rfl
@[simp] theorem State.modGroup_chframe (s : State) (ag : Agent) (f : Group → Group) : (s.modGroup ag f).chframe = s.chframe := rfl
@[simp] theorem State.modGroup_chqsel (s : State) (ag : Agent) (f : Group → Group) : (s.modGroup ag f).chqsel = s.chqsel := rfl
@[simp] theorem State.modGroup_quotas (s : State) (ag : Agent) (f : Group → Group) : (s.modGroup ag f).quotas = s.quotas := rfl
@[simp] theorem State.modGroup_inForce (s : State) (ag : Agent) (f : Group → Group) : (s.modGroup ag f).inForce = s.inForce := rfl
@[simp] theorem State.modGroup_spent (s : State) (ag : Agent) (f : Group → Group) : (s.modGroup ag f).spent = s.spent := rfl
@[simp] theorem State.modGroup_frameAt (s : State) (ag : Agent) (f : Group → Group) : (s.modGroup ag f).frameAt = s.frameAt := rfl
@[simp] theorem State.modGroup_nextInj (s : State) (ag : Agent) (f : Group → Group) : (s.modGroup ag f).nextInj = s.nextInj := rfl
@[simp] theorem State.modGroup_served (s : State) (ag : Agent) (f : Group → Group) : (s.modGroup ag f).served = s.served := rfl
@[simp] theorem State.modGroup_eqsel (s : State) (ag : Agent) (f : Group → Group) : (s.modGroup ag f).eqsel = s.eqsel := rfl
@[simp] theorem State.modGroup_eqReady (s : State) (ag : Agent) (f : Group → Group) : (s.modGroup ag f).eqReady = s.eqReady := rfl
@[simp] theorem State.modGroup_ds (s : State) (ag : Agent) (f : Group → Group) : (s.modGroup ag f).ds = s.ds := rfl
@[simp] theorem State.modGroup_power (s : State) (ag : Agent) (f : Group → Group) : (s.modGroup ag f).power = s.power := rfl
@[simp] theorem State.modGroup_snap (s : State) (ag : Agent) (f : Group → Group) : (s.modGroup ag f).snap = s.snap := rfl
@[simp] theorem State.modGroup_ready (s : State) (ag : Agent) (f : Group → Group) : (s.modGroup ag f).ready = s.ready := rfl
@[simp] theorem State.modGroup_domain (s : State) (ag : Agent) (f : Group → Group) : (s.modGroup ag f).domain = s.domain := rfl
@[simp] theorem State.modGroup_links (s : State) (ag : Agent) (f : Group → Group) : (s.modGroup ag f).links = s.links := rfl
@[simp] theorem State.modGroup_linkRing (s : State) (ag : Agent) (f : Group → Group) : (s.modGroup ag f).linkRing = s.linkRing := rfl
@[simp] theorem State.modGroup_turns (s : State) (ag : Agent) (f : Group → Group) : (s.modGroup ag f).turns = s.turns := rfl
@[simp] theorem State.modGroup_posts (s : State) (ag : Agent) (f : Group → Group) : (s.modGroup ag f).posts = s.posts := rfl
@[simp] theorem State.modGroup_downPorts (s : State) (ag : Agent) (f : Group → Group) : (s.modGroup ag f).downPorts = s.downPorts := rfl
@[simp] theorem State.modGroup_lostPeers (s : State) (ag : Agent) (f : Group → Group) : (s.modGroup ag f).lostPeers = s.lostPeers := rfl

@[simp] theorem State.modCur_agenda (s : State) (f : Split → Split) : (s.modCur f).agenda = s.agenda := rfl
@[simp] theorem State.modCur_node (s : State) (f : Split → Split) : (s.modCur f).node = s.node := rfl
@[simp] theorem State.modCur_cur (s : State) (f : Split → Split) : (s.modCur f).cur = s.cur := rfl
@[simp] theorem State.modCur_curLane (s : State) (f : Split → Split) : (s.modCur f).curLane = s.curLane := rfl
@[simp] theorem State.modCur_tick (s : State) (f : Split → Split) : (s.modCur f).tick = s.tick := rfl
@[simp] theorem State.modCur_mem (s : State) (f : Split → Split) : (s.modCur f).mem = s.mem := rfl
@[simp] theorem State.modCur_lines (s : State) (f : Split → Split) : (s.modCur f).lines = s.lines := rfl
@[simp] theorem State.modCur_cores (s : State) (f : Split → Split) : (s.modCur f).cores = s.cores := rfl
@[simp] theorem State.modCur_dies (s : State) (f : Split → Split) : (s.modCur f).dies = s.dies := rfl
@[simp] theorem State.modCur_ctxs (s : State) (f : Split → Split) : (s.modCur f).ctxs = s.ctxs := rfl
@[simp] theorem State.modCur_ctxCores (s : State) (f : Split → Split) : (s.modCur f).ctxCores = s.ctxCores := rfl
@[simp] theorem State.modCur_clusters (s : State) (f : Split → Split) : (s.modCur f).clusters = s.clusters := rfl
@[simp] theorem State.modCur_ents (s : State) (f : Split → Split) : (s.modCur f).ents = s.ents := rfl
@[simp] theorem State.modCur_nextId (s : State) (f : Split → Split) : (s.modCur f).nextId = s.nextId := rfl
@[simp] theorem State.modCur_nextUid (s : State) (f : Split → Split) : (s.modCur f).nextUid = s.nextUid := rfl
@[simp] theorem State.modCur_copies (s : State) (f : Split → Split) : (s.modCur f).copies = s.copies := rfl
@[simp] theorem State.modCur_bver (s : State) (f : Split → Split) : (s.modCur f).bver = s.bver := rfl
@[simp] theorem State.modCur_wseq (s : State) (f : Split → Split) : (s.modCur f).wseq = s.wseq := rfl
@[simp] theorem State.modCur_floors (s : State) (f : Split → Split) : (s.modCur f).floors = s.floors := rfl
@[simp] theorem State.modCur_relLog (s : State) (f : Split → Split) : (s.modCur f).relLog = s.relLog := rfl
@[simp] theorem State.modCur_leases (s : State) (f : Split → Split) : (s.modCur f).leases = s.leases := rfl
@[simp] theorem State.modCur_handles (s : State) (f : Split → Split) : (s.modCur f).handles = s.handles := rfl
@[simp] theorem State.modCur_nextSer (s : State) (f : Split → Split) : (s.modCur f).nextSer = s.nextSer := rfl
@[simp] theorem State.modCur_launches (s : State) (f : Split → Split) : (s.modCur f).launches = s.launches := rfl
@[simp] theorem State.modCur_nextLaunch (s : State) (f : Split → Split) : (s.modCur f).nextLaunch = s.nextLaunch := rfl
@[simp] theorem State.modCur_units (s : State) (f : Split → Split) : (s.modCur f).units = s.units := rfl
@[simp] theorem State.modCur_nextUnit (s : State) (f : Split → Split) : (s.modCur f).nextUnit = s.nextUnit := rfl
@[simp] theorem State.modCur_nextSet (s : State) (f : Split → Split) : (s.modCur f).nextSet = s.nextSet := rfl
@[simp] theorem State.modCur_chframe (s : State) (f : Split → Split) : (s.modCur f).chframe = s.chframe := rfl
@[simp] theorem State.modCur_chqsel (s : State) (f : Split → Split) : (s.modCur f).chqsel = s.chqsel := rfl
@[simp] theorem State.modCur_quotas (s : State) (f : Split → Split) : (s.modCur f).quotas = s.quotas := rfl
@[simp] theorem State.modCur_inForce (s : State) (f : Split → Split) : (s.modCur f).inForce = s.inForce := rfl
@[simp] theorem State.modCur_spent (s : State) (f : Split → Split) : (s.modCur f).spent = s.spent := rfl
@[simp] theorem State.modCur_frameAt (s : State) (f : Split → Split) : (s.modCur f).frameAt = s.frameAt := rfl
@[simp] theorem State.modCur_nextInj (s : State) (f : Split → Split) : (s.modCur f).nextInj = s.nextInj := rfl
@[simp] theorem State.modCur_served (s : State) (f : Split → Split) : (s.modCur f).served = s.served := rfl
@[simp] theorem State.modCur_eqsel (s : State) (f : Split → Split) : (s.modCur f).eqsel = s.eqsel := rfl
@[simp] theorem State.modCur_eqReady (s : State) (f : Split → Split) : (s.modCur f).eqReady = s.eqReady := rfl
@[simp] theorem State.modCur_ds (s : State) (f : Split → Split) : (s.modCur f).ds = s.ds := rfl
@[simp] theorem State.modCur_power (s : State) (f : Split → Split) : (s.modCur f).power = s.power := rfl
@[simp] theorem State.modCur_snap (s : State) (f : Split → Split) : (s.modCur f).snap = s.snap := rfl
@[simp] theorem State.modCur_ready (s : State) (f : Split → Split) : (s.modCur f).ready = s.ready := rfl
@[simp] theorem State.modCur_domain (s : State) (f : Split → Split) : (s.modCur f).domain = s.domain := rfl
@[simp] theorem State.modCur_links (s : State) (f : Split → Split) : (s.modCur f).links = s.links := rfl
@[simp] theorem State.modCur_linkRing (s : State) (f : Split → Split) : (s.modCur f).linkRing = s.linkRing := rfl
@[simp] theorem State.modCur_turns (s : State) (f : Split → Split) : (s.modCur f).turns = s.turns := rfl
@[simp] theorem State.modCur_posts (s : State) (f : Split → Split) : (s.modCur f).posts = s.posts := rfl
@[simp] theorem State.modCur_downPorts (s : State) (f : Split → Split) : (s.modCur f).downPorts = s.downPorts := rfl
@[simp] theorem State.modCur_lostPeers (s : State) (f : Split → Split) : (s.modCur f).lostPeers = s.lostPeers := rfl

@[simp] theorem State.setCore_agenda (s : State) (c : Nat) (x : Core) : (s.setCore c x).agenda = s.agenda := rfl
@[simp] theorem State.setCore_node (s : State) (c : Nat) (x : Core) : (s.setCore c x).node = s.node := rfl
@[simp] theorem State.setCore_cur (s : State) (c : Nat) (x : Core) : (s.setCore c x).cur = s.cur := rfl
@[simp] theorem State.setCore_curLane (s : State) (c : Nat) (x : Core) : (s.setCore c x).curLane = s.curLane := rfl
@[simp] theorem State.setCore_tick (s : State) (c : Nat) (x : Core) : (s.setCore c x).tick = s.tick := rfl
@[simp] theorem State.setCore_mem (s : State) (c : Nat) (x : Core) : (s.setCore c x).mem = s.mem := rfl
@[simp] theorem State.setCore_lines (s : State) (c : Nat) (x : Core) : (s.setCore c x).lines = s.lines := rfl
@[simp] theorem State.setCore_groups (s : State) (c : Nat) (x : Core) : (s.setCore c x).groups = s.groups := rfl
@[simp] theorem State.setCore_dies (s : State) (c : Nat) (x : Core) : (s.setCore c x).dies = s.dies := rfl
@[simp] theorem State.setCore_ctxs (s : State) (c : Nat) (x : Core) : (s.setCore c x).ctxs = s.ctxs := rfl
@[simp] theorem State.setCore_ctxCores (s : State) (c : Nat) (x : Core) : (s.setCore c x).ctxCores = s.ctxCores := rfl
@[simp] theorem State.setCore_clusters (s : State) (c : Nat) (x : Core) : (s.setCore c x).clusters = s.clusters := rfl
@[simp] theorem State.setCore_ents (s : State) (c : Nat) (x : Core) : (s.setCore c x).ents = s.ents := rfl
@[simp] theorem State.setCore_nextId (s : State) (c : Nat) (x : Core) : (s.setCore c x).nextId = s.nextId := rfl
@[simp] theorem State.setCore_nextUid (s : State) (c : Nat) (x : Core) : (s.setCore c x).nextUid = s.nextUid := rfl
@[simp] theorem State.setCore_copies (s : State) (c : Nat) (x : Core) : (s.setCore c x).copies = s.copies := rfl
@[simp] theorem State.setCore_bver (s : State) (c : Nat) (x : Core) : (s.setCore c x).bver = s.bver := rfl
@[simp] theorem State.setCore_wseq (s : State) (c : Nat) (x : Core) : (s.setCore c x).wseq = s.wseq := rfl
@[simp] theorem State.setCore_floors (s : State) (c : Nat) (x : Core) : (s.setCore c x).floors = s.floors := rfl
@[simp] theorem State.setCore_relLog (s : State) (c : Nat) (x : Core) : (s.setCore c x).relLog = s.relLog := rfl
@[simp] theorem State.setCore_leases (s : State) (c : Nat) (x : Core) : (s.setCore c x).leases = s.leases := rfl
@[simp] theorem State.setCore_handles (s : State) (c : Nat) (x : Core) : (s.setCore c x).handles = s.handles := rfl
@[simp] theorem State.setCore_nextSer (s : State) (c : Nat) (x : Core) : (s.setCore c x).nextSer = s.nextSer := rfl
@[simp] theorem State.setCore_launches (s : State) (c : Nat) (x : Core) : (s.setCore c x).launches = s.launches := rfl
@[simp] theorem State.setCore_nextLaunch (s : State) (c : Nat) (x : Core) : (s.setCore c x).nextLaunch = s.nextLaunch := rfl
@[simp] theorem State.setCore_units (s : State) (c : Nat) (x : Core) : (s.setCore c x).units = s.units := rfl
@[simp] theorem State.setCore_nextUnit (s : State) (c : Nat) (x : Core) : (s.setCore c x).nextUnit = s.nextUnit := rfl
@[simp] theorem State.setCore_nextSet (s : State) (c : Nat) (x : Core) : (s.setCore c x).nextSet = s.nextSet := rfl
@[simp] theorem State.setCore_chframe (s : State) (c : Nat) (x : Core) : (s.setCore c x).chframe = s.chframe := rfl
@[simp] theorem State.setCore_chqsel (s : State) (c : Nat) (x : Core) : (s.setCore c x).chqsel = s.chqsel := rfl
@[simp] theorem State.setCore_quotas (s : State) (c : Nat) (x : Core) : (s.setCore c x).quotas = s.quotas := rfl
@[simp] theorem State.setCore_inForce (s : State) (c : Nat) (x : Core) : (s.setCore c x).inForce = s.inForce := rfl
@[simp] theorem State.setCore_spent (s : State) (c : Nat) (x : Core) : (s.setCore c x).spent = s.spent := rfl
@[simp] theorem State.setCore_frameAt (s : State) (c : Nat) (x : Core) : (s.setCore c x).frameAt = s.frameAt := rfl
@[simp] theorem State.setCore_nextInj (s : State) (c : Nat) (x : Core) : (s.setCore c x).nextInj = s.nextInj := rfl
@[simp] theorem State.setCore_served (s : State) (c : Nat) (x : Core) : (s.setCore c x).served = s.served := rfl
@[simp] theorem State.setCore_eqsel (s : State) (c : Nat) (x : Core) : (s.setCore c x).eqsel = s.eqsel := rfl
@[simp] theorem State.setCore_eqReady (s : State) (c : Nat) (x : Core) : (s.setCore c x).eqReady = s.eqReady := rfl
@[simp] theorem State.setCore_ds (s : State) (c : Nat) (x : Core) : (s.setCore c x).ds = s.ds := rfl
@[simp] theorem State.setCore_power (s : State) (c : Nat) (x : Core) : (s.setCore c x).power = s.power := rfl
@[simp] theorem State.setCore_snap (s : State) (c : Nat) (x : Core) : (s.setCore c x).snap = s.snap := rfl
@[simp] theorem State.setCore_ready (s : State) (c : Nat) (x : Core) : (s.setCore c x).ready = s.ready := rfl
@[simp] theorem State.setCore_domain (s : State) (c : Nat) (x : Core) : (s.setCore c x).domain = s.domain := rfl
@[simp] theorem State.setCore_links (s : State) (c : Nat) (x : Core) : (s.setCore c x).links = s.links := rfl
@[simp] theorem State.setCore_linkRing (s : State) (c : Nat) (x : Core) : (s.setCore c x).linkRing = s.linkRing := rfl
@[simp] theorem State.setCore_turns (s : State) (c : Nat) (x : Core) : (s.setCore c x).turns = s.turns := rfl
@[simp] theorem State.setCore_posts (s : State) (c : Nat) (x : Core) : (s.setCore c x).posts = s.posts := rfl
@[simp] theorem State.setCore_downPorts (s : State) (c : Nat) (x : Core) : (s.setCore c x).downPorts = s.downPorts := rfl
@[simp] theorem State.setCore_lostPeers (s : State) (c : Nat) (x : Core) : (s.setCore c x).lostPeers = s.lostPeers := rfl

@[simp] theorem State.setDie_agenda (s : State) (d : Nat) (x : Die) : (s.setDie d x).agenda = s.agenda := rfl
@[simp] theorem State.setDie_node (s : State) (d : Nat) (x : Die) : (s.setDie d x).node = s.node := rfl
@[simp] theorem State.setDie_cur (s : State) (d : Nat) (x : Die) : (s.setDie d x).cur = s.cur := rfl
@[simp] theorem State.setDie_curLane (s : State) (d : Nat) (x : Die) : (s.setDie d x).curLane = s.curLane := rfl
@[simp] theorem State.setDie_tick (s : State) (d : Nat) (x : Die) : (s.setDie d x).tick = s.tick := rfl
@[simp] theorem State.setDie_mem (s : State) (d : Nat) (x : Die) : (s.setDie d x).mem = s.mem := rfl
@[simp] theorem State.setDie_lines (s : State) (d : Nat) (x : Die) : (s.setDie d x).lines = s.lines := rfl
@[simp] theorem State.setDie_groups (s : State) (d : Nat) (x : Die) : (s.setDie d x).groups = s.groups := rfl
@[simp] theorem State.setDie_cores (s : State) (d : Nat) (x : Die) : (s.setDie d x).cores = s.cores := rfl
@[simp] theorem State.setDie_ctxs (s : State) (d : Nat) (x : Die) : (s.setDie d x).ctxs = s.ctxs := rfl
@[simp] theorem State.setDie_ctxCores (s : State) (d : Nat) (x : Die) : (s.setDie d x).ctxCores = s.ctxCores := rfl
@[simp] theorem State.setDie_clusters (s : State) (d : Nat) (x : Die) : (s.setDie d x).clusters = s.clusters := rfl
@[simp] theorem State.setDie_ents (s : State) (d : Nat) (x : Die) : (s.setDie d x).ents = s.ents := rfl
@[simp] theorem State.setDie_nextId (s : State) (d : Nat) (x : Die) : (s.setDie d x).nextId = s.nextId := rfl
@[simp] theorem State.setDie_nextUid (s : State) (d : Nat) (x : Die) : (s.setDie d x).nextUid = s.nextUid := rfl
@[simp] theorem State.setDie_copies (s : State) (d : Nat) (x : Die) : (s.setDie d x).copies = s.copies := rfl
@[simp] theorem State.setDie_bver (s : State) (d : Nat) (x : Die) : (s.setDie d x).bver = s.bver := rfl
@[simp] theorem State.setDie_wseq (s : State) (d : Nat) (x : Die) : (s.setDie d x).wseq = s.wseq := rfl
@[simp] theorem State.setDie_floors (s : State) (d : Nat) (x : Die) : (s.setDie d x).floors = s.floors := rfl
@[simp] theorem State.setDie_relLog (s : State) (d : Nat) (x : Die) : (s.setDie d x).relLog = s.relLog := rfl
@[simp] theorem State.setDie_leases (s : State) (d : Nat) (x : Die) : (s.setDie d x).leases = s.leases := rfl
@[simp] theorem State.setDie_handles (s : State) (d : Nat) (x : Die) : (s.setDie d x).handles = s.handles := rfl
@[simp] theorem State.setDie_nextSer (s : State) (d : Nat) (x : Die) : (s.setDie d x).nextSer = s.nextSer := rfl
@[simp] theorem State.setDie_launches (s : State) (d : Nat) (x : Die) : (s.setDie d x).launches = s.launches := rfl
@[simp] theorem State.setDie_nextLaunch (s : State) (d : Nat) (x : Die) : (s.setDie d x).nextLaunch = s.nextLaunch := rfl
@[simp] theorem State.setDie_units (s : State) (d : Nat) (x : Die) : (s.setDie d x).units = s.units := rfl
@[simp] theorem State.setDie_nextUnit (s : State) (d : Nat) (x : Die) : (s.setDie d x).nextUnit = s.nextUnit := rfl
@[simp] theorem State.setDie_nextSet (s : State) (d : Nat) (x : Die) : (s.setDie d x).nextSet = s.nextSet := rfl
@[simp] theorem State.setDie_chframe (s : State) (d : Nat) (x : Die) : (s.setDie d x).chframe = s.chframe := rfl
@[simp] theorem State.setDie_chqsel (s : State) (d : Nat) (x : Die) : (s.setDie d x).chqsel = s.chqsel := rfl
@[simp] theorem State.setDie_quotas (s : State) (d : Nat) (x : Die) : (s.setDie d x).quotas = s.quotas := rfl
@[simp] theorem State.setDie_inForce (s : State) (d : Nat) (x : Die) : (s.setDie d x).inForce = s.inForce := rfl
@[simp] theorem State.setDie_spent (s : State) (d : Nat) (x : Die) : (s.setDie d x).spent = s.spent := rfl
@[simp] theorem State.setDie_frameAt (s : State) (d : Nat) (x : Die) : (s.setDie d x).frameAt = s.frameAt := rfl
@[simp] theorem State.setDie_nextInj (s : State) (d : Nat) (x : Die) : (s.setDie d x).nextInj = s.nextInj := rfl
@[simp] theorem State.setDie_served (s : State) (d : Nat) (x : Die) : (s.setDie d x).served = s.served := rfl
@[simp] theorem State.setDie_eqsel (s : State) (d : Nat) (x : Die) : (s.setDie d x).eqsel = s.eqsel := rfl
@[simp] theorem State.setDie_eqReady (s : State) (d : Nat) (x : Die) : (s.setDie d x).eqReady = s.eqReady := rfl
@[simp] theorem State.setDie_ds (s : State) (d : Nat) (x : Die) : (s.setDie d x).ds = s.ds := rfl
@[simp] theorem State.setDie_power (s : State) (d : Nat) (x : Die) : (s.setDie d x).power = s.power := rfl
@[simp] theorem State.setDie_snap (s : State) (d : Nat) (x : Die) : (s.setDie d x).snap = s.snap := rfl
@[simp] theorem State.setDie_ready (s : State) (d : Nat) (x : Die) : (s.setDie d x).ready = s.ready := rfl
@[simp] theorem State.setDie_domain (s : State) (d : Nat) (x : Die) : (s.setDie d x).domain = s.domain := rfl
@[simp] theorem State.setDie_links (s : State) (d : Nat) (x : Die) : (s.setDie d x).links = s.links := rfl
@[simp] theorem State.setDie_linkRing (s : State) (d : Nat) (x : Die) : (s.setDie d x).linkRing = s.linkRing := rfl
@[simp] theorem State.setDie_turns (s : State) (d : Nat) (x : Die) : (s.setDie d x).turns = s.turns := rfl
@[simp] theorem State.setDie_posts (s : State) (d : Nat) (x : Die) : (s.setDie d x).posts = s.posts := rfl
@[simp] theorem State.setDie_downPorts (s : State) (d : Nat) (x : Die) : (s.setDie d x).downPorts = s.downPorts := rfl
@[simp] theorem State.setDie_lostPeers (s : State) (d : Nat) (x : Die) : (s.setDie d x).lostPeers = s.lostPeers := rfl

@[simp] theorem State.modDie_agenda (s : State) (d : Nat) (f : Die → Die) : (s.modDie d f).agenda = s.agenda := rfl
@[simp] theorem State.modDie_node (s : State) (d : Nat) (f : Die → Die) : (s.modDie d f).node = s.node := rfl
@[simp] theorem State.modDie_cur (s : State) (d : Nat) (f : Die → Die) : (s.modDie d f).cur = s.cur := rfl
@[simp] theorem State.modDie_curLane (s : State) (d : Nat) (f : Die → Die) : (s.modDie d f).curLane = s.curLane := rfl
@[simp] theorem State.modDie_tick (s : State) (d : Nat) (f : Die → Die) : (s.modDie d f).tick = s.tick := rfl
@[simp] theorem State.modDie_mem (s : State) (d : Nat) (f : Die → Die) : (s.modDie d f).mem = s.mem := rfl
@[simp] theorem State.modDie_lines (s : State) (d : Nat) (f : Die → Die) : (s.modDie d f).lines = s.lines := rfl
@[simp] theorem State.modDie_groups (s : State) (d : Nat) (f : Die → Die) : (s.modDie d f).groups = s.groups := rfl
@[simp] theorem State.modDie_cores (s : State) (d : Nat) (f : Die → Die) : (s.modDie d f).cores = s.cores := rfl
@[simp] theorem State.modDie_ctxs (s : State) (d : Nat) (f : Die → Die) : (s.modDie d f).ctxs = s.ctxs := rfl
@[simp] theorem State.modDie_ctxCores (s : State) (d : Nat) (f : Die → Die) : (s.modDie d f).ctxCores = s.ctxCores := rfl
@[simp] theorem State.modDie_clusters (s : State) (d : Nat) (f : Die → Die) : (s.modDie d f).clusters = s.clusters := rfl
@[simp] theorem State.modDie_ents (s : State) (d : Nat) (f : Die → Die) : (s.modDie d f).ents = s.ents := rfl
@[simp] theorem State.modDie_nextId (s : State) (d : Nat) (f : Die → Die) : (s.modDie d f).nextId = s.nextId := rfl
@[simp] theorem State.modDie_nextUid (s : State) (d : Nat) (f : Die → Die) : (s.modDie d f).nextUid = s.nextUid := rfl
@[simp] theorem State.modDie_copies (s : State) (d : Nat) (f : Die → Die) : (s.modDie d f).copies = s.copies := rfl
@[simp] theorem State.modDie_bver (s : State) (d : Nat) (f : Die → Die) : (s.modDie d f).bver = s.bver := rfl
@[simp] theorem State.modDie_wseq (s : State) (d : Nat) (f : Die → Die) : (s.modDie d f).wseq = s.wseq := rfl
@[simp] theorem State.modDie_floors (s : State) (d : Nat) (f : Die → Die) : (s.modDie d f).floors = s.floors := rfl
@[simp] theorem State.modDie_relLog (s : State) (d : Nat) (f : Die → Die) : (s.modDie d f).relLog = s.relLog := rfl
@[simp] theorem State.modDie_leases (s : State) (d : Nat) (f : Die → Die) : (s.modDie d f).leases = s.leases := rfl
@[simp] theorem State.modDie_handles (s : State) (d : Nat) (f : Die → Die) : (s.modDie d f).handles = s.handles := rfl
@[simp] theorem State.modDie_nextSer (s : State) (d : Nat) (f : Die → Die) : (s.modDie d f).nextSer = s.nextSer := rfl
@[simp] theorem State.modDie_launches (s : State) (d : Nat) (f : Die → Die) : (s.modDie d f).launches = s.launches := rfl
@[simp] theorem State.modDie_nextLaunch (s : State) (d : Nat) (f : Die → Die) : (s.modDie d f).nextLaunch = s.nextLaunch := rfl
@[simp] theorem State.modDie_units (s : State) (d : Nat) (f : Die → Die) : (s.modDie d f).units = s.units := rfl
@[simp] theorem State.modDie_nextUnit (s : State) (d : Nat) (f : Die → Die) : (s.modDie d f).nextUnit = s.nextUnit := rfl
@[simp] theorem State.modDie_nextSet (s : State) (d : Nat) (f : Die → Die) : (s.modDie d f).nextSet = s.nextSet := rfl
@[simp] theorem State.modDie_chframe (s : State) (d : Nat) (f : Die → Die) : (s.modDie d f).chframe = s.chframe := rfl
@[simp] theorem State.modDie_chqsel (s : State) (d : Nat) (f : Die → Die) : (s.modDie d f).chqsel = s.chqsel := rfl
@[simp] theorem State.modDie_quotas (s : State) (d : Nat) (f : Die → Die) : (s.modDie d f).quotas = s.quotas := rfl
@[simp] theorem State.modDie_inForce (s : State) (d : Nat) (f : Die → Die) : (s.modDie d f).inForce = s.inForce := rfl
@[simp] theorem State.modDie_spent (s : State) (d : Nat) (f : Die → Die) : (s.modDie d f).spent = s.spent := rfl
@[simp] theorem State.modDie_frameAt (s : State) (d : Nat) (f : Die → Die) : (s.modDie d f).frameAt = s.frameAt := rfl
@[simp] theorem State.modDie_nextInj (s : State) (d : Nat) (f : Die → Die) : (s.modDie d f).nextInj = s.nextInj := rfl
@[simp] theorem State.modDie_served (s : State) (d : Nat) (f : Die → Die) : (s.modDie d f).served = s.served := rfl
@[simp] theorem State.modDie_eqsel (s : State) (d : Nat) (f : Die → Die) : (s.modDie d f).eqsel = s.eqsel := rfl
@[simp] theorem State.modDie_eqReady (s : State) (d : Nat) (f : Die → Die) : (s.modDie d f).eqReady = s.eqReady := rfl
@[simp] theorem State.modDie_ds (s : State) (d : Nat) (f : Die → Die) : (s.modDie d f).ds = s.ds := rfl
@[simp] theorem State.modDie_power (s : State) (d : Nat) (f : Die → Die) : (s.modDie d f).power = s.power := rfl
@[simp] theorem State.modDie_snap (s : State) (d : Nat) (f : Die → Die) : (s.modDie d f).snap = s.snap := rfl
@[simp] theorem State.modDie_ready (s : State) (d : Nat) (f : Die → Die) : (s.modDie d f).ready = s.ready := rfl
@[simp] theorem State.modDie_domain (s : State) (d : Nat) (f : Die → Die) : (s.modDie d f).domain = s.domain := rfl
@[simp] theorem State.modDie_links (s : State) (d : Nat) (f : Die → Die) : (s.modDie d f).links = s.links := rfl
@[simp] theorem State.modDie_linkRing (s : State) (d : Nat) (f : Die → Die) : (s.modDie d f).linkRing = s.linkRing := rfl
@[simp] theorem State.modDie_turns (s : State) (d : Nat) (f : Die → Die) : (s.modDie d f).turns = s.turns := rfl
@[simp] theorem State.modDie_posts (s : State) (d : Nat) (f : Die → Die) : (s.modDie d f).posts = s.posts := rfl
@[simp] theorem State.modDie_downPorts (s : State) (d : Nat) (f : Die → Die) : (s.modDie d f).downPorts = s.downPorts := rfl
@[simp] theorem State.modDie_lostPeers (s : State) (d : Nat) (f : Die → Die) : (s.modDie d f).lostPeers = s.lostPeers := rfl

@[simp] theorem State.setCtx_agenda (s : State) (c : Nat) (x : Ctx) : (s.setCtx c x).agenda = s.agenda := rfl
@[simp] theorem State.setCtx_node (s : State) (c : Nat) (x : Ctx) : (s.setCtx c x).node = s.node := rfl
@[simp] theorem State.setCtx_cur (s : State) (c : Nat) (x : Ctx) : (s.setCtx c x).cur = s.cur := rfl
@[simp] theorem State.setCtx_curLane (s : State) (c : Nat) (x : Ctx) : (s.setCtx c x).curLane = s.curLane := rfl
@[simp] theorem State.setCtx_tick (s : State) (c : Nat) (x : Ctx) : (s.setCtx c x).tick = s.tick := rfl
@[simp] theorem State.setCtx_mem (s : State) (c : Nat) (x : Ctx) : (s.setCtx c x).mem = s.mem := rfl
@[simp] theorem State.setCtx_lines (s : State) (c : Nat) (x : Ctx) : (s.setCtx c x).lines = s.lines := rfl
@[simp] theorem State.setCtx_groups (s : State) (c : Nat) (x : Ctx) : (s.setCtx c x).groups = s.groups := rfl
@[simp] theorem State.setCtx_cores (s : State) (c : Nat) (x : Ctx) : (s.setCtx c x).cores = s.cores := rfl
@[simp] theorem State.setCtx_dies (s : State) (c : Nat) (x : Ctx) : (s.setCtx c x).dies = s.dies := rfl
@[simp] theorem State.setCtx_ctxCores (s : State) (c : Nat) (x : Ctx) : (s.setCtx c x).ctxCores = s.ctxCores := rfl
@[simp] theorem State.setCtx_clusters (s : State) (c : Nat) (x : Ctx) : (s.setCtx c x).clusters = s.clusters := rfl
@[simp] theorem State.setCtx_ents (s : State) (c : Nat) (x : Ctx) : (s.setCtx c x).ents = s.ents := rfl
@[simp] theorem State.setCtx_nextId (s : State) (c : Nat) (x : Ctx) : (s.setCtx c x).nextId = s.nextId := rfl
@[simp] theorem State.setCtx_nextUid (s : State) (c : Nat) (x : Ctx) : (s.setCtx c x).nextUid = s.nextUid := rfl
@[simp] theorem State.setCtx_copies (s : State) (c : Nat) (x : Ctx) : (s.setCtx c x).copies = s.copies := rfl
@[simp] theorem State.setCtx_bver (s : State) (c : Nat) (x : Ctx) : (s.setCtx c x).bver = s.bver := rfl
@[simp] theorem State.setCtx_wseq (s : State) (c : Nat) (x : Ctx) : (s.setCtx c x).wseq = s.wseq := rfl
@[simp] theorem State.setCtx_floors (s : State) (c : Nat) (x : Ctx) : (s.setCtx c x).floors = s.floors := rfl
@[simp] theorem State.setCtx_relLog (s : State) (c : Nat) (x : Ctx) : (s.setCtx c x).relLog = s.relLog := rfl
@[simp] theorem State.setCtx_leases (s : State) (c : Nat) (x : Ctx) : (s.setCtx c x).leases = s.leases := rfl
@[simp] theorem State.setCtx_handles (s : State) (c : Nat) (x : Ctx) : (s.setCtx c x).handles = s.handles := rfl
@[simp] theorem State.setCtx_nextSer (s : State) (c : Nat) (x : Ctx) : (s.setCtx c x).nextSer = s.nextSer := rfl
@[simp] theorem State.setCtx_launches (s : State) (c : Nat) (x : Ctx) : (s.setCtx c x).launches = s.launches := rfl
@[simp] theorem State.setCtx_nextLaunch (s : State) (c : Nat) (x : Ctx) : (s.setCtx c x).nextLaunch = s.nextLaunch := rfl
@[simp] theorem State.setCtx_units (s : State) (c : Nat) (x : Ctx) : (s.setCtx c x).units = s.units := rfl
@[simp] theorem State.setCtx_nextUnit (s : State) (c : Nat) (x : Ctx) : (s.setCtx c x).nextUnit = s.nextUnit := rfl
@[simp] theorem State.setCtx_nextSet (s : State) (c : Nat) (x : Ctx) : (s.setCtx c x).nextSet = s.nextSet := rfl
@[simp] theorem State.setCtx_chframe (s : State) (c : Nat) (x : Ctx) : (s.setCtx c x).chframe = s.chframe := rfl
@[simp] theorem State.setCtx_chqsel (s : State) (c : Nat) (x : Ctx) : (s.setCtx c x).chqsel = s.chqsel := rfl
@[simp] theorem State.setCtx_quotas (s : State) (c : Nat) (x : Ctx) : (s.setCtx c x).quotas = s.quotas := rfl
@[simp] theorem State.setCtx_inForce (s : State) (c : Nat) (x : Ctx) : (s.setCtx c x).inForce = s.inForce := rfl
@[simp] theorem State.setCtx_spent (s : State) (c : Nat) (x : Ctx) : (s.setCtx c x).spent = s.spent := rfl
@[simp] theorem State.setCtx_frameAt (s : State) (c : Nat) (x : Ctx) : (s.setCtx c x).frameAt = s.frameAt := rfl
@[simp] theorem State.setCtx_nextInj (s : State) (c : Nat) (x : Ctx) : (s.setCtx c x).nextInj = s.nextInj := rfl
@[simp] theorem State.setCtx_served (s : State) (c : Nat) (x : Ctx) : (s.setCtx c x).served = s.served := rfl
@[simp] theorem State.setCtx_eqsel (s : State) (c : Nat) (x : Ctx) : (s.setCtx c x).eqsel = s.eqsel := rfl
@[simp] theorem State.setCtx_eqReady (s : State) (c : Nat) (x : Ctx) : (s.setCtx c x).eqReady = s.eqReady := rfl
@[simp] theorem State.setCtx_ds (s : State) (c : Nat) (x : Ctx) : (s.setCtx c x).ds = s.ds := rfl
@[simp] theorem State.setCtx_power (s : State) (c : Nat) (x : Ctx) : (s.setCtx c x).power = s.power := rfl
@[simp] theorem State.setCtx_snap (s : State) (c : Nat) (x : Ctx) : (s.setCtx c x).snap = s.snap := rfl
@[simp] theorem State.setCtx_ready (s : State) (c : Nat) (x : Ctx) : (s.setCtx c x).ready = s.ready := rfl
@[simp] theorem State.setCtx_domain (s : State) (c : Nat) (x : Ctx) : (s.setCtx c x).domain = s.domain := rfl
@[simp] theorem State.setCtx_links (s : State) (c : Nat) (x : Ctx) : (s.setCtx c x).links = s.links := rfl
@[simp] theorem State.setCtx_linkRing (s : State) (c : Nat) (x : Ctx) : (s.setCtx c x).linkRing = s.linkRing := rfl
@[simp] theorem State.setCtx_turns (s : State) (c : Nat) (x : Ctx) : (s.setCtx c x).turns = s.turns := rfl
@[simp] theorem State.setCtx_posts (s : State) (c : Nat) (x : Ctx) : (s.setCtx c x).posts = s.posts := rfl
@[simp] theorem State.setCtx_downPorts (s : State) (c : Nat) (x : Ctx) : (s.setCtx c x).downPorts = s.downPorts := rfl
@[simp] theorem State.setCtx_lostPeers (s : State) (c : Nat) (x : Ctx) : (s.setCtx c x).lostPeers = s.lostPeers := rfl

@[simp] theorem State.modCtx_agenda (s : State) (c : Nat) (f : Ctx → Ctx) : (s.modCtx c f).agenda = s.agenda := rfl
@[simp] theorem State.modCtx_node (s : State) (c : Nat) (f : Ctx → Ctx) : (s.modCtx c f).node = s.node := rfl
@[simp] theorem State.modCtx_cur (s : State) (c : Nat) (f : Ctx → Ctx) : (s.modCtx c f).cur = s.cur := rfl
@[simp] theorem State.modCtx_curLane (s : State) (c : Nat) (f : Ctx → Ctx) : (s.modCtx c f).curLane = s.curLane := rfl
@[simp] theorem State.modCtx_tick (s : State) (c : Nat) (f : Ctx → Ctx) : (s.modCtx c f).tick = s.tick := rfl
@[simp] theorem State.modCtx_mem (s : State) (c : Nat) (f : Ctx → Ctx) : (s.modCtx c f).mem = s.mem := rfl
@[simp] theorem State.modCtx_lines (s : State) (c : Nat) (f : Ctx → Ctx) : (s.modCtx c f).lines = s.lines := rfl
@[simp] theorem State.modCtx_groups (s : State) (c : Nat) (f : Ctx → Ctx) : (s.modCtx c f).groups = s.groups := rfl
@[simp] theorem State.modCtx_cores (s : State) (c : Nat) (f : Ctx → Ctx) : (s.modCtx c f).cores = s.cores := rfl
@[simp] theorem State.modCtx_dies (s : State) (c : Nat) (f : Ctx → Ctx) : (s.modCtx c f).dies = s.dies := rfl
@[simp] theorem State.modCtx_ctxCores (s : State) (c : Nat) (f : Ctx → Ctx) : (s.modCtx c f).ctxCores = s.ctxCores := rfl
@[simp] theorem State.modCtx_clusters (s : State) (c : Nat) (f : Ctx → Ctx) : (s.modCtx c f).clusters = s.clusters := rfl
@[simp] theorem State.modCtx_ents (s : State) (c : Nat) (f : Ctx → Ctx) : (s.modCtx c f).ents = s.ents := rfl
@[simp] theorem State.modCtx_nextId (s : State) (c : Nat) (f : Ctx → Ctx) : (s.modCtx c f).nextId = s.nextId := rfl
@[simp] theorem State.modCtx_nextUid (s : State) (c : Nat) (f : Ctx → Ctx) : (s.modCtx c f).nextUid = s.nextUid := rfl
@[simp] theorem State.modCtx_copies (s : State) (c : Nat) (f : Ctx → Ctx) : (s.modCtx c f).copies = s.copies := rfl
@[simp] theorem State.modCtx_bver (s : State) (c : Nat) (f : Ctx → Ctx) : (s.modCtx c f).bver = s.bver := rfl
@[simp] theorem State.modCtx_wseq (s : State) (c : Nat) (f : Ctx → Ctx) : (s.modCtx c f).wseq = s.wseq := rfl
@[simp] theorem State.modCtx_floors (s : State) (c : Nat) (f : Ctx → Ctx) : (s.modCtx c f).floors = s.floors := rfl
@[simp] theorem State.modCtx_relLog (s : State) (c : Nat) (f : Ctx → Ctx) : (s.modCtx c f).relLog = s.relLog := rfl
@[simp] theorem State.modCtx_leases (s : State) (c : Nat) (f : Ctx → Ctx) : (s.modCtx c f).leases = s.leases := rfl
@[simp] theorem State.modCtx_handles (s : State) (c : Nat) (f : Ctx → Ctx) : (s.modCtx c f).handles = s.handles := rfl
@[simp] theorem State.modCtx_nextSer (s : State) (c : Nat) (f : Ctx → Ctx) : (s.modCtx c f).nextSer = s.nextSer := rfl
@[simp] theorem State.modCtx_launches (s : State) (c : Nat) (f : Ctx → Ctx) : (s.modCtx c f).launches = s.launches := rfl
@[simp] theorem State.modCtx_nextLaunch (s : State) (c : Nat) (f : Ctx → Ctx) : (s.modCtx c f).nextLaunch = s.nextLaunch := rfl
@[simp] theorem State.modCtx_units (s : State) (c : Nat) (f : Ctx → Ctx) : (s.modCtx c f).units = s.units := rfl
@[simp] theorem State.modCtx_nextUnit (s : State) (c : Nat) (f : Ctx → Ctx) : (s.modCtx c f).nextUnit = s.nextUnit := rfl
@[simp] theorem State.modCtx_nextSet (s : State) (c : Nat) (f : Ctx → Ctx) : (s.modCtx c f).nextSet = s.nextSet := rfl
@[simp] theorem State.modCtx_chframe (s : State) (c : Nat) (f : Ctx → Ctx) : (s.modCtx c f).chframe = s.chframe := rfl
@[simp] theorem State.modCtx_chqsel (s : State) (c : Nat) (f : Ctx → Ctx) : (s.modCtx c f).chqsel = s.chqsel := rfl
@[simp] theorem State.modCtx_quotas (s : State) (c : Nat) (f : Ctx → Ctx) : (s.modCtx c f).quotas = s.quotas := rfl
@[simp] theorem State.modCtx_inForce (s : State) (c : Nat) (f : Ctx → Ctx) : (s.modCtx c f).inForce = s.inForce := rfl
@[simp] theorem State.modCtx_spent (s : State) (c : Nat) (f : Ctx → Ctx) : (s.modCtx c f).spent = s.spent := rfl
@[simp] theorem State.modCtx_frameAt (s : State) (c : Nat) (f : Ctx → Ctx) : (s.modCtx c f).frameAt = s.frameAt := rfl
@[simp] theorem State.modCtx_nextInj (s : State) (c : Nat) (f : Ctx → Ctx) : (s.modCtx c f).nextInj = s.nextInj := rfl
@[simp] theorem State.modCtx_served (s : State) (c : Nat) (f : Ctx → Ctx) : (s.modCtx c f).served = s.served := rfl
@[simp] theorem State.modCtx_eqsel (s : State) (c : Nat) (f : Ctx → Ctx) : (s.modCtx c f).eqsel = s.eqsel := rfl
@[simp] theorem State.modCtx_eqReady (s : State) (c : Nat) (f : Ctx → Ctx) : (s.modCtx c f).eqReady = s.eqReady := rfl
@[simp] theorem State.modCtx_ds (s : State) (c : Nat) (f : Ctx → Ctx) : (s.modCtx c f).ds = s.ds := rfl
@[simp] theorem State.modCtx_power (s : State) (c : Nat) (f : Ctx → Ctx) : (s.modCtx c f).power = s.power := rfl
@[simp] theorem State.modCtx_snap (s : State) (c : Nat) (f : Ctx → Ctx) : (s.modCtx c f).snap = s.snap := rfl
@[simp] theorem State.modCtx_ready (s : State) (c : Nat) (f : Ctx → Ctx) : (s.modCtx c f).ready = s.ready := rfl
@[simp] theorem State.modCtx_domain (s : State) (c : Nat) (f : Ctx → Ctx) : (s.modCtx c f).domain = s.domain := rfl
@[simp] theorem State.modCtx_links (s : State) (c : Nat) (f : Ctx → Ctx) : (s.modCtx c f).links = s.links := rfl
@[simp] theorem State.modCtx_linkRing (s : State) (c : Nat) (f : Ctx → Ctx) : (s.modCtx c f).linkRing = s.linkRing := rfl
@[simp] theorem State.modCtx_turns (s : State) (c : Nat) (f : Ctx → Ctx) : (s.modCtx c f).turns = s.turns := rfl
@[simp] theorem State.modCtx_posts (s : State) (c : Nat) (f : Ctx → Ctx) : (s.modCtx c f).posts = s.posts := rfl
@[simp] theorem State.modCtx_downPorts (s : State) (c : Nat) (f : Ctx → Ctx) : (s.modCtx c f).downPorts = s.downPorts := rfl
@[simp] theorem State.modCtx_lostPeers (s : State) (c : Nat) (f : Ctx → Ctx) : (s.modCtx c f).lostPeers = s.lostPeers := rfl

@[simp] theorem State.setCtxCore_agenda (s : State) (c k : Nat) (x : CtxCore) : (s.setCtxCore c k x).agenda = s.agenda := rfl
@[simp] theorem State.setCtxCore_node (s : State) (c k : Nat) (x : CtxCore) : (s.setCtxCore c k x).node = s.node := rfl
@[simp] theorem State.setCtxCore_cur (s : State) (c k : Nat) (x : CtxCore) : (s.setCtxCore c k x).cur = s.cur := rfl
@[simp] theorem State.setCtxCore_curLane (s : State) (c k : Nat) (x : CtxCore) : (s.setCtxCore c k x).curLane = s.curLane := rfl
@[simp] theorem State.setCtxCore_tick (s : State) (c k : Nat) (x : CtxCore) : (s.setCtxCore c k x).tick = s.tick := rfl
@[simp] theorem State.setCtxCore_mem (s : State) (c k : Nat) (x : CtxCore) : (s.setCtxCore c k x).mem = s.mem := rfl
@[simp] theorem State.setCtxCore_lines (s : State) (c k : Nat) (x : CtxCore) : (s.setCtxCore c k x).lines = s.lines := rfl
@[simp] theorem State.setCtxCore_groups (s : State) (c k : Nat) (x : CtxCore) : (s.setCtxCore c k x).groups = s.groups := rfl
@[simp] theorem State.setCtxCore_cores (s : State) (c k : Nat) (x : CtxCore) : (s.setCtxCore c k x).cores = s.cores := rfl
@[simp] theorem State.setCtxCore_dies (s : State) (c k : Nat) (x : CtxCore) : (s.setCtxCore c k x).dies = s.dies := rfl
@[simp] theorem State.setCtxCore_ctxs (s : State) (c k : Nat) (x : CtxCore) : (s.setCtxCore c k x).ctxs = s.ctxs := rfl
@[simp] theorem State.setCtxCore_clusters (s : State) (c k : Nat) (x : CtxCore) : (s.setCtxCore c k x).clusters = s.clusters := rfl
@[simp] theorem State.setCtxCore_ents (s : State) (c k : Nat) (x : CtxCore) : (s.setCtxCore c k x).ents = s.ents := rfl
@[simp] theorem State.setCtxCore_nextId (s : State) (c k : Nat) (x : CtxCore) : (s.setCtxCore c k x).nextId = s.nextId := rfl
@[simp] theorem State.setCtxCore_nextUid (s : State) (c k : Nat) (x : CtxCore) : (s.setCtxCore c k x).nextUid = s.nextUid := rfl
@[simp] theorem State.setCtxCore_copies (s : State) (c k : Nat) (x : CtxCore) : (s.setCtxCore c k x).copies = s.copies := rfl
@[simp] theorem State.setCtxCore_bver (s : State) (c k : Nat) (x : CtxCore) : (s.setCtxCore c k x).bver = s.bver := rfl
@[simp] theorem State.setCtxCore_wseq (s : State) (c k : Nat) (x : CtxCore) : (s.setCtxCore c k x).wseq = s.wseq := rfl
@[simp] theorem State.setCtxCore_floors (s : State) (c k : Nat) (x : CtxCore) : (s.setCtxCore c k x).floors = s.floors := rfl
@[simp] theorem State.setCtxCore_relLog (s : State) (c k : Nat) (x : CtxCore) : (s.setCtxCore c k x).relLog = s.relLog := rfl
@[simp] theorem State.setCtxCore_leases (s : State) (c k : Nat) (x : CtxCore) : (s.setCtxCore c k x).leases = s.leases := rfl
@[simp] theorem State.setCtxCore_handles (s : State) (c k : Nat) (x : CtxCore) : (s.setCtxCore c k x).handles = s.handles := rfl
@[simp] theorem State.setCtxCore_nextSer (s : State) (c k : Nat) (x : CtxCore) : (s.setCtxCore c k x).nextSer = s.nextSer := rfl
@[simp] theorem State.setCtxCore_launches (s : State) (c k : Nat) (x : CtxCore) : (s.setCtxCore c k x).launches = s.launches := rfl
@[simp] theorem State.setCtxCore_nextLaunch (s : State) (c k : Nat) (x : CtxCore) : (s.setCtxCore c k x).nextLaunch = s.nextLaunch := rfl
@[simp] theorem State.setCtxCore_units (s : State) (c k : Nat) (x : CtxCore) : (s.setCtxCore c k x).units = s.units := rfl
@[simp] theorem State.setCtxCore_nextUnit (s : State) (c k : Nat) (x : CtxCore) : (s.setCtxCore c k x).nextUnit = s.nextUnit := rfl
@[simp] theorem State.setCtxCore_nextSet (s : State) (c k : Nat) (x : CtxCore) : (s.setCtxCore c k x).nextSet = s.nextSet := rfl
@[simp] theorem State.setCtxCore_chframe (s : State) (c k : Nat) (x : CtxCore) : (s.setCtxCore c k x).chframe = s.chframe := rfl
@[simp] theorem State.setCtxCore_chqsel (s : State) (c k : Nat) (x : CtxCore) : (s.setCtxCore c k x).chqsel = s.chqsel := rfl
@[simp] theorem State.setCtxCore_quotas (s : State) (c k : Nat) (x : CtxCore) : (s.setCtxCore c k x).quotas = s.quotas := rfl
@[simp] theorem State.setCtxCore_inForce (s : State) (c k : Nat) (x : CtxCore) : (s.setCtxCore c k x).inForce = s.inForce := rfl
@[simp] theorem State.setCtxCore_spent (s : State) (c k : Nat) (x : CtxCore) : (s.setCtxCore c k x).spent = s.spent := rfl
@[simp] theorem State.setCtxCore_frameAt (s : State) (c k : Nat) (x : CtxCore) : (s.setCtxCore c k x).frameAt = s.frameAt := rfl
@[simp] theorem State.setCtxCore_nextInj (s : State) (c k : Nat) (x : CtxCore) : (s.setCtxCore c k x).nextInj = s.nextInj := rfl
@[simp] theorem State.setCtxCore_served (s : State) (c k : Nat) (x : CtxCore) : (s.setCtxCore c k x).served = s.served := rfl
@[simp] theorem State.setCtxCore_eqsel (s : State) (c k : Nat) (x : CtxCore) : (s.setCtxCore c k x).eqsel = s.eqsel := rfl
@[simp] theorem State.setCtxCore_eqReady (s : State) (c k : Nat) (x : CtxCore) : (s.setCtxCore c k x).eqReady = s.eqReady := rfl
@[simp] theorem State.setCtxCore_ds (s : State) (c k : Nat) (x : CtxCore) : (s.setCtxCore c k x).ds = s.ds := rfl
@[simp] theorem State.setCtxCore_power (s : State) (c k : Nat) (x : CtxCore) : (s.setCtxCore c k x).power = s.power := rfl
@[simp] theorem State.setCtxCore_snap (s : State) (c k : Nat) (x : CtxCore) : (s.setCtxCore c k x).snap = s.snap := rfl
@[simp] theorem State.setCtxCore_ready (s : State) (c k : Nat) (x : CtxCore) : (s.setCtxCore c k x).ready = s.ready := rfl
@[simp] theorem State.setCtxCore_domain (s : State) (c k : Nat) (x : CtxCore) : (s.setCtxCore c k x).domain = s.domain := rfl
@[simp] theorem State.setCtxCore_links (s : State) (c k : Nat) (x : CtxCore) : (s.setCtxCore c k x).links = s.links := rfl
@[simp] theorem State.setCtxCore_linkRing (s : State) (c k : Nat) (x : CtxCore) : (s.setCtxCore c k x).linkRing = s.linkRing := rfl
@[simp] theorem State.setCtxCore_turns (s : State) (c k : Nat) (x : CtxCore) : (s.setCtxCore c k x).turns = s.turns := rfl
@[simp] theorem State.setCtxCore_posts (s : State) (c k : Nat) (x : CtxCore) : (s.setCtxCore c k x).posts = s.posts := rfl
@[simp] theorem State.setCtxCore_downPorts (s : State) (c k : Nat) (x : CtxCore) : (s.setCtxCore c k x).downPorts = s.downPorts := rfl
@[simp] theorem State.setCtxCore_lostPeers (s : State) (c k : Nat) (x : CtxCore) : (s.setCtxCore c k x).lostPeers = s.lostPeers := rfl

@[simp] theorem State.setCluster_agenda (s : State) (c : Nat) (x : Cluster) : (s.setCluster c x).agenda = s.agenda := rfl
@[simp] theorem State.setCluster_node (s : State) (c : Nat) (x : Cluster) : (s.setCluster c x).node = s.node := rfl
@[simp] theorem State.setCluster_cur (s : State) (c : Nat) (x : Cluster) : (s.setCluster c x).cur = s.cur := rfl
@[simp] theorem State.setCluster_curLane (s : State) (c : Nat) (x : Cluster) : (s.setCluster c x).curLane = s.curLane := rfl
@[simp] theorem State.setCluster_tick (s : State) (c : Nat) (x : Cluster) : (s.setCluster c x).tick = s.tick := rfl
@[simp] theorem State.setCluster_mem (s : State) (c : Nat) (x : Cluster) : (s.setCluster c x).mem = s.mem := rfl
@[simp] theorem State.setCluster_lines (s : State) (c : Nat) (x : Cluster) : (s.setCluster c x).lines = s.lines := rfl
@[simp] theorem State.setCluster_groups (s : State) (c : Nat) (x : Cluster) : (s.setCluster c x).groups = s.groups := rfl
@[simp] theorem State.setCluster_cores (s : State) (c : Nat) (x : Cluster) : (s.setCluster c x).cores = s.cores := rfl
@[simp] theorem State.setCluster_dies (s : State) (c : Nat) (x : Cluster) : (s.setCluster c x).dies = s.dies := rfl
@[simp] theorem State.setCluster_ctxs (s : State) (c : Nat) (x : Cluster) : (s.setCluster c x).ctxs = s.ctxs := rfl
@[simp] theorem State.setCluster_ctxCores (s : State) (c : Nat) (x : Cluster) : (s.setCluster c x).ctxCores = s.ctxCores := rfl
@[simp] theorem State.setCluster_ents (s : State) (c : Nat) (x : Cluster) : (s.setCluster c x).ents = s.ents := rfl
@[simp] theorem State.setCluster_nextId (s : State) (c : Nat) (x : Cluster) : (s.setCluster c x).nextId = s.nextId := rfl
@[simp] theorem State.setCluster_nextUid (s : State) (c : Nat) (x : Cluster) : (s.setCluster c x).nextUid = s.nextUid := rfl
@[simp] theorem State.setCluster_copies (s : State) (c : Nat) (x : Cluster) : (s.setCluster c x).copies = s.copies := rfl
@[simp] theorem State.setCluster_bver (s : State) (c : Nat) (x : Cluster) : (s.setCluster c x).bver = s.bver := rfl
@[simp] theorem State.setCluster_wseq (s : State) (c : Nat) (x : Cluster) : (s.setCluster c x).wseq = s.wseq := rfl
@[simp] theorem State.setCluster_floors (s : State) (c : Nat) (x : Cluster) : (s.setCluster c x).floors = s.floors := rfl
@[simp] theorem State.setCluster_relLog (s : State) (c : Nat) (x : Cluster) : (s.setCluster c x).relLog = s.relLog := rfl
@[simp] theorem State.setCluster_leases (s : State) (c : Nat) (x : Cluster) : (s.setCluster c x).leases = s.leases := rfl
@[simp] theorem State.setCluster_handles (s : State) (c : Nat) (x : Cluster) : (s.setCluster c x).handles = s.handles := rfl
@[simp] theorem State.setCluster_nextSer (s : State) (c : Nat) (x : Cluster) : (s.setCluster c x).nextSer = s.nextSer := rfl
@[simp] theorem State.setCluster_launches (s : State) (c : Nat) (x : Cluster) : (s.setCluster c x).launches = s.launches := rfl
@[simp] theorem State.setCluster_nextLaunch (s : State) (c : Nat) (x : Cluster) : (s.setCluster c x).nextLaunch = s.nextLaunch := rfl
@[simp] theorem State.setCluster_units (s : State) (c : Nat) (x : Cluster) : (s.setCluster c x).units = s.units := rfl
@[simp] theorem State.setCluster_nextUnit (s : State) (c : Nat) (x : Cluster) : (s.setCluster c x).nextUnit = s.nextUnit := rfl
@[simp] theorem State.setCluster_nextSet (s : State) (c : Nat) (x : Cluster) : (s.setCluster c x).nextSet = s.nextSet := rfl
@[simp] theorem State.setCluster_chframe (s : State) (c : Nat) (x : Cluster) : (s.setCluster c x).chframe = s.chframe := rfl
@[simp] theorem State.setCluster_chqsel (s : State) (c : Nat) (x : Cluster) : (s.setCluster c x).chqsel = s.chqsel := rfl
@[simp] theorem State.setCluster_quotas (s : State) (c : Nat) (x : Cluster) : (s.setCluster c x).quotas = s.quotas := rfl
@[simp] theorem State.setCluster_inForce (s : State) (c : Nat) (x : Cluster) : (s.setCluster c x).inForce = s.inForce := rfl
@[simp] theorem State.setCluster_spent (s : State) (c : Nat) (x : Cluster) : (s.setCluster c x).spent = s.spent := rfl
@[simp] theorem State.setCluster_frameAt (s : State) (c : Nat) (x : Cluster) : (s.setCluster c x).frameAt = s.frameAt := rfl
@[simp] theorem State.setCluster_nextInj (s : State) (c : Nat) (x : Cluster) : (s.setCluster c x).nextInj = s.nextInj := rfl
@[simp] theorem State.setCluster_served (s : State) (c : Nat) (x : Cluster) : (s.setCluster c x).served = s.served := rfl
@[simp] theorem State.setCluster_eqsel (s : State) (c : Nat) (x : Cluster) : (s.setCluster c x).eqsel = s.eqsel := rfl
@[simp] theorem State.setCluster_eqReady (s : State) (c : Nat) (x : Cluster) : (s.setCluster c x).eqReady = s.eqReady := rfl
@[simp] theorem State.setCluster_ds (s : State) (c : Nat) (x : Cluster) : (s.setCluster c x).ds = s.ds := rfl
@[simp] theorem State.setCluster_power (s : State) (c : Nat) (x : Cluster) : (s.setCluster c x).power = s.power := rfl
@[simp] theorem State.setCluster_snap (s : State) (c : Nat) (x : Cluster) : (s.setCluster c x).snap = s.snap := rfl
@[simp] theorem State.setCluster_ready (s : State) (c : Nat) (x : Cluster) : (s.setCluster c x).ready = s.ready := rfl
@[simp] theorem State.setCluster_domain (s : State) (c : Nat) (x : Cluster) : (s.setCluster c x).domain = s.domain := rfl
@[simp] theorem State.setCluster_links (s : State) (c : Nat) (x : Cluster) : (s.setCluster c x).links = s.links := rfl
@[simp] theorem State.setCluster_linkRing (s : State) (c : Nat) (x : Cluster) : (s.setCluster c x).linkRing = s.linkRing := rfl
@[simp] theorem State.setCluster_turns (s : State) (c : Nat) (x : Cluster) : (s.setCluster c x).turns = s.turns := rfl
@[simp] theorem State.setCluster_posts (s : State) (c : Nat) (x : Cluster) : (s.setCluster c x).posts = s.posts := rfl
@[simp] theorem State.setCluster_downPorts (s : State) (c : Nat) (x : Cluster) : (s.setCluster c x).downPorts = s.downPorts := rfl
@[simp] theorem State.setCluster_lostPeers (s : State) (c : Nat) (x : Cluster) : (s.setCluster c x).lostPeers = s.lostPeers := rfl

@[simp] theorem State.setLine_agenda (s : State) (k : Nat) (x : LineMeta) : (s.setLine k x).agenda = s.agenda := rfl
@[simp] theorem State.setLine_node (s : State) (k : Nat) (x : LineMeta) : (s.setLine k x).node = s.node := rfl
@[simp] theorem State.setLine_cur (s : State) (k : Nat) (x : LineMeta) : (s.setLine k x).cur = s.cur := rfl
@[simp] theorem State.setLine_curLane (s : State) (k : Nat) (x : LineMeta) : (s.setLine k x).curLane = s.curLane := rfl
@[simp] theorem State.setLine_tick (s : State) (k : Nat) (x : LineMeta) : (s.setLine k x).tick = s.tick := rfl
@[simp] theorem State.setLine_mem (s : State) (k : Nat) (x : LineMeta) : (s.setLine k x).mem = s.mem := rfl
@[simp] theorem State.setLine_groups (s : State) (k : Nat) (x : LineMeta) : (s.setLine k x).groups = s.groups := rfl
@[simp] theorem State.setLine_cores (s : State) (k : Nat) (x : LineMeta) : (s.setLine k x).cores = s.cores := rfl
@[simp] theorem State.setLine_dies (s : State) (k : Nat) (x : LineMeta) : (s.setLine k x).dies = s.dies := rfl
@[simp] theorem State.setLine_ctxs (s : State) (k : Nat) (x : LineMeta) : (s.setLine k x).ctxs = s.ctxs := rfl
@[simp] theorem State.setLine_ctxCores (s : State) (k : Nat) (x : LineMeta) : (s.setLine k x).ctxCores = s.ctxCores := rfl
@[simp] theorem State.setLine_clusters (s : State) (k : Nat) (x : LineMeta) : (s.setLine k x).clusters = s.clusters := rfl
@[simp] theorem State.setLine_ents (s : State) (k : Nat) (x : LineMeta) : (s.setLine k x).ents = s.ents := rfl
@[simp] theorem State.setLine_nextId (s : State) (k : Nat) (x : LineMeta) : (s.setLine k x).nextId = s.nextId := rfl
@[simp] theorem State.setLine_nextUid (s : State) (k : Nat) (x : LineMeta) : (s.setLine k x).nextUid = s.nextUid := rfl
@[simp] theorem State.setLine_copies (s : State) (k : Nat) (x : LineMeta) : (s.setLine k x).copies = s.copies := rfl
@[simp] theorem State.setLine_bver (s : State) (k : Nat) (x : LineMeta) : (s.setLine k x).bver = s.bver := rfl
@[simp] theorem State.setLine_wseq (s : State) (k : Nat) (x : LineMeta) : (s.setLine k x).wseq = s.wseq := rfl
@[simp] theorem State.setLine_floors (s : State) (k : Nat) (x : LineMeta) : (s.setLine k x).floors = s.floors := rfl
@[simp] theorem State.setLine_relLog (s : State) (k : Nat) (x : LineMeta) : (s.setLine k x).relLog = s.relLog := rfl
@[simp] theorem State.setLine_leases (s : State) (k : Nat) (x : LineMeta) : (s.setLine k x).leases = s.leases := rfl
@[simp] theorem State.setLine_handles (s : State) (k : Nat) (x : LineMeta) : (s.setLine k x).handles = s.handles := rfl
@[simp] theorem State.setLine_nextSer (s : State) (k : Nat) (x : LineMeta) : (s.setLine k x).nextSer = s.nextSer := rfl
@[simp] theorem State.setLine_launches (s : State) (k : Nat) (x : LineMeta) : (s.setLine k x).launches = s.launches := rfl
@[simp] theorem State.setLine_nextLaunch (s : State) (k : Nat) (x : LineMeta) : (s.setLine k x).nextLaunch = s.nextLaunch := rfl
@[simp] theorem State.setLine_units (s : State) (k : Nat) (x : LineMeta) : (s.setLine k x).units = s.units := rfl
@[simp] theorem State.setLine_nextUnit (s : State) (k : Nat) (x : LineMeta) : (s.setLine k x).nextUnit = s.nextUnit := rfl
@[simp] theorem State.setLine_nextSet (s : State) (k : Nat) (x : LineMeta) : (s.setLine k x).nextSet = s.nextSet := rfl
@[simp] theorem State.setLine_chframe (s : State) (k : Nat) (x : LineMeta) : (s.setLine k x).chframe = s.chframe := rfl
@[simp] theorem State.setLine_chqsel (s : State) (k : Nat) (x : LineMeta) : (s.setLine k x).chqsel = s.chqsel := rfl
@[simp] theorem State.setLine_quotas (s : State) (k : Nat) (x : LineMeta) : (s.setLine k x).quotas = s.quotas := rfl
@[simp] theorem State.setLine_inForce (s : State) (k : Nat) (x : LineMeta) : (s.setLine k x).inForce = s.inForce := rfl
@[simp] theorem State.setLine_spent (s : State) (k : Nat) (x : LineMeta) : (s.setLine k x).spent = s.spent := rfl
@[simp] theorem State.setLine_frameAt (s : State) (k : Nat) (x : LineMeta) : (s.setLine k x).frameAt = s.frameAt := rfl
@[simp] theorem State.setLine_nextInj (s : State) (k : Nat) (x : LineMeta) : (s.setLine k x).nextInj = s.nextInj := rfl
@[simp] theorem State.setLine_served (s : State) (k : Nat) (x : LineMeta) : (s.setLine k x).served = s.served := rfl
@[simp] theorem State.setLine_eqsel (s : State) (k : Nat) (x : LineMeta) : (s.setLine k x).eqsel = s.eqsel := rfl
@[simp] theorem State.setLine_eqReady (s : State) (k : Nat) (x : LineMeta) : (s.setLine k x).eqReady = s.eqReady := rfl
@[simp] theorem State.setLine_ds (s : State) (k : Nat) (x : LineMeta) : (s.setLine k x).ds = s.ds := rfl
@[simp] theorem State.setLine_power (s : State) (k : Nat) (x : LineMeta) : (s.setLine k x).power = s.power := rfl
@[simp] theorem State.setLine_snap (s : State) (k : Nat) (x : LineMeta) : (s.setLine k x).snap = s.snap := rfl
@[simp] theorem State.setLine_ready (s : State) (k : Nat) (x : LineMeta) : (s.setLine k x).ready = s.ready := rfl
@[simp] theorem State.setLine_domain (s : State) (k : Nat) (x : LineMeta) : (s.setLine k x).domain = s.domain := rfl
@[simp] theorem State.setLine_links (s : State) (k : Nat) (x : LineMeta) : (s.setLine k x).links = s.links := rfl
@[simp] theorem State.setLine_linkRing (s : State) (k : Nat) (x : LineMeta) : (s.setLine k x).linkRing = s.linkRing := rfl
@[simp] theorem State.setLine_turns (s : State) (k : Nat) (x : LineMeta) : (s.setLine k x).turns = s.turns := rfl
@[simp] theorem State.setLine_posts (s : State) (k : Nat) (x : LineMeta) : (s.setLine k x).posts = s.posts := rfl
@[simp] theorem State.setLine_downPorts (s : State) (k : Nat) (x : LineMeta) : (s.setLine k x).downPorts = s.downPorts := rfl
@[simp] theorem State.setLine_lostPeers (s : State) (k : Nat) (x : LineMeta) : (s.setLine k x).lostPeers = s.lostPeers := rfl

@[simp] theorem State.setLink_agenda (s : State) (k : Nat) (x : Link) : (s.setLink k x).agenda = s.agenda := rfl
@[simp] theorem State.setLink_node (s : State) (k : Nat) (x : Link) : (s.setLink k x).node = s.node := rfl
@[simp] theorem State.setLink_cur (s : State) (k : Nat) (x : Link) : (s.setLink k x).cur = s.cur := rfl
@[simp] theorem State.setLink_curLane (s : State) (k : Nat) (x : Link) : (s.setLink k x).curLane = s.curLane := rfl
@[simp] theorem State.setLink_tick (s : State) (k : Nat) (x : Link) : (s.setLink k x).tick = s.tick := rfl
@[simp] theorem State.setLink_mem (s : State) (k : Nat) (x : Link) : (s.setLink k x).mem = s.mem := rfl
@[simp] theorem State.setLink_lines (s : State) (k : Nat) (x : Link) : (s.setLink k x).lines = s.lines := rfl
@[simp] theorem State.setLink_groups (s : State) (k : Nat) (x : Link) : (s.setLink k x).groups = s.groups := rfl
@[simp] theorem State.setLink_cores (s : State) (k : Nat) (x : Link) : (s.setLink k x).cores = s.cores := rfl
@[simp] theorem State.setLink_dies (s : State) (k : Nat) (x : Link) : (s.setLink k x).dies = s.dies := rfl
@[simp] theorem State.setLink_ctxs (s : State) (k : Nat) (x : Link) : (s.setLink k x).ctxs = s.ctxs := rfl
@[simp] theorem State.setLink_ctxCores (s : State) (k : Nat) (x : Link) : (s.setLink k x).ctxCores = s.ctxCores := rfl
@[simp] theorem State.setLink_clusters (s : State) (k : Nat) (x : Link) : (s.setLink k x).clusters = s.clusters := rfl
@[simp] theorem State.setLink_ents (s : State) (k : Nat) (x : Link) : (s.setLink k x).ents = s.ents := rfl
@[simp] theorem State.setLink_nextId (s : State) (k : Nat) (x : Link) : (s.setLink k x).nextId = s.nextId := rfl
@[simp] theorem State.setLink_nextUid (s : State) (k : Nat) (x : Link) : (s.setLink k x).nextUid = s.nextUid := rfl
@[simp] theorem State.setLink_copies (s : State) (k : Nat) (x : Link) : (s.setLink k x).copies = s.copies := rfl
@[simp] theorem State.setLink_bver (s : State) (k : Nat) (x : Link) : (s.setLink k x).bver = s.bver := rfl
@[simp] theorem State.setLink_wseq (s : State) (k : Nat) (x : Link) : (s.setLink k x).wseq = s.wseq := rfl
@[simp] theorem State.setLink_floors (s : State) (k : Nat) (x : Link) : (s.setLink k x).floors = s.floors := rfl
@[simp] theorem State.setLink_relLog (s : State) (k : Nat) (x : Link) : (s.setLink k x).relLog = s.relLog := rfl
@[simp] theorem State.setLink_leases (s : State) (k : Nat) (x : Link) : (s.setLink k x).leases = s.leases := rfl
@[simp] theorem State.setLink_handles (s : State) (k : Nat) (x : Link) : (s.setLink k x).handles = s.handles := rfl
@[simp] theorem State.setLink_nextSer (s : State) (k : Nat) (x : Link) : (s.setLink k x).nextSer = s.nextSer := rfl
@[simp] theorem State.setLink_launches (s : State) (k : Nat) (x : Link) : (s.setLink k x).launches = s.launches := rfl
@[simp] theorem State.setLink_nextLaunch (s : State) (k : Nat) (x : Link) : (s.setLink k x).nextLaunch = s.nextLaunch := rfl
@[simp] theorem State.setLink_units (s : State) (k : Nat) (x : Link) : (s.setLink k x).units = s.units := rfl
@[simp] theorem State.setLink_nextUnit (s : State) (k : Nat) (x : Link) : (s.setLink k x).nextUnit = s.nextUnit := rfl
@[simp] theorem State.setLink_nextSet (s : State) (k : Nat) (x : Link) : (s.setLink k x).nextSet = s.nextSet := rfl
@[simp] theorem State.setLink_chframe (s : State) (k : Nat) (x : Link) : (s.setLink k x).chframe = s.chframe := rfl
@[simp] theorem State.setLink_chqsel (s : State) (k : Nat) (x : Link) : (s.setLink k x).chqsel = s.chqsel := rfl
@[simp] theorem State.setLink_quotas (s : State) (k : Nat) (x : Link) : (s.setLink k x).quotas = s.quotas := rfl
@[simp] theorem State.setLink_inForce (s : State) (k : Nat) (x : Link) : (s.setLink k x).inForce = s.inForce := rfl
@[simp] theorem State.setLink_spent (s : State) (k : Nat) (x : Link) : (s.setLink k x).spent = s.spent := rfl
@[simp] theorem State.setLink_frameAt (s : State) (k : Nat) (x : Link) : (s.setLink k x).frameAt = s.frameAt := rfl
@[simp] theorem State.setLink_nextInj (s : State) (k : Nat) (x : Link) : (s.setLink k x).nextInj = s.nextInj := rfl
@[simp] theorem State.setLink_served (s : State) (k : Nat) (x : Link) : (s.setLink k x).served = s.served := rfl
@[simp] theorem State.setLink_eqsel (s : State) (k : Nat) (x : Link) : (s.setLink k x).eqsel = s.eqsel := rfl
@[simp] theorem State.setLink_eqReady (s : State) (k : Nat) (x : Link) : (s.setLink k x).eqReady = s.eqReady := rfl
@[simp] theorem State.setLink_ds (s : State) (k : Nat) (x : Link) : (s.setLink k x).ds = s.ds := rfl
@[simp] theorem State.setLink_power (s : State) (k : Nat) (x : Link) : (s.setLink k x).power = s.power := rfl
@[simp] theorem State.setLink_snap (s : State) (k : Nat) (x : Link) : (s.setLink k x).snap = s.snap := rfl
@[simp] theorem State.setLink_ready (s : State) (k : Nat) (x : Link) : (s.setLink k x).ready = s.ready := rfl
@[simp] theorem State.setLink_domain (s : State) (k : Nat) (x : Link) : (s.setLink k x).domain = s.domain := rfl
@[simp] theorem State.setLink_linkRing (s : State) (k : Nat) (x : Link) : (s.setLink k x).linkRing = s.linkRing := rfl
@[simp] theorem State.setLink_turns (s : State) (k : Nat) (x : Link) : (s.setLink k x).turns = s.turns := rfl
@[simp] theorem State.setLink_posts (s : State) (k : Nat) (x : Link) : (s.setLink k x).posts = s.posts := rfl
@[simp] theorem State.setLink_downPorts (s : State) (k : Nat) (x : Link) : (s.setLink k x).downPorts = s.downPorts := rfl
@[simp] theorem State.setLink_lostPeers (s : State) (k : Nat) (x : Link) : (s.setLink k x).lostPeers = s.lostPeers := rfl

@[simp] theorem Group.setSplit_live (g : Group) (n : Nat) (sp : Split) : (g.setSplit n sp).live = g.live := rfl
@[simp] theorem Group.setSplit_ctx (g : Group) (n : Nat) (sp : Split) : (g.setSplit n sp).ctx = g.ctx := rfl
@[simp] theorem Group.setSplit_launch (g : Group) (n : Nat) (sp : Split) : (g.setSplit n sp).launch = g.launch := rfl
@[simp] theorem Group.setSplit_unit (g : Group) (n : Nat) (sp : Split) : (g.setSplit n sp).unit = g.unit := rfl
@[simp] theorem Group.setSplit_num (g : Group) (n : Nat) (sp : Split) : (g.setSplit n sp).num = g.num := rfl
@[simp] theorem Group.setSplit_x (g : Group) (n : Nat) (sp : Split) : (g.setSplit n sp).x = g.x := rfl
@[simp] theorem Group.setSplit_y (g : Group) (n : Nat) (sp : Split) : (g.setSplit n sp).y = g.y := rfl
@[simp] theorem Group.setSplit_z (g : Group) (n : Nat) (sp : Split) : (g.setSplit n sp).z = g.z := rfl
@[simp] theorem Group.setSplit_csIdx (g : Group) (n : Nat) (sp : Split) : (g.setSplit n sp).csIdx = g.csIdx := rfl
@[simp] theorem Group.setSplit_cls (g : Group) (n : Nat) (sp : Split) : (g.setSplit n sp).cls = g.cls := rfl
@[simp] theorem Group.setSplit_ecap (g : Group) (n : Nat) (sp : Split) : (g.setSplit n sp).ecap = g.ecap := rfl
@[simp] theorem Group.setSplit_idem (g : Group) (n : Nat) (sp : Split) : (g.setSplit n sp).idem = g.idem := rfl
@[simp] theorem Group.setSplit_sysp (g : Group) (n : Nat) (sp : Split) : (g.setSplit n sp).sysp = g.sysp := rfl
@[simp] theorem Group.setSplit_sbase (g : Group) (n : Nat) (sp : Split) : (g.setSplit n sp).sbase = g.sbase := rfl
@[simp] theorem Group.setSplit_lbase (g : Group) (n : Nat) (sp : Split) : (g.setSplit n sp).lbase = g.lbase := rfl
@[simp] theorem Group.setSplit_ctxb (g : Group) (n : Nat) (sp : Split) : (g.setSplit n sp).ctxb = g.ctxb := rfl
@[simp] theorem Group.setSplit_slots (g : Group) (n : Nat) (sp : Split) : (g.setSplit n sp).slots = g.slots := rfl
@[simp] theorem Group.setSplit_g (g : Group) (n : Nat) (sp : Split) : (g.setSplit n sp).g = g.g := rfl
@[simp] theorem Group.setSplit_v (g : Group) (n : Nat) (sp : Split) : (g.setSplit n sp).v = g.v := rfl
@[simp] theorem Group.setSplit_p (g : Group) (n : Nat) (sp : Split) : (g.setSplit n sp).p = g.p := rfl
@[simp] theorem Group.setSplit_tm (g : Group) (n : Nat) (sp : Split) : (g.setSplit n sp).tm = g.tm := rfl
@[simp] theorem Group.setSplit_udiv (g : Group) (n : Nat) (sp : Split) : (g.setSplit n sp).udiv = g.udiv := rfl
@[simp] theorem Group.setSplit_accov (g : Group) (n : Nat) (sp : Split) : (g.setSplit n sp).accov = g.accov := rfl
@[simp] theorem Group.setSplit_uaff (g : Group) (n : Nat) (sp : Split) : (g.setSplit n sp).uaff = g.uaff := rfl
@[simp] theorem Group.setSplit_ureg (g : Group) (n : Nat) (sp : Split) : (g.setSplit n sp).ureg = g.ureg := rfl
@[simp] theorem Group.setSplit_erc (g : Group) (n : Nat) (sp : Split) : (g.setSplit n sp).erc = g.erc := rfl
@[simp] theorem Group.setSplit_mls0 (g : Group) (n : Nat) (sp : Split) : (g.setSplit n sp).mls0 = g.mls0 := rfl
@[simp] theorem Group.setSplit_mls1 (g : Group) (n : Nat) (sp : Split) : (g.setSplit n sp).mls1 = g.mls1 := rfl
@[simp] theorem Group.setSplit_mls2 (g : Group) (n : Nat) (sp : Split) : (g.setSplit n sp).mls2 = g.mls2 := rfl
@[simp] theorem Group.setSplit_mls3 (g : Group) (n : Nat) (sp : Split) : (g.setSplit n sp).mls3 = g.mls3 := rfl
@[simp] theorem Group.setSplit_seqr (g : Group) (n : Nat) (sp : Split) : (g.setSplit n sp).seqr = g.seqr := rfl
@[simp] theorem Group.setSplit_frec (g : Group) (n : Nat) (sp : Split) : (g.setSplit n sp).frec = g.frec := rfl
@[simp] theorem Group.setSplit_mark (g : Group) (n : Nat) (sp : Split) : (g.setSplit n sp).mark = g.mark := rfl
@[simp] theorem Group.setSplit_tag (g : Group) (n : Nat) (sp : Split) : (g.setSplit n sp).tag = g.tag := rfl
@[simp] theorem Group.setSplit_arr (g : Group) (n : Nat) (sp : Split) : (g.setSplit n sp).arr = g.arr := rfl
@[simp] theorem Group.setSplit_rounds (g : Group) (n : Nat) (sp : Split) : (g.setSplit n sp).rounds = g.rounds := rfl
@[simp] theorem Group.setSplit_enq (g : Group) (n : Nat) (sp : Split) : (g.setSplit n sp).enq = g.enq := rfl
@[simp] theorem Group.setSplit_brvNext (g : Group) (n : Nat) (sp : Split) : (g.setSplit n sp).brvNext = g.brvNext := rfl

@[simp] theorem Group.setV_live (g : Group) (n l : Nat) (x : Word) : (g.setV n l x).live = g.live := rfl
@[simp] theorem Group.setV_ctx (g : Group) (n l : Nat) (x : Word) : (g.setV n l x).ctx = g.ctx := rfl
@[simp] theorem Group.setV_launch (g : Group) (n l : Nat) (x : Word) : (g.setV n l x).launch = g.launch := rfl
@[simp] theorem Group.setV_unit (g : Group) (n l : Nat) (x : Word) : (g.setV n l x).unit = g.unit := rfl
@[simp] theorem Group.setV_num (g : Group) (n l : Nat) (x : Word) : (g.setV n l x).num = g.num := rfl
@[simp] theorem Group.setV_x (g : Group) (n l : Nat) (x : Word) : (g.setV n l x).x = g.x := rfl
@[simp] theorem Group.setV_y (g : Group) (n l : Nat) (x : Word) : (g.setV n l x).y = g.y := rfl
@[simp] theorem Group.setV_z (g : Group) (n l : Nat) (x : Word) : (g.setV n l x).z = g.z := rfl
@[simp] theorem Group.setV_csIdx (g : Group) (n l : Nat) (x : Word) : (g.setV n l x).csIdx = g.csIdx := rfl
@[simp] theorem Group.setV_cls (g : Group) (n l : Nat) (x : Word) : (g.setV n l x).cls = g.cls := rfl
@[simp] theorem Group.setV_ecap (g : Group) (n l : Nat) (x : Word) : (g.setV n l x).ecap = g.ecap := rfl
@[simp] theorem Group.setV_idem (g : Group) (n l : Nat) (x : Word) : (g.setV n l x).idem = g.idem := rfl
@[simp] theorem Group.setV_sysp (g : Group) (n l : Nat) (x : Word) : (g.setV n l x).sysp = g.sysp := rfl
@[simp] theorem Group.setV_sbase (g : Group) (n l : Nat) (x : Word) : (g.setV n l x).sbase = g.sbase := rfl
@[simp] theorem Group.setV_lbase (g : Group) (n l : Nat) (x : Word) : (g.setV n l x).lbase = g.lbase := rfl
@[simp] theorem Group.setV_ctxb (g : Group) (n l : Nat) (x : Word) : (g.setV n l x).ctxb = g.ctxb := rfl
@[simp] theorem Group.setV_slots (g : Group) (n l : Nat) (x : Word) : (g.setV n l x).slots = g.slots := rfl
@[simp] theorem Group.setV_g (g : Group) (n l : Nat) (x : Word) : (g.setV n l x).g = g.g := rfl
@[simp] theorem Group.setV_p (g : Group) (n l : Nat) (x : Word) : (g.setV n l x).p = g.p := rfl
@[simp] theorem Group.setV_tm (g : Group) (n l : Nat) (x : Word) : (g.setV n l x).tm = g.tm := rfl
@[simp] theorem Group.setV_udiv (g : Group) (n l : Nat) (x : Word) : (g.setV n l x).udiv = g.udiv := rfl
@[simp] theorem Group.setV_accov (g : Group) (n l : Nat) (x : Word) : (g.setV n l x).accov = g.accov := rfl
@[simp] theorem Group.setV_uaff (g : Group) (n l : Nat) (x : Word) : (g.setV n l x).uaff = g.uaff := rfl
@[simp] theorem Group.setV_ureg (g : Group) (n l : Nat) (x : Word) : (g.setV n l x).ureg = g.ureg := rfl
@[simp] theorem Group.setV_erc (g : Group) (n l : Nat) (x : Word) : (g.setV n l x).erc = g.erc := rfl
@[simp] theorem Group.setV_mls0 (g : Group) (n l : Nat) (x : Word) : (g.setV n l x).mls0 = g.mls0 := rfl
@[simp] theorem Group.setV_mls1 (g : Group) (n l : Nat) (x : Word) : (g.setV n l x).mls1 = g.mls1 := rfl
@[simp] theorem Group.setV_mls2 (g : Group) (n l : Nat) (x : Word) : (g.setV n l x).mls2 = g.mls2 := rfl
@[simp] theorem Group.setV_mls3 (g : Group) (n l : Nat) (x : Word) : (g.setV n l x).mls3 = g.mls3 := rfl
@[simp] theorem Group.setV_seqr (g : Group) (n l : Nat) (x : Word) : (g.setV n l x).seqr = g.seqr := rfl
@[simp] theorem Group.setV_frec (g : Group) (n l : Nat) (x : Word) : (g.setV n l x).frec = g.frec := rfl
@[simp] theorem Group.setV_mark (g : Group) (n l : Nat) (x : Word) : (g.setV n l x).mark = g.mark := rfl
@[simp] theorem Group.setV_tag (g : Group) (n l : Nat) (x : Word) : (g.setV n l x).tag = g.tag := rfl
@[simp] theorem Group.setV_arr (g : Group) (n l : Nat) (x : Word) : (g.setV n l x).arr = g.arr := rfl
@[simp] theorem Group.setV_rounds (g : Group) (n l : Nat) (x : Word) : (g.setV n l x).rounds = g.rounds := rfl
@[simp] theorem Group.setV_enq (g : Group) (n l : Nat) (x : Word) : (g.setV n l x).enq = g.enq := rfl
@[simp] theorem Group.setV_brvNext (g : Group) (n l : Nat) (x : Word) : (g.setV n l x).brvNext = g.brvNext := rfl
@[simp] theorem Group.setV_splits (g : Group) (n l : Nat) (x : Word) : (g.setV n l x).splits = g.splits := rfl

@[simp] theorem Group.setTm_live (g : Group) (n : Nat) (x : DWord) : (g.setTm n x).live = g.live := rfl
@[simp] theorem Group.setTm_ctx (g : Group) (n : Nat) (x : DWord) : (g.setTm n x).ctx = g.ctx := rfl
@[simp] theorem Group.setTm_launch (g : Group) (n : Nat) (x : DWord) : (g.setTm n x).launch = g.launch := rfl
@[simp] theorem Group.setTm_unit (g : Group) (n : Nat) (x : DWord) : (g.setTm n x).unit = g.unit := rfl
@[simp] theorem Group.setTm_num (g : Group) (n : Nat) (x : DWord) : (g.setTm n x).num = g.num := rfl
@[simp] theorem Group.setTm_x (g : Group) (n : Nat) (x : DWord) : (g.setTm n x).x = g.x := rfl
@[simp] theorem Group.setTm_y (g : Group) (n : Nat) (x : DWord) : (g.setTm n x).y = g.y := rfl
@[simp] theorem Group.setTm_z (g : Group) (n : Nat) (x : DWord) : (g.setTm n x).z = g.z := rfl
@[simp] theorem Group.setTm_csIdx (g : Group) (n : Nat) (x : DWord) : (g.setTm n x).csIdx = g.csIdx := rfl
@[simp] theorem Group.setTm_cls (g : Group) (n : Nat) (x : DWord) : (g.setTm n x).cls = g.cls := rfl
@[simp] theorem Group.setTm_ecap (g : Group) (n : Nat) (x : DWord) : (g.setTm n x).ecap = g.ecap := rfl
@[simp] theorem Group.setTm_idem (g : Group) (n : Nat) (x : DWord) : (g.setTm n x).idem = g.idem := rfl
@[simp] theorem Group.setTm_sysp (g : Group) (n : Nat) (x : DWord) : (g.setTm n x).sysp = g.sysp := rfl
@[simp] theorem Group.setTm_sbase (g : Group) (n : Nat) (x : DWord) : (g.setTm n x).sbase = g.sbase := rfl
@[simp] theorem Group.setTm_lbase (g : Group) (n : Nat) (x : DWord) : (g.setTm n x).lbase = g.lbase := rfl
@[simp] theorem Group.setTm_ctxb (g : Group) (n : Nat) (x : DWord) : (g.setTm n x).ctxb = g.ctxb := rfl
@[simp] theorem Group.setTm_slots (g : Group) (n : Nat) (x : DWord) : (g.setTm n x).slots = g.slots := rfl
@[simp] theorem Group.setTm_g (g : Group) (n : Nat) (x : DWord) : (g.setTm n x).g = g.g := rfl
@[simp] theorem Group.setTm_v (g : Group) (n : Nat) (x : DWord) : (g.setTm n x).v = g.v := rfl
@[simp] theorem Group.setTm_p (g : Group) (n : Nat) (x : DWord) : (g.setTm n x).p = g.p := rfl
@[simp] theorem Group.setTm_udiv (g : Group) (n : Nat) (x : DWord) : (g.setTm n x).udiv = g.udiv := rfl
@[simp] theorem Group.setTm_accov (g : Group) (n : Nat) (x : DWord) : (g.setTm n x).accov = g.accov := rfl
@[simp] theorem Group.setTm_uaff (g : Group) (n : Nat) (x : DWord) : (g.setTm n x).uaff = g.uaff := rfl
@[simp] theorem Group.setTm_ureg (g : Group) (n : Nat) (x : DWord) : (g.setTm n x).ureg = g.ureg := rfl
@[simp] theorem Group.setTm_erc (g : Group) (n : Nat) (x : DWord) : (g.setTm n x).erc = g.erc := rfl
@[simp] theorem Group.setTm_mls0 (g : Group) (n : Nat) (x : DWord) : (g.setTm n x).mls0 = g.mls0 := rfl
@[simp] theorem Group.setTm_mls1 (g : Group) (n : Nat) (x : DWord) : (g.setTm n x).mls1 = g.mls1 := rfl
@[simp] theorem Group.setTm_mls2 (g : Group) (n : Nat) (x : DWord) : (g.setTm n x).mls2 = g.mls2 := rfl
@[simp] theorem Group.setTm_mls3 (g : Group) (n : Nat) (x : DWord) : (g.setTm n x).mls3 = g.mls3 := rfl
@[simp] theorem Group.setTm_seqr (g : Group) (n : Nat) (x : DWord) : (g.setTm n x).seqr = g.seqr := rfl
@[simp] theorem Group.setTm_frec (g : Group) (n : Nat) (x : DWord) : (g.setTm n x).frec = g.frec := rfl
@[simp] theorem Group.setTm_mark (g : Group) (n : Nat) (x : DWord) : (g.setTm n x).mark = g.mark := rfl
@[simp] theorem Group.setTm_tag (g : Group) (n : Nat) (x : DWord) : (g.setTm n x).tag = g.tag := rfl
@[simp] theorem Group.setTm_arr (g : Group) (n : Nat) (x : DWord) : (g.setTm n x).arr = g.arr := rfl
@[simp] theorem Group.setTm_rounds (g : Group) (n : Nat) (x : DWord) : (g.setTm n x).rounds = g.rounds := rfl
@[simp] theorem Group.setTm_enq (g : Group) (n : Nat) (x : DWord) : (g.setTm n x).enq = g.enq := rfl
@[simp] theorem Group.setTm_brvNext (g : Group) (n : Nat) (x : DWord) : (g.setTm n x).brvNext = g.brvNext := rfl
@[simp] theorem Group.setTm_splits (g : Group) (n : Nat) (x : DWord) : (g.setTm n x).splits = g.splits := rfl

@[simp] theorem Group.setP_live (g : Group) (n : Nat) (m : Mask) : (g.setP n m).live = g.live := by unfold Group.setP; split_ifs <;> rfl
@[simp] theorem Group.setP_ctx (g : Group) (n : Nat) (m : Mask) : (g.setP n m).ctx = g.ctx := by unfold Group.setP; split_ifs <;> rfl
@[simp] theorem Group.setP_launch (g : Group) (n : Nat) (m : Mask) : (g.setP n m).launch = g.launch := by unfold Group.setP; split_ifs <;> rfl
@[simp] theorem Group.setP_unit (g : Group) (n : Nat) (m : Mask) : (g.setP n m).unit = g.unit := by unfold Group.setP; split_ifs <;> rfl
@[simp] theorem Group.setP_num (g : Group) (n : Nat) (m : Mask) : (g.setP n m).num = g.num := by unfold Group.setP; split_ifs <;> rfl
@[simp] theorem Group.setP_x (g : Group) (n : Nat) (m : Mask) : (g.setP n m).x = g.x := by unfold Group.setP; split_ifs <;> rfl
@[simp] theorem Group.setP_y (g : Group) (n : Nat) (m : Mask) : (g.setP n m).y = g.y := by unfold Group.setP; split_ifs <;> rfl
@[simp] theorem Group.setP_z (g : Group) (n : Nat) (m : Mask) : (g.setP n m).z = g.z := by unfold Group.setP; split_ifs <;> rfl
@[simp] theorem Group.setP_csIdx (g : Group) (n : Nat) (m : Mask) : (g.setP n m).csIdx = g.csIdx := by unfold Group.setP; split_ifs <;> rfl
@[simp] theorem Group.setP_cls (g : Group) (n : Nat) (m : Mask) : (g.setP n m).cls = g.cls := by unfold Group.setP; split_ifs <;> rfl
@[simp] theorem Group.setP_ecap (g : Group) (n : Nat) (m : Mask) : (g.setP n m).ecap = g.ecap := by unfold Group.setP; split_ifs <;> rfl
@[simp] theorem Group.setP_idem (g : Group) (n : Nat) (m : Mask) : (g.setP n m).idem = g.idem := by unfold Group.setP; split_ifs <;> rfl
@[simp] theorem Group.setP_sysp (g : Group) (n : Nat) (m : Mask) : (g.setP n m).sysp = g.sysp := by unfold Group.setP; split_ifs <;> rfl
@[simp] theorem Group.setP_sbase (g : Group) (n : Nat) (m : Mask) : (g.setP n m).sbase = g.sbase := by unfold Group.setP; split_ifs <;> rfl
@[simp] theorem Group.setP_lbase (g : Group) (n : Nat) (m : Mask) : (g.setP n m).lbase = g.lbase := by unfold Group.setP; split_ifs <;> rfl
@[simp] theorem Group.setP_ctxb (g : Group) (n : Nat) (m : Mask) : (g.setP n m).ctxb = g.ctxb := by unfold Group.setP; split_ifs <;> rfl
@[simp] theorem Group.setP_slots (g : Group) (n : Nat) (m : Mask) : (g.setP n m).slots = g.slots := by unfold Group.setP; split_ifs <;> rfl
@[simp] theorem Group.setP_g (g : Group) (n : Nat) (m : Mask) : (g.setP n m).g = g.g := by unfold Group.setP; split_ifs <;> rfl
@[simp] theorem Group.setP_v (g : Group) (n : Nat) (m : Mask) : (g.setP n m).v = g.v := by unfold Group.setP; split_ifs <;> rfl
@[simp] theorem Group.setP_tm (g : Group) (n : Nat) (m : Mask) : (g.setP n m).tm = g.tm := by unfold Group.setP; split_ifs <;> rfl
@[simp] theorem Group.setP_udiv (g : Group) (n : Nat) (m : Mask) : (g.setP n m).udiv = g.udiv := by unfold Group.setP; split_ifs <;> rfl
@[simp] theorem Group.setP_accov (g : Group) (n : Nat) (m : Mask) : (g.setP n m).accov = g.accov := by unfold Group.setP; split_ifs <;> rfl
@[simp] theorem Group.setP_uaff (g : Group) (n : Nat) (m : Mask) : (g.setP n m).uaff = g.uaff := by unfold Group.setP; split_ifs <;> rfl
@[simp] theorem Group.setP_ureg (g : Group) (n : Nat) (m : Mask) : (g.setP n m).ureg = g.ureg := by unfold Group.setP; split_ifs <;> rfl
@[simp] theorem Group.setP_erc (g : Group) (n : Nat) (m : Mask) : (g.setP n m).erc = g.erc := by unfold Group.setP; split_ifs <;> rfl
@[simp] theorem Group.setP_mls0 (g : Group) (n : Nat) (m : Mask) : (g.setP n m).mls0 = g.mls0 := by unfold Group.setP; split_ifs <;> rfl
@[simp] theorem Group.setP_mls1 (g : Group) (n : Nat) (m : Mask) : (g.setP n m).mls1 = g.mls1 := by unfold Group.setP; split_ifs <;> rfl
@[simp] theorem Group.setP_mls2 (g : Group) (n : Nat) (m : Mask) : (g.setP n m).mls2 = g.mls2 := by unfold Group.setP; split_ifs <;> rfl
@[simp] theorem Group.setP_mls3 (g : Group) (n : Nat) (m : Mask) : (g.setP n m).mls3 = g.mls3 := by unfold Group.setP; split_ifs <;> rfl
@[simp] theorem Group.setP_seqr (g : Group) (n : Nat) (m : Mask) : (g.setP n m).seqr = g.seqr := by unfold Group.setP; split_ifs <;> rfl
@[simp] theorem Group.setP_frec (g : Group) (n : Nat) (m : Mask) : (g.setP n m).frec = g.frec := by unfold Group.setP; split_ifs <;> rfl
@[simp] theorem Group.setP_mark (g : Group) (n : Nat) (m : Mask) : (g.setP n m).mark = g.mark := by unfold Group.setP; split_ifs <;> rfl
@[simp] theorem Group.setP_tag (g : Group) (n : Nat) (m : Mask) : (g.setP n m).tag = g.tag := by unfold Group.setP; split_ifs <;> rfl
@[simp] theorem Group.setP_arr (g : Group) (n : Nat) (m : Mask) : (g.setP n m).arr = g.arr := by unfold Group.setP; split_ifs <;> rfl
@[simp] theorem Group.setP_rounds (g : Group) (n : Nat) (m : Mask) : (g.setP n m).rounds = g.rounds := by unfold Group.setP; split_ifs <;> rfl
@[simp] theorem Group.setP_enq (g : Group) (n : Nat) (m : Mask) : (g.setP n m).enq = g.enq := by unfold Group.setP; split_ifs <;> rfl
@[simp] theorem Group.setP_brvNext (g : Group) (n : Nat) (m : Mask) : (g.setP n m).brvNext = g.brvNext := by unfold Group.setP; split_ifs <;> rfl
@[simp] theorem Group.setP_splits (g : Group) (n : Nat) (m : Mask) : (g.setP n m).splits = g.splits := by unfold Group.setP; split_ifs <;> rfl

@[simp] theorem Split.setS_status (sp : Split) (n : Nat) (v : Word) : (sp.setS n v).status = sp.status := rfl
@[simp] theorem Split.setS_mask (sp : Split) (n : Nat) (v : Word) : (sp.setS n v).mask = sp.mask := rfl
@[simp] theorem Split.setS_spc (sp : Split) (n : Nat) (v : Word) : (sp.setS n v).spc = sp.spc := rfl
@[simp] theorem Split.setS_lpc (sp : Split) (n : Nat) (v : Word) : (sp.setS n v).lpc = sp.lpc := rfl
@[simp] theorem Split.setS_flag (sp : Split) (n : Nat) (v : Word) : (sp.setS n v).flag = sp.flag := rfl
@[simp] theorem Split.setS_a (sp : Split) (n : Nat) (v : Word) : (sp.setS n v).a = sp.a := rfl
@[simp] theorem Split.setS_loops (sp : Split) (n : Nat) (v : Word) : (sp.setS n v).loops = sp.loops := rfl
@[simp] theorem Split.setS_joins (sp : Split) (n : Nat) (v : Word) : (sp.setS n v).joins = sp.joins := rfl
@[simp] theorem Split.setS_queue (sp : Split) (n : Nat) (v : Word) : (sp.setS n v).queue = sp.queue := rfl
@[simp] theorem Split.setS_lrun (sp : Split) (n : Nat) (v : Word) : (sp.setS n v).lrun = sp.lrun := rfl
@[simp] theorem Split.setS_wait (sp : Split) (n : Nat) (v : Word) : (sp.setS n v).wait = sp.wait := rfl
@[simp] theorem Split.setS_swPark (sp : Split) (n : Nat) (v : Word) : (sp.setS n v).swPark = sp.swPark := rfl
@[simp] theorem Split.setS_ageS (sp : Split) (n : Nat) (v : Word) : (sp.setS n v).ageS = sp.ageS := rfl
@[simp] theorem Split.setS_ageL (sp : Split) (n : Nat) (v : Word) : (sp.setS n v).ageL = sp.ageL := rfl
@[simp] theorem Split.setS_uid (sp : Split) (n : Nat) (v : Word) : (sp.setS n v).uid = sp.uid := rfl
@[simp] theorem Split.setS_fetched (sp : Split) (n : Nat) (v : Word) : (sp.setS n v).fetched = sp.fetched := rfl
@[simp] theorem Split.setS_drain (sp : Split) (n : Nat) (v : Word) : (sp.setS n v).drain = sp.drain := rfl
@[simp] theorem Split.setS_drainRpl (sp : Split) (n : Nat) (v : Word) : (sp.setS n v).drainRpl = sp.drainRpl := rfl
@[simp] theorem Split.setS_rest (sp : Split) (n : Nat) (v : Word) : (sp.setS n v).rest = sp.rest := rfl
@[simp] theorem Split.setS_headFault (sp : Split) (n : Nat) (v : Word) : (sp.setS n v).headFault = sp.headFault := rfl
@[simp] theorem Split.setS_replay (sp : Split) (n : Nat) (v : Word) : (sp.setS n v).replay = sp.replay := rfl
@[simp] theorem Split.setS_record (sp : Split) (n : Nat) (v : Word) : (sp.setS n v).record = sp.record := rfl
@[simp] theorem Split.setS_setJoins (sp : Split) (n : Nat) (v : Word) : (sp.setS n v).setJoins = sp.setJoins := rfl
@[simp] theorem Split.setS_setQueue (sp : Split) (n : Nat) (v : Word) : (sp.setS n v).setQueue = sp.setQueue := rfl
@[simp] theorem Split.setS_setLrun (sp : Split) (n : Nat) (v : Word) : (sp.setS n v).setLrun = sp.setLrun := rfl
@[simp] theorem Split.setS_setHead (sp : Split) (n : Nat) (v : Word) : (sp.setS n v).setHead = sp.setHead := rfl
@[simp] theorem Split.setS_setReplay (sp : Split) (n : Nat) (v : Word) : (sp.setS n v).setReplay = sp.setReplay := rfl
@[simp] theorem Split.setS_trapId (sp : Split) (n : Nat) (v : Word) : (sp.setS n v).trapId = sp.trapId := rfl
@[simp] theorem Split.setS_resume (sp : Split) (n : Nat) (v : Word) : (sp.setS n v).resume = sp.resume := rfl
@[simp] theorem Split.setS_held (sp : Split) (n : Nat) (v : Word) : (sp.setS n v).held = sp.held := rfl
@[simp] theorem Split.setS_lastTry (sp : Split) (n : Nat) (v : Word) : (sp.setS n v).lastTry = sp.lastTry := rfl

@[simp] theorem Split.setPair_status (sp : Split) (n : Nat) (v : DWord) : (sp.setPair n v).status = sp.status := rfl
@[simp] theorem Split.setPair_mask (sp : Split) (n : Nat) (v : DWord) : (sp.setPair n v).mask = sp.mask := rfl
@[simp] theorem Split.setPair_spc (sp : Split) (n : Nat) (v : DWord) : (sp.setPair n v).spc = sp.spc := rfl
@[simp] theorem Split.setPair_lpc (sp : Split) (n : Nat) (v : DWord) : (sp.setPair n v).lpc = sp.lpc := rfl
@[simp] theorem Split.setPair_flag (sp : Split) (n : Nat) (v : DWord) : (sp.setPair n v).flag = sp.flag := rfl
@[simp] theorem Split.setPair_a (sp : Split) (n : Nat) (v : DWord) : (sp.setPair n v).a = sp.a := rfl
@[simp] theorem Split.setPair_loops (sp : Split) (n : Nat) (v : DWord) : (sp.setPair n v).loops = sp.loops := rfl
@[simp] theorem Split.setPair_joins (sp : Split) (n : Nat) (v : DWord) : (sp.setPair n v).joins = sp.joins := rfl
@[simp] theorem Split.setPair_queue (sp : Split) (n : Nat) (v : DWord) : (sp.setPair n v).queue = sp.queue := rfl
@[simp] theorem Split.setPair_lrun (sp : Split) (n : Nat) (v : DWord) : (sp.setPair n v).lrun = sp.lrun := rfl
@[simp] theorem Split.setPair_wait (sp : Split) (n : Nat) (v : DWord) : (sp.setPair n v).wait = sp.wait := rfl
@[simp] theorem Split.setPair_swPark (sp : Split) (n : Nat) (v : DWord) : (sp.setPair n v).swPark = sp.swPark := rfl
@[simp] theorem Split.setPair_ageS (sp : Split) (n : Nat) (v : DWord) : (sp.setPair n v).ageS = sp.ageS := rfl
@[simp] theorem Split.setPair_ageL (sp : Split) (n : Nat) (v : DWord) : (sp.setPair n v).ageL = sp.ageL := rfl
@[simp] theorem Split.setPair_uid (sp : Split) (n : Nat) (v : DWord) : (sp.setPair n v).uid = sp.uid := rfl
@[simp] theorem Split.setPair_fetched (sp : Split) (n : Nat) (v : DWord) : (sp.setPair n v).fetched = sp.fetched := rfl
@[simp] theorem Split.setPair_drain (sp : Split) (n : Nat) (v : DWord) : (sp.setPair n v).drain = sp.drain := rfl
@[simp] theorem Split.setPair_drainRpl (sp : Split) (n : Nat) (v : DWord) : (sp.setPair n v).drainRpl = sp.drainRpl := rfl
@[simp] theorem Split.setPair_rest (sp : Split) (n : Nat) (v : DWord) : (sp.setPair n v).rest = sp.rest := rfl
@[simp] theorem Split.setPair_headFault (sp : Split) (n : Nat) (v : DWord) : (sp.setPair n v).headFault = sp.headFault := rfl
@[simp] theorem Split.setPair_replay (sp : Split) (n : Nat) (v : DWord) : (sp.setPair n v).replay = sp.replay := rfl
@[simp] theorem Split.setPair_record (sp : Split) (n : Nat) (v : DWord) : (sp.setPair n v).record = sp.record := rfl
@[simp] theorem Split.setPair_setJoins (sp : Split) (n : Nat) (v : DWord) : (sp.setPair n v).setJoins = sp.setJoins := rfl
@[simp] theorem Split.setPair_setQueue (sp : Split) (n : Nat) (v : DWord) : (sp.setPair n v).setQueue = sp.setQueue := rfl
@[simp] theorem Split.setPair_setLrun (sp : Split) (n : Nat) (v : DWord) : (sp.setPair n v).setLrun = sp.setLrun := rfl
@[simp] theorem Split.setPair_setHead (sp : Split) (n : Nat) (v : DWord) : (sp.setPair n v).setHead = sp.setHead := rfl
@[simp] theorem Split.setPair_setReplay (sp : Split) (n : Nat) (v : DWord) : (sp.setPair n v).setReplay = sp.setReplay := rfl
@[simp] theorem Split.setPair_trapId (sp : Split) (n : Nat) (v : DWord) : (sp.setPair n v).trapId = sp.trapId := rfl
@[simp] theorem Split.setPair_resume (sp : Split) (n : Nat) (v : DWord) : (sp.setPair n v).resume = sp.resume := rfl
@[simp] theorem Split.setPair_held (sp : Split) (n : Nat) (v : DWord) : (sp.setPair n v).held = sp.held := rfl
@[simp] theorem Split.setPair_lastTry (sp : Split) (n : Nat) (v : DWord) : (sp.setPair n v).lastTry = sp.lastTry := rfl

@[simp] theorem Split.setA_status (sp : Split) (n : Nat) (v : Affine) : (sp.setA n v).status = sp.status := rfl
@[simp] theorem Split.setA_mask (sp : Split) (n : Nat) (v : Affine) : (sp.setA n v).mask = sp.mask := rfl
@[simp] theorem Split.setA_spc (sp : Split) (n : Nat) (v : Affine) : (sp.setA n v).spc = sp.spc := rfl
@[simp] theorem Split.setA_lpc (sp : Split) (n : Nat) (v : Affine) : (sp.setA n v).lpc = sp.lpc := rfl
@[simp] theorem Split.setA_flag (sp : Split) (n : Nat) (v : Affine) : (sp.setA n v).flag = sp.flag := rfl
@[simp] theorem Split.setA_s (sp : Split) (n : Nat) (v : Affine) : (sp.setA n v).s = sp.s := rfl
@[simp] theorem Split.setA_loops (sp : Split) (n : Nat) (v : Affine) : (sp.setA n v).loops = sp.loops := rfl
@[simp] theorem Split.setA_joins (sp : Split) (n : Nat) (v : Affine) : (sp.setA n v).joins = sp.joins := rfl
@[simp] theorem Split.setA_queue (sp : Split) (n : Nat) (v : Affine) : (sp.setA n v).queue = sp.queue := rfl
@[simp] theorem Split.setA_lrun (sp : Split) (n : Nat) (v : Affine) : (sp.setA n v).lrun = sp.lrun := rfl
@[simp] theorem Split.setA_wait (sp : Split) (n : Nat) (v : Affine) : (sp.setA n v).wait = sp.wait := rfl
@[simp] theorem Split.setA_swPark (sp : Split) (n : Nat) (v : Affine) : (sp.setA n v).swPark = sp.swPark := rfl
@[simp] theorem Split.setA_ageS (sp : Split) (n : Nat) (v : Affine) : (sp.setA n v).ageS = sp.ageS := rfl
@[simp] theorem Split.setA_ageL (sp : Split) (n : Nat) (v : Affine) : (sp.setA n v).ageL = sp.ageL := rfl
@[simp] theorem Split.setA_uid (sp : Split) (n : Nat) (v : Affine) : (sp.setA n v).uid = sp.uid := rfl
@[simp] theorem Split.setA_fetched (sp : Split) (n : Nat) (v : Affine) : (sp.setA n v).fetched = sp.fetched := rfl
@[simp] theorem Split.setA_drain (sp : Split) (n : Nat) (v : Affine) : (sp.setA n v).drain = sp.drain := rfl
@[simp] theorem Split.setA_drainRpl (sp : Split) (n : Nat) (v : Affine) : (sp.setA n v).drainRpl = sp.drainRpl := rfl
@[simp] theorem Split.setA_rest (sp : Split) (n : Nat) (v : Affine) : (sp.setA n v).rest = sp.rest := rfl
@[simp] theorem Split.setA_headFault (sp : Split) (n : Nat) (v : Affine) : (sp.setA n v).headFault = sp.headFault := rfl
@[simp] theorem Split.setA_replay (sp : Split) (n : Nat) (v : Affine) : (sp.setA n v).replay = sp.replay := rfl
@[simp] theorem Split.setA_record (sp : Split) (n : Nat) (v : Affine) : (sp.setA n v).record = sp.record := rfl
@[simp] theorem Split.setA_setJoins (sp : Split) (n : Nat) (v : Affine) : (sp.setA n v).setJoins = sp.setJoins := rfl
@[simp] theorem Split.setA_setQueue (sp : Split) (n : Nat) (v : Affine) : (sp.setA n v).setQueue = sp.setQueue := rfl
@[simp] theorem Split.setA_setLrun (sp : Split) (n : Nat) (v : Affine) : (sp.setA n v).setLrun = sp.setLrun := rfl
@[simp] theorem Split.setA_setHead (sp : Split) (n : Nat) (v : Affine) : (sp.setA n v).setHead = sp.setHead := rfl
@[simp] theorem Split.setA_setReplay (sp : Split) (n : Nat) (v : Affine) : (sp.setA n v).setReplay = sp.setReplay := rfl
@[simp] theorem Split.setA_trapId (sp : Split) (n : Nat) (v : Affine) : (sp.setA n v).trapId = sp.trapId := rfl
@[simp] theorem Split.setA_resume (sp : Split) (n : Nat) (v : Affine) : (sp.setA n v).resume = sp.resume := rfl
@[simp] theorem Split.setA_held (sp : Split) (n : Nat) (v : Affine) : (sp.setA n v).held = sp.held := rfl
@[simp] theorem Split.setA_lastTry (sp : Split) (n : Nat) (v : Affine) : (sp.setA n v).lastTry = sp.lastTry := rfl

@[simp] theorem Split.setFlag_status (sp : Split) (b : Bool) : (sp.setFlag b).status = sp.status := rfl
@[simp] theorem Split.setFlag_mask (sp : Split) (b : Bool) : (sp.setFlag b).mask = sp.mask := rfl
@[simp] theorem Split.setFlag_spc (sp : Split) (b : Bool) : (sp.setFlag b).spc = sp.spc := rfl
@[simp] theorem Split.setFlag_lpc (sp : Split) (b : Bool) : (sp.setFlag b).lpc = sp.lpc := rfl
@[simp] theorem Split.setFlag_s (sp : Split) (b : Bool) : (sp.setFlag b).s = sp.s := rfl
@[simp] theorem Split.setFlag_a (sp : Split) (b : Bool) : (sp.setFlag b).a = sp.a := rfl
@[simp] theorem Split.setFlag_loops (sp : Split) (b : Bool) : (sp.setFlag b).loops = sp.loops := rfl
@[simp] theorem Split.setFlag_joins (sp : Split) (b : Bool) : (sp.setFlag b).joins = sp.joins := rfl
@[simp] theorem Split.setFlag_queue (sp : Split) (b : Bool) : (sp.setFlag b).queue = sp.queue := rfl
@[simp] theorem Split.setFlag_lrun (sp : Split) (b : Bool) : (sp.setFlag b).lrun = sp.lrun := rfl
@[simp] theorem Split.setFlag_wait (sp : Split) (b : Bool) : (sp.setFlag b).wait = sp.wait := rfl
@[simp] theorem Split.setFlag_swPark (sp : Split) (b : Bool) : (sp.setFlag b).swPark = sp.swPark := rfl
@[simp] theorem Split.setFlag_ageS (sp : Split) (b : Bool) : (sp.setFlag b).ageS = sp.ageS := rfl
@[simp] theorem Split.setFlag_ageL (sp : Split) (b : Bool) : (sp.setFlag b).ageL = sp.ageL := rfl
@[simp] theorem Split.setFlag_uid (sp : Split) (b : Bool) : (sp.setFlag b).uid = sp.uid := rfl
@[simp] theorem Split.setFlag_fetched (sp : Split) (b : Bool) : (sp.setFlag b).fetched = sp.fetched := rfl
@[simp] theorem Split.setFlag_drain (sp : Split) (b : Bool) : (sp.setFlag b).drain = sp.drain := rfl
@[simp] theorem Split.setFlag_drainRpl (sp : Split) (b : Bool) : (sp.setFlag b).drainRpl = sp.drainRpl := rfl
@[simp] theorem Split.setFlag_rest (sp : Split) (b : Bool) : (sp.setFlag b).rest = sp.rest := rfl
@[simp] theorem Split.setFlag_headFault (sp : Split) (b : Bool) : (sp.setFlag b).headFault = sp.headFault := rfl
@[simp] theorem Split.setFlag_replay (sp : Split) (b : Bool) : (sp.setFlag b).replay = sp.replay := rfl
@[simp] theorem Split.setFlag_record (sp : Split) (b : Bool) : (sp.setFlag b).record = sp.record := rfl
@[simp] theorem Split.setFlag_setJoins (sp : Split) (b : Bool) : (sp.setFlag b).setJoins = sp.setJoins := rfl
@[simp] theorem Split.setFlag_setQueue (sp : Split) (b : Bool) : (sp.setFlag b).setQueue = sp.setQueue := rfl
@[simp] theorem Split.setFlag_setLrun (sp : Split) (b : Bool) : (sp.setFlag b).setLrun = sp.setLrun := rfl
@[simp] theorem Split.setFlag_setHead (sp : Split) (b : Bool) : (sp.setFlag b).setHead = sp.setHead := rfl
@[simp] theorem Split.setFlag_setReplay (sp : Split) (b : Bool) : (sp.setFlag b).setReplay = sp.setReplay := rfl
@[simp] theorem Split.setFlag_trapId (sp : Split) (b : Bool) : (sp.setFlag b).trapId = sp.trapId := rfl
@[simp] theorem Split.setFlag_resume (sp : Split) (b : Bool) : (sp.setFlag b).resume = sp.resume := rfl
@[simp] theorem Split.setFlag_held (sp : Split) (b : Bool) : (sp.setFlag b).held = sp.held := rfl
@[simp] theorem Split.setFlag_lastTry (sp : Split) (b : Bool) : (sp.setFlag b).lastTry = sp.lastTry := rfl

/-! ### Reads after updates -/

theorem State.group_setGroup (s : State) (c k c' k' : Nat) (g : Group) :
    (s.setGroup c k g).group c' k' = if slotKey c k = slotKey c' k' then g else s.group c' k' := by
  simp [State.group, State.setGroup, Tab.get_put]

@[simp] theorem State.group_setGroup_same (s : State) (c k : Nat) (g : Group) : (s.setGroup c k g).group c k = g := by
  simp [State.group_setGroup]

theorem Group.split_setSplit (g : Group) (n n' : Nat) (sp : Split) :
    (g.setSplit n sp).split n' = if n = n' then sp else g.split n' := by
  simp [Group.split, Group.setSplit, Tab.get_put]

@[simp] theorem Group.split_setSplit_same (g : Group) (n : Nat) (sp : Split) : (g.setSplit n sp).split n = sp := by
  simp [Group.split_setSplit]

@[simp] theorem State.groupOf_setGroupOf (s : State) (ag : Agent) (g : Group) : (s.setGroupOf ag g).groupOf ag = g := by
  simp [State.groupOf, State.setGroupOf]

@[simp] theorem State.splitOf_setSplitOf (s : State) (ag : Agent) (sp : Split) : (s.setSplitOf ag sp).splitOf ag = sp := by
  simp [State.splitOf, State.setSplitOf]

@[simp] theorem State.groupOf_setSplitOf (s : State) (ag : Agent) (sp : Split) :
    (s.setSplitOf ag sp).groupOf ag = (s.groupOf ag).setSplit ag.split sp := by
  simp [State.setSplitOf]

@[simp] theorem State.curSplit_modCur (s : State) (f : Split → Split) : (s.modCur f).curSplit = f s.curSplit := by
  simp [State.curSplit, State.modCur, State.modSplit]

theorem Split.sreg_setS (sp : Split) (n n' : Nat) (v : Word) :
    (sp.setS n v).sreg n' = if n = n' then v else sp.sreg n' := by
  simp [Split.sreg, Split.setS, Tab.get_put]

@[simp] theorem Split.sreg_setS_same (sp : Split) (n : Nat) (v : Word) : (sp.setS n v).sreg n = v := by
  simp [Split.sreg_setS]

theorem Split.sreg_setPair (sp : Split) (n n' : Nat) (v : DWord) :
    (sp.setPair n v).sreg n' = if n + 1 = n' then hiW v else if n = n' then loW v else sp.sreg n' := by
  simp [Split.setPair, Split.sreg_setS]

theorem Split.areg_setA (sp : Split) (n n' : Nat) (v : Affine) :
    (sp.setA n v).areg n' = if n = n' then v else sp.areg n' := by
  simp [Split.areg, Split.setA, Tab.get_put]

theorem Group.vreg_setV (g : Group) (n l n' l' : Nat) (x : Word) :
    (g.setV n l x).vreg n' l' = if 32 * n + l = 32 * n' + l' then x else g.vreg n' l' := by
  simp [Group.vreg, Group.setV, Tab.get_put]

theorem Group.tmreg_setTm (g : Group) (n n' : Nat) (v : DWord) :
    (g.setTm n v).tmreg n' = if n = n' then v else g.tmreg n' := by
  simp [Group.tmreg, Group.setTm, Tab.get_put]

/-- p0 reads as all lanes (R148). -/
@[simp] theorem Group.preg_zero (g : Group) : g.preg 0 = Mask.full := rfl

/-- A write to p0 is performed in no lane (R148). -/
@[simp] theorem Group.setP_zero (g : Group) (m : Mask) : g.setP 0 m = g := rfl

theorem Group.preg_setP (g : Group) (n n' : Nat) (m : Mask) (hn : n ≠ 0) :
    (g.setP n m).preg n' = if n = n' then m else g.preg n' := by
  unfold Group.setP Group.preg
  split_ifs <;> simp_all [Tab.get_put]

theorem State.core_setCore (s : State) (c c' : Nat) (x : Core) :
    (s.setCore c x).core c' = if c = c' then x else s.core c' := by
  simp [State.core, State.setCore, Tab.get_put]

theorem State.die_setDie (s : State) (d d' : Nat) (x : Die) :
    (s.setDie d x).die d' = if d = d' then x else s.die d' := by
  simp [State.die, State.setDie, Tab.get_put]

theorem State.ctx_setCtx (s : State) (c c' : Nat) (x : Ctx) :
    (s.setCtx c x).ctx c' = if c = c' then x else s.ctx c' := by
  simp [State.ctx, State.setCtx, Tab.get_put]

theorem State.ctxCore_setCtxCore (s : State) (c k c' k' : Nat) (x : CtxCore) :
    (s.setCtxCore c k x).ctxCore c' k' = if 256 * c + k = 256 * c' + k' then x else s.ctxCore c' k' := by
  simp [State.ctxCore, State.setCtxCore, Tab.get_put]

theorem State.line_setLine (s : State) (k k' : Nat) (x : LineMeta) :
    (s.setLine k x).line k' = if k = k' then x else s.line k' := by
  simp [State.line, State.setLine, Tab.get_put]

theorem State.link_setLink (s : State) (k k' : Nat) (x : Link) :
    (s.setLink k x).link k' = if k = k' then x else s.link k' := by
  simp [State.link, State.setLink, Tab.get_put]

end Sys2Proof.Machine
end

