-- ==== Sys2Proof/Laws/Mem.lean ====
section
/-! SUPPORT. What the operations over memory can do: each touches memory, the metadata of lines, the dies' caches and counters, and the
home order of bytes, and nothing else; each keeps the canonical form of memory. -/

namespace Sys2Proof.Machine

/-- The step from `s` to `t` has touched memory, line metadata, dies and the home order alone, and keeps the canonical form. -/
structure MemStep (s t : State) : Prop where
  frame : t = { s with mem := t.mem, lines := t.lines, dies := t.dies, bver := t.bver, wseq := t.wseq }
  wf    : s.mem.wf = true → t.mem.wf = true

namespace MemStep

theorem refl (s : State) : MemStep s s := ⟨rfl, id⟩

theorem trans {s t u : State} (h : MemStep s t) (k : MemStep t u) : MemStep s u :=
  ⟨by rw [k.frame, h.frame], k.wf ∘ h.wf⟩

theorem groups {s t : State} (h : MemStep s t) : t.groups = s.groups := by rw [h.frame]
theorem ents {s t : State} (h : MemStep s t) : t.ents = s.ents := by rw [h.frame]
theorem ctxs {s t : State} (h : MemStep s t) : t.ctxs = s.ctxs := by rw [h.frame]
theorem cores {s t : State} (h : MemStep s t) : t.cores = s.cores := by rw [h.frame]
theorem ctxCores {s t : State} (h : MemStep s t) : t.ctxCores = s.ctxCores := by rw [h.frame]
theorem units {s t : State} (h : MemStep s t) : t.units = s.units := by rw [h.frame]
theorem cur {s t : State} (h : MemStep s t) : t.cur = s.cur := by rw [h.frame]

theorem ite {α : Type} {s : State} {c : Prop} [Decidable c] {x y : α × State} (hx : MemStep s x.2) (hy : MemStep s y.2) :
    MemStep s (if c then x else y).2 := by
  split
  · exact hx
  · exact hy

theorem foldl {α : Type} {f : State → α → State} (hf : ∀ s a, MemStep s (f s a)) (l : List α) (s : State) :
    MemStep s (l.foldl f s) := by
  induction l generalizing s with
  | nil => exact refl s
  | cons a l ih => exact (hf s a).trans (ih _)

end MemStep

/-! ### Physical writes -/

theorem State.setLine_memStep (s : State) (k : Nat) (x : LineMeta) : MemStep s (s.setLine k x) := ⟨rfl, id⟩
theorem State.setDie_memStep (s : State) (k : Nat) (x : Die) : MemStep s (s.setDie k x) := ⟨rfl, id⟩
theorem State.modDie_memStep (s : State) (k : Nat) (f : Die → Die) : MemStep s (s.modDie k f) := ⟨rfl, id⟩
theorem State.poisonLine_memStep (s : State) (k : Nat) : MemStep s (s.poisonLine k) := ⟨rfl, id⟩
theorem State.stampKeys_memStep (s : State) (ks : List Nat) : MemStep s (s.stampKeys ks) := ⟨rfl, id⟩

theorem State.writeMem_memStep (s : State) (k : Nat) (bs : List Byte) : MemStep s { s with mem := s.mem.writeN k bs } :=
  ⟨rfl, fun h => Memory.wf_writeN h k bs⟩

theorem State.rawWrite_memStep (s : State) (k : Nat) (bs : List Byte) : MemStep s (s.rawWrite k bs) := by
  unfold State.rawWrite
  exact (MemStep.foldl (fun t i => State.setLine_memStep t _ _) _ s).trans (State.writeMem_memStep _ k bs)

theorem State.unitWrite_memStep (s : State) (k : Nat) (bs : List Byte) : MemStep s (s.unitWrite k bs) :=
  (State.rawWrite_memStep s k bs).trans (State.stampKeys_memStep _ _)

/-- A write by physical address puts its bytes at its keys, and no other byte changes. -/
theorem State.unitWrite_read_in (s : State) (k : Nat) (bs : List Byte) {i : Nat} (h : i < bs.length) :
    (s.unitWrite k bs).mem.read (k + i) = bs[i] := by
  have hm : (s.unitWrite k bs).mem = s.mem.writeN k bs := by
    simp only [State.unitWrite, State.stampKeys, State.rawWrite]
    congr 1
    generalize List.range _ = l
    induction l generalizing s with
    | nil => rfl
    | cons a l ih => simpa using ih (s.setLine _ _)
  rw [hm]; exact Memory.read_writeN_in _ _ _ h

theorem State.unitWrite_read_out (s : State) (k : Nat) (bs : List Byte) {j : Nat} (h : j < k ∨ k + bs.length ≤ j) :
    (s.unitWrite k bs).mem.read j = s.mem.read j := by
  have hm : (s.unitWrite k bs).mem = s.mem.writeN k bs := by
    simp only [State.unitWrite, State.stampKeys, State.rawWrite]
    congr 1
    generalize List.range _ = l
    induction l generalizing s with
    | nil => rfl
    | cons a l ih => simpa using ih (s.setLine _ _)
  rw [hm]; exact Memory.read_writeN_out _ _ _ h

/-! ### Translation and the owner's checks -/

/-- The TLB may take an entry; memory is read alone. -/
theorem State.entryAt_memStep (s : State) (di ctx lv idx key : Nat) : MemStep s (s.entryAt di ctx lv idx key).2 := by
  unfold State.entryAt
  dsimp only
  split <;> (dsimp only; split <;> first | exact MemStep.refl s | exact State.modDie_memStep s _ _)

theorem walkFrom_memStep (di ctx : Nat) (va : DWord) (ls : List Level) (tbl : Nat) (s : State) :
    MemStep s (walkFrom di ctx va ls tbl s).2 := by
  induction ls generalizing tbl s with
  | nil => exact MemStep.refl s
  | cons lv ls ih =>
    have h := State.entryAt_memStep s di ctx lv.n (localOf va / 2 ^ lv.lo) (physKey di 0 (tbl + 8 * (localOf va / 2 ^ lv.lo % 2 ^ lv.w)))
    unfold walkFrom
    dsimp only
    split
    · exact h
    · split
      · split <;> exact h
      · split
        · exact h
        · exact h.trans (ih _ _)

theorem State.walk_memStep (s : State) (ctx : Nat) (va : DWord) : MemStep s (s.walk ctx va).2 := by
  unfold State.walk
  dsimp only
  split
  · exact MemStep.refl s
  · exact walkFrom_memStep _ _ _ _ _ s

/-- The owner's checks up to the page's leaf read memory alone: the TLB may change. -/
theorem State.leafFor_memStep (s : State) (ctx : Nat) (lease : Option Word) (a : Access) (va : DWord) :
    MemStep s (s.leafFor ctx lease a va).2 := by
  have h := State.walk_memStep s ctx va
  unfold State.leafFor
  refine MemStep.ite (MemStep.refl s) ?_
  split
  · next heq => rw [heq] at h; exact h
  · next heq => rw [heq] at h; split <;> exact h

/-- The owner's checks read memory alone: the TLB and the heat counters of the die may change. -/
theorem State.ownerCheck_memStep (s : State) (ctx : Nat) (lease : Option Word) (a : Access) (va : DWord) :
    MemStep s (s.ownerCheck ctx lease a va).2 := by
  have h := State.leafFor_memStep s ctx lease a va
  unfold State.ownerCheck
  split
  · next heq => rw [heq] at h; exact h
  · next heq =>
    rw [heq] at h
    dsimp only
    split
    · exact h.trans (State.modDie_memStep _ _ _)
    · exact h

theorem State.ownerLook_memStep (s : State) (ctx : Nat) (lease : Option Word) (a : Access) (va : DWord) :
    MemStep s (s.ownerLook ctx lease a va).2 := by
  have h := State.leafFor_memStep s ctx lease a va
  unfold State.ownerLook
  split <;> (next heq => rw [heq] at h; exact h)

/-! ### Reads and writes at the home -/

theorem State.openLine_memStep (s : State) (key : Nat) (t : LineTag) : MemStep s (s.openLine key t).2 := by
  unfold State.openLine
  dsimp only
  split
  · exact MemStep.refl s
  split
  · exact MemStep.refl s
  split
  · exact State.poisonLine_memStep s key
  split
  · exact MemStep.refl s
  split
  · exact MemStep.refl s
  · exact State.poisonLine_memStep s key

theorem State.lineRead_memStep (s : State) (key n : Nat) (t : LineTag) : MemStep s (s.lineRead key n t).2 := by
  have h := State.openLine_memStep s key t
  unfold State.lineRead
  split <;> (next heq => rw [heq] at h; exact h)

/-- A read of a line answers its bytes as memory holds them. -/
theorem State.lineRead_bytes {s : State} {key n : Nat} {t : LineTag} {bs : List Byte} (h : (s.lineRead key n t).1 = some bs) :
    bs = s.mem.readN key n := by
  have hm : (s.openLine key t).2.mem = s.mem := by
    unfold State.openLine; dsimp only
    split
    · rfl
    split
    · rfl
    split
    · rfl
    split
    · rfl
    split <;> rfl
  unfold State.lineRead at h
  split at h
  · next heq =>
    rw [heq] at hm
    simp only [Option.some.injEq] at h
    rw [← h, ← hm]
  · simp at h

theorem State.lineWrite_memStep (s : State) (key : Nat) (bs : List Byte) (t : LineTag) (rel : Option Nat) :
    MemStep s (s.lineWrite key bs t rel).2 := by
  have h := State.openLine_memStep s key t
  have go : ∀ (u : State) (m : LineMeta), MemStep u
      (({ u.setLine (key / 128) m with mem := (u.setLine (key / 128) m).mem.writeN key bs } : State).stampKeys
        ((List.range bs.length).map (key + ·))) := fun u m =>
    ((State.setLine_memStep u _ m).trans (State.writeMem_memStep _ key bs)).trans (State.stampKeys_memStep _ _)
  unfold State.lineWrite
  dsimp only
  split
  · exact MemStep.refl s
  split
  · exact go s _
  split
  · next heq => rw [heq] at h; exact h.trans (go _ _)
  · next heq => rw [heq] at h; exact h

theorem State.holdLine_memStep (s : State) (di key : Nat) : MemStep s (s.holdLine di key) := State.modDie_memStep s _ _

/-- The mirror of a marked line may be marked; no byte changes. -/
theorem State.markMirror_memStep (s : State) (ctx : Nat) (va : DWord) (key : Nat) : MemStep s (s.markMirror ctx va key) := by
  unfold State.markMirror
  split
  · split
    · exact State.setLine_memStep s _ _
    · exact MemStep.refl s
  · exact MemStep.refl s

theorem State.homeReadBy_memStep (s : State) (di ctx : Nat) (va : DWord) (key n : Nat) :
    MemStep s (s.homeReadBy di ctx va key n).2 := by
  have h := State.lineRead_memStep s (s.serve ctx va key).1 n (s.tagFor di ctx va)
  unfold State.homeReadBy
  split
  · next heq => rw [heq] at h; exact h.trans (State.holdLine_memStep _ _ _)
  · next heq => rw [heq] at h; exact h.trans (State.markMirror_memStep _ _ _ _)

theorem State.homeRead_memStep (s : State) (ctx : Nat) (va : DWord) (key n : Nat) : MemStep s (s.homeRead ctx va key n).2 :=
  State.homeReadBy_memStep s _ ctx va key n

theorem State.homePutBy_memStep (s : State) (di ctx : Nat) (va : DWord) (key : Nat) (bs : List Byte) (rel : Option Nat) :
    MemStep s (s.homePutBy di ctx va key bs rel).2 := by
  unfold State.homePutBy
  dsimp only
  have h := State.lineWrite_memStep s (s.serve ctx va key).1 bs (s.tagFor di ctx va) rel
  split
  · next heq => rw [heq] at h; exact h.trans (State.markMirror_memStep _ _ _ _)
  · next heq =>
    rw [heq] at h
    have k := h.trans (State.holdLine_memStep _ (ownerOf va) (s.serve ctx va key).1)
    split
    · exact k
    · exact k.trans (((State.setLine_memStep _ _ _).trans (State.writeMem_memStep _ _ _)).trans ⟨rfl, id⟩)

theorem State.homePut_memStep (s : State) (ctx : Nat) (va : DWord) (key : Nat) (bs : List Byte) (rel : Option Nat) :
    MemStep s (s.homePut ctx va key bs rel).2 := State.homePutBy_memStep s _ ctx va key bs rel

theorem State.homeWrite_memStep (s : State) (ctx : Nat) (va : DWord) (key : Nat) (bs : List Byte) (rel : Option Nat) :
    MemStep s (s.homeWrite ctx va key bs rel).2 := by
  unfold State.homeWrite
  refine MemStep.trans ?_ (State.homePut_memStep _ ctx va key bs rel)
  unfold State.chargeMirror
  split
  · exact State.modDie_memStep s _ _
  · exact MemStep.refl s

/-! ### Accesses by virtual address -/

theorem State.vWrite1_memStep (s : State) (ctx : Nat) (va : DWord) (bs : List Byte) : MemStep s (s.vWrite1 ctx va bs).2 := by
  have h := State.ownerCheck_memStep s ctx none .store va
  unfold State.vWrite1
  split
  · next heq => rw [heq] at h; exact h
  · next heq => rw [heq] at h; exact h.trans (State.homeWrite_memStep _ _ _ _ _ _)

theorem writeLines_memStep {put : State → DWord → List Byte → Bool × State} (hp : ∀ s va bs, MemStep s (put s va bs).2)
    (k : Nat) (s : State) (va : DWord) (bs : List Byte) : MemStep s (writeLines put k s va bs).2 := by
  induction k generalizing s va bs with
  | zero => exact MemStep.refl s
  | succ k ih =>
    unfold writeLines
    split
    · exact MemStep.refl s
    · have h := hp s va (bs.take (128 - va.toNat % 128))
      dsimp only
      split
      · next heq => rw [heq] at h; exact h
      · next heq => rw [heq] at h; exact h.trans (ih _ _ _)

theorem State.vWrite_memStep (s : State) (ctx : Nat) (va : DWord) (bs : List Byte) : MemStep s (s.vWrite ctx va bs).2 :=
  writeLines_memStep (fun s va bs => State.vWrite1_memStep s ctx va bs) _ s va bs

theorem State.vRead1_memStep (s : State) (ctx : Nat) (va : DWord) (n : Nat) : MemStep s (s.vRead1 ctx va n).2 := by
  have h := State.ownerCheck_memStep s ctx none .load va
  unfold State.vRead1
  split
  · next heq => rw [heq] at h; exact h
  · next s' heq =>
    rw [heq] at h
    rename_i key _
    have k := State.homeRead_memStep s' ctx (noPath va) key n
    split <;> (next heq => rw [heq] at k; exact h.trans k)

theorem vReadN_memStep (k : Nat) (s : State) (ctx : Nat) (va : DWord) (n : Nat) : MemStep s (vReadN k s ctx va n).2 := by
  induction k generalizing s va n with
  | zero => exact MemStep.refl s
  | succ k ih =>
    unfold vReadN
    split
    · exact MemStep.refl s
    · have h := State.vRead1_memStep s ctx va (min n (128 - va.toNat % 128))
      dsimp only
      split
      · next heq => rw [heq] at h; exact h
      · next s' heq =>
        rw [heq] at h
        have j := ih s' (va + BitVec.ofNat 64 (min n (128 - va.toNat % 128))) (n - min n (128 - va.toNat % 128))
        split <;> (next heq => rw [heq] at j; exact h.trans j)

theorem State.vRead_memStep (s : State) (ctx : Nat) (va : DWord) (n : Nat) : MemStep s (s.vRead ctx va n).2 :=
  vReadN_memStep _ s ctx va n

/-! ### Scratchpads, phaser objects and event records -/

theorem State.scrClaim_memStep (s : State) (ctx key : Nat) : MemStep s (s.scrClaim ctx key) := by
  unfold State.scrClaim
  dsimp only
  split
  · exact MemStep.refl s
  split
  · exact State.setLine_memStep s _ _
  · exact (State.setLine_memStep s _ _).trans (State.writeMem_memStep _ _ _)

theorem State.scrWrite_memStep (s : State) (ctx core off : Nat) (bs : List Byte) : MemStep s (s.scrWrite ctx core off bs) :=
  ((State.scrClaim_memStep s ctx _).trans (State.writeMem_memStep _ _ bs)).trans (State.stampKeys_memStep _ _)

theorem State.putObjBits_memStep (s : State) (ctx core off n : Nat) : MemStep s (s.putObjBits ctx core off n) :=
  State.scrWrite_memStep s ctx core off _

theorem State.withdrawWait_memStep (s : State) (ctx : Nat) (w : Wait) : MemStep s (s.withdrawWait ctx w) := by
  unfold State.withdrawWait
  split
  · dsimp only
    split
    · exact State.putObjBits_memStep s _ _ _ _
    · exact MemStep.refl s
  · exact MemStep.refl s

/-- An event record touches memory, the queue's registers of its context and the records that wait alone. -/
theorem State.postEvent_frame (s : State) (ctx r : Nat) :
    (s.postEvent ctx r).2.groups = s.groups ∧ (s.postEvent ctx r).2.ents = s.ents
      ∧ (s.mem.wf = true → (s.postEvent ctx r).2.mem.wf = true) := by
  have h := State.unitWrite_memStep s (s.eqKey (s.ctx ctx) (s.ctx ctx).eqtail.toNat) (toBytes r 16)
  unfold State.postEvent
  dsimp only
  split
  · exact ⟨rfl, rfl, id⟩
  split
  · exact ⟨State.setCtx_groups _ _ _, State.setCtx_ents _ _ _, fun hw => (congrArg Memory.wf (State.setCtx_mem _ _ _)).trans hw⟩
  · exact ⟨(State.setCtx_groups _ _ _).trans h.groups, (State.setCtx_ents _ _ _).trans h.ents,
      fun hw => (congrArg Memory.wf (State.setCtx_mem _ _ _)).trans (h.wf hw)⟩

/-! ### A core's save path (R313, R331) -/

/-- What a core's save path does when it writes: packets of its own enter, and nothing else changes but the numbers that they take. -/
structure SaveStep (s t : State) : Prop where
  frame : t = { s with ents := t.ents, nextId := t.nextId, wseq := t.wseq }
  more  : ∃ es : List Entry, t.ents = s.ents ++ es ∧ ∀ e ∈ es, e.kind = .save ∧ e.owners = []

theorem SaveStep.refl (s : State) : SaveStep s s := ⟨rfl, [], by simp⟩

theorem SaveStep.trans {s t u : State} (h : SaveStep s t) (k : SaveStep t u) : SaveStep s u := by
  obtain ⟨a, ha, ha'⟩ := h.more
  obtain ⟨b, hb, hb'⟩ := k.more
  refine ⟨by rw [k.frame, h.frame], a ++ b, by rw [hb, ha, List.append_assoc], fun e he => ?_⟩
  rcases List.mem_append.mp he with h1 | h1
  · exact ha' e h1
  · exact hb' e h1

theorem SaveStep.groups {s t : State} (h : SaveStep s t) : t.groups = s.groups := by rw [h.frame]
theorem SaveStep.mem {s t : State} (h : SaveStep s t) : t.mem = s.mem := by rw [h.frame]
theorem SaveStep.ctxs {s t : State} (h : SaveStep s t) : t.ctxs = s.ctxs := by rw [h.frame]
theorem SaveStep.ctxCores {s t : State} (h : SaveStep s t) : t.ctxCores = s.ctxCores := by rw [h.frame]

theorem State.enterSave_saveStep (s : State) (ag : Agent) (tag ctx op : Nat) (va : DWord) (bs : List Byte) :
    SaveStep s (s.enterSave ag tag ctx op va bs) :=
  ⟨rfl, _, rfl, by simp [savePacket]; rfl⟩

theorem writeLines_saveStep {put : State → DWord → List Byte → Bool × State} (hp : ∀ s va bs, SaveStep s (put s va bs).2)
    (k : Nat) (s : State) (va : DWord) (bs : List Byte) : SaveStep s (writeLines put k s va bs).2 := by
  induction k generalizing s va bs with
  | zero => exact SaveStep.refl s
  | succ k ih =>
    unfold writeLines
    split
    · exact SaveStep.refl s
    · have h := hp s va (bs.take (128 - va.toNat % 128))
      dsimp only
      split
      · next heq => rw [heq] at h; exact h
      · next heq => rw [heq] at h; exact h.trans (ih _ _ _)

/-- A write of the save path only enters its packets (R331). -/
theorem State.saveWrite_saveStep (s : State) (ag : Agent) (tag ctx op : Nat) (va : DWord) (bs : List Byte) :
    SaveStep s (s.saveWrite ag tag ctx op va bs).2 := by
  unfold State.saveWrite
  split
  · exact writeLines_saveStep (fun s va bs => State.enterSave_saveStep s ag tag ctx op va bs) _ s va bs
  · exact SaveStep.refl s

theorem writeLines_true {put : State → DWord → List Byte → Bool × State} (hp : ∀ s va bs, (put s va bs).1 = true)
    (k : Nat) (s : State) (va : DWord) (bs : List Byte) : (writeLines put k s va bs).1 = true := by
  induction k generalizing s va bs with
  | zero => rfl
  | succ k ih =>
    unfold writeLines
    split
    · rfl
    · have h := hp s va (bs.take (128 - va.toNat % 128))
      dsimp only
      split
      · next heq => rw [heq] at h; exact h
      · exact ih _ _ _

/-- Where the save path may send, a fault record only enters its packets: FREC and the notice follow once they are written (R313). -/
theorem State.sendRecord_open (s : State) (ag : Agent) (tag ctx op : Nat) (bs : List Byte)
    (h : s.saveOpen ag.core ctx (s.frameAddr ctx ag.core ag.slot ag.split) = true) : SaveStep s (s.sendRecord ag tag ctx op bs) := by
  have hs := State.saveWrite_saveStep s ag tag ctx op (s.frameAddr ctx ag.core ag.slot ag.split) bs
  have ht : (s.saveWrite ag tag ctx op (s.frameAddr ctx ag.core ag.slot ag.split) bs).1 = true := by
    unfold State.saveWrite
    rw [if_pos h]
    exact writeLines_true (fun _ _ _ => rfl) _ _ _ _
  unfold State.sendRecord
  dsimp only
  split
  · next heq => rw [heq] at hs; exact hs
  · next heq => rw [heq] at ht; cases ht

/-- Where the save path may send nothing, what follows a fault record follows at once (R313; log 16). -/
theorem State.sendRecord_shut (s : State) (ag : Agent) (tag ctx op : Nat) (bs : List Byte)
    (h : s.saveOpen ag.core ctx (s.frameAddr ctx ag.core ag.slot ag.split) = false) :
    s.sendRecord ag tag ctx op bs = s.recorded (savePacket .save ag tag ctx op 0 (s.frameAddr ctx ag.core ag.slot ag.split) bs) := by
  unfold State.sendRecord State.saveWrite
  dsimp only
  rw [if_neg (by rw [h]; decide)]

end Sys2Proof.Machine
end

