-- ==== Sys2Proof/Laws/Except.lean ====
section
/-! SUPPORT. What taking an exception does to the split that takes it, when no handler runs and no unit ends: it parks with the record
of the report, the record is sent to its frame, and no other group changes (R313-R318, R336). -/

namespace Sys2Proof.Machine

/-- A trigger changes the snapshot alone (R359). -/
theorem State.snapFire_frame (s : State) (src : Nat) (always : Bool) :
    s.snapFire src always = { s with snap := (s.snapFire src always).snap } := by
  unfold State.snapFire
  dsimp only
  split
  · rfl
  split <;> rfl

theorem State.snapFire_groups (s : State) (src : Nat) (always : Bool) : (s.snapFire src always).groups = s.groups := by
  rw [State.snapFire_frame]

theorem State.snapFire_mem (s : State) (src : Nat) (always : Bool) : (s.snapFire src always).mem = s.mem := by
  rw [State.snapFire_frame]

theorem State.snapFire_ctxs (s : State) (src : Nat) (always : Bool) : (s.snapFire src always).ctxs = s.ctxs := by
  rw [State.snapFire_frame]

theorem State.snapFire_ctxCores (s : State) (src : Nat) (always : Bool) : (s.snapFire src always).ctxCores = s.ctxCores := by
  rw [State.snapFire_frame]

/-- The frame that a report of the split of an agent writes to. -/
def State.frameOf (s : State) (ag : Agent) : DWord := s.frameAddr (s.groupOf ag).ctx ag.core ag.slot ag.split

/-- The core of an agent may send a fault record to the agent's frame (R321; log 16). -/
def State.frameOpen (s : State) (ag : Agent) : Bool := s.saveOpen ag.core (s.groupOf ag).ctx (s.frameOf ag)

/-- A report that goes to the driver fires its trigger and sends the record. -/
theorem State.report_eq (s : State) (ag : Agent)
    (hh : ((s.ctx (s.groupOf ag).ctx).toHandler (s.splitOf ag).record.kind (s.splitOf ag).record.nest
      && s.stateOn (s.groupOf ag).ctx ag.core != .evicted) = false)
    (hk : (s.splitOf ag).record.kind ≠ .lease) :
    s.report ag = (s.snapFire (s.splitOf ag).record.kind.code false).sendRecord ag (s.groupOf ag).tag (s.groupOf ag).ctx 2
      (toBytes (s.splitOf ag).record.bits 32) := by
  have hb : ((s.splitOf ag).record.kind == FaultKind.lease) = false := by simpa using hk
  have hc : (((s.snapFire (s.splitOf ag).record.kind.code false).ctx (s.groupOf ag).ctx).toHandler (s.splitOf ag).record.kind
      (s.splitOf ag).record.nest && (s.snapFire (s.splitOf ag).record.kind.code false).stateOn (s.groupOf ag).ctx ag.core != .evicted)
      = false := by
    simpa only [State.ctx, State.stateOn, State.ctxCore, State.snapFire_ctxs, State.snapFire_ctxCores] using hh
  unfold State.report
  dsimp only
  simp only [hc, Bool.false_and, Bool.false_eq_true, if_false, hb]

theorem State.snap_saveOpen (s : State) (x : Snapshot) (core ctx : Nat) (va : DWord) :
    ({ s with snap := x } : State).saveOpen core ctx va = s.saveOpen core ctx va := by
  have hp : ({ s with snap := x } : State).populated (nodeOf va) = s.populated (nodeOf va) := rfl
  have hk : ({ s with snap := x } : State).ctxWord (s.ownDie (dieOfCore core)) ctx = s.ctxWord (s.ownDie (dieOfCore core)) ctx := rfl
  have ho : ({ s with snap := x } : State).ownDie (dieOfCore core) = s.ownDie (dieOfCore core) := rfl
  have hc : ({ s with snap := x } : State).ctx ctx = s.ctx ctx := rfl
  unfold State.saveOpen State.coreCheck State.keyedFor State.keyOn
  simp only [hp, hk, ho, hc]

theorem State.snap_frameAddr (s : State) (x : Snapshot) (ctx core slot idx : Nat) :
    ({ s with snap := x } : State).frameAddr ctx core slot idx = s.frameAddr ctx core slot idx := rfl

/-- A report that goes to the driver, where its record can be sent: no group changes before the record has been written, when FREC comes to name
the frame; memory keeps its form (R313). -/
theorem State.report_driver (s : State) (ag : Agent)
    (hh : ((s.ctx (s.groupOf ag).ctx).toHandler (s.splitOf ag).record.kind (s.splitOf ag).record.nest
      && s.stateOn (s.groupOf ag).ctx ag.core != .evicted) = false)
    (hk : (s.splitOf ag).record.kind ≠ .lease) (ho : s.frameOpen ag = true) :
    (s.report ag).groups = s.groups ∧ (s.report ag).mem = s.mem := by
  have h : SaveStep (s.snapFire (s.splitOf ag).record.kind.code false) (s.report ag) := by
    rw [State.report_eq s ag hh hk]
    refine State.sendRecord_open _ _ _ _ _ _ ?_
    rw [State.snapFire_frame, State.snap_frameAddr, State.snap_saveOpen]
    exact ho
  rw [h.groups, h.mem, State.snapFire_groups, State.snapFire_mem]
  exact ⟨rfl, rfl⟩

/-- The group with the split parked for a report, and its loop in mid-run told of it (R222, R313). -/
def State.parkedGroup (s : State) (ag : Agent) (p : Report) : Group :=
  ((s.groupOf ag).setSplit ag.split ((s.splitOf ag).parkFor (s.recordOf ag p ((s.splitOf ag).status == .trapped)) p)).haltLoop

/-- The state in which a parked split reports. -/
def State.parkedState (s : State) (ag : Agent) (p : Report) : State :=
  ((s.withdrawWait (s.groupOf ag).ctx (s.splitOf ag).wait).setSplitOf ag
    ((s.splitOf ag).parkFor (s.recordOf ag p ((s.splitOf ag).status == .trapped)) p)).modGroup ag Group.haltLoop

/-- Parking for the driver, where the record can be sent: the split holds the record and is parked, and nothing else of its group changes but
its loop's halt (R222, R313). -/
theorem State.park_driver (s : State) (ag : Agent) (p : Report) (hk : p.fail.kind ≠ .lease)
    (hh : ((s.ctx (s.groupOf ag).ctx).toHandler p.fail.kind ((s.splitOf ag).status == .trapped)
      && s.stateOn (s.groupOf ag).ctx ag.core != .evicted) = false) (ho : (s.parkedState ag p).frameOpen ag = true) :
    (s.park ag p).groups = (s.setGroupOf ag (s.parkedGroup ag p)).groups
      ∧ (s.mem.wf = true → (s.park ag p).mem.wf = true) := by
  have e : s.park ag p = (s.parkedState ag p).report ag := rfl
  unfold State.parkedState at e ho
  have hw := State.withdrawWait_memStep s (s.groupOf ag).ctx (s.splitOf ag).wait
  generalize s.withdrawWait (s.groupOf ag).ctx (s.splitOf ag).wait = u at hw e ho
  have hg : u.groupOf ag = s.groupOf ag := by simp only [State.groupOf, State.group, hw.groups]
  obtain ⟨q, hq⟩ : ∃ q, q = (s.splitOf ag).parkFor (s.recordOf ag p ((s.splitOf ag).status == .trapped)) p := ⟨_, rfl⟩
  have hp : s.parkedGroup ag p = ((s.groupOf ag).setSplit ag.split q).haltLoop := by rw [hq]; rfl
  rw [← hq] at e ho
  obtain ⟨v, hv⟩ : ∃ v, v = (u.setSplitOf ag q).modGroup ag Group.haltLoop := ⟨_, rfl⟩
  have hgo : v.groupOf ag = s.parkedGroup ag p := by
    rw [hv, hp]
    show State.groupOf (State.setGroupOf _ _ ((State.groupOf _ _).haltLoop)) ag = _
    rw [State.groupOf_setGroupOf, State.groupOf_setSplitOf, hg]
  have hr : (v.splitOf ag).record = s.recordOf ag p ((s.splitOf ag).status == .trapped) := by
    have h : v.splitOf ag = q := by
      show (v.groupOf ag).split ag.split = q
      rw [hgo, hp]
      show Tab.get _ (((s.groupOf ag).setSplit ag.split q).splits) _ = _
      exact Tab.get_put_same _ _ _ _
    rw [h, hq]
    rfl
  have hx : v.ctxs = s.ctxs ∧ v.ctxCores = s.ctxCores := by
    rw [hv]
    exact ⟨hw.ctxs, hw.ctxCores⟩
  rw [← hv] at e ho
  obtain ⟨h1, h2⟩ := State.report_driver v ag
    (by
      rw [hr, hgo, hp]
      show ((State.ctx _ (s.groupOf ag).ctx).toHandler p.fail.kind ((s.splitOf ag).status == .trapped)
        && State.stateOn _ (s.groupOf ag).ctx ag.core != .evicted) = false
      simpa only [State.ctx, State.stateOn, State.ctxCore, hx.1, hx.2] using hh)
    (by rw [hr]; exact hk) ho
  rw [e]
  refine ⟨?_, fun h => ?_⟩
  · rw [h1, hv]
    show Tab.put (Tab.put u.groups _ _) _ ((State.groupOf (State.setSplitOf _ _ _) ag).haltLoop) = Tab.put s.groups _ _
    rw [Tab.put_put, hw.groups, State.groupOf_setSplitOf, hg, hp]
  · rw [h2, hv]
    exact hw.wf h

end Sys2Proof.Machine
end

