-- ==== Sys2Proof/Laws/Lane.lean ====
section
/-! SUPPORT. What a lane word comes to at issue: it runs once its fetch, its fields and its windows pass; a body that changes the
registers of its group leaves the frame of R7; and what entering accesses changes (R7, R14, R36, R37, R263). -/

namespace Sys2Proof.Machine

open Sys2Proof.Safety

/-- A lane word that passes its checks runs. -/
theorem laneIssue_go {op : Nat} {w : LaneWord} {wins : List (Nat × Nat)} {ok : Bool} {go : State → Out} {s : State}
    (h : LaneReady op w wins s) (hk : ok = true) : laneIssue op w wins ok go s = go s := by
  have ha : inAlloc s.curGroup wins = true := by
    simp only [inAlloc, List.all_eq_true, decide_eq_true_eq]
    intro p hp
    exact h.alloc p hp
  simp [laneIssue, h.fetch, h.legal, hk, ha, h.free]

/-- A lane word whose fields or windows are illegal takes ILLEGAL_OPERAND (R36). -/
theorem laneIssue_bad {op : Nat} {w : LaneWord} {wins : List (Nat × Nat)} {ok : Bool} {go : State → Out} {s : State}
    (hf : (s.headOf s.cur).fail = none) (h : (laneLegal op w && ok && inAlloc s.curGroup wins) = false) :
    laneIssue op w wins ok go s = .next (s.laneTrap .illegalOperand) := by
  simp [laneIssue, hf, h]

/-- A lane word one of whose registers the scoreboard holds waits (R14). -/
theorem laneIssue_held {op : Nat} {w : LaneWord} {wins : List (Nat × Nat)} {ok : Bool} {go : State → Out} {s : State}
    (hf : (s.headOf s.cur).fail = none) (hl : (laneLegal op w && ok && inAlloc s.curGroup wins) = true)
    (h : s.held s.cur (wins ++ tileWins op w) = true) : laneIssue op w wins ok go s = .next s := by
  simp only [laneIssue, hf, hl, h, Bool.not_true, Bool.false_eq_true, if_false, if_true, hold]

/-- The split after a lane word has issued. -/
def Split.issued (sp : Split) (sw : Bool) (tick : Nat) : Split :=
  { sp with
    queue := sp.queue.drop 1, headFault := false, headMask := 0, lastTry := if sp.headFault then none else sp.lastTry, swPark := sw, ageL := tick }

/-- With no scalar fault to make, the word leaves the queue and nothing else happens (R7, R37). -/
theorem State.laneDone_eq {s : State} (h : s.curSplit.drain = none) (sw : Bool) :
    s.laneDone sw = s.setSplitOf s.cur (s.curSplit.issued sw s.tick) := by
  have e : s.modCur (fun sp => sp.issued sw s.tick) = s.setSplitOf s.cur (s.curSplit.issued sw s.tick) := rfl
  have hd : ((s.setSplitOf s.cur (s.curSplit.issued sw s.tick)).splitOf s.cur).drain = none := by
    rw [State.splitOf_setSplitOf]
    exact h
  show (s.modCur fun sp => sp.issued sw s.tick).finishDrain s.cur false = _
  rw [e, State.finishDrain]
  simp only [hd]

/-- A body that leaves the group's splits alone is followed by the word leaving the queue. -/
theorem State.modGroup_laneDone {s : State} {f : Group → Group} (hs : ∀ g, (f g).splits = g.splits) (h : s.curSplit.drain = none)
    (sw : Bool) :
    (s.modGroup s.cur f).laneDone sw = s.setGroupOf s.cur ((f s.curGroup).setSplit s.cur.split (s.curSplit.issued sw s.tick)) := by
  have hg : (s.modGroup s.cur f).curGroup = f s.curGroup := by
    show (s.setGroupOf s.cur (f (s.groupOf s.cur))).groupOf s.cur = _
    rw [State.groupOf_setGroupOf]
    rfl
  have hsp : (s.modGroup s.cur f).curSplit = s.curSplit := by
    show ((s.modGroup s.cur f).curGroup).split s.cur.split = _
    rw [hg]
    show Tab.get Split.empty (f s.curGroup).splits _ = _
    rw [hs]
    rfl
  have hd : (s.modGroup s.cur f).curSplit.drain = none := by rw [hsp]; exact h
  rw [State.laneDone_eq hd, hsp]
  show (s.modGroup s.cur f).setGroupOf s.cur (((s.modGroup s.cur f).groupOf s.cur).setSplit _ _) = _
  rw [show (s.modGroup s.cur f).groupOf s.cur = f s.curGroup from hg]
  simp only [State.modGroup, State.setGroupOf, State.setGroup, Tab.put_put]

/-- A lane word that changes only the registers of its group: once ready it completes with the frame of R7, and its group holds what
its body makes of it. -/
theorem laneWord_go {op : Nat} {w : LaneWord} {wins : List (Nat × Nat)} {ok : Bool} {body : LaneEnv → Group → Group} {s : State}
    (h : LaneReady op w wins s) (hk : ok = true) (hs : ∀ g, (body (s.laneEnv w) g).splits = g.splits) :
    ∃ t, laneWord op w wins ok body s = .next t ∧ LaneFrame s t w
      ∧ t.curGroup = (body (s.laneEnv w) s.curGroup).setSplit s.cur.split (s.curSplit.issued w.sw s.tick) := by
  refine ⟨s.setGroupOf s.cur ((body (s.laneEnv w) s.curGroup).setSplit s.cur.split (s.curSplit.issued w.sw s.tick)), ?_, ?_, ?_⟩
  · unfold laneWord
    rw [laneIssue_go h hk, State.modGroup_laneDone hs h.drain]
  · have hg : (s.setGroupOf s.cur ((body (s.laneEnv w) s.curGroup).setSplit s.cur.split (s.curSplit.issued w.sw s.tick))).curGroup
        = (body (s.laneEnv w) s.curGroup).setSplit s.cur.split (s.curSplit.issued w.sw s.tick) := State.groupOf_setGroupOf _ _ _
    refine ⟨fun k => rfl, rfl, fun c k hne => ?_, fun n hn => ?_, ?_⟩
    · simp only [State.setGroupOf, State.setGroup, State.group]
      rw [Tab.get_put_ne _ _ _ (Ne.symm hne)]
    · rw [hg]
      simp only [Group.setSplit, Group.split]
      rw [Tab.get_put_ne _ _ _ (Ne.symm hn), hs]
    · show (State.curGroup _).split s.cur.split = _
      rw [hg, Group.split_setSplit_same]
      rfl
  · exact State.groupOf_setGroupOf _ _ _

/-! ### Entering accesses (R263) -/

theorem State.enterAs_foldl (wid : Nat) (es : List Entry) (s : State) :
    es.foldl (fun t e => t.enterAs wid e) s
      = { s with ents := s.ents ++ es.mapIdx (fun i x => { x with id := s.nextId + i, wid := wid }), nextId := s.nextId + es.length } := by
  induction es generalizing s with
  | nil => simp
  | cons e es ih =>
    rw [List.foldl_cons, ih]
    simp only [State.enterAs, List.mapIdx_cons, List.append_assoc, List.cons_append, List.nil_append, List.length_cons, Nat.add_zero]
    congr 1
    · congr 2
      apply List.ext_getElem
      · simp
      · intro i h1 h2
        simp [Nat.add_assoc, Nat.add_comm 1]
    · omega

/-- Entering the accesses of a word appends them with the next identities, as the youngest of the machine, and changes nothing else. -/
theorem State.enterAll_eq (s : State) (es : List Entry) :
    s.enterAll es = { s with ents := s.ents ++ Stamped s es, nextId := s.nextId + es.length } := by
  unfold State.enterAll
  rw [State.enterAs_foldl]
  rfl

end Sys2Proof.Machine
end

