-- ==== Sys2Proof/Laws/Scalar.lean ====
section
/-! SUPPORT. What a write of the running split changes, what a scalar word comes to once its fields are legal and its sources
have landed, and the frames that follow (R16, R277, R278, R284). -/

namespace Sys2Proof.Machine

/-! ### Writing the split of an agent -/

theorem State.setSplitOf_setSplitOf (s : State) (ag : Agent) (a b : Split) :
    (s.setSplitOf ag a).setSplitOf ag b = s.setSplitOf ag b := by
  simp [State.setSplitOf, State.setGroupOf, State.setGroup, State.groupOf, State.group, Group.setSplit, Tab.put_put]

theorem State.curSplit_setSplitOf (s : State) (a : Split) : (s.setSplitOf s.cur a).curSplit = a :=
  State.splitOf_setSplitOf _ _ _

theorem State.curGroup_setSplitOf (s : State) (a : Split) :
    (s.setSplitOf s.cur a).curGroup = s.curGroup.setSplit s.cur.split a :=
  State.groupOf_setSplitOf _ _ _

/-- Two changes of the running split are one. -/
theorem State.modCur_modCur (s : State) (f g : Split → Split) : (s.modCur f).modCur g = s.modCur fun sp => g (f sp) := by
  show (s.modCur f).setSplitOf s.cur (g ((s.modCur f).splitOf s.cur)) = _
  simp only [State.modCur, State.modSplit, State.splitOf_setSplitOf, State.setSplitOf_setSplitOf]

/-- A write of the running split changes nothing else. -/
theorem State.setSplitOf_frame (s : State) (sq : Split) :
    Safety.SameBytes s (s.setSplitOf s.cur sq) ∧ Safety.GroupsOnly s (s.setSplitOf s.cur sq)
      ∧ Safety.OtherSlots s (s.setSplitOf s.cur sq) ∧ Safety.SplitAlone s (s.setSplitOf s.cur sq) := by
  refine ⟨fun k => rfl, rfl, fun c k h => ?_, ?_, fun n h => ?_⟩
  · simp only [State.setSplitOf, State.setGroupOf, State.setGroup, State.group]
    rw [Tab.get_put_ne _ _ _ (Ne.symm h)]
  · rw [State.curGroup_setSplitOf]
    rfl
  · rw [State.curGroup_setSplitOf]
    simp only [Group.setSplit, Group.split]
    rw [Tab.get_put_ne _ _ _ (Ne.symm h)]

/-! ### Completing a scalar word -/

/-- A scalar word that completes writes the running split once. -/
theorem State.finish_eq (s : State) (f : Split → Split) :
    s.finish f = .next (s.setSplitOf s.cur
      { (f s.curSplit).fallTo s.curGroup.sbase ((f s.curSplit).spc + 4) with ageS := s.tick }) := by
  simp [State.finish, State.advance, State.modCur, State.modSplit, State.setSplitOf_setSplitOf, State.splitOf_setSplitOf,
    State.groupOf_setSplitOf, State.curSplit, State.curGroup]

/-- The frame of a scalar word whose change `f` of its split touches registers and the flag alone. -/
theorem State.finish_frame (s : State) (f : Split → Split) (ds as_ : List Nat)
    (hf : f s.curSplit = { s.curSplit with s := (f s.curSplit).s, a := (f s.curSplit).a, flag := (f s.curSplit).flag })
    (hs : ∀ n, n ∉ ds → (f s.curSplit).sreg n = s.curSplit.sreg n)
    (ha : ∀ n, n ∉ as_ → (f s.curSplit).areg n = s.curSplit.areg n) :
    ∃ t, s.finish f = .next t ∧ Safety.ScalarFrame s t ds as_ ∧ Safety.FallsThrough s t
      ∧ t.curSplit.s = (f s.curSplit).s ∧ t.curSplit.a = (f s.curSplit).a ∧ t.curSplit.flag = (f s.curSplit).flag := by
  refine ⟨_, State.finish_eq s f, ?_⟩
  have h5 := State.curSplit_setSplitOf s { (f s.curSplit).fallTo s.curGroup.sbase ((f s.curSplit).spc + 4) with ageS := s.tick }
  obtain ⟨h1, h2, h3, h4⟩ :=
    State.setSplitOf_frame s { (f s.curSplit).fallTo s.curGroup.sbase ((f s.curSplit).spc + 4) with ageS := s.tick }
  have k1 : (f s.curSplit).spc = s.curSplit.spc := by rw [hf]
  have k2 : (f s.curSplit).lpc = s.curSplit.lpc := by rw [hf]
  have k3 : (f s.curSplit).loops = s.curSplit.loops := by rw [hf]
  refine ⟨⟨⟨h1, h3, h4, ?_, ?_, ?_⟩, h2⟩, ?_, ?_, ?_, ?_⟩
  · rw [h5]
    unfold Safety.SplitFrame
    simp only [Split.fallTo]
    generalize hq : f s.curSplit = q at *
    rw [hf]
  · intro n hn
    rw [h5]
    exact hs n hn
  · intro n hn
    rw [h5]
    exact ha n hn
  · unfold Safety.FallsThrough Safety.FallsFrom
    rw [h5]
    simp [Split.fallTo, k1, k2, k3]
  all_goals rw [h5]; rfl

/-- A scalar word with legal fields whose sources have landed runs. -/
theorem scalarWord_go {ok : Bool} {reads : List Nat} {go : State → Out} {s : State} (h : ok = true)
    (hl : Safety.Landed s reads) : scalarWord ok reads go s = go s := by
  have : reads.any (s.awaits s.cur) = false := by
    rw [List.any_eq_false]
    intro n hn
    simp [hl n hn]
  simp [scalarWord, h, this]

/-- A scalar word with an illegal field takes ILLEGAL_OPERAND. -/
theorem scalarWord_bad {ok : Bool} {reads : List Nat} {go : State → Out} {s : State} (h : ok = false) :
    scalarWord ok reads go s = .next (s.scalarTrap .illegalOperand) := by
  simp [scalarWord, h, illegalOperand]

theorem srcVal_eq (sp : Split) (b : BitVec 6) (imm : Bool) :
    srcVal sp b imm = if imm then BitVec.ofNat 32 b.toNat else sp.sreg b.toNat := by
  cases imm <;> simp [srcVal]

theorem srcReads_eq (b : BitVec 6) (imm : Bool) : srcReads b imm = if imm then [] else [b.toNat] := by
  cases imm <;> simp [srcReads]

theorem Split.spair_setPair (sp : Split) (d : Nat) (v : DWord) : (sp.setPair d v).spair d = v := by
  unfold Split.spair
  rw [Split.sreg_setPair, Split.sreg_setPair]
  simp only [Nat.left_eq_add, one_ne_zero, if_false, if_true, pair, hiW, loW, Nat.succ_ne_self]
  ext i hi
  simp only [BitVec.getElem_append, BitVec.getElem_setWidth, BitVec.getLsbD_ushiftRight]
  split
  · simp [BitVec.getLsbD_eq_getElem, hi]
  · rw [show 32 + (i - 32) = i by omega, BitVec.getLsbD_eq_getElem hi]

/-- A change that writes one scalar register and the flag (R278). -/
theorem writesS_finish {s : State} {f : Split → Split} {d : Nat} {v : Word} {flag : Bool}
    (hf : f s.curSplit = { s.curSplit.setS d v with flag := flag }) :
    ∃ t, s.finish f = .next t ∧ Safety.ScalarFrame s t [d] [] ∧ Safety.FallsThrough s t ∧ t.curSplit.sreg d = v
      ∧ t.curSplit.flag = flag := by
  obtain ⟨t, h1, h2, h3, h4, h5, h6⟩ := State.finish_frame s f [d] [] (by rw [hf]; rfl)
    (by
      intro n hn
      rw [hf]
      simp only [List.mem_singleton] at hn
      show (s.curSplit.setS d v).sreg n = _
      rw [Split.sreg_setS]
      simp [Ne.symm hn])
    (by intro n hn; rw [hf]; rfl)
  refine ⟨t, h1, h2, h3, ?_, by rw [h6, hf]⟩
  unfold Split.sreg
  rw [h4, hf]
  exact Split.sreg_setS_same _ _ _

/-- A change that writes one pair (R278). -/
theorem writesPair_finish {s : State} {f : Split → Split} {d : Nat} {v : DWord} (hf : f s.curSplit = s.curSplit.setPair d v) :
    ∃ t, s.finish f = .next t ∧ Safety.ScalarFrame s t [d, d + 1] [] ∧ Safety.FallsThrough s t ∧ t.curSplit.spair d = v
      ∧ t.curSplit.flag = s.curSplit.flag := by
  obtain ⟨t, h1, h2, h3, h4, h5, h6⟩ := State.finish_frame s f [d, d + 1] [] (by rw [hf]; rfl)
    (by
      intro n hn
      rw [hf]
      simp only [List.mem_cons, List.not_mem_nil, or_false, not_or] at hn
      rw [Split.sreg_setPair]
      simp [Ne.symm hn.1, Ne.symm hn.2])
    (by intro n hn; rw [hf]; rfl)
  refine ⟨t, h1, h2, h3, ?_, by rw [h6, hf]; rfl⟩
  unfold Split.spair Split.sreg
  rw [h4, hf]
  exact Split.spair_setPair _ _ _

/-- A change that writes one affine register (R166). -/
theorem writesA_finish {s : State} {f : Split → Split} {d : Nat} {v : Affine} (hf : f s.curSplit = s.curSplit.setA d v) :
    ∃ t, s.finish f = .next t ∧ Safety.ScalarFrame s t [] [d] ∧ Safety.FallsThrough s t ∧ t.curSplit.areg d = v
      ∧ t.curSplit.flag = s.curSplit.flag := by
  obtain ⟨t, h1, h2, h3, h4, h5, h6⟩ := State.finish_frame s f [] [d] (by rw [hf]; rfl) (by intro n hn; rw [hf]; rfl)
    (by
      intro n hn
      rw [hf]
      simp only [List.mem_singleton] at hn
      rw [Split.areg_setA]
      simp [Ne.symm hn])
  refine ⟨t, h1, h2, h3, ?_, by rw [h6, hf]; rfl⟩
  unfold Split.areg
  rw [h5, hf]
  show (s.curSplit.setA d v).areg d = v
  rw [Split.areg_setA]
  simp

end Sys2Proof.Machine
end

