-- ==== Sys2Proof/WellFormed.lean ====
section
/-! DEFINITION. Well-formed instructions: the fields of a word are none that raise ILLEGAL_OPERAND whatever the state is
(R18-R33 and the entries), and what a step without an encoding names exists on the machine. A word that is not well formed
still has its meaning: it raises ILLEGAL_OPERAND. -/

namespace Sys2Proof

open Sys2Proof.Machine

/-- A status item that exists (R162). -/
def itemOk (item : BitVec 8) : Bool :=
  item.toNat ≤ 0x15 || (0x18 ≤ item.toNat && item.toNat ≤ 0x1B) || (0x20 ≤ item.toNat && item.toNat ≤ 0x28)
  || (0x30 ≤ item.toNat && item.toNat < 0x40)

/-- An immediate granule count of REGGROW or REGSHRINK (R152). -/
def growOk (b : BitVec 6) (imm : Bool) (most : Nat) : Bool := !imm || (0 < b.toNat && b.toNat ≤ most)

/-- A field that names the first of four scalar registers (R143, R144). -/
def quadOk (r : BitVec 6) : Bool := r.toNat % 4 == 0

/-- A split of the package (R2, R305, R314). -/
def agentOk (ag : Agent) : Bool := ag.core < 256 && ag.slot < 64 && ag.split < 8

/-- A stripe group of a fibre pair (R102). -/
def linkOk (fibre grp : Nat) : Bool := fibre < 64 && grp < 4

/-- The instruction is well formed. -/
def Instr.wf (i : Instr) : Bool :=
  match i with
  | .br _ => true
  | .brc _ _ _ => true
  | .brv _ _ tgt join => tgt != 0 && join != 0 && join.toNat < 1024
  | .call _ => true
  | .ret a => pairOk a
  | .exit => true
  | .loop cnt fin => cnt != 0 && 2 ≤ fin.toNat
  | .loopr _ fin => 2 ≤ fin.toNat
  | .lbrk => true
  | .lrun cnt => cnt != 0
  | .ljmp _ => true
  | .sadd _ _ _ _ => true
  | .ssub _ _ _ _ => true
  | .smul _ _ _ _ => true
  | .smulh _ _ _ _ _ => true
  | .sand _ _ _ _ => true
  | .sor _ _ _ _ => true
  | .sxor _ _ _ _ => true
  | .sshl _ _ _ _ => true
  | .sshr _ _ _ _ => true
  | .ssra _ _ _ _ => true
  | .smin _ _ _ _ _ => true
  | .smax _ _ _ _ _ => true
  | .scmp _ _ _ _ cond _ => cond.toNat < 6
  | .ssel _ _ _ => true
  | .smovi _ _ => true
  | .slui _ _ => true
  | .slea d _ => pairOk d
  | .sld _ a _ => pairOk a
  | .sst _ a _ => pairOk a
  | .sget _ item => itemOk item
  | .sset _ item => item == 0x00 || item == 0x20
  | .amov d a _ => affOk d && pairOk a
  | .aadd d _ _ => affOk d
  | .aadda d a _ _ => affOk d && affOk a
  | .ascl d _ _ => affOk d
  | .ashl d _ _ => affOk d
  | .astr d _ _ => affOk d
  | .aget d a str => affOk a && (str || pairOk d)
  | .reggrow b imm _ => growOk b imm 20
  | .regshrink b imm => growOk b imm 19
  | .idemb => true
  | .ideme => true
  | .phinit a _ => pairOk a
  | .phrole a _ _ => pairOk a
  | .pharr _ a => pairOk a
  | .phwait _ a _ _ => pairOk a
  | .phfree a => pairOk a
  | .evpop d _ => quadOk d
  | .evpost a => quadOk a
  | .launch _ a _ => pairOk a
  | .cancel a h l => levelOk h a l
  | .snop => true
  | .ccnt _ a h l => levelOk h a l
  | .xcopy _ _ => true
  | .xgath _ _ => true
  | .xscat _ _ => true
  | .xred _ _ => true
  | .mhint a tier => pairOk a && tier != 3
  | .heatr _ a _ => pairOk a
  | .trap _ => true
  | .tret => true
  | .sysr d _ => pairOk d
  | .sysw d _ => pairOk d
  | .bkpt _ => true
  | .yield => true
  | .iadd w => laneLegal 0x00 w
  | .isub w => laneLegal 0x01 w
  | .imul w => laneLegal 0x02 w
  | .imulh w => laneLegal 0x03 w
  | .imad w => laneLegal 0x04 w
  | .imadw w => laneLegal 0x05 w
  | .iaddx w => laneLegal 0x06 w
  | .imin w => laneLegal 0x07 w
  | .imax w => laneLegal 0x08 w
  | .iabs w => laneLegal 0x09 w
  | .and w => laneLegal 0x0A w
  | .or w => laneLegal 0x0B w
  | .xor w => laneLegal 0x0C w
  | .andn w => laneLegal 0x0D w
  | .shl w => laneLegal 0x0E w
  | .shr w => laneLegal 0x0F w
  | .sra w => laneLegal 0x10 w
  | .rot w => laneLegal 0x11 w
  | .bfx w => laneLegal 0x12 w
  | .bfi w => laneLegal 0x13 w
  | .popc w => laneLegal 0x14 w
  | .clz w => laneLegal 0x15 w
  | .icmp w => laneLegal 0x16 w
  | .fadd w => laneLegal 0x20 w
  | .fsub w => laneLegal 0x21 w
  | .fmul w => laneLegal 0x22 w
  | .ffma w => laneLegal 0x23 w
  | .fmin w => laneLegal 0x24 w
  | .fmax w => laneLegal 0x25 w
  | .fcmp w => laneLegal 0x26 w
  | .frcp w => laneLegal 0x27 w
  | .frsq w => laneLegal 0x28 w
  | .fexp2 w => laneLegal 0x29 w
  | .flog2 w => laneLegal 0x2A w
  | .fscl w => laneLegal 0x2B w
  | .frnd w => laneLegal 0x2C w
  | .fclass w => laneLegal 0x2D w
  | .dp4 w => laneLegal 0x30 w
  | .dp8 w => laneLegal 0x31 w
  | .dph2 w => laneLegal 0x32 w
  | .cvt w => laneLegal 0x34 w
  | .cvti w => laneLegal 0x35 w
  | .pack w => laneLegal 0x36 w
  | .unpk w => laneLegal 0x37 w
  | .sel w => laneLegal 0x38 w
  | .plog w => laneLegal 0x39 w
  | .vote w => laneLegal 0x3A w
  | .pmov w => laneLegal 0x3B w
  | .mov w => laneLegal 0x3C w
  | .movi w => laneLegal 0x3D w
  | .shuf w => laneLegal 0x3E w
  | .gath w => laneLegal 0x3F w
  | .redl w => laneLegal 0x40 w
  | .scanl w => laneLegal 0x41 w
  | .mloop w => laneLegal 0x48 w
  | .tstore w => laneLegal 0x49 w
  | .tmset w => laneLegal 0x4A w
  | .tmlog w => laneLegal 0x4B w
  | .sigh w => laneLegal 0x4C w
  | .parc w => laneLegal 0x4D w
  | .pcomp w => laneLegal 0x4E w
  | .scat w => laneLegal 0x4F w
  | .psum w => laneLegal 0x50 w
  | .plat w => laneLegal 0x51 w
  | .ld w => laneLegal 0x58 w
  | .st w => laneLegal 0x59 w
  | .lde w => laneLegal 0x5A w
  | .ldl w => laneLegal 0x5B w
  | .stl w => laneLegal 0x5C w
  | .prf w => laneLegal 0x5D w
  | .atom w => laneLegal 0x5E w
  | .atomr w => laneLegal 0x5F w
  | .fence w => laneLegal 0x60 w
  | .ltrap w => laneLegal 0x68 w
  | .lnop w => laneLegal 0x69 w
  | .splitEnd ag => agentOk ag
  | .joinMerge core slot _ => core < 256 && slot < 64
  | .escortDepart ag => agentOk ag
  | .completeLoad _ => true
  | .commit _ => true
  | .perform _ => true
  | .fill core _ ctx _ => core < 256 && ctx < 1024
  | .drop core _ ctx _ => core < 256 && ctx < 1024
  | .l1StoreTimeout core _ => core < 256
  | .promoteProbe _ => true
  | .requestAtOwner _ => true
  | .serviceGroupAtomic _ _ => true
  | .heatDecay die => die < 4
  | .tlbsync die ctx _ => die < 4 && ctx < 1024
  | .tlbsyncComplete die => die < 4
  | .recheck die ctx => die < 4 && ctx < 1024
  | .keyset die ctx => die < 2048 && ctx < 1024
  | .keyclr die ctx => die < 2048 && ctx < 1024
  | .mtstatWrite die _ => die < 4
  | .leaseRequest _ desc => desc < 64
  | .leaseRelease _ => true
  | .moveOrder die => die < 4
  | .cancelOrder die => die < 4
  | .hint die => die < 4
  | .copyLine die tid _ => die < 4 && tid < 4096
  | .moveAbort die tid => die < 4 && tid < 4096
  | .txrtailWrite die _ => die < 4
  | .frameBoundary => true
  | .driftLoopPass die => die < 4
  | .flitReceive fibre grp _ _ _ => linkOk fibre grp
  | .flitAck fibre grp _ => linkOk fibre grp
  | .wavelengthLoss fibre grp _ _ => linkOk fibre grp
  | .restripeNotice fibre grp => linkOk fibre grp
  | .linkRestore fibre grp _ _ => linkOk fibre grp
  | .portLinkDown port => 0 < port && port < 4
  | .hostHdmAccess _ _ data => data.length ≤ 128
  | .jobStart cluster _ => cluster < 32
  | .jobComplete cluster _ => cluster < 32
  | .eqbaseWrite _ => true
  | .eqheadWrite _ => true
  | .reggrowRetry core => core < 256
  | .regshrinkRelease ag => agentOk ag
  | .mloopAdmit core slot => core < 256 && slot < 64
  | .mloopStep core slot => core < 256 && slot < 64
  | .arrayWordFinish core slot => core < 256 && slot < 64
  | .phaserArrive _ => true
  | .dsitailWrite _ => true
  | .dsiEntry => true
  | .openHandle level _ _ => level.toNat < 5
  | .closeHandle _ => true
  | .retireHandle _ => true
  | .unitPlace _ => true
  | .launchComplete _ => true
  | .watchdogExpiry ctx => ctx < 1024
  | .deferredFaultReport ag => agentOk ag
  | .resumeRetry ctx _ => ctx < 1024
  | .resumeSkip ctx _ => ctx < 1024
  | .resumeEnd ctx _ => ctx < 1024
  | .resumeReplay ag => agentOk ag
  | .query ctx _ core => ctx < 1024 && core < 256
  | .preempt ctx _ core => ctx < 1024 && core < 256
  | .halt ctx _ core => ctx < 1024 && core < 256
  | .run ctx _ core => ctx < 1024 && core < 256
  | .evict ctx _ core => ctx < 1024 && core < 256
  | .evictSave ctx core => ctx < 1024 && core < 256
  | .restore ctx _ core => ctx < 1024 && core < 256
  | .restorePlace ctx core => ctx < 1024 && core < 256
  | .fire => true
  | .snpstatRelease => true
  | .powerSample _ _ _ _ => true
  | .teltimeLatch => true
  | .functionReady bit => bit < 64
  | .writeRegister _ _ => true
  | .illegalOp => true
  | .powerOn => true
  | .ptpLock _ _ => true
  | .peerLost node => node < 512
  | .debuggerTrigger => true

end Sys2Proof
end

