-- ==== Sys2Proof/Tests/Slice0.lean ====
section
/-! SUPPORT. Tests: ill-formed terms, words written out from the spec's encodings, the spec's worked examples, and for each
statement concrete states that meet its hypotheses. -/

namespace Sys2Proof.Tests

open Sys2Proof.Machine Sys2Proof.Safety

set_option maxRecDepth 100000

/-! ### Small states -/

/-- The state that an outcome leaves, if it leaves one that `p` accepts. -/
def leaves (o : Host.Outcome State Fault Refusal) (p : State → Bool) : Bool :=
  match o with
  | .next t => p t
  | _ => false

/-- A lane word with no field set. -/
def lw : LaneWord := ⟨false, 0, 0, false, 0, 0, 0, 0, 0, 0, 0, 0, 0, 0⟩

/-- One running split with every lane. -/
def spl : Split := { Split.empty with status := .running, mask := Mask.full, uid := 1 }

/-- Its group: 20 granules, split 0. -/
def grp (sp : Split) : Group := { Group.empty with live := true, launch := 1, unit := 1, g := 20, splits := [(0, sp)] }

/-- One group in slot 0 of core 0, of context 0, which runs there. -/
def one (g : Group) : State :=
  { State.reset with groups := [(0, g)], ctxCores := [(0, { CtxCore.empty with state := .running })] }

/-- The state about a split, and that about a lane word at the head of its queue. -/
def of (sp : Split) : State := one (grp sp)
def base : State := of spl
def withLane (b : LBits) (sp : Split) : Split := { sp with queue := [⟨b, 0, ⟨0, 0, 0⟩, ⟨0, 0, 0⟩, ⟨0, 0, 0⟩, none, 0, none⟩] }
def lane (g : Group) : State := { one g with curLane := true }
def laneOf (b : LBits) : State := lane (grp (withLane b spl))

/-- The lane word's value in vector register `d`, lane 0, after the word `b` at the head of the queue has run in a group with
the vector registers `v`, the format slots `slots` and the predicates `p`. -/
def laneRun (b : LBits) (v : Tab Word) (slots : Tab Word) (d l : Nat) : Option Word :=
  match exec (decodeLane b) (lane { grp (withLane b spl) with v := v, slots := slots }) with
  | .next t => some (t.curGroup.vreg d l)
  | _ => none

/-- What LaneReady asks, as a test. -/
def ready (op : Nat) (w : LaneWord) (wins : List (Nat × Nat)) (s : State) : Bool :=
  s.curSplit.queue != [] && (s.headOf s.cur).fail == none && laneLegal op w && wins.all (fun p => p.1 + p.2 ≤ 32 * s.curGroup.g)
    && !s.held s.cur (wins ++ tileWins op w) && s.curSplit.drain == none

theorem ready_laneReady {op : Nat} {w : LaneWord} {wins : List (Nat × Nat)} {s : State} (h : ready op w wins s = true) :
    LaneReady op w wins s := by
  simp only [ready, Bool.and_eq_true, bne_iff_ne, beq_iff_eq, List.all_eq_true, decide_eq_true_eq, Bool.not_eq_true'] at h
  exact ⟨h.1.1.1.1.1, h.1.1.1.1.2, h.1.1.1.2, h.1.1.2, h.1.2, h.2⟩

/-! ### Ill-formed terms, one for each check of WellFormed -/

theorem test_wf_scalar : [Instr.brv 0 false 0 1, .brv 0 false 1 0, .brv 0 false 1 1024, .ret 3, .loop 0 2, .loop 1 1, .loopr 0 1,
    .lrun 0, .scmp 0 0 0 false 6 false, .slea 1 0, .sld 0 1 0, .sst 0 1 0, .sget 0 0x16, .sset 0 1, .amov 32 0 0, .amov 0 1 0,
    .aadd 32 0 false, .aadda 0 32 0 false, .ascl 32 0 false, .ashl 32 0 false, .astr 32 0 false, .aget 0 32 true, .aget 1 0 false,
    .reggrow 0 true false, .reggrow 21 true false, .regshrink 20 true, .phinit 1 0, .phrole 1 0 0, .pharr 0 1, .phwait 0 1 0 false,
    .phfree 1, .evpop 2 false, .evpost 1, .launch 0 1 false, .cancel 0 true 1, .cancel 0 false 5, .ccnt 0 1 false 0, .mhint 0 3,
    .mhint 1 0, .heatr 0 1 false, .sysr 1 0, .sysw 1 0].all (fun i => !i.wf) = true := by decide

theorem test_wf_lane : [Instr.iadd { lw with fn := 6 }, .imul { lw with rm := 1 }, .icmp { lw with mod := 12 }, .iabs { lw with fn := 1 },
    .fadd { lw with fn := 3 }, .fmin { lw with rm := 1 }, .dp4 { lw with fn := 1 }, .cvt { lw with fn := 6 }, .movi { lw with fn := 1 },
    .plog { lw with fn := 8 }, .vote { lw with fn := 5 }, .pmov { lw with fn := 5 }, .shuf { lw with mod := 1 },
    .redl { lw with fn := 12 }, .ld { lw with fn := 7, a := 704, b := 736 }, .prf { lw with fn := 2, a := 704, b := 736 },
    .ldl { lw with a := 704 }, .fence { lw with fn := 4 }, .ltrap { lw with d := 1 }].all (fun i => !i.wf) = true := by decide

theorem test_wf_event : [Instr.splitEnd ⟨256, 0, 0⟩, .escortDepart ⟨0, 64, 0⟩, .regshrinkRelease ⟨0, 0, 8⟩, .joinMerge 256 0 0,
    .joinMerge 0 64 0, .fill 256 .generic 0 0, .fill 0 .generic 1024 0, .drop 0 .generic 1024 0, .l1StoreTimeout 256 0, .heatDecay 4,
    .tlbsync 0 1024 false, .tlbsyncComplete 4, .recheck 4 0, .keyset 2048 0, .keyclr 0 1024, .mtstatWrite 4 0, .leaseRequest 0 64,
    .moveOrder 4, .cancelOrder 4, .hint 4, .copyLine 0 4096 .clean, .moveAbort 0 4096, .txrtailWrite 4 0, .driftLoopPass 4,
    .flitReceive 64 0 0 true true, .flitAck 0 4 0, .wavelengthLoss 64 0 false 0, .restripeNotice 0 4, .linkRestore 64 0 false 0,
    .portLinkDown 0, .portLinkDown 4, .hostHdmAccess false 0 (List.replicate 129 0), .jobStart 32 0, .jobComplete 32 0,
    .reggrowRetry 256, .mloopAdmit 256 0, .mloopStep 0 64, .arrayWordFinish 0 64, .openHandle 5 0 0, .watchdogExpiry 1024,
    .deferredFaultReport ⟨0, 0, 8⟩, .resumeRetry 1024 0, .resumeSkip 1024 0, .resumeEnd 1024 0, .resumeReplay ⟨0, 64, 0⟩,
    .query 1024 false 0, .preempt 0 false 256, .halt 0 false 256, .run 1024 false 0, .evict 0 false 256, .evictSave 0 256,
    .restore 1024 false 0, .restorePlace 0 256, .functionReady 64, .peerLost 512].all (fun i => !i.wf) = true := by decide

/-! ### Words written out from the encodings and the listings of the spec decode to what stands beside them -/

/-- The control words, from the forms SR, SB, BRV and SL (R18-R22). -/
theorem test_decode_control : ([
    (0x043FFFFB, Instr.br (-5)),
    (0x0AC00123, .brc 5 true 0x123),
    (0x0F7FE809, .brv 6 true (-3) 9),
    (0x1000004D, .call 77),
    (0x140B0000, .ret 44),
    (0x18000000, .exit),
    (0x1FE8ABCD, .loop 1000 0xABCD),
    (0x20291234, .loopr 41 0x1234),
    (0x24000000, .lbrk),
    (0x2A2B0000, .lrun 555),
    (0x2C3FFFF7, .ljmp (-9))] : List (Nat × Instr)).all (fun p => decodeTableWord 32 p.1 == some p.2) = true := by decide

/-- The scalar ALU words, from SR and SI (R18, R21, R278). -/
theorem test_decode_alu : ([
    (0x405AA180, Instr.sadd 5 42 33 true),
    (0x445AA180, .ssub 5 42 33 true),
    (0x485AA180, .smul 5 42 33 true),
    (0x4C5AA181, .smulh 5 42 33 true true),
    (0x505AA180, .sand 5 42 33 true),
    (0x545AA180, .sor 5 42 33 true),
    (0x585AA180, .sxor 5 42 33 true),
    (0x5C5AA180, .sshl 5 42 33 true),
    (0x605AA180, .sshr 5 42 33 true),
    (0x645AA180, .ssra 5 42 33 true),
    (0x685AA181, .smin 5 42 33 true true),
    (0x6C5AA181, .smax 5 42 33 true true),
    (0x70723289, .scmp 7 8 50 true 4 true),
    (0x77C0C900, .ssel 60 3 9),
    (0x78C03FFE, .smovi 12 (-2)),
    (0x7CD03001, .slui 13 0x3001),
    (0x806FFFFC, .slea 6 (-4))] : List (Nat × Instr)).all (fun p => decodeTableWord 32 p.1 == some p.2) = true := by decide

/-- Scalar memory, status and affine words (R18, R21, R166, R279, R280). -/
theorem test_decode_memory : ([
    (0x841FBFF8, Instr.sld 1 62 (-8)),
    (0x8BF08014, .sst 63 2 20),
    (0x8C900015, .sget 9 0x15),
    (0x90084020, .sset 33 0x20),
    (0xA1F2BFFF, .amov 31 10 (-1)),
    (0xA4301480, .aadd 3 20 true),
    (0xA8415400, .aadda 4 5 20 false),
    (0xAC600780, .ascl 6 7 true),
    (0xB0800900, .ashl 8 9 false),
    (0xB4A00B80, .astr 10 11 true),
    (0xB8C34001, .aget 12 13 true)] : List (Nat × Instr)).all (fun p => decodeTableWord 32 p.1 == some p.2) = true := by decide

/-- The allocation, phaser, event, hierarchy, engine and system words, from their entries and examples (R18-R20). -/
theorem test_decode_system : ([
    (0xC0000481, Instr.reggrow 4 true true),
    (0xC4000500, .regshrink 5 false),
    (0xC8000000, .idemb),
    (0xCC000000, .ideme),
    (0xD0008600, .phinit 2 6),
    (0xD4008004, .phrole 2 1 0),
    (0xD8508000, .pharr 5 2),
    (0xDC608500, .phwait 6 2 5 false),
    (0xE0008000, .phfree 2),
    (0xE4800001, .evpop 8 true),
    (0xE8010000, .evpost 4),
    (0xECA08000, .launch 10 2 false),
    (0xF0000001, .cancel 0 false 1),
    (0xFC000000, .snop),
    (0xFC120001, .ccnt 8 0 false 1),
    (0xFC20C200, .xcopy 3 2),
    (0xFC324A00, .xgath 9 10),
    (0xFC42CC00, .xscat 11 12),
    (0xFC534E00, .xred 13 14),
    (0xFC600401, .mhint 4 1),
    (0xFC724401, .heatr 9 4 true),
    (0xFC8000A5, .trap 0xA5),
    (0xFC900000, .tret),
    (0xFCA20300, .sysr 8 3),
    (0xFCB10200, .sysw 4 2),
    (0xFCC0005A, .bkpt 0x5A),
    (0xFCD00000, .yield),
    (0x00000000, .illegalOp),
    (0xFCE00000, .illegalOp)] : List (Nat × Instr)).all (fun p => decodeTableWord 32 p.1 == some p.2) = true := by decide

/-- A lane word with every field set (R23). -/
def full : LaneWord :=
  ⟨true, 9, 5, true, 0x2A5, 0x19C, 0xB3, 0x355, 0x6E, 0x0F9, 0xD2, 3, 6, 0x1A7⟩

/-- The integer lane words (R23, R33). -/
theorem test_decode_integer : ([
    (0x809BA959CB3D55B8F9D279A7, Instr.iadd full),
    (0x819BA959CB3D55B8F9D279A7, .isub full),
    (0x829BA959CB3D55B8F9D279A7, .imul full),
    (0x839BA959CB3D55B8F9D279A7, .imulh full),
    (0x849BA959CB3D55B8F9D279A7, .imad full),
    (0x859BA959CB3D55B8F9D279A7, .imadw full),
    (0x869BA959CB3D55B8F9D279A7, .iaddx full),
    (0x879BA959CB3D55B8F9D279A7, .imin full),
    (0x889BA959CB3D55B8F9D279A7, .imax full),
    (0x899BA959CB3D55B8F9D279A7, .iabs full),
    (0x8A9BA959CB3D55B8F9D279A7, .and full),
    (0x8B9BA959CB3D55B8F9D279A7, .or full),
    (0x8C9BA959CB3D55B8F9D279A7, .xor full),
    (0x8D9BA959CB3D55B8F9D279A7, .andn full),
    (0x8E9BA959CB3D55B8F9D279A7, .shl full),
    (0x8F9BA959CB3D55B8F9D279A7, .shr full),
    (0x909BA959CB3D55B8F9D279A7, .sra full),
    (0x919BA959CB3D55B8F9D279A7, .rot full),
    (0x929BA959CB3D55B8F9D279A7, .bfx full),
    (0x939BA959CB3D55B8F9D279A7, .bfi full),
    (0x949BA959CB3D55B8F9D279A7, .popc full),
    (0x959BA959CB3D55B8F9D279A7, .clz full),
    (0x969BA959CB3D55B8F9D279A7, .icmp full)] : List (Nat × Instr)).all (fun p => decodeTableWord 96 p.1 == some p.2) = true := by decide

/-- The float lane words (R23, R33). -/
theorem test_decode_float : ([
    (0xA09BA959CB3D55B8F9D279A7, Instr.fadd full),
    (0xA19BA959CB3D55B8F9D279A7, .fsub full),
    (0xA29BA959CB3D55B8F9D279A7, .fmul full),
    (0xA39BA959CB3D55B8F9D279A7, .ffma full),
    (0xA49BA959CB3D55B8F9D279A7, .fmin full),
    (0xA59BA959CB3D55B8F9D279A7, .fmax full),
    (0xA69BA959CB3D55B8F9D279A7, .fcmp full),
    (0xA79BA959CB3D55B8F9D279A7, .frcp full),
    (0xA89BA959CB3D55B8F9D279A7, .frsq full),
    (0xA99BA959CB3D55B8F9D279A7, .fexp2 full),
    (0xAA9BA959CB3D55B8F9D279A7, .flog2 full),
    (0xAB9BA959CB3D55B8F9D279A7, .fscl full),
    (0xAC9BA959CB3D55B8F9D279A7, .frnd full),
    (0xAD9BA959CB3D55B8F9D279A7, .fclass full),
    (0xB09BA959CB3D55B8F9D279A7, .dp4 full),
    (0xB19BA959CB3D55B8F9D279A7, .dp8 full),
    (0xB29BA959CB3D55B8F9D279A7, .dph2 full),
    (0xB49BA959CB3D55B8F9D279A7, .cvt full),
    (0xB59BA959CB3D55B8F9D279A7, .cvti full),
    (0xB69BA959CB3D55B8F9D279A7, .pack full),
    (0xB79BA959CB3D55B8F9D279A7, .unpk full)] : List (Nat × Instr)).all (fun p => decodeTableWord 96 p.1 == some p.2) = true := by decide

/-- The select, cross-lane, array and image words (R23, R33). -/
theorem test_decode_cross : ([
    (0xB89BA959CB3D55B8F9D279A7, Instr.sel full),
    (0xB99BA959CB3D55B8F9D279A7, .plog full),
    (0xBA9BA959CB3D55B8F9D279A7, .vote full),
    (0xBB9BA959CB3D55B8F9D279A7, .pmov full),
    (0xBC9BA959CB3D55B8F9D279A7, .mov full),
    (0xBD9BA959CB3D55B8F9D279A7, .movi full),
    (0xBE9BA959CB3D55B8F9D279A7, .shuf full),
    (0xBF9BA959CB3D55B8F9D279A7, .gath full),
    (0xC09BA959CB3D55B8F9D279A7, .redl full),
    (0xC19BA959CB3D55B8F9D279A7, .scanl full),
    (0xC89BA959CB3D55B8F9D279A7, .mloop full),
    (0xC99BA959CB3D55B8F9D279A7, .tstore full),
    (0xCA9BA959CB3D55B8F9D279A7, .tmset full),
    (0xCB9BA959CB3D55B8F9D279A7, .tmlog full),
    (0xCC9BA959CB3D55B8F9D279A7, .sigh full),
    (0xCD9BA959CB3D55B8F9D279A7, .parc full),
    (0xCE9BA959CB3D55B8F9D279A7, .pcomp full),
    (0xCF9BA959CB3D55B8F9D279A7, .scat full),
    (0xD09BA959CB3D55B8F9D279A7, .psum full),
    (0xD19BA959CB3D55B8F9D279A7, .plat full)] : List (Nat × Instr)).all (fun p => decodeTableWord 96 p.1 == some p.2) = true := by decide

/-- The lane memory, trap and no-operation words, and an unassigned opcode (R23, R33). -/
theorem test_decode_lanemem : ([
    (0xD89BA959CB3D55B8F9D279A7, Instr.ld full),
    (0xD99BA959CB3D55B8F9D279A7, .st full),
    (0xDA9BA959CB3D55B8F9D279A7, .lde full),
    (0xDB9BA959CB3D55B8F9D279A7, .ldl full),
    (0xDC9BA959CB3D55B8F9D279A7, .stl full),
    (0xDD9BA959CB3D55B8F9D279A7, .prf full),
    (0xDE9BA959CB3D55B8F9D279A7, .atom full),
    (0xDF9BA959CB3D55B8F9D279A7, .atomr full),
    (0xE09BA959CB3D55B8F9D279A7, .fence full),
    (0xE89BA959CB3D55B8F9D279A7, .ltrap full),
    (0xE99BA959CB3D55B8F9D279A7, .lnop full),
    (0x979BA959CB3D55B8F9D279A7, .illegalOp)] : List (Nat × Instr)).all (fun p => decodeTableWord 96 p.1 == some p.2) = true := by decide

/-- Words of the spec's examples and listings (files 07, 08, 09, 10, 11 and 19): SLD s7, s4, 4; SST s25, s8, 0; SCMP.eq; PHINIT;
EVPOP; PHWAIT; XCOPY; AADD. -/
theorem test_decode_listing : ([
    (0x84710004, Instr.sld 7 4 4), (0x89920000, .sst 25 8 0), (0x71A64180, .scmp 26 25 1 true 0 false), (0xD0030E00, .phinit 12 14),
    (0xE5C00000, .evpop 28 false), (0xDD830000, .phwait 24 12 0 false), (0xFC258A00, .xcopy 22 10), (0xA4201400, .aadd 2 20 false),
    (0x70408304, .scmp 4 2 3 false 2 false), (0x40514180, .sadd 5 5 1 true)]
    : List (Nat × Instr)).all (fun p => decodeTableWord 32 p.1 == some p.2) = true := by decide

/-- Lane words of the spec's examples: IADD.s8.sat v3, v1, v2; ICMP.lt.s32 p1, v0, s3; FFMA.f32.rm v8, v9, v10, v11; MOVI; SIGH;
ST.s32 [a1 + 128], v1; LDE.s32 v0, [a1 + 0], esc v20:2; LDL.trk v40:2, [s2 + 0]; FENCE.acq.dev; FENCE.sy; LTRAP 5. -/
theorem test_decode_lane_listing : ([
    (0x002000C01000080000000001, Instr.iadd { lw with fn := 2, d := 3, a := 1, b := 2, mod := 1 }),
    (0x16000040000A0C0000000004, .icmp { lw with d := 1, b := 643, mod := 4 }),
    (0x23000200900028000B006000, .ffma { lw with d := 8, a := 9, b := 10, c := 11, rm := 3 }),
    (0x3D0001003F80000000000000, .movi (laneFields 0x3D0001003F80000000000000#96)),
    (0x4C304B2C400B140000000C05, .sigh { lw with fn := 3, d := 300, a := 708, b := 709, fs := 3, mod := 5 }),
    (0x5940006C120B800000000000, .st { lw with fn := 4, d := 1, a := 705, xa := 32, b := 736 }),
    (0x5A40002C100B800014000001, .lde { lw with fn := 4, a := 705, b := 736, c := 20, mod := 1 }),
    (0x5B000A282000040000000008, .ldl { lw with d := 40, a := 642, b := 1, mod := 8 }),
    (0x6000000000000000000000B0, .fence { lw with mod := 0xB0 }), (0x603000000000000000000000, .fence { lw with fn := 3 }),
    (0x680400000000000000000005, .ltrap { lw with pred := 2, mod := 5 })]
    : List (Nat × Instr)).all (fun p => decodeTableWord 96 p.1 == some p.2) = true := by decide

/-- A must-be-zero field that is not zero is no instruction (R21), and a word is stored low byte first (R16). -/
theorem test_decode_refused : [0x04400000, 0x14100000, 0x18000001, 0x20400002, 0x28010001, 0x40000001, 0x70000010, 0x80000000 + 0x0C000000 + 0x4000,
    0xC0100080, 0xCC000001, 0xFC004000].all (fun w => decodeTableWord 32 w == none) = true := by decide
theorem test_decode_order : decodeScalarBytes [0x80, 0x41, 0x51, 0x40] = some (.instr (.sadd 5 5 1 true)) := by decide

/-! ### Worked examples of the spec and hand calculations, one step each -/

/-- The running split after a scalar word of `base` with the scalar registers `r`. -/
def after (i : Instr) (r : Tab Word) (p : Split → Bool) : Bool := leaves (exec i (of { spl with s := r })) fun t => p t.curSplit

/-- Wraps and full-width shifts (R278, by hand). -/
theorem test_sadd_wraps : after (.sadd 3 1 2 false) [(1, 0xFFFFFFFF), (2, 2)] (fun q => q.sreg 3 == 1 && q.spc == 4) = true := by decide
theorem test_ssub_source : after (.ssub 1 1 2 true) [(1, 1)] (fun q => q.sreg 1 == 0xFFFFFFFF) = true := by decide
theorem test_smulh : (after (.smulh 3 1 2 false false) [(1, 0xFFFFFFFF), (2, 2)] (fun q => q.sreg 3 == 0xFFFFFFFF)
    && after (.smulh 3 1 2 false true) [(1, 0xFFFFFFFF), (2, 2)] (fun q => q.sreg 3 == 1)) = true := by decide
theorem test_shifts : (after (.sshl 3 1 32 true) [(1, 1)] (fun q => q.sreg 3 == 0)
    && after (.ssra 3 1 40 true) [(1, 0x80000000)] (fun q => q.sreg 3 == 0xFFFFFFFF)
    && after (.sshr 3 1 31 true) [(1, 0x80000000)] (fun q => q.sreg 3 == 1)) = true := by decide
theorem test_smin_signs : (after (.smin 3 1 2 false false) [(1, 0xFFFFFFFF), (2, 2)] (fun q => q.sreg 3 == 0xFFFFFFFF)
    && after (.smax 3 1 2 false true) [(1, 0xFFFFFFFF), (2, 2)] (fun q => q.sreg 3 == 0xFFFFFFFF)
    && after (.smin 3 1 2 false true) [(1, 0xFFFFFFFF), (2, 2)] (fun q => q.sreg 3 == 2)) = true := by decide
theorem test_scmp : (after (.scmp 3 1 2 false 2 false) [(1, 0x80000000)] (fun q => q.sreg 3 == 1 && q.flag)
    && after (.scmp 3 1 2 false 2 true) [(1, 0x80000000)] (fun q => q.sreg 3 == 0 && !q.flag)) = true := by decide
theorem test_slui : after (.slui 16 0x3FFF) [] (fun q => q.sreg 16 == 0xFFFC0000) = true := by decide
theorem test_aadda : leaves (exec (.aadda 2 1 5 false) (of { spl with a := [(1, ⟨100, 0xFFFFFFFC⟩)], s := [(5, 3)] }))
    (fun t => t.curSplit.areg 2 == ⟨88, 0xFFFFFFFC⟩) = true := by decide

/-- A nest of loops (R284): the inner entry is spent and its END is the outer's, so the outer entry goes round. -/
theorem test_loop_nest : leaves (exec .snop (of { spl with spc := 16, loops := [⟨1, 3, 20, 12⟩, ⟨5, 7, 20, 8⟩] }))
    (fun t => t.curSplit.spc == 8 && t.curSplit.lpc == 7 && t.curSplit.loops == [⟨4, 7, 20, 8⟩]) = true := by decide
theorem test_loopr_zero : leaves (exec (.loopr 1 5) (of { spl with spc := 8 })) (fun t => t.curSplit.spc == 28 && t.curSplit.loops == [])
    = true := by decide

/-- BRV with lanes 0 to 3 in p1: lane 0 takes the branch, so the taken half keeps split 0 and the other is split 1 (R287). -/
theorem test_brv : leaves (exec (.brv 1 false 4 8) (one { grp spl with p := [(1, 0xF)] }))
    (fun t => (t.curGroup.split 0).mask == 0xF && (t.curGroup.split 0).spc == 16 && (t.curGroup.split 1).mask == 0xFFFFFFF0
      && (t.curGroup.split 1).spc == 4) = true := by decide

/-- The rows of the examples of R190: IADD.s8, .s8.sat and .n8.sat on 0x7F80_0105 and 0x0180_FF05. -/
theorem test_iadd_s8 : [laneRun 0x002000C01000080000000000 [(32, 0x7F800105), (64, 0x0180FF05)] [] 3 0,
    laneRun 0x002000C01000080000000001 [(32, 0x7F800105), (64, 0x0180FF05)] [] 3 0,
    laneRun 0x003000C01000080000000001 [(32, 0x7F800105), (64, 0x0180FF05)] [] 3 0]
    = [some 0x8000000A, some 0x7F80000A, some 0x80FFFF0A] := by decide

/-- The example of R201: FFMA.f32 of 1 + 2^-23, itself and -1 under .rm and .rp. -/
theorem test_ffma : [laneRun 0x23000200900028000B006000 [(288, 0x3F800001), (320, 0x3F800001), (352, 0xBF800000)] [] 8 0,
    laneRun 0x23000200900028000B004000 [(288, 0x3F800001), (320, 0x3F800001), (352, 0xBF800000)] [] 8 0]
    = [some 0x34800000, some 0x34800001] := by decide

/-- The examples of R204: DP4 with slot 3 (f8e4, f32) and slot 6 (s8, s32). -/
theorem test_dp4 : [laneRun 0x300005015000580000000C00 [(640, 0x3F800000), (672, 0x38383838), (704, 0x40404040)] [(3, 3)] 20 0,
    laneRun 0x300005015000580000001800 [(640, 0x7FFFFFF0), (672, 0x7F7F7F7F), (704, 0x7F7F7F7F)] [(6, 0x2806)] 20 0,
    laneRun 0x300005015000580000001801 [(640, 0x7FFFFFF0), (672, 0x7F7F7F7F), (704, 0x7F7F7F7F)] [(6, 0x2806)] 20 0]
    = [some 0x41100000, some 0x8000FBF4, some 0x7FFFFFFF] := by decide

/-- The cases of R181 in the five modes: f32 to b16, f8e4, f4e2, h16 and s8. -/
theorem test_conversions : ([(2, 0x3F808000), (2, 0xBF808000), (3, 0x43E80000), (5, 0x40200000), (1, 0x33000000), (6, 0xC0F00000)].map fun p =>
    (List.range 5).map fun rm => conv (BitVec.ofNat 32 p.1) false 0 p.1 p.2 (.fin false 1 0) rm false)
    = [[0x3F80, 0x3F80, 0x3F81, 0x3F80, 0x3F81], [0xBF80, 0xBF80, 0xBF80, 0xBF81, 0xBF81], [0x7E, 0x7E, 0x7F, 0x7E, 0x7E],
       [4, 4, 5, 4, 5], [0, 0, 1, 0, 1], [0xF8, 0xF9, 0xF9, 0xF8, 0xF9]] := by decide

/-- The crossbar examples of R28: v12.rot3 in lane 31, v12.bc5, v12.mir2 in a block of four lanes. -/
theorem test_crossbar : (routed 0x23 (fun l => BitVec.ofNat 32 l) 31, routed 0x45 (fun l => BitVec.ofNat 32 l) 9,
    (List.range 4).map (routed 0x82 fun l => BitVec.ofNat 32 l)) = (2, 5, [3, 2, 1, 0]) := by decide

/-- The example of R212: p1 in lanes 0 to 3, REDL.add.f32 and SCANL.add.f32. -/
def sums (b : LBits) (l : Nat) : Option Word :=
  match exec (decodeLane b) (lane { grp (withLane b spl) with
    v := [(160, 0x4B800000), (161, 0x3F800000), (162, 0x3F800000), (163, 0xCB800000)], p := [(1, 0xF)] }) with
  | .next t => some (t.curGroup.vreg 6 l)
  | _ => none
theorem test_redl : [0, 3, 4].map (sums 0x409201805000000000000000) = [some 0x3F800000, some 0x3F800000, some 0] := by decide
theorem test_scanl : [0, 1, 2, 3].map (sums 0x419201805000000000000000)
    = [some 0x4B800000, some 0x4B800000, some 0x4B800000, some 0] := by decide

/-- The translation example of R43 to R47: node 3, die 2, slice 3. -/
theorem test_address : (pathOf 0x001C0080806456C0, nodeOf 0x001C0080806456C0, dieOf 0x001C0080806456C0, localOf 0x001C0080806456C0,
    sliceOf 0x001C0080806456C0) = (0, 3, 2, 0x80806456C0, 3) := by decide

/-- The move of file 04: the leaf in transit under TID 7, and after the move. -/
theorem test_leaf : ((State.reset.writeLeaf ⟨0x0000004000300AC1, 16, 0⟩ 0x400030 0 1 7).raw64 0,
    (State.reset.writeLeaf ⟨0x0000004000300AC1, 16, 0⟩ 0x100 1 0 0).raw64 0) = (0x0070004000304AC1, 0x0000000001001AC1) := by decide

/-- The hand-off of file 12: the object as PHINIT leaves it, and the arrival that completes its phase. -/
theorem test_phaser : (({ ph := 0, nsig := 2, arr := 0, nwait := 1, dsig := 0, dwait := 0, scope := 1, wpend := 0, live := true } : PhObj).bits,
    (objOf 0x00000000002001001000020000000001).arrive.1.bits) = (0x00000000002000001000020000000001, 0x00000001002000001000020000000001) := by
  decide

/-- The LINK_DEGRADE record of file 05: restriped, plane 17, group 1, 12 wavelengths left, 2 flits sent again. -/
theorem test_link_record : degradeBits 1 false 17 1 0xFF0F 2 0 / 2 ^ 64 = 0x41122FF878001000 := by decide

/-- The row keys of the panel of file 10 (rows 0, 3, 2, 5), and the synthetic element of rows 0, 1 and 3. -/
theorem test_panel : (keyLess (rowKey [.fin false 1 0, .fin true 1 0, .fin false 2 0, .fin false 0 0])
      (rowKey [.fin false 3 (-1), .fin true 2 0, .fin false 1 (-1), .fin false 0 0]),
    [[0x38, 0x38, 0x3C], [0xB8, 0xB8, 0xC0], [0x40, 0x40, 0x30]].map (meanElem 3)) = (true, [0x39, 0xBB, 0x3C]) := by decide

/-- The worked step of R222: 2^24 and a step value of 1, under .rne and .rp. -/
theorem test_mloop_step : [0, 2].map (fun rm => updateFloat 3 rm false 0x4B800000 [.fin false 1 0, .fin false 1 0]
    [.fin false 1 (-1), .fin false 1 (-1)]) = [0x4B800000, 0x4B800001] := by decide

/-- A word of zeros takes ILLEGAL_OP (R19), an odd pair ILLEGAL_OPERAND (R22): the split parks, and the record has the kind. -/
theorem test_illegal : (leaves (exec .illegalOp base) (fun t => t.curSplit.status == .parked && t.curSplit.record.kind == .illegalOp)
    && leaves (exec (.sld 0 1 0) base) (fun t => t.curSplit.record.kind == .illegalOperand)) = true := by decide

/-- A step from reset with one word placed runs it, and an empty agenda is an idle or a free turn; a turn of an absent split stops. -/
theorem test_step : leaves (step (State.reset.withFetchWord 32 0x40514180)) (fun t => t.curSplit.sreg 5 == 1) = true := by decide
theorem test_step_lane : leaves (step (State.reset.withFetchWord 96 0x3D0001003F80000000000000)) (fun t => t.curGroup.vreg 4 31 == 0x3F800000)
    = true := by decide
theorem test_step_absent : (match step { State.reset with agenda := [.scalar ⟨0, 0, 0⟩] } with
    | .fault .absentAgent => true
    | _ => false) = true := by decide

/-! ### Witnesses: for each statement, states and operands that meet its hypotheses, clause by clause -/

/-- A unit of 64 KiB of scratch on core 0, and the group in it. -/
def unit1 : UnitRec := ⟨1, 0, 0, 0, [0], 0, 65536, none, 0, 4, 1, false, false⟩
def inUnit (sp : Split) : State := { of sp with units := [(1, unit1)] }

theorem witness_ScalarAlu : Landed base [1, 2] ∧ Landed base [63] := by unfold Landed; decide

theorem witness_ScalarCompare : Landed base [1, 2] ∧ (5 : BitVec 3).toNat < 6 ∧ 6 ≤ (6 : BitVec 3).toNat
    ∧ Holds 5 true 3 3 ∧ ¬Holds 0 false 1 2 := by unfold Landed Holds; decide

theorem witness_ScalarMoves : Landed base [1, 2] ∧ (62 : BitVec 6).toNat % 2 = 0 ∧ (1 : BitVec 6).toNat % 2 = 1 := by
  unfold Landed; decide

theorem witness_AffineWords : ((31 : BitVec 6).toNat < 32 ∧ (62 : BitVec 6).toNat % 2 = 0 ∧ Landed base [62, 63])
    ∧ ((0 : BitVec 6).toNat < 32 ∧ Landed base [5] ∧ Landed base []) ∧ 32 ≤ (32 : BitVec 6).toNat ∧ (63 : BitVec 6).toNat % 2 = 1 := by
  unfold Landed; decide

/-- Addresses of paths 0, 2 and 5, an unaligned one, and one of path 6. -/
theorem witness_ScalarMemory : Landed base [5, 2, 3] ∧ base.fenced 1 = false
    ∧ (inUnit spl).requesterCheck (inUnit spl).curGroup 0 .lane 0x2000000000000000 4 4 = none
    ∧ ([0x0, 0x2000000000000000, 0x5000000000000000].map fun va =>
      ({ inUnit spl with ctxs := [(0, { Ctx.empty with swl := [(0, 0x0003000000001000)] })] } : State).requesterCheck base.curGroup 0 .store va 4 4)
      = [none, none, none]
    ∧ base.requesterCheck base.curGroup 0 .lane 2 4 4 = some (.align, .none)
    ∧ base.requesterCheck base.curGroup 0 .store 0x6000000000000000 4 4 = some (.path, .none) := by unfold Landed; decide

/-- Queues empty and not, loop entries, items at the ends of the tables. -/
theorem witness_StatusWords : base.curSplit.queue = [] ∧ (laneOf 0).curSplit.queue ≠ [] ∧ Landed base [7]
    ∧ (of { spl with loops := [⟨2, 0, 8, 4⟩] }).curSplit.loops.reverse[0]? = some ⟨2, 0, 8, 4⟩ ∧ base.curSplit.loops.length ≤ 0
    ∧ (0x40 ≤ 255 ∧ 0x29 ≤ 0x2F) ∧ (0x21 : BitVec 8) ≠ 0x00 ∧ (0x21 : BitVec 8) ≠ 0x20 := by unfold Landed; decide

/-- A branch by the flag both ways, by a predicate, with a queue; returns to an aligned and to an unaligned address. -/
theorem witness_Branches : (base.curSplit.flag = true ↔ true = false) ∧ ((of { spl with flag := true }).curSplit.flag = true ↔ false = false)
    ∧ ((∃ l, l < 32 ∧ ((one { grp spl with p := [(1, 2)] }).curGroup.preg 1).getLsbD l ∧ Mask.full.getLsbD l) ↔ false = false)
    ∧ (laneOf 0).curSplit.queue ≠ [] ∧ Landed base [62, 63] ∧ (base.curSplit.spair 62).toNat % 4 = 0
    ∧ ((of { spl with s := [(62, 2)] }).curSplit.spair 62).toNat % 4 ≠ 0 := by
  refine ⟨by decide, by decide, ⟨fun _ => rfl, fun _ => ⟨1, by decide⟩⟩, by decide, by unfold Landed; decide, by decide, by decide⟩

/-- Stacks of 3 and of 4 entries, counts of 1 and of 0. -/
theorem witness_LoopPush : 2 ≤ (2 : BitVec 16).toNat ∧ (1 : BitVec 10) ≠ 0
    ∧ (of { spl with loops := List.replicate 3 ⟨2, 0, 8, 4⟩ }).curSplit.loops.length < 4
    ∧ 4 ≤ (of { spl with loops := List.replicate 4 ⟨2, 0, 8, 4⟩ }).curSplit.loops.length ∧ Landed base [1] ∧ base.curSplit.sreg 1 = 0
    ∧ (of { spl with s := [(1, 1)] }).curSplit.sreg 1 ≠ 0 ∧ (1 : BitVec 16).toNat < 2 := by unfold Landed; decide

theorem witness_LoopBack : (of { spl with loops := [⟨2, 0, 8, 4⟩] }).curSplit.loops = [⟨2, 0, 8, 4⟩] ∧ base.curSplit.loops = [] := by decide

/-- A group of a launch with IDEM: one split and none recorded, one recorded, two splits; a debugger armed. -/
theorem witness_SteeringWords : (grp spl).idem = false ∧ ({ grp spl with idem := true } : Group).idem = true ∧ (grp spl).mark = none
    ∧ ((List.range 8).filter fun n => ((grp spl).split n).status != .absent).length ≤ 1
    ∧ 1 < ((List.range 8).filter fun n => (({ grp spl with splits := [(0, spl), (1, spl)] } : Group).split n).status != .absent).length
    ∧ ({ grp spl with mark := some ⟨0, 0, [], 0, [], [], [], [], false⟩ } : Group).mark.isSome
    ∧ (base.ctx 0).arm = false ∧ (({ base with ctxs := [(0, { Ctx.empty with arm := true })] } : State).ctx 0).arm = true
    ∧ base.stateOn 0 0 = .running := by decide

/-- One word of a queue of 15, and of a full queue; the placed machine of a test fetches. -/
def q15 : List QEntry := List.replicate 15 ⟨0, 0, ⟨0, 0, 0⟩, ⟨0, 0, 0⟩, ⟨0, 0, 0⟩, none, 0, none⟩
theorem witness_RunLaneWords : (∀ n, ((State.reset.withFetchWord 32 0x28020000).awaits ⟨0, 0, 0⟩ n) = false)
    ∧ (State.reset.withFetchWord 32 0x28020000).fetchReady ⟨0, 0, 0⟩ ((State.reset.withFetchWord 32 0x28020000).curGroup.lbase) 24 = true
    ∧ min (2 : BitVec 10).toNat (16 - q15.length) = 1 ∧ (2 : BitVec 10) ≠ 0 ∧ (State.reset.withFetchWord 32 0x28020000).curSplit.lrun = 0
    ∧ 16 ≤ (q15 ++ q15).length := by
  refine ⟨fun _ => rfl, by decide, by decide, by decide, by decide, by decide⟩

/-- p1 in all, in no and in some lanes; joins 3 and 4 deep; a free number 1, and none. -/
theorem witness_BranchVarying : (1 : BitVec 11) ≠ 0 ∧ (1023 : BitVec 11).toNat < 1024 ∧ 1024 ≤ (1024 : BitVec 11).toNat
    ∧ Mask.full &&& (one { grp spl with p := [(1, Mask.full)] }).curGroup.preg 1 = spl.mask
    ∧ Mask.full &&& (one (grp spl)).curGroup.preg 1 = 0 ∧ (0 : Mask) ≠ spl.mask
    ∧ Mask.full &&& (one { grp spl with p := [(1, 1)] }).curGroup.preg 1 ≠ spl.mask
    ∧ spl.joins.length < 4 ∧ 4 ≤ (List.replicate 4 (⟨.join, 0, 0, 0, 0, 0, 0, 0, []⟩ : JoinRec)).length
    ∧ ((grp spl).split 1).status = .absent ∧ (∀ j, j < 1 → ((grp spl).split j).status ≠ .absent) ∧ spl.status ≠ .absent
    ∧ (∀ k, k < 4 → (({ grp spl with splits := [(0, spl), (1, spl), (2, spl), (3, spl)] } : Group).split k).status ≠ .absent) := by decide

/-- Two halves at their join, and the group that holds them. -/
def half (m : Mask) (uid : Nat) : Split := { spl with mask := m, spc := 16, uid := uid, joins := [⟨.join, 16, 3, 0, Mask.full, 0, 0, 0, []⟩] }
def halves : State := one { grp spl with splits := [(0, half 0xFFFF 1), (1, half 0xFFFF0000 2)] }
theorem witness_JoinMerges : (halves.group 0 0).live = true ∧ halves.stateOn 0 0 = .running
    ∧ (∀ n, n < 8 → (((halves.group 0 0).split n).status ≠ .absent ∧ ((halves.group 0 0).split n).shares 3 = true ↔ n = 0 ∨ n = 1))
    ∧ ((halves.group 0 0).split 0).reached 0 3 = true ∧ ((halves.group 0 0).split 1).reached 0 3 = true
    ∧ ((halves.group 0 0).split 0).loops = ((halves.group 0 0).split 1).loops
    ∧ (∀ r, ((halves.group 0 0).split 0).joins.head? = some r → r.kind = .join) := by
  refine ⟨by decide, by decide, by decide, by decide, by decide, by decide, ?_⟩
  intro r h; cases h; rfl

/-- An exiting split alone in its group, and one beside another. -/
def exiting (more : Tab Split) : State := one { grp spl with splits := (0, { spl with status := .exiting }) :: more }
theorem witness_SplitEnds : ((exiting []).splitOf ⟨0, 0, 0⟩).status = .exiting ∧ ((exiting []).groupOf ⟨0, 0, 0⟩).live = true
    ∧ (∀ e ∈ (exiting []).ents, e.own 1 = true → e.tracked = true → e.dstN = 0 ∧ e.esc = none)
    ∧ (∀ w, ((exiting []).groupOf ⟨0, 0, 0⟩).arr = some w → w.uid ≠ 1) ∧ (∀ r ∈ ((exiting []).splitOf ⟨0, 0, 0⟩).joins, r.kind = .join)
    ∧ ((exiting []).splitOf ⟨0, 0, 0⟩).queue = [] ∧ ((exiting []).splitOf ⟨0, 0, 0⟩).held = [] ∧ ((exiting []).splitOf ⟨0, 0, 0⟩).drain = none
    ∧ (∃ p ∈ ((exiting [(1, spl)]).groupOf ⟨0, 0, 0⟩).splits, p.1 ≠ 0)
    ∧ (∀ p ∈ ((exiting []).groupOf ⟨0, 0, 0⟩).splits, p.1 = 0) := by
  refine ⟨by decide, by decide, ?_, ?_, ?_, by decide, by decide, by decide, by decide, by decide⟩
  · intro e h; cases h
  · intro w h; cases h
  · intro r h; cases h

/-- With and without a handler, and with lane words queued. -/
def handled : State := { base with ctxs := [(0, { Ctx.empty with trmask := 0xFFFFFFFF, trvec := 0x1001 })] }
theorem witness_ScalarFaultParks : base.curLane = false ∧ base.curSplit.queue = [] ∧ base.curSplit.status = .running
    ∧ (handled.ctx 0).toHandler (.trap 5) false = true ∧ handled.stateOn 0 0 ≠ .evicted ∧ (base.ctx 0).toHandler .align false = false
    ∧ (laneOf 0).curSplit.queue ≠ [] := by decide

/-- LTRAP in no lane, in all lanes and in some; a free number 4. -/
theorem witness_LaneTraps : laneLegal 0x69 lw = true ∧ laneLegal 0x68 { lw with mod := 5 } = true
    ∧ (laneOf 0x690000000000000000000000).curSplit.queue ≠ [] ∧ (laneOf 0).curSplit.headFault = false ∧ (laneOf 0).curSplit.drain = none
    ∧ (laneOf 0).acting { lw with pn := true } = 0 ∧ (laneOf 0).acting lw = (laneOf 0).curSplit.mask
    ∧ (let s := lane { grp (withLane 0 spl) with p := [(2, 1)] }
      s.acting { lw with pred := 2 } ≠ 0 ∧ s.acting { lw with pred := 2 } ≠ s.curSplit.mask ∧ (s.curGroup.split 4).status = .absent)
    ∧ (base.ctx 0).toHandler (.trap 5) false = false := by decide

/-- The placed machine with its split in trap mode, and the frame of the split holding MASK, all ones at 0x70 and ACT 0. -/
def trapping (q : List QEntry) : State :=
  let s := (State.reset.withFetchWord 32 0x18000000).setCtx 0 { Ctx.empty with savbase := 0x100000 }
  let s := s.modSplit ⟨0, 0, 0⟩ fun sp => { sp with status := .trapped, queue := q }
  let key := 2 ^ 30 + (s.frameAddr 0 0 0 0).toNat
  { s with mem := (s.mem.writeN (key + 12) [0xFF, 0, 0, 0]).writeN (key + 0x70) [0x0F, 0, 0, 0] }
theorem witness_TrapReturns : base.curSplit.status ≠ .trapped ∧ (trapping q15).curSplit.status = .trapped ∧ (trapping q15).curSplit.queue ≠ []
    ∧ (trapping []).curSplit.queue = [] ∧ (trapping []).storesVisible (trapping []).curSplit.uid = true
    ∧ (match ((trapping []).coreRead 0 0 ((trapping []).frameAddr 0 0 0 0) 128).1 with
      | .ok b => ofBytes ((b.drop 0x7C).take 4) % 4 ≤ 1 && ofBytes ((b.drop 12).take 4) &&& ofBytes ((b.drop 0x70).take 4) != 0
      | .error _ => false) = true
    ∧ (trapping []).curSplit.record.nest = false ∧ (trapping []).curSplit.rest = 0 ∧ (trapping []).curSplit.setReplay = []
    ∧ (trapping []).curSplit.setHead = false ∧ (trapping []).curSplit.setQueue = [] ∧ (trapping []).curSplit.setJoins = [] := by decide

/-- Words with one, two and three sources. -/
def w1 : LaneWord := { lw with d := 1, a := 2 }
def w2 : LaneWord := { w1 with b := 3 }
def w3 : LaneWord := { w2 with c := 4 }
def wk (k : Nat) : LaneWord := if k = 1 then w1 else if k = 2 then w2 else w3
def quiet : State := laneOf 0

theorem witness_LaneInteger : ∀ p ∈ [(0x00, 2), (0x01, 2), (0x02, 2), (0x03, 2), (0x04, 3), (0x07, 2), (0x08, 2), (0x09, 1), (0x0A, 2), (0x0B, 2),
      (0x0C, 2), (0x0D, 2), (0x0E, 2), (0x0F, 2), (0x10, 2), (0x11, 2), (0x12, 3), (0x14, 1), (0x15, 1)],
    LaneReady p.1 (wk p.2) (vecWin (wk p.2).d 1 ++ ([(wk p.2).a, (wk p.2).b, (wk p.2).c].take p.2).flatMap fun c => vecWin c 1) quiet := by
  have h : ∀ p ∈ [(0x00, 2), (0x01, 2), (0x02, 2), (0x03, 2), (0x04, 3), (0x07, 2), (0x08, 2), (0x09, 1), (0x0A, 2), (0x0B, 2),
      (0x0C, 2), (0x0D, 2), (0x0E, 2), (0x0F, 2), (0x10, 2), (0x11, 2), (0x12, 3), (0x14, 1), (0x15, 1)],
    ready p.1 (wk p.2) (vecWin (wk p.2).d 1 ++ ([(wk p.2).a, (wk p.2).b, (wk p.2).c].take p.2).flatMap fun c => vecWin c 1) quiet = true := by
    decide
  exact fun p hp => ready_laneReady (h p hp)

theorem witness_LaneIntegerForms : LaneReady 0x13 w3 (vecWin w3.d 1 ++ vecWin w3.a 1 ++ vecWin w3.b 1 ++ vecWin w3.c 1) quiet
    ∧ LaneReady 0x16 w2 (vecWin w2.a 1 ++ vecWin w2.b 1) quiet
    ∧ LaneReady 0x06 { lw with d := 2, a := 2, b := 638 } (vecWin 2 2 ++ vecWin 2 2 ++ vecWin 638 2) quiet
    ∧ LaneReady 0x05 { lw with d := 2, a := 4, b := 5, c := 2 } (vecWin 2 2 ++ vecWin 4 1 ++ vecWin 5 1 ++ vecWin 2 2) quiet :=
  ⟨ready_laneReady (by decide), ready_laneReady (by decide), ready_laneReady (by decide), ready_laneReady (by decide)⟩

/-- Infinity and NaN of f32, the NaN and the largest value of f8e4, a subnormal of f4e2; 1 and -2 as values. -/
theorem witness_ExactValues : (f32 ∈ Floats ∧ 0x7F800000 < 2 ^ 32 ∧ 0x7F800000 / 2 ^ 23 % 2 ^ 8 = 2 ^ 8 - 1 ∧ 0x7F800000 % 2 ^ 23 = 0)
    ∧ (f8e4 ∈ Floats ∧ f8e4.inf = false ∧ f8e4.nan = true ∧ 0x7F / 8 % 16 = 15 ∧ 0x7F % 8 = 7 ∧ 0x7E % 8 ≠ 7)
    ∧ (f4e2 ∈ Floats ∧ 1 / 2 % 4 = 0)
    ∧ Stands (.fin false 1 0) 1 ∧ Stands (.fin true 1 1) (-2) ∧ Stands (.fin true 0 0) 0 := by
  refine ⟨by decide, by decide, by decide, ⟨false, 1, 0, rfl, by norm_num⟩, ⟨true, 1, 1, rfl, by norm_num⟩, ⟨true, 0, 0, rfl, by norm_num⟩⟩

theorem witness_RoundingRule : f32 ∈ Floats ∧ 4 < 5 ∧ 0x3F800000 < 2 ^ 32 ∧ Stands (f32.decode 0x3F800000) 1 := by
  refine ⟨by decide, by decide, by decide, ⟨false, 2 ^ 23, -23, by decide, by norm_num⟩⟩

/-- 1 (a power of 2 and an integer), -1, 0, infinity and NaN of f32. -/
theorem witness_CorrectlyRounded : (f32 ∈ [f32, h16, b16] ∧ 4 < 5 ∧ Stands (f32.decode 0x3F800000) 1 ∧ (1 : ℝ) ≠ 0 ∧ (0 : ℝ) < 1
      ∧ (1 : ℝ) = (1 : ℤ) ∧ (1 : ℝ) = (2 : ℝ) ^ (0 : ℤ))
    ∧ (Stands (f32.decode 0xBF800000) (-1) ∧ (-1 : ℝ) < 0) ∧ Stands (f32.decode 0x80000000) 0 ∧ f32.decode 0xFF800000 = .inf true
    ∧ (f32.decode 0x7FC00000).isNan = true := by
  refine ⟨⟨by decide, by decide, ⟨false, 2 ^ 23, -23, by decide, by norm_num⟩, by norm_num, by norm_num, by norm_num, by norm_num⟩,
    ⟨⟨true, 2 ^ 23, -23, by decide, by norm_num⟩, by norm_num⟩, ⟨true, 0, _, rfl, by norm_num⟩, by decide, by decide⟩

theorem witness_FloatWords : (∀ p ∈ [(0x20, 2), (0x21, 2), (0x22, 2), (0x23, 3), (0x24, 2), (0x25, 2), (0x27, 1), (0x28, 1), (0x29, 1), (0x2A, 1),
      (0x2B, 2), (0x2C, 1), (0x2D, 1)],
    LaneReady p.1 (wk p.2) (vecWin (wk p.2).d 1 ++ ([(wk p.2).a, (wk p.2).b, (wk p.2).c].take p.2).flatMap fun c => vecWin c 1) quiet)
    ∧ LaneReady 0x26 w2 (vecWin w2.a 1 ++ vecWin w2.b 1) quiet := by
  have h : ∀ p ∈ [(0x20, 2), (0x21, 2), (0x22, 2), (0x23, 3), (0x24, 2), (0x25, 2), (0x27, 1), (0x28, 1), (0x29, 1), (0x2A, 1),
      (0x2B, 2), (0x2C, 1), (0x2D, 1)],
    ready p.1 (wk p.2) (vecWin (wk p.2).d 1 ++ ([(wk p.2).a, (wk p.2).b, (wk p.2).c].take p.2).flatMap fun c => vecWin c 1) quiet = true := by
    decide
  exact ⟨fun p hp => ready_laneReady (h p hp), ready_laneReady (by decide)⟩

/-- A slot of f8e4 under f32, one of s8 under s32, and one with a scale register; a NaN under each policy. -/
theorem witness_DotProducts : (∀ op ∈ [0x30, 0x31, 0x32], LaneReady op w2 (vecWin w2.d 1 ++ vecWin w2.a 1 ++ vecWin w2.b 1 ++ []) quiet)
    ∧ LaneReady 0x30 w3 (vecWin w3.d 1 ++ vecWin w3.a 1 ++ vecWin w3.b 1 ++ vecWin w3.c 1) quiet
    ∧ (dotSlotOk w2 0x3 4 = true ∧ slotAcc 0x3 = 0) ∧ (dotSlotOk w2 0x2806 4 = true ∧ slotAcc 0x2806 ≠ 0)
    ∧ dotSlotOk w3 0x13 4 = true ∧ slotScale 0x13 ≠ 0 ∧ dotSlotOk w2 0x5 8 = true ∧ dotSlotOk w2 0x1 2 = true
    ∧ (readElem 3 3 0x7F).isNan = true ∧ Stands (readElem 3 3 0x38) 1 ∧ slotNan 0x103 = 1 ∧ slotNan 0x203 = 2 := by
  have h : ∀ op ∈ [0x30, 0x31, 0x32], ready op w2 (vecWin w2.d 1 ++ vecWin w2.a 1 ++ vecWin w2.b 1 ++ []) quiet = true := by decide
  exact ⟨fun p hp => ready_laneReady (h p hp), ready_laneReady (by decide), by decide, by decide, by decide, by decide, by decide, by decide,
    by decide, ⟨false, 8, -3, by decide, by norm_num⟩, by decide, by decide⟩

/-- Conversions into and out of a pair, of a packed element, and both directions of the slot. -/
theorem witness_Conversions : LaneReady 0x34 w1 (vecWin w1.d 1 ++ vecWin w1.a 1 ++ []) quiet ∧ cvtOk false w1 3 = true
    ∧ LaneReady 0x35 { lw with d := 4, a := 2, fn := 12, mod := 2 } (vecWin 4 2 ++ vecWin 2 1 ++ []) quiet
    ∧ cvtOk true { lw with d := 4, a := 2, fn := 12, mod := 2 } 3 = true
    ∧ LaneReady 0x36 w2 (vecWin w2.d 1 ++ vecWin w2.a 1 ++ vecWin w2.b 1 ++ []) quiet ∧ packOk w2 3 = true
    ∧ LaneReady 0x37 { lw with d := 4, a := 2 } (vecWin 4 2 ++ vecWin 2 1 ++ []) quiet ∧ packOk { lw with d := 4, a := 2 } 3 = true
    ∧ (∀ q ∈ vecWin 2 1 ++ [], q.1 ≠ 4 ∧ q.1 ≠ 5)
    ∧ ((valueOf 0 0x7FC00000).isNan = true ∧ Stands (valueOf 6 0xFF) (-1) ∧ Stands (.fin false 1 0) 1 ∧ 5 < 6 ∧ 4 ≤ 5)
    ∧ (slotFtz 0x81 = true ∧ h16.isSub 1 = true ∧ slotFtz 1 = false) := by
  exact ⟨ready_laneReady (by decide), by decide, ready_laneReady (by decide), by decide, ready_laneReady (by decide), by decide,
    ready_laneReady (by decide), by decide, by decide, ⟨by decide, ⟨true, 1, 0, by decide, by norm_num⟩, ⟨false, 1, 0, rfl, by norm_num⟩,
      by decide, by decide⟩, by decide⟩

/-- The ends of each range of codes, a lane, no racer, and the seven patterns of the crossbar. -/
theorem witness_OperandCodes : (639 < 640 ∧ 703 < 704 ∧ 735 < 736 ∧ 799 < 800 ∧ 815 < 816 ∧ 831 < 832 ∧ 847 < 848) ∧ 31 < 32
    ∧ quiet.curSplit.headFault = false ∧ quiet.racers 0 0 = []
    ∧ ([0x00, 0x3F, 0x5F, 0x7F, 0x84, 0xBF, 0xC3].all fun x => xbarOk x) = true := by decide

theorem witness_SelectWords : LaneReady 0x38 w2 (vecWin w2.d 1 ++ vecWin w2.a 1 ++ vecWin w2.b 1) quiet ∧ LaneReady 0x39 { lw with d := 1 } [] quiet
    ∧ LaneReady 0x3B { lw with d := 1, a := 2 } (vecWin 2 1) quiet ∧ LaneReady 0x3B { lw with fn := 1, d := 1, a := 2 } (vecWin 1 1) quiet
    ∧ LaneReady 0x3B { lw with fn := 2, d := 15, a := 2 } (vecWin 2 1) quiet ∧ LaneReady 0x3B { lw with fn := 3, d := 1, a := 15 } (vecWin 1 1) quiet
    ∧ LaneReady 0x3B { lw with fn := 4, d := 1, a := 2 } [] quiet ∧ LaneReady 0x3C w1 (vecWin w1.d 1 ++ vecWin w1.a 1) quiet
    ∧ LaneReady 0x3D (laneFields 0x3D0001003F80000000000000#96) (vecWin 4 1) quiet :=
  ⟨ready_laneReady (by decide), ready_laneReady (by decide), ready_laneReady (by decide), ready_laneReady (by decide),
    ready_laneReady (by decide), ready_laneReady (by decide), ready_laneReady (by decide), ready_laneReady (by decide),
    ready_laneReady (by decide)⟩

theorem witness_CrossLane : (∀ fn ∈ [0, 1, 2], LaneReady 0x3A { lw with fn := fn, d := 1, a := 2 } [] quiet)
    ∧ (∀ fn ∈ [3, 4], LaneReady 0x3A { lw with fn := fn, d := 1, a := 2 } (vecWin 1 1) quiet)
    ∧ LaneReady 0x3E w2 (vecWin w2.d 1 ++ vecWin w2.a 1 ++ vecWin w2.b 1) quiet
    ∧ LaneReady 0x3F { lw with d := 1, a := 576, b := 2, mod := 63 } (vecWin 1 1 ++ vecWin 576 64 ++ vecWin 2 1) quiet
    ∧ (∀ fn ∈ [0, 11], LaneReady 0x40 { w1 with fn := fn } (vecWin 1 1 ++ vecWin 2 1) quiet)
    ∧ (∀ mod ∈ [0, 2], LaneReady 0x41 { w1 with mod := mod } (vecWin 1 1 ++ vecWin 2 1) quiet)
    ∧ Running (Combines 0 0) (fun l => l) (fun _ => true) 1 = some 0 ∧ Running (Combines 0 0) (fun l => l) (fun _ => true) 0 = none := by
  have a : ∀ fn ∈ [0, 1, 2], ready 0x3A { lw with fn := fn, d := 1, a := 2 } [] quiet = true := by decide
  have b : ∀ fn ∈ [3, 4], ready 0x3A { lw with fn := fn, d := 1, a := 2 } (vecWin 1 1) quiet = true := by decide
  have c : ∀ fn ∈ [0, 11], ready 0x40 { w1 with fn := fn } (vecWin 1 1 ++ vecWin 2 1) quiet = true := by decide
  have d : ∀ mod ∈ [0, 2], ready 0x41 { w1 with mod := mod } (vecWin 1 1 ++ vecWin 2 1) quiet = true := by decide
  exact ⟨fun _ h => ready_laneReady (a _ h), fun _ h => ready_laneReady (b _ h), ready_laneReady (by decide), ready_laneReady (by decide),
    fun _ h => ready_laneReady (c _ h), fun _ h => ready_laneReady (d _ h), rfl, rfl⟩

/-- A group with format slot 0 of f8e4 under f32 and an array word; its affine captures are the start of its scratch. -/
def cap2 : Capture := ⟨0, 0x20000000, 0⟩
def armed (sl : Word) (a : Option ArrayWord) : State :=
  { lane { grp { spl with queue := [⟨0, 0, cap2, cap2, cap2, none, 0, none⟩] } with slots := [(0, sl)], arr := a } with
    units := [(1, { unit1 with left := 4 })]
    launches := [(1, ⟨{ (default : LaunchRec) with groups := 4 }, 0, 0, 0, false, false, false⟩)] }
/-- A solo loop of two steps over v0 to v127, and a quad loop of one. -/
def mw : LaneWord := { lw with d := 192, a := 704, b := 0, c := 736, mod := 0x101 }
def qw : LaneWord := { mw with mod := 0 }
def aw : ArrayWord :=
  ⟨0x48, mw, ⟨0, 0, 0⟩, 1, [], 0, 0, 0, 0, 0, 0, 0, 0, 2, 0, 0, false, false, false, some 0, 6, [], loopWins mw 0⟩
/-- SIGH of 6 planes over one row, PARC .first and .norm and PCOMP of one row. -/
def sw : LaneWord := { lw with fn := 5, d := 300, a := 708, b := 709 }
def pw (rule : Nat) : LaneWord := { lw with d := 300, a := 310, b := if rule = 1 then 708 else 0, mod := BitVec.ofNat 10 (256 * rule) }
def cw : LaneWord := { lw with d := 4, a := 310, b := 708, c := 709 }

theorem witness_ArrayWords : (LaneReady 0x4C sw (vecWin sw.d 1) (armed 3 none) ∧ (armed 3 none).curGroup.arr = none
      ∧ (armed 3 none).fenced 1 = false ∧ parcSlotOk 3 = true ∧ (armed 3 (some aw)).curGroup.arr ≠ none)
    ∧ (LaneReady 0x4D (pw 0) (vecWin 300 2 ++ vecWin 310 1) (armed 3 none) ∧ LaneReady 0x4D (pw 1) (vecWin 300 2 ++ vecWin 310 1) (armed 3 none)
      ∧ overlaps 300 2 310 1 = false)
    ∧ (LaneReady 0x4E cw (vecWin 310 2) (armed 3 none)
      ∧ (armed 3 none).panelTagged (armed 3 none).curGroup 0 128 = false ∧ 0 < 1)
    ∧ (LaneReady 0x48 mw (loopWins mw 0) (armed 3 none) ∧ mloopSlotOk mw 3 = true ∧ (armed 3 none).roundOk mw = true
      ∧ (∀ b ∈ bWins mw 0, overlaps mw.d.toNat 32 b.1 b.2 = false) ∧ modBits mw 9 8 = 1)
    ∧ (LaneReady 0x48 qw (loopWins qw 0) (armed 3 none) ∧ (armed 3 none).roundOk qw = true ∧ modBits qw 9 8 ≠ 1
      ∧ ((armed 3 none).roundSlots 0 (armed 3 none).curGroup 0).length < 3)
    ∧ ((armed 3 none).headOf ⟨0, 0, 0⟩).capA.affine.base = 0x2000000000000000
    ∧ (armed 3 none).panelCheck .line 128 128 (rowAddrs 0x2000000000000000 0 1 1) = none
    ∧ (armed 3 none).panelCheck .line 2048 16 [0x2000000000000000] = none ∧ (armed 3 none).panelCheck .line 128 128 [64] ≠ none := by
  exact ⟨⟨ready_laneReady (by decide), by decide, by decide, by decide, by decide⟩,
    ⟨ready_laneReady (by decide), ready_laneReady (by decide), by decide⟩, ⟨ready_laneReady (by decide), by decide, by decide⟩,
    ⟨ready_laneReady (by decide), by decide, by decide, by decide, by decide⟩, ⟨ready_laneReady (by decide), by decide, by decide, by decide⟩,
    by decide, by decide, by decide, by decide⟩

/-- A loop to admit, one that runs, one whose split has parked; the last step and one before; both kinds of sum, and a tile mask. -/
theorem witness_MloopTurns : ((armed 3 (some aw)).group 0 0).arr = some aw ∧ modBits aw.w 9 8 = 1 ∧ aw.order = some 0 ∧ aw.started = false
    ∧ (∀ p ∈ (armed 3 (some aw)).groupsOn 0, p.1 % 4 = 0 % 4 → p.2.arr = some aw)
    ∧ (armed 3 (some { aw with started := true })).groupRuns 0 0 = true
    ∧ (lane { grp { spl with status := .parked } with arr := some { aw with started := true } }).groupRuns 0 0 = false
    ∧ 192 + 32 ≤ 640 ∧ 0 + 1 < aw.k ∧ aw.k ≤ 1 + 1 ∧ xcBits mw 7 7 ≠ 1 ∧ xcBits { mw with xc := 0x82 } 7 7 = 1
    ∧ (grp spl).tmreg 2 = 0 ∧ slotAcc 3 = 0 ∧ slotAcc 0x2806 = 0xA ∧ slotAcc 0x2C07 = 0xB := by decide

/-- An array word of each kind; PCOMP of one parcel to the unit's scratch. -/
def pa : ArrayWord := { aw with op := 0x4E, w := cw, k := 1, cBase := 0x2000000000000000, src := [] }
theorem witness_ArrayFinish : 300 + 2 * 1 ≤ 640 ∧ ({ aw with op := 0x4C, w := sw, k := 1 } : ArrayWord).op = 0x4C
    ∧ 1 ≤ ({ aw with op := 0x4C, w := sw, k := 1 } : ArrayWord).k ∧ slotElem 3 ≤ 9 ∧ 1 ≤ slotElem 3
    ∧ ({ aw with op := 0x4D, w := pw 1, k := 1 } : ArrayWord).op = 0x4D ∧ parcRule (pw 1) = 1 ∧ parcRule (pw 0) ≠ 1 ∧ pa.op = 0x4E
    ∧ ((armed 3 (some pa)).group 0 0).arr = some pa
    ∧ (armed 3 (some pa)).panelTagged ((armed 3 (some pa)).group 0 0) 0x2000000000000000 128 = false
    ∧ (((armed 3 (some pa)).unitOf ((armed 3 (some pa)).group 0 0)).bind fun u =>
        ((armed 3 (some pa)).scratchUnit u 0x2000000000000000).map fun u => u.place 0x2000000000000000) = some (0, 0) := by decide

theorem witness_TileWords : LaneReady 0x4A { lw with fn := 1, d := 3, a := 10, mod := 1 } (vecWin 10 4) quiet
    ∧ LaneReady 0x4B { lw with fn := 7, d := 15, a := 14, b := 13 } [] quiet
    ∧ (∀ op ∈ [0x4F, 0x50], LaneReady op { lw with d := 0, a := 32, b := 64, mod := 2 } [(0, 32), (32, 32), (64 + 32 / 32, 1)] quiet)
    ∧ List.Forall₂ Stands [.fin false 1 0, .fin true 1 0] [1, -1] := by
  have h : ∀ op ∈ [0x4F, 0x50], ready op { lw with d := 0, a := 32, b := 64, mod := 2 } [(0, 32), (32, 32), (64 + 32 / 32, 1)] quiet = true := by
    decide
  exact ⟨ready_laneReady (by decide), ready_laneReady (by decide), fun _ p => ready_laneReady (h _ p),
    .cons ⟨false, 1, 0, rfl, by norm_num⟩ (.cons ⟨true, 1, 0, rfl, by norm_num⟩ .nil)⟩

/-- Tiles of f8e4 with and without a budget at an aligned and an unaligned target; plat maps of one row that is and is not good. -/
theorem witness_ImageWords : (LaneReady 0x49 { lw with a := 704, b := 32, mod := 10 } (vecWin 32 32) (armed 3 none)
      ∧ tstoreSlotOk { lw with a := 704, b := 32, mod := 10 } 3 = true ∧ (armed 3 none).fenced 1 = false)
    ∧ ((0x2000000000000000 : DWord).toNat % 128 = 0 ∧ (0x2000000000000040 : DWord).toNat % 128 ≠ 0)
    ∧ ((armed 3 none).requesterCheck (armed 3 none).curGroup 0 .lineStore 0x2000000000000000 160 1 = none
      ∧ (armed 3 none).requesterCheck (armed 3 none).curGroup 0 .lineStore 0x2000000000000080 32 1 = none)
    ∧ LaneReady 0x51 { lw with fn := 3, a := 704, b := 32 } (vecWin 32 2) (armed 3 none) ∧ 0 < 1 ∧ ¬1 < 1 := by
  exact ⟨⟨ready_laneReady (by decide), by decide, by decide⟩, by decide, by decide, ready_laneReady (by decide), by decide, by decide⟩

/-- Words of every width and base, on a good address and on one that fails. -/
theorem witness_LaneMemory : quiet.fenced 1 = false
    ∧ (∀ p ∈ [(0, 1), (5, 2), (6, 4)], LaneReady 0x58 { lw with fn := p.1, d := 4, a := 704, b := 736 } (vecWin 4 p.2 ++ ([] ++ [])) quiet)
    ∧ LaneReady 0x59 { lw with fn := 4, d := 4, a := 8, b := 12 } (vecWin 4 1 ++ (vecWin 8 2 ++ vecWin 12 1)) quiet
    ∧ LaneReady 0x5D { lw with fn := 1, a := 704, b := 736 } ([] ++ ([] ++ [])) quiet
    ∧ LaneReady 0x5E { lw with fn := 12, d := 4, a := 704, b := 736 } (vecWin 4 2 ++ ([] ++ [])) quiet
    ∧ LaneReady 0x5F { lw with fn := 15, d := 4, a := 704, b := 736, c := 736 } (vecWin 4 4 ++ ([] ++ [])) quiet
    ∧ LaneFault quiet { lw with a := 704, b := 736 } .lane 4 4 4 0 = none
    ∧ LaneFault quiet { lw with a := 704, b := 736, xa := 1 } .lane 1 4 4 0 ≠ none := by
  have h : ∀ p ∈ [((0 : BitVec 4), 1), (5, 2), (6, 4)],
    ready 0x58 { lw with fn := p.1, d := 4, a := 704, b := 736 } (vecWin 4 p.2 ++ ([] ++ [])) quiet = true := by decide
  exact ⟨by decide, fun p q => ready_laneReady (h p q), ready_laneReady (by decide), ready_laneReady (by decide), ready_laneReady (by decide),
    ready_laneReady (by decide), by decide, by decide⟩

/-- A fence of the split under way. -/
def entry0 : Entry :=
  ⟨5, 5, 1, [1], some (0, 5), .load, ⟨0, 0, 0⟩, 0, 0, 1, 1, 0, 0, [⟨0, 0, 4, []⟩], 0, 0x58, 4, 3, 1, none, true, none, none, false, none, none,
    .none, 0, [], 0, false, none⟩
theorem witness_LineWords : LaneReady 0x5B { lw with d := 40, a := 642, b := 63 } (vecWin 40 64) quiet
    ∧ LaneReady 0x5C { lw with d := 40, a := 642, b := 0 } (vecWin 40 1) quiet
    ∧ LaneReady 0x60 { lw with mod := 0xB0 } [] quiet ∧ quiet.fenced 1 = false
    ∧ ({ quiet with ents := [{ entry0 with kind := .fence }] } : State).fenced 1 = true
    ∧ quiet.acting { lw with pn := true } = 0 ∧ quiet.acting lw ≠ 0
    ∧ quiet.requesterCheck quiet.curGroup 0 .line 0 128 128 = none ∧ quiet.requesterCheck quiet.curGroup 0 .lineStore 64 128 128 ≠ none := by
  exact ⟨ready_laneReady (by decide), ready_laneReady (by decide), ready_laneReady (by decide), by decide, by decide, by decide, by decide,
    by decide, by decide⟩

/-- An escort that may depart, one beyond its group's cap; the word at the head of the queue. -/
def escState (cap : Nat) : State := lane { grp (withLane 0x5A40002C100B800014000001 spl) with ecap := cap }
def ew : LaneWord := { lw with fn := 4, a := 705, b := 736, c := 20, mod := 1 }
theorem witness_EscortedWords : LaneReady 0x5A ew (vecWin 0 1 ++ ([] ++ []) ++ vecWin 20 2) (escState 4)
    ∧ LaneReady 0x5F { ew with fn := 0, d := 4 } (vecWin 4 1 ++ ([] ++ []) ++ vecWin 20 2) (escState 4) ∧ ew.c.toNat ≠ 736
    ∧ (escState 4).fenced 1 = false ∧ (escState 4).acting ew ≠ 0 ∧ (escState 4).acting { ew with pn := true } = 0
    ∧ RefusalCause (escState 4) 2 (some 0) = 0 ∧ RefusalCause (escState 0) 2 (some 0) = 1
    ∧ (∀ l ∈ Acting (escState 4) ew, LaneFault (escState 4) ew .escort 4 4 4 l = none)
    ∧ xcBits ew 0 0 ≠ 1 ∧ xcBits { ew with xc := 1 } 0 0 = 1
    ∧ (escState 4).laneReady ⟨0, 0, 0⟩ = true ∧ (((escState 4).headOf ⟨0, 0, 0⟩).word.extractLsb' 88 7).toNat = 0x5A
    ∧ base.laneReady ⟨0, 0, 0⟩ = false := by
  exact ⟨ready_laneReady (by decide), ready_laneReady (by decide), by decide, by decide, by decide, by decide, by decide, by decide, by decide,
    by decide, by decide, by decide, by decide, by decide⟩

/-- The placed machine with another leaf for its page, and with entries in flight. -/
def mapped : State := State.reset.withFetchWord 32 0x18000000
def leafed (e : Nat) : State := { mapped with mem := mapped.mem.writeN (2 ^ 17) (toBytes e 8) }
def inFlight (es : List Entry) : State := { mapped with ents := es }
def fresh (m : LineMeta) : State := mapped.setLine (2 ^ 30 / 128) m
def uidOf : Nat := mapped.curSplit.uid
def ent0 : Entry := { entry0 with uid := uidOf, owners := [uidOf], tag := mapped.curGroup.tag, unit := 0 }
/-- A store of four bytes at 0: not committed, and at level 1 with the owner's answer. -/
def store0 : Entry := { ent0 with kind := .gStore, op := 0x59, dstN := 0, trk := false, parts := [⟨0, 0, 4, [1, 2, 3, 4]⟩] }
def store1 : Entry := { store0 with level := 1, resp := .ok (2 ^ 30) 0 }
def walks (s : State) (p : Leaf → Bool) : Bool :=
  match (s.walk 0 0).1 with
  | .ok l => p l
  | .error _ => false

/-- Leases of 1 and of 99; leaves with and without W and X, of tier 3, poisoned; an address with no leaf; a key off. -/
theorem witness_FieldRequests : (mapped.leaseOk 1 .load 0 = true ∧ mapped.leaseOk 99 .load 0 = false)
    ∧ (match (mapped.walk 0 0x8000000000).1 with
      | .ok _ => false
      | .error c => c == .unmapped) = true
    ∧ walks mapped (fun l => l.w && l.x && l.state == 0) = true ∧ walks (leafed 0x400000201) (fun l => !l.w && !l.x) = true
    ∧ walks (leafed 0x400008A01) (fun l => l.w && l.state == 2) = true
    ∧ walks { leafed 0x80000003A01 with domain := [1] } (fun l => l.w && l.tier == 3 && l.state != 1 && !l.rap) = true
    ∧ mapped.keyOn 0 0 = true ∧ base.keyOn 0 0 = false
    ∧ ((inFlight [ent0]).ent 5 = some ent0 ∧ (inFlight [ent0]).requestOk ent0 = true ∧ (inFlight [store0]).requestOk store0 = false
      ∧ nodeOf ent0.line = mapped.node.toNat)
    ∧ mapped.homeReady 0 0 = true ∧ base.homeReady 0 0 = false
    ∧ (match (mapped.ownerCheck 0 none .load 0).1 with
      | .ok (k, _) => ((mapped.ownerCheck 0 none .load 0).2.homeRead 0 0 k 128).1.isSome
      | .error _ => false) = true := by decide

/-- A store that commits, one behind a fence, one that is performed, the one store of its line; a promote probe. -/
def probing : Entry := { ent0 with prom := true, acq := some 3, resp := .ok (2 ^ 30) 0 }
def released1 : State := (inFlight [probing]).setLine (2 ^ 30 / 128) { LineMeta.empty with written := true, releaser := some 7 }
theorem witness_StorePerforms : (inFlight [store0]).ent 5 = some store0 ∧ (inFlight [store0]).older store0 = []
    ∧ ((inFlight [{ ent0 with id := 4, kind := .fence }, store0]).older store0).any (fun x => x.kind == .fence) = true
    ∧ ({ store0 with rel := some 0 } : Entry).rel = some 0 ∧ store0.rel ≠ some 0
    ∧ (store1.kind = .gStore ∧ 0 < store1.level ∧ store1.path = 0 ∧ 2 ^ 30 % 128 = 0 ∧ store1.line.toNat % 128 = 0)
    ∧ (∀ i, i < 128 → (inFlight [store1]).transitOf 0 (noPath store1.line + BitVec.ofNat 64 i) = none)
    ∧ (∀ i, i < 128 → (inFlight [store1]).unreachable (2 ^ 30 + i) = false)
    ∧ ((inFlight [store1]).line (2 ^ 30 / 128)).poison = false ∧ ((fresh LineMeta.empty).line (2 ^ 30 / 128)).written = false
    ∧ ((inFlight [store1]).line (2 ^ 30 / 128)).tag = none
    ∧ store1.byteAt ((noPath store1.line).toNat + 3) ≠ none
    ∧ (noPath store1.line = lineOf (noPath 64) ∧ (inFlight [store1]).ents.countP (fun x => x.id == 5) = 1
      ∧ (inFlight [store1]).performOk store1 = true ∧ store1.resp ≠ .none)
    ∧ (inFlight [{ store0 with id := 4 }, store1]).performOk store1 = false
    ∧ (released1.probeWaits probing = true ∧ (inFlight [ent0]).probeWaits ent0 = false
      ∧ (released1.line ((released1.serve 0 (noPath probing.line) (2 ^ 30)).1 / 128)).releaser = some 7)
    ∧ released1.relLog = [] := by decide

/-- A load with its answer, one behind an acquire, one without answer; a byte in the split's own store, in a copy and at home. -/
def load1 : Entry := { ent0 with resp := .ok (2 ^ 30) 0 }
theorem witness_LoadCompletes : (inFlight [load1]).ent 5 = some load1 ∧ ent0.resp = .none ∧ (inFlight [load1]).older load1 = []
    ∧ ((inFlight [{ ent0 with id := 4, wid := 4, acq := some 0 }, load1]).older load1).any (fun x => x.acq == some 0) = true
    ∧ (inFlight [load1]).probeWaits load1 = false ∧ load1.esc = none ∧ load1.acq = none ∧ mapped.curGroup.tag = load1.tag
    ∧ (∀ p ∈ load1.parts, ∀ i, i < p.width → (inFlight [load1]).takeByte load1 (p.addr + BitVec.ofNat 64 i) false ≠ none)
    ∧ (inFlight [load1]).mustGoHome load1 = false ∧ (mapped.ctxCore 0 0).saved = []
    ∧ (∀ p ∈ load1.parts, p.lane < 32 ∧ p.width ∈ [1, 2, 4, 8, 16] ∧ (load1.dstN > 0 → load1.dstN = if p.width ≤ 4 then 1 else p.width / 4))
    ∧ (({ load1 with sdst := some 9, dstN := 0 } : Entry).sdst = some 9 ∧ (mapped.curGroup.split 0).uid ∈ load1.owners)
    ∧ ((inFlight [{ store0 with id := 4 }, load1]).source1 load1 0).isSome = true ∧ (inFlight [load1]).source1 load1 0 = none
    ∧ ((inFlight [{ store1 with id := 9, uid := 77 }, load1]).source2 load1 0).isSome = true ∧ (inFlight [load1]).source2 load1 0 = none
    ∧ (({ mapped with copies := [⟨0, .generic, 0, 0, List.replicate 128 7, List.replicate 128 0⟩] } : State).source3 load1 0 false).isSome = true
    ∧ (inFlight [load1]).source3 load1 0 true = none
    ∧ (({ load1 with kind := .heatr } : Entry).kind = .heatr ∧ nodeOf load1.line = mapped.node.toNat ∧ mapped.homeReady 0 0 = true
      ∧ base.homeReady 0 0 = false) := by decide

/-- An atomic of two lanes at one word, that may and that may not be performed. -/
def atom1 : Entry :=
  { ent0 with kind := .gAtomic, op := 0x5F, fn := 0, resp := .ok (2 ^ 30) 0, parts := [⟨0, 0, 4, [1, 0, 0, 0]⟩, ⟨1, 0, 4, [2, 0, 0, 0]⟩] }
theorem witness_AtomicService : (inFlight [atom1]).ent 5 = some atom1 ∧ (inFlight [atom1]).performOk atom1 = true
    ∧ (inFlight [{ store0 with id := 4 }, atom1]).performOk atom1 = false ∧ ent0.kind ≠ .gAtomic ∧ atom1.path = 0
    ∧ (∀ p ∈ atom1.parts, p.addr = 0 ∧ p.width = 4) ∧ atom1.parts ≠ [] ∧ atom1.dstN ≠ 0
    ∧ (inFlight [atom1]).transitOf 0 0 = none ∧ (inFlight [atom1]).unreachable (2 ^ 30) = false ∧ 2 ^ 30 % 128 + 4 ≤ 128
    ∧ ((fresh LineMeta.empty).line (2 ^ 30 / 128)).written = false
    ∧ ((fresh { LineMeta.empty with written := true, tag := some (mapped.tagFor 0 0 0) }).line (2 ^ 30 / 128)).tag = some (mapped.tagFor 0 0 0)
    ∧ ((inFlight [atom1]).line (2 ^ 30 / 128)).poison = false ∧ 0xFFFFFFFF < 2 ^ 32 := by decide

/-- A group of 3 granules on a core with rows free, one of 20; a core with none free; waits for a grow and for a shrink. -/
def rowed (g : Nat) (w : Wait) : State :=
  (one { grp { spl with wait := w } with g := g }).setCore 0 { Core.empty with ctxSlots := [(0, 0)], lim := [(0, 4)] }
theorem witness_Allocation : (Landed (rowed 3 .none) [] ∧ Landed (rowed 3 .none) [5])
    ∧ ((rowed 3 .none).growGrant 0 0 1 = true ∧ (rowed 3 .none).growBehind ⟨0, 0, 0⟩ 0 = false)
    ∧ (rowed 3 .none).growGrant 0 0 2 = false ∧ (rowed 3 .none).curGroup.g + 17 ≤ 20 ∧ 20 < (rowed 3 .none).curGroup.g + 18
    ∧ ((rowed 3 .none).shrinkOk ⟨0, 0, 0⟩ 2 0 = true ∧ 2 < (rowed 3 .none).curGroup.g ∧ (rowed 3 .none).curGroup.g ≤ 3)
    ∧ (one { grp { spl with queue := q15 } with g := 3, enq := 15 }).shrinkOk ⟨0, 0, 0⟩ 2 15 = false
    ∧ (rowed 3 .none).growWaits 0 = [] ∧ (rowed 3 (.grow 1 0)).growWaits 0 = [(0, ⟨0, 0, 0⟩, 1)]
    ∧ ((rowed 3 (.grow 1 0)).growGrant 0 0 1 = true ∧ (rowed 3 (.grow 1 0)).stateOn 0 0 = .running)
    ∧ ((rowed 3 (.shrink 1 0)).splitOf ⟨0, 0, 0⟩).wait = .shrink 1 0 ∧ ((rowed 3 (.shrink 1 0)).groupOf ⟨0, 0, 0⟩).live = true
    ∧ (rowed 3 (.shrink 1 0)).shrinkOk ⟨0, 0, 0⟩ 1 0 = true := by unfold Landed; decide

/-- A group in its unit with a phaser address in s2 and s3, and an object that lives there. -/
def phase (va : DWord) (o : Option PhObj) (q : List QEntry) : State :=
  let s := inUnit { spl with s := [(2, va.extractLsb' 0 32), (3, va.extractLsb' 32 32)], queue := q }
  match o with
  | none => s
  | some o => (s.setObj 0 0 0x100 o).setCore 0 { Core.empty with phasers := [⟨1, 0x100⟩] }
def obj1 : PhObj := { ph := 5, nsig := 2, arr := 0, nwait := 1, dsig := 0, dwait := 0, scope := 0, wpend := 0, live := true }
def pva : DWord := 0x2000000000000100
def placed (r : Except Fail (Nat × Nat)) : Option (Nat × Nat) :=
  match r with
  | .ok p => some p
  | .error _ => none
theorem placed_ok {r : Except Fail (Nat × Nat)} {p : Nat × Nat} (h : placed r = some p) : r = .ok p := by
  cases r with
  | ok q => simp only [placed, Option.some.injEq] at h; rw [h]
  | error e => simp [placed] at h

theorem witness_PhaserObjects : (Landed (phase pva none []) [2, 3] ∧ Landed (phase pva none []) [6] ∧ (phase pva none []).phaserWaits = false)
    ∧ ((2 : BitVec 6).toNat % 2 = 0 ∧ (phase (pva + 8) none []).curSplit.spair 2 = pva + 8 ∧ (pva + 8).toNat % 16 ≠ 0)
    ∧ (pathOf 0x100 ≠ 2 ∧ pathOf 0x100 ≠ 3)
    ∧ (phase pva none []).phaserPlace pva false = .ok (0, 0x100) ∧ (phase pva (some obj1) []).phaserPlace pva false = .ok (0, 0x100)
    ∧ ((phase pva none []).objLive 0 0x100 = false ∧ (phase pva (some obj1) []).objLive 0 0x100 = true)
    ∧ ((phase pva (some obj1) []).obj 0 0x100 = obj1 ∧ obj1.wpend = 0)
    ∧ (phase pva (some { obj1 with wpend := 1 }) []).obj 0 0x100 = { obj1 with wpend := 1 }
    ∧ (phase pva none q15).curSplit.queue ≠ [] ∧ (phase pva none []).objBusy 0 0x100 = false
    ∧ (((phase pva none []).unitOf (phase pva none []).curGroup).map (·.phn)).getD 0 = 4
    ∧ (1 ≤ 0x04FFFFFF % 4096 ∧ 0x04FFFFFF / 2 ^ 24 ≤ 4) ∧ ¬1 ≤ 0x04FFF000 % 4096
    ∧ (1 ≤ (2 : Int) + 0 - 1 ∧ ¬1 ≤ (1 : Int) + 0 - 1) :=
  ⟨by unfold Landed; decide, by decide, by decide, placed_ok (by decide), placed_ok (by decide), by decide, by decide, by decide, by decide,
    by decide, by decide, by decide, by decide⟩

/-- The first arrival and the last of a phase; a wait that is over and one that is not; an arrival over the network. -/
def arrive1 : Entry :=
  { entry0 with
    kind := .arrive, op := 0, tag := 0, path := 3, line := 0x3000000000000100, parts := [⟨0, 0x3000000000000100, 16, []⟩]
    resp := .ok (scrKey 0 0x100) 0, sdst := some 5 }
theorem witness_PhaserPhases : (Landed (phase pva (some obj1) []) [2, 3] ∧ Landed (phase pva (some obj1) []) [7]
      ∧ (phase pva (some obj1) []).phaserWaits = false ∧ (phase pva (some obj1) []).curSplit.queue = [])
    ∧ (phase pva (some obj1) []).phaserPlace ((phase pva (some obj1) []).curSplit.spair 2) false = .ok (0, 0x100)
    ∧ ((phase pva (some obj1) []).released 0 = true ∧ obj1.arr + 1 < obj1.nsig)
    ∧ ({ phase pva (some obj1) [] with ents := [{ store0 with uid := 1, owners := [1] }] } : State).released 0 = false
    ∧ (({ obj1 with arr := 1 } : PhObj).arr + 1 = obj1.nsig ∧ 1 ≤ (obj1.nsig : Int) + obj1.dsig ∧ (0 : Int) ≤ obj1.nwait + obj1.dwait)
    ∧ ((phase pva (some obj1) []).waitersAt 0 0x100 = [])
    ∧ ((obj1.ph - 1 - 4).toNat < 2 ^ 31 ∧ ¬(obj1.ph - 1 - 5).toNat < 2 ^ 31 ∧ obj1.wpend < 4095)
    ∧ (let s := { phase pva (some obj1) [] with ents := [arrive1] }
      s.ent 5 = some arrive1 ∧ arrive1.esc = none ∧ arrive1.keyAt (scrKey 0 0x100) arrive1.firstAddr = scrKey 0 0x100
        ∧ (s.group 0 0).tag = arrive1.tag ∧ (s.ctxCore 0 0).saved = [] ∧ s.objLive 0 0x100 = true ∧ (s.obj 0 0x100).arr + 1 < (s.obj 0 0x100).nsig
        ∧ ((s.group 0 0).split 0).uid ∈ arrive1.owners) :=
  ⟨by unfold Landed; decide, placed_ok (by decide), by decide, by decide, by decide, by decide, by decide, by decide⟩

/-- A queue of 16 slots, empty, holding one record and full, owned by the device and by the control core; none. -/
def queue (head tail : BitVec 16) (own : Bool) : State :=
  { base with ctxs := [(0, { Ctx.empty with eqbase := 4, eqhead := head, eqtail := tail, eqOwn := own })] }
theorem witness_EventQueue : (Landed (queue 0 1 false) [8, 9, 10, 11] ∧ (queue 0 1 false).released 3 = true ∧ (queue 0 1 false).curSplit.queue = []
      ∧ (queue 0 1 false).phaserWaits = false)
    ∧ ((8 : BitVec 6).toNat % 4 = 0 ∧ (6 : BitVec 6).toNat % 4 ≠ 0) ∧ ((queue 0 1 true).ctx 0).eqOwn = true
    ∧ (((queue 0 1 false).ctx 0).eqhead ≠ ((queue 0 1 false).ctx 0).eqtail ∧ (4 : DWord).toNat / 16 % 64 = 0 ∧ 4 ≤ (4 : DWord).toNat % 16)
    ∧ ((queue 3 3 false).ctx 0).eqhead = ((queue 3 3 false).ctx 0).eqtail
    ∧ (((15 : BitVec 16).toNat + 1) % 16 = (0 : BitVec 16).toNat % 16 ∧ ((14 : BitVec 16).toNat + 1) % 16 ≠ (0 : BitVec 16).toNat % 16)
    ∧ ({ queue 0 1 false with ents := [{ store0 with uid := 1, owners := [1] }] } : State).released 3 = false
    ∧ ((queue 0 1 true).eqsel.toNat = 0 ∧ (1 : DWord).toNat < 16)
    ∧ ((1 + 16 - 0) % 16 ≤ (1 + 16 - 0) % 16 ∧ (1 + 16 - 0) % 16 < (2 + 16 - 0) % 16) := by unfold Landed; decide

/-- The placed machine with launch 1 under graph 0x4000_0005, a launch record of one unit at 0x2000, and s2 and s3 as given. -/
def unitLaunch : Launch := ⟨{ (default : LaunchRec) with gx := 1, gy := 1, gz := 1, groups := 1, regg := 1 }, 0, 0, 0, false, false, false⟩
def recBytes : List Byte := toBytes ((2 ^ 32 + 2 ^ 16 + 1) * 2 ^ 256 + (2 ^ 40 + 2 ^ 31 + 2 ^ 27) * 2 ^ 320) 256
def launching (va : DWord) (n : Nat) : State :=
  let s := mapped.modSplit ⟨0, 0, 0⟩ fun sp => { sp with s := [(2, va.extractLsb' 0 32), (3, va.extractLsb' 32 32)] }
  { s with
    mem := s.mem.writeN (2 ^ 30 + 0x2000) recBytes
    handles := [(1, ⟨0, 0x40000005, .running, 1, false, false, false⟩), (0x40000005, ⟨0, 0, .running, 1, false, false, false⟩)]
    launches := (List.range n).map fun i => (i, unitLaunch) }

theorem witness_LaunchWords : (Landed (launching 0x2000 0) [2, 3] ∧ (launching 0x2000 0).curSplit.spair 2 = 0x2000 ∧ (0x2000 : DWord).toNat % 256 = 0
      ∧ pathOf 0x2000 ≤ 1)
    ∧ ((launching 0x2080 0).curSplit.spair 2).toNat % 256 ≠ 0 ∧ 1 < pathOf ((launching 0x2000000000000000 0).curSplit.spair 2)
    ∧ 1024 ≤ (launching 0x2000 1024).inletHeld ∧ (launching 0x2000 1).inletHeld < 1024
    ∧ ((launching 0x2000 0).released 3 = true ∧ { launching 0x2000 0 with ents := [store0] }.released 3 = false)
    ∧ (launching 0x2000 0).homeReady 0 (noPath 0x2000) = true
    ∧ (match ((launching 0x2000 0).readLaunch 0 0x2000).1 with
      | some r => r.graph == 0 && r.ctx == 0 && !r.sysp
      | none => false) = true
    ∧ (launching 0x2000 0).takesChild 0x40000005 2 0 = true ∧ (launching 0x3000 0).takesChild 0x40000006 2 0 = false
    ∧ (levelOk true 5 0 = true ∧ levelOk false 0 4 = true ∧ (5 : BitVec 6) ≠ 0 ∧ 5 ≤ (5 : BitVec 3).toNat)
    ∧ ((inUnit spl).unitOf (inUnit spl).curGroup = some unit1 ∧ unit1.left < 2 ^ 30 ∧ unit1.ended = false ∧ unit1.away = false)
    ∧ ((launching 0x2000 0).handle 1 = some ⟨0, 0x40000005, .running, 1, false, false, false⟩ ∧ (launching 0x2000 0).handle 7 = none)
    ∧ (0x20000001 / 2 ^ 29 = 1 ∧ unitLaunch.complete = false ∧ unitLaunch.cancelled = false) := by
  refine ⟨⟨by unfold Landed; decide, by decide⟩, by decide, by decide, by decide, by decide, by decide, by decide, by decide, by decide, by decide,
    by decide, by decide, by decide, by decide⟩

/-- A session and a graph; an inlet of 16 entries with one in it, and full of 1,024 launches. -/
def owned : State :=
  { base with
    handles := [(0x80000001, ⟨0, 0, .running, 0, false, false, false⟩), (0x60000002, ⟨0, 0x80000001, .completed, 0, true, false, false⟩)]
    ds := ⟨0, 4, 0, 1, 0, 0⟩ }
theorem witness_Handles : (owned.handles.countP fun p => p.1 / 2 ^ 29 == 3) < 65536
    ∧ (owned.handle 0x80000001 = some ⟨0, 0, .running, 0, false, false, false⟩ ∧ (0x80000001 : Word).toNat / 2 ^ 29 = (3 : BitVec 3).toNat + 1)
    ∧ ¬(4 = (4 : BitVec 3) ∧ (1 : Word) = 0) ∧ (4 = (4 : BitVec 3) ∧ (0 : Word) = 0)
    ∧ (owned.handle 0x60000002 = some ⟨0, 0x80000001, .completed, 0, true, false, false⟩ ∧ HStatus.completed ≠ .running)
    ∧ owned.handle 5 = none ∧ (0x20000000 : Word).toNat / 2 ^ 29 < 2 ∧ 2 ≤ (0x80000001 : Word).toNat / 2 ^ 29
    ∧ (owned.ds.ibase.toNat / 16 % 64 = 0 ∧ owned.ds.ibase.toNat % 16 = 4) ∧ base.ds.ibase.toNat % 16 = 0
    ∧ ((0 + 16 - 0) % 16 < (1 + 16 - 0) % 16 ∧ (1 + 16 - 0) % 16 ≤ (15 + 16 - 0) % 16 ∧ 16 ≤ (16 : DWord).toNat)
    ∧ (owned.ds.ihead ≠ owned.ds.itail ∧ owned.inletHeld < 1024 ∧ base.ds.ihead = base.ds.itail)
    ∧ 1024 ≤ (launching 0x2000 1024).inletHeld := by decide

/-- A range of one page to lease, resident and not; a ring with room and without; a launch that is quiet, and one placeable. -/
def range (va : DWord) : Lease := ⟨7, 0, 0, 0, ⟨va, 0x0000000118000000⟩, false, false⟩
def asks (va lrbase : DWord) : State :=
  { (mapped.modDie 0 fun d => { d with lrbase := lrbase }) with leases := [range va], launches := [(7, unitLaunch)] }
def pages (r : Except DWord (List Leaf)) (s : State) : Bool :=
  match r with
  | .ok ls => ls.all fun x => s.memReady (x.keyOf 0 0)
  | .error _ => false
theorem witness_Placement : (asks 0 4).leases.find? (fun l => l.launch.toNat == 7 && l.idx == 0 && !l.granted && !l.asked) = some (range 0)
    ∧ (asks 0 4).leases.find? (fun l => l.launch.toNat == 8 && l.idx == 0 && !l.granted && !l.asked) = none
    ∧ pages ((asks 0 4).walkRange 0 (range 0).desc) (asks 0 4) = true
    ∧ pages ((asks 0x8000000000 4).walkRange 0 (range 0x8000000000).desc) (asks 0x8000000000 4) = false
    ∧ ((4 : DWord).toNat / 16 % 256 = 0 ∧ (4 : DWord).toNat % 16 ≠ 0 ∧ (0 + 1) % 16 ≠ 0 % 16 ∧ (15 + 1) % 16 = 0 % 16)
    ∧ ((asks 0 4).leases.filter fun x => x.die == 4 * (asks 0 4).node.toNat + 0 && x.ctx == 0 && !x.granted) = [range 0]
    ∧ ((asks 0 4).launches.find? (fun p => p.1 == (7 : Word).toNat) = some ((7 : Word).toNat, unitLaunch) ∧ unitLaunch.ended ≠ unitLaunch.rec_.total)
    ∧ (({ unitLaunch with ended := 1 } : Launch).ended = unitLaunch.rec_.total ∧ (∀ e ∈ (asks 0 4).ents, e.launch ≠ 7)
      ∧ (∀ p ∈ (asks 0 4).clusters, ∀ c ∈ p.2.window, c.launch ≠ 7) ∧ (∃ x ∈ (asks 0 4).leases, x.launch = 7) ∧ ¬∃ x ∈ base.leases, x.launch = 7)
    ∧ ((asks 0 4).placeable 7 unitLaunch = false ∧ ({ base with launches := [(7, unitLaunch)] } : State).placeable 7 unitLaunch = true)
    ∧ (unitLaunch.precedes unitLaunch = false ∧ unitLaunch.rec_.cset = 0)
    ∧ (({ base with launches := [(7, unitLaunch)] } : State).fits 1 unitLaunch.rec_ = true
      ∧ base.fits 1 { unitLaunch.rec_ with regg := 20, groups := 32 } = false) := by
  refine ⟨by decide, by decide, by decide, by decide, by decide, by decide, by decide, ⟨by decide, ?_, ?_, by decide, by decide⟩, by decide, by decide,
    by decide⟩
  · intro e h; cases h
  · intro p h; cases h

/-- A card of each kind in the unit's scratch at 0x40: 2 elements of 4 bytes from 0x1000 to 0x2000, the list of a gather at 0x3000. -/
def cardBytes (k : Nat) : List Byte :=
  let d (base word : Nat) := toBytes (2 ^ 61 + base) 8 ++ toBytes word 8
  let indexed := k == 2 || k == 3
  toBytes (k * 2 ^ 124 + 2 * 2 ^ 122 + 2 ^ 105 + 2 ^ 33) 16 ++ d 0x1000 0x0000000108000000 ++ d 0x2000 0x0000000104000000
    ++ (if indexed then d 0x3000 0x0000000108000000 else toBytes 0 16) ++ toBytes 0 16
    ++ toBytes ((if indexed then (2 ^ 61 + 0x3000) * 2 ^ 64 else 0) + 2 ^ 48 + 4 * 2 ^ 24 + (if k == 1 || k == 3 then 4 else 0)) 16
def carded (k off : Nat) : State :=
  let s := inUnit { spl with s := [(2, BitVec.ofNat 32 off)] }
  { s with mem := s.mem.writeN (scrKey 0 0x40) (cardBytes k) }
def card (k : Nat) : Card := (carded k 0x40).readCard unit1 0x40
def windowed (c : Card) : State := (carded 1 0x40).setCluster 0 ⟨1, [c]⟩
theorem witness_EngineJobs : (Landed (carded 1 0x40) [2] ∧ (carded 1 0x40).curSplit.queue = []
      ∧ (carded 1 0x40).unitOf (carded 1 0x40).curGroup = some unit1)
    ∧ (0x48 % 16 ≠ 0 ∧ 0x40 % 16 = 0 ∧ unit1.psize < 0xFFB0 + 96 ∧ 0x40 + 96 ≤ unit1.psize)
    ∧ (carded 1 0x40).cardBusy unit1 0x40 = false
    ∧ ({ carded 1 0x40 with ents := [{ store0 with uid := 1, owners := [1], kind := .sStore, path := 2, resp := .ok (scrKey 0 0x40) 0 }] } : State).cardBusy
      unit1 0x40 = true
    ∧ (∀ k ∈ [1, 2, 3, 4], (card k).headerOk k = true ∧ (card k).tailOk k = true ∧ (card k).rolesOk k = true)
    ∧ (card 1).headerOk 2 = false ∧ (∀ n, n < 4 → (carded 1 0x40).descInside unit1 ((card 1).desc n) = true)
    ∧ (carded 1 0x40).descInside { unit1 with psize := 0x1000 } ((card 1).desc 0) = false
    ∧ ((carded 1 0x40).mcastOk unit1 (card 1) = true ∧ (carded 1 0x40).phoffOk unit1 (card 1) = true ∧ (card 1).selfOverlap = false)
    ∧ (((carded 1 0x40).cluster 0).window.length < 64 ∧ 64 ≤ (List.replicate 64 (card 1)).length)
    ∧ ((windowed (card 1)).cluster 0).window.find? (fun x => x.job.toNat == 0) = some (card 1)
    ∧ ((card 1).started = false ∧ (windowed (card 1)).cardReleased (card 1) = true ∧ { card 1 with job := 1 }.conflicts (card 1) = true)
    ∧ (({ card 1 with started := true, perf := [(0, ()), (1, ())] } : Card).perf.length = (card 1).elems ∧ (card 1).phv = false ∧ (card 1).ev = false
      ∧ (card 1).status = 0 ∧ ({ card 1 with status := 5 } : Card).status = 5 ∧ ringFull 0 1 16 = false)
    ∧ ((card 1).kind = 1 ∧ (card 1).mcast = 0 ∧ 1 < (card 1).rows * (card 1).count ∧ Tab.has (card 1).perf 1 = false
      ∧ pathOf ((card 1).desc 0).base = 2 ∧ pathOf ((card 1).desc 1).base = 2)
    ∧ ((carded 1 0x40).scratchUnit unit1 0x2000000000002000 = some unit1 ∧ (carded 1 0x40).elemCheck (card 1) ((card 1).desc 0) 0x2000000000001004 4 = 0
      ∧ (carded 1 0x40).elemCheck (card 1) ((card 1).desc 1) 0x2000000000002004 4 = 0 ∧ (carded 1 0x40).phaserHit 0 0x2004 4 = false
      ∧ Tab.has ({ card 1 with vals := [(1, 9)] } : Card).vals 1 = true) := by
  exact ⟨⟨by unfold Landed; decide, by decide, by decide⟩, by decide, by decide, by decide, by decide, by decide, by decide, by decide, by decide,
    by decide, by decide, by decide, by decide, by decide, by decide⟩

/-- The placed machine with a 2 MiB leaf at 0 under an L2 table, a move ring of 16 slots with one order in it, a hint log, a frame pool
of expander frames, and one hint. -/
def order (frame tier size cmd : Nat) : Nat := frame * 2 ^ 156 + tier * 2 ^ 144 + size * 2 ^ 142 + cmd * 2 ^ 140 + 0x42 * 2 ^ 112
def ringed (o : Nat) (recs : Tab TransitRec) (syncs : List Sync) : State :=
  let m := ((mapped.mem.writeN (2 ^ 17) (toBytes (nodeWord (2 ^ 18)) 8)).writeN (2 ^ 18) (toBytes (leafWord (2 ^ 30)) 8)).writeN 0x8000 (toBytes o 32)
  let m := ((m.writeN (0xA000 + 128) (toBytes (2 * 2 ^ 32 + 1) 8)).writeN (0xA000 + 136) (toBytes 0xB000 8)).writeN 0xB000 (toBytes (2 ^ 46) 8)
  { (mapped.modDie 0 fun d => { d with
      txReady := true, txrbase := 0x8004, txrtail := 1, cxrng := [(0, 0x0000400000001001)], txlbase := 0x9004, txptab := 0xA000
      txpol := [(0, 0x104)], hints := [⟨0, 1, 0, 2⟩], recs := recs, syncs := syncs }) with mem := m }
def good : State := ringed (order (2 ^ 34) 2 2 0) [] []
def rec1 (st : TState) : TransitRec := ⟨st, 0, 0, 2 ^ 21, 0, 2 ^ 18, 2, 2 ^ 34, 3, 0x42, false, 0, none, 0, false, 0⟩
def leaves2 (s : State) (p : Leaf → Bool) : Bool :=
  match s.leafNow 0 0 with
  | some l => p l
  | none => false

/-- A unit that is resident; TLBSYNCs that may and may not complete; a decay that is due; pairs odd and even; hints of each kind. -/
theorem witness_DieCommands : (3 < 4 ∧ 1023 < 1024)
    ∧ (∃ p ∈ (inUnit spl).units, p.2.ctx = 0 ∧ p.2.ended = false ∧ p.2.away = false)
    ∧ (¬∃ p ∈ base.units, p.2.ctx = 0 ∧ p.2.ended = false ∧ p.2.away = false)
    ∧ ((base.die 0).syncs = [] ∧ mapped.translating 0 ⟨1, 0, false, none, []⟩ = false
      ∧ (inFlight [load1]).translating 0 ⟨1, 0, false, none, []⟩ = true)
    ∧ ((1 : DWord).getLsbD 0 = true ∧ (2 : DWord).getLsbD 0 = false)
    ∧ ((base.die 0).txdecay ≠ 0 ∧ (base.die 0).txdecay.toNat ≤ (({ base with chframe := 65536 } : State).chframe - (base.die 0).lastDecay).toNat
      ∧ ¬(base.die 0).txdecay.toNat ≤ (({ base with chframe := 65535 } : State).chframe - (base.die 0).lastDecay).toNat)
    ∧ (Landed base [2, 3] ∧ (3 : BitVec 6).toNat % 2 = 1 ∧ (2 : BitVec 2) ≠ 3 ∧ translated (pathOf 0) = true
      ∧ translated (pathOf 0x2000000000000000) = false ∧ base.populated 0 = true ∧ base.populated 1 = false)
    ∧ (good.die 0).hints = [⟨0, 1, 0, 2⟩] ∧ (good.die 0).freeRec = some 0 ∧ (good.die 0).txReady = true
    ∧ ((good.die 0).hintAllowed ⟨0, 1, 0, 2⟩ = true ∧ good.anyLease 1 0 = true ∧ (good.die 0).logRoom = true
      ∧ (good.die 0).hintAllowed ⟨0, 1, 0, 1⟩ = false)
    ∧ leaves2 good (fun l => l.state == 0 && l.tier != 2 && l.lo == 21) = true ∧ leaves2 mapped (fun l => l.lo == 30) = true
    ∧ (good.poolTake 0 2 2).1 = some (2 ^ 34)
    ∧ good.moveCode 0 ⟨0, 2 ^ 34, 0, 2, 2, 0, 0xFFFF, false⟩ (good.leafNow 0 0) = 1 ∧ base.leafNow 0 0 = none := by
  refine ⟨by decide, by decide, by decide, by decide, by decide, by decide, ?_, by decide, by decide, by decide, by decide, by decide, by decide,
    by decide, by decide, by decide⟩
  unfold Landed; decide

/-- The code that an order of the ring receives: one order for each clause, in the order of R363. -/
theorem witness_Moves : ((good.die 0).txReady = true ∧ (good.die 0).txrhead ≠ (good.die 0).txrtail ∧ (good.die 0).freeRec ≠ none
      ∧ (mapped.die 0).txrhead = (mapped.die 0).txrtail ∧ ofBytes (good.mem.readN 0x8000 32) = order (2 ^ 34) 2 2 0)
    ∧ (order 0 2 3 0 / 2 ^ 142 % 4 = 3 ∧ order 0 2 2 2 / 2 ^ 140 % 4 = 2 ∧ order 1 2 2 0 / 2 ^ 156 % 2 ^ 36 * 4096 % 2 ^ 21 ≠ 0)
    ∧ (ringed (order (2 ^ 34) 2 2 0) [] []).moveCode 0 (orderOf (order (2 ^ 34) 2 2 0)) none = 0x10
    ∧ leaves2 good (fun l => 2 ^ l.lo != 65536 && 2 ^ l.lo == 2 ^ 21 && l.state == 0 && l.tier != 2 && l.tier == 0
      && (0x8000 + 8 ≤ l.key || l.key + 8 ≤ 0x8000)) = true
    ∧ (good.expander 0 (2 ^ 34 * 4096) (2 ^ 21) = true ∧ good.expander 0 (2 ^ 35 * 4096) (2 ^ 21) = false)
    ∧ (order 0 2 2 1 / 2 ^ 140 % 4 = 1 ∧ (ringed (order 0 2 2 1) [(1, rec1 .copying)] []).rec_ 0 1 = some (rec1 .copying)
      ∧ (rec1 .copying).state = .copying ∧ (rec1 .done).state ≠ .copying)
    ∧ ((1 + 16 - 0) % 16 ≤ (2 + 16 - 0) % 16 ∧ (0 + 16 - 0) % 16 < (1 + 16 - 0) % 16 ∧ 16 ≤ (16 : DWord).toNat)
    ∧ (((ringed 0 [(1, rec1 .copying)] []).die 0).mayCopy (rec1 .copying) = true ∧ ((ringed 0 [] []).die 0).spent + 2 ≤ ((ringed 0 [] []).die 0).txquota
      ∧ good.memReady ((rec1 .copying).srcKey 0 384) = true ∧ good.memReady ((rec1 .copying).dstKey 0 384) = true
      ∧ good.unreachable ((rec1 .copying).dstKey 0 384) = false ∧ ¬4095 + 2 ≤ (good.die 0).txquota)
    ∧ ((3 + 1) * 128 ≠ (rec1 .copying).size ∧ (16383 + 1) * 128 = (rec1 .copying).size)
    ∧ (ringed 0 [(1, rec1 .copying)] []).recLeaf 1 (rec1 .copying) = none
    ∧ (({ ringed 0 [(1, rec1 .copying)] [] with
        mem := good.mem.writeN (2 ^ 18) (toBytes (2 ^ 52 + leafWord (2 ^ 30) + 2 ^ 14) 8) } : State).recLeaf 1 (rec1 .copying)).isSome = true
    ∧ (((ringed 0 [(1, rec1 .done)] [⟨0, 0, false, some 1, []⟩]).die 0).syncs = [⟨0, 0, false, some 1, []⟩]
      ∧ (ringed 0 [(1, rec1 .done)] [⟨0, 0, false, some 1, []⟩]).translating 0 ⟨0, 0, false, some 1, []⟩ = false
      ∧ (rec1 .aborting).hinted = false ∧ (rec1 .aborting).cancel = none)
    ∧ ringFull (base.ctx 0).eqhead (base.ctx 0).eqtail (base.ctx 0).eqSize = true := by
  refine ⟨by decide, by decide, by decide, by decide, by decide, by decide, by decide, by decide, by decide, by decide, by decide, by decide, by decide⟩

/-- SYSR and SYSW under way: of a register that is read only, of one that takes the write, of no register. -/
def sysEnt (kind : EKind) (sel : Word) : Entry :=
  { entry0 with kind := kind, op := 0, path := 5, dstN := 0, sdst := some 8, lpc := sel, word := 5, parts := [] }
def sysState (kind : EKind) (sel : Word) : State :=
  { one { grp spl with sysp := true } with ents := [{ sysEnt kind sel with unit := 1 }] }
theorem witness_SystemRegisters : (Landed base [3, 8, 9] ∧ (8 : BitVec 6).toNat % 2 = 0 ∧ (9 : BitVec 6).toNat % 2 = 1 ∧ base.curGroup.sysp = false
      ∧ (one { grp spl with sysp := true }).curGroup.sysp = true ∧ base.fenced 1 = false)
    ∧ ((sysState .sysr 0x70000000).ent 5 = some { sysEnt .sysr 0x70000000 with unit := 1 }
      ∧ (sysState .sysr 0x70000000).performOk { sysEnt .sysr 0x70000000 with unit := 1 } = true
      ∧ ((sysState .sysr 0x70000000).group 0 0).tag = 0 ∧ ((sysState .sysr 0x70000000).ctxCore 0 0).saved = []
      ∧ (((sysState .sysr 0x70000000).group 0 0).split 0).uid ∈ [1])
    ∧ ((sysState .sysw 0x90000002).dropEnt 5).sysWrite 0x90000002 5 = (false, (sysState .sysw 0x90000002).dropEnt 5)
    ∧ (((sysState .sysw 0x70000000).dropEnt 5).sysWrite 0x70000000 5).1 = true
    ∧ (((sysState .sysw 0x70000000).dropEnt 5).sysWrite 0x70000000 5).2.groups = (sysState .sysw 0x70000000).groups
    ∧ (selOk 0x70000000 = true ∧ selOk 0 = false) ∧ (3 < 4 ∧ 255 < 256 ∧ 1023 < 1024 ∧ 15 < 16 ∧ 12 < 13) := by
  refine ⟨⟨by unfold Landed; decide, by decide⟩, by decide, rfl, rfl, rfl, by decide, by decide⟩

/-- A context in each state that a command names, one to save and one to bring back. -/
def inState (st : CtxState) (saved : Tab Group) : State :=
  { base with ctxCores := [(0, { CtxCore.empty with state := st, saved := saved })] }
def placing : State :=
  { mapped with
    groups := [], ctxCores := [(0, { CtxCore.empty with state := .restoring, saved := [(0, grp spl)] })]
    ctxs := [(0, { Ctx.empty with savbase := 1 })] }
def saves (s : State) : State :=
  { (s.setCtx 0 { s.ctx 0 with savbase := 1 }) with groups := [] }
def leaving : State := (saves mapped).setCtxCore 0 0 { CtxCore.empty with state := .evicting }
def leavingNow : List ImgPiece := imageLines (((leaving.chooseDiscards 0 0).withdrawAll 0 0).image 0 0)
theorem witness_ContextCommands : ((base.stateOn 0 0 = .running ∧ [0] ≠ [] ∧ ∀ k ∈ [0], base.stateOn 0 k ∈ [.running])
      ∧ (inState .halted []).stateOn 0 0 ∈ [.preempted, .halted] ∧ (inState .evicted []).stateOn 0 0 ∈ [.evicted]
      ∧ base.stateOn 0 0 ∉ [.preempted, .halted] ∧ base.linkedCores 0 false [0] = [0])
    ∧ ((inState .evicting []).evictWaits 0 0 = false ∧ (inState .evicting []).stateOn 0 0 = .evicting ∧ base.stateOn 0 0 ≠ .evicting
      ∧ ((inState .evicting []).group 0 0).arr = none ∧ (∀ e ∈ (inState .evicting []).ents, inFifos 0 0 e = false))
    ∧ ((inState .evicting []).saving 0 0 = false ∧ (inState .evicting []).saveOpen 0 0 ((inState .evicting []).imageAddr 0 0) = false
      ∧ (saves mapped).saveOpen 0 0 ((saves mapped).imageAddr 0 0) = true)
    ∧ ((leavingNow ≠ [] ∧ newLines leavingNow ((leaving.ctxCore 0 0).sent.getD []) ≠ [])
      ∧ (let s := leaving.setCtxCore 0 0 { leaving.ctxCore 0 0 with sent := some leavingNow }
      newLines (imageLines (((s.chooseDiscards 0 0).withdrawAll 0 0).image 0 0)) ((s.ctxCore 0 0).sent.getD []) = []))
    ∧ (placing.stateOn 0 0 = .restoring ∧ placing.restoreRoom 0 0 = true ∧ (placing.ctxCore 0 0).rowOff = [])
    ∧ { placing with groups := [(0, grp spl)] }.restoreRoom 0 0 = false
    ∧ placing.linkedCores 0 true [0] = [0] ∧ (placing.restoreCore 0 0).isSome = true ∧ (placing.ctxCore 0 0).saved ≠ []
    ∧ (∀ p ∈ (placing.ctxCore 0 0).saved, p.1 < 64 ∧ p.2.live = true ∧ p.2.ctx = 0)
    ∧ (placing.ctxCore 0 0).saved.Pairwise (fun p q => p.1 ≠ q.1) := by
  refine ⟨by decide, ⟨by decide, by decide, by decide, by decide, ?_⟩, by decide, by decide, by decide, by decide, by decide, by decide, by decide,
    by decide, by decide⟩
  intro e h; cases h

/-- A split that parked whole, with a RESUME for it, for a split that did not, and for no group; a RESUME that is held. -/
def parked : Split :=
  { spl with status := .parked, record := { (default : FaultRec) with kind := .align, mask := Mask.full, scw := true } }
def cmd (k : Nat) (tv : Bool) (slot : Nat) : Nat := 2 ^ 60 + k * 2 ^ 58 + (if tv then 2 ^ 57 else 0) + slot * 2 ^ 41
def pending : Split := { parked with status := .resumePending, resume := some ⟨0, false, 0, 0⟩ }
def report : HeldFault :=
  ⟨{ entry0 with parts := (List.range 32).map fun l => ⟨l, 0, 4, []⟩ }, ⟨.perm, .write, 0⟩⟩
theorem witness_Resumes : (parked.record.nest = false ∧ parked.rest = 0 ∧ parked.replay = [] ∧ parked.joins = [] ∧ parked.record.mask ≠ 0
      ∧ parked.record.rpl = false ∧ parked.record.scw = !parked.headFault ∧ parked.record.kind ≠ .lease)
    ∧ ((of parked).groupOf ⟨0, 0, 0⟩).live = true ∧ ((of parked).groupOf ⟨0, 1, 0⟩).live = false ∧ spl.status ≠ .parked
    ∧ ((of parked).ctxCore 0 0).saved = []
    ∧ (∀ k, k < 3 → cmd k false 0 / 2 ^ 58 % 4 = k ∧ cmd k false 0 / 2 ^ 60 = 1 ∧ cmd k false 0 / 2 ^ 32 % 64 = 0 ∧ cmd k false 0 / 2 ^ 57 % 2 ≠ 1)
    ∧ (cmd 0 true 0 / 2 ^ 57 % 2 = 1 ∧ (cmd 0 false 0 + 2 ^ 32) / 2 ^ 32 % 64 ≠ 0 ∧ cmd 0 false 1 / 2 ^ 41 % 64 = 1)
    ∧ (of parked).stateOn 0 0 = .running
    ∧ (pending.status = .resumePending ∧ pending.resume = some ⟨0, false, 0, 0⟩ ∧ parked.status ≠ .resumePending
      ∧ ({ of pending with ctxCores := [] } : State).stateOn 0 0 ≠ .running)
    ∧ (((base.die 0).mtack - 0).toNat < 2 ^ 31 ∧ ¬((base.die 0).mtack - 1).toNat < 2 ^ 31)
    ∧ (({ spl with held := [report] } : Split).held = [report] ∧ report.entry.scw = false ∧ report.entry.ag = ⟨0, 0, 0⟩
      ∧ report.entry.wholeSplit = false ∧ spl.mask ≠ 0 ∧ report.entry.lanes = spl.mask ∧ report.fail.kind ≠ .lease
      ∧ (∀ n, n < 8 → n ≠ 0 → ((grp spl).split n).status = .absent) ∧ (base.ctx 0).toHandler .perm false = false)
    ∧ ((base.ctx 0).wdint ≠ 0 ∧ base.awaitingResume 0 = false ∧ (∃ p ∈ base.splitsOfCtx 0, base.stateOn 0 p.1.core = .running)
      ∧ (of parked).awaitingResume 0 = true ∧ (⟨0, 0, 0⟩, spl) ∈ base.splitsOfCtx 0 ∧ base.splitOf ⟨0, 0, 0⟩ = spl ∧ spl.drain = none
      ∧ (base.ctx 0).toHandler .watchdog false = false) := by decide

/-- A link in and out of service, with 15 bad tags, with a notice; masks that leave 8 and 7 wavelengths; a port and a peer; the
host's window open over a page. -/
def linked (l : Link) : State := { base with links := [(0, l), (4, l)] }
def window : State := { mapped with ds := { mapped.ds with hmctx := 0x400 } }
theorem witness_Links : (({ base with snap := { base.snap with frame := 1, src := BitVec.ofNat 18 (2 ^ 16) } } : State).chframe + 1 = 1
      ∧ Armed { base with snap := { base.snap with frame := 1, src := BitVec.ofNat 18 (2 ^ 16) } } 17 ∧ ¬Armed base 17)
    ∧ ((base.die 0).rngLoop = true ∧ ({ base.die 0 with rngLoop := false } : Die).rngLoop = false ∧ 103 < 104 ∧ 63 < 64 ∧ 17 < 18)
    ∧ ((base.link 4).service = true ∧ ((linked { Link.empty with service := false }).link 4).service = false
      ∧ ((linked { Link.empty with macBad := 15 }).link 4).macBad = 15 ∧ (base.link 4).macBad < 15)
    ∧ (((linked { Link.empty with notices := [(0xFF, 0)] }).link 0).notices ≠ [] ∧ (base.link 0).notices = [])
    ∧ (0xFFFF &&& (1 : BitVec 16) ≠ 0 ∧ 0xFFFE &&& (1 : BitVec 16) = 0)
    ∧ (((List.range 16).filter fun i => (0x00FF : BitVec 16).getLsbD i).length = 8
      ∧ ((List.range 16).filter fun i => (0x007F : BitVec 16).getLsbD i).length < 8)
    ∧ (3 < 4 ∧ 4 ≤ 4 ∧ (1 ≠ base.node.toNat ∧ 1 ∉ base.lostPeers) ∧ 1 ∈ ({ base with lostPeers := [1] } : State).lostPeers)
    ∧ ((ringed 0 [(1, rec1 .copying)] []).rec_ 0 1 = some (rec1 .copying) ∧ ((rec1 .copying).dstTier == 2) = true
      ∧ (rec1 .copying).dstFrame * 4096 / 2 ^ 46 % 4 = 1)
    ∧ (window.ds.hmctx.getLsbD 10 = true ∧ pathOf (window.ds.hmbase + 0) = 0 ∧ window.populated 0 = true ∧ [(1 : Byte)] ≠ [] ∧ base.ds.hmctx.getLsbD 10 = false)
    ∧ (window.homeReady 0 0 = true ∧ 0 % 128 + 1 ≤ 128 ∧ (match (window.ownerCheck 0 none .store 0).1 with
      | .ok (k, _) => (window.transitOf 0 0).isNone && !window.unreachable k && !(window.line (k / 128)).poison && !(window.line (k / 128 + 1)).written
          && (window.line (k / 128)).tag == none
      | .error _ => false) = true)
    ∧ (match (window.ownerCheck 0 none .store 0x8000000000).1 with
      | .ok _ => false
      | .error _ => true) = true := by
  refine ⟨⟨by decide, by unfold Armed; decide, by unfold Armed; decide⟩, by decide, by decide, by decide, by decide, by decide, by decide, by decide,
    by decide, by decide, by decide⟩

/-- A sample on and off the grid of 100 µs while time is locked; functions that exist and that do not; the debugger's trigger. -/
theorem witness_PowerAndSnapshots : (base.power.lock = false ∧ (100000 : DWord).toNat % 100000 = 0 ∧ (100001 : DWord).toNat % 100000 ≠ 0)
    ∧ ({ base.power with lock := true } : Power).lock = true ∧ 25 ≤ 25 ∧ ¬(25 ≤ 24 ∨ 24 = 14 ∧ Config.hasLpddr = false)
    ∧ Armed { base with snap := { base.snap with src := BitVec.ofNat 18 (2 ^ 13) } } 14 ∧ ¬Armed base 14
    ∧ (2 ^ 62 ≤ scrKey 0 0 ∧ 2 ^ 61 ≤ sysKey 0 ∧ sysKey 0 < 2 ^ 62 ∧ physKey 0 0 0 < 2 ^ 61 ∧ physKey 0 0 0 / 2 ^ 52 = 0
      ∧ physKey 4 0 0 / 2 ^ 52 ≠ 0) := by
  refine ⟨by decide, rfl, by decide, by decide, by unfold Armed; decide, by unfold Armed; decide, by decide⟩

theorem witness_EncodeDecode : encodeScalar (.sadd 5 5 1 true) = some 0x40514180 ∧ decodeScalar 0x40514180 = .instr (.sadd 5 5 1 true)
    ∧ encodeLane (.ltrap { lw with pred := 2, mod := 5 }) = some 0x680400000000000000000005
    ∧ decodeLane 0x680400000000000000000005 = .ltrap { lw with pred := 2, mod := 5 } ∧ encode .snop ≠ [] := by decide

/-- A turn of a split that runs: with a word fetched, with one to fetch, at an address with no page, of an absent split; a lane turn;
an event. -/
def turned (t : Turn) : State := { mapped with agenda := [t], curLane := false }
def fetchedWord : State := mapped.modSplit ⟨0, 0, 0⟩ fun sp => { sp with fetched := some 0x18000000 }
theorem witness_StepRuns : (turned (.scalar ⟨0, 0, 0⟩)).agenda = [.scalar ⟨0, 0, 0⟩]
    ∧ (mapped.agentHere ⟨0, 0, 0⟩ = true ∧ mapped.agentHere ⟨0, 0, 1⟩ = false ∧ mapped.outranked ⟨0, 0, 0⟩ false = false
      ∧ mapped.scalarReady ⟨0, 0, 0⟩ = true)
    ∧ ((fetchedWord.splitOf ⟨0, 0, 0⟩).fetched = some 0x18000000 ∧ decodeScalar 0x18000000 = .instr .exit ∧ decodeScalar 0x18000001 = .badField
      ∧ fetchedWord.gated ⟨0, 0, 0⟩ .exit = false ∧ leaves (exec .exit fetchedWord) (fun _ => true) = true)
    ∧ ((mapped.splitOf ⟨0, 0, 0⟩).fetched = none ∧ mapped.fetchReady ⟨0, 0, 0⟩ 0 4 = true ∧ base.fetchReady ⟨0, 0, 0⟩ 0 4 = false
      ∧ base.scalarReady ⟨0, 0, 1⟩ = false)
    ∧ (match (mapped.fetchBytes ⟨0, 0, 0⟩ 0 4).1 with
      | .ok bs => bs == [0, 0, 0, 0x18]
      | .error _ => false) = true
    ∧ (match (mapped.fetchBytes ⟨0, 0, 0⟩ 0x8000000000 4).1 with
      | .ok _ => false
      | .error f => f.kind == .lease) = true
    ∧ ((State.reset.withFetchWord 96 0x690000000000000000000000).laneReady ⟨0, 0, 0⟩ = true ∧ mapped.laneReady ⟨0, 0, 0⟩ = false
      ∧ ((State.reset.withFetchWord 96 0x690000000000000000000000).splitOf ⟨0, 0, 0⟩).headFault = false
      ∧ decodeLane ((State.reset.withFetchWord 96 0x690000000000000000000000).headOf ⟨0, 0, 0⟩).word = .lnop lw)
    ∧ (isEvent .teltimeLatch = true ∧ leaves (exec .teltimeLatch (turned (.event .teltimeLatch))) (fun _ => true) = true)
    ∧ (mapped.fetchCheck ⟨0, 0, 0⟩ 0 = none ∧ mapped.copies = [] ∧ mapped.transitOf 0 0 = none ∧ mapped.unreachable (2 ^ 30) = false
      ∧ (mapped.line (2 ^ 30 / 128)).poison = false ∧ (mapped.line (2 ^ 30 / 128)).tag = none)
    ∧ (match (mapped.ownerCheck 0 (some 1) .fetch 0).1 with
      | .ok (k, _) => k == 2 ^ 30
      | .error _ => false) = true := by
  refine ⟨rfl, by decide, by decide, by decide, by decide, by decide, by decide, by decide, by decide, by decide⟩

/-- The invariant holds at reset and at a state that steps. -/
theorem witness_MemoryKept : MemOk State.reset ∧ MemOk mapped ∧ leaves (step mapped) (fun _ => true) = true :=
  ⟨rfl, by unfold MemOk; decide, by decide⟩

/-! ### More witnesses: the forms and clauses beside those above -/

/-- The constants of R25, codes 848 to 863, in their order in the table. -/
theorem test_constants : ((List.range 16).map fun i => (quiet.laneEnv lw).raw (BitVec.ofNat 10 (848 + i)) ⟨0, 0, 0⟩ 0)
    = [0x80000000, 0x7F800000, 0xFF800000, 0x7FC00000, 0x7F7FFFFF, 0x00800000, 0x7FFFFFFF, 0x3FB8AA3B, 0x3F803F80, 0x3C003C00, 0x38383838,
      0x3C3C3C3C, 0x22222222, 0x01010101, 0x11111111, 0x40490FDB] := by decide

/-- An untracked load of the core that has its answer races with a word that reads its register. -/
def untracked1 : Entry := { entry0 with trk := false, resp := .ok (2 ^ 30) 0 }
theorem witness_OperandCodes_races : ({ quiet with ents := [untracked1] } : State).racers 0 0 = [untracked1]
    ∧ (848 : BitVec 10).toNat = 848 ∧ (863 : BitVec 10).toNat = 863 ∧ (864 : BitVec 10).toNat = 864 := by decide

/-- LRUN of 3 words on a later turn: one place is free and 3 are left. -/
def running3 : State := (State.reset.withFetchWord 32 0x28030000).modSplit ⟨0, 0, 0⟩ fun sp => { sp with lrun := 3, queue := q15 }
theorem witness_RunLaneWords_continues : running3.curSplit.lrun = 3 ∧ min 3 (16 - running3.curSplit.queue.length) = 1 ∧ (1 : Nat) ≠ 3
    ∧ running3.fetchReady ⟨0, 0, 0⟩ (running3.curGroup.lbase + 12 * running3.curSplit.lpc.setWidth 64) 12 = true
    ∧ (∀ n, running3.awaits ⟨0, 0, 0⟩ n = false) := ⟨by decide, by decide, by decide, by decide, fun _ => rfl⟩

/-- A debugger armed with the context running on core 0, pre-empted on core 5 and absent elsewhere; a group with a parked split. -/
def armedBkpt : State :=
  ({ base with ctxs := [(0, { Ctx.empty with arm := true })] } : State).setCtxCore 0 5 { CtxCore.empty with state := .preempted }
theorem witness_SteeringWords_armed : (armedBkpt.ctx 0).arm = true ∧ armedBkpt.stateOn 0 0 = .running ∧ armedBkpt.stateOn 0 5 = .preempted
    ∧ armedBkpt.stateOn 0 6 = .absent
    ∧ (({ grp spl with idem := true, splits := [(0, spl), (4, { spl with status := .parked })] } : Group).split 4).status
      ∈ [SplitStatus.parked, .trapped, .resumePending] := by decide

/-- BKPT halts the context where it is pre-empted too (R327). -/
theorem test_bkpt_halts : leaves (exec (.bkpt 0) armedBkpt) (fun t => t.stateOn 0 0 == .halted && t.stateOn 0 5 == .halted && t.stateOn 0 6 == .absent)
    = true := by decide

/-- The frame of a handler with an ACT; MASK is lanes 0 to 3 of lanes 0 to 7. -/
def acting (act : Byte) (f : Split → Split) : State :=
  let s := (trapping []).modSplit ⟨0, 0, 0⟩ f
  { s with mem := s.mem.writeN (2 ^ 30 + (s.frameAddr 0 0 0 0).toNat + 0x7C) [act] }
def actOf (s : State) : Option (Nat × Nat) :=
  match (s.coreRead 0 0 (s.frameAddr 0 0 0 0) 128).1 with
  | .ok b => some (ofBytes ((b.drop 0x7C).take 4) % 4, ofBytes ((b.drop 12).take 4) &&& ofBytes ((b.drop 0x70).take 4))
  | .error _ => none
theorem witness_TrapReturns_acts : (actOf (acting 0 fun sp => { sp with setReplay := [{ entry0 with scw := true }] }) = some (0, 0xF)
      ∧ entry0.isWait = false ∧ entry0.parts ≠ [])
    ∧ actOf (acting 1 id) = some (1, 0xF)
    ∧ (actOf (acting 2 fun sp => { sp with rest := 0xF0000 }) = some (2, 0xF) ∧ (acting 2 fun sp => { sp with rest := 0xF0000 }).curSplit.rest ≠ 0
      ∧ (acting 2 id).curSplit.rest = 0 ∧ (acting 2 id).curSplit.setJoins = [])
    ∧ actOf (acting 3 id) = some (3, 0xF)
    ∧ ({ acting 0 id with ents := [{ entry0 with kind := .gStore, uid := (acting 0 id).curSplit.uid, owners := [(acting 0 id).curSplit.uid] }] } :
        State).storesVisible (acting 0 id).curSplit.uid = false := by
  decide

/-- TRET with ACT 1 to 3: the split goes on with the lanes of both masks, ends, or stays parked with them (R320). -/
theorem test_tret_acts : (leaves (exec .tret (acting 1 id)) (fun t => t.curSplit.status == .running && t.curSplit.mask == 0xF)
    && leaves (exec .tret (acting 2 id)) (fun t => t.curSplit.status == .absent)
    && leaves (exec .tret (acting 3 id)) (fun t => t.curSplit.status == .parked && t.curSplit.record.mask == 0xF)) = true := by decide

/-- A fence that has not completed holds the words that read memory (R247). -/
theorem witness_ArrayWords_fence : ({ armed 3 none with ents := [{ entry0 with kind := .fence }] } : State).fenced 1 = true
    ∧ ({ armed 3 none with ents := [{ entry0 with kind := .fence }] } : State).curGroup.arr = none := by decide

/-- A round of four groups of one unit in slots 0 to 3. -/
def quad (started halt : Bool) : State :=
  let a : ArrayWord := { aw with w := qw, started := started, halt := halt }
  { armed 3 none with groups := (List.range 4).map fun n => (n, { (armed 3 none).curGroup with num := n, arr := some a }) }
theorem witness_MloopTurns_rounds : (armed 3 (some aw)).loopSlots 0 0 = [0] ∧ (quad false false).loopSlots 0 1 = [0, 1, 2, 3]
    ∧ (∀ h ∈ [0, 1, 2, 3], (((quad true false).group 0 h).arr.getD aw).done = 0 ∧ (((quad true false).group 0 h).arr.getD aw).k = 2
      ∧ (((quad true false).group 0 h).arr.getD aw).started = true ∧ (quad true false).groupRuns 0 h = true
      ∧ (((quad true false).group 0 h).arr.getD aw).halt = false)
    ∧ (((quad true true).group 0 1).arr.getD aw).halt = true ∧ modBits qw 9 8 = 0
    ∧ (∀ p ∈ (quad false false).groupsOn 0, (p.2.arr.bind fun b => b.order) = some 0) := by decide

/-- An escorted word that a retry has put at the head sends no escort (R326). -/
theorem witness_EscortedWords_retry :
    LaneReady 0x5A ew (vecWin 0 1 ++ ([] ++ []) ++ vecWin 20 2) ((escState 4).modSplit ⟨0, 0, 0⟩ fun sp => { sp with headFault := true })
    ∧ ((escState 4).modSplit ⟨0, 0, 0⟩ fun sp => { sp with headFault := true }).curSplit.headFault = true :=
  ⟨ready_laneReady (by decide), by decide⟩

/-- Two requests for one channel: an older stamp, an earlier writer, and an earlier packet of one writer; a line of another node
while the plane's group still owes a replay; twelve copies in one set, and one more. -/
def rival (core : Nat) (inj : Word × Nat) : Entry := { ent0 with id := 4, wid := 4, ag := ⟨core, 0, 0⟩, inj := some inj }
def behind (core : Nat) (inj : Word × Nat) : Entry := { ent0 with ag := ⟨core, 0, 0⟩, inj := some inj }
def blocked : State := { mapped with links := [(8, { Link.empty with service := false, replay := [⟨3, 3, 0⟩] })], domain := [1] }
def copyAt (i : Nat) : Copy := ⟨0, .generic, 0, BitVec.ofNat 64 (128 * i), List.replicate 128 0, List.replicate 128 0⟩
theorem witness_FieldRequests_order :
    ((inFlight [rival 0 (0xFFFFFFFF, 9), behind 0 (0, 5)]).canServe (rival 0 (0xFFFFFFFF, 9)) = true
      ∧ (inFlight [rival 0 (0xFFFFFFFF, 9), behind 0 (0, 5)]).channelOf (rival 0 (0xFFFFFFFF, 9)) = mapped.channelOf (behind 0 (0, 5))
      ∧ ((0 : Word) - 0xFFFFFFFF).toNat ≤ 2 ^ 31)
    ∧ ((inFlight [rival 0 (0, 9), behind 8 (0, 5)]).canServe (rival 0 (0, 9)) = true
      ∧ (0 + 127 - Tab.get 127 mapped.served 0) % 128 < (1 + 127 - Tab.get 127 mapped.served 0) % 128)
    ∧ (inFlight [rival 0 (0, 4), behind 0 (0, 5)]).canServe (rival 0 (0, 4)) = true
    ∧ (blocked.mayCross 0 0 none .load (2 ^ 51) 0 = false ∧ mapped.mayCross 0 0 none .load 0 0 = true)
    ∧ (mapped.copies.length < 12 ∧ 12 ≤ ((List.range 13).map copyAt).length)
    ∧ (match (mapped.ownerLook 0 none .load 0).1 with
      | .ok (k, _) => ((mapped.ownerLook 0 none .load 0).2.homeRead 0 0 k 128).1.isSome
      | .error _ => false) = true
    ∧ (match (base.ownerLook 0 none .load 0).1 with
      | .ok _ => false
      | .error _ => true) = true := by decide

/-- A line that holds the context's own bytes; no expander is asked about HBM4. -/
theorem witness_StorePerforms_own : ((fresh { LineMeta.empty with written := true, tag := some (mapped.tagFor 0 0 0) }).line (2 ^ 30 / 128)).tag
      = some (mapped.tagFor (ownerOf store1.line) store1.ctx (noPath store1.line))
    ∧ (inFlight [store1]).expanderBad (2 ^ 30) = false
    ∧ (released1.relLog.all fun r => r.core != 7 || r.covers.isEmpty) = true := by decide

/-- A load bound early, one whose byte is at home, and one behind a fault that its home sent before. -/
theorem witness_LoadCompletes_bound : ({ load1 with parts := [⟨0, 0, 4, [1, 2, 3, 4]⟩] } : Entry).bound = true ∧ load1.bound = false
    ∧ (inFlight [load1]).fromHome load1 = true ∧ (inFlight [load1]).repliesBefore load1 = true
    ∧ ({ inFlight [{ ent0 with id := 4, wid := 4, resp := .bad ⟨.perm, .write, 0⟩ 2 }, load1] with tick := 3 } : State).repliesBefore load1 = false
    ∧ mapped.floors = [] := by decide

/-- A line that a move has copied: the service finds its copy too (R81, R83). -/
def copying : State :=
  { ringed 0 [(1, rec1 .copying)] [] with mem := good.mem.writeN (2 ^ 18) (toBytes (2 ^ 52 + leafWord (2 ^ 30) + 2 ^ 14) 8), ents := [atom1] }
theorem witness_AtomicService_mirror : (copying.serve 0 (noPath atom1.line) (2 ^ 30)).1 = 2 ^ 30
    ∧ (copying.serve 0 (noPath atom1.line) (2 ^ 30)).2.isSome = true ∧ copying.performOk atom1 = true ∧ copying.probeWaits atom1 = false
    ∧ released1.probeWaits { probing with kind := .gAtomic } = true ∧ (inFlight [atom1]).expanderBad (2 ^ 30) = false := by decide

/-- PHINIT of no signallers; a card that arrives on a phaser that has been freed. -/
theorem witness_PhaserObjects_config : ¬(1 ≤ 0x05FFF000 % 4096 ∧ 0x05FFF000 / 2 ^ 24 ≤ 4)
    ∧ (let c : Card := { card 1 with header := (card 1).header ||| BitVec.ofNat 128 (2 ^ 103), phgone := true, started := true, perf := [(0, ()), (1, ())] }
      c.phv = true ∧ c.phgone = true ∧ c.status = 0 ∧ c.perf.length = c.elems ∧ c.ag.core < 256 ∧ c.doneCount < 2 ^ 32) := by decide

/-- A decay due for two intervals; a hint to an unpopulated node, and one for a node that no link can reach now, which waits as an entry. -/
theorem witness_DieCommands_hints : (0 < 511 ∧ 511 < 512) ∧ ((({ base with chframe := 131072 } : State).chframe - (base.die 0).lastDecay).toNat / (base.die 0).txdecay.toNat = 2)
    ∧ (mapped.populated (nodeOf (2 ^ 51)) = false ∧ blocked.populated (nodeOf (2 ^ 51)) = true ∧ blocked.mayLeave 0 (2 ^ 51) 0 = false
      ∧ Landed blocked [2, 3]) := by unfold Landed; decide

/-- The turn is that of the one move; a quota of nothing and a quota of one flit that is unspent; a destination that is not unreachable. -/
theorem witness_Moves_turns : copying.canCopy 0 (rec1 .copying) = true ∧ (copying.die 0).copied = none ∧ (copying.die 0).txquota ≠ 0
    ∧ ((copying.modDie 0 fun d => { d with txquota := 1 }).die 0).spent = 0 ∧ ((copying.modDie 0 fun d => { d with txquota := 0 }).die 0).txquota = 0
    ∧ copying.copyMayLeave 0 (rec1 .copying) = true ∧ copying.copyNext 0 (rec1 .copying) = true ∧ copying.unreachable ((rec1 .copying).dstKey 0 384) = false
    ∧ ({ copying with downPorts := [1] } : State).unreachable ((rec1 .copying).dstKey 0 384) = true := by decide

/-- A saved image that can be read where the group's record is. -/
theorem witness_ContextCommands_record : ((placing.readImage 0 0 (0x10000 + 0x8800) 0x3F0).1.isSome = true)
    ∧ placing.ctxUnits 0 0 true = [] ∧ (placing.ctxCore 0 0).objs = [] := by decide

/-- A slot that is acknowledged, a number that none has, and nothing owed; a packet on its way to a host window. -/
theorem witness_Links_owed : (linked { Link.empty with replay := [⟨3, 3, 0⟩] }).link 0 = { Link.empty with replay := [⟨3, 3, 0⟩] }
    ∧ (∃ x ∈ ([⟨3, 3, 0⟩] : List Flit), x.seq = 3) ∧ (∀ x ∈ ([⟨3, 3, 0⟩] : List Flit), x.seq ≠ 4)
    ∧ (∀ f g, f < 64 → g < 4 → (base.link (8 * f + g)).service = false → (base.link (8 * f + g)).replay = [])
    ∧ (blocked.link 8).service = false ∧ (blocked.link 8).replay ≠ []
    ∧ window.mayCross 0 0 none .store 0 1 = true ∧ window.mayCross 0 0 none .load 0 0 = true
    ∧ blocked.mayCross 0 0 none .store (2 ^ 51) 1 = false ∧ window.expanderBad (2 ^ 30) = false := by
  refine ⟨by decide, by decide, by decide, ?_, by decide, by decide, by decide, by decide, by decide, by decide⟩
  intro f g _ _ h
  have : base.link (8 * f + g) = Link.empty := rfl
  rw [this]
  rfl

/-- Samples inside the band of an interval, outside it, below an empty band's ends, and off in time or in mW; a demand inside, below and
above the next band, with FILL promoted before. -/
def sampling : Power :=
  { base.power with
    runs := true, mean := 1000, latest := ⟨0, 1000000, 0⟩, down := 40, up := 45, cap := 1004, newCap := 1004, lock := true, synced := true }
theorem witness_PowerAndSnapshots_band : (1000000 - 100 * 40 ≤ 1000000 ∧ 1000000 ≤ min (1000000 + 100 * 45) (1000 * 1004))
    ∧ ¬(1000000 - 100 * 40 ≤ 995999 ∧ 995999 ≤ min (1000000 + 100 * 45) (1000 * 1004))
    ∧ (sampling.held 1000500 = true ∧ sampling.held 995999 = false ∧ sampling.held 1004000 = true ∧ sampling.held 1004001 = false)
    ∧ (sampling.lock = true ∧ sampling.synced = true ∧ sampling.onTime 100000 = true ∧ sampling.onTime 200000 = false)
    ∧ ((1000500 : Word).toNat / 1000 = 1000 ∧ (999999 : Word).toNat / 1000 ≠ 1000)
    ∧ (1000 * 900 < 1000000 - 100 * sampling.newDown ∧ min (1000000 + 100 * sampling.newUp) (1000 * sampling.newCap) < 1000 * 1100)
    ∧ base.power.runs = false := by decide

/-- The example of R353 and R354: a mean of 1,000 W with UP 45 and a cap of 1,004 W is capped; with a cap of 1,005 W it is not. -/
theorem test_capped : ((({ base.power with newUp := 45, newCap := 1004 } : Power).sample 1000 1000 1000000 0 false).capped,
    (({ base.power with newUp := 45, newCap := 1005 } : Power).sample 1000 1000 1000000 0 false).capped) = (true, false) := by decide

/-- A word whose fetch failed, at its retry. -/
def refetching : State :=
  (State.reset.withFetchWord 96 0x690000000000000000000000).modSplit ⟨0, 0, 0⟩ fun sp =>
    { sp with headFault := true, queue := [⟨0, 0, ⟨0, 0, 0⟩, ⟨0, 0, 0⟩, ⟨0, 0, 0⟩, some ⟨.poison, .none, 0⟩, 0, some ([], [])⟩] }
theorem witness_StepRuns_refetch : refetching.laneReady ⟨0, 0, 0⟩ = true ∧ (refetching.splitOf ⟨0, 0, 0⟩).headFault = true
    ∧ (refetching.headOf ⟨0, 0, 0⟩).fail ≠ none
    ∧ (match refetching.refetch ⟨0, 0, 0⟩ with
      | some v => decodeLane (v.headOf ⟨0, 0, 0⟩).word == .lnop lw
      | none => false) = true
    ∧ mapped.expanderBad (2 ^ 30) = false := by decide

/-! ### Witnesses of the clauses on channels, replies, handlers and links -/

/-- An EXIT in a handler that has issued. -/
def quitting : State := one { grp spl with splits := [(0, { spl with status := .trapped, quits := true })] }
theorem witness_SplitEnds_handler : (quitting.splitOf ⟨0, 0, 0⟩).status = .trapped ∧ (quitting.splitOf ⟨0, 0, 0⟩).quits = true
    ∧ (quitting.splitOf ⟨0, 0, 0⟩).queue = [] ∧ (quitting.splitOf ⟨0, 0, 0⟩).joins ++ (quitting.splitOf ⟨0, 0, 0⟩).setJoins = []
    ∧ (quitting.groupOf ⟨0, 0, 0⟩).live = true := by decide

/-- A load whose home has answered with a fault: of two of the lanes, of every lane, and of a scalar word with and without lane words
queued. -/
def denied (scw : Bool) (n : Nat) (sp : Split) : State :=
  { of sp with
    ents := [{ entry0 with resp := .bad ⟨.perm, .write, 0⟩ 0, scw := scw, parts := (List.range n).map fun l => ⟨l, BitVec.ofNat 64 (4 * l), 4, []⟩ }] }
theorem witness_LaneTraps_replies : (∀ n ∈ [2, 32], ∃ e, (denied false n spl).ent 5 = some e ∧ e.kind = .load ∧ (denied false n spl).replyNext e = true
      ∧ e.esc = none ∧ e.acq = none ∧ e.scw = false ∧ e.wholeSplit = false ∧ (∀ x ∈ (denied false n spl).ents, x.wid = e.wid → x.id = 5)
      ∧ (denied false n spl).ctxCore 0 0 = { CtxCore.empty with state := .running } ∧ ((denied false n spl).group 0 0).tag = e.tag
      ∧ (∀ x ∈ e.parts, x.lane < 32 ∧ spl.mask.getLsbD x.lane = true) ∧ e.parts.Pairwise (fun x y => x.lane < y.lane)
      ∧ (Mask.ofList (e.parts.map (·.lane)) = spl.mask ↔ n = 32))
    ∧ (∃ e, (denied true 1 spl).ent 5 = some e ∧ e.scw = true ∧ spl.uid = e.uid ∧ (denied true 1 spl).replyNext e = true)
    ∧ (withLane 0 spl).queue ≠ [] ∧ spl.queue = [] ∧ spl.joins = [] ∧ (base.ctx 0).toHandler .perm false = false := by
  refine ⟨?_, ⟨_, rfl, by decide⟩, by decide⟩
  intro n h
  rcases List.mem_cons.mp h with rfl | h
  · exact ⟨_, rfl, by decide⟩
  · rcases List.mem_singleton.mp h with rfl
    exact ⟨_, rfl, by decide⟩

/-- PARC .first behind an array word and .norm behind a fence, PCOMP behind each. -/
theorem witness_ArrayWords_waits : LaneReady 0x4D (pw 1) (vecWin 300 2 ++ vecWin 310 1) { armed 3 none with ents := [{ entry0 with kind := .fence, dstN := 0 }] }
    ∧ LaneReady 0x4E cw (vecWin 310 2) { armed 3 none with ents := [{ entry0 with kind := .fence, dstN := 0 }] }
    ∧ LaneReady 0x4C sw (vecWin sw.d 1) { armed 3 none with ents := [{ entry0 with kind := .fence, dstN := 0 }] }
    ∧ LaneReady 0x48 mw (loopWins mw 0) { armed 3 none with ents := [{ entry0 with kind := .fence, dstN := 0 }] }
    ∧ ({ armed 3 none with ents := [{ entry0 with kind := .fence, dstN := 0 }] } : State).fenced 1 = true ∧ parcRule (pw 1) = 1
    ∧ LaneReady 0x4D (pw 0) (vecWin 300 2 ++ vecWin 310 1) (armed 3 (some { aw with wins := [] }))
    ∧ (armed 3 (some { aw with wins := [] })).curGroup.arr ≠ none :=
  ⟨ready_laneReady (by decide), ready_laneReady (by decide), ready_laneReady (by decide), ready_laneReady (by decide), by decide, by decide,
    ready_laneReady (by decide), by decide⟩

/-- A loop in mid-run whose context has been pre-empted, and one that a fault has reached. -/
theorem witness_MloopTurns_stops : ({ armed 3 (some { aw with started := true }) with ctxCores := [(0, { CtxCore.empty with state := .preempted })] } :
      State).stateOn 0 0 ≠ .running
    ∧ (armed 3 (some { aw with started := true })).stateOn 0 0 = .running ∧ ({ aw with halt := true } : ArrayWord).halt = true
    ∧ [0].Nodup ∧ modBits aw.w 9 8 = 1 := by decide

/-- The checks at the requester, one address for each: unaligned, a path that the access does not have, an unpopulated node, another node without the
key and with it, a system address outside the windows and in a window without the right, scratch outside the partition, a live phaser, another
unit's scratch. -/
theorem witness_LaneMemory_checks : (1 ≤ 4 ∧ (2 : Nat) % 4 ≠ 0 ∧ pathOf 0x6000000000000000 = 6 ∧ pathOf 0x1000000000000000 = 1)
    ∧ (base.populated 1 = false ∧ ({ base with domain := [1] } : State).populated 1 = true
      ∧ ({ base with domain := [1] } : State).keyOn (4 * base.node.toNat + 0 / 64 % 4) 0 = false ∧ mapped.keyOn (4 * mapped.node.toNat + 0 / 64 % 4) 0 = true)
    ∧ (0x5000000000000000 / 2 ^ 48 % 2 ^ 12 = 0 ∧ 0x5001000000000000 / 2 ^ 48 % 2 ^ 12 ≠ 0)
    ∧ ((0x0003000000001000 : DWord).toNat % 2 ^ 48 = 0x1000 ∧ (0x0003000000001000 : DWord).getLsbD 49 = true
      ∧ (0x0001000000001000 : DWord).getLsbD 49 = false ∧ (0x0002000000001000 : DWord).getLsbD 48 = false)
    ∧ (base.unitOf base.curGroup = none ∧ (inUnit spl).unitOf (inUnit spl).curGroup = some unit1 ∧ unit1.ended = false ∧ 0x100 + 4 ≤ unit1.psize
      ∧ ¬0xFFFE + 4 ≤ unit1.psize)
    ∧ (∃ p ∈ ((phase pva (some obj1) []).core 0).phasers, p.off < unit1.pbase + 0x104 + 4 ∧ unit1.pbase + 0x104 < p.off + 16)
    ∧ (inUnit spl).scratchUnit unit1 0x3001000000000000 = none ∧ (inUnit spl).scratchUnit unit1 0x3000000000000000 = some unit1 := by decide

/-- A hint that its channel serves next; a packet that the core holds; an earlier packet for the same remote line; a fault that the home has
sent; the key of another node's context. -/
def hint1 : Entry := { ent0 with kind := .hint, owners := [], fn := 1, inj := some (0, 3) }
theorem witness_FieldRequests_asks : ((inFlight [hint1]).requestOk hint1 = true ∧ (inFlight [hint1]).ent 5 = some hint1)
    ∧ (mapped.coreMayAsk 0 0 none .load 0 = true ∧ (inFlight [{ ent0 with inj := none }]).coreMayAsk 0 0 none .load 0 = false
      ∧ (inFlight [{ ent0 with inj := none }]).toInject { ent0 with inj := none } = true)
    ∧ ({ inFlight [{ ent0 with line := 2 ^ 51 }] with domain := [1] } : State).coreMayAsk 0 0 none .load (2 ^ 51) = false
    ∧ (inFlight [{ ent0 with resp := .bad ⟨.perm, .write, 0⟩ 0 }]).coreMayAsk 0 0 none .load 0 = false
    ∧ (nodeOf 0 = mapped.node.toNat ∧ nodeOf (2 ^ 51) ≠ mapped.node.toNat ∧ mapped.keyOn (4 * mapped.node.toNat + 0 / 64 % 4) 0 = true
      ∧ base.keyOn (4 * base.node.toNat + 0 / 64 % 4) 0 = false) := by decide

/-- A scratch store and a system store and load, alone and behind an older one. -/
def scr1 : Entry :=
  { ent0 with
    kind := .sStore, op := 0x59, dstN := 0, trk := false, path := 2, line := 0x2000000000000080, parts := [⟨0, 0x2000000000000084, 4, [1, 2, 3, 4]⟩]
    resp := .ok (scrKey 0 0x80) 0 }
def sys1 (kind : EKind) : Entry :=
  { ent0 with
    kind := kind, path := 5, line := 0x5000000000000000, resp := .ok (sysKey 0) 0, dstN := if kind == .yLoad then 1 else 0
    parts := [⟨0, 0x5000000000000008, 4, if kind == .yStore then [1, 2, 3, 4] else []⟩] }
theorem witness_StorePerforms_kinds : ((inFlight [scr1]).ent 5 = some scr1 ∧ (inFlight [scr1]).older scr1 = []
      ∧ (inFlight [{ scr1 with id := 4 }, scr1]).older scr1 = [{ scr1 with id := 4 }] ∧ 0x84 < 2 ^ 21
      ∧ scrKey 0 0x80 + ((0x2000000000000084 : DWord) - scr1.line).toNat = scrKey 0 0x84 ∧ 0x84 % 128 + 4 ≤ 128
      ∧ (inFlight [scr1]).phaserHit 0 0x84 4 = false ∧ ((inFlight [scr1]).line (scrKey 0 0x84 / 128)).writer = none)
    ∧ (∀ k ∈ [EKind.yLoad, .yStore], (inFlight [sys1 k]).ent 5 = some (sys1 k) ∧ (inFlight [sys1 k]).older (sys1 k) = []
      ∧ (k = .yLoad → (sys1 k).bound = false) ∧ (sys1 k).esc = none ∧ (sys1 k).tag = (mapped.group 0 0).tag)
    ∧ (inFlight [{ sys1 .yStore with id := 4 }, sys1 .yLoad]).older (sys1 .yLoad) = [{ sys1 .yStore with id := 4 }]
    ∧ (let e := { store1 with resp := .bad ⟨.perm, .write, 0⟩ 0 }
      (inFlight [e]).performOk e = true ∧ (inFlight [e]).injectAll.replyOk e = true) := by decide

/-- A load whose reply waits for an older stamp's; two lanes of one word at one scratch address; a HEATR whose reply must wait. -/
def twin (n : Nat) : Entry := { entry0 with id := n, path := 2, line := 0x2000000000000000, resp := .ok (scrKey 0 0) 0, parts := [⟨n, 0x2000000000000000, 4, []⟩] }
def older1 : Entry := { ent0 with id := 4, wid := 4, line := 0x1000, resp := .bad ⟨.perm, .write, 0⟩ 2, inj := some (0xFFFFFFFF, 1) }
theorem witness_LoadCompletes_replies : ((inFlight [load1]).replyNext load1 = true ∧ (inFlight [older1, load1]).replyNext load1 = false
      ∧ (inFlight [older1, load1]).repliesBefore older1 = true ∧ older1.inj = some (0xFFFFFFFF, 1) ∧ (0 : Word) ≠ 0xFFFFFFFF
      ∧ ((0 : Word) - 0xFFFFFFFF).toNat ≤ 2 ^ 31 ∧ (inFlight [older1, load1]).fromHome load1 = true)
    ∧ ((twin 5).bound = false ∧ (twin 6).path = (twin 5).path ∧ (twin 6).wid = (twin 5).wid ∧ (twin 6).id ≠ (twin 5).id
      ∧ (twin 6).spot 0x2000000000000000 = (twin 5).spot 0x2000000000000000 ∧ translated (twin 5).path = false)
    ∧ (inFlight [{ load1 with kind := .heatr, resp := .none }]).replyNext { load1 with kind := .heatr, resp := .none } = true
    ∧ (inFlight [older1, { load1 with kind := .heatr, resp := .none }]).replyNext { load1 with kind := .heatr, resp := .none } = false := by decide

/-- An atomic in error whose reply lands at once, and one whose reply waits. -/
theorem witness_AtomicService_error : (inFlight [atom1]).probeWaits atom1 = false
    ∧ (inFlight [atom1]).replyNext { atom1 with resp := .bad ⟨.poison, .none, 0⟩ 0 } = true
    ∧ (inFlight [older1, atom1]).replyNext { atom1 with resp := .bad ⟨.poison, .none, 0⟩ 0 } = false := by decide

/-- PHFREE with an arrival on its way to the object, and with none. -/
theorem witness_PhaserObjects_lost : arrive1.kind = .arrive ∧ arrive1.resp = .ok (scrKey 0 0x100) 0
    ∧ scrKey 0 0x100 + (arrive1.firstAddr - arrive1.line).toNat = scrKey 0 0x100 ∧ (phase pva (some obj1) []).ents = [] := by decide

/-- A write of EQHEAD with bits above the register; a launch record at a node that no link reaches now, in a word and in an inlet entry. -/
theorem witness_EventQueue_wide : (0xFFFF0001 : DWord).toNat % 65536 = 1 ∧ (0x10000 : DWord).toNat % 65536 = 0 := by decide
def unreached : State := { launching 0 0 with links := [(0, { Link.empty with service := false, replay := [⟨3, 3, 0⟩] })], domain := [1] }
theorem witness_LaunchWords_reads : (launching 0x2000 0).mayReadLaunch 0 0x2000 = true ∧ unreached.mayReadLaunch 0 (2 ^ 51) = false
    ∧ (launching 0x2000 0).inletReady 0x2000 0x40000005 = true ∧ unreached.inletReady (2 ^ 51) 0x40000005 = false := by decide

/-- A card that fails with a multicast element partly written, and one that has written it to its end. -/
theorem witness_EngineJobs_parts : ({ card 1 with status := 6, sent := [(0, ())] } : Card).sent ≠ [] ∧ ({ card 1 with status := 6 } : Card).sent = []
    ∧ ({ card 1 with status := 6 } : Card).status ≠ 0 := by decide

/-- A request for the home of the next line that was injected in an earlier frame; one record alone that a lost port's move has. -/
theorem witness_Moves_channel : (let x := { ent0 with line := 384, inj := some (0xFFFFFFFF, 1) }
      let s : State := { copying with ents := [x] }
      s.canServe x = true ∧ (0xFFFFFFFF : Word) ≠ s.chframe ∧ nodeOf x.line = s.node.toNat
        ∧ dieOf x.line = dieOf ((rec1 .copying).va + BitVec.ofNat 64 (128 * (rec1 .copying).cursor))
        ∧ sliceOf x.line = sliceOf ((rec1 .copying).va + BitVec.ofNat 64 (128 * (rec1 .copying).cursor))) := by decide

/-- An interval of decay longer than half the frame counter; accesses of one line and of two; a move out of port 1 and one into it, whose leaf
stands. -/
theorem witness_Links_clauses : (2 ^ 31 ≤ (({ base with chframe := 0x7FFFFFFF } : State).chframe + 1 - (base.die 0).lastDecay).toNat
      ∧ (base.chframe + 1 - (base.die 0).lastDecay).toNat < 2 ^ 31)
    ∧ ((0 : DWord).toNat % 128 + 1 ≤ 128 ∧ linesOf 0 1 true = [(0, 1)] ∧ linesOf 0x7F 2 false = [(0x7F, 0), (0x80, 0)])
    ∧ ((∀ l ∈ linesOf 0 1 true, window.homeReady 0 l.1 = true) ∧ State.mayCrossAll 0 0 none .store (linesOf 0 1 true) window = true
      ∧ State.mayCrossAll 0 0 none .load (linesOf 0 1 false) window = true ∧ State.mayCrossAll 0 0 none .load (linesOf (2 ^ 51) 1 false) blocked = false)
    ∧ ((rec1 .copying).dstTier = 2 ∧ (rec1 .copying).dstFrame * 4096 / 2 ^ 46 % 4 = 1 ∧ (copying.die 0).recs = [(1, rec1 .copying)]
      ∧ (copying.recLeaf 1 (rec1 .copying)).isSome = true)
    ∧ (∀ d, 1 ≤ d → d < 4 → (copying.die d).recs = []) := by
  refine ⟨by decide, by decide, by decide, by decide, ?_⟩
  intro d h h'
  have : d = 1 ∨ d = 2 ∨ d = 3 := by omega
  rcases this with rfl | rfl | rfl <;> rfl

/-- A split that parked whole outside any handler; a report that the split was draining for. -/
theorem witness_Resumes_more : parked.setJoins = [] ∧ spl.drainReport = []
    ∧ ({ spl with drain := some ⟨.perm, .write, 0⟩, drainRpl := true, replay := [entry0] } : Split).drainReport ≠ [] := by decide

/-- The loop of a group on a core that a command names. -/
theorem witness_ContextCommands_loops : (armed 3 (some { aw with started := true })).stateOn 0 0 = .running
    ∧ ((armed 3 (some { aw with started := true })).group 0 0).live = true
    ∧ ((((armed 3 (some { aw with started := true })).group 0 0).haltLoop.arr.map (·.halt)) = some true) := by decide

/-! ### Witnesses of the clauses on array words, the save path, escorts, engines and memory that is not ready -/

/-- The memory of the package ready, as in the placed machine, and none of it. -/
def ready1 (s : State) : State := { s with ready := mapped.ready }
def unready (s : State) : State := { s with ready := 0 }
theorem unready_memReady (s : State) (key : Nat) (h : key / 2 ^ 50 / 4 = s.node.toNat) : (unready s).memReady key = false := by
  have r : (unready s).ready.toNat = 0 := rfl
  have n : (unready s).node = s.node := rfl
  have z : ∀ i, bitNat 0 i = false := fun i => by simp [bitNat]
  simp only [State.memReady, n, r, h, z, bne_self_eq_false, Bool.and_self, Bool.or_self, Bool.false_eq_true, if_false]
  split <;> rfl

/-- An array word of the split, one of another split, and one whose rows a second split shares. -/
theorem witness_Branches_array : aw.own 1 = true ∧ aw.own 2 = false ∧ ({ aw with heirs := [2] } : ArrayWord).own 2 = true ∧ aw.reads = true
    ∧ (armed 3 (some aw)).curGroup.arr = some aw ∧ (armed 3 (some aw)).curSplit.uid = 1 := by decide

/-- MOVI with an immediate whose bits [19:10] are the code of s0, and IADD of v0 and s0 (R205, R334). -/
theorem test_movi_captures : (queueEntry { spl with s := [(0, 7)] } 0x3D000140000A000000000000 0 none 0).capB = ⟨0, 0, 0⟩
    ∧ (queueEntry { spl with s := [(0, 7)] } 0x00000140000A000000000000 0 none 0).capB = ⟨7, 0, 0⟩ := by decide

/-- A save area that is not valid, and one that is. -/
def noting : State := { mapped with ctxs := [(0, { Ctx.empty with savbase := 0x100001 })] }
theorem witness_ScalarFaultParks_save : base.curGroup.live = true ∧ base.saveOpen 0 0 (base.frameAddr 0 0 0 0) = false
    ∧ noting.saveOpen 0 0 (noting.frameAddr 0 0 0 0) = true := by decide

/-- The frame of a handler that may be read, at memory that is not ready, behind a packet that the core holds, and at an unpopulated node. -/
def trapFrame : DWord := (trapping []).frameAddr 0 0 0 0
def farTrap : State := (trapping []).setCtx 0 { (trapping []).ctx 0 with savbase := 2 ^ 51 + 1 }
theorem witness_TrapReturns_read : (trapping []).curFrame = trapFrame ∧ (trapping []).coreCheck 0 0 trapFrame = none
    ∧ (trapping []).homeReady 0 trapFrame = true ∧ (trapping []).coreMayAsk 0 0 none .load trapFrame = true
    ∧ (match (((trapping []).coreAsk 0 0 none .load trapFrame).coreRead 0 0 trapFrame 128).1 with
      | .ok b => ofBytes ((b.drop 0x7C).take 4) % 4 ≤ 1
      | .error _ => false) = true
    ∧ (unready (trapping [])).homeReady 0 trapFrame = false
    ∧ ({ trapping [] with ents := [{ ent0 with inj := none }] } : State).coreMayAsk 0 0 none .load trapFrame = false
    ∧ farTrap.coreCheck 0 0 farTrap.curFrame ≠ none := by decide

/-- An acquire of the split that has not completed. -/
theorem witness_ArrayWords_acquires : (armed 3 none).acquiring 1 = false
    ∧ ({ armed 3 none with ents := [{ entry0 with acq := some 0, dstN := 0 }] } : State).acquiring 1 = true
    ∧ ({ armed 3 none with ents := [{ entry0 with acq := some 0, dstN := 0 }] } : State).curGroup.arr = none := by decide

/-- Acquires that act in no lane. -/
theorem witness_LineWords_idle : IdleAcq quiet 0x5B { lw with pn := true, mod := 0x80 }
    ∧ (¬IdleAcq quiet 0x5B { lw with pn := true } ∧ quiet.acting { lw with pn := true } = 0) := by unfold IdleAcq; decide

/-- An escorted word with lanes that fault. -/
def oddEsc : State := (escState 4).modSplit ⟨0, 0, 0⟩ fun sp => { sp with queue := sp.queue.map fun e => { e with capA := ⟨2, 0, 0⟩ } }
theorem witness_EscortedWords_faults : LaneReady 0x5A ew (vecWin 0 1 ++ ([] ++ []) ++ vecWin 20 2) oddEsc ∧ RefusalCause oddEsc 2 (some 2) = 0
    ∧ (∃ l ∈ Acting oddEsc ew, LaneFault oddEsc ew .escort 4 4 4 l ≠ none) ∧ oddEsc.acting ew ≠ 0
    ∧ IdleAcq (escState 4) 0x5A { ew with pn := true, mod := 0x81 } ∧ ¬IdleAcq (escState 4) 0x5A { ew with pn := true } := by
  refine ⟨ready_laneReady (by decide), by decide, ⟨0, by decide, by decide⟩, by decide, ?_, ?_⟩ <;> unfold IdleAcq <;> decide

/-- A write and a read of a save area that may be served, and that wait for a store of the core's view, for an older write and for the channel;
an address with no page. -/
def save1 : Entry :=
  { ent0 with kind := .save, owners := [], op := 0, dstN := 0, level := 3, line := 0x100, parts := [⟨0, 0x110, 4, [1, 2, 3, 4]⟩], inj := some (0, 5) }
def look1 : Entry := { save1 with kind := .saveRead, parts := [⟨0, 0x110, 0, []⟩] }
theorem witness_FieldRequests_saves : ((inFlight [save1]).requestOk save1 = true ∧ (inFlight [save1]).ent 5 = some save1)
    ∧ ((inFlight [look1]).requestOk look1 = true ∧ (inFlight [look1]).replyNext look1 = true ∧ (inFlight [older1, look1]).replyNext look1 = false)
    ∧ (let x := { store1 with line := 0x100, parts := [⟨0, 0x110, 4, [1, 2, 3, 4]⟩] }
      noPath x.line = noPath save1.line ∧ 0 < x.level ∧ x.level < save1.level ∧ (inFlight [x, save1]).requestOk save1 = false)
    ∧ (inFlight [{ save1 with id := 4 }, save1]).requestOk save1 = false
    ∧ (match (mapped.ownerCheck 0 none .store (noPath 0x100)).1 with
      | .ok (k, _) => k == 2 ^ 30 + 0x100
      | .error _ => false) = true
    ∧ (match (mapped.ownerCheck 0 none .store (noPath 0x8000000000)).1 with
      | .ok _ => false
      | .error _ => true) = true
    ∧ lineOf 0x110 = save1.line ∧ translated save1.path = true := by decide
theorem witness_FieldRequests_save_line : (∀ i, i < 128 → mapped.transitOf 0 (noPath save1.line + BitVec.ofNat 64 i) = none)
    ∧ (∀ i, i < 128 → mapped.unreachable (2 ^ 30 + 256 + i) = false) ∧ mapped.expanderBad (2 ^ 30 + 256) = false
    ∧ (mapped.line ((2 ^ 30 + 256) / 128)).poison = false ∧ (mapped.line ((2 ^ 30 + 256) / 128)).written = false := by decide

/-- A releasing store behind the rows of an older array word of its split, and with none; a store behind an earlier write of the save path. -/
def arr1 (s : State) (a : ArrayWord) : State := s.setGroup 0 0 { s.group 0 0 with arr := some a }
def save0 : Entry := { save1 with id := 4, level := 0, line := 0, parts := [⟨0, 0, 4, [1, 2, 3, 4]⟩] }
theorem witness_StorePerforms_rows : (let e := { store0 with rel := some 0 }
      let a := { aw with uid := uidOf, id := 4 }
      (arr1 (inFlight [e]) a).commitOk e = false ∧ (inFlight [e]).commitOk e = true ∧ a.reads = true ∧ a.own e.uid = true ∧ a.id < e.id
        ∧ ((arr1 (inFlight [e]) a).group 0 0).live = true ∧ ((arr1 (inFlight [e]) a).group 0 0).tag = e.tag
        ∧ (arr1 (inFlight [e]) a).stateOn 0 0 ≠ .evicting)
    ∧ (inFlight [save0, store1]).performOk store1 = false ∧ noPath save0.line = noPath store1.line ∧ save0.level < store1.level := by decide

/-- A load with an escort set, the reply of an atomic, and prefetches of both kinds, whose reply is the next and is not; a twin on another path. -/
def escLoad : Entry := { load1 with esc := some ⟨20, 2, [(0, 9)], some 0⟩ }
def atomR : Entry := { atom1 with level := 1, dstN := 1 }
def pre (fn : Nat) : Entry := { load1 with kind := .prefetch, fn := fn, dstN := 0, owners := [] }
def landed1 : State := ((inFlight [pre 0]).noteReply (pre 0).writer (pre 0).line).dropEnt 5
theorem witness_LoadCompletes_sets : ((inFlight [escLoad]).replyOk escLoad = true ∧ (inFlight [escLoad]).ents.countP (fun x => x.id == 5) = 1
      ∧ escLoad.esc = some ⟨20, 2, [(0, 9)], some 0⟩ ∧ escLoad ∈ (inFlight [escLoad]).ents)
    ∧ ((inFlight [atomR]).ent 5 = some atomR ∧ (inFlight [atomR]).replyNext atomR = true ∧ (inFlight [older1, atomR]).replyNext atomR = false
      ∧ atomR.acq = none ∧ atomR.op ≠ 0x58 ∧ atomR.op ≠ 0x5A ∧ atomR.parts.Pairwise (fun p q => p.lane ≠ q.lane)
      ∧ (∀ p ∈ atomR.parts, p.lane < 32 ∧ p.data.length = p.width ∧ (p.width = 4 ∨ p.width = 8) ∧ (0 < atomR.dstN → atomR.dstN = p.width / 4)))
    ∧ ((inFlight [pre 0]).replyNext (pre 0) = true ∧ (inFlight [older1, pre 0]).replyNext (pre 0) = false ∧ (pre 0).resp ≠ .none
      ∧ classOf (pre 0).path ≠ .compressed ∧ (pre 1).fn ≠ 0)
    ∧ (match (landed1.ownerLook 0 none .load 0).1 with
      | .ok (k, _) => ((landed1.ownerLook 0 none .load 0).2.homeRead 0 0 k 128).1.isSome
      | .error _ => false) = true
    ∧ (landed1.homeRead 0 0 (2 ^ 30) 1).1 ≠ none
    ∧ ({ twin 6 with path := 3, line := 0x3000000000000000 } : Entry).spot 0x3000000000000000 = (twin 5).spot 0x2000000000000000 := by decide

/-- An arrival that the rows of its split's array word hold. -/
theorem witness_PhaserPhases_rows : (armed 3 (some aw)).released 0 = false ∧ (armed 3 none).released 0 = true := by decide

/-- Slots of a queue whose memory is and is not ready; a record that waits; a full queue at memory that is not ready. -/
theorem witness_EventQueue_ready : (unready (queue 0 1 false)).memReady ((queue 0 1 false).eqKey ((queue 0 1 false).ctx 0) 0) = false
    ∧ (ready1 (queue 0 1 false)).memReady ((queue 0 1 false).eqKey ((queue 0 1 false).ctx 0) 0) = true
    ∧ (ready1 (queue 0 1 false)).eventReady 0 = true ∧ ({ ready1 (queue 0 1 false) with posts := [(0, 9)] } : State).eventReady 0 = false
    ∧ (queue 0 15 false).eventReady 0 = true := ⟨unready_memReady _ _ (by decide), by decide⟩

/-- A launch record at a node whose key is not on die 0; an inlet and a lease unit at memory that is ready and that is not; a unit that no
link reaches now. -/
def faraway : State := { launching (2 ^ 51) 0 with domain := [1], mem := [] }
theorem witness_LaunchWords_keys : nodeOf 0x2000 = (launching 0x2000 0).node.toNat ∧ nodeOf (2 ^ 51) ≠ faraway.node.toNat ∧ faraway.keyOn 0 0 = false
    ∧ faraway.released 3 = true ∧ (unready (launching 0x2000 0)).homeReady 0 (noPath 0x2000) = false := by decide
theorem witness_Handles_ready : (unready owned).memReady 0 = false ∧ (ready1 owned).memReady 0 = true :=
  ⟨unready_memReady _ _ (by decide), by decide⟩
def range4 : Lease := { range 0 with die := 4 }
def cutOff : State :=
  { asks 0 4 with
    leases := [range4], links := (List.range 64).map fun f => (8 * f, { Link.empty with service := false, replay := [⟨3, 3, 0⟩] }) }
theorem witness_Placement_ready : (asks 0 4).leaseReady (range 0) = true ∧ (asks 0 4).mayTell (range 0) = true
    ∧ (unready (asks 0 4)).leaseReady (range 0) = false ∧ cutOff.mayTell range4 = false
    ∧ (asks 0x8000000000 4).leaseReady (range 0x8000000000) = true
    ∧ (∀ x ∈ (asks 0 4).leases, x.launch = 7 → x.die / 4 = (asks 0 4).node.toNat) ∧ (∀ x ∈ cutOff.leases, x.launch = 7 → cutOff.mayTell x = false) := by
  decide
theorem witness_Placement_ring : (unready (asks 0 4)).memReady ((asks 0 4).lrKey 0) = false := unready_memReady _ _ (by decide)

/-- Jobs of each kind at their first access, and with its index or its value in hand; a multicast of two cores; an element that a later one beats;
jobs that read and write generic memory; a target on a live phaser. -/
def run (k : Nat) : Card := { card k with started := true }
def multi : Card := { run 1 with header := (card 1).header ||| BitVec.ofNat 128 (3 * 2 ^ 108), vals := [(0, 9)] }
def inSet : State := { windowed multi with units := [(1, { unit1 with set := some 3 }), (2, { unit1 with core := 1, set := some 3 })] }
def outward : Card := { run 1 with descs := [(card 1).desc 0, ⟨0, 0x0000000104000000⟩], vals := [(0, 9)] }
def inward : Card := { run 1 with descs := [⟨0, 0x0000000104000000⟩, (card 1).desc 1] }
def outState : State := { mapped with clusters := [(0, ⟨1, [outward]⟩)] }
theorem witness_EngineJobs_steps : (∀ n, n < 4 → (run 1).nextStep 0 n = .source ∧ (run 2).nextStep 0 n = .index ∧ (run 3).nextStep 0 n = .index
      ∧ (run 4).nextStep 0 n = .row 0)
    ∧ (∀ k ∈ ([1, 2, 3, 4] : List Nat), (windowed (run k)).engineReady 0 (run k) 0 ((run k).nextStep 0 0) = true ∧ 0 < (run k).elems)
    ∧ ({ run 2 with idxs := [(0, 1)] } : Card).nextStep 0 0 = .source ∧ ({ run 1 with vals := [(0, 9)] } : Card).nextStep 0 0 = .write 0
    ∧ (run 1).targetCores = [none] ∧ (windowed (run 1)).enginePlace (run 1) none 0x2000000000001000 = some (0, 0x1000)
    ∧ ({ run 3 with idxs := [(0, 1), (1, 1)], vals := [(0, 9)], perf := [(1, ())] } : Card).beaten 0 = true ∧ (run 1).beaten 0 = false := by decide
theorem witness_EngineJobs_targets : multi.mcast = 3 ∧ multi.targetCores = [some 0, some 1] ∧ multi.nextStep 0 1 = .write 1
    ∧ inSet.enginePlace multi (some 1) 0x2000000000002000 = some (1, 0x2000)
    ∧ inSet.setUnit { unit1 with set := some 3 } 1 = some { unit1 with core := 1, set := some 3 }
    ∧ (phase pva (some obj1) []).phaserHit 0 0x100 4 = true
    ∧ (run 4).rowsLeft 0 = [0] ∧ ({ run 4 with header := (card 4).header ||| BitVec.ofNat 128 (2 ^ 85) } : Card).rowsLeft 0 = [0, 1] := by decide
theorem witness_EngineJobs_memory : (outState.elemCheck outward (outward.desc 1) 0 4 = 0 ∧ outState.engineReady 0 outward 0 (.write 0) = true
      ∧ (unready outState).engineReady 0 outward 0 (.write 0) = false)
    ∧ (match ((outState.engineSend 0 outward 0 (.write 0)).engineOwner outward .engineWrite 0 (outward.opens 0 (.write 0))).1 with
      | .ok (k, _) => k == 2 ^ 30
      | .error _ => false) = true
    ∧ (match (({ outState with leases := [] } : State).engineOwner outward .engineWrite 0 true).1 with
      | .ok _ => false
      | .error _ => true) = true
    ∧ outState.engineReady 0 inward 0 .source = true ∧ outState.elemCheck inward (inward.desc 0) 0 4 = 0
    ∧ (match (outState.engineSend 0 inward 0 .source).engineOwner inward .engineRead 0 (inward.opens 0 .source) with
      | (.ok (key, _), x) => (x.homeRead inward.ctx (noPath 0) key 4).1.isSome
      | (.error _, _) => false) = true
    ∧ pathOf 0 ≠ 4 ∧ outState.transitOf 0 (noPath 0) = none := by decide

/-- A context table, a hint's page, an order's slot and a SYSW of MTCMD at memory that is ready and that is not; a node that is populated and has
no key. -/
theorem witness_DieCommands_ready : ((unready base).memReady (physKey 0 0 ((base.die 0).mtctx.toNat + 16 * 0)) = false
      ∧ (ready1 base).memReady (physKey 0 0 ((base.die 0).mtctx.toNat + 16 * 0)) = true ∧ base.units = [])
    ∧ (good.hintReady 0 ⟨0, 1, 0, 2⟩ = true ∧ (unready good).hintReady 0 ⟨0, 1, 0, 2⟩ = false)
    ∧ (({ base with domain := [1] } : State).keyOn 0 0 = false ∧ ({ base with domain := [1] } : State).populated (nodeOf (2 ^ 51)) = true) :=
  ⟨⟨unready_memReady _ _ (by decide), by decide⟩, by decide⟩
theorem witness_Moves_ready : good.memReady 0x8000 = true ∧ good.tablesReady 0 0 = true ∧ good.posts = [] ∧ (unready good).memReady 0x8000 = false :=
  ⟨by decide, by decide, by decide, unready_memReady _ _ (by decide)⟩
theorem witness_SystemRegisters_ready : (unready base).sysReady 0x10000001 0x3000000000000000 = false
    ∧ (ready1 base).sysReady 0x10000001 0x3000000000000000 = true ∧ base.sysReady 0x70000000 5 = true
    ∧ 0x3000000000000000 / 2 ^ 60 = 3 ∧ 0x3000000000000000 % 2 ^ 49 = 0 := by
  have h : (unready base).keyReady ((unready base).ownDie (selOf 0x10000001).die) (bitsNat (0x3000000000000000 : DWord).toNat 59 50) = false := by
    unfold State.keyReady
    rw [unready_memReady _ _ (by decide)]
    decide
  refine ⟨?_, by decide⟩
  simp only [State.sysReady, State.mtReadyFor, h]
  decide

/-- A write of LRBASE takes LRHEAD and LRTAIL modulo the new size: 5 and 9 in a ring of 4 (log 83). -/
theorem test_lrbase : leaves (exec (.writeRegister 0x1000000D 2) (base.modDie 0 fun d => { d with lrbase := 4, lrhead := 5, lrtail := 9 }))
    (fun t => (t.die 0).lrhead == 1 && (t.die 0).lrtail == 1) = true := by decide

/-- A restore that has asked for its image, and one that has not; a group that is saved and one that is read back from its image. -/
def asked : State := placing.setCtxCore 0 0 { placing.ctxCore 0 0 with sent := some [] }
def small : Group := { grp spl with g := 0 }
theorem witness_ContextCommands_reads : (placing.saving 0 0 = false ∧ placing.coreCheck 0 0 (placing.imageAddr 0 0) = none
      ∧ (placing.ctxCore 0 0).sent = none)
    ∧ (asked.linkedCores 0 true [0] = [0] ∧ (asked.restoreCore 0 0).isSome = true ∧ asked.saving 0 0 = false ∧ asked.stateOn 0 0 = .restoring
      ∧ asked.restoreRoom 0 0 = true ∧ (asked.ctxCore 0 0).sent ≠ none)
    ∧ (placing.readGroup 0 0 0 (grp spl)).1.isSome = true
    ∧ ((placing.setCtxCore 0 0 { placing.ctxCore 0 0 with rowOff := [(0, 0)] }).readGroup 0 0 0 small).1.isSome = true
    ∧ ((base.groupsOn 0).map (·.1) = [0] ∧ (base.group 0 0).disc = false ∧ ({ grp spl with disc := true } : Group).disc = true)
    ∧ (∃ u ∈ (inUnit spl).ctxUnits 0 0 false, 0 < u.2.psize) ∧ ((phase pva (some obj1) []).ctxObjs 0 0) = [(1, 0, 0x100)] := by decide

/-- The bytes of the split state of `spl` and of the record of its group (R333, R334). -/
def splBytes : List Byte := List.replicate 0x6C8 0 ++ (List.replicate 4 0xFF ++ List.replicate (0xE00 - 0x6CC) 0)
def recBytes1 : List Byte := [0, 0, 0, 0, 20, 0, 0, 0, 0, 0, 0, 0, 1, 0, 0, 0] ++ List.replicate 0x7E0 0
theorem imageHas_one {base off : Nat} {b bs : List Byte} (h : base ≤ off ∧ (b.drop (off - base)).take bs.length = bs) :
    ImageHas [(base, b)] off bs :=
  ⟨(base, b), List.mem_singleton.mpr rfl, off - base, Nat.add_sub_cancel' h.1, h.2⟩
theorem witness_ContextCommands_split : SplitImage [(0, splBytes)] 0 spl 0 := by
  refine ⟨fun n h => imageHas_one ⟨Nat.zero_le _, ?_⟩, fun n h => imageHas_one ⟨Nat.zero_le _, ?_⟩, fun i h => imageHas_one ⟨Nat.zero_le _, ?_⟩,
    fun i h => imageHas_one ⟨Nat.zero_le _, ?_⟩, imageHas_one (by decide), imageHas_one (by decide), fun l h => ⟨imageHas_one ⟨Nat.zero_le _, ?_⟩,
    imageHas_one ⟨Nat.zero_le _, ?_⟩⟩, fun _ _ h => ?_, fun _ _ _ h => ?_, fun _ _ _ _ h => ?_, fun _ _ _ => imageHas_one (by decide),
    fun i h => imageHas_one ⟨Nat.zero_le _, ?_⟩⟩
  · revert n; decide
  · revert n; decide
  · revert i; decide
  · revert i; decide
  · revert l; decide
  · revert l; decide
  · cases h
  · cases h
  · cases h
  · revert i; decide

theorem witness_ContextCommands_record1 : RecordImage [(0x8400, recBytes1)] 0 base 0 0 0 := by
  refine ⟨⟨1, by decide, by decide, imageHas_one (by decide)⟩, fun n h => imageHas_one ⟨by omega, ?_⟩, fun n h => ?_, imageHas_one (by decide),
    fun h => ?_, fun _ => imageHas_one (by decide), fun n h => imageHas_one ⟨by omega, ?_⟩, imageHas_one (by decide),
    fun n h => imageHas_one ⟨by omega, ?_⟩, imageHas_one (by decide), imageHas_one (by decide)⟩
  · revert n; decide
  · intro a _
    have : n = 0 := by revert n; decide
    subst this
    exact imageHas_one (by decide)
  · exact absurd h (by decide)
  · revert n; decide
  · revert n; decide

/-- The reply of a load for a group that an eviction has saved (R336). -/
def savedG : Group := mapped.curGroup
def lateS : State :=
  ({ inFlight [load1] with groups := [], ctxs := [(0, { Ctx.empty with savbase := 1 })] } : State).setCtxCore 0 0
    ⟨.evicted, [(0, savedG)], [(0, 0)], [], none⟩
theorem witness_ContextCommands_late : (lateS.ent 5 = some load1 ∧ (lateS.ctxCore 0 0).holder load1 = some (0, savedG)
      ∧ (lateS.group 0 0).live = false ∧ lateS.replyOk load1 = true ∧ lateS.late 0 0 = 1 ∧ load1.acq = none
      ∧ (lateS.ctxCore 0 0).saved.Pairwise (fun p q => p.1 ≠ q.1))
    ∧ (∀ p ∈ load1.parts, ∀ i, i < p.width → lateS.takeByte load1 (p.addr + BitVec.ofNat 64 i) (lateS.mustGoHome load1) ≠ none)
    ∧ (lateS.ctxCore 0 0).rowOff.find? (fun p => p.1 == 0) = some (0, 0)
    ∧ (lateS.ctxCore 0 0).saved.find? (fun p => p.1 == 0) = some (0, savedG) ∧ lateS.saveOpen 0 0 (lateS.imageAddr 0 0) = true := by decide

/-- LATE is lowered by the reply, and the register's row and the scoreboard of the record are sent to the image (R336). -/
theorem test_late_reply : leaves (exec (.completeLoad 5) lateS) (fun t => t.late 0 0 == 0
    && t.ents.any (fun e => e.kind == .save && e.parts.any fun p => p.addr == lateS.imageAddr 0 0 + 0x410000 + 128 * 3)
    && t.ents.any (fun e => e.kind == .save && e.parts.any fun p => p.addr == lateS.imageAddr 0 0 + 0x14)) = true := by decide

/-- Two groups of one pipeline that can issue, of FILL and of NORMAL class; a word whose fetch failed and that is fetched again. -/
def two : State :=
  let g := (mapped.modSplit ⟨0, 0, 0⟩ fun sp => { sp with fetched := some 0x18000001 }).curGroup
  { mapped with groups := [(0, { g with cls := 2 }), (4, { g with cls := 1 })] }
theorem witness_StepRuns_outranked : two.outranked ⟨0, 0, 0⟩ false = true ∧ two.outranked ⟨0, 4, 0⟩ false = false
    ∧ two.prefers (two.group 0 4) (two.group 0 0) = true ∧ two.agentHere ⟨0, 0, 0⟩ = true := by decide
theorem witness_StepRuns_captures : refetching.agentHere ⟨0, 0, 0⟩ = true ∧ (refetching.headOf ⟨0, 0, 0⟩).kept = some ([], [])
    ∧ (match refetching.refetch ⟨0, 0, 0⟩ with
      | some v => (v.headOf ⟨0, 0, 0⟩).fail == none
      | none => false) = true := by decide

/-- A fibre's groups in turn, from group 1 on for gateway 2, with group 1 out of service (R341). -/
def turnsAt : State := { base with turns := [(128, 1)], links := [(1, { Link.empty with service := false })] }
theorem test_turns : turnsAt.turnGroup 2 0 2 = some 2 ∧ turnsAt.turnGroup 1 0 2 = some 0
    ∧ (turnsAt.sendOn 2 0 2 2).turnGroup 2 0 2 = some 3 ∧ (turnsAt.sendOn 2 0 2 2).turnGroup 1 0 2 = some 0 := by decide
end Sys2Proof.Tests
end

section
namespace Sys2Proof.Machine
open Sys2Proof.Safety

/-! ### Addresses and the loop stack (R17, R282) -/

theorem State.offset_toNat (s : State) (va : DWord) : (s.offset va).toNat = Offset s va := by
  simp [State.offset, Offset]

/-- The address of a word offset, as a sum of integers (R17). -/
theorem State.target_eq {n : Nat} (s : State) (off : BitVec n) :
    s.target off = BitVec.ofInt 64 (s.curSplit.spc.toNat + 4 * off.toInt) := by
  have hspc : BitVec.ofInt 64 (s.curSplit.spc.toNat : Int) = s.curSplit.spc := by
    rw [BitVec.ofInt_natCast, BitVec.ofNat_toNat, BitVec.setWidth_eq]
  rw [BitVec.ofInt_add, BitVec.ofInt_mul, hspc]
  rfl

/-- Unwinding drops the innermost entries whose range the branch leaves (R282). -/
theorem unwind_eq_dropWhile (here there : Word) (ls : List LoopEntry) :
    unwind here there ls = ls.dropWhile fun e => InRange e here.toNat && !InRange e there.toNat := by
  induction ls with
  | nil => rfl
  | cons e es ih =>
    have hh : ∀ off : Word, e.holds off = InRange e off.toNat := fun _ => rfl
    simp only [unwind, List.dropWhile_cons, hh, ih]

theorem State.unwind_eq_unwound (s : State) (va : DWord) :
    unwind ((s.curSplit.spc - s.curGroup.sbase).setWidth 32) ((va - s.curGroup.sbase).setWidth 32) s.curSplit.loops = Unwound s va := by
  rw [unwind_eq_dropWhile]
  simp [Unwound, Offset]

/-! ### Words that move the running split (R281) -/

/-- A write of the running split keeps the frame of a scalar word when it keeps the split's. -/
theorem State.setSplitOf_scalarFrame {s : State} {sq : Split} {ds as_ : List Nat} (hf : SplitFrame s.curSplit sq)
    (hs : ∀ n, n ∉ ds → sq.sreg n = s.curSplit.sreg n) (ha : ∀ n, n ∉ as_ → sq.areg n = s.curSplit.areg n) :
    ScalarFrame s (s.setSplitOf s.cur sq) ds as_ := by
  obtain ⟨hbytes, hgroups, hslots, halone⟩ := State.setSplitOf_frame s sq
  refine ⟨⟨hbytes, hslots, halone, ?_, ?_, ?_⟩, hgroups⟩ <;> rw [State.curSplit_setSplitOf]
  exacts [hf, hs, ha]

theorem State.curGroup_modCur (s : State) (f : Split → Split) :
    (s.modCur f).curGroup = s.curGroup.setSplit s.cur.split (f s.curSplit) := State.curGroup_setSplitOf s _

theorem State.modCur_jump (s : State) (f : Split → Split) (addr : DWord) (unwinds : Bool) :
    (s.modCur f).jump addr unwinds
      = s.setSplitOf s.cur { (f s.curSplit).branch s.curGroup.sbase addr unwinds with ageS := s.tick } := by
  have hg : (s.modCur f).curGroup.sbase = s.curGroup.sbase := by
    rw [State.curGroup_modCur]
    rfl
  show (s.modCur f).modCur _ = _
  rw [State.modCur_modCur, hg]
  rfl

/-- A branch of the split, after a change of its scalar registers alone, goes to the target and changes nothing else. -/
theorem State.branch_goes (s : State) {sq : Split} {ds : List Nat} (addr : DWord) (unwinds : Bool)
    (hq : sq = { s.curSplit with s := sq.s }) (hs : ∀ n, n ∉ ds → sq.sreg n = s.curSplit.sreg n) :
    let t := s.setSplitOf s.cur { sq.branch s.curGroup.sbase addr unwinds with ageS := s.tick }
    ScalarFrame s t ds [] ∧ Goes s t addr (if unwinds then Unwound s addr else s.curSplit.loops) ∧ t.curSplit.s = sq.s := by
  intro t
  refine ⟨State.setSplitOf_scalarFrame ?_ hs ?_, ?_, ?_⟩
  · rw [hq]; rfl
  · intro n _; rw [hq]; rfl
  · unfold Goes
    rw [State.curSplit_setSplitOf, hq]
    refine ⟨rfl, rfl, ?_, rfl⟩
    show (if unwinds then unwind _ _ _ else _) = _
    rw [State.unwind_eq_unwound]
  · rw [State.curSplit_setSplitOf]; rfl

/-- The running split branches, and nothing else changes (R281). -/
theorem State.jump_goes (s : State) (addr : DWord) (unwinds : Bool) :
    ScalarFrame s (s.jump addr unwinds) [] []
      ∧ Goes s (s.jump addr unwinds) addr (if unwinds then Unwound s addr else s.curSplit.loops) := by
  obtain ⟨hframe, hgoes, -⟩ := State.branch_goes s (sq := s.curSplit) (ds := []) addr unwinds rfl fun _ _ => rfl
  exact ⟨hframe, hgoes⟩

/-- The results that BRC waits for where it tests a predicate have been written (R11). -/
theorem State.lanesWritten_iff (s : State) : s.lanesWritten = true ↔
    s.curSplit.queue = [] ∧ ∀ w, s.curGroup.arr = some w → w.own s.curSplit.uid = false := by
  unfold State.lanesWritten
  cases s.curGroup.arr <;> simp

/-- A mask is empty when it has no lane. -/
theorem Mask.ne_zero_iff (m : Mask) : m ≠ 0 ↔ ∃ l, l < 32 ∧ m.getLsbD l = true := by
  constructor
  · intro h
    by_contra hn
    push Not at hn
    refine h (BitVec.eq_of_getLsbD_eq fun l hl => ?_)
    simpa using hn l hl
  · rintro ⟨l, -, hl⟩ rfl
    simp at hl

/-- The test of BRC (R22). -/
theorem State.brcTest_iff (s : State) (p : BitVec 3) (n : Bool) : s.brcTest p n = true ↔
    ((if p = 0 then s.curSplit.flag = true else ∃ l, l < 32 ∧ (s.curGroup.preg p.toNat).getLsbD l ∧ s.curSplit.mask.getLsbD l)
      ↔ n = false) := by
  have hmask : (s.curGroup.preg p.toNat &&& s.curSplit.mask != 0) = true
      ↔ ∃ l, l < 32 ∧ (s.curGroup.preg p.toNat).getLsbD l ∧ s.curSplit.mask.getLsbD l := by
    rw [bne_iff_ne, Mask.ne_zero_iff]
    simp
  unfold State.brcTest
  by_cases hp : p = 0
  · rw [if_pos (by simp [hp]), if_pos hp]
    cases n <;> simp
  · rw [if_neg (by simpa using hp), if_neg hp, ← hmask]
    cases n <;> simp

/-- What BRC waits for: the lane words before it have issued, and where it tests a predicate they have written their results (R11, R156). -/
def State.brcReady (s : State) (p : BitVec 3) : Prop :=
  s.curSplit.queue = [] ∧ (p ≠ 0 → ∀ w, s.curGroup.arr = some w → w.own s.curSplit.uid = false)

/-- BRC runs once it is ready. -/
theorem execBrc_ready {s : State} {p : BitVec 3} (n : Bool) (off : BitVec 22) (h : s.brcReady p) :
    execBrc p n off s = if s.brcTest p n then .next (s.jump (s.target off) true) else .next s.advance := by
  obtain ⟨hqueue, harr⟩ := h
  unfold execBrc
  by_cases hp : p = 0
  · rw [if_pos (by simp [hp]), afterLanes, if_pos (by simp [hqueue])]
  · rw [if_neg (by simpa using hp), afterResults, if_pos ((State.lanesWritten_iff s).mpr ⟨hqueue, harr hp⟩)]

/-- BRC waits until it is ready. -/
theorem execBrc_waits {s : State} {p : BitVec 3} (n : Bool) (off : BitVec 22) (h : ¬s.brcReady p) : execBrc p n off s = .next s := by
  unfold execBrc
  by_cases hp : p = 0
  · rw [if_pos (by simp [hp]), afterLanes, if_neg]
    · rfl
    · exact fun hq => h ⟨by simpa using hq, fun hne => absurd hp hne⟩
  · rw [if_neg (by simpa using hp), afterResults, if_neg]
    · rfl
    · intro hw
      obtain ⟨hqueue, harr⟩ := (State.lanesWritten_iff s).mp hw
      exact h ⟨hqueue, fun _ => harr⟩

/-- A word that falls through and changes nothing else. -/
theorem State.advance_falls (s : State) :
    ScalarFrame s s.advance [] [] ∧ FallsThrough s s.advance ∧ s.advance.curSplit.flag = s.curSplit.flag := by
  obtain ⟨t, ht, hframe, hfalls, -, -, hflag⟩ := State.finish_frame s id [] [] rfl (fun _ _ => rfl) (fun _ _ => rfl)
  have hst : t = s.advance := by
    have hid : s.modCur id = s.setSplitOf s.cur s.curSplit := rfl
    have h := State.finish_eq s id
    rw [ht, Host.Outcome.next.injEq] at h
    rw [h]
    rfl
  rw [← hst]
  exact ⟨hframe, hfalls, hflag⟩

/-- CALL leaves the next address in the link pair and goes to its target (R281). -/
theorem execCall_goes (s : State) (off : BitVec 22) :
    ∃ t, execCall off s = .next t ∧ ScalarFrame s t [62, 63] [] ∧ Goes s t (s.target off) s.curSplit.loops
      ∧ t.curSplit.spair 62 = s.curSplit.spc + 4 := by
  obtain ⟨hframe, hgoes, hs⟩ := State.branch_goes s (sq := s.curSplit.setPair 62 (s.curSplit.spc + 4)) (ds := [62, 63]) (s.target off) false
    rfl (by
      intro n hn
      simp only [List.mem_cons, List.not_mem_nil, or_false, not_or] at hn
      rw [Split.sreg_setPair, if_neg (Ne.symm hn.2), if_neg (Ne.symm hn.1)])
  refine ⟨_, rfl, ?_⟩
  rw [State.modCur_jump]
  refine ⟨hframe, hgoes, ?_⟩
  unfold Split.spair Split.sreg
  rw [hs]
  exact Split.spair_setPair _ _ _

/-- RET with a legal pair that has landed goes to the pair, or faults where it is no address of a word (R281). -/
theorem execRet_landed {s : State} {a : BitVec 6} (ha : a.toNat % 2 = 0) (hl : Landed s [a.toNat, a.toNat + 1]) :
    execRet a s = if (s.curSplit.spair a.toNat).toNat % 4 = 0 then .next (s.jump (s.curSplit.spair a.toNat) false)
      else .next (s.scalarFault ⟨.align, .none, s.curSplit.spair a.toNat⟩) := by
  refine (scalarWord_go (reads := pairReads a) (by simp [pairOk, ha]) hl).trans ?_
  by_cases h : (s.curSplit.spair a.toNat).toNat % 4 = 0 <;> simp [h]

/-- RET from an odd register takes ILLEGAL_OPERAND (R22). -/
theorem execRet_odd {s : State} {a : BitVec 6} (ha : a.toNat % 2 = 1) : execRet a s = .next (s.scalarTrap .illegalOperand) :=
  scalarWord_bad (by simp [pairOk, ha])

/-- LJMP moves the lane PC and falls through (R281). -/
theorem execLjmp_falls (s : State) (off : BitVec 22) :
    ∃ t, execLjmp off s = .next t ∧ ScalarFrame s t [] []
      ∧ FallsFrom s t { s.curSplit with lpc := s.curSplit.lpc + sext32 off } ∧ t.curSplit.flag = s.curSplit.flag := by
  refine ⟨_, State.finish_eq s _, State.setSplitOf_scalarFrame rfl (fun _ _ => rfl) fun _ _ => rfl, ?_, ?_⟩
  · unfold FallsFrom
    rw [State.curSplit_setSplitOf]
    exact ⟨rfl, rfl, rfl⟩
  · rw [State.curSplit_setSplitOf]
    rfl

theorem add_sext32 {n : Nat} (x : Word) (off : BitVec n) : x + sext32 off = BitVec.ofInt 32 (x.toNat + off.toInt) := by
  rw [BitVec.ofInt_add, BitVec.ofInt_natCast, BitVec.ofNat_toNat, BitVec.setWidth_eq]
  rfl

end Sys2Proof.Machine

namespace Sys2Proof.Proofs
open Sys2Proof.Machine Sys2Proof.Safety

/-- Settles O7: the branches move the running split alone. -/
theorem branches : Obligations.Branches := by
  intro s off p n a sp va test done Goto
  have hva : s.target off = va := State.target_eq s off
  have hjump : ∀ i, exec i s = .next (s.jump va true) → Goto i [] va (Unwound s va) fun _ => True := by
    intro i hi
    obtain ⟨hframe, hgoes⟩ := State.jump_goes s va true
    exact ⟨_, hi, hframe, hgoes, trivial⟩
  refine ⟨?br, ?taken, ?untaken, ?waits, ?call, ?ret, ?misaligned, ?odd, ?ljmp⟩
  case br => exact hjump _ (by rw [← hva]; rfl)
  case taken =>
    intro hd ht
    refine hjump _ ((execBrc_ready n off hd).trans ?_)
    rw [if_pos ((State.brcTest_iff s p n).mpr ht), hva]
  case untaken =>
    intro hd ht
    refine ⟨_, (execBrc_ready n off hd).trans (if_neg ?_), State.advance_falls s⟩
    rw [State.brcTest_iff]
    exact fun h => absurd (ht.symm.trans h) (by cases n <;> simp)
  case waits => exact fun hd => execBrc_waits n off hd
  case call => rw [← hva]; exact execCall_goes s off
  case ret =>
    intro ha hl hal
    obtain ⟨hframe, hgoes⟩ := State.jump_goes s (sp.spair a.toNat) false
    exact ⟨_, (execRet_landed ha hl).trans (if_pos hal), hframe, hgoes, trivial⟩
  case misaligned => exact fun ha hl hal => (execRet_landed ha hl).trans (if_neg hal)
  case odd => exact fun ha => execRet_odd ha
  case ljmp => rw [← add_sext32]; exact execLjmp_falls s off

end Sys2Proof.Proofs
end

section
namespace Sys2Proof.Machine
open Sys2Proof.Safety

/-! ### The groups after a unit has ended (R9, R261) -/

/-- A table whose values are mapped answers the mapped value. -/
theorem Tab.get_map {α β : Type} (f : α → β) (d : α) (t : Tab α) (k : Nat) :
    Tab.get (f d) (t.map fun p => (p.1, f p.2)) k = f (Tab.get d t k) := by
  induction t with
  | nil => rfl
  | cons p t ih =>
    simp only [List.map_cons, Tab.get, ih]
    split <;> rfl

theorem State.group_waitsDie (s : State) (core off c k : Nat) :
    (s.waitsDie core off).group c k = (s.group c k).waitsDie core off :=
  Tab.get_map (Group.waitsDie core off) Group.empty s.groups (slotKey c k)

theorem State.launchUnitsEnded_groups (s : State) (launch : Word) (n : Nat) (failed : Bool) :
    (s.launchUnitsEnded launch n failed).groups = s.groups := by
  unfold State.launchUnitsEnded
  split
  · rfl
  · dsimp only
    split <;> rfl

theorem State.leaveCore_groups (s : State) (ctx core : Nat) : (s.leaveCore ctx core).groups = s.groups := by
  unfold State.leaveCore
  dsimp only
  split
  · rfl
  · split <;> rfl

/-- The end of a unit brings no group to life. -/
theorem State.endUnit_live (s : State) (unit : Nat) (failed : Bool) (c k : Nat) :
    ((s.endUnit unit failed).group c k).live = (s.group c k).live := by
  have hfree : ∀ (l : List PhaserTag) (u : UnitRec) (t : State),
      ((l.foldl (fun s p =>
        ((({ s with mem := s.mem.write (scrKey u.core p.off) (s.mem.read (scrKey u.core p.off) &&& 0xFE#8) } : State).waitsDie u.core
          p.off).arrivalsLose u.core p.off).cardsLose unit (p.off - u.pbase)) t).group c k).live = (t.group c k).live := by
    intro l u
    induction l with
    | nil => exact fun _ => rfl
    | cons p l ih =>
      intro t
      rw [List.foldl_cons, ih]
      have hlive := congrArg Group.live (State.group_waitsDie t u.core p.off c k)
      exact hlive
  unfold State.endUnit
  split
  · rfl
  · split
    · rfl
    · simp only [State.group, State.launchUnitsEnded_groups]
      exact hfree _ _ _

/-- A slot whose group ends holds no group (R9). -/
theorem State.endGroup_live (s : State) (core slot : Nat) : ((s.endGroup core slot).group core slot).live = false := by
  have hdrop : ((s.dropGroup core slot).group core slot).live = false := by
    unfold State.dropGroup
    simp only [State.group, State.leaveCore_groups]
    exact congrArg Group.live (Tab.get_put_same _ _ _ _)
  unfold State.endGroup
  dsimp only
  generalize s.dropGroup core slot = t at hdrop
  split
  · exact hdrop
  · split
    · rw [State.endUnit_live]
      exact hdrop
    · exact hdrop

/-! ### EXIT and the end of a split (R9, R291) -/

/-- Where no record of a split is serial, nothing goes on when its lanes have ended (R290). -/
theorem afterExit_none {sbase : DWord} {shared : Nat → Bool} {sp : Split} (h : ∀ r ∈ sp.joins, r.kind = .join) :
    afterExit sbase shared sp = none := by
  have hdrop : (sp.joins.dropWhile fun r => !r.goesOn shared) = [] := by
    rw [List.dropWhile_eq_nil_iff]
    intro r hr
    simp [JoinRec.goesOn, h r hr]
  simp only [afterExit, hdrop]

/-- A split without a serial record is taken away when its lanes end (R9). -/
theorem State.endLanes_eq {s : State} {ag : Agent} (h : ∀ r ∈ (s.splitOf ag).joins ++ (s.splitOf ag).setJoins, r.kind = .join) :
    s.endLanes ag = (s.setGroupOf ag (s.groupOf ag)).removeSplit ag := by
  have hgiven : ∀ f : JoinRec → Bool,
      (((s.splitOf ag).joins ++ (s.splitOf ag).setJoins).takeWhile f).filter (fun r => r.kind == .serial) = [] := by
    intro f
    rw [List.filter_eq_nil_iff]
    intro r hr
    simp [h r (List.takeWhile_subset _ hr)]
  unfold State.endLanes
  simp only [hgiven, List.foldl_nil]
  rw [afterExit_none fun r hr => h r (List.mem_append_left _ hr),
    afterExit_none (sp := { s.splitOf ag with joins := (s.splitOf ag).setJoins }) fun r hr => h r (List.mem_append_right _ hr)]

theorem State.setGroupOf_setGroupOf (s : State) (ag : Agent) (g h : Group) :
    (s.setGroupOf ag g).setGroupOf ag h = s.setGroupOf ag h := by
  simp [State.setGroupOf, State.setGroup, Tab.put_put]

/-- SPLIT_END runs once the lane words of an exiting split, or of a handler's that has run EXIT, have issued and its tracked results have
landed (R9, R291). -/
theorem State.mayEnd_of {s : State} {ag : Agent}
    (hleave : (s.splitOf ag).status = .exiting ∧ (s.splitOf ag).held = [] ∨ (s.splitOf ag).status = .trapped ∧ (s.splitOf ag).quits = true)
    (hqueue : (s.splitOf ag).queue = []) (hdrain : (s.splitOf ag).drain = none)
    (hents : ∀ e ∈ s.ents, e.own (s.splitOf ag).uid = true → e.tracked = true → e.dstN = 0 ∧ e.esc = none)
    (harr : ∀ w, (s.groupOf ag).arr = some w → w.own (s.splitOf ag).uid = false) : s.mayEnd ag = true := by
  have hstatus : ((s.splitOf ag).status == .exiting && (s.splitOf ag).held.isEmpty
      || (s.splitOf ag).status == .trapped && (s.splitOf ag).quits) = true := by
    rcases hleave with ⟨hs, hh⟩ | ⟨hs, hq⟩
    · simp [hs, hh]
    · simp [hs, hq]
  have hland : (s.ents.any fun e => e.own (s.splitOf ag).uid && e.tracked && (decide (e.dstN > 0) || e.esc.isSome)) = false := by
    rw [List.any_eq_false]
    intro e he hc
    simp only [Bool.and_eq_true] at hc
    obtain ⟨⟨hown, htrk⟩, hres⟩ := hc
    obtain ⟨hn, hesc⟩ := hents e he hown htrk
    simp [hn, hesc] at hres
  have hreads : ((s.groupOf ag).arr.any fun a => a.own (s.splitOf ag).uid) = false := by
    cases ha : (s.groupOf ag).arr with
    | none => rfl
    | some w => simpa using harr w ha
  unfold State.mayEnd
  simp only [hstatus, hland, hreads, hqueue, hdrain]
  rfl

/-- A split that is not the last of its group leaves, and nothing else changes. -/
theorem State.removeSplit_others {s : State} {ag : Agent} (h : ∃ p ∈ (s.groupOf ag).splits, p.1 ≠ ag.split) :
    (s.setGroupOf ag (s.groupOf ag)).removeSplit ag
      = s.setGroupOf ag { s.groupOf ag with splits := Tab.del (s.groupOf ag).splits ag.split } := by
  obtain ⟨p, hp, hne⟩ := h
  have hleft : (Tab.del (s.groupOf ag).splits ag.split).isEmpty = false := by
    rw [List.isEmpty_eq_false_iff_exists_mem]
    exact ⟨p, List.mem_filter.mpr ⟨hp, by simpa using hne⟩⟩
  unfold State.removeSplit
  simp only [State.groupOf_setGroupOf, State.setGroupOf_setGroupOf, hleft, Bool.false_eq_true, if_false]

/-- The last split of a group takes the group along (R9). -/
theorem State.removeSplit_last {s : State} {ag : Agent} (h : ∀ p ∈ (s.groupOf ag).splits, p.1 = ag.split) :
    (((s.setGroupOf ag (s.groupOf ag)).removeSplit ag).groupOf ag).live = false := by
  have hnone : (Tab.del (s.groupOf ag).splits ag.split).isEmpty = true := by
    rw [List.isEmpty_iff, Tab.del, List.filter_eq_nil_iff]
    intro p hp
    simp [h p hp]
  unfold State.removeSplit
  simp only [State.groupOf_setGroupOf, State.setGroupOf_setGroupOf, hnone, if_true]
  exact State.endGroup_live _ _ _

end Sys2Proof.Machine

namespace Sys2Proof.Proofs
open Sys2Proof.Machine Sys2Proof.Safety

/-- Settles O14: EXIT writes the running split alone, and a split without serial records leaves its group or takes it along. -/
theorem splitEnds : Obligations.SplitEnds := by
  intro s
  constructor
  · obtain ⟨hbytes, hgroups, hslots, halone⟩ := State.setSplitOf_frame s
      (if s.curSplit.status == .trapped then { s.curSplit with quits := true, fetched := none, ageS := s.tick }
        else { s.curSplit with status := .exiting, fetched := none, ageS := s.tick })
    refine ⟨_, rfl, hbytes, hgroups, hslots, halone, fun hst => ?_, fun hst => ?_⟩
    · exact (State.curSplit_modCur _ _).trans (if_neg (by simpa using hst))
    · exact (State.curSplit_modCur _ _).trans (if_pos (by simpa using hst))
  · intro ag sp leaves hlive hleave hqueue hdrain hents harr hjoins
    have hend : exec (.splitEnd ag) s = .next ((s.setGroupOf ag (s.groupOf ag)).removeSplit ag) := by
      show execSplitEnd ag s = _
      rw [execSplitEnd, hlive, State.mayEnd_of hleave hqueue hdrain hents harr, State.endLanes_eq hjoins]
      rfl
    refine ⟨_, hend, fun hother => ?_, State.removeSplit_last⟩
    rw [State.removeSplit_others hother]
    refine ⟨fun _ => rfl, rfl, ?_, fun n hn => ?_⟩
    · rw [State.groupOf_setGroupOf]
      exact (Tab.get_del _ _ _ _).trans (if_pos rfl)
    · rw [State.groupOf_setGroupOf]
      exact (Tab.get_del _ _ _ _).trans (if_neg (Ne.symm hn))

end Sys2Proof.Proofs
end

section
namespace Sys2Proof.Machine
open Sys2Proof.Safety

/-! ### What a read at the owner and at the home leaves alone (R43-R51, R64, R70) -/

/-- The step from `s` to `t` has touched line metadata and dies alone: no byte of memory and no group. -/
structure ReadStep (s t : State) : Prop where
  frame : t = { s with lines := t.lines, dies := t.dies }

namespace ReadStep

theorem refl (s : State) : ReadStep s s := ⟨rfl⟩

theorem trans {s t u : State} (h : ReadStep s t) (k : ReadStep t u) : ReadStep s u := ⟨by rw [k.frame, h.frame]⟩

theorem mem {s t : State} (h : ReadStep s t) : t.mem = s.mem := by rw [h.frame]
theorem groups {s t : State} (h : ReadStep s t) : t.groups = s.groups := by rw [h.frame]
theorem ents {s t : State} (h : ReadStep s t) : t.ents = s.ents := by rw [h.frame]

theorem ite {α : Type} {s : State} {c : Prop} [Decidable c] {x y : α × State} (hx : ReadStep s x.2) (hy : ReadStep s y.2) :
    ReadStep s (if c then x else y).2 := by
  split
  · exact hx
  · exact hy

end ReadStep

theorem State.modDie_readStep (s : State) (d : Nat) (f : Die → Die) : ReadStep s (s.modDie d f) := ⟨rfl⟩
theorem State.poisonLine_readStep (s : State) (k : Nat) : ReadStep s (s.poisonLine k) := ⟨rfl⟩

theorem State.holdLine_readStep (s : State) (di key : Nat) : ReadStep s (s.holdLine di key) := State.modDie_readStep s _ _

theorem State.entryAt_readStep (s : State) (di ctx lv idx key : Nat) : ReadStep s (s.entryAt di ctx lv idx key).2 := by
  unfold State.entryAt
  dsimp only
  split
  all_goals
    dsimp only
    exact State.modDie_readStep s _ _

theorem walkFrom_readStep (di ctx : Nat) (va : DWord) (ls : List Level) (tbl : Nat) (s : State) :
    ReadStep s (walkFrom di ctx va ls tbl s).2 := by
  induction ls generalizing tbl s with
  | nil => exact ReadStep.refl s
  | cons lv ls ih =>
    have h := State.entryAt_readStep s di ctx lv.n (localOf va / 2 ^ lv.lo) (physKey di 0 (tbl + 8 * (localOf va / 2 ^ lv.lo % 2 ^ lv.w)))
    unfold walkFrom
    dsimp only
    split
    · exact h
    · split
      · split <;> exact h
      · split
        · exact h
        · exact h.trans (ih _ _)

theorem State.walk_readStep (s : State) (ctx : Nat) (va : DWord) : ReadStep s (s.walk ctx va).2 := by
  unfold State.walk
  dsimp only
  split
  · exact ReadStep.refl s
  · exact walkFrom_readStep _ _ _ _ _ s

theorem State.leafFor_readStep (s : State) (ctx : Nat) (lease : Option Word) (a : Access) (va : DWord) :
    ReadStep s (s.leafFor ctx lease a va).2 := by
  have h := State.walk_readStep s ctx va
  unfold State.leafFor
  generalize s.walk ctx va = r at h
  obtain ⟨r, t⟩ := r
  refine ReadStep.ite (ReadStep.refl s) ?_
  cases r with
  | error c => exact h
  | ok l =>
    dsimp only
    split <;> exact h

theorem State.ownerLook_readStep (s : State) (ctx : Nat) (lease : Option Word) (a : Access) (va : DWord) :
    ReadStep s (s.ownerLook ctx lease a va).2 := by
  have h := State.leafFor_readStep s ctx lease a va
  unfold State.ownerLook
  generalize s.leafFor ctx lease a va = r at h
  obtain ⟨r, t⟩ := r
  cases r <;> exact h

theorem State.ownerCheck_readStep (s : State) (ctx : Nat) (lease : Option Word) (a : Access) (va : DWord) :
    ReadStep s (s.ownerCheck ctx lease a va).2 := by
  have h := State.leafFor_readStep s ctx lease a va
  unfold State.ownerCheck
  generalize s.leafFor ctx lease a va = r at h
  obtain ⟨r, t⟩ := r
  cases r with
  | error f => exact h
  | ok l =>
    dsimp only
    split
    · exact h.trans (State.modDie_readStep t _ _)
    · exact h

theorem State.openLine_readStep (s : State) (key : Nat) (t : LineTag) : ReadStep s (s.openLine key t).2 := by
  unfold State.openLine
  dsimp only
  split_ifs
  · exact ReadStep.refl s
  · exact ReadStep.refl s
  · exact State.poisonLine_readStep s key
  · exact ReadStep.refl s
  · exact ReadStep.refl s
  · exact State.poisonLine_readStep s key

theorem State.lineRead_readStep (s : State) (key n : Nat) (t : LineTag) : ReadStep s (s.lineRead key n t).2 := by
  have h := State.openLine_readStep s key t
  unfold State.lineRead
  generalize s.openLine key t = r at h
  obtain ⟨_ | _, u⟩ := r <;> exact h

theorem State.homeReadBy_readStep (s : State) (di ctx : Nat) (va : DWord) (key n : Nat) :
    ReadStep s (s.homeReadBy di ctx va key n).2 := by
  have h := State.lineRead_readStep s (s.serve ctx va key).1 n (s.tagFor di ctx va)
  unfold State.homeReadBy
  generalize s.lineRead _ _ _ = r at h
  obtain ⟨_ | bs, u⟩ := r
  · refine h.trans ?_
    show ReadStep u (u.markMirror ctx va key)
    unfold State.markMirror
    split
    · split
      · exact State.poisonLine_readStep u _
      · exact ReadStep.refl u
    · exact ReadStep.refl u
  · exact h.trans (State.holdLine_readStep u _ _)

theorem State.homeRead_readStep (s : State) (ctx : Nat) (va : DWord) (key n : Nat) : ReadStep s (s.homeRead ctx va key n).2 :=
  State.homeReadBy_readStep s _ ctx va key n

/-! ### What a fetch leaves alone (R34, R38, R96-R102) -/

/-- The step from `s` to `t` has touched line metadata, dies, the core's copies and what packets take on their way alone: no byte of memory,
no group and no entry in flight. -/
structure FetchStep (s t : State) : Prop where
  frame : t = { s with
    lines := t.lines, dies := t.dies, copies := t.copies, spent := t.spent, served := t.served, links := t.links, turns := t.turns }

namespace FetchStep

theorem refl (s : State) : FetchStep s s := ⟨rfl⟩

theorem trans {s t u : State} (h : FetchStep s t) (k : FetchStep t u) : FetchStep s u := ⟨by rw [k.frame, h.frame]⟩

theorem mem {s t : State} (h : FetchStep s t) : t.mem = s.mem := by rw [h.frame]
theorem groups {s t : State} (h : FetchStep s t) : t.groups = s.groups := by rw [h.frame]
theorem cur {s t : State} (h : FetchStep s t) : t.cur = s.cur := by rw [h.frame]
theorem tick {s t : State} (h : FetchStep s t) : t.tick = s.tick := by rw [h.frame]

theorem groupOf {s t : State} (h : FetchStep s t) (ag : Agent) : t.groupOf ag = s.groupOf ag := by
  simp only [State.groupOf, State.group, h.groups]

theorem curGroup {s t : State} (h : FetchStep s t) : t.curGroup = s.curGroup := by
  rw [State.curGroup, h.cur, h.groupOf]
  rfl

theorem curSplit {s t : State} (h : FetchStep s t) : t.curSplit = s.curSplit := by
  show t.curGroup.split t.cur.split = _
  rw [h.curGroup, h.cur]
  rfl

end FetchStep

theorem ReadStep.fetchStep {s t : State} (h : ReadStep s t) : FetchStep s t := ⟨by rw [h.frame]⟩

theorem State.leaveFor_fetchStep (s : State) (gate node : Nat) (va : DWord) (payload : Nat) :
    FetchStep s (s.leaveFor gate node va payload) := by
  unfold State.leaveFor
  split
  · exact FetchStep.refl s
  · split
    · exact ⟨rfl⟩
    · exact FetchStep.refl s

theorem State.cross_fetchStep (s : State) (gate ctx : Nat) (lease : Option Word) (a : Access) (va : DWord) (payload : Nat) :
    FetchStep s (s.cross gate ctx lease a va payload) :=
  (State.leaveFor_fetchStep s _ _ _ _).trans (State.leaveFor_fetchStep _ _ _ _ _)

theorem State.coreAsk_fetchStep (s : State) (core ctx : Nat) (lease : Option Word) (a : Access) (va : DWord) :
    FetchStep s (s.coreAsk core ctx lease a va) :=
  (FetchStep.trans ⟨rfl⟩ (State.cross_fetchStep _ _ _ _ _ _ _)).trans ⟨rfl⟩

theorem State.fetchLine_fetchStep (s : State) (ag : Agent) (va : DWord) (n : Nat) : FetchStep s (s.fetchLine ag va n).2 := by
  unfold State.fetchLine
  dsimp only
  split
  · exact FetchStep.refl s
  · split
    · have h := State.ownerLook_readStep s (s.groupOf ag).ctx (some (s.groupOf ag).launch) .fetch va
      generalize s.ownerLook _ _ _ _ = r at h
      obtain ⟨_ | _, u⟩ := r
      · exact h.fetchStep
      · exact h.fetchStep.trans ⟨rfl⟩
    · have hask := State.coreAsk_fetchStep s ag.core (s.groupOf ag).ctx (some (s.groupOf ag).launch) .fetch va
      generalize s.coreAsk _ _ _ _ _ = u at hask
      have hcheck := State.ownerCheck_readStep u (s.groupOf ag).ctx (some (s.groupOf ag).launch) .fetch va
      generalize u.ownerCheck _ _ _ _ = r at hcheck
      obtain ⟨_ | ⟨key, l⟩, v⟩ := r
      · exact hask.trans hcheck.fetchStep
      · have hread := State.homeRead_readStep v (s.groupOf ag).ctx (noPath va) key n
        dsimp only
        generalize v.homeRead _ _ _ _ = r at hread
        obtain ⟨_ | bs, w⟩ := r <;> exact (hask.trans hcheck.fetchStep).trans hread.fetchStep

theorem State.fetchBytes_fetchStep (s : State) (ag : Agent) (va : DWord) (n : Nat) : FetchStep s (s.fetchBytes ag va n).2 := by
  have h := State.fetchLine_fetchStep s ag va (min n (128 - va.toNat % 128))
  unfold State.fetchBytes
  dsimp only
  generalize s.fetchLine ag va _ = r at h
  obtain ⟨_ | bs, u⟩ := r
  · exact h
  · dsimp only
    split
    · exact h
    · have k := State.fetchLine_fetchStep u ag (va + BitVec.ofNat 64 (min n (128 - va.toNat % 128))) (n - min n (128 - va.toNat % 128))
      generalize u.fetchLine ag _ _ = r at k
      obtain ⟨_ | cs, v⟩ := r <;> exact h.trans k

end Sys2Proof.Machine
end

section
namespace Sys2Proof.Machine
open Sys2Proof.Safety

/-! ### The words that LRUN fetches (R7, R8, R34) -/

/-- The states that the fetches of successive lane words go through, from a lane PC on. -/
def laneStates (ag : Agent) : State → Word → Nat → State
  | s, _, 0 => s
  | s, lpc, i + 1 => laneStates ag (s.fetchBytes ag ((s.groupOf ag).laneAddr lpc) 12).2 (lpc + 1) i

theorem laneStates_fetchStep (ag : Agent) (s : State) (lpc : Word) (i : Nat) : FetchStep s (laneStates ag s lpc i) := by
  induction i generalizing s lpc with
  | zero => exact FetchStep.refl s
  | succ i ih => exact (State.fetchBytes_fetchStep s ag _ _).trans (ih _ _)

theorem lpc_add_succ (lpc : Word) (i : Nat) : lpc + 1 + BitVec.ofNat 32 i = lpc + BitVec.ofNat 32 (i + 1) := by
  rw [BitVec.ofNat_add, BitVec.add_assoc, BitVec.add_comm 1]
  rfl

/-- Each fetch starts where the one before it has ended. -/
theorem laneStates_succ (ag : Agent) (s : State) (lpc : Word) (i : Nat) :
    laneStates ag s lpc (i + 1)
      = ((laneStates ag s lpc i).fetchBytes ag ((s.groupOf ag).laneAddr (lpc + BitVec.ofNat 32 i)) 12).2 := by
  induction i generalizing s lpc with
  | zero => simp [laneStates]
  | succ i ih =>
    have h := ih (s.fetchBytes ag ((s.groupOf ag).laneAddr lpc) 12).2 (lpc + 1)
    rw [(State.fetchBytes_fetchStep s ag _ _).groupOf, lpc_add_succ] at h
    exact h

theorem State.fetchLane_state (s : State) (ag : Agent) (sp : Split) (lpc : Word) (order : Nat) :
    (s.fetchLane ag sp lpc order).2 = (s.fetchBytes ag ((s.groupOf ag).laneAddr lpc) 12).2 := by
  unfold State.fetchLane
  generalize s.fetchBytes _ _ _ = r
  obtain ⟨_ | _, t⟩ := r <;> rfl

/-- The entry of a lane word is what its fetch brings (R8, R34). -/
theorem State.fetchLane_entry (s : State) (ag : Agent) (sp : Split) (lpc : Word) (order : Nat) :
    (∀ f, (s.fetchBytes ag ((s.groupOf ag).laneAddr lpc) 12).1 = .error f →
      (s.fetchLane ag sp lpc order).1 = queueEntry sp 0 lpc (some f) order)
    ∧ ∀ bs, (s.fetchBytes ag ((s.groupOf ag).laneAddr lpc) 12).1 = .ok bs →
      (s.fetchLane ag sp lpc order).1 = queueEntry sp (BitVec.ofNat 96 (ofBytes bs)) lpc none order := by
  unfold State.fetchLane
  generalize s.fetchBytes _ _ _ = r
  obtain ⟨_ | _, t⟩ := r
  · exact ⟨fun f hf => by cases hf; rfl, nofun⟩
  · exact ⟨nofun, fun bs hbs => by cases hbs; rfl⟩

/-- The entries of successive lane words: each is what its own fetch brings (R8, R34). -/
theorem fetchLanes_entries (n : Nat) (s : State) (ag : Agent) (sp : Split) (lpc : Word) (order : Nat) :
    (fetchLanes n s ag sp lpc order).1.length = n ∧ (fetchLanes n s ag sp lpc order).2 = laneStates ag s lpc n
      ∧ ∀ i e, (fetchLanes n s ag sp lpc order).1[i]? = some e →
        e = ((laneStates ag s lpc i).fetchLane ag sp (lpc + BitVec.ofNat 32 i) (order + i)).1 := by
  induction n generalizing s lpc order with
  | zero => exact ⟨rfl, rfl, by simp [fetchLanes]⟩
  | succ n ih =>
    obtain ⟨hlen, hstate, hentry⟩ := ih (s.fetchLane ag sp lpc order).2 (lpc + 1) (order + 1)
    have hst := State.fetchLane_state s ag sp lpc order
    refine ⟨?_, ?_, ?_⟩
    · exact congrArg (· + 1) hlen
    · refine Eq.trans (b := laneStates ag (s.fetchLane ag sp lpc order).2 (lpc + 1) n) hstate ?_
      rw [hst]
      rfl
    · intro i e he
      cases i with
      | zero => simpa [fetchLanes, laneStates, eq_comm] using he
      | succ i =>
        have h := hentry i e he
        rw [hst, lpc_add_succ, Nat.add_assoc, Nat.add_comm 1] at h
        exact h

theorem pair_hiW_loW (d : DWord) : pair (hiW d) (loW d) = d := by
  have h := Split.spair_setPair Split.empty 0 d
  rwa [Split.spair, Split.sreg_setPair, Split.sreg_setPair, if_pos rfl, if_neg (by decide), if_pos rfl] at h

/-- A capture holds the scalar register that its field names and the one above it, or the affine register (R8, R334). -/
theorem captureOf_reads (sp : Split) (c : BitVec 10) :
    (640 ≤ c.toNat → c.toNat < 704 → (captureOf sp c).w0 = sp.sreg (c.toNat - 640)
      ∧ (captureOf sp c).w1 = if c.toNat = 703 then 0 else sp.sreg (c.toNat - 639))
    ∧ (704 ≤ c.toNat → c.toNat < 736 →
      (captureOf sp c).w1 ++ (captureOf sp c).w0 = (sp.areg (c.toNat - 704)).base ∧ (captureOf sp c).w2 = (sp.areg (c.toNat - 704)).stride) := by
  constructor
  · intro hlo hhi
    have hscal : isScal c = true := by simp [isScal, hlo, hhi]
    have hnext : c.toNat - 640 + 1 = c.toNat - 639 := by omega
    have hlast : c.toNat - 640 = 63 ↔ c.toNat = 703 := by omega
    simp [captureOf, hscal, hnext, hlast]
  · intro hlo hhi
    have hscal : isScal c = false := by simp [isScal]; omega
    have haff : isAff c = true := by simp [isAff, hlo, hhi]
    simp only [captureOf, hscal, haff, Bool.false_eq_true, if_false, if_true, and_true]
    exact pair_hiW_loW _

/-- The registers that the fields of a lane word name (R8, R205, R334). -/
theorem queueEntry_captures (sp : Split) (bits : LBits) (lpc : Word) (fail : Option Fail) (order : Nat) :
    let e := queueEntry sp bits lpc fail order
    let op := (bits.extractLsb' 88 7).toNat
    e.capA = captureOf sp (bits.extractLsb' 60 10)
      ∧ (op ≠ 0x3D → e.capB = captureOf sp (bits.extractLsb' 42 10)) ∧ (op = 0x3D → e.capB = ⟨0, 0, 0⟩)
      ∧ e.capC = captureOf sp (if op = 0x59 ∨ op = 0x5E then bits.extractLsb' 70 10 else bits.extractLsb' 24 10) := by
  intro e op
  have hB : e.capB = captureOf sp (secondField op (laneFields bits)) := rfl
  have hC : e.capC = captureOf sp (thirdField op (laneFields bits)) := rfl
  refine ⟨rfl, fun h => ?_, fun h => ?_, ?_⟩
  · rw [hB, secondField, if_neg (by simpa using h)]
    rfl
  · rw [hB, secondField, if_pos (by simpa using h)]
    rfl
  · rw [hC, thirdField]
    congr 1
    by_cases h : op = 0x59 ∨ op = 0x5E
    · rw [if_pos (by simpa using h), if_pos h]
      rfl
    · rw [if_neg (by simpa using h), if_neg h]
      rfl

/-! ### What LRUN does to its split (R7, R34) -/

/-- The split with lane words enqueued: the lane PC has passed them, and `rest` of them are still to come. -/
def Split.enqueued (sp : Split) (es : List QEntry) (k rest : Nat) : Split :=
  { sp with queue := sp.queue ++ es, lpc := sp.lpc + BitVec.ofNat 32 k, lrun := rest }

/-- The running group with lane words enqueued. -/
def State.enqueuedGroup (s : State) (k : Nat) (sq : Split) : Group :=
  { s.curGroup with enq := s.curGroup.enq + k }.setSplit s.cur.split sq

/-- A fetch and then a write of the running group leave memory and every other slot as they were. -/
theorem FetchStep.setGroupOf_frame {s t : State} (h : FetchStep s t) (g : Group) :
    SameBytes s (t.setGroupOf s.cur g) ∧ OtherSlots s (t.setGroupOf s.cur g) ∧ (t.setGroupOf s.cur g).curGroup = g := by
  refine ⟨fun k => ?_, fun c k hne => ?_, ?_⟩
  · show t.mem.read k = _
    rw [h.mem]
  · show (t.setGroup s.cur.core s.cur.slot g).group c k = _
    rw [State.group_setGroup, if_neg (Ne.symm hne), State.group, h.groups]
    rfl
  · show (t.setGroupOf s.cur g).groupOf t.cur = g
    rw [h.cur, State.groupOf_setGroupOf]

/-- A change of the running split after a write of the running group. -/
theorem State.setGroupOf_modCur {t : State} {ag : Agent} (hc : t.cur = ag) (g : Group) (f : Split → Split) :
    (t.setGroupOf ag g).modCur f = t.setGroupOf ag (g.setSplit ag.split (f (g.split ag.split))) := by
  subst hc
  show (t.setGroupOf t.cur g).setSplitOf t.cur (f ((t.setGroupOf t.cur g).splitOf t.cur)) = _
  rw [State.setSplitOf, State.splitOf, State.groupOf_setGroupOf, State.setGroupOf_setGroupOf]

theorem State.enqueuedGroup_modSplit (s : State) (k : Nat) (sq : Split) (f : Split → Split) :
    (s.enqueuedGroup k sq).setSplit s.cur.split (f ((s.enqueuedGroup k sq).split s.cur.split)) = s.enqueuedGroup k (f sq) := by
  unfold State.enqueuedGroup
  rw [Group.split_setSplit_same]
  simp only [Group.setSplit, Tab.put_put]

/-- LRUN with room in the queue, its code ready and nothing awaited (R7, R34). -/
theorem execLrun_enqueues {s : State} {cnt : BitVec 10} (hcnt : cnt ≠ 0) (hwait : ∀ n, s.awaits s.cur n = false) {want k : Nat}
    (hwant : want = if s.curSplit.lrun = 0 then cnt.toNat else s.curSplit.lrun) (hk : k = min want (16 - s.curSplit.queue.length))
    (hpos : k ≠ 0) (hready : s.fetchReady s.cur (s.curGroup.laneAddr s.curSplit.lpc) (12 * k) = true) :
    ∃ (es : List QEntry) (t : State), fetchLanes k s s.cur s.curSplit s.curSplit.lpc s.curGroup.enq = (es, t) ∧
      exec (.lrun cnt) s = .next (t.setGroupOf s.cur (s.enqueuedGroup k
        (if k = want then { (s.curSplit.enqueued es k 0).fallTo s.curGroup.sbase (s.curSplit.spc + 4) with ageS := s.tick }
          else s.curSplit.enqueued es k (want - k)))) := by
  have hwant' : (if (s.curSplit.lrun == 0) = true then cnt.toNat else s.curSplit.lrun) = want := by simp [hwant]
  obtain ⟨es, t, hr⟩ : ∃ es t, fetchLanes k s s.cur s.curSplit s.curSplit.lpc s.curGroup.enq = (es, t) := ⟨_, _, rfl⟩
  have hstep : FetchStep s t := by
    have h := laneStates_fetchStep s.cur s s.curSplit.lpc k
    rwa [← (fetchLanes_entries k s s.cur s.curSplit s.curSplit.lpc s.curGroup.enq).2.1, hr] at h
  have hsplit : ({ s.curGroup with enq := s.curGroup.enq + k } : Group).split s.cur.split = s.curSplit := rfl
  have hgroup : t.modGroup s.cur (fun g => { g with enq := g.enq + k }) = t.setGroupOf s.cur { s.curGroup with enq := s.curGroup.enq + k } := by
    rw [State.modGroup, hstep.groupOf]
    rfl
  have hqueued : (t.modGroup s.cur fun g => { g with enq := g.enq + k }).modCur (fun sp => sp.enqueued es k (want - k))
      = t.setGroupOf s.cur (s.enqueuedGroup k (s.curSplit.enqueued es k (want - k))) := by
    rw [hgroup, State.setGroupOf_modCur hstep.cur, hsplit]
    rfl
  refine ⟨es, t, hr, ?_⟩
  show execLrun cnt s = _
  have hawait : (es.flatMap QEntry.captures).any (s.awaits s.cur) = false := by simp [hwait]
  unfold execLrun
  rw [if_neg (by simpa using hcnt)]
  simp only [hwant', ← hk, hr, hawait, hready]
  rw [if_neg (by simp [hpos]), if_neg (by simp)]
  refine (congrArg (fun u : State => if (k == want) = true then Host.Outcome.next u.advance else .next u) hqueued).trans ?_
  by_cases hall : k = want
  · have hg : (t.setGroupOf s.cur (s.enqueuedGroup k (s.curSplit.enqueued es k (want - k)))).curGroup.sbase = s.curGroup.sbase := by
      rw [(hstep.setGroupOf_frame _).2.2]
      rfl
    have htick : (t.setGroupOf s.cur (s.enqueuedGroup k (s.curSplit.enqueued es k (want - k)))).tick = s.tick := hstep.tick
    rw [if_pos (by simpa using hall), if_pos hall, State.advance, hg, htick, State.setGroupOf_modCur hstep.cur,
      State.enqueuedGroup_modSplit s k _ fun sp => { sp.fallTo s.curGroup.sbase (sp.spc + 4) with ageS := s.tick }, hall, Nat.sub_self]
    rfl
  · rw [if_neg (by simpa using hall), if_neg hall]

/-- LRUN with a full queue waits (R7). -/
theorem execLrun_full {s : State} {cnt : BitVec 10} (hcnt : cnt ≠ 0) (hfull : 16 ≤ s.curSplit.queue.length) : execLrun cnt s = .next s := by
  unfold execLrun
  rw [if_neg (by simpa using hcnt)]
  simp [Nat.sub_eq_zero_of_le hfull, hold]

end Sys2Proof.Machine

namespace Sys2Proof.Proofs
open Sys2Proof.Machine Sys2Proof.Safety

/-- Settles O11: the entries are those that the successive fetches bring, and nothing but the running group has changed beside them. -/
theorem runLaneWords : Obligations.RunLaneWords := by
  intro s cnt sp want k wordAt Captures
  have hcap : ∀ c, Captures c (captureOf sp c) := captureOf_reads sp
  refine ⟨fun hcnt hpos hwait hready => ?_, execLrun_full, fun hcnt => ?_⟩
  · obtain ⟨es, t, hr, hexec⟩ := execLrun_enqueues (want := want) (k := k) hcnt hwait rfl rfl hpos hready
    obtain ⟨hlen, hstate, hentry⟩ := fetchLanes_entries k s s.cur sp sp.lpc s.curGroup.enq
    rw [hr] at hlen hstate hentry
    have hstep : FetchStep s t := by
      rw [show t = _ from hstate]
      exact laneStates_fetchStep s.cur s sp.lpc k
    generalize hsq : (if k = want then { (sp.enqueued es k 0).fallTo s.curGroup.sbase (sp.spc + 4) with ageS := s.tick }
        else sp.enqueued es k (want - k)) = sq at hexec
    obtain ⟨hbytes, hslots, hgroup⟩ := hstep.setGroupOf_frame (s.enqueuedGroup k sq)
    have hsplit : (t.setGroupOf s.cur (s.enqueuedGroup k sq)).curSplit = sq := by
      show (State.curGroup _).split t.cur.split = sq
      rw [hgroup, hstep.cur]
      exact Group.split_setSplit_same _ _ _
    have hkeeps : sq.queue = sp.queue ++ es ∧ sq.s = sp.s ∧ sq.a = sp.a ∧ sq.flag = sp.flag := by
      rw [← hsq]
      split <;> exact ⟨rfl, rfl, rfl, rfl⟩
    obtain ⟨hqueue, hs, ha, hflag⟩ := hkeeps
    refine ⟨_, es, laneStates s.cur s sp.lpc, hexec, hbytes, hslots, ?_, hlen, rfl, ?_, ?_, ?_, ?_, ?_, ?_, ?_⟩
    · rw [hsplit, hqueue]
    · intro i e he got op
      have hlane : ((laneStates s.cur s sp.lpc i).groupOf s.cur).laneAddr (sp.lpc + BitVec.ofNat 32 i) = wordAt i := by
        rw [(laneStates_fetchStep s.cur s sp.lpc i).groupOf]
        rfl
      obtain ⟨herr, hok⟩ := State.fetchLane_entry (laneStates s.cur s sp.lpc i) s.cur sp (sp.lpc + BitVec.ofNat 32 i) (s.curGroup.enq + i)
      rw [hlane, ← hentry i e he] at herr hok
      have hplace : e.lpc = sp.lpc + BitVec.ofNat 32 i ∧ e.order = s.curGroup.enq + i := by
        cases hgot : got.1 with
        | error f => rw [herr f hgot]; exact ⟨rfl, rfl⟩
        | ok bs => rw [hok bs hgot]; exact ⟨rfl, rfl⟩
      refine ⟨laneStates_succ s.cur s sp.lpc i, hplace.1, hplace.2, fun f hf => ?_, fun bs hbs => ?_⟩
      · rw [herr f hf]
        exact ⟨rfl, rfl⟩
      · obtain ⟨hA, hB, hB', hC⟩ := queueEntry_captures sp (BitVec.ofNat 96 (ofBytes bs)) (sp.lpc + BitVec.ofNat 32 i) none (s.curGroup.enq + i)
        simp only [op]
        rw [hok bs hbs]
        exact ⟨rfl, rfl, rfl, hA ▸ hcap _, fun hop => hB hop ▸ hcap _, hB', hC ▸ hcap _⟩
    · rw [hsplit, hs]
    · rw [hsplit, ha]
    · rw [hsplit, hflag]
    · rw [hgroup]
      rfl
    · intro hall
      rw [if_pos hall] at hsq
      unfold FallsFrom
      rw [hsplit, ← hsq]
      exact ⟨rfl, rfl, rfl, rfl⟩
    · intro hpart
      rw [if_neg hpart] at hsq
      rw [hsplit, ← hsq]
      exact ⟨rfl, rfl, rfl⟩
  · show execLrun cnt s = _
    simp [execLrun, hcnt, illegalOperand]

end Sys2Proof.Proofs
end

section
namespace Sys2Proof.Machine
open Sys2Proof.Safety

/-! ### Dividing a split (R12, R264, R286, R290) -/

/-- The offset of an address some bytes further on (R282). -/
theorem State.offset_add (s : State) (va : DWord) (k : Nat) : s.offset (va + BitVec.ofNat 64 k) = BitVec.ofNat 32 (Offset s va + k) := by
  apply BitVec.eq_of_toNat_eq
  simp only [State.offset, Offset, BitVec.toNat_setWidth, BitVec.toNat_sub, BitVec.toNat_add, BitVec.toNat_ofNat]
  omega

/-- The offset of an address some words further on (R17, R282). -/
theorem State.offset_add_words {n : Nat} (s : State) (va : DWord) (x : BitVec n) :
    s.offset (va + 4 * x.setWidth 64) = BitVec.ofNat 32 (Offset s va + 4 * x.toNat) := by
  have hword : (4 * x.setWidth 64 : DWord) = BitVec.ofNat 64 (4 * x.toNat) := by
    rw [← BitVec.ofNat_toNat, BitVec.ofNat_mul]
    rfl
  rw [hword, State.offset_add]

theorem Group.freeSplit_zero {g : Group} {k hi : Nat} (hk : k < hi) (hfree : (g.split k).status = .absent)
    (hused : ∀ j, j < k → (g.split j).status ≠ .absent) : g.freeSplit 0 hi = some k := by
  unfold Group.freeSplit
  simp only [Nat.zero_le, decide_true, List.filter_true]
  rw [List.find?_range_eq_some]
  refine ⟨by simp [hfree], List.mem_range.mpr hk, fun j hj => by simp [hused j hj]⟩

theorem Group.freeSplit_none {g : Group} {hi : Nat} (hused : ∀ j, j < hi → (g.split j).status ≠ .absent) : g.freeSplit 0 hi = none := by
  unfold Group.freeSplit
  rw [List.find?_eq_none]
  intro j hj
  simpa using hused j (by simpa using hj)

/-- BRV with legal fields, once the lane words before it have written their results (R11, R22, R286, R290). -/
theorem execBrv_written {s : State} {p : BitVec 3} {n : Bool} {tgt join : BitVec 11} (hlegal : ¬(tgt = 0 ∨ join = 0 ∨ 1024 ≤ join.toNat))
    (hw : s.lanesWritten = true) :
    execBrv p n tgt join s =
      if s.brvTaken p n = s.curSplit.mask then .next (s.jump (s.target tgt) true)
      else if s.brvTaken p n = 0 then .next s.advance
      else if 4 ≤ s.curSplit.joins.length then .next (s.scalarTrap .loopOverflow)
      else (if s.cur.split < 4 then s.curGroup.freeSplit 0 4 else none).elim
        (.next (s.serialRun (s.brvTaken p n) (s.target tgt) (s.offset (s.curSplit.spc + 4 * join.setWidth 64))))
        fun idx => .next (s.divide idx (s.brvTaken p n) (s.target tgt)
          ⟨.join, s.offset (s.curSplit.spc + 4 * join.setWidth 64), s.curGroup.brvNext, 0, 0, 0, 0, 0, []⟩) := by
  unfold execBrv
  rw [if_neg (by simpa [or_assoc] using hlegal), afterResults, if_pos hw]
  simp only [beq_iff_eq, ge_iff_le]
  generalize (if s.cur.split < 4 then s.curGroup.freeSplit 0 4 else none) = o
  cases o <;> rfl

theorem execBrv_illegal {s : State} {p : BitVec 3} {n : Bool} {tgt join : BitVec 11} (h : tgt = 0 ∨ join = 0 ∨ 1024 ≤ join.toNat) :
    execBrv p n tgt join s = .next (s.scalarTrap .illegalOperand) := by
  unfold execBrv
  rw [if_pos (by simpa [or_assoc] using h)]
  rfl

theorem execBrv_waits {s : State} {p : BitVec 3} {n : Bool} {tgt join : BitVec 11} (hlegal : ¬(tgt = 0 ∨ join = 0 ∨ 1024 ≤ join.toNat))
    (hw : ¬s.lanesWritten = true) : execBrv p n tgt join s = .next s := by
  unfold execBrv
  rw [if_neg (by simpa [or_assoc] using hlegal), afterResults, if_neg hw]
  rfl

/-- The group after its running split has divided: one half keeps the number, the other takes `idx` (R12, R286). -/
def State.dividedGroup (s : State) (idx : Nat) (low high : Split) : Group :=
  ((({ s.curGroup with brvNext := s.curGroup.brvNext + 1 } : Group).setSplit s.cur.split low).shareArr [high.uid] s.nextUid).setSplit idx
    { high with uid := s.nextUid, joins := high.joins.map JoinRec.copied }

/-- Forking the running split after its half that stays has been written. -/
theorem State.forkSplit_divided (s : State) (idx : Nat) (low high : Split) :
    ((s.modGroup s.cur fun g => { g with brvNext := g.brvNext + 1 }).setSplitOf s.cur low).forkSplit s.cur idx high
      = { (s.shareEnts high.uid s.nextUid).setGroupOf s.cur (s.dividedGroup idx low high) with nextUid := s.nextUid + 1 } := by
  simp only [State.forkSplit, State.modGroup, State.setSplitOf, State.setGroupOf, State.setGroup, State.groupOf, State.group,
    State.shareEnts, Tab.get_put_same, Tab.put_put]
  rfl

/-- The half of the running split that branches, and the half that falls through (R12, R286). -/
def State.takenHalf (s : State) (t : Mask) (target : DWord) (r : JoinRec) : Split :=
  { ({ s.curSplit with fetched := none, lastTry := none, ageS := s.tick } : Split).branch s.curGroup.sbase target true with
    mask := t, joins := r :: s.curSplit.joins }

def State.otherHalf (s : State) (t : Mask) (r : JoinRec) : Split :=
  { s.curSplit with
    fetched := none, lastTry := none, ageS := s.tick, mask := s.curSplit.mask &&& ~~~t, spc := s.curSplit.spc + 4,
    joins := r :: s.curSplit.joins }

/-- The half that takes another number leaves behind what the split holds for the trap that it is in. -/
def Split.forked (sp : Split) : Split := { sp with rest := 0, setQueue := [], setReplay := [], setHead := false, aside := default }

/-- The state after the running split has divided into a half that stays and one that leaves. -/
def State.dividedState (s : State) (idx : Nat) (low high : Split) : State :=
  { (s.shareEnts high.uid s.nextUid).setGroupOf s.cur (s.dividedGroup idx low high.forked) with nextUid := s.nextUid + 1 }

/-- The half with the lowest lane stays: the one that branches, where it has that lane, and the other one else (R12, R264). -/
theorem State.divide_eq (s : State) (idx : Nat) (t : Mask) (target : DWord) (r : JoinRec) :
    s.divide idx t target r =
      if t.getLsbD (Mask.lowest s.curSplit.mask) then s.dividedState idx (s.takenHalf t target r) (s.otherHalf t r)
      else s.dividedState idx (s.otherHalf t r) (s.takenHalf t target r) := by
  unfold State.divide Mask.has
  dsimp only
  by_cases hlow : t.getLsbD (Mask.lowest s.curSplit.mask) = true
  · rw [if_pos hlow, if_pos hlow]
    exact State.forkSplit_divided s idx (s.takenHalf t target r) (s.otherHalf t r).forked
  · rw [if_neg hlow, if_neg hlow]
    exact State.forkSplit_divided s idx (s.otherHalf t r) (s.takenHalf t target r).forked

/-- Dividing the running split changes no byte, no other slot and no other split (R12). -/
theorem State.dividedState_frame (s : State) {idx : Nat} (low high : Split) (hne : idx ≠ s.cur.split) :
    SameBytes s (s.dividedState idx low high) ∧ OtherSlots s (s.dividedState idx low high)
      ∧ (s.dividedState idx low high).curGroup.split s.cur.split = low
      ∧ (s.dividedState idx low high).curGroup.split idx
        = { high.forked with uid := s.nextUid, joins := high.joins.map JoinRec.copied }
      ∧ ∀ j, j ≠ s.cur.split → j ≠ idx → (s.dividedState idx low high).curGroup.split j = s.curGroup.split j := by
  have hgroup : (s.dividedState idx low high).curGroup = s.dividedGroup idx low high.forked :=
    State.groupOf_setGroupOf (s.shareEnts high.uid s.nextUid) s.cur _
  have hsplit : ∀ j, (s.dividedGroup idx low high.forked).split j
      = if idx = j then { high.forked with uid := s.nextUid, joins := high.joins.map JoinRec.copied }
        else if s.cur.split = j then low else s.curGroup.split j := by
    intro j
    exact (Group.split_setSplit _ _ _ _).trans (congrArg (ite _ _) (Group.split_setSplit _ _ _ _))
  rw [hgroup]
  refine ⟨fun _ => rfl, fun c k hck => ?_, ?_, ?_, fun j hc hi => ?_⟩
  · exact (State.group_setGroup (s.shareEnts high.uid s.nextUid) _ _ _ _ _).trans (if_neg (Ne.symm hck))
  · rw [hsplit, if_neg hne, if_pos rfl]
  · rw [hsplit, if_pos rfl]
  · rw [hsplit, if_neg (Ne.symm hi), if_neg (Ne.symm hc)]

/-- The running split that branches masked-serial (R290). -/
theorem State.serialRun_frame (s : State) (t : Mask) (target : DWord) (join : Word) :
    SameBytes s (s.serialRun t target join) ∧ OtherSlots s (s.serialRun t target join)
      ∧ ∃ r, (s.serialRun t target join).curSplit
          = { s.curSplit.branch s.curGroup.sbase target false with mask := t, joins := r :: s.curSplit.joins, ageS := s.tick }
        ∧ r.kind = .serial ∧ r.join = join ∧ r.other = s.curSplit.mask &&& ~~~t ∧ r.next = s.offset (s.curSplit.spc + 4)
        ∧ r.lpc = s.curSplit.lpc ∧ r.loops = s.curSplit.loops := by
  obtain ⟨g, hg⟩ : ∃ g, g = { s.curGroup with brvNext := s.curGroup.brvNext + 1 } := ⟨_, rfl⟩
  have hgroup : (s.setGroupOf s.cur g).curGroup = g := State.groupOf_setGroupOf s s.cur g
  have hsplit : (s.setGroupOf s.cur g).curSplit = s.curSplit := by
    show (s.setGroupOf s.cur g).curGroup.split s.cur.split = _
    rw [hgroup, hg]
    rfl
  have hsbase : (s.setGroupOf s.cur g).curGroup.sbase = s.curGroup.sbase := by rw [hgroup, hg]
  obtain ⟨r, hr⟩ : ∃ r : JoinRec, r = ⟨.serial, join, s.curGroup.brvNext, 0, s.curSplit.mask &&& ~~~t, s.curSplit.mask &&& ~~~t,
    s.offset (s.curSplit.spc + 4), s.curSplit.lpc, s.curSplit.loops⟩ := ⟨_, rfl⟩
  have hrun : s.serialRun t target join = (s.setGroupOf s.cur g).setSplitOf s.cur
      { s.curSplit.branch s.curGroup.sbase target false with mask := t, joins := r :: s.curSplit.joins, ageS := s.tick } := by
    have h := State.modCur_jump (s.setGroupOf s.cur g) (fun sp => { sp with mask := t, joins := r :: sp.joins }) target false
    rw [hsplit, hsbase] at h
    rw [hg, hr] at h ⊢
    exact h
  rw [hrun]
  obtain ⟨hbytes, -, hslots, -⟩ := State.setSplitOf_frame (s.setGroupOf s.cur g)
    { s.curSplit.branch s.curGroup.sbase target false with mask := t, joins := r :: s.curSplit.joins, ageS := s.tick }
  refine ⟨hbytes, fun c k hck => (hslots c k hck).trans ?_, r, State.splitOf_setSplitOf _ _ _, ?_⟩
  · exact (State.group_setGroup s _ _ _ _ _).trans (if_neg (Ne.symm hck))
  · rw [hr]
    exact ⟨rfl, rfl, rfl, rfl, rfl, rfl⟩

end Sys2Proof.Machine

namespace Sys2Proof.Proofs
open Sys2Proof.Machine Sys2Proof.Safety

/-- Settles O12: both halves are known by the fields that dividing writes, and the half with the lowest lane stays. -/
theorem branchVarying : Obligations.BranchVarying := by
  intro s p n tgt join sp g T target joinAt i joins done
  have hdone : s.lanesWritten = true ↔ done := State.lanesWritten_iff s
  have htarget : s.target tgt = target := State.target_eq s tgt
  have hjoin : s.offset (sp.spc + 4 * join.setWidth 64) = joinAt := State.offset_add_words s sp.spc join
  refine ⟨execBrv_illegal, fun htgt hj hshort => ?_⟩
  have hlegal : ¬(tgt = 0 ∨ join = 0 ∨ 1024 ≤ join.toNat) := by
    rintro (h | h | h)
    exacts [htgt h, hj h, absurd h (by omega)]
  have hexec := fun hd : done => execBrv_written (p := p) (n := n) hlegal (hdone.mpr hd)
  rw [htarget, hjoin] at hexec
  refine ⟨fun hd => execBrv_waits hlegal (mt hdone.mp hd), fun hd hall => ?_, fun hd hnall hnone => ?_, fun hd hnall hsome hfull => ?_,
    fun hd hnall hsome hroom hlow k hk hne hfree hused hlive => ?_, fun hd hnall hsome hroom hno => ?_⟩
  · obtain ⟨hframe, hgoes⟩ := State.jump_goes s target true
    exact ⟨_, (hexec hd).trans (if_pos hall), hframe, hgoes⟩
  · exact ⟨_, ((hexec hd).trans (if_neg hnall)).trans (if_pos hnone), State.advance_falls s⟩
  · exact (((hexec hd).trans (if_neg hnall)).trans (if_neg hsome)).trans (if_pos hfull)
  · have hdiv : exec i s = .next (s.divide k T target ⟨.join, joinAt, g.brvNext, 0, 0, 0, 0, 0, []⟩) := by
      refine (((hexec hd).trans (if_neg hnall)).trans (if_neg hsome)).trans ((if_neg (Nat.not_le.mpr hroom)).trans ?_)
      rw [if_pos hlow, Group.freeSplit_zero hk hfree hused]
      rfl
    rw [State.divide_eq] at hdiv
    generalize hr : (⟨.join, joinAt, g.brvNext, 0, 0, 0, 0, 0, []⟩ : JoinRec) = r at hdiv
    have hrec : r.kind = .join ∧ r.join = joinAt ∧ r.brvid = g.brvNext ∧ r.copied = r := by
      rw [← hr]
      exact ⟨rfl, rfl, rfl, rfl⟩
    obtain ⟨hkind, hrjoin, hbrvid, hcopied⟩ := hrec
    have hown : joins (s.cur.split != k) = sp.joins := if_pos (by simpa using Ne.symm hne)
    have hcopy : joins (k != k) = sp.joins.map JoinRec.copied := if_neg (by simp)
    have hunwound : (s.takenHalf T target r).loops = Unwound s target := State.unwind_eq_unwound s target
    have hleft : (r :: sp.joins).map JoinRec.copied = r :: sp.joins.map JoinRec.copied := by rw [List.map_cons, hcopied]
    by_cases hlead : T.getLsbD (Mask.lowest sp.mask) = true
    · rw [if_pos hlead] at hdiv
      obtain ⟨hbytes, hslots, hstay, hleave, hrest⟩ := State.dividedState_frame s (s.takenHalf T target r) (s.otherHalf T r) hne
      refine ⟨_, r, s.cur.split, k, hdiv, hbytes, hslots, hkind, hrjoin, hbrvid, ?_, hrest, ?_, ?_⟩
      · rw [if_pos hlead]
        exact ⟨rfl, rfl⟩
      · rw [hstay, hown]
        exact ⟨rfl, rfl, rfl, hunwound, rfl, rfl, rfl, rfl, rfl⟩
      · rw [hleave, hcopy]
        exact ⟨rfl, rfl, rfl, rfl, hleft, rfl, rfl, rfl, rfl⟩
    · rw [if_neg hlead] at hdiv
      obtain ⟨hbytes, hslots, hstay, hleave, hrest⟩ := State.dividedState_frame s (s.otherHalf T r) (s.takenHalf T target r) hne
      refine ⟨_, r, k, s.cur.split, hdiv, hbytes, hslots, hkind, hrjoin, hbrvid, ?_, fun j hjk hjc => hrest j hjc hjk, ?_, ?_⟩
      · rw [if_neg hlead]
        exact ⟨rfl, rfl⟩
      · rw [hleave, hcopy]
        exact ⟨rfl, rfl, rfl, hunwound, hleft, rfl, rfl, rfl, rfl⟩
      · rw [hstay, hown]
        exact ⟨rfl, rfl, rfl, rfl, rfl, rfl, rfl, rfl, rfl⟩
  · have hser : exec i s = .next (s.serialRun T target joinAt) := by
      refine (((hexec hd).trans (if_neg hnall)).trans (if_neg hsome)).trans ((if_neg (Nat.not_le.mpr hroom)).trans ?_)
      have hnofree : (if s.cur.split < 4 then s.curGroup.freeSplit 0 4 else none) = none := by
        split
        · exact Group.freeSplit_none (hno.resolve_left (by omega))
        · rfl
      rw [hnofree]
      rfl
    obtain ⟨hbytes, hslots, r, hsplit, hkind, hrjoin, hother, hnext, hlpc, hloops⟩ := State.serialRun_frame s T target joinAt
    refine ⟨_, r, hser, hbytes, hslots, ?_⟩
    rw [hsplit]
    refine ⟨rfl, rfl, rfl, hkind, hrjoin, hother, ?_, hlpc, hloops, rfl, rfl, rfl⟩
    rw [hnext]
    exact State.offset_add s sp.spc 4

end Sys2Proof.Proofs
end

section
namespace Sys2Proof.Machine
open Sys2Proof.Safety

/-! ### What a memory word comes to at issue (R29, R36, R243, R247) -/

theorem State.idleAcquire_iff (s : State) (op : Nat) (w : LaneWord) : s.idleAcquire op w = true ↔ IdleAcq s op w := by
  simp [State.idleAcquire, IdleAcq, ordOf, and_assoc]

section
variable {op : Nat} {w : LaneWord} {wins : List (Nat × Nat)} {go : State → Out} {s : State} (h : LaneReady op w wins s)
include h

/-- A ready memory word waits behind an incomplete fence of its split (R247). -/
theorem memIssue_fenced (hf : s.fenced s.curSplit.uid = true) : memIssue op w wins go s = .next s := by
  rw [memIssue, laneIssue_go h rfl, if_pos hf]
  rfl

/-- A ready memory word that is no idle acquire runs once no fence of its split is incomplete. -/
theorem memIssue_go (hf : s.fenced s.curSplit.uid = false) (hi : ¬IdleAcq s op w) : memIssue op w wins go s = go s := by
  rw [← State.idleAcquire_iff] at hi
  rw [memIssue, laneIssue_go h rfl, if_neg (by simp [hf]), if_pos (by simpa using hi)]

/-- An idle acquire waits for the acquires and fences before it (R269). -/
theorem memIssue_acquiring (hf : s.fenced s.curSplit.uid = false) (hi : IdleAcq s op w) (ha : s.acquiring s.curSplit.uid = true) :
    memIssue op w wins go s = .next s := by
  rw [← State.idleAcquire_iff] at hi
  rw [memIssue, laneIssue_go h rfl, if_neg (by simp [hf]), if_neg (by simp [hi]), if_pos ha]
  rfl

/-- An idle acquire drops its core's copies and runs (R118, R269). -/
theorem memIssue_acquired (hf : s.fenced s.curSplit.uid = false) (hi : IdleAcq s op w) (ha : s.acquiring s.curSplit.uid = false) :
    memIssue op w wins go s = go (s.acquireDrop s.cur.core (modBits w 6 4)) := by
  rw [← State.idleAcquire_iff] at hi
  rw [memIssue, laneIssue_go h rfl, if_neg (by simp [hf]), if_neg (by simp [hi]), if_neg (by simp [ha])]
  rfl

end

theorem State.acquireDrop_frame (s : State) (core scope : Nat) :
    s.acquireDrop core scope = { s with copies := (s.acquireDrop core scope).copies } := by
  unfold State.acquireDrop
  split <;> rfl

/-! ### A lane word leaves the queue (R7) -/

/-- A lane word leaves the queue of its split, in a state that has the groups of `s`: nothing else of any group changes. -/
theorem State.laneDone_issues {s u : State} (w : LaneWord) (hg : u.groups = s.groups) (hc : u.cur = s.cur) (ht : u.tick = s.tick)
    (hd : s.curSplit.drain = none) :
    IssueFrame s (u.laneDone w.sw) w ∧ u.laneDone w.sw = { u with groups := (u.laneDone w.sw).groups }
      ∧ (u.laneDone w.sw).curGroup = { s.curGroup with splits := (u.laneDone w.sw).curGroup.splits } := by
  have hgroup : ∀ c k, u.group c k = s.group c k := fun c k => by rw [State.group, hg, State.group]
  have hcur : u.curGroup = s.curGroup := by rw [State.curGroup, State.groupOf, hgroup, hc]; rfl
  have hsplit : u.curSplit = s.curSplit := by
    show u.curGroup.split u.cur.split = _
    rw [hcur, hc]
    rfl
  have hdone : u.laneDone w.sw = u.setSplitOf u.cur (s.curSplit.issued w.sw s.tick) := by
    rw [State.laneDone_eq (by rw [hsplit]; exact hd), hsplit, ht]
  obtain ⟨-, hgroups, hslots, hrest, halone⟩ := State.setSplitOf_frame u (s.curSplit.issued w.sw s.tick)
  rw [hcur] at hrest
  rw [hdone]
  refine ⟨⟨fun c k hne => ?_, fun n hn => ?_, State.curSplit_setSplitOf u _⟩, hgroups, hrest⟩
  · rw [hslots c k (by rwa [hc]), hgroup]
  · rw [halone n (by rwa [hc]), hcur]

/-- A lane word that only leaves the queue (R7). -/
theorem State.laneDone_frame {s : State} (w : LaneWord) (hd : s.curSplit.drain = none) : LaneFrame s (s.laneDone w.sw) w := by
  obtain ⟨⟨hslots, hsplits, hsplit⟩, hrest, -⟩ := State.laneDone_issues (u := s) w rfl rfl rfl hd
  exact ⟨fun k => by rw [hrest], hrest, hslots, hsplits, hsplit⟩

/-- A lane word whose entries enter and that then leaves the queue (R7, R263). -/
theorem State.enterAll_laneDone {s : State} (w : LaneWord) (es : List Entry) (hd : s.curSplit.drain = none) :
    IssueFrame s ((s.enterAll es).laneDone w.sw) w ∧ Enters s ((s.enterAll es).laneDone w.sw) (Stamped s es)
      ∧ ((s.enterAll es).laneDone w.sw).curGroup = { s.curGroup with splits := ((s.enterAll es).laneDone w.sw).curGroup.splits } := by
  rw [State.enterAll_eq]
  obtain ⟨hframe, hrest, hgroup⟩ := State.laneDone_issues (s := s)
    (u := { s with ents := s.ents ++ Stamped s es, nextId := s.nextId + es.length }) w rfl rfl rfl hd
  refine ⟨hframe, hrest.trans ?_, hgroup⟩
  rw [show (Stamped s es).length = es.length from List.length_mapIdx]

/-- What an idle acquire does once it may (R29, R118, R269). -/
theorem idles_of_laneDone {i : Instr} {s : State} {w : LaneWord} (hd : s.curSplit.drain = none)
    (hwait : s.acquiring s.curSplit.uid = true → exec i s = .next s)
    (hrun : s.acquiring s.curSplit.uid = false → exec i s = .next ((s.acquireDrop s.cur.core (modBits w 6 4)).laneDone w.sw)) :
    Idles i s s w := by
  refine ⟨hwait, fun ha => ?_⟩
  have hdrop := State.acquireDrop_frame s s.cur.core (modBits w 6 4)
  obtain ⟨hframe, hrest, hgroup⟩ := State.laneDone_issues (u := s.acquireDrop s.cur.core (modBits w 6 4)) w (by rw [hdrop]) (by rw [hdrop])
    (by rw [hdrop]) hd
  refine ⟨_, hrun ha, hrest, fun k => ?_, hframe, hgroup⟩
  rw [hrest, hdrop]

/-! ### The lines of LDL and STL (R244) -/

/-- Every entry of a memory word carries the word and the marks of its order (R242, R243, R264). -/
theorem State.laneEnt_wordEntry (s : State) (op : Nat) (w : LaneWord) (kind : EKind) (ps : List Piece) (n : Nat) (t : Bool) :
    WordEntry s op w ({ s.laneEnt op w kind ps with dstN := n, trk := t }.marked w) := by
  refine ⟨rfl, rfl, rfl, rfl, rfl, rfl, rfl, rfl, rfl, rfl, ?_, ?_, rfl⟩
  · show acqOf w _ = _
    unfold acqOf ordOf
    simp only [Bool.and_eq_true, beq_iff_eq, bne_iff_ne]
    rfl
  · show relOf w _ = _
    unfold relOf ordOf
    simp only [Bool.and_eq_true, beq_iff_eq, bne_iff_ne]
    rfl

/-- The first of the lines that fail. -/
theorem filterMap_range_first {α : Type} {f : Nat → Option α} {n j : Nat} {a : α} (hj : j < n) (hfail : f j = some a)
    (hgood : ∀ k, k < j → f k = none) : ∃ rest, (List.range n).filterMap f = a :: rest := by
  obtain ⟨m, rfl⟩ : ∃ m, n = j + (m + 1) := ⟨n - j - 1, by omega⟩
  have hfront : (List.range j).filterMap f = [] := by
    rw [List.filterMap_eq_nil_iff]
    exact fun k hk => hgood k (by simpa using hk)
  rw [List.range_add, List.filterMap_append, hfront, List.range_succ_eq_map]
  exact ⟨_, (List.nil_append _).trans (List.filterMap_cons_some hfail)⟩

/-- The bytes of a word, lowest first (R16). -/
theorem toBytes_word (v : Word) : toBytes v.toNat 4 = (List.range 4).map fun i => v.extractLsb' (8 * i) 8 := by
  have hbyte : ∀ i, BitVec.ofNat 8 (v.toNat / 2 ^ (8 * i)) = v.extractLsb' (8 * i) 8 := by
    intro i
    apply BitVec.eq_of_toNat_eq
    rw [BitVec.toNat_ofNat, BitVec.extractLsb'_toNat, Nat.shiftRight_eq_div_pow]
  simp only [toBytes, Nat.div_div_eq_div_mul]
  have hlow : BitVec.ofNat 8 v.toNat = v.extractLsb' (8 * 0) 8 := by simpa using hbyte 0
  exact List.cons_eq_cons.mpr ⟨hlow, List.cons_eq_cons.mpr ⟨hbyte 1, List.cons_eq_cons.mpr ⟨hbyte 2,
    List.cons_eq_cons.mpr ⟨hbyte 3, rfl⟩⟩⟩⟩

/-- The address of a line of a word with a scalar base (R236, R244). -/
theorem LaneEnv.lineAddr_scalar (e : LaneEnv) (w : LaneWord) (j : Nat) (hw : isScal w.a = true) :
    e.lineAddr w j = e.head.capA.w1 ++ e.head.capA.w0 + w.xa.signExtend 64 * 128 + BitVec.ofNat 64 (128 * j) := by
  have hvec : isVec w.a = false := by
    simp only [isScal, Bool.and_eq_true, decide_eq_true_eq] at hw
    simp only [isVec, decide_eq_false_iff_not]
    omega
  simp only [LaneEnv.lineAddr, LaneEnv.base, hvec, hw, Bool.false_eq_true, if_false, if_true]
  rfl

/-- What LDL and STL run once they may: no lane acts, or the good lines move (R29, R244). -/
def lineBody (w : LaneWord) (r : Reach) (mk : State → LaneEnv → Nat → Entry) (s : State) : Out :=
  if (s.laneEnv w).act == 0 then .next (s.laneDone w.sw)
  else .next (s.issueLines (s.lineChecks (s.laneEnv w) w r (w.b.toNat + 1)).1 w.sw
    ((s.lineChecks (s.laneEnv w) w r (w.b.toNat + 1)).2.map (mk s (s.laneEnv w))))

/-- The entry of a line of LDL, and of STL (R244, R262). -/
def ldlEnt (w : LaneWord) (s : State) (e : LaneEnv) (j : Nat) : Entry :=
  { s.laneEnt 0x5B w .load (e.linePieces w j fun _ => []) with dstN := 1, trk := trkOf w }.marked w

def stlEnt (w : LaneWord) (s : State) (e : LaneEnv) (j : Nat) : Entry :=
  (s.laneEnt 0x5C w (s.storeKind s.curGroup s.cur.core (e.lineAddr w j))
    (e.linePieces w j fun k => toBytes (e.g.vreg (w.d.toNat + j) k).toNat 4)).marked w

theorem execLdl_eq (w : LaneWord) : execLdl w = memIssue 0x5B w (vecWin w.d (w.b.toNat + 1)) (lineBody w .line (ldlEnt w)) := rfl
theorem execStl_eq (w : LaneWord) : execStl w = memIssue 0x5C w (vecWin w.d (w.b.toNat + 1)) (lineBody w .lineStore (stlEnt w)) := rfl

/-- The fault of the requester's checks of a line (R239, R244). -/
def State.lineFault (s : State) (w : LaneWord) (r : Reach) (j : Nat) : Option (FaultKind × Cause) :=
  s.requesterCheck s.curGroup s.cur.core r ((s.laneEnv w).lineAddr w j) 128 128

/-- The entries of the lines that pass. -/
def lineEnts (w : LaneWord) (r : Reach) (mk : State → LaneEnv → Nat → Entry) (s : State) : List Entry :=
  ((List.range (w.b.toNat + 1)).filter fun j => (s.lineFault w r j).isNone).map (mk s (s.laneEnv w))

section
variable {w : LaneWord} {r : Reach} {mk : State → LaneEnv → Nat → Entry} {s : State}

theorem lineBody_noLane (h : s.acting w = 0) : lineBody w r mk s = .next (s.laneDone w.sw) :=
  if_pos (beq_iff_eq.mpr h)

theorem lineBody_lines (h : s.acting w ≠ 0) :
    lineBody w r mk s = .next (s.issueLines ((List.range (w.b.toNat + 1)).filterMap fun j =>
      (s.lineFault w r j).map fun f => ⟨f.1, f.2, (s.laneEnv w).lineAddr w j⟩) w.sw (lineEnts w r mk s)) := by
  have hact : ¬((s.laneEnv w).act == 0) = true := mt beq_iff_eq.mp h
  rw [lineBody, if_neg hact]
  unfold State.lineChecks lineEnts
  simp only [Option.isNone_map]
  rfl

/-- Every line passes: the entries enter, and the word leaves the queue. -/
theorem lineBody_good (h : s.acting w ≠ 0) (hgood : ∀ j, j < w.b.toNat + 1 → s.lineFault w r j = none) :
    lineBody w r mk s = .next ((s.enterAll (lineEnts w r mk s)).laneDone w.sw) := by
  have hfails : ((List.range (w.b.toNat + 1)).filterMap fun j =>
      (s.lineFault w r j).map fun f => (⟨f.1, f.2, (s.laneEnv w).lineAddr w j⟩ : Fail)) = [] := by
    rw [List.filterMap_eq_nil_iff]
    intro j hj
    rw [hgood j (by simpa using hj)]
    rfl
  rw [lineBody_lines h, hfails]
  rfl

/-- A line fails: the entries of the others enter, and the split faults with the first that fails (R37, R244). -/
theorem lineBody_bad (h : s.acting w ≠ 0) (hd : s.curSplit.drain = none) {j : Nat} {f : FaultKind × Cause} (hj : j < w.b.toNat + 1)
    (hf : s.lineFault w r j = some f) (hfirst : ∀ k, k < j → s.lineFault w r k = none) :
    lineBody w r mk s = .next (((s.enterAll (lineEnts w r mk s)).modCur fun sp => { sp with swPark := w.sw }).laneFault
      ((Mask.list s.curSplit.mask).map fun l => (l, ⟨f.1, f.2, (s.laneEnv w).lineAddr w j⟩)) w.sw id) := by
  obtain ⟨rest, hrest⟩ := filterMap_range_first (f := fun j =>
    (s.lineFault w r j).map fun f => (⟨f.1, f.2, (s.laneEnv w).lineAddr w j⟩ : Fail)) hj (by rw [hf]; rfl)
    fun k hk => by rw [hfirst k hk]; rfl
  rw [lineBody_lines h, hrest, State.issueLines, if_neg (by simp [hd])]

end

/-- LDL and STL have a scalar base (R244). -/
theorem laneLegal_line {op : Nat} {w : LaneWord} (hop : op = 0x5B ∨ op = 0x5C) (h : laneLegal op w = true) : isScal w.a = true := by
  cases hs : isScal w.a with
  | true => rfl
  | false => rcases hop with rfl | rfl <;> simp [laneLegal, memLegal, hs] at h

/-- The marker of FENCE (R246, R268). -/
def fenceEnt (w : LaneWord) (s : State) : Entry :=
  let scope := if w.fn.toNat == 0 then some (scopeOf w) else none
  { s.laneEnt 0x60 w .fence [] with
    level := ordOf w, acq := if ordOf w == 2 then none else scope, rel := if ordOf w == 1 then none else scope, dst := 0, fn := w.fn.toNat }

theorem fenceScope_eq (w : LaneWord) : (if w.fn.toNat == 0 then some (scopeOf w) else none) = if w.fn = 0 then some (modBits w 6 4) else none := by
  by_cases h : w.fn = 0
  · simp [h, scopeOf]
  · rw [if_neg h, if_neg]
    simpa [BitVec.toNat_eq] using h

/-- FENCE acquires unless it is a release, and releases unless it is an acquire (R246). -/
theorem fenceEnt_acq (w : LaneWord) (s : State) :
    (fenceEnt w s).acq = if modBits w 8 7 = 2 then none else if w.fn = 0 then some (modBits w 6 4) else none := by
  rw [← fenceScope_eq]
  simp only [fenceEnt, ordOf, beq_iff_eq]

theorem fenceEnt_rel (w : LaneWord) (s : State) :
    (fenceEnt w s).rel = if modBits w 8 7 = 1 then none else if w.fn = 0 then some (modBits w 6 4) else none := by
  rw [← fenceScope_eq]
  simp only [fenceEnt, ordOf, beq_iff_eq]

theorem execFence_eq (w : LaneWord) (s : State) :
    execFence w s = memIssue 0x60 w [] (fun s => .next ((s.enterAll [fenceEnt w s]).laneDone w.sw)) s := rfl

end Sys2Proof.Machine

namespace Sys2Proof.Proofs
open Sys2Proof.Machine Sys2Proof.Safety

/-- Settles O35: LDL and STL differ in the entry of a line alone, and FENCE enters one marker. -/
theorem lineWords : Obligations.LineWords := by
  intro s w n e X line check parts word moves
  have hlines : ∀ (i : Instr) (op : Nat) (r : Reach) (data : Nat → Nat → List Byte) (own : Nat → Entry → Prop)
      (mk : State → LaneEnv → Nat → Entry), op = 0x5B ∨ op = 0x5C →
      exec i s = memIssue op w (vecWin w.d n) (lineBody w r mk) s →
      (∀ j, e.lineAddr w j = line j → WordEntry s op w (mk s e j) ∧ (mk s e j).parts = parts (data j) j ∧ (mk s e j).esc = none
        ∧ own j (mk s e j)) →
      moves i op r data own := by
    intro i op r data own mk hop hexec hmk hready
    have hscal := laneLegal_line hop hready.legal
    have hline : ∀ j, e.lineAddr w j = line j := fun j => LaneEnv.lineAddr_scalar e w j hscal
    have hcheck : ∀ j, s.lineFault w r j = check r j := fun j => by rw [State.lineFault, hline]
    have hents : lineEnts w r mk s = ((List.range n).filter fun j => (check r j).isNone).map (mk s e) := by
      simp only [lineEnts, hcheck]
      rfl
    refine ⟨fun hf => ?_, fun hf => ⟨fun hidle => ?_, fun hact hni => ?_, fun hact => ?_⟩⟩
    · exact hexec.trans (memIssue_fenced hready hf)
    · refine idles_of_laneDone hready.drain (fun ha => hexec.trans (memIssue_acquiring hready hf hidle ha))
        fun ha => (hexec.trans (memIssue_acquired hready hf hidle ha)).trans (lineBody_noLane ?_)
      rw [State.acquireDrop_frame]
      exact hidle.2.2
    · obtain ⟨-, -, hgroup⟩ := State.laneDone_issues (u := s) w rfl rfl rfl hready.drain
      exact ⟨_, (hexec.trans (memIssue_go hready hf hni)).trans (lineBody_noLane hact), State.laneDone_frame w hready.drain, hgroup⟩
    · have hni : ¬IdleAcq s op w := fun ⟨_, _, h0⟩ => hact h0
      have hgo := hexec.trans (memIssue_go hready hf hni)
      refine ⟨lineEnts w r mk s, ?_, ?_, fun hgood => ?_, fun j f hj hfail hfirst => ?_⟩
      · rw [hents, List.length_map]
      · intro m j x hm hx
        rw [hents, List.getElem?_map, hm] at hx
        obtain rfl : mk s e j = x := Option.some.inj hx
        exact hmk j (hline j)
      · obtain ⟨hframe, henter, hgroup⟩ := State.enterAll_laneDone w (lineEnts w r mk s) hready.drain
        exact ⟨_, hgo.trans (lineBody_good hact fun j hj => (hcheck j).trans (hgood j hj)), hframe, henter, hgroup⟩
      · have hbad := lineBody_bad (mk := mk) hact hready.drain hj ((hcheck j).trans hfail) fun k hk => (hcheck k).trans (hfirst k hk)
        rw [hline] at hbad
        exact hgo.trans hbad
  have hparts : ∀ (data : Nat → List Byte) j, e.lineAddr w j = line j →
      (e.linePieces w j data).map (fun p => (⟨p.lane, p.addr, p.n, p.data⟩ : Part)) = parts data j := by
    intro data j hline
    rw [LaneEnv.linePieces, List.map_map, hline]
    rfl
  have htrk : trkOf w = w.mod.getLsbD 3 := by
    rw [BitVec.getLsbD, Nat.testBit_eq_decide_div_mod_eq]
    rfl
  refine ⟨hlines (.ldl w) 0x5B .line _ _ (ldlEnt w) (.inl rfl) (congrFun (execLdl_eq w) s) fun j hline => ?_,
    hlines (.stl w) 0x5C .lineStore _ _ (stlEnt w) (.inr rfl) (congrFun (execStl_eq w) s) fun j hline => ?_, fun hready => ?_⟩
  · exact ⟨State.laneEnt_wordEntry s 0x5B w .load _ 1 (trkOf w), hparts (fun _ => []) j hline, rfl, rfl, rfl, rfl, htrk⟩
  · have hdata : parts (fun k => toBytes (e.g.vreg (w.d.toNat + j) k).toNat 4) j = parts (fun k => word (e.g.vreg (w.d.toNat + j) k)) j := by
      simp only [toBytes_word]
      rfl
    refine ⟨State.laneEnt_wordEntry s 0x5C w _ _ 0 false, (hparts _ j hline).trans hdata, rfl, rfl, ?_⟩
    rw [← hline]
    rfl
  · refine ⟨fun hf => (execFence_eq w s).trans (memIssue_fenced hready hf), fun hf => ?_⟩
    have hni : ¬IdleAcq s 0x60 w := fun ⟨hop, _⟩ => absurd hop (by decide)
    obtain ⟨hframe, henter, hgroup⟩ := State.enterAll_laneDone w [fenceEnt w s] hready.drain
    exact ⟨_, _, (execFence_eq w s).trans (memIssue_go hready hf hni), hframe, henter, hgroup, rfl, rfl, rfl, rfl, rfl, rfl, fenceEnt_acq w s, fenceEnt_rel w s⟩

end Sys2Proof.Proofs
end

section
namespace Sys2Proof.Machine
open Sys2Proof.Safety

/-! ### What a step comes to (R16, R34, R306, R307) -/

/-- The state with its turn taken off the agenda. -/
def State.afterTurn (s : State) (rest : List Turn) : State := { s with agenda := rest, tick := s.tick + 1 }

/-- The state in which a stream's turn is taken. -/
def State.atStream (s : State) (ag : Agent) (lane : Bool) : State := { s with cur := ag, curLane := lane }

def streamTurn (ag : Agent) (lane : Bool) : Turn := if lane then .lane ag else .scalar ag

theorem State.pickStream_absent {s : State} {ag : Agent} (lane : Bool) (h : s.agentHere ag = false) :
    s.pickStream false ag lane = .stop .absentAgent := by
  have hat : (s.atStream ag lane).agentHere ag = false := h
  show (if !(s.atStream ag lane).agentHere ag then _ else _) = _
  rw [hat]
  rfl

theorem State.pickStream_here {s : State} {ag : Agent} (lane free : Bool) (h : s.agentHere ag = true) :
    s.pickStream free ag lane = if lane then (s.atStream ag lane).pickLane ag else (s.atStream ag lane).pickScalar ag := by
  have hat : (s.atStream ag lane).agentHere ag = true := h
  show (if !(s.atStream ag lane).agentHere ag then _ else _) = _
  rw [hat]
  rfl

/-- The turn of a stream that the agenda names: idle while its split is outranked, and else what the stream comes to. -/
theorem State.pick_stream {s : State} {ag : Agent} {lane : Bool} {rest : List Turn} (h : s.agenda = streamTurn ag lane :: rest) :
    s.pick = if (s.afterTurn rest).agentHere ag && (s.afterTurn rest).outranked ag lane then .done (s.afterTurn rest)
      else (s.afterTurn rest).pickStream false ag lane := by
  have hturn : s.turn = (streamTurn ag lane, false, s.afterTurn rest) := by
    unfold State.turn
    rw [h]
    rfl
  unfold State.pick
  rw [hturn]
  cases lane <;> rfl

/-- The turn of an event that has no encoding runs the event. -/
theorem State.pick_event {s : State} {i : Instr} {rest : List Turn} (h : s.agenda = .event i :: rest) (hi : isEvent i = true) :
    s.pick = .run i (s.afterTurn rest) := by
  have hturn : s.turn = (.event i, false, s.afterTurn rest) := by
    unfold State.turn
    rw [h]
    rfl
  have hrun : (s.afterTurn rest).pickTurn false (.event i) = .run i (s.afterTurn rest) := by
    show (if isEvent i = true then _ else _) = _
    rw [if_pos hi]
  unfold State.pick
  rw [hturn]
  exact hrun

theorem step_of_pick_done {s t : State} (h : s.pick = .done t) : step s = .next t.settle := by
  rw [step, h]

theorem step_of_pick_took {s t : State} (h : s.pick = .took t) : step s = .next t.settle := by
  rw [step, h]

theorem step_of_pick_stop {s : State} {r : Fault} (h : s.pick = .stop r) : step s = .fault r := by
  rw [step, h]

theorem step_of_pick_run {s t x : State} {i : Instr} (h : s.pick = .run i t) (hx : exec i t = .next x) : step s = .next x.settle := by
  rw [step, h]
  dsimp only
  rw [hx]

section
variable {s : State} {ag : Agent} {lane : Bool} {rest : List Turn} (h : s.agenda = streamTurn ag lane :: rest)
include h

/-- An agenda that names no split stops the machine (log 1). -/
theorem step_absent (ha : (s.afterTurn rest).agentHere ag = false) : step s = .fault .absentAgent := by
  refine step_of_pick_stop ((State.pick_stream h).trans ?_)
  rw [ha, Bool.false_and, if_neg (by decide)]
  exact State.pickStream_absent lane ha

/-- The turn of an outranked split is idle (R307). -/
theorem step_outranked (ha : (s.afterTurn rest).agentHere ag = true) (ho : (s.afterTurn rest).outranked ag lane = true) :
    step s = .next (s.afterTurn rest).settle := by
  refine step_of_pick_done ((State.pick_stream h).trans ?_)
  rw [ha, ho]
  rfl

/-- The turn of a split that goes first among its pipeline's is what its stream comes to. -/
theorem State.pick_turn (ha : (s.afterTurn rest).agentHere ag = true) (ho : (s.afterTurn rest).outranked ag lane = false) :
    s.pick = if lane then ((s.afterTurn rest).atStream ag lane).pickLane ag else ((s.afterTurn rest).atStream ag lane).pickScalar ag := by
  refine (State.pick_stream h).trans ?_
  rw [ho, Bool.and_false, if_neg (by decide)]
  exact State.pickStream_here lane false ha

end

/-! ### The scalar stream (R16, R34, R38) -/

theorem leNat_eq_ofBytes (bs : List Byte) : leNat bs = ofBytes bs := by
  induction bs with
  | nil => rfl
  | cons b bs ih => rw [leNat, ofBytes, ih]

/-- A word runs as it decodes, unless it waits for the flag (R19-R21, R276). -/
theorem State.runScalar_instr {s : State} {ag : Agent} {w : Word} {i : Instr} (hw : decodeScalar w = .instr i) (hg : s.gated ag i = false) :
    s.runScalar ag w = .run i s := by
  rw [State.runScalar, hw]
  dsimp only
  rw [hg]
  rfl

/-- A word whose must-be-zero field is not zero takes ILLEGAL_OPERAND (R21). -/
theorem State.runScalar_badField {s : State} {ag : Agent} {w : Word} (hw : decodeScalar w = .badField) :
    s.runScalar ag w = .took (s.scalarTrap .illegalOperand) := by
  rw [State.runScalar, hw]

section
variable {s : State} {ag : Agent}

theorem State.pickScalar_idle (h : s.scalarReady ag = false) : s.pickScalar ag = .done s := by
  rw [State.pickScalar, h]
  rfl

/-- A word that has been fetched is kept until it completes (log 38). -/
theorem State.pickScalar_kept {w : Word} (h : s.scalarReady ag = true) (hw : (s.splitOf ag).fetched = some w) :
    s.pickScalar ag = s.runScalar ag w := by
  rw [State.pickScalar, h, hw]
  rfl

variable (h : s.scalarReady ag = true) (hn : (s.splitOf ag).fetched = none)
include h hn

theorem State.pickScalar_unready (hf : s.fetchReady ag (s.splitOf ag).spc 4 = false) : s.pickScalar ag = .done s := by
  rw [State.pickScalar, h, hn]
  dsimp only
  rw [hf]
  rfl

theorem State.pickScalar_fails {f : Fail} {v : State} (hf : s.fetchReady ag (s.splitOf ag).spc 4 = true)
    (hb : s.fetchBytes ag (s.splitOf ag).spc 4 = (.error f, v)) : s.pickScalar ag = .took (v.scalarFault f) := by
  rw [State.pickScalar, h, hn]
  dsimp only
  rw [hf, hb]
  rfl

theorem State.pickScalar_fetches {bs : List Byte} {v : State} (hf : s.fetchReady ag (s.splitOf ag).spc 4 = true)
    (hb : s.fetchBytes ag (s.splitOf ag).spc 4 = (.ok bs, v)) :
    s.pickScalar ag = (v.modSplit ag fun sp => { sp with fetched := some (BitVec.ofNat 32 (ofBytes bs)) }).runScalar ag
      (BitVec.ofNat 32 (ofBytes bs)) := by
  rw [State.pickScalar, h, hn]
  dsimp only
  rw [hf, hb]
  dsimp only
  rw [leNat_eq_ofBytes]
  rfl

end

/-! ### The lane stream (R7, R10, R34) -/

section
variable {s : State} {ag : Agent}

theorem State.runLane_run {i : Instr} (hi : decodeLane (s.headOf ag).word = i) (hg : s.gated ag i = false) :
    s.runLane ag = .run i (s.bindRacers ag) := by
  rw [State.runLane, hi, hg]
  rfl

theorem State.pickLane_idle (h : s.laneReady ag = false) : s.pickLane ag = .done s := by
  rw [State.pickLane, h]
  rfl

theorem State.pickLane_head (h : s.laneReady ag = true) (hf : (s.splitOf ag).headFault = false ∨ (s.headOf ag).fail = none) :
    s.pickLane ag = s.runLane ag := by
  have hretry : ((s.splitOf ag).headFault && (s.headOf ag).fail.isSome) = false := by
    rcases hf with hf | hf <;> simp [hf]
  rw [State.pickLane, h, hretry]
  rfl

/-- A word whose fetch failed is fetched again at its retry (R34). -/
theorem State.pickLane_retry (h : s.laneReady ag = true) (hf : (s.splitOf ag).headFault = true) (hw : (s.headOf ag).fail ≠ none) :
    s.pickLane ag = (s.refetch ag).elim (.done s) fun v => v.runLane ag := by
  have hretry : ((s.splitOf ag).headFault && (s.headOf ag).fail.isSome) = true := by
    rw [hf, Option.isSome_iff_ne_none.mpr hw]
    rfl
  rw [State.pickLane, h, hretry]
  cases s.refetch ag <;> rfl

end

/-! ### Which split goes first (R306, R307, R356) -/

theorem State.slotClass_fill (s : State) (g : Group) : s.slotClass g = 2 ↔ g.cls = 2 ∧ s.power.promote = false := by
  unfold State.slotClass
  by_cases hc : g.cls = 2 <;> cases s.power.promote <;> simp [hc]

theorem State.slotClass_eq (s : State) (g : Group) : s.slotClass g = if g.cls = 2 ∧ s.power.promote = true then 1 else g.cls := by
  unfold State.slotClass
  simp only [Bool.and_eq_true, beq_iff_eq]

/-- R307 prefers by the FILL class, then by the priority, then by the class (log 27). -/
theorem State.prefers_iff (s : State) (a b : Group) : s.prefers a b = true ↔
    ¬s.slotClass a = 2 ∧ s.slotClass b = 2 ∨ (s.slotClass a = 2 ↔ s.slotClass b = 2)
      ∧ ((s.ctx b.ctx).pri.toNat < (s.ctx a.ctx).pri.toNat
        ∨ (s.ctx a.ctx).pri.toNat = (s.ctx b.ctx).pri.toNat ∧ s.slotClass a < s.slotClass b) := by
  unfold State.prefers
  dsimp only
  by_cases ha : s.slotClass a = 2 <;> by_cases hb : s.slotClass b = 2
  · simp [ha, hb]
  · simp [ha, hb]
  · simp [ha, hb]
  · simp [ha, hb]

theorem State.mem_rivals (s : State) (ag r : Agent) : r ∈ s.rivals ag ↔
    r.core = ag.core ∧ r.slot % 4 = ag.slot % 4 ∧ r ≠ ag ∧ r.split < 8
      ∧ ∃ g, (r.slot, g) ∈ s.groupsOn ag.core ∧ (g.split r.split).status ≠ .absent := by
  unfold State.rivals
  simp only [List.mem_flatMap, List.mem_filter, List.mem_map, Group.live8, below, List.mem_range, beq_iff_eq, bne_iff_ne, Prod.exists]
  constructor
  · rintro ⟨k, g, ⟨hg, hk⟩, ⟨n, ⟨hn, hlive⟩, rfl⟩, hne⟩
    exact ⟨rfl, hk, hne, hn, g, hg, hlive⟩
  · rintro ⟨hcore, hslot, hne, hn, g, hg, hlive⟩
    refine ⟨r.slot, g, ⟨hg, hslot⟩, ⟨r.split, ⟨hn, hlive⟩, ?_⟩, hne⟩
    rw [← hcore]

theorem State.outranked_iff (s : State) (ag : Agent) (lane : Bool) : s.outranked ag lane = true ↔
    ∃ r, r ∈ s.rivals ag ∧ s.prefers (s.groupOf r) (s.groupOf ag) = true ∧ s.wouldIssue r lane = true := by
  unfold State.outranked
  simp only [List.any_eq_true, Bool.and_eq_true]

/-- A word would issue when it takes an exception, or when it does not wait (R306). -/
theorem State.wouldIssue_iff (s : State) (ag : Agent) (lane : Bool) : s.wouldIssue ag lane = true ↔
    (∃ t, s.pickStream true ag lane = .took t) ∨ ∃ i t, s.pickStream true ag lane = .run i t ∧ exec i t ≠ .next t := by
  unfold State.wouldIssue
  cases hp : s.pickStream true ag lane with
  | took t => simp
  | done t => simp
  | stop r => simp
  | run i t =>
    dsimp only
    cases hx : exec i t <;> simp [hx]

/-! ### What a fetch brings (R8, R16, R34, R38) -/

/-- The entry of a lane word, by the word that it carries. -/
theorem State.fetchLane_queueEntry (s : State) (ag : Agent) (sp : Split) (lpc : Word) (order : Nat) :
    ∃ bits fail, (s.fetchLane ag sp lpc order).1 = queueEntry sp bits lpc fail order := by
  obtain ⟨herr, hok⟩ := State.fetchLane_entry s ag sp lpc order
  cases hgot : (s.fetchBytes ag ((s.groupOf ag).laneAddr lpc) 12).1 with
  | error f => exact ⟨_, _, herr f hgot⟩
  | ok bs => exact ⟨_, _, hok bs hgot⟩

/-- A word that is fetched again takes its captures from the registers that were kept for it (R8; log 38). -/
theorem State.refetch_head {s v : State} {ag : Agent} (h : s.refetch ag = some v) {regs : Tab Word} {a : Tab Affine}
    (hk : (s.headOf ag).kept = some (regs, a)) :
    ∃ bits fail, v.headOf ag = queueEntry { s.splitOf ag with s := regs, a := a } bits (s.headOf ag).lpc fail (s.headOf ag).order := by
  obtain ⟨bits, fail, he⟩ := State.fetchLane_queueEntry s ag { s.splitOf ag with s := regs, a := a } (s.headOf ag).lpc (s.headOf ag).order
  unfold State.refetch at h
  dsimp only at h
  split at h
  · cases h
  · rw [hk] at h
    generalize hr : s.fetchLane ag _ (s.headOf ag).lpc (s.headOf ag).order = r at h
    obtain ⟨e, t⟩ := r
    obtain rfl := Option.some.inj h
    refine ⟨bits, fail, ?_⟩
    rw [State.headOf, State.modSplit, State.splitOf_setSplitOf]
    exact (congrArg Prod.fst hr).symm.trans he

/-- A line that is reachable, unpoisoned, and unwritten or of the tag, reads as memory holds it (R64, R361). -/
theorem State.lineRead_clean {s : State} {key : Nat} (n : Nat) {t : LineTag} (hu : s.unreachable key = false) (hx : s.expanderBad key = false)
    (hp : (s.line (key / 128)).poison = false) (ht : (s.line (key / 128)).written = false ∨ (s.line (key / 128)).tag ∈ [none, some t]) :
    s.lineRead key n t = (some (s.mem.readN key n), s) := by
  have hopen : s.openLine key t = (true, s) := by
    unfold State.openLine
    simp only [hu, hp, hx, Bool.false_eq_true, if_false]
    cases hw : (s.line (key / 128)).written with
    | false => rfl
    | true =>
      have hmatch : (s.line (key / 128)).matches t = true := by
        have htag := ht.resolve_left (by simp [hw])
        simp only [List.mem_cons, List.not_mem_nil, or_false] at htag
        rcases htag with htag | htag <;> simp [LineMeta.matches, htag]
      simp [hmatch]
  rw [State.lineRead, hopen]

/-- A home read of such a line, where the page is not in transit (R80). -/
theorem State.homeRead_clean {s : State} {ctx key : Nat} {va : DWord} (n : Nat) (hs : s.transitOf ctx va = none)
    (hu : s.unreachable key = false) (hx : s.expanderBad key = false) (hp : (s.line (key / 128)).poison = false)
    (ht : (s.line (key / 128)).written = false ∨ (s.line (key / 128)).tag ∈ [none, some (s.tagFor (ownerOf va) ctx va)]) :
    (s.homeRead ctx va key n).1 = some (s.mem.readN key n) := by
  have hserve : s.serve ctx va key = (key, none) := by rw [State.serve, hs]
  rw [State.homeRead, State.homeReadBy, hserve, State.lineRead_clean n hu hx hp ht]

/-- A fetch within a line of which the core has no clean copy reads the bytes of memory (R16, R38). -/
theorem State.fetchBytes_memory {s : State} {ag : Agent} {va : DWord} {n : Nat} (hcheck : s.fetchCheck ag va = none)
    (hline : va.toNat % 128 + n ≤ 128) (hcopy : s.fetchHit ag va = none) {key : Nat} {l : Leaf} {u : State}
    (howner : (s.coreAsk ag.core (s.groupOf ag).ctx (some (s.groupOf ag).launch) .fetch va).ownerCheck (s.groupOf ag).ctx
      (some (s.groupOf ag).launch) .fetch va = (.ok (key, l), u))
    (hread : (u.homeRead (s.groupOf ag).ctx (noPath va) key n).1 = some (u.mem.readN key n)) :
    (s.fetchBytes ag va n).1 = .ok (s.mem.readN key n) := by
  have hmem : u.mem = s.mem := by
    have h := ((State.coreAsk_fetchStep s ag.core (s.groupOf ag).ctx (some (s.groupOf ag).launch) .fetch va).trans
      (State.ownerCheck_readStep _ (s.groupOf ag).ctx (some (s.groupOf ag).launch) .fetch va).fetchStep).mem
    rwa [howner] at h
  have hmin : min n (128 - va.toNat % 128) = n := by omega
  have hfetch : (s.fetchLine ag va n).1 = .ok (s.mem.readN key n) := by
    rw [State.fetchLine, hcheck]
    dsimp only
    rw [hcopy]
    dsimp only
    rw [howner]
    dsimp only
    generalize u.homeRead _ _ _ _ = r at hread ⊢
    obtain ⟨o, v⟩ := r
    obtain rfl : o = some _ := hread
    rw [← hmem]
  unfold State.fetchBytes
  dsimp only
  rw [hmin]
  generalize s.fetchLine ag va n = r at hfetch ⊢
  obtain ⟨o, v⟩ := r
  obtain rfl : o = .ok _ := hfetch
  simp

end Sys2Proof.Machine

namespace Sys2Proof.Proofs
open Sys2Proof.Machine Sys2Proof.Safety

/-- Settles O58: what the turn that the agenda names comes to, by the stream or the event that it names. -/
theorem stepRuns : Obligations.StepRuns := by
  refine ⟨?scalar, ?lane, ?order, ?captures, ?event, ?bytes⟩
  case scalar =>
    intro s ag rest h u t va runs
    refine ⟨step_absent (lane := false) h, step_outranked (lane := false) h, fun ha ho => ?_⟩
    have hpick : s.pick = t.pickScalar ag := State.pick_turn (lane := false) h ha ho
    have hruns : ∀ v w, s.pick = v.runScalar ag w → runs v w := fun v w hv =>
      ⟨fun i x hi hg hx => step_of_pick_run (hv.trans (State.runScalar_instr hi hg)) hx,
        fun hb => step_of_pick_took (hv.trans (State.runScalar_badField hb))⟩
    refine ⟨fun hr => step_of_pick_done (hpick.trans (State.pickScalar_idle hr)),
      fun hr w hw => hruns t w (hpick.trans (State.pickScalar_kept hr hw)), fun hr hn => ⟨fun hf => ?_, fun hf => ⟨fun f v hb => ?_, ?_⟩⟩⟩
    · exact step_of_pick_done (hpick.trans (State.pickScalar_unready hr hn hf))
    · exact step_of_pick_took (hpick.trans (State.pickScalar_fails hr hn hf hb))
    · intro bs v hb _ w
      exact hruns _ w (hpick.trans (State.pickScalar_fetches hr hn hf hb))
  case lane =>
    intro s ag rest h u t
    refine ⟨step_absent (lane := true) h, step_outranked (lane := true) h, fun ha ho => ?_⟩
    have hpick : s.pick = t.pickLane ag := State.pick_turn (lane := true) h ha ho
    refine ⟨fun hr => step_of_pick_done (hpick.trans (State.pickLane_idle hr)), fun hr hf i x hi hg hx => ?_, fun hr hf hw => ⟨fun hn => ?_, ?_⟩⟩
    · exact step_of_pick_run (hpick.trans ((State.pickLane_head hr hf).trans (State.runLane_run hi hg))) hx
    · refine step_of_pick_done (hpick.trans ((State.pickLane_retry hr hf hw).trans ?_))
      rw [hn]
      rfl
    · intro v hv i x hi hg hx
      refine step_of_pick_run (hpick.trans ((State.pickLane_retry hr hf hw).trans ?_)) hx
      rw [hv]
      exact State.runLane_run hi hg
  case order =>
    intro s ag lane fill class_ pri
    refine ⟨fun a b => ?_, ?_, State.wouldIssue_iff s ag lane⟩
    · rw [State.prefers_iff, State.slotClass_fill, State.slotClass_fill, State.slotClass_eq, State.slotClass_eq]
    · rw [State.outranked_iff]
      simp only [State.mem_rivals, and_assoc]
  case captures =>
    intro s v ag hv regs a hk sp e w hfail _ _
    obtain ⟨bits, fail, he⟩ := State.refetch_head hv hk
    have hword : e.word = bits := congrArg QEntry.word he
    obtain ⟨hA, hB, -, -⟩ := queueEntry_captures sp bits (s.headOf ag).lpc fail (s.headOf ag).order
    refine ⟨?_, fun hop => ?_, (congrArg QEntry.lpc he).trans rfl⟩
    · exact (congrArg QEntry.capA he).trans (hA.trans (by rw [← hword]; rfl))
    · rw [hword] at hop
      refine (congrArg QEntry.capB he).trans ((hB ?_).trans (by rw [← hword]; rfl))
      rwa [BitVec.extractLsb'_toNat, Nat.shiftRight_eq_div_pow]
  case event =>
    intro s i rest x h hi hx
    exact step_of_pick_run (State.pick_event h hi) hx
  case bytes =>
    intro s ag va n g c u hcheck hline key l howner hcopy hserve hu hx hp ht
    have hmiss : s.fetchHit ag va = none := by
      refine List.find?_eq_none.mpr fun c hc hhit => hcopy c hc ?_
      simpa [and_assoc] using hhit
    exact State.fetchBytes_memory hcheck hline hmiss (Prod.ext howner rfl) (State.homeRead_clean n hserve hu hx hp ht)

end Sys2Proof.Proofs
end

section
namespace Sys2Proof.Machine
open Sys2Proof.Safety

/-! ### Register writes into a group (R67, R158) -/

/-- A group has changed in vector registers, the rows that they lie in, and its splits alone. -/
structure LandStep (g h : Group) : Prop where
  frame : h = { g with v := h.v, under := h.under, splits := h.splits }

namespace LandStep

theorem refl (g : Group) : LandStep g g := ⟨rfl⟩

theorem trans {g h k : Group} (hgh : LandStep g h) (hhk : LandStep h k) : LandStep g k := ⟨by rw [hhk.frame, hgh.frame]⟩

theorem tag {g h : Group} (hgh : LandStep g h) : h.tag = g.tag := by rw [hgh.frame]

end LandStep

/-- Register writes change no split. -/
theorem Group.putWrites_splits (g : Group) (ws : List RegWrite) : (g.putWrites ws).splits = g.splits := by
  induction ws generalizing g with
  | nil => rfl
  | cons w ws ih => exact ih (g.setV w.1 w.2.1 w.2.2)

theorem Group.putWrites_step (g : Group) (ws : List RegWrite) : LandStep g (g.putWrites ws) := by
  induction ws generalizing g with
  | nil => exact LandStep.refl g
  | cons w ws ih => exact LandStep.trans ⟨rfl⟩ (ih (g.setV w.1 w.2.1 w.2.2))

theorem rowsKept_refl (g : Group) : RowsKept g g := fun _ _ => .inl rfl

theorem rowsKept_trans {g h k : Group} (hgh : RowsKept g h) (hhk : RowsKept h k) : RowsKept g k := by
  intro r x
  rcases hhk r x with hk | hk
  · rw [hk]
    exact hgh r x
  · exact .inr hk

theorem Group.setV_rowsKept (g : Group) (n l : Nat) (x : Word) : RowsKept g (g.setV n l x) := by
  intro r y
  show Tab.get y (Tab.del g.under n) r = _ ∨ Tab.get y (Tab.del g.under n) r = y
  rw [Tab.get_del]
  split
  · exact .inr rfl
  · exact .inl rfl

theorem Group.putWrites_rowsKept (g : Group) (ws : List RegWrite) : RowsKept g (g.putWrites ws) := by
  induction ws generalizing g with
  | nil => exact rowsKept_refl g
  | cons w ws ih => exact rowsKept_trans (Group.setV_rowsKept g w.1 w.2.1 w.2.2) (ih _)

/-- A register and lane that no write names keeps its value. -/
theorem Group.putWrites_vreg_out {g : Group} {ws : List RegWrite} {r l : Nat} (h : ∀ w ∈ ws, 32 * w.1 + w.2.1 ≠ 32 * r + l) :
    (g.putWrites ws).vreg r l = g.vreg r l := by
  induction ws generalizing g with
  | nil => rfl
  | cons w ws ih =>
    show ((g.setV w.1 w.2.1 w.2.2).putWrites ws).vreg r l = _
    rw [ih fun x hx => h x (List.mem_cons_of_mem w hx), Group.vreg_setV, if_neg (h w List.mem_cons_self)]

/-- A register and lane that the writes name holds what they write, where they agree. -/
theorem Group.putWrites_vreg_in {g : Group} {ws : List RegWrite} {r l : Nat} {x : Word} (hex : ∃ w ∈ ws, 32 * w.1 + w.2.1 = 32 * r + l)
    (hall : ∀ w ∈ ws, 32 * w.1 + w.2.1 = 32 * r + l → w.2.2 = x) : (g.putWrites ws).vreg r l = x := by
  induction ws generalizing g with
  | nil => simp at hex
  | cons w ws ih =>
    show ((g.setV w.1 w.2.1 w.2.2).putWrites ws).vreg r l = _
    by_cases htail : ∃ v ∈ ws, 32 * v.1 + v.2.1 = 32 * r + l
    · exact ih htail fun v hv => hall v (List.mem_cons_of_mem w hv)
    · have hhead : 32 * w.1 + w.2.1 = 32 * r + l := by
        obtain ⟨v, hv, hkey⟩ := hex
        rcases List.mem_cons.mp hv with rfl | hv
        · exact hkey
        · exact absurd ⟨v, hv, hkey⟩ htail
      rw [Group.putWrites_vreg_out fun v hv hkey => htail ⟨v, hv, hkey⟩, Group.vreg_setV, if_pos hhead]
      exact hall w List.mem_cons_self hhead

/-! ### A scalar result lands in the splits that own it (R264, R279) -/

/-- A scalar result in one of the splits `l`. -/
def Group.putScalarIn (e : Entry) (vs : List (Nat × Word)) (g : Group) (n : Nat) : Group :=
  if e.own (g.split n).uid then g.setSplit n (vs.foldl (fun sp v => sp.setS v.1 v.2) (g.split n)) else g

theorem Group.putScalar_eq_foldl (g : Group) (e : Entry) (vs : List (Nat × Word)) :
    g.putScalar e vs = g.live8.foldl (Group.putScalarIn e vs) g := rfl

theorem Group.foldl_putScalarIn_frame (e : Entry) (vs : List (Nat × Word)) (l : List Nat) (g : Group) :
    l.foldl (Group.putScalarIn e vs) g = { g with splits := (l.foldl (Group.putScalarIn e vs) g).splits } := by
  induction l generalizing g with
  | nil => rfl
  | cons n l ih =>
    rw [List.foldl_cons, ih, Group.putScalarIn]
    split <;> rfl

theorem Group.putScalar_frame (g : Group) (e : Entry) (vs : List (Nat × Word)) :
    g.putScalar e vs = { g with splits := (g.putScalar e vs).splits } := Group.foldl_putScalarIn_frame e vs g.live8 g

theorem Group.putScalar_step (g : Group) (e : Entry) (vs : List (Nat × Word)) : LandStep g (g.putScalar e vs) :=
  ⟨by rw [Group.putScalar_frame]⟩

theorem Group.foldl_putScalarIn_split (e : Entry) (vs : List (Nat × Word)) {l : List Nat} (hl : l.Nodup) (g : Group) (n : Nat) :
    (l.foldl (Group.putScalarIn e vs) g).split n =
      if n ∈ l ∧ e.own (g.split n).uid = true then vs.foldl (fun sp v => sp.setS v.1 v.2) (g.split n) else g.split n := by
  induction l generalizing g with
  | nil => simp
  | cons k l ih =>
    obtain ⟨hk, hl⟩ := List.nodup_cons.mp hl
    rw [List.foldl_cons, ih hl, Group.putScalarIn]
    by_cases hkn : k = n
    · subst hkn
      rw [if_neg fun h => hk h.1]
      by_cases hown : e.own (g.split k).uid = true
      · rw [if_pos hown, if_pos ⟨List.mem_cons_self, hown⟩, Group.split_setSplit, if_pos rfl]
      · rw [if_neg hown, if_neg fun h => hown h.2]
    · have hsame : (if e.own (g.split k).uid then g.setSplit k (vs.foldl (fun sp v => sp.setS v.1 v.2) (g.split k)) else g).split n
          = g.split n := by
        split
        · rw [Group.split_setSplit, if_neg hkn]
        · rfl
      rw [hsame]
      simp only [List.mem_cons, Ne.symm hkn, false_or]

theorem Group.mem_live8 (g : Group) (n : Nat) : n ∈ g.live8 ↔ n < 8 ∧ (g.split n).status ≠ .absent := by
  simp [Group.live8, below]

theorem Group.putScalar_split (g : Group) (e : Entry) (vs : List (Nat × Word)) (n : Nat) :
    (g.putScalar e vs).split n =
      if (n < 8 ∧ (g.split n).status ≠ .absent) ∧ (g.split n).uid ∈ e.owners then vs.foldl (fun sp v => sp.setS v.1 v.2) (g.split n)
      else g.split n := by
  have hnodup : g.live8.Nodup := List.nodup_range.filter _
  rw [Group.putScalar_eq_foldl, Group.foldl_putScalarIn_split e vs hnodup]
  simp only [Group.mem_live8, Entry.own, List.contains_iff_mem]

theorem Group.putScalar_nil_split (g : Group) (e : Entry) (n : Nat) : (g.putScalar e []).split n = g.split n := by
  rw [Group.putScalar_split, List.foldl_nil, ite_self]

/-! ### A reply lands (R158) -/

/-- The group in which the reply of an entry has landed: its escort set as it left, then its results. -/
def Group.landed (g : Group) (e : Entry) (ws : List RegWrite) (vs : List (Nat × Word)) : Group :=
  ((g.putWrites ((e.esc.map Escort.writes).getD [])).putWrites ws).putScalar e vs

theorem Group.landed_vreg (g : Group) (e : Entry) (ws : List RegWrite) (vs : List (Nat × Word)) (r l : Nat) :
    (g.landed e ws vs).vreg r l = ((g.putWrites ((e.esc.map Escort.writes).getD [])).putWrites ws).vreg r l := by
  rw [Group.landed, Group.putScalar_frame]
  rfl

theorem Group.landed_step (g : Group) (e : Entry) (ws : List RegWrite) (vs : List (Nat × Word)) : LandStep g (g.landed e ws vs) :=
  ((Group.putWrites_step g _).trans (Group.putWrites_step _ ws)).trans (Group.putScalar_step _ e vs)

theorem Group.landed_rowsKept (g : Group) (e : Entry) (ws : List RegWrite) (vs : List (Nat × Word)) : RowsKept g (g.landed e ws vs) := by
  have hscal : RowsKept ((g.putWrites ((e.esc.map Escort.writes).getD [])).putWrites ws) (g.landed e ws vs) := by
    intro r x
    rw [Group.landed, Group.putScalar_frame]
    exact .inl rfl
  exact rowsKept_trans (rowsKept_trans (Group.putWrites_rowsKept g _) (Group.putWrites_rowsKept _ ws)) hscal

theorem Group.landed_split (g : Group) (e : Entry) (ws : List RegWrite) (vs : List (Nat × Word)) (n : Nat) :
    (g.landed e ws vs).split n =
      if (n < 8 ∧ (g.split n).status ≠ .absent) ∧ (g.split n).uid ∈ e.owners then vs.foldl (fun sp v => sp.setS v.1 v.2) (g.split n)
      else g.split n := by
  have hsplit : ∀ k, ((g.putWrites ((e.esc.map Escort.writes).getD [])).putWrites ws).split k = g.split k := fun k => by
    rw [Group.split, Group.putWrites_splits, Group.putWrites_splits]
    rfl
  rw [Group.landed, Group.putScalar_split, hsplit]

theorem State.useRows_cores (s : State) (core slot ctx base n : Nat) :
    s.useRows core slot ctx base n = { s with cores := (s.useRows core slot ctx base n).cores } := by
  unfold State.useRows
  induction List.range n generalizing s with
  | nil => rfl
  | cons i l ih =>
    have hrow : (s.takeRow core slot ctx (base + i)).2 = { s with cores := (s.takeRow core slot ctx (base + i)).2.cores } := by
      unfold State.takeRow
      dsimp only
      split <;> rfl
    rw [List.foldl_cons, ih, hrow]

theorem CtxCore.holder_none {c : CtxCore} (e : Entry) (h : c.saved = []) : c.holder e = none := by
  rw [CtxCore.holder, h]
  rfl

section
variable {s : State} {e : Entry} (hlive : (s.group e.ag.core e.ag.slot).live = true) (htag : (s.group e.ag.core e.ag.slot).tag = e.tag)
  (hsaved : (s.ctxCore e.ctx e.ag.core).saved = [])
include hlive htag hsaved

/-- A reply that lands in a group that is there takes the entry away and changes the group and its core's rows alone. -/
theorem State.land_here (ws : List RegWrite) (vs : List (Nat × Word)) : ∃ cores, s.land e ws vs =
    { s with cores := cores, ents := s.ents.filter fun x => x.id != e.id,
             groups := Tab.put s.groups (slotKey e.ag.core e.ag.slot) ((s.group e.ag.core e.ag.slot).landed e ws vs) } := by
  have hmod : ∀ (t : State) (f : Group → Group), t.groups = s.groups → t.modHolder e f =
      t.setGroup e.ag.core e.ag.slot (f (s.group e.ag.core e.ag.slot)) := by
    intro t f hg
    have hgroup : t.group e.ag.core e.ag.slot = s.group e.ag.core e.ag.slot := by rw [State.group, State.group, hg]
    unfold State.modHolder
    dsimp only
    rw [hgroup, hlive, htag]
    simp
  have himage : ∀ (t : State) (regs : List Nat), t.ctxCores = s.ctxCores → t.reimage s e regs = t := by
    intro t regs hc
    have hnone : (t.ctxCore e.ctx e.ag.core).holder e = none :=
      CtxCore.holder_none e (by rw [State.ctxCore, hc]; exact hsaved)
    rw [State.reimage, hnone]
    rfl
  cases hesc : e.esc with
  | none =>
    refine ⟨s.cores, ?_⟩
    unfold State.land
    dsimp only
    rw [hesc]
    dsimp only
    rw [hmod, himage, Group.landed, hesc]
    all_goals rfl
  | some z =>
    refine ⟨((s.dropEnt e.id).useRows e.ag.core e.ag.slot e.ctx z.base z.count).cores, ?_⟩
    have hhere : (((s.dropEnt e.id).group e.ag.core e.ag.slot).live && ((s.dropEnt e.id).group e.ag.core e.ag.slot).tag == e.tag) = true := by
      show ((s.group e.ag.core e.ag.slot).live && (s.group e.ag.core e.ag.slot).tag == e.tag) = true
      rw [hlive, htag]
      simp
    have hrows := State.useRows_cores (s.dropEnt e.id) e.ag.core e.ag.slot e.ctx z.base z.count
    unfold State.land
    dsimp only
    rw [hesc]
    dsimp only
    rw [if_pos hhere]
    generalize (s.dropEnt e.id).useRows e.ag.core e.ag.slot e.ctx z.base z.count = t at hrows
    rw [hrows, hmod, himage, Group.landed, hesc]
    all_goals rfl

end

/-! ### What an escort set is charged (R154, R158, R163) -/

/-- An entry and the others, where no other has its identity. -/
theorem perm_cons_filter {l : List Entry} {e : Entry} (he : e ∈ l) (hone : l.countP (fun x => x.id == e.id) = 1) :
    l.Perm (e :: l.filter fun x => x.id != e.id) := by
  have hlen : (l.filter fun x => x.id == e.id).length = 1 := by rw [← List.countP_eq_length_filter, hone]
  obtain ⟨x, hx⟩ := List.length_eq_one_iff.mp hlen
  have hmem : e ∈ l.filter fun x => x.id == e.id := List.mem_filter.mpr ⟨he, beq_self_eq_true _⟩
  have hxe : x = e := by
    rw [hx] at hmem
    exact (List.mem_singleton.mp hmem).symm
  have hperm := List.filter_append_perm (fun x : Entry => x.id == e.id) l
  rw [hx, hxe] at hperm
  exact hperm.symm

theorem sumOver_filter_perm {l m : List Entry} (h : l.Perm m) (p : Entry → Bool) (f : Entry → Nat) :
    sumOver (l.filter p) f = sumOver (m.filter p) f := ((h.filter p).map f).sum_eq

theorem sumOver_filter_cons {l : List Entry} {p : Entry → Bool} {e : Entry} (h : p e = true) (f : Entry → Nat) :
    sumOver ((e :: l).filter p) f = sumOver (l.filter p) f + f e := by
  rw [List.filter_cons_of_pos h, Nat.add_comm]
  rfl

section
variable {s t : State} {e : Entry} (he : e ∈ s.ents) (hone : s.ents.countP (fun x => x.id == e.id) = 1)
  (hents : t.ents = s.ents.filter fun x => x.id != e.id) {z : Escort} (hz : e.esc = some z)
include he hone hents hz

theorem State.escUsed_lowered : t.escUsed e.ag.core + z.count = s.escUsed e.ag.core := by
  unfold State.escUsed
  rw [sumOver_filter_perm (perm_cons_filter he hone), ← hents, sumOver_filter_cons (by simp)]
  simp [hz]

theorem State.windowUsed_lowered {i : Nat} (hi : z.slice = some i) :
    t.windowUsed (e.ag.core / 8) i + 128 * z.count = s.windowUsed (e.ag.core / 8) i := by
  unfold State.windowUsed
  rw [sumOver_filter_perm (perm_cons_filter he hone), ← hents, sumOver_filter_cons (by simp [clusterOfCore])]
  simp [hz, hi]

theorem State.eabr_lowered (htag : (s.group e.ag.core e.ag.slot).tag = e.tag) (hkept : (t.group e.ag.core e.ag.slot).tag = e.tag) :
    t.eabr e.ag.core e.ag.slot + 1 = s.eabr e.ag.core e.ag.slot := by
  have hin : e.inGroup e.ag.core e.ag.slot e.tag = true := by simp [Entry.inGroup]
  unfold State.eabr State.entsOf
  rw [((perm_cons_filter he hone).filter _).countP_eq, ← hents, hkept, htag, List.filter_cons, if_pos hin, List.countP_cons_of_pos]
  simp [hz]

end

/-! ### What lands where (R158) -/

theorem mem_lanes (l : Nat) : l ∈ lanes ↔ l < 32 := List.mem_range

theorem Escort.mem_writes (z : Escort) (w : RegWrite) :
    w ∈ z.writes ↔ ∃ k l, k < z.count ∧ l < 32 ∧ w = (z.base + k, l, Tab.get 0 z.rows (32 * k + l)) := by
  simp only [Escort.writes, List.mem_flatMap, List.mem_map, List.mem_range, mem_lanes]
  constructor
  · rintro ⟨k, hk, l, hl, rfl⟩
    exact ⟨k, l, hk, hl, rfl⟩
  · rintro ⟨k, l, hk, hl, rfl⟩
    exact ⟨k, hk, l, hl, rfl⟩

/-- Every write is one of the lanes of some part, in the window of the entry's results. -/
def Entry.Within (e : Entry) (ws : List RegWrite) : Prop :=
  ∀ w ∈ ws, w.2.1 < 32 ∧ 0 < e.dstN ∧ e.dst ≤ w.1 ∧ w.1 < e.dst + e.dstN ∧ ∃ p ∈ e.parts, p.lane = w.2.1

theorem Entry.Within.misses {e : Entry} {ws : List RegWrite} (hws : e.Within ws) {r l : Nat} (hl : l < 32)
    (h : e.dstN = 0 ∨ r < e.dst ∨ e.dst + e.dstN ≤ r ∨ ∀ p ∈ e.parts, p.lane ≠ l) : ∀ w ∈ ws, 32 * w.1 + w.2.1 ≠ 32 * r + l := by
  intro w hw hkey
  obtain ⟨hlane, hpos, hlo, hhi, p, hp, hpl⟩ := hws w hw
  have hr : w.1 = r := by omega
  have hwl : w.2.1 = l := by omega
  rcases h with h | h | h | h
  · omega
  · omega
  · omega
  · exact h p hp (hpl.trans hwl)

theorem Group.landed_vreg_frame {g : Group} {e : Entry} {ws : List RegWrite} (vs : List (Nat × Word)) {r l : Nat} (hl : l < 32)
    (hws : ∀ w ∈ ws, 32 * w.1 + w.2.1 ≠ 32 * r + l) (hset : ∀ z, e.esc = some z → r < z.base ∨ z.base + z.count ≤ r) :
    (g.landed e ws vs).vreg r l = g.vreg r l := by
  rw [Group.landed_vreg, Group.putWrites_vreg_out hws, Group.putWrites_vreg_out]
  intro w hw
  cases hz : e.esc with
  | none => simp [hz] at hw
  | some z =>
    rw [hz] at hw
    obtain ⟨k, m, hk, hm, rfl⟩ := (Escort.mem_writes z w).mp hw
    have := hset z hz
    show 32 * (z.base + k) + m ≠ 32 * r + l
    omega

theorem Group.landed_vreg_set {g : Group} {e : Entry} {ws : List RegWrite} (vs : List (Nat × Word)) {z : Escort} (hz : e.esc = some z)
    {k l : Nat} (hk : k < z.count) (hl : l < 32) (hws : ∀ w ∈ ws, 32 * w.1 + w.2.1 ≠ 32 * (z.base + k) + l) :
    (g.landed e ws vs).vreg (z.base + k) l = Tab.get 0 z.rows (32 * k + l) := by
  rw [Group.landed_vreg, Group.putWrites_vreg_out hws, hz]
  refine Group.putWrites_vreg_in ⟨_, (Escort.mem_writes z _).mpr ⟨k, l, hk, hl, rfl⟩, rfl⟩ fun w hw hkey => ?_
  obtain ⟨m, n, hm, hn, rfl⟩ := (Escort.mem_writes z w).mp hw
  have hkey : 32 * (z.base + m) + n = 32 * (z.base + k) + l := hkey
  have hmk : m = k := by omega
  have hnl : n = l := by omega
  rw [hmk, hnl]

/-- What a reply that lands leaves alone, and what it brings back (R158); `n` registers are its results. -/
theorem setLands_of_landed {s t : State} {e : Entry} (n : Nat) {ws : List RegWrite} {vs : List (Nat × Word)} (he : e ∈ s.ents)
    (htag : (s.group e.ag.core e.ag.slot).tag = e.tag) (hents : t.ents = s.ents.filter fun x => x.id != e.id)
    (hgroup : t.group e.ag.core e.ag.slot = (s.group e.ag.core e.ag.slot).landed e ws vs)
    (hws : Entry.Within { e with dstN := n } ws) :
    SetLands s t { e with dstN := n } (s.group e.ag.core e.ag.slot) (t.group e.ag.core e.ag.slot) where
  frame r l hl hout hset := by
    rw [hgroup]
    exact Group.landed_vreg_frame vs hl (hws.misses hl hout) hset
  set z hz k l hk hl hout := by
    rw [hgroup]
    exact Group.landed_vreg_set vs hz hk hl (hws.misses hl hout)
  charges hone z hz := by
    have hkept : (t.group e.ag.core e.ag.slot).tag = e.tag := by
      rw [hgroup, (Group.landed_step _ e ws vs).tag, htag]
    exact ⟨State.escUsed_lowered (e := e) he hone hents hz, State.eabr_lowered (e := e) he hone hents hz htag hkept,
      fun i hi => State.windowUsed_lowered (e := e) he hone hents hz hi⟩

end Sys2Proof.Machine
end

section
namespace Sys2Proof.Machine
open Sys2Proof.Safety

/-! ### The bits of little-endian bytes -/

theorem ofBytes_cons (b : Byte) (bs : List Byte) : ofBytes (b :: bs) = 2 ^ 8 * ofBytes bs + b.toNat := Nat.add_comm _ _

theorem ofBytes_lt (bs : List Byte) : ofBytes bs < 2 ^ (8 * bs.length) := by
  induction bs with
  | nil => decide
  | cons b bs ih =>
    have hb := b.isLt
    rw [ofBytes_cons, List.length_cons, Nat.mul_add, Nat.pow_add]
    omega

theorem ofBytes_testBit (bs : List Byte) (k : Nat) : (ofBytes bs).testBit k = (bs.getD (k / 8) 0).getLsbD (k % 8) := by
  induction bs generalizing k with
  | nil => simp [ofBytes]
  | cons b bs ih =>
    rw [ofBytes_cons, Nat.testBit_two_pow_mul_add _ b.isLt]
    by_cases hk : k < 8
    · rw [if_pos hk, Nat.div_eq_of_lt hk, Nat.mod_eq_of_lt hk]
      rfl
    · have hdiv : k / 8 = (k - 8) / 8 + 1 := by omega
      have hmod : k % 8 = (k - 8) % 8 := by omega
      rw [if_neg hk, ih, hdiv, hmod, List.getD_cons_succ]

theorem ofBytes_drop (bs : List Byte) (k : Nat) : ofBytes (bs.drop k) = ofBytes bs / 2 ^ (8 * k) := by
  induction k generalizing bs with
  | zero => simp
  | succ k ih =>
    cases bs with
    | nil => simp [ofBytes]
    | cons b bs =>
      have hb := b.isLt
      have hdiv : ofBytes (b :: bs) / 2 ^ 8 = ofBytes bs := by
        rw [ofBytes_cons]
        omega
      rw [List.drop_succ_cons, ih, Nat.mul_add, Nat.add_comm, Nat.pow_add, ← Nat.div_div_eq_div_mul, hdiv]

theorem ofBytes_take (bs : List Byte) (k : Nat) : ofBytes (bs.take k) = ofBytes bs % 2 ^ (8 * k) := by
  refine Nat.eq_of_testBit_eq fun i => ?_
  rw [Nat.testBit_mod_two_pow, ofBytes_testBit, ofBytes_testBit]
  by_cases hi : i < 8 * k
  · have hk : i / 8 < k := by omega
    simp [hi, List.getD_eq_getElem?_getD, hk]
  · have hk : ¬i / 8 < k := by omega
    simp [hi, List.getD_eq_getElem?_getD, hk]

/-! ### The register image of an access (R237) -/

theorem partWords_short (op fn : Nat) {bs : List Byte} (h : bs.length ≤ 4) : partWords op fn bs =
    [BitVec.ofInt 32 (if (op == 0x58 || op == 0x5A) && (fn == 1 || fn == 3) then signedNat (8 * bs.length) (ofBytes bs) else ofBytes bs)] :=
  if_pos h

theorem partWords_long (op fn : Nat) {bs : List Byte} (h : ¬bs.length ≤ 4) : partWords op fn bs =
    (List.range (bs.length / 4)).map fun i => BitVec.ofNat 32 (ofBytes bs / 2 ^ (32 * i)) := if_neg h

theorem partWords_length (op fn : Nat) (bs : List Byte) : (partWords op fn bs).length = if bs.length ≤ 4 then 1 else bs.length / 4 := by
  by_cases h : bs.length ≤ 4
  · rw [partWords_short op fn h, if_pos h]
    rfl
  · rw [partWords_long op fn h, if_neg h, List.length_map, List.length_range]

theorem signedNat_eq_toInt {w : Nat} (hw : 0 < w) (n : Nat) : signedNat w n = (BitVec.ofNat w n).toInt := by
  have hpow : 2 ^ w = 2 * 2 ^ (w - 1) := by rw [← Nat.pow_succ', Nat.succ_eq_add_one, Nat.sub_add_cancel hw]
  rw [signedNat, BitVec.toInt_eq_toNat_cond, BitVec.toNat_ofNat]
  by_cases h : n % 2 ^ w < 2 ^ (w - 1)
  · rw [if_pos h, if_pos (by omega)]
  · rw [if_neg h, if_neg (by omega)]
    norm_cast

/-- A short access extends to a word with zeros, or with its sign where it is a signed load. -/
theorem partWords_short_bit (op fn : Nat) {bs : List Byte} (hpos : 0 < bs.length) (h : bs.length ≤ 4) (w : Word)
    (hw : partWords op fn bs = [w]) {i : Nat} (hi : i < 32) :
    w.getLsbD i = if i < 8 * bs.length then (ofBytes bs).testBit i
      else ((op == 0x58 || op == 0x5A) && (fn == 1 || fn == 3)) && (ofBytes bs).testBit (8 * bs.length - 1) := by
  rw [partWords_short op fn h] at hw
  obtain rfl := (List.cons.inj hw).1
  cases hs : (op == 0x58 || op == 0x5A) && (fn == 1 || fn == 3) with
  | true =>
    have hlast : 8 * bs.length - 1 < 8 * bs.length := by omega
    rw [if_pos rfl, signedNat_eq_toInt (by omega)]
    show ((BitVec.ofNat (8 * bs.length) (ofBytes bs)).signExtend 32).getLsbD i = _
    rw [BitVec.getLsbD_signExtend, BitVec.msb_eq_getLsbD_last, BitVec.getLsbD_ofNat, BitVec.getLsbD_ofNat]
    simp only [hi, hlast, decide_true, Bool.true_and]
    split
    · next h => simp [h]
    · rfl
  | false =>
    rw [if_neg (by decide), BitVec.ofInt_natCast, BitVec.getLsbD_ofNat]
    split
    · simp [hi]
    · next hlong =>
      have hsmall : ofBytes bs < 2 ^ i := (ofBytes_lt bs).trans_le (Nat.pow_le_pow_right (by decide) (by omega))
      simp [Nat.testBit_lt_two_pow hsmall]

/-- Each bit of the image that an access fills is its byte's. -/
theorem partWords_bit (op fn : Nat) (bs : List Byte) {j i : Nat} (w : Word) (hw : (partWords op fn bs)[j]? = some w) (hi : i < 32)
    (hin : 8 * (4 * j) + i < 8 * bs.length) : w.getLsbD i = (bs.getD (4 * j + i / 8) 0).getLsbD (i % 8) := by
  by_cases h : bs.length ≤ 4
  · obtain ⟨v, hv⟩ : ∃ v, partWords op fn bs = [v] := ⟨_, partWords_short op fn h⟩
    obtain rfl : j = 0 := by
      have hj := (List.getElem?_eq_some_iff.mp hw).1
      rw [hv] at hj
      simpa using hj
    rw [hv] at hw
    obtain rfl : v = w := by simpa using hw
    rw [partWords_short_bit op fn (by omega) h v hv hi, if_pos (by omega), ofBytes_testBit]
    simp
  · rw [partWords_long op fn h, List.getElem?_map] at hw
    obtain ⟨k, hk, rfl⟩ := Option.map_eq_some_iff.mp hw
    obtain rfl : j = k := by simpa using (List.getElem?_eq_some_iff.mp hk).2
    have hdiv : (32 * j + i) / 8 = 4 * j + i / 8 := by omega
    have hmod : (32 * j + i) % 8 = i % 8 := by omega
    rw [BitVec.getLsbD_ofNat, decide_eq_true hi, Bool.true_and, Nat.testBit_div_two_pow, Nat.add_comm, ofBytes_testBit, hdiv, hmod]

/-- An image that is not extended by its sign holds the access's bytes four by four. -/
theorem partWords_toNat (op fn : Nat) (bs : List Byte) {j : Nat} (w : Word) (hw : (partWords op fn bs)[j]? = some w) (hop : op ≠ 0x58)
    (hop' : op ≠ 0x5A) : w.toNat = ofBytes ((bs.drop (4 * j)).take 4) := by
  have himage : w = BitVec.ofNat 32 (ofBytes bs / 2 ^ (32 * j)) := by
    by_cases h : bs.length ≤ 4
    · rw [partWords_short op fn h] at hw
      obtain rfl : j = 0 := by simpa using (List.getElem?_eq_some_iff.mp hw).1
      have hv : BitVec.ofNat 32 (ofBytes bs) = w := by simpa [hop, hop'] using hw
      simpa using hv.symm
    · rw [partWords_long op fn h, List.getElem?_map] at hw
      obtain ⟨k, hk, rfl⟩ := Option.map_eq_some_iff.mp hw
      obtain rfl : j = k := by simpa using (List.getElem?_eq_some_iff.mp hk).2
      rfl
  have hexp : 32 * j = 8 * (4 * j) := by omega
  rw [himage, BitVec.toNat_ofNat, ofBytes_take, ofBytes_drop, hexp]

/-! ### The results of an access land in the lanes of its parts (R158, R237) -/

/-- The register writes of the lanes of an access, with the bytes of each. -/
def Entry.wordWrites (e : Entry) (got : List (Part × List Byte)) : List RegWrite :=
  if e.dstN == 0 then [] else got.flatMap fun x => e.writesOf x.1 x.2

theorem Entry.mem_writesOf (e : Entry) (p : Part) (bs : List Byte) (w : RegWrite) :
    w ∈ e.writesOf p bs ↔ ∃ j v, (partWords e.op e.fn bs)[j]? = some v ∧ w = (e.dst + j, p.lane, v) := by
  simp only [Entry.writesOf, List.mem_map, Prod.exists, List.mem_zipIdx_iff_getElem?]
  constructor
  · rintro ⟨v, j, hv, rfl⟩
    exact ⟨j, v, hv, rfl⟩
  · rintro ⟨j, v, hv, rfl⟩
    exact ⟨v, j, hv, rfl⟩

theorem Entry.mem_wordWrites (e : Entry) (got : List (Part × List Byte)) (w : RegWrite) : w ∈ e.wordWrites got ↔
    0 < e.dstN ∧ ∃ x ∈ got, ∃ j v, (partWords e.op e.fn x.2)[j]? = some v ∧ w = (e.dst + j, x.1.lane, v) := by
  unfold Entry.wordWrites
  by_cases hn : e.dstN = 0
  · simp [hn]
  · rw [if_neg (by simpa using hn)]
    simp only [List.mem_flatMap, Entry.mem_writesOf, Nat.pos_of_ne_zero hn, true_and]

/-- The lanes of an access have bytes for the registers of its results, and no two parts are one lane's. -/
structure Entry.Fits (e : Entry) (got : List (Part × List Byte)) : Prop where
  parts : got.map (·.1) = e.parts
  lanes : e.parts.Pairwise fun p q => p.lane ≠ q.lane
  small : ∀ p ∈ e.parts, p.lane < 32
  words : ∀ x ∈ got, 0 < e.dstN → e.dstN = if x.2.length ≤ 4 then 1 else x.2.length / 4

namespace Entry.Fits
variable {e : Entry} {got : List (Part × List Byte)} (h : e.Fits got)
include h

theorem part_mem {x : Part × List Byte} (hx : x ∈ got) : x.1 ∈ e.parts := h.parts ▸ List.mem_map_of_mem hx

theorem eq_of_lane {x y : Part × List Byte} (hx : x ∈ got) (hy : y ∈ got) (hxy : x.1.lane = y.1.lane) : x = y := by
  have hnodup : (got.map fun a => a.1.lane).Nodup := by
    have hlanes : (e.parts.map Part.lane).Nodup := List.pairwise_map.mpr h.lanes
    rwa [← h.parts, List.map_map] at hlanes
  exact List.inj_on_of_nodup_map hnodup hx hy hxy

theorem length_partWords {x : Part × List Byte} (hx : x ∈ got) (hn : 0 < e.dstN) : (partWords e.op e.fn x.2).length = e.dstN := by
  rw [partWords_length, h.words x hx hn]

theorem within : e.Within (e.wordWrites got) := by
  intro w hw
  obtain ⟨hn, x, hx, j, v, hv, rfl⟩ := (e.mem_wordWrites got _).mp hw
  have hj := (List.getElem?_eq_some_iff.mp hv).1
  rw [h.length_partWords hx hn] at hj
  exact ⟨h.small x.1 (h.part_mem hx), hn, Nat.le_add_right _ _, Nat.add_lt_add_left hj _, x.1, h.part_mem hx, rfl⟩

/-- The register of a lane's word holds it. -/
theorem landed_word (g : Group) (vs : List (Nat × Word)) {x : Part × List Byte} (hx : x ∈ got) {j : Nat} (hj : j < e.dstN) :
    (partWords e.op e.fn x.2)[j]? = some ((g.landed e (e.wordWrites got) vs).vreg (e.dst + j) x.1.lane) := by
  have hn : 0 < e.dstN := by omega
  obtain ⟨v, hv⟩ : ∃ v, (partWords e.op e.fn x.2)[j]? = some v :=
    ⟨_, List.getElem?_eq_getElem (by rw [h.length_partWords hx hn]; exact hj)⟩
  have hlane := h.small x.1 (h.part_mem hx)
  rw [hv, Group.landed_vreg, Group.putWrites_vreg_in ⟨_, (e.mem_wordWrites got _).mpr ⟨hn, x, hx, j, v, hv, rfl⟩, rfl⟩]
  intro w hw hkey
  obtain ⟨_, y, hy, k, u, hu, rfl⟩ := (e.mem_wordWrites got _).mp hw
  have hkey : 32 * (e.dst + k) + y.1.lane = 32 * (e.dst + j) + x.1.lane := hkey
  have hylane := h.small y.1 (h.part_mem hy)
  obtain rfl : y = x := h.eq_of_lane hy hx (by omega)
  obtain rfl : k = j := by omega
  exact Option.some.inj (hu.symm.trans hv)

end Entry.Fits

end Sys2Proof.Machine
end

section
namespace Sys2Proof.Machine
open Sys2Proof.Safety

/-! ### What a channel has served bears on no byte that a load takes (R96, R266) -/

theorem State.noteWriter_entryAt (s : State) (chan writer di ctx lv idx key : Nat) :
    (s.noteWriter chan writer).entryAt di ctx lv idx key =
      ((s.entryAt di ctx lv idx key).1, (s.entryAt di ctx lv idx key).2.noteWriter chan writer) := by
  have hdie : (s.noteWriter chan writer).die di = s.die di := rfl
  have hnow : (s.noteWriter chan writer).raw64 key = s.raw64 key := rfl
  unfold State.entryAt
  dsimp only
  rw [hdie, hnow]
  split <;> rfl

theorem noteWriter_walkFrom (chan writer di ctx : Nat) (va : DWord) (ls : List Level) (tbl : Nat) (s : State) :
    walkFrom di ctx va ls tbl (s.noteWriter chan writer) =
      ((walkFrom di ctx va ls tbl s).1, (walkFrom di ctx va ls tbl s).2.noteWriter chan writer) := by
  induction ls generalizing tbl s with
  | nil => rfl
  | cons lv ls ih =>
    unfold walkFrom
    dsimp only
    rw [State.noteWriter_entryAt]
    generalize s.entryAt _ _ _ _ _ = r
    obtain ⟨e, t⟩ := r
    dsimp only
    have hbad : (t.noteWriter chan writer).badLeaf di ctx va lv = t.badLeaf di ctx va lv := rfl
    rw [hbad, ih]
    split_ifs <;> rfl

theorem State.noteWriter_walk (s : State) (chan writer ctx : Nat) (va : DWord) :
    (s.noteWriter chan writer).walk ctx va = ((s.walk ctx va).1, (s.walk ctx va).2.noteWriter chan writer) := by
  have hentry : (s.noteWriter chan writer).ctxEntry = s.ctxEntry := rfl
  unfold State.walk
  dsimp only
  rw [hentry]
  cases s.ctxEntry (ownerOf va) ctx with
  | none => rfl
  | some e => exact noteWriter_walkFrom chan writer _ _ _ _ _ s

theorem State.noteWriter_leafFor (s : State) (chan writer ctx : Nat) (a : Access) (va : DWord) :
    (s.noteWriter chan writer).leafFor ctx none a va = ((s.leafFor ctx none a va).1, (s.leafFor ctx none a va).2.noteWriter chan writer) := by
  unfold State.leafFor
  dsimp only
  rw [State.noteWriter_walk s chan writer]
  generalize s.walk ctx va = r
  simp only [Bool.false_eq_true, if_false]
  obtain ⟨_ | l, t⟩ := r
  · rfl
  · dsimp only
    cases leafCheck l a <;> rfl

theorem State.noteWriter_ownerLook (s : State) (chan writer ctx : Nat) (a : Access) (va : DWord) :
    ((s.noteWriter chan writer).ownerLook ctx none a va).1 = (s.ownerLook ctx none a va).1 := by
  have hkey (t : State) (l : Leaf) : (t.noteWriter chan writer).keyCheck ctx a va l = t.keyCheck ctx a va l := by
    have hword : (t.noteWriter chan writer).ctxWord = t.ctxWord := rfl
    have hon (d : Nat) : (t.noteWriter chan writer).keyOn d ctx = t.keyOn d ctx := by rw [State.keyOn, State.keyOn, hword]
    rw [State.keyCheck, State.keyCheck, hon, hon]
  unfold State.ownerLook
  rw [State.noteWriter_leafFor s chan writer]
  generalize s.leafFor ctx none a va = r
  obtain ⟨_ | l, t⟩ := r
  · rfl
  · dsimp only
    exact hkey t l

/-- Whether a line opens for a tag, and reads (R64, R361). -/
theorem State.openLine_fst (s : State) (key : Nat) (t : LineTag) : (s.openLine key t).1 =
    (!s.unreachable key && !(s.line (key / 128)).poison && !s.expanderBad key
      && (!(s.line (key / 128)).written || (s.line (key / 128)).matches t)) := by
  unfold State.openLine
  dsimp only
  split_ifs <;> simp_all

theorem State.homeRead_fst (s : State) (ctx : Nat) (va : DWord) (key n : Nat) : (s.homeRead ctx va key n).1 =
    if (s.openLine (s.serve ctx va key).1 (s.tagFor (ownerOf va) ctx va)).1 then some (s.mem.readN (s.serve ctx va key).1 n)
    else none := by
  have hmem := (State.openLine_readStep s (s.serve ctx va key).1 (s.tagFor (ownerOf va) ctx va)).mem
  unfold State.homeRead State.homeReadBy State.lineRead
  generalize s.openLine _ _ = r at hmem ⊢
  obtain ⟨_ | _, t⟩ := r
  · rfl
  · rw [← hmem]
    rfl

theorem State.noteWriter_homeRead (s : State) (chan writer ctx : Nat) (va : DWord) (key n : Nat) :
    ((s.noteWriter chan writer).homeRead ctx va key n).1 = (s.homeRead ctx va key n).1 := by
  have hopen : ∀ k t, ((s.noteWriter chan writer).openLine k t).1 = (s.openLine k t).1 := fun k t => by
    rw [State.openLine_fst, State.openLine_fst]
    rfl
  have hserve : (s.noteWriter chan writer).serve ctx va key = s.serve ctx va key := rfl
  have htag : (s.noteWriter chan writer).tagFor = s.tagFor := rfl
  rw [State.homeRead_fst, State.homeRead_fst, hserve, htag, hopen]
  rfl

theorem State.noteWriter_plainByte (s : State) (chan writer ctx : Nat) (va : DWord) :
    (s.noteWriter chan writer).plainByte ctx va = s.plainByte ctx va := by
  unfold State.plainByte
  rw [State.noteWriter_ownerLook s chan writer]
  simp only [State.noteWriter_homeRead]

theorem State.noteWriter_viewByte (s : State) (chan writer ctx : Nat) (va : DWord) (raw : Byte) :
    (s.noteWriter chan writer).viewByte ctx va raw = s.viewByte ctx va raw := by
  unfold State.viewByte
  simp only [State.noteWriter_plainByte]

theorem State.noteWriter_source4 (s : State) (chan writer : Nat) (e : Entry) (addr : DWord) :
    (s.noteWriter chan writer).source4 e addr = s.source4 e addr := by
  have hserve : (s.noteWriter chan writer).serve = s.serve := rfl
  have hscr : (s.noteWriter chan writer).scrRead = s.scrRead := rfl
  have hver : (s.noteWriter chan writer).bver = s.bver := rfl
  unfold State.source4
  simp only [State.noteWriter_homeRead, State.noteWriter_viewByte, hserve, hscr, hver]

theorem State.noteWriter_takeByte (s : State) (chan writer : Nat) (e : Entry) (addr : DWord) (noCopy : Bool) :
    (s.noteWriter chan writer).takeByte e addr noCopy = s.takeByte e addr noCopy := by
  have hnear : (s.noteWriter chan writer).nearByte e addr noCopy = s.nearByte e addr noCopy := rfl
  unfold State.takeByte
  rw [hnear, State.noteWriter_source4]

end Sys2Proof.Machine
end

section
namespace Sys2Proof.Machine
open Sys2Proof.Safety

/-! ### The order of the sources (R266) -/

section
variable {s : State} {e : Entry} {a : DWord} {noCopy : Bool}

theorem State.takeByte_source1 {t : Taken} (h : s.source1 e (e.spot a) = some t) : s.takeByte e a noCopy = some t := by
  rw [State.takeByte, State.nearByte, h]
  rfl

theorem State.takeByte_source2 {t : Taken} (h1 : s.source1 e (e.spot a) = none) (h : s.source2 e (e.spot a) = some t) :
    s.takeByte e a noCopy = some t := by
  rw [State.takeByte, State.nearByte, h1, h]
  rfl

theorem State.takeByte_source3 {t : Taken} (h1 : s.source1 e (e.spot a) = none) (h2 : s.source2 e (e.spot a) = none)
    (h : s.source3 e a noCopy = some t) : s.takeByte e a noCopy = some t := by
  rw [State.takeByte, State.nearByte, h1, h2, h]
  rfl

theorem State.nearByte_eq_none : s.nearByte e a noCopy = none ↔
    s.source1 e (e.spot a) = none ∧ s.source2 e (e.spot a) = none ∧ s.source3 e a noCopy = none := by
  unfold State.nearByte
  cases s.source1 e (e.spot a) <;> cases s.source2 e (e.spot a) <;> simp

theorem State.takeByte_source4 (h1 : s.source1 e (e.spot a) = none) (h2 : s.source2 e (e.spot a) = none)
    (h3 : s.source3 e a noCopy = none) : s.takeByte e a noCopy = s.source4 e a := by
  rw [State.takeByte, State.nearByte_eq_none.mpr ⟨h1, h2, h3⟩]
  rfl

theorem State.source1_plain (spot : Nat) (h : e.path = 1 ∨ e.path = 4) : s.source1 e spot = none := by
  have hplain : (e.path == 1 || e.path == 4) = true := by simpa using h
  rw [State.source1, if_pos hplain]

theorem State.source2_pathed (spot : Nat) (h : e.path ≠ 0) : s.source2 e spot = none := if_pos (by simpa using h)

theorem State.source3_untranslated (h : translated e.path = false) : s.source3 e a noCopy = none := by
  rw [State.source3, if_pos (by simp [h])]

end

theorem youngest_cons_cons (f : Entry → Nat) (b c : Entry) (l : List Entry) :
    youngest f (b :: c :: l) = youngest f ((if f b < f c then c else b) :: l) := by
  unfold youngest
  simp only [List.foldl_cons]
  split <;> rfl

/-- The youngest of a list is the one that every other comes before. -/
theorem youngest_eq_some (f : Entry → Nat) {x : Entry} (l : List Entry) (hx : x ∈ l) (h : ∀ y ∈ l, f y ≤ f x ∧ (f y = f x → y = x)) :
    youngest f l = some x := by
  match l with
  | [] => cases hx
  | [b] => rw [List.mem_singleton.mp hx]; rfl
  | b :: c :: l =>
    rw [youngest_cons_cons]
    have hb := h b (by simp)
    have hc := h c (by simp)
    refine youngest_eq_some f _ ?_ fun y hy => ?_
    · by_cases hbc : f b < f c
      · rw [if_pos hbc]
        refine (List.mem_cons.mp hx).resolve_left fun hxb => ?_
        rw [hxb] at hc
        omega
      · rw [if_neg hbc]
        rcases List.mem_cons.mp hx with hxb | hxcl
        · exact List.mem_cons.mpr (.inl hxb)
        · rcases List.mem_cons.mp hxcl with hxc | hxl
          · refine List.mem_cons.mpr (.inl (hb.2 ?_).symm)
            rw [hxc] at hb ⊢
            omega
          · exact List.mem_cons_of_mem _ hxl
    · refine h y ?_
      rcases List.mem_cons.mp hy with hyb | hyl
      · rw [hyb]
        split <;> simp
      · simp [hyl]
termination_by l.length

theorem Entry.byteAt_of_covers {x : Entry} {spot : Nat} (h : x.covers spot = true) : ∃ b, x.byteAt spot = some b := by
  obtain ⟨b, hb, hspot⟩ := List.any_eq_true.mp h
  have hne : x.bytes.filter (fun b => b.1 == spot) ≠ [] := List.ne_nil_of_mem (List.mem_filter.mpr ⟨hb, hspot⟩)
  exact ⟨_, by rw [Entry.byteAt, List.getLast?_eq_some_getLast hne]; rfl⟩

/-- A byte that an older store of the split holds is the youngest such store's (R266). -/
theorem State.takeByte_store {s : State} {e x : Entry} {a : DWord} {noCopy : Bool} (hpath : e.path = 0) (hx : x ∈ s.older e)
    (hkind : x.kind = .gStore) (hcovers : x.covers (e.spot a) = true)
    (hsave : 0 < x.level → ∀ z ∈ s.ents, z.kind = .save → z.sameLine x = true → x.level < z.level → z.covers (e.spot a) = false)
    (hyoung : ∀ y ∈ s.older e, y.kind = .gStore → y.covers (e.spot a) = true → y.id ≤ x.id ∧ (y.id = x.id → y = x)) :
    (s.takeByte e a noCopy).map (·.byte) = x.byteAt (e.spot a) := by
  have hyoungest : youngest (·.id) ((s.older e).filter fun x => x.kind == .gStore && x.covers (e.spot a)) = some x := by
    refine youngest_eq_some _ _ (List.mem_filter.mpr ⟨hx, by simp [hkind, hcovers]⟩) fun y hy => ?_
    obtain ⟨hy, hyk⟩ := List.mem_filter.mp hy
    obtain ⟨hyk, hyc⟩ := Bool.and_eq_true_iff.mp hyk
    exact hyoung y hy (by simpa using hyk) hyc
  have hkept : (decide (0 < x.level) && s.ents.any fun y => y.kind == .save && y.sameLine x && decide (x.level < y.level) && y.covers (e.spot a))
      = false := by
    refine Bool.eq_false_iff.mpr fun h => ?_
    obtain ⟨hlevel, hany⟩ := Bool.and_eq_true_iff.mp h
    obtain ⟨z, hz, hzs⟩ := List.any_eq_true.mp hany
    simp only [Bool.and_eq_true, beq_iff_eq, decide_eq_true_eq] at hzs
    obtain ⟨⟨⟨hzk, hzl⟩, hzv⟩, hzc⟩ := hzs
    have := hsave (by simpa using hlevel) z hz hzk hzl hzv
    rw [hzc] at this
    cases this
  obtain ⟨b, hb⟩ := Entry.byteAt_of_covers hcovers
  have hsource : s.source1 e (e.spot a) = some ⟨b, .level1 x.id⟩ := by
    unfold State.source1
    dsimp only
    rw [hpath]
    simp only [show ((0 : Nat) == 1 || (0 : Nat) == 4) = false from rfl, show ((0 : Nat) == 2) = false from rfl,
      show ((0 : Nat) == 3) = false from rfl, Bool.false_eq_true, if_false]
    rw [hyoungest, Option.bind_some, hkept, if_neg Bool.false_ne_true, hb]
    rfl
  rw [State.takeByte_source1 hsource, hb]
  rfl

/-! ### When a load may complete (R10, R266) -/

theorem State.acqWaits_eq_false (s : State) (e : Entry) :
    s.acqWaits e = false ↔ ∀ x ∈ s.older e, x.wid ≠ e.wid → x.acq = none ∧ x.kind ≠ .fence := by
  simp only [State.acqWaits, List.any_eq_false, Bool.and_eq_true, bne_iff_ne, Bool.or_eq_true, beq_iff_eq, not_and, not_or,
    Bool.not_eq_true, Option.isSome_eq_false_iff, Option.isNone_iff_eq_none, ne_eq]

/-- The entries that share a byte, seen from the other side. -/
theorem Entry.meets_iff (x e : Entry) : x.meets e = true ↔ ∃ b c, (b, c) ∈ e.bytes ∧ x.covers b = true := by
  simp only [Entry.meets, Entry.covers, List.any_eq_true, beq_iff_eq]
  constructor
  · rintro ⟨p, hp, q, hq, hqp⟩
    exact ⟨q.1, q.2, hq, p, hp, hqp.symm⟩
  · rintro ⟨b, c, hbc, p, hp, hpb⟩
    exact ⟨p, hp, (b, c), hbc, hpb.symm⟩

theorem State.source4_home {s : State} {e : Entry} {a : DWord} {v : Byte} {f : Floor} (h : s.source4 e a = some ⟨v, f⟩) :
    ∃ n, f = .home n := by
  unfold State.source4 at h
  split at h
  · split at h
    · split at h
      · exact ⟨_, (congrArg Taken.fl (Option.some.inj h)).symm⟩
      · cases h
    · exact ⟨_, (congrArg Taken.fl (Option.some.inj h)).symm⟩
  · cases h

theorem State.floorMet_iff (s : State) (uid spot n : Nat) : s.floorMet uid spot n = true ↔
    ∀ f ∈ s.floors, f.uid = uid → f.addr.toNat = spot → ∃ m, f.fl = .home m ∧ m ≤ n := by
  simp only [State.floorMet, List.all_eq_true, List.mem_filter, Bool.and_eq_true, beq_iff_eq, and_imp]
  refine forall₄_congr fun f hf hu hs => ?_
  cases f.fl <;> simp

/-- Nothing that a load takes from the home order is earlier than what its split has read of it. -/
theorem State.homeMet_iff (s : State) (e : Entry) : s.homeMet e = true ↔
    ∀ p ∈ e.parts, ∀ i, i < p.width →
      let a := p.addr + BitVec.ofNat 64 i
      s.source1 e (e.spot a) = none → s.source2 e (e.spot a) = none → s.source3 e a (s.mustGoHome e) = none →
      ∀ v n, s.source4 e a = some ⟨v, .home n⟩ → ∀ f ∈ s.floors, f.uid = e.uid → f.addr.toNat = e.spot a → ∃ m, f.fl = .home m ∧ m ≤ n := by
  simp only [State.homeMet, List.all_eq_true, List.mem_range]
  refine forall₄_congr fun p hp i hi => ?_
  have hnear := State.nearByte_eq_none (s := s) (e := e) (a := p.addr + BitVec.ofNat 64 i) (noCopy := s.mustGoHome e)
  generalize s.nearByte e _ _ = o at hnear ⊢
  cases o with
  | some t =>
    refine ⟨fun _ h1 h2 h3 => ?_, fun _ => rfl⟩
    cases hnear.mpr ⟨h1, h2, h3⟩
  | none =>
    obtain ⟨h1, h2, h3⟩ := hnear.mp rfl
    rw [Option.isSome_none, Bool.false_or]
    cases h4 : s.source4 e (p.addr + BitVec.ofNat 64 i) with
    | none => simp
    | some t =>
      obtain ⟨v, f⟩ := t
      obtain ⟨n, rfl⟩ := State.source4_home h4
      dsimp only
      rw [State.floorMet_iff]
      constructor
      · intro h _ _ _ v' n' heq
        obtain ⟨rfl, hn⟩ := Taken.mk.inj (Option.some.inj heq)
        obtain rfl := Floor.home.inj hn
        exact h
      · exact fun h => h h1 h2 h3 v n rfl

/-- The conditions of R266 for a load that no racing word has read early. -/
def State.Free (s : State) (e : Entry) : Prop :=
  (∀ x ∈ s.older e, x.wid ≠ e.wid → x.acq = none ∧ x.kind ≠ .fence)
  ∧ (∀ x ∈ s.older e, x.kind = .load → ¬∃ b c, (b, c) ∈ e.bytes ∧ x.covers b = true)
  ∧ (∀ x ∈ s.older e, x.kind = .gAtomic → x.level = 0 → ¬∃ b c, (b, c) ∈ e.bytes ∧ x.covers b = true)
  ∧ ∀ p ∈ e.parts, ∀ i, i < p.width →
    let a := p.addr + BitVec.ofNat 64 i
    s.source1 e (e.spot a) = none → s.source2 e (e.spot a) = none → s.source3 e a (s.mustGoHome e) = none →
    ∀ v n, s.source4 e a = some ⟨v, .home n⟩ →
    ∀ f ∈ s.floors, f.uid = e.uid → f.addr.toNat = e.spot a → ∃ m, f.fl = .home m ∧ m ≤ n

theorem State.completeOk_iff (s : State) (e : Entry) : s.completeOk e = true ↔ e.bound = true ∨ s.Free e := by
  have hload : ((s.older e).any fun x => x.isLoad && x.meets e) = false ↔
      ∀ x ∈ s.older e, x.kind = .load → ¬∃ b c, (b, c) ∈ e.bytes ∧ x.covers b = true := by
    simp only [List.any_eq_false, Bool.and_eq_true, Entry.isLoad, beq_iff_eq, Entry.meets_iff, not_and]
  have hatomic : ((s.older e).any fun x => x.kind == .gAtomic && x.level == 0 && x.meets e) = false ↔
      ∀ x ∈ s.older e, x.kind = .gAtomic → x.level = 0 → ¬∃ b c, (b, c) ∈ e.bytes ∧ x.covers b = true := by
    simp only [List.any_eq_false, Bool.and_eq_true, beq_iff_eq, Entry.meets_iff, not_and, and_imp]
  unfold State.completeOk State.Free
  rw [← State.acqWaits_eq_false, ← hload, ← hatomic, ← State.homeMet_iff]
  simp only [Bool.or_eq_true, Bool.and_eq_true, Bool.not_eq_true', and_assoc]

end Sys2Proof.Machine
end

section
namespace Sys2Proof.Machine
open Sys2Proof.Safety

/-! ### What lands, and what waits (R99, R158) -/

theorem State.ent_eq_some {s : State} {id : Nat} {e : Entry} (h : s.ent id = some e) : e ∈ s.ents ∧ e.id = id :=
  ⟨List.mem_of_find?_eq_some h, by simpa using List.find?_some h⟩

theorem State.mem_dropEnt (s : State) (id : Nat) (x : Entry) : x ∈ (s.dropEnt id).ents ↔ x ∈ s.ents ∧ x.id ≠ id := by
  simp [State.dropEnt]

section
variable {s : State} {id : Nat} {e : Entry} (hent : s.ent id = some e)
include hent

theorem completeLoad_waits (hk : e.kind ≠ .heatr) (h : s.replyOk e = false) : Waits (.completeLoad id) s := by
  show execCompleteLoad id s = _
  rw [execCompleteLoad, hent]
  dsimp only
  rw [if_neg (by simpa using hk), if_neg (by simp [h])]
  rfl

theorem completeLoad_lands (hk : e.kind ≠ .heatr) (h : s.replyOk e = true) : exec (.completeLoad id) s = .next (s.reply e) := by
  show execCompleteLoad id s = _
  rw [execCompleteLoad, hent]
  dsimp only
  rw [if_neg (by simpa using hk), if_pos h]

theorem heatr_waits (hk : e.kind = .heatr) (h : s.requestOk e = false ∨ s.replyNext e = false) : Waits (.completeLoad id) s := by
  have hno : (s.requestOk e && s.replyNext e) = false := by rcases h with h | h <;> simp [h]
  show execCompleteLoad id s = _
  rw [execCompleteLoad, hent]
  dsimp only
  rw [if_pos (by simpa using hk), if_neg (by simp [hno])]
  rfl

theorem heatr_lands (hk : e.kind = .heatr) (hr : s.requestOk e = true) (hn : s.replyNext e = true) :
    exec (.completeLoad id) s = .next (s.performHeatr e) := by
  show execCompleteLoad id s = _
  rw [execCompleteLoad, hent]
  dsimp only
  rw [if_pos (by simpa using hk), if_pos (by simp [hr, hn])]

end

/-- A request whose home is not ready is not served (R358). -/
theorem State.requestOk_homeReady {s : State} {e : Entry} (hk : e.kind ≠ .hint) (h : s.homeReady e.ctx (noPath e.line) = false) :
    s.requestOk e = false := by
  have hserve : s.canServe e = false := by simp [State.canServe, hk, h]
  rw [State.requestOk, hserve, Bool.false_and]

section
variable {s : State} {e : Entry}

theorem State.replyOk_none (h : e.resp = .none) : s.replyOk e = false := by
  rw [State.replyOk, h]

theorem State.replyOk_bad {f : Fail} {n : Nat} (h : e.resp = .bad f n) : s.replyOk e = s.replyNext e := by
  rw [State.replyOk, h]

theorem State.replyOk_load {key n : Nat} (h : e.resp = .ok key n) (hk : e.kind = .load) :
    s.replyOk e = (s.completeOk e && !s.probeWaits e && (!s.fromHome e || s.replyNext e)) := by
  rw [State.replyOk, h, hk]

theorem State.replyOk_atomic {key n : Nat} (h : e.resp = .ok key n) (hk : e.kind = .gAtomic) :
    s.replyOk e = (decide (0 < e.level) && s.replyNext e) := by
  rw [State.replyOk, h, hk]

theorem State.replyOk_prefetch (h : e.resp ≠ .none) (hk : e.kind = .prefetch) : s.replyOk e = s.replyNext e := by
  rw [State.replyOk]
  cases hr : e.resp with
  | none => exact absurd hr h
  | bad f n => rfl
  | ok key n => rw [hk]

/-- A reply lands after those that its home sent to the cluster before it (R99). -/
theorem State.replyNext_behind {x : Entry} {f : Fail} {sent : Nat} (hpath : translated e.path = true) (hsent : e.sentAt = none)
    (hx : x ∈ s.ents) (hid : x.id ≠ e.id) (hcluster : x.ag.core / 8 = e.ag.core / 8) (hxp : translated x.path = true)
    (hbad : x.resp = .bad f sent) (howner : ownerOf x.line = ownerOf e.line) (hslice : sliceOf x.line = sliceOf e.line)
    (hearly : sent < s.tick) : s.replyNext e = false := by
  have hroute : x.sameRoute e = true := by
    simp [Entry.sameRoute, Entry.routeOf, howner, hslice, Entry.writer, clusterOfCore, hcluster, hxp]
  have hxs : x.sentAt = some sent := by rw [Entry.sentAt, hbad]
  have hbefore : s.repliesBefore e = false := by
    rw [State.repliesBefore, Bool.not_eq_false', List.any_eq_true]
    exact ⟨x, hx, by simp [hid, hroute, hxs, hsent, hearly]⟩
  rw [State.replyNext, hpath, hbefore]
  rfl

/-- Of the replies that wait for a cluster's channel, one with an older stamp goes first (R97). -/
theorem State.replyNext_stamp {x : Entry} {f : Fail} {sent nx : Nat} {fx : Word} (hpath : translated e.path = true)
    (hx : x ∈ s.ents) (hid : x.id ≠ e.id) (hcluster : x.ag.core / 8 = e.ag.core / 8) (hxp : translated x.path = true)
    (hbad : x.resp = .bad f sent) (hbefore : s.repliesBefore x = true) (hinj : x.inj = some (fx, nx))
    (hne : fx ≠ (e.inj.map (·.1)).getD s.chframe) (hold : ((e.inj.map (·.1)).getD s.chframe - fx).toNat ≤ 2 ^ 31) :
    s.replyNext e = false := by
  generalize hstamp : (e.inj.map (·.1)).getD s.chframe = stamp at hne hold
  have hxs : x.sentAt = some sent := by rw [Entry.sentAt, hbad]
  have hearlier : before32 fx stamp = true := by
    simp only [before32, decide_eq_true_eq]
    have h0 : (stamp - fx).toNat ≠ 0 := fun h => hne (by bv_omega)
    bv_omega
  have hwaits : s.replyWaits x = true := by rw [State.replyWaits, hxs, hxp, hbefore]; rfl
  have hfirst : s.replyFirst x stamp (s.replier e.writer e.line) = true := by
    rw [State.replyFirst, hinj]
    dsimp only
    rw [if_pos (by simpa using hne), hearlier]
  have hany : (s.ents.any fun x => x.id != e.id && x.writer == e.writer && s.replyWaits x
      && s.replyFirst x stamp (s.replier e.writer e.line)) = true :=
    List.any_eq_true.mpr ⟨x, hx, by simp [hid, Entry.writer, clusterOfCore, hcluster, hwaits]; exact hfirst⟩
  unfold State.replyNext
  dsimp only
  rw [hstamp, hany, hpath]
  simp

end

/-! ### A reply lands in a group that is there (R158) -/

/-- The step from `s` to `u` has touched no byte of memory, no group and nothing that an eviction has saved. -/
structure SameHeld (s u : State) : Prop where
  mem      : u.mem = s.mem
  groups   : u.groups = s.groups
  ctxCores : u.ctxCores = s.ctxCores

namespace SameHeld

theorem refl (s : State) : SameHeld s s := ⟨rfl, rfl, rfl⟩

theorem trans {s t u : State} (h : SameHeld s t) (k : SameHeld t u) : SameHeld s u :=
  ⟨k.mem.trans h.mem, k.groups.trans h.groups, k.ctxCores.trans h.ctxCores⟩

end SameHeld

theorem FetchStep.sameHeld {s t : State} (h : FetchStep s t) : SameHeld s t := by
  rw [h.frame]
  exact ⟨rfl, rfl, rfl⟩

theorem FetchStep.ents {s t : State} (h : FetchStep s t) : t.ents = s.ents := by rw [h.frame]

theorem State.noteReply_fetchStep (s : State) (cluster : Nat) (va : DWord) : FetchStep s (s.noteReply cluster va) := ⟨rfl⟩

/-- The reply of `e` lands in its group, in the state `u` after `s`: what it writes, and what it leaves. -/
structure LandsIn (s u t : State) (e : Entry) (ws : List RegWrite) (vs : List (Nat × Word)) : Prop where
  bytes  : SameBytes s t
  ents   : t.ents = u.ents.filter fun x => x.id != e.id
  others : ∀ c q, slotKey c q ≠ slotKey e.ag.core e.ag.slot → t.group c q = s.group c q
  group  : t.group e.ag.core e.ag.slot = (s.group e.ag.core e.ag.slot).landed e ws vs

/-- The group of an entry is in its slot, and no eviction holds one of its context there. -/
structure HeldHere (s : State) (e : Entry) : Prop where
  live  : (s.group e.ag.core e.ag.slot).live = true
  tag   : (s.group e.ag.core e.ag.slot).tag = e.tag
  saved : (s.ctxCore e.ctx e.ag.core).saved = []

theorem State.land_landsIn {s u : State} {e : Entry} (h : SameHeld s u) (here : HeldHere s e) (ws : List RegWrite)
    (vs : List (Nat × Word)) : LandsIn s u (u.land e ws vs) e ws vs := by
  have hgroup (c q : Nat) : u.group c q = s.group c q := by rw [State.group, State.group, h.groups]
  have hctx : u.ctxCore e.ctx e.ag.core = s.ctxCore e.ctx e.ag.core := by rw [State.ctxCore, State.ctxCore, h.ctxCores]
  obtain ⟨cores, ht⟩ := State.land_here (s := u) (e := e) (by rw [hgroup]; exact here.live) (by rw [hgroup]; exact here.tag)
    (by rw [hctx]; exact here.saved) ws vs
  rw [ht]
  refine ⟨fun k => congrArg (Memory.read · k) h.mem, rfl, fun c q hne => ?_, ?_⟩
  · rw [← hgroup]
    exact Tab.get_put_ne _ _ _ (Ne.symm hne)
  · rw [← hgroup]
    exact Tab.get_put_same _ _ _ _

theorem LandsIn.mem_ents {s u t : State} {e : Entry} {ws : List RegWrite} {vs : List (Nat × Word)} (h : LandsIn s u t e ws vs)
    (x : Entry) : x ∈ t.ents ↔ x ∈ u.ents ∧ x.id ≠ e.id := by simp [h.ents]

/-- A reply that lands while the same packets are in flight brings back its escort set (R158). -/
theorem LandsIn.setLands {s u t : State} {e : Entry} {ws : List RegWrite} {vs : List (Nat × Word)} (h : LandsIn s u t e ws vs)
    (hu : u.ents = s.ents) (here : HeldHere s e) (he : e ∈ s.ents) (n : Nat) (hws : Entry.Within { e with dstN := n } ws) :
    SetLands s t { e with dstN := n } (s.group e.ag.core e.ag.slot) (t.group e.ag.core e.ag.slot) :=
  setLands_of_landed n he here.tag (hu ▸ h.ents) h.group hws

theorem State.acqDone_none {s : State} {e : Entry} (h : e.acq = none) : s.acqDone e = s := by
  rw [State.acqDone, h]

/-- The reply of an access that is no prefetch has crossed its cluster's channel, where it comes from a home. -/
def State.replied (s : State) (e : Entry) : State :=
  if translated e.path && (e.kind != .load || s.fromHome e) then s.noteReply e.writer e.line else s

theorem State.replied_fetchStep (s : State) (e : Entry) : FetchStep s (s.replied e) := by
  unfold State.replied
  split
  · exact State.noteReply_fetchStep s _ _
  · exact FetchStep.refl s

/-! ### Atomics and faults (R158, R250, R251) -/

theorem State.reply_atomic {s : State} {e : Entry} {key n : Nat} (hk : e.kind = .gAtomic) (hr : e.resp = .ok key n) (ha : e.acq = none) :
    s.reply e = (s.replied e).land e (e.wordWrites (e.parts.map fun p => (p, p.data))) [] := by
  have hws : (if e.dstN == 0 then [] else e.parts.flatMap fun p => e.writesOf p p.data)
      = e.wordWrites (e.parts.map fun p => (p, p.data)) := by
    rw [Entry.wordWrites, List.flatMap_map]
  show (if e.kind == .prefetch then _ else _) = _
  rw [if_neg (by simp [hk]), hr]
  dsimp only
  rw [if_pos (by simp [hk]), State.acqDone_none ha, hws]
  rfl

theorem State.landBad_landsIn {s : State} {e : Entry} (here : HeldHere s e) : LandsIn s s (s.landBad e) e [] [] := by
  obtain ⟨hbytes, hents, hothers, hgroup⟩ := State.land_landsIn (SameHeld.refl s) here [] []
  exact ⟨hbytes, hents, hothers, hgroup⟩

/-! ### HEATR (R94) -/

theorem State.performHeatr_landsIn {s : State} {e : Entry} (here : HeldHere s e) :
    ∃ u, u.ents = s.ents ∧ LandsIn s u (s.performHeatr e) e [] ((e.sdst.map fun d => [(d, s.heatValue e)]).getD []) := by
  have hstep : FetchStep s (((s.noteServed e).leave (dieOfCore e.ag.core) e.line 0).noteReply e.writer e.line) :=
    (FetchStep.trans ⟨rfl⟩ (State.leaveFor_fetchStep _ _ _ _ _)).trans (State.noteReply_fetchStep _ _ _)
  exact ⟨_, hstep.ents, State.land_landsIn hstep.sameHeld here [] _⟩

/-! ### Prefetches (R60, R116, R245) -/

theorem Tab.mem_put_self {α : Type} (t : Tab α) (k : Nat) (v : α) : (k, v) ∈ Tab.put t k v := by
  induction t with
  | nil => simp [Tab.put]
  | cons p t ih =>
    unfold Tab.put
    split_ifs
    · simp
    · simp
    · exact List.mem_cons_of_mem _ ih

theorem Die.mem_holdLine (d : Die) (tick line : Nat) : line ∈ (d.holdLine tick line).l2 := by
  have hpos : 0 < Config.l2Lines := by decide
  unfold Die.holdLine
  dsimp only
  rw [List.drop_append_of_le_length (by rw [List.length_append, List.length_singleton]; omega)]
  simp

/-- The home slice holds the line that it has read (R116). -/
theorem State.homeRead_inL2 {s : State} {ctx : Nat} {va : DWord} {key n : Nat} (h : (s.homeRead ctx va key n).1 ≠ none) :
    (s.homeRead ctx va key n).2.inL2 (s.serve ctx va key).1 = true := by
  unfold State.homeRead State.homeReadBy at h ⊢
  generalize s.lineRead _ _ _ = r at h ⊢
  obtain ⟨_ | bs, t⟩ := r
  · exact absurd rfl h
  · exact List.any_eq_true.mpr ⟨_, Tab.mem_put_self _ _ _, by simpa using Die.mem_holdLine _ _ _⟩

theorem mem_putCopy (x : Copy) (cs : List Copy) : x ∈ putCopy x cs := by simp [putCopy]

theorem State.fill_fetchStep (s : State) (core : Nat) (cls : PathClass) (ctx : Nat) (va : DWord) : FetchStep s (s.fill core cls ctx va) := by
  have hlook := State.ownerLook_readStep s ctx none .load (lineOf (noPath va))
  unfold State.fill
  dsimp only
  generalize s.ownerLook _ _ _ _ = r at hlook
  obtain ⟨_ | ⟨key, l⟩, t⟩ := r
  · exact FetchStep.refl s
  · have hread := State.homeRead_readStep t ctx (lineOf (noPath va)) key 128
    dsimp only
    generalize t.homeRead _ _ _ _ = r at hread
    obtain ⟨_ | bs, u⟩ := r
    · exact (hlook.trans hread).fetchStep
    · exact (hlook.trans hread).fetchStep.trans ⟨rfl⟩

/-- A line that can be read at its home leaves a clean copy of its bytes in the core (R265). -/
theorem State.fill_copy {s : State} {core : Nat} {cls : PathClass} {ctx : Nat} {va : DWord} {k : Nat} {l : Leaf} {bs : List Byte}
    (hlook : (s.ownerLook ctx none .load (lineOf (noPath va))).1 = .ok (k, l))
    (hread : ((s.ownerLook ctx none .load (lineOf (noPath va))).2.homeRead ctx (lineOf (noPath va)) k 128).1 = some bs)
    (hcls : cls ≠ .compressed) :
    ∃ c ∈ (s.fill core cls ctx va).copies, c.core = core ∧ c.cls = cls ∧ c.ctx = ctx ∧ c.line = lineOf (noPath va) ∧ c.bytes = bs := by
  unfold State.fill
  dsimp only
  generalize s.ownerLook _ _ _ _ = r at hlook hread
  obtain ⟨o, t⟩ := r
  obtain rfl : o = .ok (k, l) := hlook
  dsimp only at hread ⊢
  generalize t.homeRead _ _ _ _ = r at hread
  obtain ⟨o, u⟩ := r
  obtain rfl : o = some bs := hread
  dsimp only
  rw [if_neg (by simpa using hcls)]
  exact ⟨_, mem_putCopy _ _, rfl, rfl, rfl, rfl, rfl⟩

theorem State.reply_prefetch {s : State} {e : Entry} (hk : e.kind = .prefetch) : s.reply e = (s.replied e).completePrefetch e := by
  show (if e.kind == .prefetch then _ else _) = _
  rw [if_pos (by simp [hk])]
  rfl

end Sys2Proof.Machine
end

section
namespace Sys2Proof.Machine
open Sys2Proof.Safety

/-! ### Lists of optional values -/

theorem mapM_total {α β : Type} {f : α → Option β} {l : List α} (h : ∀ a ∈ l, f a ≠ none) :
    ∃ r, l.mapM f = some r ∧ l.map f = r.map some := by
  induction l with
  | nil => exact ⟨[], rfl, rfl⟩
  | cons a l ih =>
    obtain ⟨b, hb⟩ := Option.ne_none_iff_exists'.mp (h a List.mem_cons_self)
    obtain ⟨r, hr, hmap⟩ := ih fun c hc => h c (List.mem_cons_of_mem a hc)
    refine ⟨b :: r, ?_, ?_⟩
    · rw [List.mapM_cons, hb, hr]
      rfl
    · rw [List.map_cons, List.map_cons, hb, hmap]

/-- The values of a list of indices, each of which has one. -/
theorem mapM_range_total {β : Type} {f : Nat → Option β} {n : Nat} (h : ∀ i < n, f i ≠ none) :
    ∃ r, (List.range n).mapM f = some r ∧ r.length = n ∧ ∀ i < n, f i = r[i]? := by
  obtain ⟨r, hr, hmap⟩ := mapM_total fun i hi => h i (List.mem_range.mp hi)
  have hlen : n = r.length := by simpa using congrArg List.length hmap
  refine ⟨r, hr, hlen.symm, fun i hi => ?_⟩
  have hi' : i < r.length := hlen ▸ hi
  have hget := congrArg (·[i]?) hmap
  simpa [hi, hi'] using hget

theorem mapM_range_eq_some {β : Type} {f : Nat → Option β} {r : List β} (h : ∀ i < r.length, f i = r[i]?) :
    (List.range r.length).mapM f = some r := by
  have htotal : ∀ i < r.length, f i ≠ none := fun i hi => by
    rw [h i hi, List.getElem?_eq_getElem hi]
    exact Option.some_ne_none _
  obtain ⟨q, hq, hlen, hget⟩ := mapM_range_total htotal
  rw [hq]
  refine congrArg some (List.ext_getElem? fun i => ?_)
  by_cases hi : i < r.length
  · rw [← hget i hi, h i hi]
  · rw [List.getElem?_eq_none (by omega), List.getElem?_eq_none (by omega)]

/-! ### What a load takes (R10, R266) -/

/-- Byte `i` of a lane of a load: the one that a racing word has read early, or that of the first source that holds it. -/
def State.byteOf (s : State) (e : Entry) (p : Part) (i : Nat) : Option Byte :=
  if e.bound then p.data[i]? else (s.takeByte e (p.addr + BitVec.ofNat 64 i) (s.mustGoHome e)).map (·.byte)

/-- Every byte of a load can be read. -/
structure State.Readable (s : State) (e : Entry) : Prop where
  bytes : ∀ p ∈ e.parts, ∀ i, i < p.width → s.byteOf e p i ≠ none
  early : e.bound = true → ∀ p ∈ e.parts, p.data.length = p.width

/-- What a lane of a load takes. -/
def State.takes (s : State) (e : Entry) (p : Part) : List Taken :=
  if e.bound then p.data.map fun b => ⟨b, .home 0⟩ else (s.takePart e p).getD []

/-- The bytes of a lane of a load. -/
def State.partBytes (s : State) (e : Entry) (p : Part) : List Byte := (s.takes e p).map (·.byte)

namespace State.Readable
variable {s : State} {e : Entry} (h : s.Readable e)
include h

theorem takePart_eq (hb : e.bound = false) {p : Part} (hp : p ∈ e.parts) :
    ∃ r, s.takePart e p = some r ∧ r.length = p.width
      ∧ ∀ i < p.width, s.takeByte e (p.addr + BitVec.ofNat 64 i) (s.mustGoHome e) = r[i]? := by
  refine mapM_range_total fun i hi hnone => h.bytes p hp i hi ?_
  rw [State.byteOf, hb, if_neg Bool.false_ne_true, hnone]
  rfl

theorem partBytes_length {p : Part} (hp : p ∈ e.parts) : (s.partBytes e p).length = p.width := by
  rw [State.partBytes, State.takes, List.length_map]
  by_cases hb : e.bound = true
  · rw [if_pos hb, List.length_map, h.early hb p hp]
  · obtain ⟨r, hr, hlen, -⟩ := h.takePart_eq (by simpa using hb) hp
    rw [if_neg hb, hr]
    exact hlen

theorem partBytes_get {p : Part} (hp : p ∈ e.parts) {i : Nat} (hi : i < p.width) : s.byteOf e p i = (s.partBytes e p)[i]? := by
  rw [State.byteOf, State.partBytes, State.takes]
  by_cases hb : e.bound = true
  · rw [if_pos hb, if_pos hb, List.map_map, List.getElem?_map]
    cases p.data[i]? <;> rfl
  · obtain ⟨r, hr, -, hget⟩ := h.takePart_eq (by simpa using hb) hp
    rw [if_neg hb, if_neg hb, hr, hget i hi, List.getElem?_map]
    rfl

theorem taken_eq : s.taken e = e.parts.map fun p => (p, some (s.takes e p)) := by
  refine List.map_congr_left fun p hp => ?_
  rw [State.takes]
  by_cases hb : e.bound = true
  · rw [if_pos hb, if_pos hb]
  · obtain ⟨r, hr, -, -⟩ := h.takePart_eq (by simpa using hb) hp
    rw [if_neg hb, if_neg hb, hr]
    rfl

end State.Readable

theorem lostParts_none (e : Entry) (f : Part → List Taken) : lostParts e (e.parts.map fun p => (p, some (f p))) = [] := by
  have hbad : ((e.parts.map fun p => (p, some (f p))).filter fun x => x.2.isNone) = [] := by
    simp [List.filter_eq_nil_iff]
  rw [lostParts, hbad]
  simp

theorem gotParts_all (e : Entry) (f : Part → List Taken) :
    ((e.parts.map fun p => (p, some (f p))).filterMap fun x => if ([] : List Part).contains x.1 then none else x.2.map fun t => (x.1, t))
      = e.parts.map fun p => (p, f p) := by
  rw [List.filterMap_map, ← List.filterMap_eq_map]
  rfl

/-! ### What a load that lands leaves of the other lanes of its word (R240) -/

/-- An entry as another lane of the word leaves it: with the bytes that both read, where it reads none but those that the other has taken. -/
def Entry.twinned (e : Entry) (bs : List (Nat × Byte)) (x : Entry) : Entry :=
  if x.wid == e.wid && x.kind == e.kind && x.id != e.id && !translated x.path && !x.bound then
    ((x.parts.mapM (x.partFrom bs)).map fun ps => { x with parts := ps }).getD x
  else x

/-- The change that a load that lands makes to the other packets of its word. -/
def Entry.binds (e : Entry) (got : List (Part × List Byte)) (x : Entry) : Entry :=
  if translated e.path || e.bound then x else e.twinned (e.takenAt got) x

theorem Entry.twinned_shape (e : Entry) (bs : List (Nat × Byte)) (x : Entry) :
    e.twinned bs x = { x with parts := (e.twinned bs x).parts } := by
  unfold Entry.twinned
  split
  · cases x.parts.mapM (x.partFrom bs) <;> rfl
  · rfl

theorem Entry.binds_shape (e : Entry) (got : List (Part × List Byte)) (x : Entry) :
    e.binds got x = { x with parts := (e.binds got x).parts } := by
  unfold Entry.binds
  split
  · rfl
  · exact Entry.twinned_shape e _ x

/-- A packet of another word, and the load itself, stay as they are. -/
theorem Entry.binds_other {e x : Entry} (got : List (Part × List Byte)) (h : x.wid ≠ e.wid ∨ x.id = e.id) : e.binds got x = x := by
  have hno : (x.wid == e.wid && x.kind == e.kind && x.id != e.id && !translated x.path && !x.bound) = false := by
    rcases h with h | h <;> simp [h]
  rw [Entry.binds, Entry.twinned, hno]
  simp

theorem Entry.binds_alone {e : Entry} (got : List (Part × List Byte)) (h : translated e.path = true ∨ e.bound = true) (x : Entry) :
    e.binds got x = x := if_pos (by simpa using h)

theorem State.bindTwins_ents (s : State) (e : Entry) (got : List (Part × List Byte)) (hb : e.bound = false) :
    (s.bindTwins e got).ents = s.ents.map (e.binds got) := by
  unfold State.bindTwins
  by_cases ht : translated e.path = true
  · rw [if_pos ht, List.map_congr_left fun x _ => Entry.binds_alone got (.inl ht) x, List.map_id']
  · rw [if_neg ht]
    refine List.map_congr_left fun x _ => ?_
    have hbinds : e.binds got x = e.twinned (e.takenAt got) x := if_neg (by simp [ht, hb])
    rw [hbinds, Entry.twinned]
    split
    · cases x.parts.mapM (x.partFrom (e.takenAt got)) <;> rfl
    · rfl

theorem State.bindTwins_sameHeld (s : State) (e : Entry) (got : List (Part × List Byte)) : SameHeld s (s.bindTwins e got) := by
  unfold State.bindTwins
  split
  · exact SameHeld.refl s
  · exact ⟨rfl, rfl, rfl⟩

theorem foldl_floors {α : Type} {f : State → α → State} (hf : ∀ s a, f s a = { s with floors := (f s a).floors }) (l : List α) (s : State) :
    l.foldl f s = { s with floors := (l.foldl f s).floors } := by
  induction l generalizing s with
  | nil => rfl
  | cons a l ih =>
    rw [List.foldl_cons, ih, hf]

theorem State.noteFloors_floors (s : State) (e : Entry) (got : List (Part × List Taken)) :
    s.noteFloors e got = { s with floors := (s.noteFloors e got).floors } :=
  foldl_floors (fun s _ => foldl_floors (fun s _ => foldl_floors (fun _ _ => rfl) _ s) got s) e.owners s

/-! ### A load lands (R266) -/

/-- The bytes of the lanes of a load. -/
def State.loadBytes (s : State) (e : Entry) : List (Part × List Byte) := e.parts.map fun p => (p, s.partBytes e p)

/-- The scalar result of a load, from its first lane. -/
def Entry.scalarWrites (e : Entry) (got : List (Part × List Byte)) : List (Nat × Word) :=
  (got.head?.map fun x => e.scalarOut x.2).getD []

/-- The state in which the line of a load has been brought: its home slice holds it where its reply comes from there (R116), and the core's
clean copy of it has been used (R115). -/
def State.brings (s : State) (e : Entry) : State :=
  let t := match e.resp with
    | .ok key _ => if !s.fromHome e then s else (s.homeRead e.ctx (noPath e.line) key 1).2
    | _ => s
  if translated e.path then t.touchCopy e.ag.core (classOf e.path) e.ctx (lineOf (noPath e.line)) else t

theorem State.brings_fetchStep (s : State) (e : Entry) : FetchStep s (s.brings e) := by
  have htouch (t : State) (ht : FetchStep s t) :
      FetchStep s (if translated e.path then t.touchCopy e.ag.core (classOf e.path) e.ctx (lineOf (noPath e.line)) else t) := by
    split
    · exact ht.trans ⟨rfl⟩
    · exact ht
  refine htouch _ ?_
  split
  · split
    · exact FetchStep.refl s
    · exact (State.homeRead_readStep s _ _ _ _).fetchStep
  · exact FetchStep.refl s

/-- The state in which a load lands: its floors are noted, and the other lanes of its word have taken what they read of it. -/
def State.landing (s : State) (e : Entry) : State :=
  if e.bound then s.brings e
  else ((s.brings e).noteFloors e (e.parts.map fun p => (p, s.takes e p))).bindTwins e (s.loadBytes e)

theorem State.landing_sameHeld (s : State) (e : Entry) : SameHeld s (s.landing e) := by
  have hbrings := (State.brings_fetchStep s e).sameHeld
  unfold State.landing
  split
  · exact hbrings
  · refine (hbrings.trans ?_).trans (State.bindTwins_sameHeld _ e _)
    rw [State.noteFloors_floors]
    exact ⟨rfl, rfl, rfl⟩

theorem State.landing_ents (s : State) (e : Entry) : (s.landing e).ents = s.ents.map (e.binds (s.loadBytes e)) := by
  have hbrings := (State.brings_fetchStep s e).ents
  unfold State.landing
  by_cases hb : e.bound = true
  · rw [if_pos hb, hbrings, List.map_congr_left fun x _ => Entry.binds_alone _ (.inr hb) x, List.map_id']
  · rw [if_neg hb, State.bindTwins_ents _ _ _ (by simpa using hb), State.noteFloors_floors]
    exact congrArg (List.map _) hbrings

/-- A load whose bytes can all be read lands with them. -/
theorem State.completeLoad_eq {s : State} {e : Entry} (h : s.Readable e) (ha : e.acq = none) :
    s.completeLoad e = (s.landing e).land e (e.wordWrites (s.loadBytes e)) (e.scalarWrites (s.loadBytes e)) := by
  have hws : (if e.dstN == 0 then [] else (e.parts.map fun p => (p, s.takes e p)).flatMap fun x => e.writesOf x.1 (x.2.map (·.byte)))
      = e.wordWrites (s.loadBytes e) := by
    rw [Entry.wordWrites, State.loadBytes, List.flatMap_map, List.flatMap_map]
    rfl
  have hvs : ((e.parts.map fun p => (p, s.takes e p)).head?.map fun x => e.scalarOut (x.2.map (·.byte))).getD []
      = e.scalarWrites (s.loadBytes e) := by
    rw [Entry.scalarWrites, State.loadBytes, List.head?_map, List.head?_map, Option.map_map, Option.map_map]
    rfl
  have hgot : (e.parts.map fun p => (p, s.takes e p)).map (fun x => (x.1, x.2.map (·.byte))) = s.loadBytes e := by
    rw [List.map_map]
    rfl
  unfold State.completeLoad
  dsimp only
  rw [h.taken_eq, lostParts_none, gotParts_all, hws, hvs, hgot]
  dsimp only
  rw [State.acqDone_none ha]
  unfold State.landing State.brings
  cases e.resp <;> rfl

end Sys2Proof.Machine
end

section
namespace Sys2Proof.Machine
open Sys2Proof.Safety

/-! ### The lanes of one word that read the same bytes (R240) -/

/-- The first 16 bytes of a lane on an untranslated path lie at spots of their own. -/
theorem Entry.spot_inj {e : Entry} {key n : Nat} (hpath : translated e.path = false) (hr : e.resp = .ok key n) (a : DWord) {i j : Nat}
    (hi : i < 16) (hj : j < 16) (h : e.spot (a + BitVec.ofNat 64 i) = e.spot (a + BitVec.ofNat 64 j)) : i = j := by
  have hspot (b : DWord) : e.spot b = key + (b - e.line).toNat := by
    rw [Entry.spot, hpath, if_neg Bool.false_ne_true, hr]
  rw [hspot, hspot] at h
  bv_omega

theorem Entry.takenAt_one (e : Entry) (p : Part) (bs : List Byte) :
    e.takenAt [(p, bs)] = bs.zipIdx.map fun b => (e.spot (p.addr + BitVec.ofNat 64 b.2), b.1) := by
  simp [Entry.takenAt]

/-- Of the bytes that a lane has taken, that of a spot is the one that the lane reads there. -/
theorem Entry.takenAt_find {e : Entry} {p : Part} {bs : List Byte} (hinj : ∀ i j, i < bs.length → j < bs.length →
      e.spot (p.addr + BitVec.ofNat 64 i) = e.spot (p.addr + BitVec.ofNat 64 j) → i = j) {i : Nat} (hi : i < bs.length) :
    (((e.takenAt [(p, bs)]).find? fun b => b.1 == e.spot (p.addr + BitVec.ofNat 64 i)).map (·.2)) = bs[i]? := by
  rw [Entry.takenAt_one]
  have hmem : (e.spot (p.addr + BitVec.ofNat 64 i), bs[i]) ∈ bs.zipIdx.map fun b => (e.spot (p.addr + BitVec.ofNat 64 b.2), b.1) :=
    List.mem_map.mpr ⟨(bs[i], i), List.mem_zipIdx_iff_getElem?.mpr (List.getElem?_eq_getElem hi), rfl⟩
  generalize hl : bs.zipIdx.map (fun b => (e.spot (p.addr + BitVec.ofNat 64 b.2), b.1)) = l at hmem ⊢
  cases hfind : l.find? fun b => b.1 == e.spot (p.addr + BitVec.ofNat 64 i) with
  | none => exact absurd (beq_self_eq_true _) (List.find?_eq_none.mp hfind _ hmem)
  | some b =>
    have hb := List.mem_of_find?_eq_some hfind
    rw [← hl] at hb
    obtain ⟨⟨c, j⟩, hc, rfl⟩ := List.mem_map.mp hb
    have hcj : bs[j]? = some c := List.mem_zipIdx_iff_getElem?.mp hc
    have hspot : e.spot (p.addr + BitVec.ofNat 64 j) = e.spot (p.addr + BitVec.ofNat 64 i) := by
      simpa using List.find?_some hfind
    obtain rfl : j = i := hinj j i (List.getElem?_eq_some_iff.mp hcj).1 hi hspot
    exact hcj.symm

/-- Another lane of the word that reads the same bytes takes what the first has taken (R240). -/
theorem Entry.binds_twin {e y : Entry} {p q : Part} {bs : List Byte} {key n : Nat} (hpath : translated e.path = false)
    (hb : e.bound = false) (hr : e.resp = .ok key n) (hlen : bs.length = p.width) (hwidth : p.width ≤ 16) (hwid : y.wid = e.wid)
    (hkind : y.kind = e.kind) (hid : y.id ≠ e.id) (hypath : translated y.path = false) (hparts : y.parts = [q]) (hdata : q.data = [])
    (hqw : q.width = p.width)
    (hsame : ∀ i, i < p.width → y.spot (q.addr + BitVec.ofNat 64 i) = e.spot (p.addr + BitVec.ofNat 64 i)) :
    e.binds [(p, bs)] y = { y with parts := [{ q with data := bs }] } := by
  have hybound : y.bound = false := by simp [Entry.bound, hparts, hdata]
  have hinj : ∀ i j, i < bs.length → j < bs.length →
      e.spot (p.addr + BitVec.ofNat 64 i) = e.spot (p.addr + BitVec.ofNat 64 j) → i = j := fun i j hi hj h =>
    Entry.spot_inj hpath hr p.addr (by omega) (by omega) h
  have hbytes : (List.range q.width).mapM (fun i =>
      ((e.takenAt [(p, bs)]).find? fun b => b.1 == y.spot (q.addr + BitVec.ofNat 64 i)).map (·.2)) = some bs := by
    rw [hqw, ← hlen]
    refine mapM_range_eq_some fun i hi => ?_
    rw [hsame i (by omega)]
    exact Entry.takenAt_find hinj hi
  have hpart : y.partFrom (e.takenAt [(p, bs)]) q = some { q with data := bs } := by
    rw [Entry.partFrom, hbytes]
    rfl
  have hmap : y.parts.mapM (y.partFrom (e.takenAt [(p, bs)])) = some [{ q with data := bs }] := by
    rw [hparts, List.mapM_cons, hpart]
    rfl
  rw [Entry.binds, if_neg (by simp [hpath, hb]), Entry.twinned, if_pos (by simp [hwid, hkind, hid, hypath, hybound]), hmap]
  rfl

/-! ### A load that lands charges no other packet (R158) -/

theorem sumOver_filter_map {l : List Entry} {f : Entry → Entry} {p : Entry → Bool} {F : Entry → Nat} (hp : ∀ x, p (f x) = p x)
    (hF : ∀ x, F (f x) = F x) : sumOver ((l.map f).filter p) F = sumOver (l.filter p) F := by
  rw [List.filter_map, sumOver, List.map_map, show p ∘ f = p from funext hp, show F ∘ f = F from funext hF]
  rfl

/-- What lands from a state in which other packets have taken bytes, lands from the state before (R158, R240). -/
theorem setLands_of_binds {s u t : State} {e : Entry} {g h : Group} {f : Entry → Entry} (hl : SetLands u t e g h)
    (hu : u.ents = s.ents.map f) (hgroups : u.groups = s.groups) (hf : ∀ x, f x = { x with parts := (f x).parts }) :
    SetLands s t e g h := by
  have hid (x : Entry) : (f x).id = x.id := by rw [hf]
  have hag (x : Entry) : (f x).ag = x.ag := by rw [hf]
  have htag (x : Entry) : (f x).tag = x.tag := by rw [hf]
  have hesc (x : Entry) : (f x).esc = x.esc := by rw [hf]
  refine ⟨hl.frame, hl.set, fun hone z hz => ?_⟩
  have hone' : u.ents.countP (fun x => x.id == e.id) = 1 := by
    rw [hu, List.countP_map, ← hone]
    exact List.countP_congr fun x _ => by simp [hid]
  obtain ⟨hused, heabr, hwindow⟩ := hl.charges hone' z hz
  have hused' : u.escUsed e.ag.core = s.escUsed e.ag.core := by
    rw [State.escUsed, hu]
    exact sumOver_filter_map (fun x => by rw [hag]) fun x => by rw [hesc]
  have heabr' : u.eabr e.ag.core e.ag.slot = s.eabr e.ag.core e.ag.slot := by
    have hgroup : u.group e.ag.core e.ag.slot = s.group e.ag.core e.ag.slot := by rw [State.group, State.group, hgroups]
    rw [State.eabr, State.eabr, State.entsOf, State.entsOf, hgroup, hu, List.countP_filter, List.countP_filter, List.countP_map]
    exact List.countP_congr fun x _ => by simp [Entry.inGroup, hag, htag, hesc]
  have hwindow' (i : Nat) : u.windowUsed (e.ag.core / 8) i = s.windowUsed (e.ag.core / 8) i := by
    rw [State.windowUsed, hu]
    exact sumOver_filter_map (fun x => by rw [hag]) fun x => by rw [hesc]
  rw [hused'] at hused
  rw [heabr'] at heabr
  exact ⟨hused, heabr, fun i hi => by rw [← hwindow']; exact hwindow i hi⟩

/-! ### The reply of a load (R266) -/

theorem State.replied_byteOf (s : State) (e : Entry) (p : Part) (i : Nat) : (s.replied e).byteOf e p i = s.byteOf e p i := by
  unfold State.replied
  split
  · have hgo : (s.noteReply e.writer e.line).mustGoHome e = s.mustGoHome e := rfl
    unfold State.byteOf
    rw [hgo, State.noteReply, State.noteWriter_takeByte]
  · rfl

theorem State.Readable.replied {s : State} {e : Entry} (h : s.Readable e) : (s.replied e).Readable e :=
  ⟨fun p hp i hi => by rw [State.replied_byteOf]; exact h.bytes p hp i hi, h.early⟩

theorem State.reply_load {s : State} {e : Entry} {key n : Nat} (hk : e.kind = .load) (hr : e.resp = .ok key n) :
    s.reply e = (s.replied e).completeLoad e := by
  show (if e.kind == .prefetch then _ else _) = _
  rw [if_neg (by simp [hk]), hr]
  dsimp only
  rw [if_neg (by simp [hk])]
  rfl

/-- What the lanes of a load bring: the bytes that the sources hold as its reply lands. -/
def State.broughtBytes (s : State) (e : Entry) : List (Part × List Byte) := (s.replied e).loadBytes e

section
variable {s : State} {e : Entry} (h : s.Readable e)
include h

theorem State.Readable.brought_mem {x : Part × List Byte} (hx : x ∈ s.broughtBytes e) : x.1 ∈ e.parts ∧ x.2.length = x.1.width
    ∧ ∀ i < x.1.width, s.byteOf e x.1 i = x.2[i]? := by
  obtain ⟨p, hp, rfl⟩ := List.mem_map.mp hx
  refine ⟨hp, h.replied.partBytes_length hp, fun i hi => ?_⟩
  rw [← State.replied_byteOf]
  exact h.replied.partBytes_get hp hi

/-- The reply of a load lands its lanes with the bytes that they take. -/
theorem State.Readable.reply_landsIn {key n : Nat} (hk : e.kind = .load) (hr : e.resp = .ok key n) (ha : e.acq = none)
    (here : HeldHere s e) : ∃ u, u.groups = s.groups ∧ u.ents = s.ents.map (e.binds (s.broughtBytes e))
      ∧ LandsIn s u (s.reply e) e (e.wordWrites (s.broughtBytes e)) (e.scalarWrites (s.broughtBytes e)) := by
  have hstep := State.replied_fetchStep s e
  have hheld := hstep.sameHeld.trans (State.landing_sameHeld (s.replied e) e)
  refine ⟨_, hheld.groups, ?_, ?_⟩
  · rw [State.landing_ents, hstep.ents]
    rfl
  · rw [State.reply_load hk hr, State.completeLoad_eq h.replied ha]
    exact State.land_landsIn hheld here _ _

end

/-- Word `j` of the register image of a lane: its bits are those of the lane's bytes (R237). -/
def State.Images (s : State) (e : Entry) (p : Part) (j : Nat) (v : Word) : Prop :=
  ∀ i, i < 32 → 8 * (4 * j) + i < 8 * p.width → ∀ b, s.byteOf e p (4 * j + i / 8) = some b → v.getLsbD i = b.getLsbD (i % 8)

theorem State.images_of_word {s : State} {e : Entry} {p : Part} {bs : List Byte} {j : Nat} {v : Word} (hlen : bs.length = p.width)
    (hbytes : ∀ i < p.width, s.byteOf e p i = bs[i]?) (hw : (partWords e.op e.fn bs)[j]? = some v) : s.Images e p j v := by
  intro i hi hin b hb
  rw [partWords_bit e.op e.fn bs v hw hi (by omega), List.getD_eq_getElem?_getD, ← hbytes _ (by omega), hb]
  rfl

/-- A short access extends with zeros, or with its sign where it is a signed load (R237). -/
theorem partWords_extends (op fn : Nat) {bs : List Byte} {j : Nat} {v : Word} (hpos : 0 < bs.length) (hshort : bs.length < 4)
    (hw : (partWords op fn bs)[j]? = some v) {i : Nat} (hlo : 8 * bs.length ≤ i) (hi : i < 32) :
    v.getLsbD i = (decide (op = 0x58 ∨ op = 0x5A) && decide (fn = 1 ∨ fn = 3) && v.getLsbD (8 * bs.length - 1)) := by
  have hone : partWords op fn bs = [v] := by
    rw [partWords_short op fn (by omega)] at hw ⊢
    obtain rfl : j = 0 := by simpa using (List.getElem?_eq_some_iff.mp hw).1
    simpa using hw
  rw [partWords_short_bit op fn hpos (by omega) v hone hi, if_neg (by omega),
    partWords_short_bit op fn hpos (by omega) v hone (by omega), if_pos (by omega)]
  simp [Bool.decide_or, beq_eq_decide]

/-- A scalar load's word holds its four bytes. -/
theorem State.images_of_scalar {s : State} {e : Entry} {p : Part} {bs : List Byte} (hbytes : ∀ i < p.width, s.byteOf e p i = bs[i]?) :
    s.Images e p 0 (BitVec.ofNat 32 (ofBytes bs)) := by
  intro i hi hin b hb
  have hget : bs[i / 8]? = some b := by
    rw [← hbytes _ (by omega), ← hb]
    simp
  rw [BitVec.getLsbD_ofNat, decide_eq_true hi, Bool.true_and, ofBytes_testBit, List.getD_eq_getElem?_getD, hget]
  rfl

theorem Entry.scalarWrites_none {e : Entry} (got : List (Part × List Byte)) (h : e.sdst = none) : e.scalarWrites got = [] := by
  cases got with
  | nil => rfl
  | cons x got =>
    show e.scalarOut x.2 = []
    rw [Entry.scalarOut, h]

theorem Entry.scalarWrites_cons {e : Entry} (x : Part × List Byte) (got : List (Part × List Byte)) {d : Nat} (h : e.sdst = some d) :
    e.scalarWrites (x :: got) = [(d, BitVec.ofNat 32 (ofBytes x.2))] := by
  show e.scalarOut x.2 = _
  rw [Entry.scalarOut, h]

end Sys2Proof.Machine
end

section
namespace Sys2Proof.Machine
open Sys2Proof.Safety

/-! ### What a load's reply comes to -/

/-- A load that has taken its bytes early, or may complete and whose reply comes next. -/
def State.Lands (s : State) (e : Entry) : Prop := e.bound = true ∨ s.Free e ∧ (s.fromHome e = false ∨ s.replyNext e = true)

theorem State.Lands.replyOk {s : State} {e : Entry} {key n : Nat} (h : s.Lands e) (hk : e.kind = .load) (hr : e.resp = .ok key n)
    (hp : s.probeWaits e = false) : s.replyOk e = true := by
  have hcomplete : s.completeOk e = true := (State.completeOk_iff s e).mpr (h.imp_right And.left)
  have hnext : (!s.fromHome e || s.replyNext e) = true := by
    rcases h with hb | ⟨-, hh | hn⟩
    · simp [State.fromHome, hb]
    · simp [hh]
    · simp [hn]
  rw [State.replyOk_load hr hk, hcomplete, hp, hnext]
  rfl

theorem State.replyOk_not_free {s : State} {e : Entry} {key n : Nat} (hk : e.kind = .load) (hr : e.resp = .ok key n)
    (hb : e.bound = false) (h : ¬s.Free e) : s.replyOk e = false := by
  have hcomplete : s.completeOk e = false := by
    refine Bool.eq_false_iff.mpr fun hc => ?_
    rcases (State.completeOk_iff s e).mp hc with hb' | hfree
    · rw [hb] at hb'
      cases hb'
    · exact h hfree
  rw [State.replyOk_load hr hk, hcomplete]
  rfl

theorem State.replyOk_not_next {s : State} {e : Entry} {key n : Nat} (hk : e.kind = .load) (hr : e.resp = .ok key n)
    (hhome : s.fromHome e = true) (h : s.replyNext e = false) : s.replyOk e = false := by
  rw [State.replyOk_load hr hk, hhome, h]
  simp

theorem State.fromHome_translated {s : State} {e : Entry} (h : s.fromHome e = true) : translated e.path = true := by
  simp only [State.fromHome, Bool.and_eq_true] at h
  exact h.1.2

theorem Entry.sentAt_load {e : Entry} {key n : Nat} (hk : e.kind = .load) (hr : e.resp = .ok key n) : e.sentAt = none := by
  rw [Entry.sentAt, hr, hk]
  rfl

/-- The lanes of a load fit the registers of its results. -/
theorem State.Readable.fits {s : State} {e : Entry} (h : s.Readable e) (hlanes : e.parts.Pairwise fun p q => p.lane ≠ q.lane)
    (hparts : ∀ p ∈ e.parts, p.lane < 32 ∧ p.width ∈ [1, 2, 4, 8, 16] ∧ (e.dstN > 0 → e.dstN = if p.width ≤ 4 then 1 else p.width / 4)) :
    e.Fits (s.broughtBytes e) where
  parts := by
    rw [State.broughtBytes, State.loadBytes, List.map_map]
    exact List.map_id _
  lanes := hlanes
  small p hp := (hparts p hp).1
  words x hx hn := by
    obtain ⟨hp, hlen, -⟩ := h.brought_mem hx
    rw [hlen]
    exact (hparts x.1 hp).2.2 hn

theorem State.Readable.brought_part {s : State} {e : Entry} (h : s.Readable e) {p : Part} (hp : p ∈ e.parts) :
    ∃ bs, (p, bs) ∈ s.broughtBytes e ∧ bs.length = p.width ∧ ∀ i < p.width, s.byteOf e p i = bs[i]? := by
  have hx : (p, (s.replied e).partBytes e p) ∈ s.broughtBytes e := List.mem_map.mpr ⟨p, hp, rfl⟩
  obtain ⟨-, hlen, hget⟩ := h.brought_mem hx
  exact ⟨_, hx, hlen, hget⟩

theorem State.Readable.brought_first {s : State} {e : Entry} (h : s.Readable e) {p : Part} {ps : List Part} (hp : e.parts = p :: ps) :
    ∃ bs, s.broughtBytes e = (p, bs) :: ps.map (fun q => (q, (s.replied e).partBytes e q)) ∧ ∀ i < p.width, s.byteOf e p i = bs[i]? := by
  have hx : s.broughtBytes e = (p, (s.replied e).partBytes e p) :: ps.map fun q => (q, (s.replied e).partBytes e q) := by
    rw [State.broughtBytes, State.loadBytes, hp]
    rfl
  obtain ⟨-, -, hget⟩ := h.brought_mem (x := (p, (s.replied e).partBytes e p)) (by simp [hx])
  exact ⟨_, hx, hget⟩

/-- The reply of a load brings back its escort set, whatever other lanes of its word take with it (R158, R240). -/
theorem LandsIn.setLands_load {s u t : State} {e : Entry} {got : List (Part × List Byte)} {ws : List RegWrite} {vs : List (Nat × Word)}
    (h : LandsIn s u t e ws vs) (hug : u.groups = s.groups) (huents : u.ents = s.ents.map (e.binds got)) (here : HeldHere s e)
    (he : e ∈ s.ents) (hws : e.Within ws) : SetLands s t e (s.group e.ag.core e.ag.slot) (t.group e.ag.core e.ag.slot) := by
  have heu : e ∈ u.ents := by
    rw [huents]
    exact List.mem_map.mpr ⟨e, he, Entry.binds_other _ (.inr rfl)⟩
  have hgu : u.group e.ag.core e.ag.slot = s.group e.ag.core e.ag.slot := by rw [State.group, State.group, hug]
  have hlands := setLands_of_landed e.dstN heu (hgu ▸ here.tag) h.ents (hgu ▸ h.group) hws
  rw [hgu] at hlands
  exact setLands_of_binds hlands huents hug (Entry.binds_shape e got)

/-- What is in flight after a load has landed: the other packets, with what those of its word have taken with it (R240). -/
theorem LandsIn.mem_ents_load {s u t : State} {e : Entry} {got : List (Part × List Byte)} {ws : List RegWrite} {vs : List (Nat × Word)}
    (h : LandsIn s u t e ws vs) (huents : u.ents = s.ents.map (e.binds got)) (x : Entry) :
    x ∈ t.ents ↔ ∃ y ∈ s.ents, y.id ≠ e.id ∧ x = e.binds got y := by
  have hid (y : Entry) : (e.binds got y).id = y.id := by rw [Entry.binds_shape]
  rw [h.mem_ents, huents, List.mem_map]
  constructor
  · rintro ⟨⟨y, hy, rfl⟩, hne⟩
    exact ⟨y, hy, hid y ▸ hne, rfl⟩
  · rintro ⟨y, hy, hne, rfl⟩
    exact ⟨⟨y, hy, rfl⟩, (hid y).symm ▸ hne⟩

/-- Nothing else changes where no other lane of the word can take what the load takes. -/
theorem LandsIn.mem_ents_alone {s u t : State} {e : Entry} {got : List (Part × List Byte)} {ws : List RegWrite} {vs : List (Nat × Word)}
    (h : LandsIn s u t e ws vs) (huents : u.ents = s.ents.map (e.binds got))
    (halone : translated e.path = true ∨ e.bound = true ∨ ∀ x ∈ s.ents, x.wid = e.wid → x.id = e.id) (x : Entry) :
    x ∈ t.ents ↔ x ∈ s.ents ∧ x.id ≠ e.id := by
  have hsame : ∀ y ∈ s.ents, e.binds got y = y := by
    intro y hy
    rcases halone with hpath | hb | hword
    · exact Entry.binds_alone _ (.inl hpath) y
    · exact Entry.binds_alone _ (.inr hb) y
    · exact Entry.binds_other _ ((em (y.wid = e.wid)).symm.imp_right (hword y hy))
  rw [h.mem_ents_load huents]
  constructor
  · rintro ⟨y, hy, hid, rfl⟩
    rw [hsame y hy]
    exact ⟨hy, hid⟩
  · rintro ⟨hx, hid⟩
    exact ⟨x, hx, hid, (hsame x hx).symm⟩

/-- Another lane of the word that reads the same bytes has them, once the load has landed (R240). -/
theorem State.Readable.twin_mem {s u t : State} {e : Entry} (h : s.Readable e) {ws : List RegWrite} {vs : List (Nat × Word)}
    (hin : LandsIn s u t e ws vs) (huents : u.ents = s.ents.map (e.binds (s.broughtBytes e))) {key n : Nat} (hr : e.resp = .ok key n)
    (hpath : translated e.path = false) (hb : e.bound = false) {p : Part} (hp : e.parts = [p]) (hwidth : p.width ∈ [1, 2, 4, 8, 16])
    {y : Entry} (hy : y ∈ s.ents) {q : Part} (hq : y.parts = [q]) (hwid : y.wid = e.wid) (hkind : y.kind = e.kind) (hid : y.id ≠ e.id)
    (hypath : translated y.path = false) (hdata : q.data = []) (hqw : q.width = p.width)
    (hsame : ∀ i, i < p.width → y.spot (q.addr + BitVec.ofNat 64 i) = e.spot (p.addr + BitVec.ofNat 64 i)) :
    ∃ bs, bs.length = p.width ∧ (∀ i, i < p.width → s.byteOf e p i = bs[i]?) ∧ { y with parts := [{ q with data := bs }] } ∈ t.ents := by
  have hone : s.broughtBytes e = [(p, (s.replied e).partBytes e p)] := by
    rw [State.broughtBytes, State.loadBytes, hp]
    rfl
  obtain ⟨-, hlen, hget⟩ := h.brought_mem (x := (p, (s.replied e).partBytes e p)) (by simp [hone])
  have hsmall : p.width ≤ 16 := by
    simp only [List.mem_cons, List.not_mem_nil, or_false] at hwidth
    omega
  refine ⟨_, hlen, hget, (hin.mem_ents_load huents _).mpr ⟨y, hy, hid, ?_⟩⟩
  rw [hone]
  exact (Entry.binds_twin hpath hb hr hlen hsmall hwid hkind hid hypath hq hdata hqw hsame).symm

/-- The register of a lane's word holds its bytes, extended where they are fewer than four (R237). -/
theorem State.Readable.landed_images {s : State} {e : Entry} (h : s.Readable e) (hfits : e.Fits (s.broughtBytes e)) (g : Group)
    (vs : List (Nat × Word)) {p : Part} (hp : p ∈ e.parts) (hpos : 0 < p.width) {j : Nat} (hj : j < e.dstN) :
    let v := (g.landed e (e.wordWrites (s.broughtBytes e)) vs).vreg (e.dst + j) p.lane
    s.Images e p j v ∧ (p.width < 4 → ∀ i, 8 * p.width ≤ i → i < 32 →
      v.getLsbD i = (decide (e.op = 0x58 ∨ e.op = 0x5A) && decide (e.fn = 1 ∨ e.fn = 3) && v.getLsbD (8 * p.width - 1))) := by
  obtain ⟨bs, hx, hlen, hget⟩ := h.brought_part hp
  have hw := hfits.landed_word g vs hx hj
  refine ⟨State.images_of_word hlen hget hw, fun hshort i hlo hi => ?_⟩
  rw [← hlen] at hlo hshort hpos ⊢
  exact partWords_extends e.op e.fn hpos hshort hw hlo hi

/-- A scalar load lands in the splits that own it (R264). -/
theorem State.Readable.landed_scalar {s : State} {e : Entry} (h : s.Readable e) (g : Group) (ws : List RegWrite) {n : Nat} (hn : n < 8) :
    let h := g.landed e ws (e.scalarWrites (s.broughtBytes e))
    ((g.split n).status ≠ .absent → (g.split n).uid ∈ e.owners → ∀ d p ps, e.sdst = some d → e.parts = p :: ps →
      (∀ q, q ≠ d → (h.split n).sreg q = (g.split n).sreg q) ∧ s.Images e p 0 ((h.split n).sreg d))
    ∧ ((g.split n).uid ∉ e.owners ∨ e.sdst = none → h.split n = g.split n) := by
  dsimp only
  rw [Group.landed_split]
  refine ⟨fun hstatus howner d p ps hd hps => ?_, fun hnot => ?_⟩
  · obtain ⟨bs, hbrought, hget⟩ := h.brought_first hps
    rw [if_pos ⟨⟨hn, hstatus⟩, howner⟩, hbrought, Entry.scalarWrites_cons _ _ hd, List.foldl_cons, List.foldl_nil, Split.sreg_setS_same]
    exact ⟨fun q hq => (Split.sreg_setS _ _ _ _).trans (if_neg (Ne.symm hq)), State.images_of_scalar hget⟩
  · rcases hnot with howner | hd
    · rw [if_neg fun h => howner h.2]
    · rw [Entry.scalarWrites_none _ hd, List.foldl_nil, ite_self]

theorem State.replied_other (s : State) {e : Entry} (h : e.kind ≠ .load) :
    s.replied e = if translated e.path then s.noteReply e.writer e.line else s := by
  have hk : (e.kind != .load || s.fromHome e) = true := by simp [h]
  rw [State.replied, hk, Bool.and_true]

/-- The state `u` in which a prefetch has been answered, once it is no longer in flight. -/
def State.afterPrefetch (u : State) (e : Entry) : State :=
  match e.resp with
  | .ok key _ => if e.fn == 0 then u.fill e.ag.core (classOf e.path) e.ctx e.line else (u.homeRead e.ctx (noPath e.line) key 1).2
  | _ => u

section
variable {u : State} {e : Entry} {key n : Nat} (h : e.resp = .ok key n)
include h

theorem State.afterPrefetch_fill (hfn : e.fn = 0) : u.afterPrefetch e = u.fill e.ag.core (classOf e.path) e.ctx e.line := by
  rw [State.afterPrefetch, h]
  exact if_pos (by simp [hfn])

theorem State.afterPrefetch_read (hfn : e.fn ≠ 0) : u.afterPrefetch e = (u.homeRead e.ctx (noPath e.line) key 1).2 := by
  rw [State.afterPrefetch, h]
  exact if_neg (by simpa using hfn)

end

theorem State.afterPrefetch_fetchStep (u : State) (e : Entry) : FetchStep u (u.afterPrefetch e) := by
  unfold State.afterPrefetch
  split
  · split
    · exact State.fill_fetchStep _ _ _ _ _
    · exact (State.homeRead_readStep _ _ _ _ _).fetchStep
  · exact FetchStep.refl _

/-- The state in which the reply of a prefetch has come, and the prefetch is no longer in flight. -/
def State.prefetched (s : State) (e : Entry) : State :=
  (if translated e.path then s.noteReply e.writer e.line else s).dropEnt e.id

theorem ReadStep.copies {s t : State} (h : ReadStep s t) : t.copies = s.copies := by rw [h.frame]

theorem State.prefetched_copies (s : State) (e : Entry) : (s.prefetched e).copies = s.copies := by
  unfold State.prefetched
  split <;> rfl

theorem State.reply_prefetch_eq {s : State} {e : Entry} (h : e.kind = .prefetch) : s.reply e = (s.prefetched e).afterPrefetch e := by
  rw [State.reply_prefetch h, State.replied_other s (by simp [h])]
  rfl

theorem State.reply_prefetch_frame {s : State} {e : Entry} (h : e.kind = .prefetch) :
    SameHeld s (s.reply e) ∧ (s.reply e).ents = (s.dropEnt e.id).ents := by
  have hstep := State.afterPrefetch_fetchStep (s.prefetched e) e
  rw [State.reply_prefetch_eq h]
  have hdrop : SameHeld s (s.prefetched e) ∧ (s.prefetched e).ents = (s.dropEnt e.id).ents := by
    unfold State.prefetched
    split <;> exact ⟨⟨rfl, rfl, rfl⟩, rfl⟩
  exact ⟨hdrop.1.trans hstep.sameHeld, hstep.ents.trans hdrop.2⟩

/-- A part of an atomic fits the registers of its results. -/
theorem Entry.fits_data {e : Entry} (hlanes : e.parts.Pairwise fun p q => p.lane ≠ q.lane)
    (hparts : ∀ p ∈ e.parts, p.lane < 32 ∧ p.data.length = p.width ∧ (p.width = 4 ∨ p.width = 8) ∧ (0 < e.dstN → e.dstN = p.width / 4)) :
    e.Fits (e.parts.map fun p => (p, p.data)) where
  parts := by
    rw [List.map_map]
    exact List.map_id _
  lanes := hlanes
  small p hp := (hparts p hp).1
  words x hx hn := by
    obtain ⟨p, hp, rfl⟩ := List.mem_map.mp hx
    obtain ⟨-, hlen, hwidth, hdst⟩ := hparts p hp
    rw [hdst hn, hlen]
    rcases hwidth with hw | hw <;> rw [hw] <;> rfl

end Sys2Proof.Machine

namespace Sys2Proof.Proofs
open Sys2Proof.Machine Sys2Proof.Safety

/-- Settles O39: the order conditions decide when a reply waits, and a reply that lands writes the bytes that its lanes take. -/
theorem loadCompletes : Obligations.LoadCompletes := by
  refine ⟨?load, ?sources, ?atomic, ?bad, ?prefetch, ?heatr⟩
  case load =>
    intro s id e hent hk core slot g older meets free byte image
    obtain ⟨he, rfl⟩ := State.ent_eq_some hent
    have hkh : e.kind ≠ .heatr := by simp [hk]
    refine ⟨fun hr => completeLoad_waits hent hkh (State.replyOk_none hr),
      fun key n hr hb hfree => completeLoad_waits hent hkh (State.replyOk_not_free hk hr hb hfree),
      fun key n hr hb hhome => ⟨fun hn => completeLoad_waits hent hkh (State.replyOk_not_next hk hr hhome hn),
        fun x hx hid hcl hxp f sent hbad => ⟨fun howner hslice hearly => ?_, fun hbefore fx nx hinj hne hold => ?_⟩⟩, ?_⟩
    · exact completeLoad_waits hent hkh (State.replyOk_not_next hk hr hhome
        (State.replyNext_behind (State.fromHome_translated hhome) (Entry.sentAt_load hk hr) hx hid hcl hxp hbad howner hslice hearly))
    · exact completeLoad_waits hent hkh (State.replyOk_not_next hk hr hhome
        (State.replyNext_stamp (State.fromHome_translated hhome) hx hid hcl hxp hbad hbefore hinj hne hold))
    · intro key n hr hlands hearly hprobe ha hlive htag hbytes hsaved hlanes hparts
      have hread : s.Readable e := ⟨hbytes, hearly⟩
      have here : HeldHere s e := ⟨hlive, htag, hsaved⟩
      have hfits := hread.fits hlanes hparts
      obtain ⟨u, hug, huents, hin⟩ := hread.reply_landsIn hk hr ha here
      refine ⟨s.reply e, completeLoad_lands hent hkh (State.Lands.replyOk hlands hk hr hprobe), hin.bytes, hin.mem_ents_alone huents,
        fun x hx => ?_, fun hpath hb p hp y hy q hq hwid hyk hyid hypath hdata hqw hsame => ?_, hin.others, ?_⟩
      · obtain ⟨y, hy, hid, rfl⟩ := (hin.mem_ents_load huents x).mp hx
        exact ⟨y, hy, hid, Entry.binds_shape e _ y, fun hwid => Entry.binds_other _ (.inl hwid)⟩
      · exact hread.twin_mem hin huents hr hpath hb hp (hparts p (by simp [hp])).2.1 hy hq hwid (hyk.trans hk.symm) hyid hypath hdata hqw hsame
      · intro h
        have hh : h = g.landed e (e.wordWrites (s.broughtBytes e)) (e.scalarWrites (s.broughtBytes e)) := hin.group
        refine ⟨?_, ?_, hin.setLands_load hug huents here he hfits.within, fun p hp j hj => ?_, fun n hn => ?_⟩
        · rw [hh]
          exact (Group.landed_step g e _ _).frame
        · rw [hh]
          exact Group.landed_rowsKept g e _ _
        · have hpos : 0 < p.width := Nat.pos_of_ne_zero fun h0 => by simpa [h0] using (hparts p hp).2.1
          rw [hh]
          exact hread.landed_images hfits g _ hp hpos hj
        · obtain ⟨howned, hkept⟩ := hread.landed_scalar g (e.wordWrites (s.broughtBytes e)) hn
          rw [hh]
          exact ⟨fun hstatus howner d p ps hd hps _ => howned hstatus howner d p ps hd hps, hkept⟩
  case sources =>
    intro s e a noCopy
    refine ⟨fun t h => State.takeByte_source1 h, fun h1 t h2 => State.takeByte_source2 h1 h2,
      fun h1 h2 => ⟨fun t h3 => State.takeByte_source3 h1 h2 h3, fun h3 => State.takeByte_source4 h1 h2 h3⟩,
      fun hp => ⟨State.source1_plain _ hp, State.source2_pathed _ ?_⟩,
      fun hp => ⟨State.source2_pathed _ ?_, State.source3_untranslated ?_⟩,
      fun hp x hx hk hc hsave hyoung => State.takeByte_store hp hx hk hc hsave hyoung⟩
    · omega
    · omega
    · rcases hp with hp | hp <;> rw [hp] <;> rfl
  case atomic =>
    intro s id e hent hk g key n hr
    obtain ⟨he, rfl⟩ := State.ent_eq_some hent
    have hkh : e.kind ≠ .heatr := by simp [hk]
    refine ⟨fun hw => completeLoad_waits hent hkh ?_, fun hlevel hn ha hlive htag hsaved hlanes hparts hop hop' => ?_⟩
    · rw [State.replyOk_atomic hr hk]
      rcases hw with hw | hw <;> simp [hw]
    · have here : HeldHere s e := ⟨hlive, htag, hsaved⟩
      have hfits := Entry.fits_data hlanes hparts
      have hstep := State.replied_fetchStep s e
      have hin := State.land_landsIn hstep.sameHeld here (e.wordWrites (e.parts.map fun p => (p, p.data))) []
      have hok : s.replyOk e = true := by
        rw [State.replyOk_atomic hr hk, hn]
        simp [hlevel]
      rw [← State.reply_atomic hk hr ha] at hin
      have hgroup := hin.group
      refine ⟨s.reply e, completeLoad_lands hent hkh hok, hin.bytes, fun x => ?_, hin.others, ?_⟩
      · rw [hin.mem_ents, hstep.ents]
      · intro h
        have hh : h = g.landed e (e.wordWrites (e.parts.map fun p => (p, p.data))) [] := hgroup
        refine ⟨?_, ?_, fun n hn => ?_, hin.setLands hstep.ents here he e.dstN hfits.within, fun p hp j hj => ?_⟩
        · rw [hh]
          exact (Group.landed_step g e _ _).frame
        · rw [hh]
          exact Group.landed_rowsKept g e _ _
        · rw [hh, Group.landed_split, List.foldl_nil, ite_self]
        · rw [hh]
          exact partWords_toNat e.op e.fn p.data _ (hfits.landed_word g [] (List.mem_map.mpr ⟨p, hp, rfl⟩) hj) hop hop'
  case bad =>
    intro s e he g hlive htag hsaved t h
    have here : HeldHere s e := ⟨hlive, htag, hsaved⟩
    have hin := State.landBad_landsIn here
    exact ⟨hin.bytes, hin.mem_ents, hin.setLands rfl here he 0 (fun w hw => by cases hw)⟩
  case prefetch =>
    intro s id e hent hk u line cls
    obtain ⟨he, rfl⟩ := State.ent_eq_some hent
    have hkh : e.kind ≠ .heatr := by simp [hk]
    refine ⟨fun hw => completeLoad_waits hent hkh ?_, fun hr hn => ?_⟩
    · by_cases hr : e.resp = .none
      · exact State.replyOk_none hr
      · exact (State.replyOk_prefetch hr hk).trans (hw.resolve_left hr)
    · have hok : s.replyOk e = true := (State.replyOk_prefetch hr hk).trans hn
      obtain ⟨hheld, hents⟩ := State.reply_prefetch_frame (s := s) hk
      have hreply : s.reply e = u.afterPrefetch e := State.reply_prefetch_eq hk
      refine ⟨s.reply e, completeLoad_lands hent hkh hok, fun k => congrArg (Memory.read · k) hheld.mem, hheld.groups, fun x => ?_, ?_, ?_⟩
      · rw [hents]
        exact State.mem_dropEnt s e.id x
      · rintro ⟨f, n, hbad⟩
        rw [hreply, State.afterPrefetch, hbad]
      · intro key n hkey
        refine ⟨fun hfn k l bs hlook hread hcls => ?_, fun hfn => ?_⟩
        · rw [hreply, State.afterPrefetch_fill hkey hfn]
          exact State.fill_copy hlook hread hcls
        · rw [hreply, State.afterPrefetch_read hkey hfn]
          exact ⟨(State.homeRead_readStep u _ _ _ _).copies.trans (State.prefetched_copies s e), State.homeRead_inL2⟩
  case heatr =>
    intro s id e hent hk hesc hown
    obtain ⟨he, rfl⟩ := State.ent_eq_some hent
    refine ⟨fun hw => heatr_waits hent hk ?_, fun hreq hn hlive htag hsaved => ?_⟩
    · rcases hw with hw | hw | hw
      · exact .inl hw
      · exact .inl (State.requestOk_homeReady (by simp [hk]) hw)
      · exact .inr hw
    · obtain ⟨u, hu, hin⟩ := State.performHeatr_landsIn (s := s) (e := e) ⟨hlive, htag, hsaved⟩
      refine ⟨_, heatr_lands hent hk hreq hn, hin.bytes, fun x => ?_, fun n d hn8 hstatus howner hd => ?_⟩
      · rw [hin.mem_ents, hu]
      · rw [hin.group, Group.landed_split, if_pos ⟨⟨hn8, hstatus⟩, howner⟩, hd]
        exact Split.sreg_setS_same _ _ _

end Sys2Proof.Proofs
end

section
namespace Sys2Proof

/-! ### Words put together from their fields (R18, R23) -/

/-- A field is two parts put together when its two halves are the parts. -/
theorem extractLsb'_eq_append_iff {k m n : Nat} (w : BitVec k) (lo : Nat) (x : BitVec m) (y : BitVec n) :
    w.extractLsb' lo (m + n) = x ++ y ↔ w.extractLsb' (lo + n) m = x ∧ w.extractLsb' lo n = y := by
  rw [← BitVec.extractLsb'_append_extractLsb'_eq_extractLsb' (start₂ := lo + n) rfl]
  constructor
  · intro h
    have hx := congrArg (BitVec.extractLsb' n m) h
    have hy := congrArg (BitVec.extractLsb' 0 n) h
    rw [BitVec.extractLsb'_append_eq_left, BitVec.extractLsb'_append_eq_left] at hx
    rw [BitVec.extractLsb'_append_eq_right, BitVec.extractLsb'_append_eq_right] at hy
    exact ⟨hx, hy⟩
  · rintro ⟨rfl, rfl⟩
    rfl

theorem eq_append_iff {m n : Nat} (w : BitVec (m + n)) (x : BitVec m) (y : BitVec n) :
    w = x ++ y ↔ w.extractLsb' n m = x ∧ w.extractLsb' 0 n = y := by
  have h := extractLsb'_eq_append_iff w 0 x y
  rwa [BitVec.extractLsb'_eq_self, Nat.zero_add] at h

theorem extractLsb'_eq_ofBool_iff {k : Nat} (w : BitVec k) (lo : Nat) (b : Bool) :
    w.extractLsb' lo 1 = BitVec.ofBool b ↔ w.getLsbD lo = b := by
  rw [BitVec.getLsbD_eq_extractLsb']
  generalize w.extractLsb' lo 1 = x
  revert x b
  decide

/-- A word of the SR form has the form's fields (R18). -/
@[simp] theorem srWord_eq_iff {op : Nat} {d a b : BitVec 6} {fn : BitVec 8} {w : Word} : srWord op d a b fn = w
    ↔ fld w 26 6 = BitVec.ofNat 6 op ∧ fld w 20 6 = d ∧ fld w 14 6 = a ∧ fld w 8 6 = b ∧ fld w 0 8 = fn := by
  rw [eq_comm, srWord]
  refine (eq_append_iff (m := 6 + 6 + 6 + 6) w _ fn).trans ?_
  rw [extractLsb'_eq_append_iff, extractLsb'_eq_append_iff, extractLsb'_eq_append_iff]
  simp only [and_assoc, fld, Nat.reduceAdd]

@[simp] theorem sbWord_eq_iff {op : Nat} {p : BitVec 3} {n : Bool} {off : BitVec 22} {w : Word} : sbWord op p n off = w
    ↔ fld w 26 6 = BitVec.ofNat 6 op ∧ fld w 23 3 = p ∧ flag w 22 = n ∧ fld w 0 22 = off := by
  rw [eq_comm, sbWord]
  refine (eq_append_iff (m := 6 + 3 + 1) w _ off).trans ?_
  rw [extractLsb'_eq_append_iff, extractLsb'_eq_append_iff, extractLsb'_eq_ofBool_iff]
  simp only [and_assoc, fld, flag, Nat.reduceAdd]

@[simp] theorem siWord_eq_iff {op : Nat} {d a : BitVec 6} {imm : BitVec 14} {w : Word} : siWord op d a imm = w
    ↔ fld w 26 6 = BitVec.ofNat 6 op ∧ fld w 20 6 = d ∧ fld w 14 6 = a ∧ fld w 0 14 = imm := by
  rw [eq_comm, siWord]
  refine (eq_append_iff (m := 6 + 6 + 6) w _ imm).trans ?_
  rw [extractLsb'_eq_append_iff, extractLsb'_eq_append_iff]
  simp only [and_assoc, fld, Nat.reduceAdd]

@[simp] theorem sxWord_eq_iff {sub : Nat} {d a : BitVec 6} {x : BitVec 8} {w : Word} : sxWord sub d a x = w
    ↔ fld w 26 6 = 0x3F#6 ∧ fld w 20 6 = BitVec.ofNat 6 sub ∧ fld w 14 6 = d ∧ fld w 8 6 = a ∧ fld w 0 8 = x :=
  srWord_eq_iff (op := 0x3F)

@[simp] theorem brvWord_eq_iff {p : BitVec 3} {n : Bool} {tgt join : BitVec 11} {w : Word} :
    0x03#6 ++ p ++ BitVec.ofBool n ++ tgt ++ join = w
      ↔ fld w 26 6 = 0x03#6 ∧ fld w 23 3 = p ∧ flag w 22 = n ∧ fld w 11 11 = tgt ∧ fld w 0 11 = join := by
  rw [eq_comm]
  refine (eq_append_iff (m := 6 + 3 + 1 + 11) w _ join).trans ?_
  rw [extractLsb'_eq_append_iff, extractLsb'_eq_append_iff, extractLsb'_eq_append_iff, extractLsb'_eq_ofBool_iff]
  simp only [and_assoc, fld, flag, Nat.reduceAdd]

@[simp] theorem loopWord_eq_iff {op : BitVec 6} {cnt : BitVec 10} {fin : BitVec 16} {w : Word} :
    op ++ cnt ++ fin = w ↔ fld w 26 6 = op ∧ fld w 16 10 = cnt ∧ fld w 0 16 = fin := by
  rw [eq_comm]
  refine (eq_append_iff (m := 6 + 10) w _ fin).trans ?_
  rw [extractLsb'_eq_append_iff]
  simp only [and_assoc, fld, Nat.reduceAdd]

@[simp] theorem fld_low16_eq_zero_iff (w : Word) : fld w 0 16 = 0#16 ↔ fld w 14 2 = 0#2 ∧ fld w 8 6 = 0#6 ∧ fld w 0 8 = 0#8 := by
  show w.extractLsb' 0 (2 + 6 + 8) = 0#2 ++ 0#6 ++ 0#8 ↔ _
  rw [extractLsb'_eq_append_iff, extractLsb'_eq_append_iff, and_assoc]
  rfl

/-- LOOPR's word: its opcode and the four zero bits below it are the ten bits 0x080. -/
@[simp] theorem looprWord_eq_iff {r : BitVec 6} {fin : BitVec 16} {w : Word} : 0x080#10 ++ r ++ fin = w
    ↔ fld w 26 6 = 0x08#6 ∧ fld w 23 3 = 0#3 ∧ flag w 22 = false ∧ fld w 16 6 = r ∧ fld w 0 16 = fin := by
  rw [eq_comm]
  refine (eq_append_iff (m := 6 + 3 + 1 + 6) w (0x08#6 ++ 0#3 ++ BitVec.ofBool false ++ r) fin).trans ?_
  rw [extractLsb'_eq_append_iff, extractLsb'_eq_append_iff, extractLsb'_eq_append_iff, extractLsb'_eq_ofBool_iff]
  simp only [and_assoc, fld, flag, Nat.reduceAdd]

@[simp] theorem sleaWord_eq_iff {d : BitVec 6} {off : BitVec 20} {w : Word} :
    0x20#6 ++ d ++ off = w ↔ fld w 26 6 = 0x20#6 ∧ fld w 20 6 = d ∧ fld w 0 20 = off := by
  rw [eq_comm]
  refine (eq_append_iff (m := 6 + 6) w _ off).trans ?_
  rw [extractLsb'_eq_append_iff]
  simp only [and_assoc, fld, Nat.reduceAdd]

/-! ### FN and its parts (R21) -/

@[simp] theorem fld_eq_fnIU_iff (w : Word) (imm uns : Bool) :
    fld w 0 8 = fnIU imm uns ↔ flag w 7 = imm ∧ fld w 1 6 = 0#6 ∧ flag w 0 = uns := by
  show w.extractLsb' 0 (1 + 6 + 1) = _ ↔ _
  rw [fnIU, extractLsb'_eq_append_iff, extractLsb'_eq_append_iff, extractLsb'_eq_ofBool_iff, extractLsb'_eq_ofBool_iff, and_assoc]
  rfl

@[simp] theorem fld_eq_fnCond_iff (w : Word) (imm uns : Bool) (cond : BitVec 3) :
    fld w 0 8 = BitVec.ofBool imm ++ 0#3 ++ cond ++ BitVec.ofBool uns
      ↔ flag w 7 = imm ∧ fld w 4 3 = 0#3 ∧ fld w 1 3 = cond ∧ flag w 0 = uns := by
  show w.extractLsb' 0 (1 + 3 + 3 + 1) = _ ↔ _
  rw [extractLsb'_eq_append_iff, extractLsb'_eq_append_iff, extractLsb'_eq_append_iff, extractLsb'_eq_ofBool_iff,
    extractLsb'_eq_ofBool_iff, and_assoc, and_assoc]
  rfl

@[simp] theorem fld_eq_fnRole_iff (w : Word) (src dst : BitVec 2) :
    fld w 0 8 = 0#4 ++ src ++ dst ↔ fld w 4 4 = 0#4 ∧ fld w 2 2 = src ∧ fld w 0 2 = dst := by
  show w.extractLsb' 0 (4 + 2 + 2) = _ ↔ _
  rw [extractLsb'_eq_append_iff, extractLsb'_eq_append_iff, and_assoc]
  rfl

@[simp] theorem fld_eq_fnLevel_iff (w : Word) (byHandle : Bool) (level : BitVec 3) :
    fld w 0 8 = 0#4 ++ BitVec.ofBool byHandle ++ level ↔ fld w 4 4 = 0#4 ∧ flag w 3 = byHandle ∧ fld w 0 3 = level := by
  show w.extractLsb' 0 (4 + 1 + 3) = _ ↔ _
  rw [extractLsb'_eq_append_iff, extractLsb'_eq_append_iff, extractLsb'_eq_ofBool_iff, and_assoc]
  rfl

@[simp] theorem fld_eq_fnTier_iff (w : Word) (tier : BitVec 2) : fld w 0 8 = 0#6 ++ tier ↔ fld w 2 6 = 0#6 ∧ fld w 0 2 = tier := by
  show w.extractLsb' 0 (6 + 2) = _ ↔ _
  rw [extractLsb'_eq_append_iff]
  rfl

/-! ### The must-be-zero masks (R21) -/

/-- The bits of a mask are zero when they are zero in each field of the SR form. -/
theorem and_ofNat_eq_zero_iff (w : Word) (mask : Nat) : w &&& BitVec.ofNat 32 mask = 0
    ↔ fld w 26 6 &&& BitVec.ofNat 6 (mask >>> 26 % 64) = 0 ∧ fld w 20 6 &&& BitVec.ofNat 6 (mask >>> 20 % 64) = 0
      ∧ fld w 14 6 &&& BitVec.ofNat 6 (mask >>> 14 % 64) = 0 ∧ fld w 8 6 &&& BitVec.ofNat 6 (mask >>> 8 % 64) = 0
      ∧ fld w 0 8 &&& BitVec.ofNat 8 (mask % 256) = 0 := by
  have hzero : (0 : Word) = srWord 0 0 0 0 0 := rfl
  rw [hzero, eq_comm, srWord_eq_iff]
  have hfield : ∀ lo n, lo + n ≤ 32 → (BitVec.ofNat 32 mask).extractLsb' lo n = BitVec.ofNat n (mask >>> lo % 2 ^ n) := by
    intro lo n h
    refine BitVec.eq_of_getLsbD_eq fun i hi => ?_
    simp only [BitVec.getLsbD_extractLsb', BitVec.getLsbD_ofNat, Nat.testBit_mod_two_pow, Nat.testBit_shiftRight, hi,
      show lo + i < 32 by omega, decide_true, Bool.true_and]
  simp only [fld, BitVec.extractLsb'_and]
  rw [hfield 26 6 (by omega), hfield 20 6 (by omega), hfield 14 6 (by omega), hfield 8 6 (by omega), hfield 0 8 (by omega)]
  rfl

/-- A word is the instruction when the bits of the mask are zero. -/
theorem zeros_eq_instr_iff (w : Word) (mask : Nat) (i j : Instr) : zeros w mask i = .instr j
    ↔ (fld w 26 6 &&& BitVec.ofNat 6 (mask >>> 26 % 64) = 0 ∧ fld w 20 6 &&& BitVec.ofNat 6 (mask >>> 20 % 64) = 0
      ∧ fld w 14 6 &&& BitVec.ofNat 6 (mask >>> 14 % 64) = 0 ∧ fld w 8 6 &&& BitVec.ofNat 6 (mask >>> 8 % 64) = 0
      ∧ fld w 0 8 &&& BitVec.ofNat 8 (mask % 256) = 0) ∧ i = j := by
  rw [← and_ofNat_eq_zero_iff]
  unfold zeros
  split <;> simp_all

/-! The masks that the rows keep of a field, as the spelling of their literals needs them. -/

@[simp] theorem and_0x3F (x : BitVec 6) : x &&& 0x3F#6 = x := BitVec.and_allOnes

@[simp] theorem and_0xFF (x : BitVec 8) : x &&& 0xFF#8 = x := BitVec.and_allOnes

/-- A run of `m` ones at bit `a` of a mask keeps the `m` bits there. -/
theorem fld_and_run (w : Word) (lo a : Nat) {n m : Nat} (h : a + m ≤ n) :
    fld w lo n &&& BitVec.ofNat n ((2 ^ m - 1) <<< a) = 0 ↔ fld w (lo + a) m = 0 := by
  have hrun : ∀ i < n, (fld w lo n &&& BitVec.ofNat n ((2 ^ m - 1) <<< a)).getLsbD i
      = (decide (a ≤ i) && decide (i - a < m) && w.getLsbD (lo + i)) := by
    intro i hi
    simp only [fld, BitVec.getLsbD_and, BitVec.getLsbD_extractLsb', BitVec.getLsbD_ofNat, Nat.testBit_shiftLeft,
      Nat.testBit_two_pow_sub_one, hi, decide_true, Bool.true_and]
    exact Bool.and_comm _ _
  constructor
  · intro hz
    refine BitVec.eq_of_getLsbD_eq fun i hi => ?_
    have hbit := hrun (a + i) (by omega)
    rw [hz] at hbit
    simpa [fld, hi, Nat.add_assoc] using hbit
  · intro hz
    refine BitVec.eq_of_getLsbD_eq fun i hi => ?_
    rw [hrun i hi]
    by_cases hin : a ≤ i ∧ i - a < m
    · have hbit := congrArg (BitVec.getLsbD · (i - a)) hz
      simpa [fld, hin, show lo + a + (i - a) = lo + i by omega] using hbit
    · simpa using fun h1 h2 => absurd ⟨h1, h2⟩ hin

/-- A field is zero when its two halves are. -/
theorem fld_eq_zero_append (w : Word) (lo m n : Nat) : fld w lo (m + n) = 0 ↔ fld w (lo + n) m = 0 ∧ fld w lo n = 0 := by
  rw [show (0 : BitVec (m + n)) = 0#m ++ 0#n by simp]
  exact extractLsb'_eq_append_iff w lo _ _

theorem fld_eq_zero_flag (w : Word) (lo : Nat) : fld w lo 1 = 0 ↔ flag w lo = false := extractLsb'_eq_ofBool_iff w lo false

@[simp] theorem fld_and_0x3C (w : Word) : fld w 20 6 &&& 0x3C#6 = 0#6 ↔ fld w 23 3 = 0#3 ∧ flag w 22 = false :=
  (fld_and_run w 20 2 (m := 4) (by decide)).trans ((fld_eq_zero_append w 22 3 1).trans (and_congr_right' (fld_eq_zero_flag w 22)))

@[simp] theorem fld_and_0x03 (w : Word) : fld w 14 6 &&& 0x03#6 = 0#6 ↔ fld w 14 2 = 0#2 := fld_and_run w 14 0 (m := 2) (by decide)

@[simp] theorem fld_and_0x7F (w : Word) : fld w 0 8 &&& 0x7F#8 = 0#8 ↔ fld w 1 6 = 0#6 ∧ flag w 0 = false :=
  (fld_and_run w 0 0 (m := 7) (by decide)).trans ((fld_eq_zero_append w 0 6 1).trans (and_congr_right' (fld_eq_zero_flag w 0)))

@[simp] theorem fld_and_0x7E (w : Word) : fld w 0 8 &&& 0x7E#8 = 0#8 ↔ fld w 1 6 = 0#6 := fld_and_run w 0 1 (m := 6) (by decide)

@[simp] theorem fld_and_0x70 (w : Word) : fld w 0 8 &&& 0x70#8 = 0#8 ↔ fld w 4 3 = 0#3 := fld_and_run w 0 4 (m := 3) (by decide)

@[simp] theorem fld_and_0xFE (w : Word) : fld w 0 8 &&& 0xFE#8 = 0#8 ↔ flag w 7 = false ∧ fld w 1 6 = 0#6 :=
  (fld_and_run w 0 1 (m := 7) (by decide)).trans ((fld_eq_zero_append w 1 1 6).trans (and_congr_left' (fld_eq_zero_flag w 7)))

@[simp] theorem fld_and_0xF0 (w : Word) : fld w 0 8 &&& 0xF0#8 = 0#8 ↔ fld w 4 4 = 0#4 := fld_and_run w 0 4 (m := 4) (by decide)

@[simp] theorem fld_and_0xFC (w : Word) : fld w 0 8 &&& 0xFC#8 = 0#8 ↔ fld w 2 6 = 0#6 := fld_and_run w 0 2 (m := 6) (by decide)

/-- An opcode as a number and as a field. -/
theorem toNat_eq_iff {n : Nat} (x : BitVec n) (k : Nat) (h : k < 2 ^ n) : x.toNat = k ↔ x = BitVec.ofNat n k := by
  rw [← BitVec.toNat_inj, BitVec.toNat_ofNat, Nat.mod_eq_of_lt h]

/-! ### Scalar words: the two directions (R19-R22) -/

/-- Each row of the extended form gives back the word: its fields are read from it, and the rest of it is zero (R20). -/
theorem encodeScalar_of_decodeSx {w : Word} {i : Instr} (hop : fld w 26 6 = 0x3F#6) (h : decodeSx w = .instr i)
    (hi : i ≠ .illegalOp) : encodeScalar i = some w := by
  unfold decodeSx at h
  split at h
  case h_15 => exact absurd (by simpa using h.symm) hi
  all_goals
    next hsub =>
      rw [toNat_eq_iff _ _ (by decide)] at hsub
      rw [zeros_eq_instr_iff] at h
      obtain ⟨hz, rfl⟩ := h
      refine congrArg some ?_
      simp at hz
      simp [hop, hsub, hz]

/-- Each row of the opcode table gives back the word (R19). -/
theorem encodeScalar_of_decodeScalar {w : Word} {i : Instr} (h : decodeScalar w = .instr i)
    (hi : i ≠ .illegalOp) : encodeScalar i = some w := by
  unfold decodeScalar at h
  split at h
  case h_53 hop => exact encodeScalar_of_decodeSx ((toNat_eq_iff _ _ (by decide)).mp hop) h hi
  case h_54 => exact absurd (by simpa using h.symm) hi
  all_goals
    next hop =>
      rw [toNat_eq_iff _ _ (by decide)] at hop
      rw [zeros_eq_instr_iff] at h
      obtain ⟨hz, rfl⟩ := h
      refine congrArg some ?_
      simp at hz
      simp [hop, hz]

/-- Each scalar instruction is decoded from its word: the fields of the word select its row and are its operands. -/
theorem decodeScalar_of_encodeScalar {w : Word} {i : Instr} (h : encodeScalar i = some w) : decodeScalar w = .instr i := by
  obtain ⟨x, hx⟩ : ∃ x, x = w := ⟨w, rfl⟩
  rw [← hx] at h
  cases i <;> cases h
  all_goals
    simp at hx
    simp [decodeScalar, decodeSx, zeros_eq_instr_iff, hx]

/-! ### Lane words (R23, R33) -/

/-- An L96 word has OP and the fields of its record (R23). -/
theorem laneBits_eq_iff {op : Nat} {w : LaneWord} {b : LBits} :
    laneBits op w = b ↔ b.extractLsb' 88 7 = BitVec.ofNat 7 op ∧ laneFields b = w := by
  rw [eq_comm, laneBits]
  refine (eq_append_iff (m := 1 + 7 + 4 + 3 + 1 + 10 + 10 + 8 + 10 + 8 + 10 + 8 + 3 + 3) b _ w.mod).trans ?_
  iterate 13 rw [extractLsb'_eq_append_iff]
  rw [extractLsb'_eq_ofBool_iff, extractLsb'_eq_ofBool_iff]
  cases w
  simp only [laneFields, LaneWord.mk.injEq, Nat.reduceAdd, and_assoc]
  exact and_left_comm

theorem laneOp_lt {i : Instr} {op : Nat} {w : LaneWord} (h : laneOp i = some (op, w)) : op < 128 := by
  cases i <;> cases h <;> decide

theorem laneInstr_of_laneOp {i : Instr} {op : Nat} {w : LaneWord} (h : laneOp i = some (op, w)) : laneInstr op w = i := by
  cases i <;> cases h <;> rfl

theorem laneOp_of_laneInstr {i : Instr} {op : Nat} {w : LaneWord} (h : laneInstr op w = i) (hi : i ≠ .illegalOp) :
    laneOp i = some (op, w) := by
  unfold laneInstr at h
  split at h
  case h_76 => exact absurd h.symm hi
  all_goals
    subst h
    rfl

theorem encodeScalar_of_laneOp {i : Instr} {p : Nat × LaneWord} (h : laneOp i = some p) : encodeScalar i = none := by
  cases i <;> cases h <;> rfl

theorem encodeLane_eq_some_iff {i : Instr} {b : LBits} :
    encodeLane i = some b ↔ laneOp i = some ((b.extractLsb' 88 7).toNat, laneFields b) := by
  simp only [encodeLane, Option.map_eq_some_iff, Prod.exists, laneBits_eq_iff]
  constructor
  · rintro ⟨op, w, h, hop, rfl⟩
    rwa [(toNat_eq_iff _ _ (laneOp_lt h)).mpr hop]
  · exact fun h => ⟨_, _, h, by rw [BitVec.ofNat_toNat, BitVec.setWidth_eq], rfl⟩

theorem decodeLane_of_encodeLane {i : Instr} {b : LBits} (h : encodeLane i = some b) : decodeLane b = i :=
  laneInstr_of_laneOp (encodeLane_eq_some_iff.mp h)

theorem encodeLane_of_decodeLane {i : Instr} {b : LBits} (h : decodeLane b = i) (hi : i ≠ .illegalOp) : encodeLane i = some b :=
  encodeLane_eq_some_iff.mpr (laneOp_of_laneInstr h hi)

/-! ### Words in memory (R16, R171) -/

@[simp] theorem length_leBytes (n x : Nat) : (leBytes n x).length = n := by
  induction n generalizing x with
  | zero => rfl
  | succ n ih => simp [leBytes, ih]

theorem leNat_leBytes (n x : Nat) : leNat (leBytes n x) = x % 256 ^ n := by
  induction n generalizing x with
  | zero => simp [leBytes, leNat, Nat.mod_one]
  | succ n ih => simp [leBytes, leNat, ih, Nat.pow_succ', Nat.mod_mul]

theorem decodeScalarBytes_leBytes (w : Word) : decodeScalarBytes (leBytes 4 w.toNat) = some (decodeScalar w) := by
  have hw : w.toNat % 256 ^ 4 = w.toNat := Nat.mod_eq_of_lt w.isLt
  rw [decodeScalarBytes, if_neg (by simp), List.take_of_length_le (by simp), leNat_leBytes, hw, BitVec.ofNat_toNat, BitVec.setWidth_eq]

theorem decodeLaneBytes_leBytes (b : LBits) : decodeLaneBytes (leBytes 12 b.toNat) = some (decodeLane b) := by
  have hb : b.toNat % 256 ^ 12 = b.toNat := Nat.mod_eq_of_lt b.isLt
  rw [decodeLaneBytes, if_neg (by simp), List.take_of_length_le (by simp), leNat_leBytes, hb, BitVec.ofNat_toNat, BitVec.setWidth_eq]

theorem encode_scalar {i : Instr} {w : Word} (h : encodeScalar i = some w) : encode i = leBytes 4 w.toNat := by
  simp [encode, h]

theorem encode_lane {i : Instr} {b : LBits} (h : encodeLane i = some b) : encode i = leBytes 12 b.toNat := by
  simp [encode, encodeScalar_of_laneOp (encodeLane_eq_some_iff.mp h), h]

theorem decodeTableWord_scalar {i : Instr} {w : Word} (h : encodeScalar i = some w) : decodeTableWord 32 w.toNat = some i := by
  simp [decodeTableWord, decodeScalarBytes_leBytes, decodeScalar_of_encodeScalar h]

theorem decodeTableWord_lane {i : Instr} {b : LBits} (h : encodeLane i = some b) : decodeTableWord 96 b.toNat = some i := by
  simp [decodeTableWord, decodeLaneBytes_leBytes, decodeLane_of_encodeLane h]

/-- The bytes of an instruction are those of a scalar word, of a lane word, or none. -/
theorem encode_cases (i : Instr) : (∃ w, encodeScalar i = some w) ∨ (∃ b, encodeLane i = some b) ∨ encode i = [] := by
  rcases hs : encodeScalar i with - | w
  · rcases hl : encodeLane i with - | b
    · exact .inr (.inr (by simp [encode, hs, hl]))
    · exact .inr (.inl ⟨b, rfl⟩)
  · exact .inl ⟨w, rfl⟩

theorem decodeScalarBytes_encode {i : Instr} {w : Word} (h : encodeScalar i = some w) :
    decodeScalarBytes (encode i) = some (.instr i) := by
  rw [encode_scalar h, decodeScalarBytes_leBytes, decodeScalar_of_encodeScalar h]

theorem decodeLaneBytes_encode {i : Instr} {b : LBits} (h : encodeLane i = some b) : decodeLaneBytes (encode i) = some i := by
  rw [encode_lane h, decodeLaneBytes_leBytes, decodeLane_of_encodeLane h]

/-- Instructions with the same bytes are the same: a scalar word and a lane word differ in length. -/
theorem encode_inj {i j : Instr} (h : encode i = encode j) (hne : encode i ≠ []) : i = j := by
  have hlen := congrArg List.length h
  rcases encode_cases i with ⟨w, hi⟩ | ⟨b, hi⟩ | hi
  · rcases encode_cases j with ⟨v, hj⟩ | ⟨c, hj⟩ | hj
    · have hd := decodeScalarBytes_encode hi
      rw [h, decodeScalarBytes_encode hj] at hd
      cases hd
      rfl
    · simp [encode_scalar hi, encode_lane hj] at hlen
    · exact absurd (h.trans hj) hne
  · rcases encode_cases j with ⟨v, hj⟩ | ⟨c, hj⟩ | hj
    · simp [encode_lane hi, encode_scalar hj] at hlen
    · have hd := decodeLaneBytes_encode hi
      rw [h, decodeLaneBytes_encode hj] at hd
      cases hd
      rfl
    · exact absurd (h.trans hj) hne
  · exact absurd hi hne

end Sys2Proof

namespace Sys2Proof.Proofs

/-- Settles O56, by the fields of each form: a word is the one that the encoder gives just when its fields are the instruction's. -/
theorem encodeDecode : Obligations.EncodeDecode :=
  ⟨fun _ _ h => ⟨decodeScalar_of_encodeScalar h, decodeScalarBytes_encode h, decodeTableWord_scalar h⟩,
    fun _ _ h => ⟨decodeLane_of_encodeLane h, decodeLaneBytes_encode h, decodeTableWord_lane h⟩,
    fun _ _ h hi => encodeScalar_of_decodeScalar h hi, fun _ _ h hi => encodeLane_of_decodeLane h hi, fun _ _ h hne => encode_inj h hne⟩

/-- Settles O57: each word is the encoder's word of its instruction, and the last one breaks a must-be-zero field. -/
theorem decodeWords : Obligations.DecodeWords :=
  ⟨decodeTableWord_scalar (w := 0x84610000) rfl, decodeTableWord_scalar (w := 0x08000003) rfl,
    decodeTableWord_scalar (w := 0x20150003) rfl, decodeTableWord_scalar (w := 0xDD830000) rfl,
    decodeTableWord_scalar (w := 0xFC258A00) rfl, decodeTableWord_lane (b := 0x00000040100C000000000000) rfl,
    decodeTableWord_lane (b := 0x5B0000282000000000000008) rfl, decodeTableWord_lane (b := 0x3D000140FFFF000000000000) rfl,
    decodeTableWord_lane (b := 0x160000404000140000000000) rfl, decodeTableWord_scalar (w := 0x84010001) rfl, by decide⟩

end Sys2Proof.Proofs
end

section
namespace Sys2Proof.Machine
open Sys2Proof.Safety

/-! ### The scalar comparison (R21, R278) -/

/-- The model's condition is what the condition code says; the codes 6 and 7 are illegal (R21). -/
theorem scalarCond_iff_holds {cond : Nat} (hc : cond < 6) (uns : Bool) (x y : Word) :
    scalarCond cond uns x y = true ↔ Holds cond uns x y := by
  unfold scalarCond Holds
  interval_cases cond <;> cases uns <;> simp

/-- SCMP with a legal condition, once its sources have landed (R278). -/
theorem execScmp_writes {s : State} {d a b : BitVec 6} {imm uns : Bool} {cond : BitVec 3} (hc : cond.toNat < 6)
    (hl : Landed s (a.toNat :: srcReads b imm)) {c : Bool}
    (h : scalarCond cond.toNat uns (s.curSplit.sreg a.toNat) (srcVal s.curSplit b imm) = c) :
    WritesS (.scmp d a b imm cond uns) s d.toNat (if c then 1 else 0) c := by
  show ∃ t, execScmp d a b imm cond uns s = .next t ∧ _
  rw [execScmp, scalarWord_go (by simpa using hc) hl]
  refine writesS_finish ?_
  dsimp only
  rw [h]
  rfl

end Sys2Proof.Machine

namespace Sys2Proof.Proofs
open Sys2Proof.Machine Sys2Proof.Safety

/-- Settles O2: the model's condition is the one that the code names, and the two codes without one take ILLEGAL_OPERAND. -/
theorem scalarCompare : Obligations.ScalarCompare := by
  intro s d a b imm uns cond x y
  refine ⟨fun hc hl => ?_, fun hc => ?_⟩
  case refine_2 =>
    show execScmp d a b imm cond uns s = _
    exact scalarWord_bad (by simpa using hc)
  rw [← srcReads_eq] at hl
  have hy : srcVal s.curSplit b imm = y := srcVal_eq _ _ _
  have hiff := scalarCond_iff_holds hc uns x y
  refine ⟨fun h => ?_, fun h => ?_⟩
  · exact execScmp_writes (c := true) hc hl (by rw [hy]; exact hiff.mpr h)
  · exact execScmp_writes (c := false) hc hl (by rw [hy]; exact Bool.eq_false_iff.mpr (h ∘ hiff.mp))

end Sys2Proof.Proofs
end

section
namespace Sys2Proof.Machine
open Sys2Proof.Safety

/-! ### Affine values as integers (R166) -/

/-- A sum with a sign-extended word, as a sum of integers. -/
theorem add_sext64 {n : Nat} (x : DWord) (v : BitVec n) : x + sext64 v = BitVec.ofInt 64 (x.toNat + v.toInt) := by
  rw [BitVec.ofInt_add, BitVec.ofInt_natCast, BitVec.ofNat_toNat, BitVec.setWidth_eq]
  rfl

theorem add_sext64_mul {m n : Nat} (x : DWord) (u : BitVec m) (v : BitVec n) :
    x + sext64 u * sext64 v = BitVec.ofInt 64 (x.toNat + u.toInt * v.toInt) := by
  rw [BitVec.ofInt_add, BitVec.ofInt_natCast, BitVec.ofNat_toNat, BitVec.setWidth_eq, BitVec.ofInt_mul]
  rfl

theorem mul_eq_ofNat (x y : Word) : x * y = BitVec.ofNat 32 (x.toNat * y.toNat) := by
  rw [BitVec.ofNat_mul, BitVec.ofNat_toNat, BitVec.ofNat_toNat, BitVec.setWidth_eq, BitVec.setWidth_eq]

theorem shiftLeft_eq_ofNat (x : Word) (n : Nat) : x <<< n = BitVec.ofNat 32 (x.toNat * 2 ^ n) := by
  rw [← BitVec.toNat_inj, BitVec.toNat_shiftLeft, Nat.shiftLeft_eq, BitVec.toNat_ofNat]

/-! ### The affine words (R22, R166) -/

theorem affOk_iff (r : BitVec 6) : affOk r = true ↔ r.toNat < 32 := by simp [affOk]

theorem affOk_eq_false_iff (r : BitVec 6) : affOk r = false ↔ 32 ≤ r.toNat := by simp [affOk]

theorem pairOk_iff (r : BitVec 6) : pairOk r = true ↔ r.toNat % 2 = 0 := by simp [pairOk]

theorem pairOk_eq_false_iff (r : BitVec 6) : pairOk r = false ↔ r.toNat % 2 = 1 := by simp [pairOk]

section
variable (d b : BitVec 6) (imm : Bool) (s : State)

theorem exec_aadd : exec (.aadd d b imm) s = affWord d b imm (fun r x => { r with base := r.base + sext64 x }) s := rfl

theorem exec_ascl : exec (.ascl d b imm) s = affWord d b imm (fun r x => { r with stride := r.stride * x }) s := rfl

theorem exec_ashl : exec (.ashl d b imm) s = affWord d b imm (fun r x => { r with stride := r.stride <<< (x.toNat % 32) }) s := rfl

theorem exec_astr : exec (.astr d b imm) s = affWord d b imm (fun r x => { r with stride := x }) s := rfl

theorem exec_amov (a : BitVec 6) (imm14 : BitVec 14) : exec (.amov d a imm14) s = execAmov d a imm14 s := rfl

theorem exec_aadda (a : BitVec 6) : exec (.aadda d a b imm) s = execAadda d a b imm s := rfl

theorem exec_aget (a : BitVec 6) (str : Bool) : exec (.aget d a str) s = execAget d a str s := rfl

end

section
variable {s : State} {d b : BitVec 6} {imm : Bool} {f : Affine → Word → Affine} {i : Instr} (hi : exec i s = affWord d b imm f s)
include hi

/-- A word that changes an affine register, with legal fields, once its source has landed. -/
theorem affWord_writes {v : Affine} (hd : d.toNat < 32) (hl : Landed s (srcReads b imm))
    (hv : f (s.curSplit.areg d.toNat) (srcVal s.curSplit b imm) = v) : WritesA i s d.toNat v := by
  rw [WritesA, hi, affWord, scalarWord_go ((affOk_iff d).mpr hd) hl]
  exact writesA_finish (by rw [hv])

/-- Such a word takes ILLEGAL_OPERAND at an affine register above a31 (R22). -/
theorem affWord_bad (hd : 32 ≤ d.toNat) : exec i s = .next (s.scalarTrap .illegalOperand) :=
  hi.trans (scalarWord_bad ((affOk_eq_false_iff d).mpr hd))

end

theorem Landed.nil (s : State) : Landed s [] := by simp [Landed]

end Sys2Proof.Machine

namespace Sys2Proof.Proofs
open Sys2Proof.Machine Sys2Proof.Safety

/-- Settles O4: each affine word writes one register of its split. -/
theorem affineWords : Obligations.AffineWords := by
  intro s d a b imm14 imm x src old
  have hx : srcVal s.curSplit b imm = x := srcVal_eq _ _ _
  have hsrc : srcReads b imm = src := srcReads_eq _ _
  have haadd := exec_aadd d b imm s
  have hascl := exec_ascl d b imm s
  have hashl := exec_ashl d b imm s
  have hastr := exec_astr d b imm s
  refine ⟨?amov, ?one, ?aadda, ?stride, ?base,
    fun hd => ⟨affWord_bad haadd hd, affWord_bad hascl hd, affWord_bad hashl hd, affWord_bad hastr hd⟩,
    ?amovBad, ?aaddaBad, ?strideBad, ?baseBad⟩
  case amov =>
    intro hd ha hl
    rw [WritesA, exec_amov, execAmov, scalarWord_go (reads := pairReads a) (by simp [affOk_iff, pairOk_iff, hd, ha]) hl]
    exact writesA_finish rfl
  case one =>
    intro hd hl
    rw [← hsrc] at hl
    refine ⟨affWord_writes haadd hd hl ?_, affWord_writes hascl hd hl ?_, affWord_writes hashl hd hl ?_, affWord_writes hastr hd hl ?_⟩
    all_goals rw [hx]
    · rw [add_sext64]
    · rw [mul_eq_ofNat]
    · rw [shiftLeft_eq_ofNat]
  case aadda =>
    intro hd ha hl
    rw [← hsrc] at hl
    rw [WritesA, exec_aadda, execAadda, scalarWord_go (by simp [affOk_iff, hd, ha]) hl]
    refine writesA_finish ?_
    rw [← add_sext64_mul, ← hx]
  case stride =>
    intro ha
    rw [WritesS, exec_aget, execAget, scalarWord_go (by simp [affOk_iff, ha]) (Landed.nil s)]
    exact writesS_finish rfl
  case base =>
    intro ha hd
    rw [WritesPair, exec_aget, execAget, scalarWord_go (by simp [affOk_iff, pairOk_iff, ha, hd]) (Landed.nil s)]
    exact writesPair_finish rfl
  case amovBad =>
    intro h
    rw [exec_amov, execAmov, scalarWord_bad]
    rwa [Bool.and_eq_false_iff, affOk_eq_false_iff, pairOk_eq_false_iff]
  case aaddaBad =>
    intro h
    rw [exec_aadda, execAadda, scalarWord_bad]
    rwa [Bool.and_eq_false_iff, affOk_eq_false_iff, affOk_eq_false_iff]
  case strideBad =>
    intro h
    rw [exec_aget, execAget, scalarWord_bad]
    rwa [Bool.true_or, Bool.and_true, affOk_eq_false_iff]
  case baseBad =>
    intro h
    rw [exec_aget, execAget, scalarWord_bad]
    rwa [Bool.and_eq_false_iff, affOk_eq_false_iff, Bool.false_or, pairOk_eq_false_iff]

end Sys2Proof.Proofs
end

section
namespace Sys2Proof.Machine
open Sys2Proof.Safety

/-! ### Bytes of a word (R16, R171) -/

theorem toBytes_eq_leBytes (v n : Nat) : toBytes v n = leBytes n v := by
  induction n generalizing v with
  | zero => rfl
  | succ n ih => rw [toBytes, leBytes, ih]

theorem length_toBytes (v n : Nat) : (toBytes v n).length = n := by
  rw [toBytes_eq_leBytes, length_leBytes]

theorem ofBytes_toBytes (v n : Nat) : ofBytes (toBytes v n) = v % 256 ^ n := by
  rw [toBytes_eq_leBytes, ← leNat_eq_ofBytes, leNat_leBytes]

/-! ### An access that enters the machine (R263, R279) -/

/-- A word that enters one access and falls through changes nothing else. -/
theorem State.enter_advance (s : State) (e : Entry) :
    RegFrame s (s.enter e).advance [] [] ∧ FallsThrough s (s.enter e).advance
      ∧ Enters s (s.enter e).advance [{ e with id := s.nextId, wid := s.nextId }]
      ∧ (s.enter e).advance.curSplit.flag = s.curSplit.flag := by
  obtain ⟨⟨hregs, hrest⟩, hfalls, hflag⟩ := State.advance_falls (s.enter e)
  exact ⟨⟨hregs.bytes, hregs.slots, hregs.group, hregs.split, hregs.sregs, hregs.aregs⟩, hfalls, hrest, hflag⟩

section
variable {s : State} {d a : BitVec 6} {imm14 : BitVec 14}

theorem execSld_odd (ha : a.toNat % 2 = 1) : execSld d a imm14 s = .next (s.scalarTrap .illegalOperand) :=
  scalarWord_bad ((pairOk_eq_false_iff a).mpr ha)

theorem execSst_odd (ha : a.toNat % 2 = 1) : execSst d a imm14 s = .next (s.scalarTrap .illegalOperand) :=
  scalarWord_bad ((pairOk_eq_false_iff a).mpr ha)

variable (ha : a.toNat % 2 = 0) (hf : s.fenced s.curSplit.uid = false)
include ha hf

/-- SLD with a legal pair that has landed takes the fault of the requester's check, or enters a load. -/
theorem execSld_landed (hl : Landed s [a.toNat, a.toNat + 1]) : execSld d a imm14 s =
    match s.requesterCheck s.curGroup s.cur.core .lane (s.curSplit.memAddr a imm14) 4 4 with
    | some f => .next (s.scalarFault ⟨f.1, f.2, s.curSplit.memAddr a imm14⟩)
    | none => .next (s.enterScalar (if pathOf (s.curSplit.memAddr a imm14) == 5 then .yLoad else .load)
        (s.curSplit.memAddr a imm14) [] (some d.toNat)).advance := by
  rw [execSld, scalarWord_go (reads := pairReads a) ((pairOk_iff a).mpr ha) hl, hf]
  rfl

/-- SST with a legal pair, once its data and its pair have landed, takes the fault of the requester's check, or enters a store. -/
theorem execSst_landed (hl : Landed s [d.toNat, a.toNat, a.toNat + 1]) : execSst d a imm14 s =
    match s.requesterCheck s.curGroup s.cur.core .store (s.curSplit.memAddr a imm14) 4 4 with
    | some f => .next (s.scalarFault ⟨f.1, f.2, s.curSplit.memAddr a imm14⟩)
    | none => .next (s.enterScalar (s.storeKind s.curGroup s.cur.core (s.curSplit.memAddr a imm14)) (s.curSplit.memAddr a imm14)
        (toBytes (s.curSplit.sreg d.toNat).toNat 4) none).advance := by
  rw [execSst, scalarWord_go (reads := d.toNat :: pairReads a) ((pairOk_iff a).mpr ha) hl, hf]
  rfl

end

end Sys2Proof.Machine

namespace Sys2Proof.Proofs
open Sys2Proof.Machine Sys2Proof.Safety

/-- Settles O5: once the requester's check has passed, the word enters one access and falls through. -/
theorem scalarMemory : Obligations.ScalarMemory := by
  intro s d a imm14 va
  have hva : s.curSplit.memAddr a imm14 = va := add_sext64 _ _
  have hsld : exec (.sld d a imm14) s = execSld d a imm14 s := rfl
  have hsst : exec (.sst d a imm14) s = execSst d a imm14 s := rfl
  rw [hsld, hsst]
  refine ⟨fun ha => ⟨execSld_odd ha, execSst_odd ha⟩, fun ha hl hf => ?load, fun ha hl hf => ?store⟩
  case load =>
    rw [execSld_landed ha hf hl, hva]
    refine ⟨fun k c h => by rw [h], fun h => ?_⟩
    rw [h]
    obtain ⟨hframe, hfalls, henters, hflag⟩ := State.enter_advance s _
    exact ⟨_, _, rfl, hframe, hfalls, henters, hflag, rfl, rfl, by simp [State.newEnt], rfl, rfl, rfl, rfl⟩
  case store =>
    rw [execSst_landed ha hf hl, hva]
    refine ⟨fun k c h => by rw [h], fun h => ?_⟩
    rw [h]
    have hdata : ofBytes (toBytes (s.curSplit.sreg d.toNat).toNat 4) = (s.curSplit.sreg d.toNat).toNat := by
      rw [ofBytes_toBytes]
      exact Nat.mod_eq_of_lt (s.curSplit.sreg d.toNat).isLt
    obtain ⟨hframe, hfalls, henters, hflag⟩ := State.enter_advance s _
    refine ⟨_, _, rfl, hframe, hfalls, henters, hflag, rfl, rfl, fun hp => ?_, fun hp => ?_, fun hp => ?_,
      ⟨_, rfl, length_toBytes _ _, hdata⟩, rfl, rfl, rfl⟩
    all_goals simp [State.newEnt, State.storeKind, hp]

end Sys2Proof.Proofs
end

section
namespace Sys2Proof.Machine
open Sys2Proof.Safety

/-! ### The group as a lane word reads it (R10; log 11) -/

/-- Registers that a list of writes may have changed: each holds what it held, or what one of the writes gives it. -/
def ReadsAs (ws : List RegWrite) (g h : Group) : Prop :=
  h = { g with v := h.v, under := h.under }
    ∧ ∀ r l, h.vreg r l = g.vreg r l ∨ ∃ q k, 32 * q + k = 32 * r + l ∧ (q, k, h.vreg r l) ∈ ws

theorem ReadsAs.refl (ws : List RegWrite) (g : Group) : ReadsAs ws g g := ⟨rfl, fun _ _ => .inl rfl⟩

theorem ReadsAs.setV {ws : List RegWrite} {g h : Group} (hr : ReadsAs ws g h) {x : RegWrite} (hx : x ∈ ws) :
    ReadsAs ws g (h.setV x.1 x.2.1 x.2.2) := by
  obtain ⟨hrest, hregs⟩ := hr
  refine ⟨?_, fun r l => ?_⟩
  · rw [hrest]
    rfl
  · rw [Group.vreg_setV]
    split
    · next hkey => exact .inr ⟨x.1, x.2.1, hkey, hx⟩
    · exact hregs r l

/-- The writes that the results of a list of accesses will make. -/
def landingWrites (es : List Entry) : List RegWrite := es.flatMap fun e => e.landWrites.getD []

theorem mem_landingWrites {es : List Entry} {x : RegWrite} :
    x ∈ landingWrites es ↔ ∃ e ∈ es, ∃ ws, e.landWrites = some ws ∧ x ∈ ws := by
  simp only [landingWrites, List.mem_flatMap]
  refine exists_congr fun e => and_congr_right fun _ => ?_
  cases e.landWrites <;> simp

/-- A lane word sees the registers as they stand, or as an untracked result will write them (R10; log 11). -/
theorem State.viewOf_readsAs (s : State) (ag : Agent) :
    ReadsAs (landingWrites (s.racers ag.core ag.slot)) (s.groupOf ag) (s.viewOf ag) := by
  unfold State.viewOf
  refine List.foldlRecOn _ _ (ReadsAs.refl _ _) fun g hr e he => ?_
  split
  · exact hr
  · next ws hws =>
    refine List.foldlRecOn _ _ hr fun h hr x hx => ?_
    split
    · exact hr.setV (mem_landingWrites.mpr ⟨e, he, ws, hws, hx⟩)
    · exact hr

theorem State.viewOf_quiet {s : State} {ag : Agent} (h : s.racers ag.core ag.slot = []) : s.viewOf ag = s.groupOf ag := by
  rw [State.viewOf, h]
  rfl

/-! ### Operand codes (R24-R26) -/

section
variable {e : LaneEnv} {c : BitVec 10} {cap : Capture} {l : Nat}

theorem LaneEnv.raw_vec (h : c.toNat < 640) : e.raw c cap l = e.g.vreg c.toNat l := by
  rw [LaneEnv.raw, if_pos (by simpa [isVec] using h)]

theorem LaneEnv.raw_scal (hlo : 640 ≤ c.toNat) (hhi : c.toNat < 704) : e.raw c cap l = cap.w0 := by
  rw [LaneEnv.raw, if_neg (by simpa [isVec] using hlo), if_pos (by simp [isScal, hlo, hhi])]

theorem LaneEnv.raw_aff (hlo : 704 ≤ c.toNat) (hhi : c.toNat < 736) : e.raw c cap l = loW (cap.affine.lane l) := by
  rw [LaneEnv.raw, if_neg (by simp [isVec]; omega), if_neg (by simp [isScal]; omega), if_pos (by simp [isAff, hlo, hhi])]

theorem LaneEnv.raw_const (hlo : 736 ≤ c.toNat) (hhi : c.toNat < 864) : e.raw c cap l = constOf c.toNat := by
  rw [LaneEnv.raw, if_neg (by simp [isVec]; omega), if_neg (by simp [isScal]; omega), if_neg (by simp [isAff]; omega),
    if_pos (by simp [isConst, hlo, hhi])]

theorem LaneEnv.raw_special (h : 864 ≤ c.toNat) : e.raw c cap l = specialOf e.node e.g e.ag c.toNat l := by
  rw [LaneEnv.raw, if_neg (by simp [isVec]; omega), if_neg (by simp [isScal]; omega), if_neg (by simp [isAff]; omega),
    if_neg (by simp [isConst]; omega)]

end

theorem captureOf_affine (sp : Split) {c : BitVec 10} (hlo : 704 ≤ c.toNat) (hhi : c.toNat < 736) :
    (captureOf sp c).affine = sp.areg (c.toNat - 704) := by
  obtain ⟨hbase, hstride⟩ := (captureOf_reads sp c).2 hlo hhi
  exact congrArg₂ Affine.mk hbase hstride

theorem constOf_nonneg {n : Nat} (hlo : 736 ≤ n) (hhi : n < 800) : (constOf n).toNat = n - 736 := by
  unfold constOf
  rw [if_pos hhi, BitVec.toNat_ofNat, Nat.mod_eq_of_lt (by omega)]

theorem constOf_neg {n : Nat} (hlo : 800 ≤ n) (hhi : n < 816) : (constOf n).toInt = 799 - (n : Int) := by
  unfold constOf
  rw [if_neg (by omega), if_pos hhi, BitVec.toInt_ofInt_eq_self (by decide) (by omega) (by omega)]

/-- The powers of two, by their biased exponents (R25). -/
theorem constOf_power {n : Nat} (hlo : 816 ≤ n) (hhi : n < 832) : (constOf n).toNat = (127 + n - 823) * 2 ^ 23 := by
  unfold constOf
  rw [if_neg (by omega), if_neg (by omega), if_pos hhi, BitVec.toNat_ofNat, Nat.mod_eq_of_lt (by omega)]

theorem constOf_negPower {n : Nat} (hlo : 832 ≤ n) (hhi : n < 848) : (constOf n).toNat = (127 + n - 839) * 2 ^ 23 + 2 ^ 31 := by
  unfold constOf
  rw [if_neg (by omega), if_neg (by omega), if_neg (by omega), if_pos hhi, BitVec.toNat_ofNat, Nat.mod_eq_of_lt (by omega)]

/-! ### The acting lanes and the crossbar (R28, R29, R326) -/

theorem State.acting_getLsbD (s : State) (w : LaneWord) {l : Nat} (hl : l < 32) : (s.acting w).getLsbD l =
    (s.curSplit.mask.getLsbD l && ((s.curGroup.preg w.pred.toNat).getLsbD l != w.pn)
      && (if s.curSplit.headFault then s.curSplit.record.mask.getLsbD l
        else s.curSplit.headMask == 0 || s.curSplit.headMask.getLsbD l)) := by
  have hpred : (predMask s.curGroup w).getLsbD l = ((s.curGroup.preg w.pred.toNat).getLsbD l != w.pn) := by
    unfold predMask
    cases w.pn <;> simp [hl]
  have hword : s.curSplit.wordMask.getLsbD l = (s.curSplit.mask.getLsbD l
      && (if s.curSplit.headFault then s.curSplit.record.mask.getLsbD l
        else s.curSplit.headMask == 0 || s.curSplit.headMask.getLsbD l)) := by
    unfold Split.wordMask
    cases s.curSplit.headFault
    · cases s.curSplit.headMask == 0 <;> simp
    · simp
  rw [State.acting, BitVec.getLsbD_and, hpred, hword, Bool.and_right_comm]

theorem routed_none {x : BitVec 8} {f : Nat → Word} {l : Nat} (h : xbarLane x l = none) : routed x f l = 0 := by
  rw [routed, h]

theorem routed_some {x : BitVec 8} {f : Nat → Word} {l k : Nat} (h : xbarLane x l = some k) : routed x f l = f k := by
  rw [routed, h]

end Sys2Proof.Machine

namespace Sys2Proof.Proofs
open Sys2Proof.Machine Sys2Proof.Safety

/-- Settles O26: the codes by their ranges, the registers as the view of the group gives them, and the crossbar by its patterns. -/
theorem operandCodes : Obligations.OperandCodes := by
  constructor
  case left =>
    intro s w c cap l e g n
    obtain ⟨hview, hregs⟩ := s.viewOf_readsAs s.cur
    have hview : e.g = { g with v := e.g.v, under := e.g.under } := hview
    have hconst : ∀ k v, 736 ≤ k → k < 864 → constOf k = v → n = k → e.raw c cap l = v := by
      rintro k v hlo hhi hv rfl
      rw [LaneEnv.raw_const hlo hhi, hv]
    have hspecial : ∀ k v, 864 ≤ k → specialOf e.node e.g e.ag k l = v → n = k → e.raw c cap l = v := by
      rintro k v hlo hv rfl
      rw [LaneEnv.raw_special hlo, hv]
    refine ⟨LaneEnv.raw_vec, fun hlo hhi => ?scal, fun hlo hhi => ?aff, fun hlo hhi => ?nonneg, fun hlo hhi => ?neg,
      fun hlo hhi => ?power, fun hlo hhi => ?negPower, hconst _ _ (by decide) (by decide) rfl, hconst _ _ (by decide) (by decide) rfl,
      hconst _ _ (by decide) (by decide) rfl, hconst _ _ (by decide) (by decide) rfl, hconst _ _ (by decide) (by decide) rfl,
      hconst _ _ (by decide) (by decide) rfl, hconst _ _ (by decide) (by decide) rfl, hconst _ _ (by decide) (by decide) rfl,
      hconst _ _ (by decide) (by decide) rfl, hconst _ _ (by decide) (by decide) rfl, hconst _ _ (by decide) (by decide) rfl,
      hconst _ _ (by decide) (by decide) rfl, hconst _ _ (by decide) (by decide) rfl, hconst _ _ (by decide) (by decide) rfl,
      hconst _ _ (by decide) (by decide) rfl, hconst _ _ (by decide) (by decide) rfl, fun hn hl => ?lane, hspecial _ _ (by decide) ?num,
      hspecial _ _ (by decide) rfl, hspecial _ _ (by decide) ?x, hspecial _ _ (by decide) ?y, hspecial _ _ (by decide) ?z,
      hspecial _ _ (by decide) rfl, hspecial _ _ (by decide) ?csIdx, fun hn => ?node, fun hn => ?slot, s.acting_getLsbD w, rfl,
      State.viewOf_quiet, fun r hl => ?view⟩
    case scal => rw [LaneEnv.raw_scal hlo hhi, ((captureOf_reads _ c).1 hlo hhi).1]
    case aff =>
      rw [LaneEnv.raw_aff hlo hhi, captureOf_affine _ hlo hhi, loW, BitVec.setWidth_eq_extractLsb' (by decide)]
      rfl
    case nonneg => rw [LaneEnv.raw_const hlo (by omega), constOf_nonneg hlo hhi]
    case neg => rw [LaneEnv.raw_const (by omega) (by omega), constOf_neg hlo hhi]
    case power => rw [LaneEnv.raw_const (by omega) (by omega), constOf_power hlo hhi]
    case negPower => rw [LaneEnv.raw_const (by omega) (by omega), constOf_negPower hlo hhi]
    case lane =>
      rw [hspecial 864 (BitVec.ofNat 32 l) (by decide) rfl hn, BitVec.toNat_ofNat]
      omega
    case num => rw [hview]; rfl
    case x => rw [hview]; rfl
    case y => rw [hview]; rfl
    case z => rw [hview]; rfl
    case csIdx => rw [hview]; rfl
    case node =>
      have hnode := s.node.isLt
      rw [hspecial 872 (BitVec.ofNat 32 s.node.toNat) (by decide) rfl hn, BitVec.toNat_ofNat]
      omega
    case slot =>
      rw [hspecial 873 (BitVec.ofNat 32 (s.cur.slot % 4)) (by decide) rfl hn, BitVec.toNat_ofNat]
      omega
    case view =>
      refine (hregs r l).imp_right ?_
      rintro ⟨q, k, hkey, hmem⟩
      obtain ⟨en, hen, ws, hws, hx⟩ := mem_landingWrites.mp hmem
      exact ⟨en, hen, ws, hws, q, k, hkey, hx⟩
  case right =>
    intro x f l _ _ k _
    refine ⟨fun (hp : x.toNat / 32 = 0) => routed_some (by rw [xbarLane, hp]; rfl),
      fun (hp : x.toNat / 32 = 1) => routed_some (by rw [xbarLane, hp]; rfl),
      fun (hp : x.toNat / 32 = 2) => routed_some (by rw [xbarLane, hp]; rfl),
      fun (hp : x.toNat / 32 = 3) => routed_some (by rw [xbarLane, hp]; rfl),
      fun (hp : x.toNat / 32 = 4) => routed_some (by rw [xbarLane, hp]; rfl), fun (hp : x.toNat / 32 = 5) => ?above,
      fun (hp : x.toNat / 32 = 6) => ?quad⟩
    case above =>
      by_cases hfar : 31 < l + k
      · rw [if_pos hfar]
        exact routed_none (by rw [xbarLane, hp]; exact if_neg (by omega))
      · rw [if_neg hfar]
        exact routed_some (by rw [xbarLane, hp]; exact if_pos (by omega))
    case quad =>
      have hquad : l / 4 * 4 + k % 4 = l - l % 4 + k % 4 := by omega
      exact routed_some (by rw [xbarLane, hp]; exact congrArg some hquad)

end Sys2Proof.Proofs
end

section
namespace Sys2Proof.Machine
open Sys2Proof.Safety

/-! What a step does to memory. An operation that writes no byte leaves memory as it is (`…_mem`); one that writes keeps its canonical form
(`…_wf`), because it writes through `Memory.write` and `Memory.writeN` alone. The lemmas follow the model's definitions in their order: each goes
through the branches of its own operation and cites the lemma of every operation that it calls. -/

/-! ### Folds and outcomes -/

/-- A fold leaves memory alone when each of its steps does. -/
theorem foldl_mem {α : Type} {f : State → α → State} (hf : ∀ s a, (f s a).mem = s.mem) (l : List α) (s : State) :
    (l.foldl f s).mem = s.mem := by
  induction l generalizing s with
  | nil => rfl
  | cons a l ih => exact (ih _).trans (hf s a)

/-- A fold keeps the canonical form when each of its steps does. -/
theorem foldl_wf {α : Type} {f : State → α → State} (hf : ∀ s a, s.mem.wf = true → (f s a).mem.wf = true) (l : List α) {s : State}
    (hm : s.mem.wf = true) : (l.foldl f s).mem.wf = true := by
  induction l generalizing s with
  | nil => exact hm
  | cons a l ih => exact ih (hf s a hm)

/-- The next state of an outcome, where there is one, has its memory in the canonical form. -/
def OutWf (o : Out) : Prop := ∀ t, o = .next t → t.mem.wf = true

theorem outWf_next (t : State) : OutWf (.next t) ↔ t.mem.wf = true := by simp [OutWf]

/-! ### Rows of a core (R145, R146, R150, R151) -/

theorem State.takeRow_mem (s : State) (core slot ctx reg : Nat) : (s.takeRow core slot ctx reg).2.mem = s.mem := by
  unfold State.takeRow
  grind [State.setCore_mem]

theorem State.giveRows_mem (s : State) (core slot base n : Nat) : (s.giveRows core slot base n).mem = s.mem := by
  unfold State.giveRows
  refine foldl_mem (fun s i => ?_) _ _
  exact s.takeRow_mem core slot (s.group core slot).ctx (base + i)

@[simp] theorem State.freeRows_mem (s : State) (core slot base n : Nat) : (s.freeRows core slot base n).mem = s.mem := rfl

theorem State.useRows_mem (s : State) (core slot ctx base n : Nat) : (s.useRows core slot ctx base n).mem = s.mem := by
  unfold State.useRows
  exact foldl_mem (fun s i => s.takeRow_mem core slot ctx (base + i)) _ _

/-! ### Addresses, translation and the home (R43-R51, R60-R67, R80, R81) -/

theorem State.unitWrite_wf {s : State} {key : Nat} {bs : List Byte} (hm : s.mem.wf = true) : (s.unitWrite key bs).mem.wf = true :=
  (State.unitWrite_memStep s key bs).wf hm

theorem State.ownerCheck_mem (s : State) (ctx : Nat) (lease : Option Word) (a : Access) (va : DWord) :
    (s.ownerCheck ctx lease a va).2.mem = s.mem :=
  (State.ownerCheck_readStep s ctx lease a va).mem

theorem State.ownerLook_mem (s : State) (ctx : Nat) (lease : Option Word) (a : Access) (va : DWord) :
    (s.ownerLook ctx lease a va).2.mem = s.mem :=
  (State.ownerLook_readStep s ctx lease a va).mem

@[simp] theorem State.poisonLine_mem (s : State) (key : Nat) : (s.poisonLine key).mem = s.mem := rfl

theorem State.homeReadBy_mem (s : State) (di ctx : Nat) (va : DWord) (key n : Nat) : (s.homeReadBy di ctx va key n).2.mem = s.mem :=
  (State.homeReadBy_readStep s di ctx va key n).mem

theorem State.homeRead_mem (s : State) (ctx : Nat) (va : DWord) (key n : Nat) : (s.homeRead ctx va key n).2.mem = s.mem :=
  (State.homeRead_readStep s ctx va key n).mem

@[simp] theorem State.chargeMirror_mem (s : State) (ctx : Nat) (va : DWord) (key n : Nat) : (s.chargeMirror ctx va key n).mem = s.mem := by
  unfold State.chargeMirror
  grind [State.modDie_mem]

theorem State.homePutBy_wf {s : State} {di ctx : Nat} {va : DWord} {key : Nat} {bs : List Byte} {rel : Option Nat} (hm : s.mem.wf = true) :
    (s.homePutBy di ctx va key bs rel).2.mem.wf = true :=
  (State.homePutBy_memStep s di ctx va key bs rel).wf hm

theorem State.homePut_wf {s : State} {ctx : Nat} {va : DWord} {key : Nat} {bs : List Byte} {rel : Option Nat} (hm : s.mem.wf = true) :
    (s.homePut ctx va key bs rel).2.mem.wf = true :=
  (State.homePut_memStep s ctx va key bs rel).wf hm

@[simp] theorem State.poisonServed_mem (s : State) (ctx : Nat) (va : DWord) (key : Nat) : (s.poisonServed ctx va key).mem = s.mem := by
  unfold State.poisonServed
  grind [State.poisonLine_mem]

theorem State.scrWrite_wf {s : State} {ctx core off : Nat} {bs : List Byte} (hm : s.mem.wf = true) :
    (s.scrWrite ctx core off bs).mem.wf = true :=
  (State.scrWrite_memStep s ctx core off bs).wf hm

/-! ### Staging keys, results and snapshots (R66, R321, R359) -/

@[simp] theorem State.clearStage_mem (s : State) (di : Nat) : (s.clearStage di).mem = s.mem := rfl

@[simp] theorem State.noteDone_mem (s : State) (ctx : Nat) : (s.noteDone ctx).mem = s.mem := by
  unfold State.noteDone
  grind [State.modCtx_mem]

/-! ### Entries, copies and floors (R115, R262-R266) -/

@[simp] theorem State.setEnt_mem (s : State) (e : Entry) : (s.setEnt e).mem = s.mem := rfl
@[simp] theorem State.dropEnt_mem (s : State) (id : Nat) : (s.dropEnt id).mem = s.mem := rfl
@[simp] theorem State.enterAs_mem (s : State) (wid : Nat) (e : Entry) : (s.enterAs wid e).mem = s.mem := rfl
@[simp] theorem State.enter_mem (s : State) (e : Entry) : (s.enter e).mem = s.mem := rfl

theorem State.enterAll_mem (s : State) (es : List Entry) : (s.enterAll es).mem = s.mem := by
  unfold State.enterAll
  exact foldl_mem (fun t e => t.enterAs_mem s.nextId e) _ _

@[simp] theorem State.noteFloor_mem (s : State) (e : Entry) (spot : Nat) (fl : Floor) : (s.noteFloor e spot fl).mem = s.mem := rfl
@[simp] theorem State.settleFloors_mem (s : State) (id n : Nat) : (s.settleFloors id n).mem = s.mem := rfl
@[simp] theorem State.dropFloors_mem (s : State) (id : Nat) : (s.dropFloors id).mem = s.mem := rfl
@[simp] theorem State.dropCopies_mem (s : State) (core : Nat) (cls : PathClass) : (s.dropCopies core cls).mem = s.mem := rfl

@[simp] theorem State.acquireDrop_mem (s : State) (core scope : Nat) : (s.acquireDrop core scope).mem = s.mem := by
  unfold State.acquireDrop
  grind [State.dropCopies_mem]

@[simp] theorem State.updateCopies_mem (s : State) (core ctx : Nat) (va : DWord) (bs : List Byte) (n : Nat) :
    (s.updateCopies core ctx va bs n).mem = s.mem := rfl

@[simp] theorem State.touchCopy_mem (s : State) (core : Nat) (cls : PathClass) (ctx : Nat) (line : DWord) :
    (s.touchCopy core cls ctx line).mem = s.mem := rfl

theorem State.fill_mem (s : State) (core : Nat) (cls : PathClass) (ctx : Nat) (va : DWord) : (s.fill core cls ctx va).mem = s.mem :=
  (s.fill_fetchStep core cls ctx va).mem

/-! ### Links (R102-R108, R341) -/

@[simp] theorem State.sendOn_mem (s : State) (gate p g n : Nat) : (s.sendOn gate p g n).mem = s.mem := rfl

@[simp] theorem State.leaveFor_mem (s : State) (gate node : Nat) (va : DWord) (payload : Nat) :
    (s.leaveFor gate node va payload).mem = s.mem :=
  (State.leaveFor_fetchStep s gate node va payload).mem

@[simp] theorem State.leave_mem (s : State) (gate : Nat) (va : DWord) (payload : Nat) : (s.leave gate va payload).mem = s.mem := by
  unfold State.leave
  grind [State.leaveFor_mem]

@[simp] theorem State.cross_mem (s : State) (gate ctx : Nat) (lease : Option Word) (a : Access) (va : DWord) (payload : Nat) :
    (s.cross gate ctx lease a va payload).mem = s.mem :=
  (State.cross_fetchStep s gate ctx lease a va payload).mem

theorem State.crossAll_mem (s : State) (gate ctx : Nat) (lease : Option Word) (a : Access) (ls : List (DWord × Nat)) :
    (s.crossAll gate ctx lease a ls).mem = s.mem := by
  unfold State.crossAll
  exact foldl_mem (fun s x => s.cross_mem _ _ _ _ _ _) _ _

/-! ### Event records, saves, ends, divisions, faults and returns (R9, R139-R141, R300, R311-R326, R331-R333) -/

theorem State.postEvent_wf {s : State} {ctx rec_ : Nat} (hm : s.mem.wf = true) : (s.postEvent ctx rec_).2.mem.wf = true := by
  unfold State.postEvent
  grind [State.unitWrite_wf, State.setCtx_mem]

theorem State.sendPosts_wf {s : State} (hm : s.mem.wf = true) : (s.sendPosts).mem.wf = true := by
  unfold State.sendPosts
  exact foldl_wf (fun s p => State.postEvent_wf) _ hm

theorem State.vWrite_wf {s : State} {ctx : Nat} {va : DWord} {bs : List Byte} (hm : s.mem.wf = true) :
    (s.vWrite ctx va bs).2.mem.wf = true :=
  (State.vWrite_memStep s ctx va bs).wf hm

theorem State.vRead1_mem (s : State) (ctx : Nat) (va : DWord) (n : Nat) : (s.vRead1 ctx va n).2.mem = s.mem := by
  unfold State.vRead1
  grind [State.ownerCheck_mem, State.homeRead_mem]

theorem vReadN_mem (k : Nat) (s : State) (ctx : Nat) (va : DWord) (n : Nat) : (vReadN k s ctx va n).2.mem = s.mem := by
  induction k generalizing s va n with
  | zero => rfl
  | succ k ih => unfold vReadN; grind [State.vRead1_mem]

theorem State.vRead_mem (s : State) (ctx : Nat) (va : DWord) (n : Nat) : (s.vRead ctx va n).2.mem = s.mem :=
  vReadN_mem _ s ctx va n

@[simp] theorem State.enterSave_mem (s : State) (ag : Agent) (tag ctx op : Nat) (va : DWord) (bs : List Byte) :
    (s.enterSave ag tag ctx op va bs).mem = s.mem := rfl

theorem State.saveWrite_mem (s : State) (ag : Agent) (tag ctx op : Nat) (va : DWord) (bs : List Byte) :
    (s.saveWrite ag tag ctx op va bs).2.mem = s.mem :=
  (s.saveWrite_saveStep ag tag ctx op va bs).mem

theorem State.coreRead_mem (s : State) (core ctx : Nat) (va : DWord) (n : Nat) : (s.coreRead core ctx va n).2.mem = s.mem := by
  unfold State.coreRead
  grind [State.vRead_mem]

theorem State.putObjBits_wf {s : State} {ctx core off n : Nat} (hm : s.mem.wf = true) : (s.putObjBits ctx core off n).mem.wf = true :=
  (State.putObjBits_memStep s ctx core off n).wf hm

theorem State.withdrawWait_wf {s : State} {ctx : Nat} {w : Wait} (hm : s.mem.wf = true) : (s.withdrawWait ctx w).mem.wf = true :=
  (State.withdrawWait_memStep s ctx w).wf hm

@[simp] theorem State.launchUnitsEnded_mem (s : State) (launch : Word) (n : Nat) (failed : Bool) :
    (s.launchUnitsEnded launch n failed).mem = s.mem := by
  unfold State.launchUnitsEnded
  grind

@[simp] theorem State.cardsLose_mem (s : State) (unit off : Nat) : (s.cardsLose unit off).mem = s.mem := rfl
@[simp] theorem State.arrivalsLose_mem (s : State) (core off : Nat) : (s.arrivalsLose core off).mem = s.mem := rfl

theorem State.endUnit_wf {s : State} {unit : Nat} {failed : Bool} (hm : s.mem.wf = true) : (s.endUnit unit failed).mem.wf = true := by
  unfold State.endUnit
  split
  · exact hm
  · dsimp only
    split
    · exact hm
    · rw [State.launchUnitsEnded_mem]
      refine foldl_wf (fun t p ht => ?_) _ hm
      exact Memory.wf_write ht _ _

@[simp] theorem State.leaveCore_mem (s : State) (ctx core : Nat) : (s.leaveCore ctx core).mem = s.mem := by
  unfold State.leaveCore
  grind [State.setCtxCore_mem, State.setCore_mem]

theorem State.dropGroup_wf {s : State} {core slot : Nat} (hm : s.mem.wf = true) : (s.dropGroup core slot).mem.wf = true := by
  unfold State.dropGroup
  rw [State.leaveCore_mem]
  exact foldl_wf (fun t n => State.withdrawWait_wf) _ hm

theorem State.endGroup_wf {s : State} {core slot : Nat} (hm : s.mem.wf = true) : (s.endGroup core slot).mem.wf = true := by
  unfold State.endGroup
  grind [State.endUnit_wf, State.dropGroup_wf]

theorem State.killUnit_wf {s : State} {unit : Nat} {failed : Bool} (hm : s.mem.wf = true) : (s.killUnit unit failed).mem.wf = true := by
  unfold State.killUnit
  split
  · exact hm
  · dsimp only
    split
    · exact hm
    · split
      · exact State.endUnit_wf hm
      · exact State.endUnit_wf (foldl_wf (fun t slot => State.dropGroup_wf) _ hm)

theorem State.removeSplit_wf {s : State} {ag : Agent} (hm : s.mem.wf = true) : (s.removeSplit ag).mem.wf = true := by
  unfold State.removeSplit
  grind [State.endGroup_wf, State.setGroupOf_mem]

theorem State.endLanes_wf {s : State} {ag : Agent} (hm : s.mem.wf = true) : (s.endLanes ag).mem.wf = true := by
  unfold State.endLanes
  grind [State.setSplitOf_mem, State.removeSplit_wf, State.setGroupOf_mem]

@[simp] theorem State.forkSplit_mem (s : State) (ag : Agent) (idx : Nat) (sp : Split) : (s.forkSplit ag idx sp).mem = s.mem := rfl

theorem State.bankWrite_wf {s : State} {e : Entry} {ps : List Part} (hm : s.mem.wf = true) : (s.bankWrite e ps).mem.wf = true := by
  unfold State.bankWrite
  rw [State.settleFloors_mem]
  exact foldl_wf (fun t p ht => by grind [State.scrWrite_wf]) _ hm

theorem State.performScratch_wf {s : State} {e : Entry} (hm : s.mem.wf = true) : (s.performScratch e).mem.wf = true := by
  unfold State.performScratch
  grind [State.bankWrite_wf, State.dropEnt_mem]

theorem State.performFree_wf {s : State} {e : Entry} (hm : s.mem.wf = true) : (s.performFree e).mem.wf = true := by
  unfold State.performFree
  grind [State.bankWrite_wf, State.performScratch_wf, State.setEnt_mem, State.dropFloors_mem]

@[simp] theorem State.commitEnt_mem (s : State) (e : Entry) : (s.commitEnt e).mem = s.mem := by
  unfold State.commitEnt
  grind [State.setEnt_mem]

theorem State.trapRelease_wf {s : State} {uid : Nat} (hm : s.mem.wf = true) : (s.trapRelease uid).mem.wf = true := by
  unfold State.trapRelease
  exact foldl_wf (fun t e ht => by grind [State.performFree_wf, State.commitEnt_mem]) _ hm

theorem State.postNotice_wf {s : State} {ctx : Nat} {fa : DWord} (hm : s.mem.wf = true) : (s.postNotice ctx fa).mem.wf = true := by
  unfold State.postNotice
  grind [State.postEvent_wf]

@[simp] theorem State.modHolder_mem (s : State) (e : Entry) (f : Group → Group) : (s.modHolder e f).mem = s.mem := by
  unfold State.modHolder
  grind [State.setGroup_mem, State.setCtxCore_mem]

theorem State.recorded_wf {s : State} {e : Entry} (hm : s.mem.wf = true) : (s.recorded e).mem.wf = true := by
  unfold State.recorded
  grind [State.modHolder_mem, State.postNotice_wf]

theorem State.sendRecord_wf {s : State} {ag : Agent} {tag ctx op : Nat} {bs : List Byte} (hm : s.mem.wf = true) :
    (s.sendRecord ag tag ctx op bs).mem.wf = true := by
  unfold State.sendRecord
  grind [State.recorded_wf, State.saveWrite_mem]

theorem State.trapEntry_wf {s : State} {ag : Agent} (hm : s.mem.wf = true) : (s.trapEntry ag).mem.wf = true := by
  unfold State.trapEntry
  grind [State.setSplitOf_mem, State.trapRelease_wf, State.sendRecord_wf]

theorem State.report_wf {s : State} {ag : Agent} (hm : s.mem.wf = true) : (s.report ag).mem.wf = true := by
  unfold State.report
  grind [State.trapEntry_wf, State.killUnit_wf, State.sendRecord_wf, State.snapFire_mem]

theorem State.park_wf {s : State} {ag : Agent} {p : Report} (hm : s.mem.wf = true) : (s.park ag p).mem.wf = true := by
  unfold State.park
  grind [State.modGroup_mem, State.setSplitOf_mem, State.report_wf, State.withdrawWait_wf]

theorem State.parkApart_wf {s : State} {ag : Agent} {idx : Nat} {sp : Split} {p : Report} (hm : s.mem.wf = true) :
    (s.parkApart ag idx sp p).mem.wf = true := by
  unfold State.parkApart
  grind [State.forkSplit_mem, State.park_wf]

theorem State.scalarFault_wf {s : State} {f : Fail} (hm : s.mem.wf = true) : (s.scalarFault f).mem.wf = true := by
  unfold State.scalarFault
  grind [State.modCur_mem, State.park_wf]

theorem State.scalarTrap_wf {s : State} {k : FaultKind} (hm : s.mem.wf = true) : (s.scalarTrap k).mem.wf = true := by
  unfold State.scalarTrap
  grind [State.scalarFault_wf]

theorem illegalOperand_wf {s : State} (hm : s.mem.wf = true) : OutWf (illegalOperand s) := by
  unfold illegalOperand
  grind [outWf_next, State.scalarTrap_wf]

theorem State.finishDrain_wf {s : State} {ag : Agent} {stop : Bool} (hm : s.mem.wf = true) : (s.finishDrain ag stop).mem.wf = true := by
  unfold State.finishDrain
  grind [State.modSplit_mem, State.park_wf]

theorem State.laneDone_wf {s : State} {sw : Bool} (hm : s.mem.wf = true) : (s.laneDone sw).mem.wf = true := by
  unfold State.laneDone
  grind [State.modCur_mem, State.finishDrain_wf]

theorem State.laneFault_wf {s : State} {fails : List (Nat × Fail)} {sw : Bool} {perform : State → State} (hm : s.mem.wf = true)
    (hp : ∀ t : State, t.mem.wf = true → (perform t).mem.wf = true) :
    (s.laneFault fails sw perform).mem.wf = true := by
  unfold State.laneFault
  grind [State.parkApart_wf, State.laneDone_wf, State.modSplit_mem, State.finishDrain_wf, State.park_wf]

theorem State.laneTrap_wf {s : State} {k : FaultKind} (hm : s.mem.wf = true) : (s.laneTrap k).mem.wf = true := by
  unfold State.laneTrap
  grind [State.laneFault_wf]

@[simp] theorem State.holdReports_mem (s : State) (ag : Agent) (hs : List HeldFault) (m : Mask) : (s.holdReports ag hs m).mem = s.mem := rfl

theorem State.replyFaultIn_wf {s : State} {ag : Agent} {hs : List HeldFault} {m : Mask} (hm : s.mem.wf = true) :
    (s.replyFaultIn ag hs m).mem.wf = true := by
  unfold State.replyFaultIn
  grind [State.holdReports_mem, State.parkApart_wf, State.modSplit_mem, State.park_wf]

theorem State.replyFaultSerial_wf {s : State} {ag : Agent} {k : Nat} {r : JoinRec} {hs : List HeldFault} {m : Mask} (hm : s.mem.wf = true) :
    (s.replyFaultSerial ag k r hs m).mem.wf = true := by
  unfold State.replyFaultSerial
  grind [State.holdReports_mem, State.parkApart_wf, State.modSplit_mem, State.park_wf]

theorem State.replyFault_wf {s : State} {core slot tag : Nat} {hs : List HeldFault} (hm : s.mem.wf = true) :
    (s.replyFault core slot tag hs).mem.wf = true := by
  unfold State.replyFault
  dsimp only
  split
  · exact hm
  · refine foldl_wf (fun t n ht => ?_) _ hm
    exact foldl_wf (fun u jr hu => by grind [State.replyFaultSerial_wf]) _ (by grind [State.replyFaultIn_wf])

theorem State.replyScalarFault_wf {s : State} {e : Entry} {f : Fail} (hm : s.mem.wf = true) : (s.replyScalarFault e f).mem.wf = true := by
  unfold State.replyScalarFault
  grind [State.modSplit_mem, State.park_wf]

theorem State.faultHere_wf {s : State} {e : Entry} {hs : List HeldFault} (hm : s.mem.wf = true) : (s.faultHere e hs).mem.wf = true := by
  unfold State.faultHere
  dsimp only
  split_ifs
  · exact hm
  · exact foldl_wf (fun t h => State.replyScalarFault_wf) _ hm
  · exact State.replyFault_wf hm

theorem State.inSave_mem (s : State) (ctx core slot : Nat) (g : Group) (f : State → State) :
    (s.inSave ctx core slot g f).mem = (f (s.setGroup core slot g)).mem := by
  unfold State.inSave; grind [State.setGroup_mem, State.setCtxCore_mem]

theorem State.faultSaved_wf {s : State} {e : Entry} {hs : List HeldFault} {g : Group} (hm : s.mem.wf = true) :
    (s.faultSaved e hs g).mem.wf = true := by
  unfold State.faultSaved
  rw [State.inSave_mem]
  exact State.faultHere_wf hm

theorem State.faultEnts_wf {s : State} {e : Entry} {hs : List HeldFault} (hm : s.mem.wf = true) : (s.faultEnts e hs).mem.wf = true := by
  unfold State.faultEnts
  grind [State.faultSaved_wf, State.faultHere_wf]

theorem State.faultEnt_wf {s : State} {e : Entry} {f : Fail} (hm : s.mem.wf = true) : (s.faultEnt e f).mem.wf = true := by
  unfold State.faultEnt
  grind [State.faultEnts_wf, State.dropEnt_mem, State.dropFloors_mem]

@[simp] theorem State.replayEnts_mem (s : State) (ag : Agent) (m : Mask) (retry : Option Fail) : (s.replayEnts ag m retry).mem = s.mem := by
  unfold State.replayEnts
  grind [State.modSplit_mem, State.enterAll_mem]

theorem State.resolve_wf {s : State} {ag : Agent} {act : Nat} {cont : Mask} {tried : Option Fail} (hm : s.mem.wf = true) :
    (s.resolve ag act cont tried).mem.wf = true := by
  unfold State.resolve
  grind [State.setSplitOf_mem, State.endLanes_wf, State.replayEnts_mem]

theorem State.trapPost_wf {s : State} {ag : Agent} {cont : Mask} {fa : DWord} (hm : s.mem.wf = true) :
    (s.trapPost ag cont fa).mem.wf = true := by
  unfold State.trapPost
  grind [State.setSplitOf_mem, State.resolve_wf, State.postNotice_wf]

theorem State.trapReturn_wf {s : State} {ag : Agent} (hm : s.mem.wf = true) : (s.trapReturn ag).mem.wf = true := by
  unfold State.trapReturn
  grind [State.trapPost_wf, State.setSplitOf_mem, State.coreRead_mem, State.resolve_wf, State.scalarFault_wf]

@[simp] theorem State.advance_mem (s : State) : (s.advance).mem = s.mem := rfl

theorem State.finish_wf {s : State} {f : Split → Split} (hm : s.mem.wf = true) : OutWf (s.finish f) := by
  unfold State.finish
  grind [outWf_next, State.modCur_mem, State.advance_mem]

@[simp] theorem State.jump_mem (s : State) (addr : DWord) (unwinds : Bool) : (s.jump addr unwinds).mem = s.mem := rfl

theorem hold_wf {s : State} (hm : s.mem.wf = true) : OutWf (hold s) := by
  unfold hold
  grind [outWf_next]

@[simp] theorem State.fenceDrop_mem (s : State) (core fn ord scope : Nat) : (s.fenceDrop core fn ord scope).mem = s.mem := by
  unfold State.fenceDrop
  grind [State.dropCopies_mem, State.acquireDrop_mem]

theorem State.settleFences_mem (s : State) : s.settleFences.mem = s.mem := by
  unfold State.settleFences
  exact foldl_mem (fun s e => by grind [State.fenceDrop_mem, State.dropEnt_mem]) _ _

/-! ### Untracked results that land, and the issue of a lane word (R10, R36, R37, R161) -/

theorem State.noteFloors_mem (s : State) (e : Entry) (got : List (Part × List Taken)) : (s.noteFloors e got).mem = s.mem := by
  unfold State.noteFloors
  exact foldl_mem (fun _ _ => foldl_mem (fun _ _ => foldl_mem (fun s _ => s.noteFloor_mem _ _ _) _ _) _ _) _ _

@[simp] theorem State.bindTwins_mem (s : State) (e : Entry) (got : List (Part × List Byte)) : (s.bindTwins e got).mem = s.mem := by
  unfold State.bindTwins
  grind

@[simp] theorem State.bindLoad_mem (s : State) (e : Entry) : (s.bindLoad e).mem = s.mem := by
  unfold State.bindLoad
  grind [State.setEnt_mem, State.noteFloors_mem, State.bindTwins_mem]

theorem State.bindRacers_mem (s : State) (ag : Agent) : (s.bindRacers ag).mem = s.mem := by
  unfold State.bindRacers
  exact foldl_mem (fun t e => by grind [State.bindLoad_mem]) _ _

theorem laneIssue_wf {op : Nat} {w : LaneWord} {wins : List (Nat × Nat)} {ok : Bool} {go : State → Out} {s : State}
    (hm : s.mem.wf = true) (hgo : ∀ t : State, t.mem.wf = true → OutWf (go t)) :
    OutWf (laneIssue op w wins ok go s) := by
  unfold laneIssue
  grind [outWf_next, hold_wf, State.laneTrap_wf, State.laneFault_wf]

theorem laneWord_wf {op : Nat} {w : LaneWord} {wins : List (Nat × Nat)} {ok : Bool} {body : LaneEnv → Group → Group} {s : State}
    (hm : s.mem.wf = true) :
    OutWf (laneWord op w wins ok body s) := by
  exact laneIssue_wf hm fun t ht => (outWf_next _).mpr (State.laneDone_wf ht)

/-! ### Lane words (R185-R215) -/

theorem intWord_wf {op : Nat} {w : LaneWord} {f : Nat → Nat → Nat → Nat → Int} {s : State} (hm : s.mem.wf = true) :
    OutWf (intWord op w f s) := by
  unfold intWord
  exact laneWord_wf hm

theorem execIadd_wf {w : LaneWord} {s : State} (hm : s.mem.wf = true) : OutWf (execIadd w s) := intWord_wf hm
theorem execIsub_wf {w : LaneWord} {s : State} (hm : s.mem.wf = true) : OutWf (execIsub w s) := intWord_wf hm
theorem execImul_wf {w : LaneWord} {s : State} (hm : s.mem.wf = true) : OutWf (execImul w s) := intWord_wf hm
theorem execImulh_wf {w : LaneWord} {s : State} (hm : s.mem.wf = true) : OutWf (execImulh w s) := intWord_wf hm
theorem execImad_wf {w : LaneWord} {s : State} (hm : s.mem.wf = true) : OutWf (execImad w s) := intWord_wf hm
theorem execImin_wf {w : LaneWord} {s : State} (hm : s.mem.wf = true) : OutWf (execImin w s) := intWord_wf hm
theorem execImax_wf {w : LaneWord} {s : State} (hm : s.mem.wf = true) : OutWf (execImax w s) := intWord_wf hm
theorem execIabs_wf {w : LaneWord} {s : State} (hm : s.mem.wf = true) : OutWf (execIabs w s) := intWord_wf hm
theorem execAnd_wf {w : LaneWord} {s : State} (hm : s.mem.wf = true) : OutWf (execAnd w s) := intWord_wf hm
theorem execOr_wf {w : LaneWord} {s : State} (hm : s.mem.wf = true) : OutWf (execOr w s) := intWord_wf hm
theorem execXor_wf {w : LaneWord} {s : State} (hm : s.mem.wf = true) : OutWf (execXor w s) := intWord_wf hm
theorem execAndn_wf {w : LaneWord} {s : State} (hm : s.mem.wf = true) : OutWf (execAndn w s) := intWord_wf hm
theorem execShl_wf {w : LaneWord} {s : State} (hm : s.mem.wf = true) : OutWf (execShl w s) := intWord_wf hm
theorem execShr_wf {w : LaneWord} {s : State} (hm : s.mem.wf = true) : OutWf (execShr w s) := intWord_wf hm
theorem execSra_wf {w : LaneWord} {s : State} (hm : s.mem.wf = true) : OutWf (execSra w s) := intWord_wf hm
theorem execRot_wf {w : LaneWord} {s : State} (hm : s.mem.wf = true) : OutWf (execRot w s) := intWord_wf hm
theorem execBfx_wf {w : LaneWord} {s : State} (hm : s.mem.wf = true) : OutWf (execBfx w s) := intWord_wf hm

theorem execBfi_wf {w : LaneWord} {s : State} (hm : s.mem.wf = true) : OutWf (execBfi w s) := by
  unfold execBfi
  exact laneWord_wf hm

theorem execPopc_wf {w : LaneWord} {s : State} (hm : s.mem.wf = true) : OutWf (execPopc w s) := intWord_wf hm
theorem execClz_wf {w : LaneWord} {s : State} (hm : s.mem.wf = true) : OutWf (execClz w s) := intWord_wf hm

theorem execIcmp_wf {w : LaneWord} {s : State} (hm : s.mem.wf = true) : OutWf (execIcmp w s) := by
  unfold execIcmp
  exact laneWord_wf hm

theorem execImadw_wf {w : LaneWord} {s : State} (hm : s.mem.wf = true) : OutWf (execImadw w s) := by
  unfold execImadw
  exact laneWord_wf hm

theorem execIaddx_wf {w : LaneWord} {s : State} (hm : s.mem.wf = true) : OutWf (execIaddx w s) := by
  unfold execIaddx
  exact laneWord_wf hm

theorem floatWord_wf {op : Nat} {w : LaneWord} {f : FloatFmt → Nat → Nat → Nat → Nat} {s : State} (hm : s.mem.wf = true) :
    OutWf (floatWord op w f s) := by
  unfold floatWord
  exact laneWord_wf hm

theorem execFadd_wf {w : LaneWord} {s : State} (hm : s.mem.wf = true) : OutWf (execFadd w s) := floatWord_wf hm
theorem execFsub_wf {w : LaneWord} {s : State} (hm : s.mem.wf = true) : OutWf (execFsub w s) := floatWord_wf hm
theorem execFmul_wf {w : LaneWord} {s : State} (hm : s.mem.wf = true) : OutWf (execFmul w s) := floatWord_wf hm
theorem execFfma_wf {w : LaneWord} {s : State} (hm : s.mem.wf = true) : OutWf (execFfma w s) := floatWord_wf hm
theorem execFmin_wf {w : LaneWord} {s : State} (hm : s.mem.wf = true) : OutWf (execFmin w s) := floatWord_wf hm
theorem execFmax_wf {w : LaneWord} {s : State} (hm : s.mem.wf = true) : OutWf (execFmax w s) := floatWord_wf hm

theorem execFcmp_wf {w : LaneWord} {s : State} (hm : s.mem.wf = true) : OutWf (execFcmp w s) := by
  unfold execFcmp
  exact laneWord_wf hm

theorem execFrcp_wf {w : LaneWord} {s : State} (hm : s.mem.wf = true) : OutWf (execFrcp w s) := floatWord_wf hm
theorem execFrsq_wf {w : LaneWord} {s : State} (hm : s.mem.wf = true) : OutWf (execFrsq w s) := floatWord_wf hm
theorem execFexp2_wf {w : LaneWord} {s : State} (hm : s.mem.wf = true) : OutWf (execFexp2 w s) := floatWord_wf hm
theorem execFlog2_wf {w : LaneWord} {s : State} (hm : s.mem.wf = true) : OutWf (execFlog2 w s) := floatWord_wf hm
theorem execFscl_wf {w : LaneWord} {s : State} (hm : s.mem.wf = true) : OutWf (execFscl w s) := floatWord_wf hm
theorem execFrnd_wf {w : LaneWord} {s : State} (hm : s.mem.wf = true) : OutWf (execFrnd w s) := floatWord_wf hm
theorem execFclass_wf {w : LaneWord} {s : State} (hm : s.mem.wf = true) : OutWf (execFclass w s) := floatWord_wf hm

theorem dotWord_wf {op n : Nat} {w : LaneWord} {s : State} (hm : s.mem.wf = true) : OutWf (dotWord op n w s) := by
  unfold dotWord
  exact laneWord_wf hm

theorem execDp4_wf {w : LaneWord} {s : State} (hm : s.mem.wf = true) : OutWf (execDp4 w s) := dotWord_wf hm
theorem execDp8_wf {w : LaneWord} {s : State} (hm : s.mem.wf = true) : OutWf (execDp8 w s) := dotWord_wf hm
theorem execDph2_wf {w : LaneWord} {s : State} (hm : s.mem.wf = true) : OutWf (execDph2 w s) := dotWord_wf hm

theorem cvtWord_wf {op : Nat} {isInt : Bool} {w : LaneWord} {s : State} (hm : s.mem.wf = true) : OutWf (cvtWord op isInt w s) := by
  unfold cvtWord
  exact laneWord_wf hm

theorem execCvt_wf {w : LaneWord} {s : State} (hm : s.mem.wf = true) : OutWf (execCvt w s) := cvtWord_wf hm
theorem execCvti_wf {w : LaneWord} {s : State} (hm : s.mem.wf = true) : OutWf (execCvti w s) := cvtWord_wf hm

theorem execPack_wf {w : LaneWord} {s : State} (hm : s.mem.wf = true) : OutWf (execPack w s) := by
  unfold execPack
  exact laneWord_wf hm

theorem execUnpk_wf {w : LaneWord} {s : State} (hm : s.mem.wf = true) : OutWf (execUnpk w s) := by
  unfold execUnpk
  exact laneWord_wf hm

theorem execSel_wf {w : LaneWord} {s : State} (hm : s.mem.wf = true) : OutWf (execSel w s) := by
  unfold execSel
  exact laneWord_wf hm

theorem execPlog_wf {w : LaneWord} {s : State} (hm : s.mem.wf = true) : OutWf (execPlog w s) := by
  unfold execPlog
  exact laneWord_wf hm

theorem execVote_wf {w : LaneWord} {s : State} (hm : s.mem.wf = true) : OutWf (execVote w s) := by
  unfold execVote
  exact laneWord_wf hm

theorem execPmov_wf {w : LaneWord} {s : State} (hm : s.mem.wf = true) : OutWf (execPmov w s) := by
  unfold execPmov
  exact laneWord_wf hm

theorem execMov_wf {w : LaneWord} {s : State} (hm : s.mem.wf = true) : OutWf (execMov w s) := by
  unfold execMov
  exact laneWord_wf hm

theorem execMovi_wf {w : LaneWord} {s : State} (hm : s.mem.wf = true) : OutWf (execMovi w s) := by
  unfold execMovi
  exact laneWord_wf hm

theorem execShuf_wf {w : LaneWord} {s : State} (hm : s.mem.wf = true) : OutWf (execShuf w s) := by
  unfold execShuf
  exact laneWord_wf hm

theorem execGath_wf {w : LaneWord} {s : State} (hm : s.mem.wf = true) : OutWf (execGath w s) := by
  unfold execGath
  exact laneWord_wf hm

theorem execRedl_wf {w : LaneWord} {s : State} (hm : s.mem.wf = true) : OutWf (execRedl w s) := by
  unfold execRedl
  exact laneWord_wf hm

theorem execScanl_wf {w : LaneWord} {s : State} (hm : s.mem.wf = true) : OutWf (execScanl w s) := by
  unfold execScanl
  exact laneWord_wf hm

theorem execLtrap_wf {w : LaneWord} {s : State} (hm : s.mem.wf = true) : OutWf (execLtrap w s) := by
  unfold execLtrap
  exact laneIssue_wf hm fun t ht => by
    grind [outWf_next, State.laneDone_wf, State.laneFault_wf]

theorem execLnop_wf {w : LaneWord} {s : State} (hm : s.mem.wf = true) : OutWf (execLnop w s) := by
  unfold execLnop
  exact laneIssue_wf hm fun t ht => by
    grind [outWf_next, State.laneDone_wf]

/-! ### Frames, rings, flits and lost wavelengths (R92, R100-R110, R362) -/

theorem execFrameBoundary_wf {s : State} (hm : s.mem.wf = true) : OutWf (execFrameBoundary s) := by
  unfold execFrameBoundary
  grind [outWf_next, State.snapFire_mem]

theorem execDriftLoopPass_wf {die : Nat} {s : State} (hm : s.mem.wf = true) : OutWf (execDriftLoopPass die s) := by
  unfold execDriftLoopPass
  grind [outWf_next, State.setDie_mem, hold_wf]

theorem State.linkDegrade_wf {s : State} {reason : Nat} {rx : Bool} {plane group : Nat} {live : BitVec 16} {replayed : Nat}
    (hm : s.mem.wf = true) :
    (s.linkDegrade reason rx plane group live replayed).mem.wf = true := by
  unfold State.linkDegrade
  rw [State.snapFire_mem]
  exact foldl_wf (fun t c => State.postEvent_wf) _ hm

theorem State.fibreOut_mem (s : State) (fibre : Nat) (rx : Bool) : (s.fibreOut fibre rx).mem = s.mem := by
  unfold State.fibreOut
  exact foldl_mem (fun s g => s.setLink_mem _ _) _ _

theorem execFlitReceive_wf {fibre grp : Nat} {seq : Word} {crcOk macOk : Bool} {s : State} (hm : s.mem.wf = true) :
    OutWf (execFlitReceive fibre grp seq crcOk macOk s) := by
  unfold execFlitReceive
  grind [outWf_next, hold_wf, State.linkDegrade_wf, State.setLink_mem, State.fibreOut_mem]

theorem replayGroup_mem (k : Nat) (s : State) (fibre grp : Nat) : (replayGroup k s fibre grp).mem = s.mem := by
  induction k generalizing s with
  | zero => rfl
  | succ k ih => unfold replayGroup; grind [State.sendOn_mem, State.setLink_mem]

theorem State.replayPass_mem (s : State) : s.replayPass.mem = s.mem := by
  unfold State.replayPass
  generalize sendGroups = gs
  exact foldl_mem (fun s x => replayGroup_mem _ s _ _) gs s

theorem replayPasses_mem (k : Nat) (s : State) : (replayPasses k s).mem = s.mem := by
  induction k generalizing s with
  | zero => rfl
  | succ k ih => unfold replayPasses; grind [State.replayPass_mem]

theorem State.replayLost_mem (s : State) : s.replayLost.mem = s.mem := replayPasses_mem _ s

theorem execFlitAck_wf {fibre grp : Nat} {seq : Word} {s : State} (hm : s.mem.wf = true) : OutWf (execFlitAck fibre grp seq s) := by
  unfold execFlitAck
  grind [outWf_next, State.replayLost_mem, hold_wf, State.setLink_mem]

theorem State.settleGroup_wf {s : State} {fibre grp : Nat} {rx : Bool} {live : BitVec 16} {replayed : Nat} (hm : s.mem.wf = true) :
    (s.settleGroup fibre grp rx live replayed).mem.wf = true := by
  unfold State.settleGroup
  grind [State.replayLost_mem, State.linkDegrade_wf, State.setLink_mem]

theorem execWavelengthLoss_wf {fibre grp : Nat} {rx : Bool} {lost : BitVec 16} {s : State} (hm : s.mem.wf = true) :
    OutWf (execWavelengthLoss fibre grp rx lost s) := by
  unfold execWavelengthLoss
  grind [outWf_next, State.settleGroup_wf, hold_wf, State.setLink_mem]

theorem execRestripeNotice_wf {fibre grp : Nat} {s : State} (hm : s.mem.wf = true) : OutWf (execRestripeNotice fibre grp s) := by
  unfold execRestripeNotice
  grind [outWf_next, State.settleGroup_wf, hold_wf]

theorem execLinkRestore_wf {fibre grp : Nat} {rx : Bool} {live : BitVec 16} {s : State} (hm : s.mem.wf = true) :
    OutWf (execLinkRestore fibre grp rx live s) := by
  unfold execLinkRestore
  grind [outWf_next, State.replayLost_mem, State.linkDegrade_wf, State.setLink_mem]

/-! ### Quotas and channels (R96-R99, R364) -/

@[simp] theorem State.charge_mem (s : State) (i n : Nat) : (s.charge i n).mem = s.mem := rfl
@[simp] theorem State.injectEnt_mem (s : State) (e : Entry) : (s.injectEnt e).mem = s.mem := rfl

theorem injectTurn_mem (p : List Nat × State) (e : Entry) : (injectTurn p e).2.mem = p.2.mem := by
  unfold injectTurn; grind [State.injectEnt_mem]

theorem State.injectAll_mem (s : State) : s.injectAll.mem = s.mem := by
  have go (es : List Entry) (p : List Nat × State) : (es.foldl injectTurn p).2.mem = p.2.mem := by
    induction es generalizing p with
    | nil => rfl
    | cons e es ih => exact (ih _).trans (injectTurn_mem p e)
  exact go _ _

@[simp] theorem State.noteWriter_mem (s : State) (chan writer : Nat) : (s.noteWriter chan writer).mem = s.mem := rfl
@[simp] theorem State.noteServed_mem (s : State) (e : Entry) : (s.noteServed e).mem = s.mem := rfl

@[simp] theorem State.brought_mem (s : State) (e : Entry) : (s.brought e).mem = s.mem := by
  unfold State.brought
  grind [State.cross_mem, State.noteServed_mem]

@[simp] theorem State.noteReply_mem (s : State) (cluster : Nat) (va : DWord) : (s.noteReply cluster va).mem = s.mem := rfl

@[simp] theorem State.coreAsk_mem (s : State) (core ctx : Nat) (lease : Option Word) (a : Access) (va : DWord) :
    (s.coreAsk core ctx lease a va).mem = s.mem :=
  (State.coreAsk_fetchStep s core ctx lease a va).mem

/-! ### The core image (R331-R337) -/

theorem State.sendLines_mem (s : State) (ctx core : Nat) (ls : List ImgPiece) : (s.sendLines ctx core ls).2.mem = s.mem := by
  unfold State.sendLines
  dsimp only
  split
  · exact foldl_mem (fun s p => s.enterSave_mem _ _ _ _ _ _) _ _
  · rfl

@[simp] theorem State.resave_mem (s old : State) (ctx core slot : Nat) (regs : List Nat) :
    (s.resave old ctx core slot regs).mem = s.mem := by
  unfold State.resave
  grind [State.sendLines_mem]

@[simp] theorem State.reimage_mem (s old : State) (e : Entry) (regs : List Nat) : (s.reimage old e regs).mem = s.mem := by
  unfold State.reimage
  grind [State.resave_mem]

/-! ### Scalar and affine words (R162-R166, R276-R280) -/

theorem scalarWord_wf {ok : Bool} {reads : List Nat} {go : State → Out} {s : State} (hm : s.mem.wf = true)
    (hgo : ∀ t : State, t.mem.wf = true → OutWf (go t)) :
    OutWf (scalarWord ok reads go s) := by
  unfold scalarWord
  grind [illegalOperand_wf, hold_wf]

theorem orderWord_wf {ok : Bool} {reads : List Nat} {go : State → Out} {s : State} (hm : s.mem.wf = true)
    (hgo : ∀ t : State, t.mem.wf = true → OutWf (go t)) :
    OutWf (orderWord ok reads go s) := by
  exact scalarWord_wf hm fun t ht => by grind [hold_wf]

theorem aluWord_wf {d a b : BitVec 6} {imm : Bool} {f : Word → Word → Word} {s : State} (hm : s.mem.wf = true) :
    OutWf (aluWord d a b imm f s) := by
  unfold aluWord
  exact scalarWord_wf hm fun t ht => by
    grind [State.finish_wf]

theorem execSadd_wf {d a b : BitVec 6} {imm : Bool} {s : State} (hm : s.mem.wf = true) : OutWf (execSadd d a b imm s) := aluWord_wf hm
theorem execSsub_wf {d a b : BitVec 6} {imm : Bool} {s : State} (hm : s.mem.wf = true) : OutWf (execSsub d a b imm s) := aluWord_wf hm
theorem execSmul_wf {d a b : BitVec 6} {imm : Bool} {s : State} (hm : s.mem.wf = true) : OutWf (execSmul d a b imm s) := aluWord_wf hm

theorem execSmulh_wf {d a b : BitVec 6} {imm uns : Bool} {s : State} (hm : s.mem.wf = true) :
    OutWf (execSmulh d a b imm uns s) := aluWord_wf hm

theorem execSand_wf {d a b : BitVec 6} {imm : Bool} {s : State} (hm : s.mem.wf = true) : OutWf (execSand d a b imm s) := aluWord_wf hm
theorem execSor_wf {d a b : BitVec 6} {imm : Bool} {s : State} (hm : s.mem.wf = true) : OutWf (execSor d a b imm s) := aluWord_wf hm
theorem execSxor_wf {d a b : BitVec 6} {imm : Bool} {s : State} (hm : s.mem.wf = true) : OutWf (execSxor d a b imm s) := aluWord_wf hm
theorem execSshl_wf {d a b : BitVec 6} {imm : Bool} {s : State} (hm : s.mem.wf = true) : OutWf (execSshl d a b imm s) := aluWord_wf hm
theorem execSshr_wf {d a b : BitVec 6} {imm : Bool} {s : State} (hm : s.mem.wf = true) : OutWf (execSshr d a b imm s) := aluWord_wf hm
theorem execSsra_wf {d a b : BitVec 6} {imm : Bool} {s : State} (hm : s.mem.wf = true) : OutWf (execSsra d a b imm s) := aluWord_wf hm

theorem execSmin_wf {d a b : BitVec 6} {imm uns : Bool} {s : State} (hm : s.mem.wf = true) :
    OutWf (execSmin d a b imm uns s) := aluWord_wf hm

theorem execSmax_wf {d a b : BitVec 6} {imm uns : Bool} {s : State} (hm : s.mem.wf = true) :
    OutWf (execSmax d a b imm uns s) := aluWord_wf hm

theorem execScmp_wf {d a b : BitVec 6} {imm : Bool} {cond : BitVec 3} {uns : Bool} {s : State} (hm : s.mem.wf = true) :
    OutWf (execScmp d a b imm cond uns s) := by
  unfold execScmp
  exact scalarWord_wf hm fun t ht => by
    grind [State.finish_wf]

theorem execSsel_wf {d a b : BitVec 6} {s : State} (hm : s.mem.wf = true) : OutWf (execSsel d a b s) := by
  unfold execSsel
  exact scalarWord_wf hm fun t ht => by
    grind [State.finish_wf]

theorem execSmovi_wf {d : BitVec 6} {imm14 : BitVec 14} {s : State} (hm : s.mem.wf = true) :
    OutWf (execSmovi d imm14 s) := State.finish_wf hm

theorem execSlui_wf {d : BitVec 6} {imm14 : BitVec 14} {s : State} (hm : s.mem.wf = true) : OutWf (execSlui d imm14 s) := State.finish_wf hm

theorem execSlea_wf {d : BitVec 6} {off : BitVec 20} {s : State} (hm : s.mem.wf = true) : OutWf (execSlea d off s) := by
  unfold execSlea
  exact scalarWord_wf hm fun t ht => by
    grind [State.finish_wf]

@[simp] theorem State.enterScalar_mem (s : State) (kind : EKind) (va : DWord) (data : List Byte) (sdst : Option Nat) :
    (s.enterScalar kind va data sdst).mem = s.mem := rfl

theorem execSld_wf {d a : BitVec 6} {imm14 : BitVec 14} {s : State} (hm : s.mem.wf = true) : OutWf (execSld d a imm14 s) := by
  unfold execSld
  exact scalarWord_wf hm fun t ht => by
    grind [outWf_next, hold_wf, State.scalarFault_wf, State.advance_mem, State.enterScalar_mem]

theorem execSst_wf {d a : BitVec 6} {imm14 : BitVec 14} {s : State} (hm : s.mem.wf = true) : OutWf (execSst d a imm14 s) := by
  unfold execSst
  exact scalarWord_wf hm fun t ht => by
    grind [outWf_next, hold_wf, State.scalarFault_wf, State.advance_mem, State.enterScalar_mem]

theorem execSget_wf {d : BitVec 6} {item : BitVec 8} {s : State} (hm : s.mem.wf = true) : OutWf (execSget d item s) := by
  unfold execSget
  grind [illegalOperand_wf, State.finish_wf, hold_wf]

theorem execSset_wf {a : BitVec 6} {item : BitVec 8} {s : State} (hm : s.mem.wf = true) : OutWf (execSset a item s) := by
  unfold execSset
  exact scalarWord_wf hm fun t ht => by
    grind [outWf_next, State.modGroup_mem, State.finish_wf, hold_wf, State.advance_mem]

theorem affWord_wf {d b : BitVec 6} {imm : Bool} {f : Affine → Word → Affine} {s : State} (hm : s.mem.wf = true) :
    OutWf (affWord d b imm f s) := by
  unfold affWord
  exact scalarWord_wf hm fun t ht => by
    grind [State.finish_wf]

theorem execAmov_wf {d a : BitVec 6} {imm14 : BitVec 14} {s : State} (hm : s.mem.wf = true) : OutWf (execAmov d a imm14 s) := by
  unfold execAmov
  exact scalarWord_wf hm fun t ht => by
    grind [State.finish_wf]

theorem execAadd_wf {d b : BitVec 6} {imm : Bool} {s : State} (hm : s.mem.wf = true) : OutWf (execAadd d b imm s) := affWord_wf hm

theorem execAadda_wf {d a b : BitVec 6} {imm : Bool} {s : State} (hm : s.mem.wf = true) : OutWf (execAadda d a b imm s) := by
  unfold execAadda
  exact scalarWord_wf hm fun t ht => by
    grind [State.finish_wf]

theorem execAscl_wf {d b : BitVec 6} {imm : Bool} {s : State} (hm : s.mem.wf = true) : OutWf (execAscl d b imm s) := affWord_wf hm
theorem execAshl_wf {d b : BitVec 6} {imm : Bool} {s : State} (hm : s.mem.wf = true) : OutWf (execAshl d b imm s) := affWord_wf hm
theorem execAstr_wf {d b : BitVec 6} {imm : Bool} {s : State} (hm : s.mem.wf = true) : OutWf (execAstr d b imm s) := affWord_wf hm

theorem execAget_wf {d a : BitVec 6} {str : Bool} {s : State} (hm : s.mem.wf = true) : OutWf (execAget d a str s) := by
  unfold execAget
  exact scalarWord_wf hm fun t ht => by
    grind [State.finish_wf]

/-! ### Instruction fetch (R34, R38, R60) -/

theorem State.fetchBytes_mem (s : State) (ag : Agent) (va : DWord) (n : Nat) : (s.fetchBytes ag va n).2.mem = s.mem :=
  (State.fetchBytes_fetchStep s ag va n).mem

theorem State.fetchLane_mem (s : State) (ag : Agent) (sp : Split) (lpc : Word) (order : Nat) :
    (s.fetchLane ag sp lpc order).2.mem = s.mem := by
  unfold State.fetchLane
  grind [State.fetchBytes_mem]

theorem fetchLanes_mem (n : Nat) (s : State) (ag : Agent) (sp : Split) (lpc : Word) (order : Nat) :
    (fetchLanes n s ag sp lpc order).2.mem = s.mem := by
  induction n generalizing s lpc order with
  | zero => rfl
  | succ n ih => unfold fetchLanes; grind [State.fetchLane_mem]

/-! ### Control words (R12, R281-R292) -/

theorem afterLanes_wf {go : State → Out} {s : State} (hm : s.mem.wf = true) (hgo : ∀ t : State, t.mem.wf = true → OutWf (go t)) :
    OutWf (afterLanes go s) := by
  unfold afterLanes
  grind [hold_wf]

theorem afterResults_wf {go : State → Out} {s : State} (hm : s.mem.wf = true) (hgo : ∀ t : State, t.mem.wf = true → OutWf (go t)) :
    OutWf (afterResults go s) := by
  unfold afterResults
  grind [hold_wf]

theorem execBr_wf {off : BitVec 22} {s : State} (hm : s.mem.wf = true) : OutWf (execBr off s) := by
  unfold execBr
  grind [outWf_next, State.jump_mem]

theorem execBrc_wf {p : BitVec 3} {n : Bool} {off : BitVec 22} {s : State} (hm : s.mem.wf = true) : OutWf (execBrc p n off s) := by
  unfold execBrc
  have go : ∀ t : State, t.mem.wf = true → OutWf (if t.brcTest p n then .next (t.jump (t.target off) true) else .next t.advance) := by
    grind [outWf_next, State.jump_mem, State.advance_mem]
  split
  · exact afterLanes_wf hm go
  · exact afterResults_wf hm go

theorem execCall_wf {off : BitVec 22} {s : State} (hm : s.mem.wf = true) : OutWf (execCall off s) := by
  unfold execCall
  grind [outWf_next, State.modCur_mem, State.jump_mem]

theorem execRet_wf {a : BitVec 6} {s : State} (hm : s.mem.wf = true) : OutWf (execRet a s) := by
  unfold execRet
  exact scalarWord_wf hm fun t ht => by
    grind [outWf_next, State.jump_mem, State.scalarFault_wf]

theorem execLjmp_wf {off : BitVec 22} {s : State} (hm : s.mem.wf = true) : OutWf (execLjmp off s) := State.finish_wf hm

theorem pushLoop_wf {count : Word} {fin : BitVec 16} {s : State} (hm : s.mem.wf = true) : OutWf (pushLoop count fin s) := by
  unfold pushLoop
  grind [outWf_next, State.finish_wf, State.scalarTrap_wf]

theorem execLoop_wf {cnt : BitVec 10} {fin : BitVec 16} {s : State} (hm : s.mem.wf = true) : OutWf (execLoop cnt fin s) := by
  unfold execLoop
  grind [pushLoop_wf, illegalOperand_wf]

theorem execLoopr_wf {r : BitVec 6} {fin : BitVec 16} {s : State} (hm : s.mem.wf = true) : OutWf (execLoopr r fin s) := by
  unfold execLoopr
  exact scalarWord_wf hm fun t ht => by
    grind [outWf_next, pushLoop_wf, State.jump_mem]

theorem execLbrk_wf {s : State} (hm : s.mem.wf = true) : OutWf (execLbrk s) := by
  unfold execLbrk
  grind [outWf_next, illegalOperand_wf, State.modCur_mem]

theorem execLrun_wf {cnt : BitVec 10} {s : State} (hm : s.mem.wf = true) : OutWf (execLrun cnt s) := by
  unfold execLrun
  grind [outWf_next, State.modGroup_mem, illegalOperand_wf, fetchLanes_mem, State.modCur_mem, hold_wf, State.advance_mem]

theorem State.divide_mem (s : State) (idx : Nat) (t : Mask) (target : DWord) (rec_ : JoinRec) :
    (s.divide idx t target rec_).mem = s.mem := by
  unfold State.divide
  grind [State.setSplitOf_mem, State.forkSplit_mem, State.modGroup_mem]

@[simp] theorem State.serialRun_mem (s : State) (t : Mask) (target : DWord) (join : Word) : (s.serialRun t target join).mem = s.mem := rfl

theorem execBrv_wf {p : BitVec 3} {n : Bool} {tgt join : BitVec 11} {s : State} (hm : s.mem.wf = true) :
    OutWf (execBrv p n tgt join s) := by
  unfold execBrv
  split
  · exact illegalOperand_wf hm
  · exact afterResults_wf hm fun t ht => by
      grind [outWf_next, State.jump_mem, State.advance_mem, State.scalarTrap_wf, State.divide_mem, State.serialRun_mem]

@[simp] theorem State.adoptEnts_mem (s : State) (olds : List Nat) (new : Nat) : (s.adoptEnts olds new).mem = s.mem := rfl

@[simp] theorem State.mergeClass_mem (s : State) (core slot : Nat) (ns : List Nat) : (s.mergeClass core slot ns).mem = s.mem := by
  unfold State.mergeClass
  grind [State.setGroup_mem, State.adoptEnts_mem]

@[simp] theorem State.serialJoin_mem (s : State) (core slot : Nat) (ns : List Nat) (r : JoinRec) :
    (s.serialJoin core slot ns r).mem = s.mem := by
  unfold State.serialJoin
  grind [State.setGroup_mem, State.mergeClass_mem]

theorem execJoinMerge_wf {core slot brvid : Nat} {s : State} (hm : s.mem.wf = true) : OutWf (execJoinMerge core slot brvid s) := by
  unfold execJoinMerge
  dsimp only
  split_ifs
  · exact hold_wf hm
  · split
    · split_ifs
      · exact (outWf_next _).mpr ((State.serialJoin_mem _ _ _ _ _).symm ▸ hm)
      · exact (outWf_next _).mpr (foldl_wf (fun t c ht => (State.mergeClass_mem _ _ _ _).symm ▸ ht) _ hm)
    · exact hold_wf hm

theorem execExit_wf {s : State} (hm : s.mem.wf = true) : OutWf (execExit s) := by
  unfold execExit
  grind [outWf_next, State.modCur_mem]

theorem execSplitEnd_wf {ag : Agent} {s : State} (hm : s.mem.wf = true) : OutWf (execSplitEnd ag s) := by
  unfold execSplitEnd
  grind [outWf_next, State.endLanes_wf, hold_wf]

theorem execSnop_wf {s : State} (hm : s.mem.wf = true) : OutWf (execSnop s) := by
  unfold execSnop
  grind [outWf_next, State.advance_mem]

theorem execYield_wf {s : State} (hm : s.mem.wf = true) : OutWf (execYield s) := State.finish_wf hm

theorem execTrap_wf {code : BitVec 8} {s : State} (hm : s.mem.wf = true) : OutWf (execTrap code s) := by
  unfold execTrap
  grind [outWf_next, State.scalarTrap_wf]

theorem execTret_wf {s : State} (hm : s.mem.wf = true) : OutWf (execTret s) := by
  unfold execTret
  dsimp only
  split
  · exact illegalOperand_wf hm
  · split
    · exact hold_wf hm
    · split
      · exact (outWf_next _).mpr (State.scalarFault_wf hm)
      · split
        · exact hold_wf hm
        · exact (outWf_next _).mpr (State.trapReturn_wf ((State.coreAsk_mem _ _ _ _ _ _).symm ▸ hm))

theorem execIllegalOp_wf {s : State} (hm : s.mem.wf = true) : OutWf (execIllegalOp s) := by
  unfold execIllegalOp
  grind [outWf_next, State.scalarTrap_wf, State.laneTrap_wf]

theorem execIdemb_wf {s : State} (hm : s.mem.wf = true) : OutWf (execIdemb s) := by
  unfold execIdemb
  grind [outWf_next, State.modGroup_mem, illegalOperand_wf, State.advance_mem]

theorem execIdeme_wf {s : State} (hm : s.mem.wf = true) : OutWf (execIdeme s) := by
  unfold execIdeme
  grind [outWf_next, State.modGroup_mem, illegalOperand_wf, State.advance_mem]

@[simp] theorem State.grow_mem (s : State) (ag : Agent) (k : Nat) : (s.grow ag k).mem = s.mem := by
  unfold State.grow
  grind [State.modGroup_mem, State.giveRows_mem]

@[simp] theorem State.growDone_mem (s : State) (k : Nat) : (s.growDone k).mem = s.mem := by
  unfold State.growDone
  grind [State.modCur_mem, State.grow_mem, State.advance_mem]

theorem execReggrow_wf {b : BitVec 6} {imm try_ : Bool} {s : State} (hm : s.mem.wf = true) : OutWf (execReggrow b imm try_ s) := by
  unfold execReggrow
  exact scalarWord_wf hm fun t ht => by
    grind [outWf_next, State.growDone_mem, illegalOperand_wf, State.finish_wf, State.modCur_mem, State.setCore_mem]

theorem execReggrowRetry_wf {core : Nat} {s : State} (hm : s.mem.wf = true) : OutWf (execReggrowRetry core s) := by
  unfold execReggrowRetry
  grind [outWf_next, State.growDone_mem, illegalOperand_wf, State.modCur_mem, hold_wf]

@[simp] theorem State.shrinkDone_mem (s : State) (k : Nat) : (s.shrinkDone k).mem = s.mem := rfl

theorem execRegshrink_wf {b : BitVec 6} {imm : Bool} {s : State} (hm : s.mem.wf = true) : OutWf (execRegshrink b imm s) := by
  unfold execRegshrink
  exact scalarWord_wf hm fun t ht => by
    grind [outWf_next, State.shrinkDone_mem, illegalOperand_wf, State.modCur_mem]

theorem execRegshrinkRelease_wf {ag : Agent} {s : State} (hm : s.mem.wf = true) : OutWf (execRegshrinkRelease ag s) := by
  unfold execRegshrinkRelease
  grind [outWf_next, State.shrinkDone_mem, illegalOperand_wf, State.modCur_mem, hold_wf]

/-! ### Lane memory words (R153-R156, R235-R252) -/

theorem memIssue_wf {op : Nat} {w : LaneWord} {wins : List (Nat × Nat)} {go : State → Out} {s : State} (hm : s.mem.wf = true)
    (hgo : ∀ t : State, t.mem.wf = true → OutWf (go t)) :
    OutWf (memIssue op w wins go s) := by
  exact laneIssue_wf hm fun t ht => by grind [hold_wf, State.acquireDrop_mem]

theorem State.issueWith_wf {s : State} {fails : List (Nat × Fail)} {sw : Bool} {perform : State → State} (hm : s.mem.wf = true)
    (hp : ∀ t : State, t.mem.wf = true → (perform t).mem.wf = true) :
    (s.issueWith fails sw perform).mem.wf = true := by
  unfold State.issueWith
  grind [State.laneDone_wf, State.laneFault_wf]

theorem State.issueMem_wf {s : State} {fails : List (Nat × Fail)} {sw : Bool} {es : List Entry} (hm : s.mem.wf = true) :
    (s.issueMem fails sw es).mem.wf = true := by
  unfold State.issueMem
  grind [State.enterAll_mem, State.issueWith_wf]

theorem execLd_wf {w : LaneWord} {s : State} (hm : s.mem.wf = true) : OutWf (execLd w s) := by
  unfold execLd
  exact memIssue_wf hm fun t ht => by
    grind [outWf_next, State.issueMem_wf]

theorem execSt_wf {w : LaneWord} {s : State} (hm : s.mem.wf = true) : OutWf (execSt w s) := by
  unfold execSt
  exact memIssue_wf hm fun t ht => by
    grind [outWf_next, State.issueMem_wf]

@[simp] theorem State.sendOff_mem (s : State) (w : LaneWord) (es : List Entry) : (s.sendOff w es).mem = s.mem := by
  unfold State.sendOff
  grind [State.freeRows_mem, State.enterAll_mem]

theorem State.depart_wf {s : State} {fails : List (Nat × Fail)} {w : LaneWord} {es : List Entry} (hm : s.mem.wf = true) :
    (s.depart fails w es).mem.wf = true := by
  unfold State.depart
  grind [State.sendOff_mem, State.issueWith_wf]

@[simp] theorem State.notRefused_mem (s : State) (w : LaneWord) (fails : List (Nat × Fail)) : (s.notRefused w fails).mem = s.mem := by
  unfold State.notRefused
  grind [State.modCur_mem]

theorem State.escorted_wf {s : State} {e : LaneEnv} {w : LaneWord} {fails : List (Nat × Fail)} {good : List Nat} {unit : Nat}
    {es : List Entry} (hm : s.mem.wf = true) :
    OutWf (s.escorted e w fails good unit es) := by
  unfold State.escorted
  grind [outWf_next, State.modGroup_mem, State.laneDone_wf, State.depart_wf, State.issueMem_wf, State.modCur_mem, hold_wf,
      State.notRefused_mem]

theorem execLde_wf {w : LaneWord} {s : State} (hm : s.mem.wf = true) : OutWf (execLde w s) := by
  unfold execLde
  exact memIssue_wf hm fun t ht => by
    grind [State.escorted_wf]

theorem State.issueLines_wf {s : State} {fails : List Fail} {sw : Bool} {es : List Entry} (hm : s.mem.wf = true) :
    (s.issueLines fails sw es).mem.wf = true := by
  unfold State.issueLines
  grind [State.laneDone_wf, State.laneFault_wf, State.modCur_mem, State.enterAll_mem, State.finishDrain_wf]

theorem execLdl_wf {w : LaneWord} {s : State} (hm : s.mem.wf = true) : OutWf (execLdl w s) := by
  unfold execLdl
  exact memIssue_wf hm fun t ht => by
    grind [outWf_next, State.laneDone_wf, State.issueLines_wf]

theorem execStl_wf {w : LaneWord} {s : State} (hm : s.mem.wf = true) : OutWf (execStl w s) := by
  unfold execStl
  exact memIssue_wf hm fun t ht => by
    grind [outWf_next, State.laneDone_wf, State.issueLines_wf]

theorem execPrf_wf {w : LaneWord} {s : State} (hm : s.mem.wf = true) : OutWf (execPrf w s) := by
  unfold execPrf
  exact memIssue_wf hm fun t ht => by
    grind [outWf_next, State.issueMem_wf]

theorem execFence_wf {w : LaneWord} {s : State} (hm : s.mem.wf = true) : OutWf (execFence w s) := by
  unfold execFence
  exact memIssue_wf hm fun t ht => by
    grind [outWf_next, State.laneDone_wf, State.enter_mem]

theorem execAtom_wf {w : LaneWord} {s : State} (hm : s.mem.wf = true) : OutWf (execAtom w s) := by
  unfold execAtom
  exact memIssue_wf hm fun t ht => by
    grind [outWf_next, State.issueMem_wf]

theorem execAtomr_wf {w : LaneWord} {s : State} (hm : s.mem.wf = true) : OutWf (execAtomr w s) := by
  unfold execAtomr
  exact memIssue_wf hm fun t ht => by
    grind [outWf_next, State.issueMem_wf, State.escorted_wf]

/-! ### The steps of the field (R43, R117, R248-R251, R265-R269) -/

@[simp] theorem State.answer_mem (s : State) (e : Entry) : (s.answer e).mem = s.mem := by
  unfold State.answer
  grind [State.setEnt_mem, State.brought_mem, State.ownerCheck_mem]

@[simp] theorem State.hintArrives_mem (s : State) (e : Entry) : (s.hintArrives e).mem = s.mem := by
  unfold State.hintArrives
  grind [State.leave_mem, State.noteServed_mem, State.modDie_mem, State.dropEnt_mem]

@[simp] theorem State.land_mem (s : State) (e : Entry) (ws : List RegWrite) (vs : List (Nat × Word)) : (s.land e ws vs).mem = s.mem := by
  unfold State.land
  grind [State.dropEnt_mem, State.modHolder_mem, State.reimage_mem, State.useRows_mem]

@[simp] theorem State.acqDone_mem (s : State) (e : Entry) : (s.acqDone e).mem = s.mem := by
  unfold State.acqDone
  grind [State.acquireDrop_mem]

@[simp] theorem State.landBad_mem (s : State) (e : Entry) : (s.landBad e).mem = s.mem := by
  unfold State.landBad
  grind [State.land_mem, State.dropFloors_mem]

theorem landBads_mem (k : Nat) (s : State) (e : Entry) : (landBads k s e).2.mem = s.mem := by
  induction k generalizing s with
  | zero => rfl
  | succ k ih => unfold landBads; grind [State.noteReply_mem, State.landBad_mem]

theorem State.landFault_wf {s : State} {e : Entry} {f : Fail} (hm : s.mem.wf = true) : (s.landFault e f).mem.wf = true := by
  unfold State.landFault
  grind [State.faultEnts_wf, landBads_mem, State.landBad_mem, State.reimage_mem, State.acqDone_mem]

theorem State.completeLoad_wf {s : State} {e : Entry} (hm : s.mem.wf = true) : (s.completeLoad e).mem.wf = true := by
  unfold State.completeLoad
  grind [State.faultEnt_wf, State.land_mem, State.noteFloors_mem, State.touchCopy_mem, State.homeRead_mem, State.reimage_mem,
      State.acqDone_mem, State.bindTwins_mem]

@[simp] theorem State.completePrefetch_mem (s : State) (e : Entry) : (s.completePrefetch e).mem = s.mem := by
  unfold State.completePrefetch
  grind [State.dropEnt_mem, State.fill_mem, State.homeRead_mem]

theorem State.reply_wf {s : State} {e : Entry} (hm : s.mem.wf = true) : (s.reply e).mem.wf = true := by
  unfold State.reply
  grind [State.completePrefetch_mem, State.land_mem, State.landFault_wf, State.noteReply_mem, State.acqDone_mem, State.completeLoad_wf]

theorem State.answerBad_wf {s : State} {e : Entry} {f : Fail} (hm : s.mem.wf = true) : (s.answerBad e f).mem.wf = true := by
  unfold State.answerBad
  grind [State.reply_wf, State.setEnt_mem]

@[simp] theorem State.logPerformed_mem (s : State) (id : Nat) : (s.logPerformed id).mem = s.mem := rfl

/-- One run of a store's bytes, as `State.putRuns` writes it while the runs before it have been written. -/
def State.putRun (e : Entry) (key : Nat) (rel : Option Nat) (p : Bool × State) (r : Nat × List Byte) : Bool × State :=
  if p.1 then
    let va := noPath e.line + BitVec.ofNat 64 r.1
    match p.2.homePut e.ctx va (key + r.1) r.2 rel with
    | (true, s) => (true, s.updateCopies e.ag.core e.ctx va r.2 (s.wseq - 1))
    | (false, s) => (false, s)
  else p

theorem State.putRuns_wf {s : State} {e : Entry} {key : Nat} {rel : Option Nat} (hm : s.mem.wf = true) :
    (s.putRuns e key rel).2.mem.wf = true := by
  unfold State.putRuns
  have hrun (p : Bool × State) (hp : p.2.mem.wf = true) (r : Nat × List Byte) : (State.putRun e key rel p r).2.mem.wf = true := by
    unfold State.putRun
    grind [State.homePut_wf, State.updateCopies_mem]
  have hruns (rs : List (Nat × List Byte)) (p : Bool × State) (hp : p.2.mem.wf = true) :
      (rs.foldl (State.putRun e key rel) p).2.mem.wf = true := by
    induction rs generalizing p with
    | nil => exact hp
    | cons r rs ih => exact ih _ (hrun p hp r)
  have h := hruns e.runs (true, s) hm
  unfold State.putRun at h
  dsimp only
  grind [State.settleFloors_mem, State.chargeMirror_mem]

theorem State.performStore_wf {s : State} {e : Entry} {key : Nat} (hm : s.mem.wf = true) : (s.performStore e key).mem.wf = true := by
  unfold State.performStore
  grind [State.answerBad_wf, State.logPerformed_mem, State.putRuns_wf, State.dropEnt_mem]

theorem State.performBank_wf {s : State} {e : Entry} (hm : s.mem.wf = true) : (s.performBank e).mem.wf = true := by
  unfold State.performBank
  grind [State.faultEnt_wf, State.bankWrite_wf, State.performScratch_wf, State.dropFloors_mem]

theorem State.performSystem_wf {s : State} {e : Entry} (hm : s.mem.wf = true) : (s.performSystem e).mem.wf = true := by
  unfold State.performSystem
  rw [State.dropEnt_mem]
  exact foldl_wf (fun t p ht => Memory.wf_writeN ht _ _) _ hm

@[simp] theorem State.performSysLoad_mem (s : State) (e : Entry) : (s.performSysLoad e).mem = s.mem := by
  unfold State.performSysLoad
  grind [State.land_mem, State.bindTwins_mem]

theorem State.atomLane_wf {s : State} {e : Entry} {key : Nat} {p : Part} (hm : s.mem.wf = true) : (s.atomLane e key p).2.mem.wf = true := by
  unfold State.atomLane
  grind [State.homePutBy_wf, State.homeReadBy_mem]

theorem atomLanes_wf {e : Entry} {key : Nat} {ps : List Part} {s : State} (hm : s.mem.wf = true) :
    (atomLanes e key ps s).2.mem.wf = true := by
  induction ps generalizing s with
  | nil => exact hm
  | cons p ps ih => unfold atomLanes; grind [State.atomLane_wf]

@[simp] theorem State.atomFloors_mem (s : State) (e : Entry) (key : Nat) : (s.atomFloors e key).mem = s.mem := by
  unfold State.atomFloors
  grind [State.noteFloors_mem]

theorem State.serviceAtomic_wf {s : State} {e : Entry} {key : Nat} {err : Bool} (hm : s.mem.wf = true) :
    (s.serviceAtomic e key err).mem.wf = true := by
  unfold State.serviceAtomic
  grind [atomLanes_wf, State.chargeMirror_mem, State.answerBad_wf, State.setEnt_mem, State.dropEnt_mem, State.poisonServed_mem,
      State.settleFloors_mem, State.atomFloors_mem, State.acqDone_mem]

theorem execServiceGroupAtomic_wf {id : Nat} {err : Bool} {s : State} (hm : s.mem.wf = true) : OutWf (execServiceGroupAtomic id err s) := by
  unfold execServiceGroupAtomic
  grind [outWf_next, State.serviceAtomic_wf, hold_wf]

theorem State.performMem_wf {s : State} {e : Entry} (hm : s.mem.wf = true) : (s.performMem e).mem.wf = true := by
  unfold State.performMem
  grind [State.performSystem_wf, State.performSysLoad_mem, State.serviceAtomic_wf, State.performStore_wf, State.performBank_wf]

theorem execCommit_wf {id : Nat} {s : State} (hm : s.mem.wf = true) : OutWf (execCommit id s) := by
  unfold execCommit
  grind [outWf_next, hold_wf, State.commitEnt_mem]

theorem State.pushEnt_wf {s : State} {id : Nat} (hm : s.mem.wf = true) : (s.pushEnt id).mem.wf = true := by
  unfold State.pushEnt
  grind [State.performMem_wf, State.answer_mem, State.reply_wf, State.injectAll_mem]

theorem State.pushAll_wf {s : State} {ids : List Nat} (hm : s.mem.wf = true) : (s.pushAll ids).mem.wf = true := by
  unfold State.pushAll
  exact foldl_wf (fun t id => State.pushEnt_wf) _ hm

theorem execL1StoreTimeout_wf {core : Nat} {va : DWord} {s : State} (hm : s.mem.wf = true) : OutWf (execL1StoreTimeout core va s) := by
  unfold execL1StoreTimeout
  grind [outWf_next, State.pushAll_wf]

theorem execPromoteProbe_wf {id : Nat} {s : State} (hm : s.mem.wf = true) : OutWf (execPromoteProbe id s) := by
  unfold execPromoteProbe
  grind [outWf_next, State.setEnt_mem, hold_wf, State.pushAll_wf]

theorem execFill_wf {core : Nat} {cls : PathClass} {ctx : Nat} {va : DWord} {s : State} (hm : s.mem.wf = true) :
    OutWf (execFill core cls ctx va s) := by
  unfold execFill
  grind [outWf_next, State.fill_mem, hold_wf, State.coreAsk_mem]

theorem execDrop_wf {core : Nat} {cls : PathClass} {ctx : Nat} {va : DWord} {s : State} (hm : s.mem.wf = true) :
    OutWf (execDrop core cls ctx va s) := by
  unfold execDrop
  grind [outWf_next]

theorem execEscortDepart_wf {ag : Agent} {s : State} (hm : s.mem.wf = true) : OutWf (execEscortDepart ag s) := by
  unfold execEscortDepart
  grind [execLde_wf, hold_wf, execAtomr_wf]

/-! ### Phasers (R253-R260) -/

theorem State.setObj_wf {s : State} {ctx core off : Nat} {o : PhObj} (hm : s.mem.wf = true) : (s.setObj ctx core off o).mem.wf = true := by
  unfold State.setObj
  grind [State.putObjBits_wf]

@[simp] theorem State.waitDone_mem (s : State) (ag : Agent) (d : Nat) (ph : Word) (scope : Nat) :
    (s.waitDone ag d ph scope).mem = s.mem := by
  unfold State.waitDone
  grind [State.acquireDrop_mem, State.modSplit_mem]

theorem State.completeWaits_wf {s : State} {ctx core off : Nat} (hm : s.mem.wf = true) : (s.completeWaits ctx core off).mem.wf = true := by
  unfold State.completeWaits
  exact foldl_wf (fun t w ht => by grind [State.setObj_wf, State.waitDone_mem]) _ hm

theorem State.applyArrival_wf {s : State} {ctx core off : Nat} (hm : s.mem.wf = true) : (s.applyArrival ctx core off).mem.wf = true := by
  unfold State.applyArrival
  grind [State.completeWaits_wf, State.setObj_wf]

theorem phaserPlaced_wf {reads : List Nat} {a : BitVec 6} {own : Bool} {ok : Split → Bool} {go : Nat → Nat → State → Out} {s : State}
    (hm : s.mem.wf = true) (hgo : ∀ (core off : Nat) (t : State), t.mem.wf = true → OutWf (go core off t)) :
    OutWf (phaserPlaced reads a own ok go s) := by
  exact scalarWord_wf hm fun t ht => by grind [outWf_next, hold_wf, illegalOperand_wf, State.scalarFault_wf]

theorem phaserWord_wf {reads : List Nat} {a : BitVec 6} {own : Bool} {ok : Split → Bool} {go : Nat → Nat → State → Out} {s : State}
    (hm : s.mem.wf = true) (hgo : ∀ (core off : Nat) (t : State), t.mem.wf = true → OutWf (go core off t)) :
    OutWf (phaserWord reads a own ok go s) := by
  exact phaserPlaced_wf hm fun core off t ht => by grind [hold_wf]

theorem execPhinit_wf {a b : BitVec 6} {s : State} (hm : s.mem.wf = true) : OutWf (execPhinit a b s) := by
  unfold execPhinit
  exact phaserWord_wf hm fun core off t ht => by
    grind [State.setObj_wf, illegalOperand_wf, State.finish_wf, State.setCore_mem, hold_wf]

theorem phaserRefuses_wf {core : Nat} {e : Entry} {s : State} (hm : s.mem.wf = true) : OutWf (phaserRefuses core e s) := by
  unfold phaserRefuses
  grind [outWf_next, State.faultEnt_wf, illegalOperand_wf, State.enter_mem, State.advance_mem]

theorem execPhrole_wf {a : BitVec 6} {src dst : BitVec 2} {s : State} (hm : s.mem.wf = true) : OutWf (execPhrole a src dst s) := by
  unfold execPhrole
  exact phaserPlaced_wf hm fun core off t ht => by
    grind [outWf_next, State.setObj_wf, phaserRefuses_wf, State.advance_mem]

theorem execPharr_wf {d a : BitVec 6} {s : State} (hm : s.mem.wf = true) : OutWf (execPharr d a s) := by
  unfold execPharr
  exact phaserWord_wf hm fun core off t ht => by
    grind [outWf_next, State.applyArrival_wf, illegalOperand_wf, State.finish_wf, hold_wf, State.enter_mem, State.advance_mem]

theorem execPhaserArrive_wf {id : Nat} {s : State} (hm : s.mem.wf = true) : OutWf (execPhaserArrive id s) := by
  unfold execPhaserArrive
  grind [outWf_next, State.land_mem, State.setObj_wf, State.applyArrival_wf, State.landFault_wf, hold_wf]

theorem execPhwait_wf {d a b : BitVec 6} {try_ : Bool} {s : State} (hm : s.mem.wf = true) : OutWf (execPhwait d a b try_ s) := by
  unfold execPhwait
  exact phaserWord_wf hm fun core off t ht => by
    grind [outWf_next, State.setObj_wf, State.finish_wf, State.waitDone_mem, State.modCur_mem, phaserRefuses_wf]

theorem execPhfree_wf {a : BitVec 6} {s : State} (hm : s.mem.wf = true) : OutWf (execPhfree a s) := by
  unfold execPhfree
  exact phaserWord_wf hm fun core off t ht => by
    grind [State.arrivalsLose_mem, State.setObj_wf, illegalOperand_wf, State.finish_wf, State.setCore_mem, State.cardsLose_mem]

/-! ### The cluster engines (R123-R137) -/

theorem engineWord_wf {k : Nat} {d a : BitVec 6} {s : State} (hm : s.mem.wf = true) : OutWf (engineWord k d a s) := by
  unfold engineWord
  exact orderWord_wf hm fun t ht => by
    grind [outWf_next, State.setCluster_mem, illegalOperand_wf, State.finish_wf, hold_wf, State.scalarFault_wf]

theorem execXcopy_wf {d a : BitVec 6} {s : State} (hm : s.mem.wf = true) : OutWf (execXcopy d a s) := engineWord_wf hm
theorem execXgath_wf {d a : BitVec 6} {s : State} (hm : s.mem.wf = true) : OutWf (execXgath d a s) := engineWord_wf hm
theorem execXscat_wf {d a : BitVec 6} {s : State} (hm : s.mem.wf = true) : OutWf (execXscat d a s) := engineWord_wf hm
theorem execXred_wf {d a : BitVec 6} {s : State} (hm : s.mem.wf = true) : OutWf (execXred d a s) := engineWord_wf hm

@[simp] theorem State.engineSend_mem (s : State) (cl : Nat) (c : Card) (i : Nat) (st : EngineStep) :
    (s.engineSend cl c i st).mem = s.mem := by
  unfold State.engineSend
  grind [State.cross_mem, State.noteWriter_mem, State.noteReply_mem, State.charge_mem]

theorem State.engineOwner_mem (s : State) (c : Card) (a : Access) (va : DWord) (opens : Bool) :
    (s.engineOwner c a va opens).2.mem = s.mem := by
  unfold State.engineOwner
  grind [State.ownerLook_mem, State.ownerCheck_mem]

theorem State.engineRead_mem (s : State) (c : Card) (d : Desc) (va : DWord) (n : Nat) (opens : Bool) :
    (s.engineRead c d va n opens).2.mem = s.mem := by
  unfold State.engineRead
  grind [State.engineOwner_mem, State.homeRead_mem]

theorem State.engineWrite_wf {s : State} {c : Card} {core : Option Nat} {va : DWord} {n v : Nat} {opens : Bool} {mirror : Option Nat}
    (hm : s.mem.wf = true) :
    (s.engineWrite c core va n v opens mirror).2.mem.wf = true := by
  unfold State.engineWrite
  grind [State.engineOwner_mem, State.chargeMirror_mem, State.homePut_wf, State.scrWrite_wf]

@[simp] theorem State.setCard_mem (s : State) (cl : Nat) (c : Card) : (s.setCard cl c).mem = s.mem := rfl

@[simp] theorem State.failCard_mem (s : State) (cl : Nat) (c : Card) (i status : Nat) (va : DWord) :
    (s.failCard cl c i status va).mem = s.mem := rfl

theorem State.engineStep_wf {s : State} {cl : Nat} {c : Card} {i : Nat} {st : EngineStep} (hm : s.mem.wf = true) :
    (s.engineStep cl c i st).mem.wf = true := by
  unfold State.engineStep
  grind [State.failCard_mem, State.engineWrite_wf, State.engineRead_mem, State.setCard_mem]

theorem State.engineTurn_wf {s : State} {cl job elem : Nat} (hm : s.mem.wf = true) : (s.engineTurn cl job elem).mem.wf = true := by
  unfold State.engineTurn
  grind [State.engineStep_wf, State.engineSend_mem]

theorem execJobStart_wf {cluster job : Nat} {s : State} (hm : s.mem.wf = true) : OutWf (execJobStart cluster job s) := by
  unfold execJobStart
  grind [outWf_next, hold_wf, State.setCard_mem]

theorem State.jobArrive_wf {s : State} {c : Card} (hm : s.mem.wf = true) : (s.jobArrive c).2.mem.wf = true := by
  unfold State.jobArrive
  grind [State.applyArrival_wf]

theorem State.jobLeaseEnd_wf {s : State} {c : Card} (hm : s.mem.wf = true) : (s.jobLeaseEnd c).mem.wf = true := by
  unfold State.jobLeaseEnd
  grind [State.killUnit_wf, State.sendRecord_wf, State.snapFire_mem]

theorem execJobComplete_wf {cluster job : Nat} {s : State} (hm : s.mem.wf = true) : OutWf (execJobComplete cluster job s) := by
  unfold execJobComplete
  grind [outWf_next, State.setCluster_mem, State.jobArrive_wf, State.postEvent_wf, hold_wf, State.jobLeaseEnd_wf]

@[simp] theorem State.cancelCards_mem (s : State) (unit : Nat) : (s.cancelCards unit).mem = s.mem := rfl

/-! ### The event queue (R139-R144) -/

theorem execEvpop_wf {d : BitVec 6} {try_ : Bool} {s : State} (hm : s.mem.wf = true) : OutWf (execEvpop d try_ s) := by
  unfold execEvpop
  refine orderWord_wf hm fun t ht => ?_
  dsimp only
  have hset (x : Ctx) (k : Nat) : (((t.setCtx t.curGroup.ctx x).acquireDrop k 3)).mem.wf = true := by
    rw [State.acquireDrop_mem]; exact ht
  split
  · exact hold_wf ht
  · split
    · exact (outWf_next _).mpr (State.scalarFault_wf ht)
    · split
      · split
        · exact State.finish_wf ht
        · exact hold_wf ht
      · split
        · exact State.finish_wf (hset _ _)
        · exact hold_wf ht

theorem execEvpost_wf {a : BitVec 6} {s : State} (hm : s.mem.wf = true) : OutWf (execEvpost a s) := by
  unfold execEvpost
  exact orderWord_wf hm fun t ht => by
    grind [State.postEvent_wf, State.finish_wf, hold_wf]

theorem State.writeEventReg_mem (s : State) (index : Nat) (val : DWord) : (s.writeEventReg index val).2.mem = s.mem := by
  unfold State.writeEventReg
  grind [State.setCtx_mem]

theorem execEqbaseWrite_wf {val : DWord} {s : State} (hm : s.mem.wf = true) : OutWf (execEqbaseWrite val s) := by
  unfold execEqbaseWrite
  grind [outWf_next, State.writeEventReg_mem]

theorem execEqheadWrite_wf {val : DWord} {s : State} (hm : s.mem.wf = true) : OutWf (execEqheadWrite val s) := by
  unfold execEqheadWrite
  grind [outWf_next, State.writeEventReg_mem]

/-! ### The matrix array (R216-R226) -/

theorem State.laneFail_wf {s : State} {f : Fail} (hm : s.mem.wf = true) : (s.laneFail f).mem.wf = true := by
  unfold State.laneFail
  grind [State.laneFault_wf]

@[simp] theorem State.modArr_mem (s : State) (core slot : Nat) (f : ArrayWord → ArrayWord) : (s.modArr core slot f).mem = s.mem := rfl

theorem State.completeLoop_mem (s : State) (core slot : Nat) : (s.completeLoop core slot).mem = s.mem := by
  unfold State.completeLoop
  exact foldl_mem (fun s k => s.modArr_mem core k _) _ _

@[simp] theorem State.putArr_mem (s : State) (a : ArrayWord) : (s.putArr a).mem = s.mem := rfl

theorem arrayIssue_wf {op : Nat} {w : LaneWord} {wins : List (Nat × Nat)} {ok reads : Bool} {go : State → Out} {s : State}
    (hm : s.mem.wf = true) (hgo : ∀ t : State, t.mem.wf = true → OutWf (go t)) :
    OutWf (arrayIssue op w wins ok reads go s) := by
  exact laneIssue_wf hm fun t ht => by grind [hold_wf]

theorem execMloop_wf {w : LaneWord} {s : State} (hm : s.mem.wf = true) : OutWf (execMloop w s) := by
  unfold execMloop
  exact arrayIssue_wf hm fun t ht => by
    grind [outWf_next, State.modGroup_mem, State.completeLoop_mem, State.putArr_mem, State.laneDone_wf, State.laneFail_wf]

theorem execMloopAdmit_wf {core loop : Nat} {s : State} (hm : s.mem.wf = true) : OutWf (execMloopAdmit core loop s) := by
  unfold execMloopAdmit
  have go (slots : List Nat) : OutWf (.next (slots.foldl (fun s k => s.modArr core k fun a => { a with started := true }) s)) :=
    (outWf_next _).mpr (foldl_wf (fun t k ht => (State.modArr_mem _ _ _ _).symm ▸ ht) _ hm)
  grind [hold_wf]

theorem State.stopLoop_mem (s : State) (core slot : Nat) : (s.stopLoop core slot).mem = s.mem := by
  unfold State.stopLoop
  exact foldl_mem (fun s k => by grind [State.setGroup_mem]) _ _

@[simp] theorem State.memberStep_mem (s : State) (core slot k : Nat) (cols : List (List Byte)) :
    (s.memberStep core slot k cols).mem = s.mem := by
  unfold State.memberStep
  grind [State.setGroup_mem]

@[simp] theorem State.stepDone_mem (s : State) (core slot : Nat) : (s.stepDone core slot).mem = s.mem := by
  unfold State.stepDone
  grind [State.modArr_mem, State.setGroup_mem]

theorem execMloopStep_wf {core loop : Nat} {s : State} (hm : s.mem.wf = true) : OutWf (execMloopStep core loop s) := by
  unfold execMloopStep
  split
  · dsimp only
    split_ifs
    · exact hold_wf hm
    · exact (outWf_next _).mpr ((State.stopLoop_mem _ _ _).symm ▸ hm)
    · rw [outWf_next, foldl_mem fun t k => t.stepDone_mem core k, foldl_mem fun t k => t.memberStep_mem _ _ _ _,
        foldl_mem fun t k => t.bindRacers_mem _]
      exact hm
  · exact hold_wf hm

theorem State.settleLoops_mem (s : State) : s.settleLoops.mem = s.mem := by
  unfold State.settleLoops
  exact foldl_mem (fun s p => by grind [State.completeLoop_mem]) _ _

@[simp] theorem State.saveLoop_mem (s : State) (core slot : Nat) : (s.saveLoop core slot).mem = s.mem := by
  unfold State.saveLoop
  grind [State.setGroup_mem]

theorem storeImage_wf {op : Nat} {w : LaneWord} {n align : Nat} {va : DWord} {image : List Byte} {s : State} (hm : s.mem.wf = true) :
    OutWf (storeImage op w n align va image s) := by
  unfold storeImage
  grind [outWf_next, State.issueLines_wf, State.laneFail_wf]

theorem execTstore_wf {w : LaneWord} {s : State} (hm : s.mem.wf = true) : OutWf (execTstore w s) := by
  unfold execTstore
  exact memIssue_wf hm fun t ht => by
    grind [outWf_next, storeImage_wf, State.laneTrap_wf]

theorem execTmset_wf {w : LaneWord} {s : State} (hm : s.mem.wf = true) : OutWf (execTmset w s) := by
  unfold execTmset
  exact laneWord_wf hm

theorem execTmlog_wf {w : LaneWord} {s : State} (hm : s.mem.wf = true) : OutWf (execTmlog w s) := by
  unfold execTmlog
  exact laneWord_wf hm

/-! ### The parcel stage (R227-R234) -/

theorem execSigh_wf {w : LaneWord} {s : State} (hm : s.mem.wf = true) : OutWf (execSigh w s) := by
  unfold execSigh
  exact arrayIssue_wf hm fun t ht => by
    grind [outWf_next, State.putArr_mem, State.laneDone_wf, State.laneFail_wf]

@[simp] theorem State.sighDone_mem (s : State) (core slot : Nat) (a : ArrayWord) : (s.sighDone core slot a).mem = s.mem := rfl

theorem execParc_wf {w : LaneWord} {s : State} (hm : s.mem.wf = true) : OutWf (execParc w s) := by
  unfold execParc
  exact arrayIssue_wf hm fun t ht => by
    grind [outWf_next, State.putArr_mem, State.laneDone_wf, State.laneFail_wf]

@[simp] theorem State.parcDone_mem (s : State) (core slot : Nat) (a : ArrayWord) : (s.parcDone core slot a).mem = s.mem := rfl

theorem execPcomp_wf {w : LaneWord} {s : State} (hm : s.mem.wf = true) : OutWf (execPcomp w s) := by
  unfold execPcomp
  exact arrayIssue_wf hm fun t ht => by
    grind [outWf_next, State.putArr_mem, State.laneDone_wf, State.laneFail_wf, State.laneTrap_wf]

theorem State.pcompDone_wf {s : State} {core slot : Nat} {a : ArrayWord} (hm : s.mem.wf = true) :
    (s.pcompDone core slot a).mem.wf = true := by
  unfold State.pcompDone
  dsimp only
  have hrows (l : List (DWord × List Byte)) (g : Group) : (l.foldl (fun s x =>
      match (s.unitOf g).bind fun u => s.scratchUnit u x.1 with
      | some t => s.scrWrite g.ctx (t.place x.1).1 (t.place x.1).2 x.2
      | none => s) s).mem.wf = true := foldl_wf (fun t x ht => by grind [State.scrWrite_wf]) _ hm
  split
  · exact hrows _ _
  · exact State.replyFault_wf (hrows _ _)

theorem State.finishArray_wf {s : State} {core slot : Nat} (hm : s.mem.wf = true) {t : State} (ho : s.finishArray core slot = some t) :
    t.mem.wf = true := by
  unfold State.finishArray at ho
  grind [State.pcompDone_wf, State.parcDone_mem, State.sighDone_mem]

theorem execArrayWordFinish_wf {core slot : Nat} {s : State} (hm : s.mem.wf = true) : OutWf (execArrayWordFinish core slot s) := by
  unfold execArrayWordFinish
  grind [outWf_next, State.finishArray_wf, hold_wf]

theorem execScat_wf {w : LaneWord} {s : State} (hm : s.mem.wf = true) : OutWf (execScat w s) := by
  unfold execScat
  exact laneWord_wf hm

theorem execPsum_wf {w : LaneWord} {s : State} (hm : s.mem.wf = true) : OutWf (execPsum w s) := by
  unfold execPsum
  exact laneWord_wf hm

theorem execPlat_wf {w : LaneWord} {s : State} (hm : s.mem.wf = true) : OutWf (execPlat w s) := by
  unfold execPlat
  exact memIssue_wf hm fun t ht => by
    grind [outWf_next, storeImage_wf, State.laneTrap_wf]

/-! ### Handles, launches and leases (R55-R60, R295-R300) -/

theorem State.newHandle_mem (s : State) (level : Nat) (h : Handle) : (s.newHandle level h).2.mem = s.mem := by
  unfold State.newHandle
  grind

@[simp] theorem State.modHandle_mem (s : State) (h : Word) (f : Handle → Handle) : (s.modHandle h f).mem = s.mem := by
  unfold State.modHandle
  grind

theorem completeUp_mem (k : Nat) (s : State) (h : Word) : (completeUp k s h).mem = s.mem := by
  induction k generalizing s h with
  | zero => rfl
  | succ k ih => unfold completeUp; grind [State.modHandle_mem]

@[simp] theorem State.dsErr_mem (s : State) : (s.dsErr).mem = s.mem := rfl
@[simp] theorem State.dsOk_mem (s : State) (h : Word) : (s.dsOk h).mem = s.mem := rfl

@[simp] theorem State.dsOpen_mem (s : State) (level ctx : Nat) (parent : Word) : (s.dsOpen level ctx parent).mem = s.mem := by
  unfold State.dsOpen
  grind [State.dsOk_mem, State.newHandle_mem, State.dsErr_mem, State.modHandle_mem]

@[simp] theorem State.dsClose_mem (s : State) (h : Word) : (s.dsClose h).mem = s.mem := by
  unfold State.dsClose
  grind [State.dsOk_mem, completeUp_mem, State.dsErr_mem, State.modHandle_mem]

@[simp] theorem State.dsRetire_mem (s : State) (h : Word) : (s.dsRetire h).mem = s.mem := by
  unfold State.dsRetire
  grind [State.dsOk_mem, State.dsErr_mem]

theorem execOpenHandle_wf {level : BitVec 3} {ctx : BitVec 10} {parent : Word} {s : State} (hm : s.mem.wf = true) :
    OutWf (execOpenHandle level ctx parent s) := by
  unfold execOpenHandle
  grind [outWf_next, State.dsOpen_mem]

theorem execCloseHandle_wf {handle : Word} {s : State} (hm : s.mem.wf = true) : OutWf (execCloseHandle handle s) := by
  unfold execCloseHandle
  grind [outWf_next, State.dsClose_mem]

theorem execRetireHandle_wf {handle : Word} {s : State} (hm : s.mem.wf = true) : OutWf (execRetireHandle handle s) := by
  unfold execRetireHandle
  grind [outWf_next, State.dsRetire_mem]

@[simp] theorem State.dsCommand_mem (s : State) (val : DWord) : (s.dsCommand val).mem = s.mem := by
  unfold State.dsCommand
  grind [State.dsClose_mem, State.dsRetire_mem, State.dsOpen_mem, State.dsErr_mem]

theorem State.distRead_mem (s : State) (ctx : Nat) (va : DWord) (n : Nat) : (s.distRead ctx va n).2.mem = s.mem := by
  unfold State.distRead
  grind [State.vRead_mem]

theorem State.readLaunch_mem (s : State) (ctx : Nat) (va : DWord) : (s.readLaunch ctx va).2.mem = s.mem := by
  unfold State.readLaunch
  grind [State.distRead_mem, State.crossAll_mem]

theorem State.rejectLaunch_mem (s : State) (ctx : Nat) (graph : Word) : (s.rejectLaunch ctx graph).2.mem = s.mem := by
  unfold State.rejectLaunch
  grind [State.newHandle_mem, State.modHandle_mem]

theorem State.takeLaunch_mem (s : State) (r : LaunchRec) (graph : Word) : (s.takeLaunch r graph).2.mem = s.mem := by
  unfold State.takeLaunch
  grind [State.newHandle_mem, State.modHandle_mem]

theorem execLaunch_wf {d a : BitVec 6} {try_ : Bool} {s : State} (hm : s.mem.wf = true) : OutWf (execLaunch d a try_ s) := by
  unfold execLaunch
  exact scalarWord_wf hm fun t ht => by
    grind [outWf_next, State.takeLaunch_mem, State.finish_wf, State.rejectLaunch_mem, hold_wf, State.readLaunch_mem, State.scalarFault_wf]

theorem State.hostEntry_wf {s : State} {i : Nat} (hm : s.mem.wf = true) : (s.hostEntry i).mem.wf = true := by
  unfold State.hostEntry
  split
  · exact State.unitWrite_wf hm
  · exact hm

theorem execDsitailWrite_wf {val : DWord} {s : State} (hm : s.mem.wf = true) : OutWf (execDsitailWrite val s) := by
  unfold execDsitailWrite
  split
  · rw [outWf_next]
    generalize s.inletNew val = l
    exact foldl_wf (f := State.hostEntry) (fun t i => State.hostEntry_wf) l hm
  · exact (outWf_next _).mpr hm

theorem State.inletLaunch_mem (s : State) (va : DWord) (graph : Word) : (s.inletLaunch va graph).2.mem = s.mem := by
  unfold State.inletLaunch
  grind [State.takeLaunch_mem, State.rejectLaunch_mem, State.readLaunch_mem]

theorem execDsiEntry_wf {s : State} (hm : s.mem.wf = true) : OutWf (execDsiEntry s) := by
  unfold execDsiEntry
  have go (k : Nat) (bs : List Byte) (va : DWord) (h : Word) : ((s.inletLaunch va h).2.unitWrite k bs).mem.wf = true :=
    State.unitWrite_wf ((State.inletLaunch_mem s va h).symm ▸ hm)
  dsimp only
  split
  · exact hold_wf hm
  · split
    · exact hold_wf hm
    · exact (outWf_next _).mpr (go _ _ _ _)

theorem State.setLeaseBit_wf {s : State} {key : Nat} {on : Bool} (hm : s.mem.wf = true) : (s.setLeaseBit key on).mem.wf = true := by
  unfold State.setLeaseBit
  grind [State.unitWrite_wf]

theorem State.askLease_wf {s : State} {l : Lease} (hm : s.mem.wf = true) : (s.askLease l).mem.wf = true := by
  unfold State.askLease
  split
  · exact hm
  · split
    · exact foldl_wf (fun t x => State.setLeaseBit_wf) _ hm
    · exact State.unitWrite_wf hm

@[simp] theorem State.tellLease_mem (s : State) (l : Lease) : (s.tellLease l).mem = s.mem := by
  unfold State.tellLease
  grind [State.leaveFor_mem]

theorem execLeaseRequest_wf {launch desc : Nat} {s : State} (hm : s.mem.wf = true) : OutWf (execLeaseRequest launch desc s) := by
  unfold execLeaseRequest
  grind [outWf_next, State.tellLease_mem, hold_wf, State.askLease_wf]

theorem State.recheck_wf {s : State} {die ctx : Nat} (hm : s.mem.wf = true) : (s.recheck die ctx).mem.wf = true := by
  unfold State.recheck
  exact foldl_wf (fun t l => State.askLease_wf) _ hm

theorem execRecheck_wf {die ctx : Nat} {s : State} (hm : s.mem.wf = true) : OutWf (execRecheck die ctx s) := by
  unfold execRecheck
  grind [outWf_next, State.clearStage_mem, State.recheck_wf]

theorem releasePages_wf {k : Nat} {s : State} {l : Lease} {va : DWord} (hm : s.mem.wf = true) : (releasePages k s l va).mem.wf = true := by
  induction k generalizing s va with
  | zero => exact hm
  | succ k ih => unfold releasePages; grind [State.setLeaseBit_wf]

theorem State.releaseLease_wf {s : State} {l : Lease} (hm : s.mem.wf = true) : (s.releaseLease l).mem.wf = true := by
  unfold State.releaseLease
  grind [releasePages_wf]

theorem releaseAll_wf {ls : List Lease} {s t : State} (hm : s.mem.wf = true) (ho : releaseAll ls s = some t) : t.mem.wf = true := by
  induction ls generalizing s with
  | nil => unfold releaseAll at ho; grind
  | cons l ls ih => unfold releaseAll at ho; grind [State.releaseLease_wf, State.tellLease_mem]

theorem execLeaseRelease_wf {launch : Nat} {s : State} (hm : s.mem.wf = true) : OutWf (execLeaseRelease launch s) := by
  unfold execLeaseRelease
  grind [outWf_next, releaseAll_wf, hold_wf]

theorem execLaunchComplete_wf {launch : Nat} {s : State} (hm : s.mem.wf = true) : OutWf (execLaunchComplete launch s) := by
  unfold execLaunchComplete
  grind [outWf_next, completeUp_mem, hold_wf]

@[simp] theorem State.placeGroup_mem (s : State) (launch : Word) (r : LaunchRec) (unit core idx csIdx n : Nat) :
    (s.placeGroup launch r unit core idx csIdx n).mem = s.mem := by
  unfold State.placeGroup
  grind [State.setGroup_mem, State.giveRows_mem]

@[simp] theorem State.enterCore_mem (s : State) (ctx core : Nat) : (s.enterCore ctx core).mem = s.mem := by
  unfold State.enterCore
  grind [State.setCtxCore_mem, State.setCore_mem]

theorem State.placeUnit_mem (s : State) (launch : Word) (r : LaunchRec) (idx core csIdx : Nat) (set : Option Nat) :
    (s.placeUnit launch r idx core csIdx set).mem = s.mem := by
  unfold State.placeUnit
  split
  · rfl
  · exact (foldl_mem (fun s n => s.placeGroup_mem _ _ _ _ _ _ _) _ _).trans (s.enterCore_mem _ _)

theorem execUnitPlace_wf {launch : Nat} {s : State} (hm : s.mem.wf = true) : OutWf (execUnitPlace launch s) := by
  unfold execUnitPlace
  split
  · exact hold_wf hm
  · dsimp only
    split
    · exact hold_wf hm
    · split
      · exact hold_wf hm
      · exact (outWf_next _).mpr (foldl_wf (fun t c ht => (State.placeUnit_mem _ _ _ _ _ _ _).symm ▸ ht) _ hm)

theorem execCcnt_wf {d a : BitVec 6} {byHandle : Bool} {level : BitVec 3} {s : State} (hm : s.mem.wf = true) :
    OutWf (execCcnt d a byHandle level s) := by
  unfold execCcnt
  exact scalarWord_wf hm fun t ht => by
    grind [State.acquireDrop_mem, State.finish_wf]

theorem State.cancelGroup_wf {s : State} {core slot : Nat} (hm : s.mem.wf = true) : (s.cancelGroup core slot).mem.wf = true := by
  unfold State.cancelGroup
  dsimp only
  have hs : ∀ t : State, t.mem.wf = true → ((t.finishArray core slot).getD t).mem.wf = true := by
    intro t ht
    cases h : t.finishArray core slot with
    | none => exact ht
    | some u => exact State.finishArray_wf ht h
  exact hs _ (foldl_wf (fun t n => State.withdrawWait_wf) _ hm)

theorem State.cancelUnit_wf {s : State} {unit : Nat} (hm : s.mem.wf = true) : (s.cancelUnit unit).mem.wf = true := by
  unfold State.cancelUnit
  split
  · exact hm
  · have hc : (s.cancelCards unit).mem.wf = true := (State.cancelCards_mem s unit).symm ▸ hm
    dsimp only
    split
    · exact hc
    · refine State.killUnit_wf ?_
      split
      · exact hc
      · exact foldl_wf (fun t slot => State.cancelGroup_wf) _ hc

theorem State.cancelLaunch_wf {s : State} {h : Nat} (hm : s.mem.wf = true) : (s.cancelLaunch h).mem.wf = true := by
  unfold State.cancelLaunch
  split
  · exact hm
  · dsimp only
    split
    · exact hm
    · refine foldl_wf (fun t p => State.cancelUnit_wf) _ ?_
      rw [State.launchUnitsEnded_mem]
      exact hm

theorem State.cancelHandle_wf {s : State} {h : Word} (hm : s.mem.wf = true) : (s.cancelHandle h).mem.wf = true := by
  unfold State.cancelHandle
  refine foldl_wf (fun t x ht => by grind [State.cancelLaunch_wf]) _ ?_
  rw [foldl_mem fun t x => t.modHandle_mem x _]
  exact hm

theorem execCancel_wf {a : BitVec 6} {byHandle : Bool} {level : BitVec 3} {s : State} (hm : s.mem.wf = true) :
    OutWf (execCancel a byHandle level s) := by
  unfold execCancel
  exact scalarWord_wf hm fun t ht => by
    grind [outWf_next, State.modCur_mem, State.cancelHandle_wf, State.cancelUnit_wf, State.advance_mem]

/-! ### Context commands, RESUME and the watchdog (R309, R315, R321-R329) -/

@[simp] theorem State.ctxErr_mem (s : State) (ctx : Nat) : (s.ctxErr ctx).mem = s.mem := rfl
@[simp] theorem State.setStateOn_mem (s : State) (ctx core : Nat) (x : CtxState) : (s.setStateOn ctx core x).mem = s.mem := rfl

@[simp] theorem State.stopIssue_mem (s : State) (ctx core : Nat) (x : CtxState) : (s.stopIssue ctx core x).mem = s.mem := by
  unfold State.stopIssue
  grind [State.setStateOn_mem]

@[simp] theorem State.ctxOk_mem (s : State) (ctx : Nat) (all : Bool) (core : Nat) (cores : List Nat) (goal : CtxState) :
    (s.ctxOk ctx all core cores goal).mem = s.mem := by
  unfold State.ctxOk
  grind [State.noteDone_mem, State.modCtx_mem]

theorem State.ctxMove_mem (s : State) (ctx : Nat) (all : Bool) (core : Nat) (cores : List Nat) (from_ : List CtxState)
    (next goal : CtxState) :
    (s.ctxMove ctx all core cores from_ next goal).mem = s.mem := by
  unfold State.ctxMove
  split
  · exact s.ctxErr_mem ctx
  · exact (State.ctxOk_mem _ _ _ _ _ _).trans (foldl_mem (fun s k => s.stopIssue_mem ctx k next) _ _)

theorem execQuery_wf {ctx : Nat} {all : Bool} {core : Nat} {s : State} (hm : s.mem.wf = true) : OutWf (execQuery ctx all core s) := by
  unfold execQuery
  grind [outWf_next, State.ctxErr_mem, State.ctxOk_mem]

theorem execPreempt_wf {ctx : Nat} {all : Bool} {core : Nat} {s : State} (hm : s.mem.wf = true) : OutWf (execPreempt ctx all core s) := by
  unfold execPreempt
  grind [outWf_next, State.ctxMove_mem]

theorem execHalt_wf {ctx : Nat} {all : Bool} {core : Nat} {s : State} (hm : s.mem.wf = true) : OutWf (execHalt ctx all core s) := by
  unfold execHalt
  grind [outWf_next, State.ctxMove_mem, State.snapFire_mem]

theorem execRun_wf {ctx : Nat} {all : Bool} {core : Nat} {s : State} (hm : s.mem.wf = true) : OutWf (execRun ctx all core s) := by
  unfold execRun
  grind [outWf_next, State.ctxMove_mem]

theorem execEvict_wf {ctx : Nat} {all : Bool} {core : Nat} {s : State} (hm : s.mem.wf = true) : OutWf (execEvict ctx all core s) := by
  unfold execEvict
  grind [outWf_next, State.ctxMove_mem]

theorem execRestore_wf {ctx : Nat} {all : Bool} {core : Nat} {s : State} (hm : s.mem.wf = true) : OutWf (execRestore ctx all core s) := by
  unfold execRestore
  grind [outWf_next, State.ctxMove_mem]

theorem execBkpt_wf {_code : BitVec 8} {s : State} (hm : s.mem.wf = true) : OutWf (execBkpt _code s) := by
  unfold execBkpt
  dsimp only
  split_ifs
  · exact (outWf_next _).mpr hm
  · rw [outWf_next, State.snapFire_mem, foldl_mem fun t k => t.stopIssue_mem _ k _]
    exact hm

@[simp] theorem State.fltErr_mem (s : State) (ctx : Nat) : (s.fltErr ctx).mem = s.mem := rfl

theorem State.applyResume_wf {s : State} {ag : Agent} {act : Nat} {tv : Bool} (hm : s.mem.wf = true) :
    (s.applyResume ag act tv).mem.wf = true := by
  unfold State.applyResume
  grind [State.resolve_wf]

theorem State.resumeHere_wf {s : State} {ag : Agent} {r : ResumeCmd} (hm : s.mem.wf = true) : (s.resumeHere ag r).mem.wf = true := by
  unfold State.resumeHere
  grind [State.applyResume_wf, State.modSplit_mem]

@[simp] theorem State.resumeSaved_mem (s : State) (ctx : Nat) (ag : Agent) (g : Group) (r : ResumeCmd) :
    (s.resumeSaved ctx ag g r).mem = s.mem := by
  unfold State.resumeSaved
  grind [State.resave_mem, State.setCtxCore_mem]

theorem State.resume_wf {s : State} {ctx : Nat} {cmd : DWord} (hm : s.mem.wf = true) : (s.resume ctx cmd).mem.wf = true := by
  unfold State.resume
  grind [State.resumeHere_wf, State.resumeSaved_mem, State.modCtx_mem, State.fltErr_mem]

theorem State.resumeAct_wf {s : State} {ctx act : Nat} {cmd : DWord} (hm : s.mem.wf = true) : (s.resumeAct ctx act cmd).mem.wf = true := by
  unfold State.resumeAct
  grind [State.resume_wf]

theorem execResumeRetry_wf {ctx : Nat} {cmd : DWord} {s : State} (hm : s.mem.wf = true) : OutWf (execResumeRetry ctx cmd s) := by
  unfold execResumeRetry
  grind [outWf_next, State.resumeAct_wf]

theorem execResumeSkip_wf {ctx : Nat} {cmd : DWord} {s : State} (hm : s.mem.wf = true) : OutWf (execResumeSkip ctx cmd s) := by
  unfold execResumeSkip
  grind [outWf_next, State.resumeAct_wf]

theorem execResumeEnd_wf {ctx : Nat} {cmd : DWord} {s : State} (hm : s.mem.wf = true) : OutWf (execResumeEnd ctx cmd s) := by
  unfold execResumeEnd
  grind [outWf_next, State.resumeAct_wf]

theorem execResumeReplay_wf {ag : Agent} {s : State} (hm : s.mem.wf = true) : OutWf (execResumeReplay ag s) := by
  unfold execResumeReplay
  grind [outWf_next, State.applyResume_wf, hold_wf]

theorem execDeferredFaultReport_wf {ag : Agent} {s : State} (hm : s.mem.wf = true) : OutWf (execDeferredFaultReport ag s) := by
  unfold execDeferredFaultReport
  grind [outWf_next, State.setSplitOf_mem, State.faultHere_wf, hold_wf]

theorem State.watchdogFault_wf {s : State} {ag : Agent} (hm : s.mem.wf = true) : (s.watchdogFault ag).mem.wf = true := by
  unfold State.watchdogFault
  grind [State.finishDrain_wf, State.park_wf]

theorem State.watchdogSaved_wf {s : State} {ctx core slot : Nat} {g : Group} (hm : s.mem.wf = true) :
    (s.watchdogSaved ctx core slot g).mem.wf = true := by
  unfold State.watchdogSaved
  rw [State.resave_mem, State.inSave_mem]
  exact foldl_wf (fun t n => State.watchdogFault_wf) _ hm

theorem execWatchdogExpiry_wf {ctx : Nat} {s : State} (hm : s.mem.wf = true) : OutWf (execWatchdogExpiry ctx s) := by
  unfold execWatchdogExpiry
  dsimp only
  split_ifs
  · exact hold_wf hm
  · refine (outWf_next _).mpr (foldl_wf (fun t p => State.watchdogSaved_wf) _ ?_)
    exact foldl_wf (fun t p => State.watchdogFault_wf) _ hm

/-! ### The translation block, heat, hints and Transit (R51-R54, R68-R94, R363) -/

@[simp] theorem State.mtReject_mem (s : State) (di cmd ctx : Nat) : (s.mtReject di cmd ctx).mem = s.mem := rfl
@[simp] theorem State.tlbsync_mem (s : State) (di ctx : Nat) (all : Bool) : (s.tlbsync di ctx all).mem = s.mem := rfl

theorem execTlbsync_wf {die ctx : Nat} {all : Bool} {s : State} (hm : s.mem.wf = true) : OutWf (execTlbsync die ctx all s) := by
  unfold execTlbsync
  grind [outWf_next, State.clearStage_mem, State.tlbsync_mem]

theorem State.setKeyBit_wf {s : State} {di ctx : Nat} {on : Bool} (hm : s.mem.wf = true) : (s.setKeyBit di ctx on).mem.wf = true := by
  unfold State.setKeyBit
  grind [State.unitWrite_wf]

theorem State.keyset_wf {s : State} {di ctx : Nat} (hm : s.mem.wf = true) : (s.keyset di ctx).mem.wf = true := by
  unfold State.keyset
  grind [State.mtReject_mem, State.setKeyBit_wf, State.modDie_mem]

theorem State.keyclr_wf {s : State} {di ctx : Nat} (hm : s.mem.wf = true) : (s.keyclr di ctx).mem.wf = true := by
  unfold State.keyclr
  grind [State.mtReject_mem, State.setKeyBit_wf]

theorem execKeyset_wf {die ctx : Nat} {s : State} (hm : s.mem.wf = true) : OutWf (execKeyset die ctx s) := by
  unfold execKeyset
  grind [outWf_next, State.clearStage_mem, hold_wf, State.keyset_wf]

theorem execKeyclr_wf {die ctx : Nat} {s : State} (hm : s.mem.wf = true) : OutWf (execKeyclr die ctx s) := by
  unfold execKeyclr
  grind [outWf_next, State.clearStage_mem, State.keyclr_wf, hold_wf]

theorem State.mtCommand_wf {s : State} {di : Nat} {val : DWord} (hm : s.mem.wf = true) : (s.mtCommand di val).mem.wf = true := by
  unfold State.mtCommand
  grind [State.mtReject_mem, State.clearStage_mem, State.keyclr_wf, State.recheck_wf, State.keyset_wf, State.tlbsync_mem]

@[simp] theorem State.mtStatWrite_mem (s : State) (di : Nat) (val : DWord) : (s.mtStatWrite di val).mem = s.mem := by
  unfold State.mtStatWrite
  grind [State.modDie_mem]

theorem execMtstatWrite_wf {die : Nat} {val : DWord} {s : State} (hm : s.mem.wf = true) : OutWf (execMtstatWrite die val s) := by
  unfold execMtstatWrite
  grind [outWf_next, State.mtStatWrite_mem]

theorem execHeatDecay_wf {die : Nat} {s : State} (hm : s.mem.wf = true) : OutWf (execHeatDecay die s) := by
  unfold execHeatDecay
  grind [outWf_next, State.setDie_mem, hold_wf]

theorem execHeatr_wf {d a : BitVec 6} {region : Bool} {s : State} (hm : s.mem.wf = true) : OutWf (execHeatr d a region s) := by
  unfold execHeatr
  exact scalarWord_wf hm fun t ht => by
    grind [outWf_next, State.finish_wf, State.enter_mem, State.scalarFault_wf, State.advance_mem]

@[simp] theorem State.recSync_mem (s : State) (di tid ctx : Nat) : (s.recSync di tid ctx).mem = s.mem := rfl

theorem State.writeLeaf_wf {s : State} {l : Leaf} {frame tier state tid : Nat} (hm : s.mem.wf = true) :
    (s.writeLeaf l frame tier state tid).mem.wf = true := by
  unfold State.writeLeaf
  grind [State.unitWrite_wf]

theorem State.startMove_wf {s : State} {di tid slot : Nat} {hinted : Bool} {o : Order} {l : Leaf} (hm : s.mem.wf = true) :
    (s.startMove di tid slot hinted o l).mem.wf = true := by
  unfold State.startMove
  grind [State.modDie_mem, State.recSync_mem, State.writeLeaf_wf]

theorem State.writeStatus_wf {s : State} {di slot status : Nat} (hm : s.mem.wf = true) : (s.writeStatus di slot status).mem.wf = true := by
  unfold State.writeStatus
  grind [State.unitWrite_wf]

@[simp] theorem State.tookOrder_mem (s : State) (di : Nat) : (s.tookOrder di).mem = s.mem := rfl

theorem execMoveOrder_wf {die : Nat} {s : State} (hm : s.mem.wf = true) : OutWf (execMoveOrder die s) := by
  unfold execMoveOrder
  dsimp only
  split
  · exact hold_wf hm
  · split
    · exact hold_wf hm
    · have ht := (State.tookOrder_mem s (s.ownDie die)).symm ▸ hm
      split
      · split
        · exact (outWf_next _).mpr (State.writeStatus_wf (State.startMove_wf ht))
        · exact (outWf_next _).mpr (State.writeStatus_wf ht)
      · exact (outWf_next _).mpr (State.writeStatus_wf ht)

@[simp] theorem State.modRec_mem (s : State) (di tid : Nat) (f : TransitRec → TransitRec) : (s.modRec di tid f).mem = s.mem := rfl

theorem State.abortMove_wf {s : State} {di tid reason : Nat} (hm : s.mem.wf = true) : (s.abortMove di tid reason).mem.wf = true := by
  unfold State.abortMove
  grind [State.recSync_mem, State.writeLeaf_wf, State.modRec_mem]

theorem execMoveAbort_wf {die tid : Nat} {s : State} (hm : s.mem.wf = true) : OutWf (execMoveAbort die tid s) := by
  unfold execMoveAbort
  grind [outWf_next, State.abortMove_wf]

theorem execCancelOrder_wf {die : Nat} {s : State} (hm : s.mem.wf = true) : OutWf (execCancelOrder die s) := by
  unfold execCancelOrder
  grind [outWf_next, State.writeStatus_wf, State.abortMove_wf, State.tookOrder_mem, hold_wf, State.modRec_mem]

@[simp] theorem State.copyLeave_mem (s : State) (di : Nat) (r : TransitRec) : (s.copyLeave di r).mem = s.mem := by
  unfold State.copyLeave
  grind [State.leaveFor_mem]

theorem State.copySend_mem (s : State) (di : Nat) (r : TransitRec) : (s.copySend di r).mem = s.mem :=
  (foldl_mem (fun s c => s.noteWriter_mem c _) _ _).trans (s.copyLeave_mem di r)

theorem State.copyLine_wf {s : State} {di : Nat} {r : TransitRec} {bad : Bool} (hm : s.mem.wf = true) :
    (s.copyLine di r bad).mem.wf = true := by
  unfold State.copyLine
  refine Memory.wf_writeN (m := State.mem _) ?_ _ _
  grind [State.setLine_mem, State.poisonLine_mem]

theorem State.switchMove_wf {s : State} {di tid : Nat} {r : TransitRec} (hm : s.mem.wf = true) : (s.switchMove di tid r).mem.wf = true := by
  unfold State.switchMove
  grind [State.abortMove_wf, State.recSync_mem, State.writeLeaf_wf, State.modRec_mem]

theorem execCopyLine_wf {die tid : Nat} {err : CopyError} {s : State} (hm : s.mem.wf = true) : OutWf (execCopyLine die tid err s) := by
  unfold execCopyLine
  grind [outWf_next, State.abortMove_wf, hold_wf, State.copySend_mem, State.modRec_mem, State.switchMove_wf, State.copyLine_wf]

theorem State.hintLog_wf {s : State} {di bits : Nat} (hm : s.mem.wf = true) : (s.hintLog di bits).mem.wf = true := by
  unfold State.hintLog
  grind [State.unitWrite_wf, State.modDie_mem]

theorem State.freeMove_wf {s : State} {di tid : Nat} {r : TransitRec} (hm : s.mem.wf = true) : (s.freeMove di tid r).mem.wf = true := by
  unfold State.freeMove
  grind [State.writeStatus_wf, State.postEvent_wf, State.modDie_mem, State.hintLog_wf, State.snapFire_mem]

theorem State.recSynced_wf {s : State} {di tid : Nat} (hm : s.mem.wf = true) : (s.recSynced di tid).mem.wf = true := by
  unfold State.recSynced
  grind [State.freeMove_wf, State.modRec_mem]

theorem execTlbsyncComplete_wf {die : Nat} {s : State} (hm : s.mem.wf = true) : OutWf (execTlbsyncComplete die s) := by
  unfold execTlbsyncComplete
  grind [outWf_next, State.modDie_mem, hold_wf, State.recSynced_wf]

theorem execMhint_wf {a : BitVec 6} {tier : BitVec 2} {s : State} (hm : s.mem.wf = true) : OutWf (execMhint a tier s) := by
  unfold execMhint
  exact scalarWord_wf hm fun t ht => by
    grind [outWf_next, State.enter_mem, State.advance_mem]

theorem State.poolTake_wf {s : State} {di tier size : Nat} (hm : s.mem.wf = true) : (s.poolTake di tier size).2.mem.wf = true := by
  unfold State.poolTake
  grind [State.unitWrite_wf]

@[simp] theorem State.dropHint_mem (s : State) (di : Nat) : (s.dropHint di).mem = s.mem := rfl

theorem State.hintOrder_wf {s : State} {di tid : Nat} {h : Hint} {l : Leaf} {size : Nat} (hm : s.mem.wf = true) :
    (s.hintOrder di tid h l size).mem.wf = true := by
  unfold State.hintOrder
  grind [State.poolTake_wf, State.startMove_wf, State.dropHint_mem, State.hintLog_wf]

theorem execHint_wf {die : Nat} {s : State} (hm : s.mem.wf = true) : OutWf (execHint die s) := by
  unfold execHint
  grind [outWf_next, State.hintOrder_wf, State.setDie_mem, State.dropHint_mem, hold_wf]

theorem State.txrtailWrite_mem (s : State) (di : Nat) (val : DWord) : (s.txrtailWrite di val).2.mem = s.mem := by
  unfold State.txrtailWrite
  grind [State.modDie_mem]

theorem execTxrtailWrite_wf {die : Nat} {val : DWord} {s : State} (hm : s.mem.wf = true) : OutWf (execTxrtailWrite die val s) := by
  unfold execTxrtailWrite
  grind [outWf_next, State.txrtailWrite_mem]

/-! ### Ports, peers, the host's window and power (R89, R112-R114, R353-R361) -/

theorem State.abortWhere_wf {s : State} {reason : Nat} {f : TransitRec → Bool} (hm : s.mem.wf = true) :
    (s.abortWhere reason f).mem.wf = true := by
  unfold State.abortWhere
  refine foldl_wf (fun t di ht => ?_) _ hm
  exact foldl_wf (fun u tid => State.abortMove_wf) _ ht

theorem execPortLinkDown_wf {port : Nat} {s : State} (hm : s.mem.wf = true) : OutWf (execPortLinkDown port s) := by
  unfold execPortLinkDown
  grind [outWf_next, State.abortWhere_wf, hold_wf, State.linkDegrade_wf]

theorem execPeerLost_wf {node : Nat} {s : State} (hm : s.mem.wf = true) : OutWf (execPeerLost node s) := by
  unfold execPeerLost
  grind [outWf_next, State.abortWhere_wf, hold_wf]

theorem execHostHdmAccess_wf {write : Bool} {off : DWord} {data : List Byte} {s : State} (hm : s.mem.wf = true) :
    OutWf (execHostHdmAccess write off data s) := by
  unfold execHostHdmAccess
  grind [outWf_next, State.crossAll_mem, hold_wf, State.vRead_mem, State.vWrite_wf]

theorem execPowerSample_wf {watts demand : Nat} {mw : Word} {ns : DWord} {s : State} (hm : s.mem.wf = true) :
    OutWf (execPowerSample watts demand mw ns s) := by
  unfold execPowerSample
  grind [outWf_next, hold_wf]

@[simp] theorem State.telLatch_mem (s : State) : (s.telLatch).mem = s.mem := rfl

theorem execTeltimeLatch_wf {s : State} (hm : s.mem.wf = true) : OutWf (execTeltimeLatch s) := by
  unfold execTeltimeLatch
  grind [outWf_next, State.telLatch_mem]

theorem execPtpLock_wf {lock : Bool} {offset : Word} {s : State} (hm : s.mem.wf = true) : OutWf (execPtpLock lock offset s) := by
  unfold execPtpLock
  grind [outWf_next]

theorem execFunctionReady_wf {bit : Nat} {s : State} (hm : s.mem.wf = true) : OutWf (execFunctionReady bit s) := by
  unfold execFunctionReady
  grind [outWf_next, State.modDie_mem, hold_wf]

theorem execPowerOn_wf {s : State} (hm : s.mem.wf = true) : OutWf (execPowerOn s) := by
  exact (outWf_next _).mpr (Memory.wf_filter hm _)

theorem execFire_wf {s : State} (hm : s.mem.wf = true) : OutWf (execFire s) := by
  unfold execFire
  grind [outWf_next, State.snapFire_mem]

@[simp] theorem State.snapRelease_mem (s : State) : (s.snapRelease).mem = s.mem := rfl

theorem execSnpstatRelease_wf {s : State} (hm : s.mem.wf = true) : OutWf (execSnpstatRelease s) := by
  unfold execSnpstatRelease
  grind [outWf_next, State.snapRelease_mem]

theorem execDebuggerTrigger_wf {s : State} (hm : s.mem.wf = true) : OutWf (execDebuggerTrigger s) := by
  unfold execDebuggerTrigger
  grind [outWf_next, State.snapFire_mem]

/-! ### Writes of the system registers (R293, R294) -/

theorem State.writeDie_wf {s : State} {di index : Nat} {val : DWord} (hm : s.mem.wf = true) :
    (s.writeDie di index val).2.mem.wf = true := by
  unfold State.writeDie
  grind [State.setDie_mem, State.mtStatWrite_mem, State.mtCommand_wf]

theorem State.writeTransit_mem (s : State) (di index : Nat) (val : DWord) : (s.writeTransit di index val).2.mem = s.mem := by
  unfold State.writeTransit
  grind [State.txrtailWrite_mem, State.setDie_mem]

theorem State.writeChain_mem (s : State) (di index : Nat) (val : DWord) : (s.writeChain di index val).2.mem = s.mem := by
  unfold State.writeChain
  grind [State.setDie_mem]

theorem State.writeCore_mem (s : State) (core index : Nat) (val : DWord) : (s.writeCore core index val).2.mem = s.mem := by
  unfold State.writeCore
  grind [State.setCore_mem]

theorem State.ctxCommand_mem (s : State) (ctx : Nat) (val : DWord) : (s.ctxCommand ctx val).mem = s.mem := by
  unfold State.ctxCommand
  grind [execQuery, execPreempt, execRun, execEvict, execRestore, execHalt, State.ctxMove_mem, State.ctxOk_mem, State.ctxErr_mem,
    State.snapFire_mem]

theorem State.writeCtx_wf {s : State} {ctx index : Nat} {val : DWord} (hm : s.mem.wf = true) :
    (s.writeCtx ctx index val).2.mem.wf = true := by
  unfold State.writeCtx
  grind [State.resume_wf, State.ctxCommand_mem, State.setCtx_mem]

theorem State.writeDist_mem (s : State) (index : Nat) (val : DWord) : (s.writeDist index val).2.mem = s.mem := by
  unfold State.writeDist
  grind [State.dsCommand_mem]

theorem State.writePower_mem (s : State) (index : Nat) (val : DWord) : (s.writePower index val).2.mem = s.mem := by
  unfold State.writePower
  grind [State.snapRelease_mem, State.snapFire_mem]

theorem State.writeSys_wf {s : State} {x : Sel} {val : DWord} (hm : s.mem.wf = true) : (s.writeSys x val).2.mem.wf = true := by
  unfold State.writeSys
  grind [State.writeCtx_wf, State.writeChain_mem, State.modDie_mem, State.writeDie_wf, State.writeEventReg_mem, State.writeCore_mem,
      State.writeDist_mem, State.writeTransit_mem, State.writePower_mem]

theorem State.sysWrite_wf {s : State} {sel : Word} {val : DWord} (hm : s.mem.wf = true) : (s.sysWrite sel val).2.mem.wf = true := by
  unfold State.sysWrite
  grind [State.writeSys_wf]

theorem execWriteRegister_wf {sel : Word} {val : DWord} {s : State} (hm : s.mem.wf = true) : OutWf (execWriteRegister sel val s) := by
  unfold execWriteRegister
  grind [outWf_next, hold_wf, State.sysWrite_wf]

theorem sysWord_wf {reads : List Nat} {d : BitVec 6} {e : State → Entry} {s : State} (hm : s.mem.wf = true) :
    OutWf (sysWord reads d e s) := by
  unfold sysWord
  exact scalarWord_wf hm fun t ht => by
    grind [outWf_next, hold_wf, State.enter_mem, State.scalarFault_wf, State.advance_mem]

theorem execSysr_wf {d a : BitVec 6} {s : State} (hm : s.mem.wf = true) : OutWf (execSysr d a s) := sysWord_wf hm
theorem execSysw_wf {d a : BitVec 6} {s : State} (hm : s.mem.wf = true) : OutWf (execSysw d a s) := sysWord_wf hm

@[simp] theorem State.sysFlag_mem (s : State) (e : Entry) (flag : Bool) : (s.sysFlag e flag).mem = s.mem := by
  unfold State.sysFlag
  grind [State.modHolder_mem]

@[simp] theorem State.performSysr_mem (s : State) (e : Entry) : (s.performSysr e).mem = s.mem := by
  unfold State.performSysr
  grind [State.land_mem, State.telLatch_mem, State.sysFlag_mem]

theorem State.performSysw_wf {s : State} {e : Entry} (hm : s.mem.wf = true) : (s.performSysw e).mem.wf = true := by
  unfold State.performSysw
  grind [State.dropEnt_mem, State.sysWrite_wf, State.sysFlag_mem]

/-! ### Every kind of entry; eviction and restore (R43, R265, R266, R313, R331-R337) -/

theorem State.keepDiscards_mem (s : State) (ctx core : Nat) : (s.keepDiscards ctx core).mem = s.mem := by
  unfold State.keepDiscards
  exact foldl_mem (fun s k => s.setGroup_mem core k _) _ _

@[simp] theorem State.abandon_mem (s : State) (ctx core : Nat) : (s.abandon ctx core).mem = s.mem := by
  unfold State.abandon
  grind [State.setCtxCore_mem, State.keepDiscards_mem, State.ctxErr_mem]

theorem State.saveDone_wf {s : State} {e : Entry} {ok : Bool} (hm : s.mem.wf = true) : (s.saveDone e ok).mem.wf = true := by
  unfold State.saveDone
  grind [State.recorded_wf, State.dropEnt_mem, State.abandon_mem]

theorem State.deliver_wf {s : State} {e : Entry} (hm : s.mem.wf = true) : (s.deliver e).mem.wf = true := by
  unfold State.deliver
  grind [State.putRuns_wf, State.brought_mem, State.saveDone_wf, State.dropFloors_mem, State.ownerCheck_mem]

@[simp] theorem State.saveLook_mem (s : State) (e : Entry) : (s.saveLook e).mem = s.mem := by
  unfold State.saveLook
  grind [State.brought_mem, State.dropEnt_mem, State.ownerCheck_mem, State.noteReply_mem]

theorem execRequestAtOwner_wf {id : Nat} {s : State} (hm : s.mem.wf = true) : OutWf (execRequestAtOwner id s) := by
  unfold execRequestAtOwner
  grind [outWf_next, State.saveLook_mem, State.answer_mem, State.hintArrives_mem, hold_wf, State.deliver_wf]

@[simp] theorem State.performHeatr_mem (s : State) (e : Entry) : (s.performHeatr e).mem = s.mem := by
  unfold State.performHeatr
  grind [State.leave_mem, State.land_mem, State.noteServed_mem, State.noteReply_mem]

theorem execCompleteLoad_wf {id : Nat} {s : State} (hm : s.mem.wf = true) : OutWf (execCompleteLoad id s) := by
  unfold execCompleteLoad
  grind [outWf_next, State.reply_wf, State.performHeatr_mem, hold_wf]

theorem State.performEnt_wf {s : State} {e : Entry} (hm : s.mem.wf = true) : (s.performEnt e).mem.wf = true := by
  unfold State.performEnt
  grind [State.performMem_wf, State.reply_wf, State.performSysr_mem, State.performSysw_wf]

theorem execPerform_wf {id : Nat} {s : State} (hm : s.mem.wf = true) : OutWf (execPerform id s) := by
  unfold execPerform
  grind [outWf_next, State.performEnt_wf, hold_wf]

theorem State.stopLoops_mem (s : State) (ctx core : Nat) : (s.stopLoops ctx core).mem = s.mem := by
  unfold State.stopLoops
  exact foldl_mem (fun s k => by grind [State.stopLoop_mem, State.saveLoop_mem]) _ _

theorem State.pushLate_wf {s : State} {id : Nat} (hm : s.mem.wf = true) : (s.pushLate id).mem.wf = true := by
  unfold State.pushLate
  grind [State.performEnt_wf, State.pushEnt_wf, State.commitEnt_mem]

theorem State.pushCtx_wf {s : State} {ctx core : Nat} (hm : s.mem.wf = true) : (s.pushCtx ctx core).mem.wf = true := by
  unfold State.pushCtx
  exact foldl_wf (fun t id => State.pushLate_wf) _ hm

theorem State.chooseDiscards_mem (s : State) (ctx core : Nat) : (s.chooseDiscards ctx core).mem = s.mem := by
  unfold State.chooseDiscards
  exact foldl_mem (fun s k => s.setGroup_mem core k _) _ _

theorem State.withdrawAll_wf {s : State} {ctx core : Nat} (hm : s.mem.wf = true) : (s.withdrawAll ctx core).mem.wf = true := by
  unfold State.withdrawAll
  refine foldl_wf (fun t p ht => ?_) _ hm
  exact foldl_wf (fun u n hu => by grind [State.withdrawWait_wf, State.modSplit_mem]) _ ht

theorem State.giveUp_wf {s : State} {ctx core : Nat} (hm : s.mem.wf = true) : (s.giveUp ctx core).mem.wf = true := by
  unfold State.giveUp
  exact foldl_wf (fun t k => State.dropGroup_wf) _ hm

theorem State.saveCore_wf {s : State} {ctx core : Nat} (hm : s.mem.wf = true) : (s.saveCore ctx core).mem.wf = true := by
  unfold State.saveCore
  grind [State.setCtxCore_mem, State.withdrawAll_wf, State.giveUp_wf, State.noteDone_mem, State.abandon_mem, State.sendLines_mem,
      State.snapFire_mem]

theorem execEvictSave_wf {ctx core : Nat} {s : State} (hm : s.mem.wf = true) : OutWf (execEvictSave ctx core s) := by
  unfold execEvictSave
  grind [outWf_next, State.chooseDiscards_mem, hold_wf, State.stopLoops_mem, State.saveCore_wf, State.pushCtx_wf]

theorem State.readImage_mem (s : State) (ctx core off n : Nat) : (s.readImage ctx core off n).2.mem = s.mem := by
  unfold State.readImage
  grind [State.vRead_mem]

theorem State.readSplits_mem (s : State) (ctx core slot : Nat) (ns : List Nat) (g : Group) :
    (s.readSplits ctx core slot ns g).2.mem = s.mem := by
  fun_induction State.readSplits s ctx core slot ns g <;> grind [State.readImage_mem]

theorem State.readDiscarded_mem (s : State) (ctx core slot : Nat) (g : Group) : (s.readDiscarded ctx core slot g).2.mem = s.mem := by
  unfold State.readDiscarded
  grind [State.readImage_mem]

theorem State.readGroup_mem (s : State) (ctx core slot : Nat) (g : Group) : (s.readGroup ctx core slot g).2.mem = s.mem := by
  unfold State.readGroup
  grind [State.readDiscarded_mem, State.readSplits_mem, State.readImage_mem]

@[simp] theorem State.putBack_mem (s : State) (core slot : Nat) (g : Group) : (s.putBack core slot g).mem = s.mem := by
  unfold State.putBack
  grind [State.setGroup_mem, State.useRows_mem]

theorem State.putGroups_mem (s : State) (ctx core : Nat) (gs : List (Nat × Group)) {t : State} (ho : s.putGroups ctx core gs = some t) :
    t.mem = s.mem := by
  induction gs generalizing s with
  | nil => unfold State.putGroups at ho; grind
  | cons p gs ih => unfold State.putGroups at ho; grind [State.readGroup_mem, State.putBack_mem]

theorem State.putUnits_wf {s : State} {ctx core : Nat} {us : List (Nat × UnitRec)} {t : State} (hm : s.mem.wf = true)
    (ho : s.putUnits ctx core us = some t) : t.mem.wf = true := by
  induction us generalizing s with
  | nil => unfold State.putUnits at ho; grind
  | cons p us ih =>
    unfold State.putUnits at ho
    split at ho
    · next base bs u _ hread =>
      have hu : u.mem.wf = true := by
        have := State.readImage_mem s ctx core (0x510000 + p.2.pbase) p.2.psize
        grind
      refine ih ?_ ho
      exact foldl_wf (fun t i => State.scrWrite_wf) _ hu
    · simp at ho

theorem State.putObjs_mem (s : State) (ctx core : Nat) (objs : List PhaserTag) {t : State} (ho : s.putObjs ctx core objs = some t) :
    t.mem = s.mem := by
  unfold State.putObjs at ho
  grind [State.setCore_mem, State.readImage_mem]

theorem State.restoreCore_wf {s : State} {ctx core : Nat} (hm : s.mem.wf = true) {t : State} (ho : s.restoreCore ctx core = some t) :
    t.mem.wf = true := by
  unfold State.restoreCore at ho
  split at ho
  · simp at ho
  · simp only [Option.bind_eq_some_iff, Option.map_eq_some_iff] at ho
    obtain ⟨u, hu, v, hv, w, hw, rfl⟩ := ho
    rw [State.leaveCore_mem, State.setCtxCore_mem, State.putGroups_mem _ _ _ _ hw, State.putObjs_mem _ _ _ _ hv]
    exact State.putUnits_wf ((State.enterCore_mem s ctx core).symm ▸ hm) hu

theorem State.askImage_mem (s : State) (ctx core : Nat) : (s.askImage ctx core).mem = s.mem := by
  unfold State.askImage
  exact foldl_mem (fun s x => s.enter_mem _) _ _

theorem execRestorePlace_wf {ctx core : Nat} {s : State} (hm : s.mem.wf = true) : OutWf (execRestorePlace ctx core s) := by
  unfold execRestorePlace
  dsimp only
  split
  · exact hold_wf hm
  · split
    · rw [outWf_next, foldl_mem fun t k => t.askImage_mem ctx k]
      exact hm
    · split
      · next t ht =>
        rw [outWf_next, State.noteDone_mem]
        have go (ks : List Nat) (r : Option State) (hr : ∀ t, r = some t → t.mem.wf = true) :
            ∀ t, ks.foldl (fun r k => r.bind fun s => s.restoreCore ctx k) r = some t → t.mem.wf = true := by
          induction ks generalizing r with
          | nil => exact hr
          | cons k ks ih =>
            refine ih _ fun t ht => ?_
            obtain ⟨u, hu, hut⟩ := Option.bind_eq_some_iff.mp ht
            exact State.restoreCore_wf (hr u hu) hut
        exact go _ _ (by grind) _ ht
      · exact hold_wf hm

theorem State.refetch_mem (s : State) (ag : Agent) {t : State} (ho : s.refetch ag = some t) : t.mem = s.mem := by
  unfold State.refetch at ho
  grind [State.fetchLane_mem, State.modSplit_mem]

theorem State.turn_mem (s : State) : s.turn.2.2.mem = s.mem := by
  unfold State.turn; grind

theorem State.settle_wf {s : State} (hm : s.mem.wf = true) : (s.settle).mem.wf = true := by
  unfold State.settle
  grind [State.injectAll_mem, State.sendPosts_wf, State.settleLoops_mem, State.settleFences_mem]

/-! ### Dispatch, turns and the step (R16, R34, R306) -/

/-- Every instruction keeps the canonical form of memory. -/
theorem exec_wf {i : Instr} {s : State} (hm : s.mem.wf = true) : OutWf (exec i s) := by
  cases i with
  | br => exact execBr_wf hm
  | brc => exact execBrc_wf hm
  | brv => exact execBrv_wf hm
  | call => exact execCall_wf hm
  | ret => exact execRet_wf hm
  | exit => exact execExit_wf hm
  | loop => exact execLoop_wf hm
  | loopr => exact execLoopr_wf hm
  | lbrk => exact execLbrk_wf hm
  | lrun => exact execLrun_wf hm
  | ljmp => exact execLjmp_wf hm
  | sadd => exact execSadd_wf hm
  | ssub => exact execSsub_wf hm
  | smul => exact execSmul_wf hm
  | smulh => exact execSmulh_wf hm
  | sand => exact execSand_wf hm
  | sor => exact execSor_wf hm
  | sxor => exact execSxor_wf hm
  | sshl => exact execSshl_wf hm
  | sshr => exact execSshr_wf hm
  | ssra => exact execSsra_wf hm
  | smin => exact execSmin_wf hm
  | smax => exact execSmax_wf hm
  | scmp => exact execScmp_wf hm
  | ssel => exact execSsel_wf hm
  | smovi => exact execSmovi_wf hm
  | slui => exact execSlui_wf hm
  | slea => exact execSlea_wf hm
  | sld => exact execSld_wf hm
  | sst => exact execSst_wf hm
  | sget => exact execSget_wf hm
  | sset => exact execSset_wf hm
  | amov => exact execAmov_wf hm
  | aadd => exact execAadd_wf hm
  | aadda => exact execAadda_wf hm
  | ascl => exact execAscl_wf hm
  | ashl => exact execAshl_wf hm
  | astr => exact execAstr_wf hm
  | aget => exact execAget_wf hm
  | reggrow => exact execReggrow_wf hm
  | regshrink => exact execRegshrink_wf hm
  | idemb => exact execIdemb_wf hm
  | ideme => exact execIdeme_wf hm
  | phinit => exact execPhinit_wf hm
  | phrole => exact execPhrole_wf hm
  | pharr => exact execPharr_wf hm
  | phwait => exact execPhwait_wf hm
  | phfree => exact execPhfree_wf hm
  | evpop => exact execEvpop_wf hm
  | evpost => exact execEvpost_wf hm
  | launch => exact execLaunch_wf hm
  | cancel => exact execCancel_wf hm
  | snop => exact execSnop_wf hm
  | ccnt => exact execCcnt_wf hm
  | xcopy => exact execXcopy_wf hm
  | xgath => exact execXgath_wf hm
  | xscat => exact execXscat_wf hm
  | xred => exact execXred_wf hm
  | mhint => exact execMhint_wf hm
  | heatr => exact execHeatr_wf hm
  | trap => exact execTrap_wf hm
  | tret => exact execTret_wf hm
  | sysr => exact execSysr_wf hm
  | sysw => exact execSysw_wf hm
  | bkpt code => exact execBkpt_wf (_code := code) hm
  | yield => exact execYield_wf hm
  | iadd => exact execIadd_wf hm
  | isub => exact execIsub_wf hm
  | imul => exact execImul_wf hm
  | imulh => exact execImulh_wf hm
  | imad => exact execImad_wf hm
  | imadw => exact execImadw_wf hm
  | iaddx => exact execIaddx_wf hm
  | imin => exact execImin_wf hm
  | imax => exact execImax_wf hm
  | iabs => exact execIabs_wf hm
  | and => exact execAnd_wf hm
  | or => exact execOr_wf hm
  | xor => exact execXor_wf hm
  | andn => exact execAndn_wf hm
  | shl => exact execShl_wf hm
  | shr => exact execShr_wf hm
  | sra => exact execSra_wf hm
  | rot => exact execRot_wf hm
  | bfx => exact execBfx_wf hm
  | bfi => exact execBfi_wf hm
  | popc => exact execPopc_wf hm
  | clz => exact execClz_wf hm
  | icmp => exact execIcmp_wf hm
  | fadd => exact execFadd_wf hm
  | fsub => exact execFsub_wf hm
  | fmul => exact execFmul_wf hm
  | ffma => exact execFfma_wf hm
  | fmin => exact execFmin_wf hm
  | fmax => exact execFmax_wf hm
  | fcmp => exact execFcmp_wf hm
  | frcp => exact execFrcp_wf hm
  | frsq => exact execFrsq_wf hm
  | fexp2 => exact execFexp2_wf hm
  | flog2 => exact execFlog2_wf hm
  | fscl => exact execFscl_wf hm
  | frnd => exact execFrnd_wf hm
  | fclass => exact execFclass_wf hm
  | dp4 => exact execDp4_wf hm
  | dp8 => exact execDp8_wf hm
  | dph2 => exact execDph2_wf hm
  | cvt => exact execCvt_wf hm
  | cvti => exact execCvti_wf hm
  | pack => exact execPack_wf hm
  | unpk => exact execUnpk_wf hm
  | sel => exact execSel_wf hm
  | plog => exact execPlog_wf hm
  | vote => exact execVote_wf hm
  | pmov => exact execPmov_wf hm
  | mov => exact execMov_wf hm
  | movi => exact execMovi_wf hm
  | shuf => exact execShuf_wf hm
  | gath => exact execGath_wf hm
  | redl => exact execRedl_wf hm
  | scanl => exact execScanl_wf hm
  | mloop => exact execMloop_wf hm
  | tstore => exact execTstore_wf hm
  | tmset => exact execTmset_wf hm
  | tmlog => exact execTmlog_wf hm
  | sigh => exact execSigh_wf hm
  | parc => exact execParc_wf hm
  | pcomp => exact execPcomp_wf hm
  | scat => exact execScat_wf hm
  | psum => exact execPsum_wf hm
  | plat => exact execPlat_wf hm
  | ld => exact execLd_wf hm
  | st => exact execSt_wf hm
  | lde => exact execLde_wf hm
  | ldl => exact execLdl_wf hm
  | stl => exact execStl_wf hm
  | prf => exact execPrf_wf hm
  | atom => exact execAtom_wf hm
  | atomr => exact execAtomr_wf hm
  | fence => exact execFence_wf hm
  | ltrap => exact execLtrap_wf hm
  | lnop => exact execLnop_wf hm
  | splitEnd => exact execSplitEnd_wf hm
  | joinMerge => exact execJoinMerge_wf hm
  | escortDepart => exact execEscortDepart_wf hm
  | completeLoad => exact execCompleteLoad_wf hm
  | commit => exact execCommit_wf hm
  | perform => exact execPerform_wf hm
  | fill => exact execFill_wf hm
  | drop => exact execDrop_wf hm
  | l1StoreTimeout => exact execL1StoreTimeout_wf hm
  | promoteProbe => exact execPromoteProbe_wf hm
  | requestAtOwner => exact execRequestAtOwner_wf hm
  | serviceGroupAtomic => exact execServiceGroupAtomic_wf hm
  | heatDecay => exact execHeatDecay_wf hm
  | tlbsync => exact execTlbsync_wf hm
  | tlbsyncComplete => exact execTlbsyncComplete_wf hm
  | recheck => exact execRecheck_wf hm
  | keyset => exact execKeyset_wf hm
  | keyclr => exact execKeyclr_wf hm
  | mtstatWrite => exact execMtstatWrite_wf hm
  | leaseRequest => exact execLeaseRequest_wf hm
  | leaseRelease => exact execLeaseRelease_wf hm
  | moveOrder => exact execMoveOrder_wf hm
  | cancelOrder => exact execCancelOrder_wf hm
  | hint => exact execHint_wf hm
  | copyLine => exact execCopyLine_wf hm
  | moveAbort => exact execMoveAbort_wf hm
  | txrtailWrite => exact execTxrtailWrite_wf hm
  | frameBoundary => exact execFrameBoundary_wf hm
  | driftLoopPass => exact execDriftLoopPass_wf hm
  | flitReceive => exact execFlitReceive_wf hm
  | flitAck => exact execFlitAck_wf hm
  | wavelengthLoss => exact execWavelengthLoss_wf hm
  | restripeNotice => exact execRestripeNotice_wf hm
  | linkRestore => exact execLinkRestore_wf hm
  | portLinkDown => exact execPortLinkDown_wf hm
  | hostHdmAccess => exact execHostHdmAccess_wf hm
  | jobStart => exact execJobStart_wf hm
  | jobComplete => exact execJobComplete_wf hm
  | eqbaseWrite => exact execEqbaseWrite_wf hm
  | eqheadWrite => exact execEqheadWrite_wf hm
  | reggrowRetry => exact execReggrowRetry_wf hm
  | regshrinkRelease => exact execRegshrinkRelease_wf hm
  | mloopAdmit => exact execMloopAdmit_wf hm
  | mloopStep => exact execMloopStep_wf hm
  | arrayWordFinish => exact execArrayWordFinish_wf hm
  | phaserArrive => exact execPhaserArrive_wf hm
  | dsitailWrite => exact execDsitailWrite_wf hm
  | dsiEntry => exact execDsiEntry_wf hm
  | openHandle => exact execOpenHandle_wf hm
  | closeHandle => exact execCloseHandle_wf hm
  | retireHandle => exact execRetireHandle_wf hm
  | unitPlace => exact execUnitPlace_wf hm
  | launchComplete => exact execLaunchComplete_wf hm
  | watchdogExpiry => exact execWatchdogExpiry_wf hm
  | deferredFaultReport => exact execDeferredFaultReport_wf hm
  | resumeRetry => exact execResumeRetry_wf hm
  | resumeSkip => exact execResumeSkip_wf hm
  | resumeEnd => exact execResumeEnd_wf hm
  | resumeReplay => exact execResumeReplay_wf hm
  | query => exact execQuery_wf hm
  | preempt => exact execPreempt_wf hm
  | halt => exact execHalt_wf hm
  | run => exact execRun_wf hm
  | evict => exact execEvict_wf hm
  | evictSave => exact execEvictSave_wf hm
  | restore => exact execRestore_wf hm
  | restorePlace =>
    dsimp only [exec]
    exact execRestorePlace_wf hm
  | fire => exact execFire_wf hm
  | snpstatRelease => exact execSnpstatRelease_wf hm
  | powerSample => exact execPowerSample_wf hm
  | teltimeLatch => exact execTeltimeLatch_wf hm
  | functionReady => exact execFunctionReady_wf hm
  | writeRegister => exact execWriteRegister_wf hm
  | illegalOp => exact execIllegalOp_wf hm
  | powerOn => exact execPowerOn_wf hm
  | ptpLock => exact execPtpLock_wf hm
  | peerLost => exact execPeerLost_wf hm
  | debuggerTrigger => exact execDebuggerTrigger_wf hm

/-- The state that a turn comes to has its memory in the canonical form; a turn that stops the machine has none. -/
def Pick.MemWf : Pick → Prop
  | .run _ s => s.mem.wf = true
  | .took s => s.mem.wf = true
  | .done s => s.mem.wf = true
  | .stop _ => True

theorem State.runScalar_memWf {s : State} {ag : Agent} {w : Word} (hm : s.mem.wf = true) : (s.runScalar ag w).MemWf := by
  unfold State.runScalar
  grind [Pick.MemWf, State.scalarTrap_wf]

theorem State.pickScalar_memWf {s : State} {ag : Agent} (hm : s.mem.wf = true) : (s.pickScalar ag).MemWf := by
  unfold State.pickScalar
  grind [Pick.MemWf, State.runScalar_memWf, State.scalarFault_wf, State.fetchBytes_mem, State.modSplit_mem]

theorem State.runLane_memWf {s : State} {ag : Agent} (hm : s.mem.wf = true) : (s.runLane ag).MemWf := by
  unfold State.runLane
  grind [Pick.MemWf, State.bindRacers_mem]

theorem State.pickLane_memWf {s : State} {ag : Agent} (hm : s.mem.wf = true) : (s.pickLane ag).MemWf := by
  unfold State.pickLane
  grind [Pick.MemWf, State.runLane_memWf, State.refetch_mem]

theorem State.pickStream_memWf {s : State} {free : Bool} {ag : Agent} {lane : Bool} (hm : s.mem.wf = true) :
    (s.pickStream free ag lane).MemWf := by
  unfold State.pickStream
  grind [Pick.MemWf, State.pickLane_memWf, State.pickScalar_memWf]

theorem State.pickTurn_memWf {s : State} {free : Bool} {t : Turn} (hm : s.mem.wf = true) : (s.pickTurn free t).MemWf := by
  unfold State.pickTurn
  grind [Pick.MemWf, State.pickStream_memWf, State.engineTurn_wf]

theorem State.pick_memWf {s : State} (hm : s.mem.wf = true) : s.pick.MemWf := by
  unfold State.pick
  grind [Pick.MemWf, State.pickTurn_memWf, State.turn_mem]

/-- A step keeps the canonical form: the turn that is picked does, its instruction does, and what is settled after it does. -/
theorem step_wf {s t : State} (hm : s.mem.wf = true) (ho : step s = .next t) : t.mem.wf = true := by
  have hpick := State.pick_memWf hm
  unfold step at ho
  split at ho
  · next u hu =>
    rw [hu] at hpick
    cases ho
    exact State.settle_wf hpick
  · next u hu =>
    rw [hu] at hpick
    cases ho
    exact State.settle_wf hpick
  · cases ho
  · next i u hu =>
    rw [hu] at hpick
    have hexec := exec_wf (i := i) hpick
    split at ho
    · next v hv =>
      cases ho
      exact State.settle_wf (hexec v hv)
    · cases ho
    · cases ho

end Sys2Proof.Machine

namespace Sys2Proof.Proofs
open Sys2Proof.Machine Sys2Proof.Safety

/-- Settles O60: every step's memory is written through the operations that keep its canonical form. -/
theorem memoryKept : Obligations.MemoryKept := fun _ _ hm ho => step_wf hm ho

end Sys2Proof.Proofs
end

section
namespace Sys2Proof.Machine
open Sys2Proof.Safety

/-! ### A command that changes one die (R52-R54, R65) -/

/-- `t` is `s` but for the registers of one die, which are `e`. -/
def DieOnly (s t : State) (di : Nat) (e : Die) : Prop :=
  t = { s with dies := t.dies } ∧ t.die di = e ∧ ∀ j, j ≠ di → t.die j = s.die j

theorem State.setDie_dieOnly (s : State) (di : Nat) (x : Die) : DieOnly s (s.setDie di x) di x :=
  ⟨rfl, by simp [State.die_setDie], fun j hj => by simp [State.die_setDie, Ne.symm hj]⟩

theorem State.modDie_dieOnly (s : State) (di : Nat) (f : Die → Die) : DieOnly s (s.modDie di f) di (f (s.die di)) :=
  s.setDie_dieOnly di _

/-- A second change of the die follows the first. -/
theorem DieOnly.modDie {s t : State} {di : Nat} {e : Die} (h : DieOnly s t di e) (f : Die → Die) :
    DieOnly s (t.modDie di f) di (f e) := by
  obtain ⟨hrest, hdie, hothers⟩ := h
  obtain ⟨krest, kdie, kothers⟩ := t.modDie_dieOnly di f
  refine ⟨?_, by rw [kdie, hdie], fun j hj => by rw [kothers j hj, hothers j hj]⟩
  rw [krest, hrest]

theorem State.node_lt (s : State) : s.node.toNat < 512 := s.node.isLt

theorem State.ownDie_eq (s : State) {die : Nat} (h : die < 4) : s.ownDie die = 4 * s.node.toNat + die := by
  rw [State.ownDie, Nat.mod_eq_of_lt h]

theorem State.dieAt_eq (s : State) (k : Nat) {die : Nat} (h : die < 4) :
    s.dieAt (4 * k + die) = 4 * ((s.node.toNat + k) % 512) + die := by
  rw [State.dieAt, show (4 * k + die) / 4 = k by omega, show (4 * k + die) % 4 = die by omega]

theorem State.dieAt_own (s : State) {die : Nat} (h : die < 4) : s.dieAt die = 4 * s.node.toNat + die := by
  have hn := s.node_lt
  have := s.dieAt_eq 0 h
  rwa [Nat.mul_zero, Nat.zero_add, Nat.add_zero, Nat.mod_eq_of_lt hn] at this

/-! ### A die whose registers alone a write by physical address leaves (R44, R73) -/

theorem State.unitWrite_eq (s : State) (k : Nat) (bs : List Byte) :
    s.unitWrite k bs = { s with
      mem := s.mem.writeN k bs, lines := (s.unitWrite k bs).lines, bver := (s.unitWrite k bs).bver, wseq := s.wseq + 1 } := by
  have h : ∀ (l : List Nat) (t : State), l.foldl (fun t i => t.setLine (k / 128 + i)
      { t.line (k / 128 + i) with written := true, releaser := none }) t = { t with lines := (l.foldl (fun t i =>
        t.setLine (k / 128 + i) { t.line (k / 128 + i) with written := true, releaser := none }) t).lines } := by
    intro l
    induction l with
    | nil => exact fun _ => rfl
    | cons i l ih =>
      intro t
      rw [List.foldl_cons, ih]
      rfl
  simp only [State.unitWrite, State.stampKeys, State.rawWrite]
  rw [h]

theorem State.unitWrite_mem (s : State) (k : Nat) (bs : List Byte) : (s.unitWrite k bs).mem = s.mem.writeN k bs := by
  rw [State.unitWrite_eq]

theorem State.unitWrite_dies (s : State) (k : Nat) (bs : List Byte) : (s.unitWrite k bs).dies = s.dies := by
  rw [State.unitWrite_eq]

theorem State.unitWrite_die (s : State) (k : Nat) (bs : List Byte) (di : Nat) : (s.unitWrite k bs).die di = s.die di := by
  rw [State.die, State.unitWrite_dies, State.die]

theorem Memory.readN_writeN (m : Memory) (k : Nat) (bs : List Byte) : (m.writeN k bs).readN k bs.length = bs := by
  refine List.ext_getElem (by simp) fun i h _ => ?_
  rw [Memory.readN_length] at h
  simp [Memory.readN, Memory.read_writeN_in m k bs h]

/-- A word that was written by physical address reads back. -/
theorem State.raw64_unitWrite (s : State) (k v : Nat) : (s.unitWrite k (toBytes v 8)).raw64 k = BitVec.ofNat 64 v := by
  have h := Memory.readN_writeN s.mem k (toBytes v 8)
  rw [length_toBytes] at h
  rw [State.raw64, State.unitWrite_mem, h, ofBytes_toBytes]
  exact BitVec.eq_of_toNat_eq (by simp)

/-! ### KEY of a context's entry (R44, R65) -/

theorem bitNat_eq_testBit (v n : Nat) : bitNat v n = v.testBit n := by
  rw [bitNat, Nat.testBit_eq_decide_div_mod_eq]
  exact Bool.beq_eq_decide_eq _ _

/-- Two numbers that differ in bit 1 at most agree in their other bits. -/
theorem testBit_of_quarter {m n : Nat} (h0 : m % 2 = n % 2) (h2 : m / 4 = n / 4) {i : Nat} (hi : i ≠ 1) :
    m.testBit i = n.testBit i := by
  obtain _ | _ | i := i
  · rw [Nat.testBit_zero, Nat.testBit_zero, h0]
  · exact absurd rfl hi
  · rw [Nat.testBit_add m i 2, Nat.testBit_add n i 2, h2]

/-- A word whose bit 1 is not `on`, with 2 added or taken away, has that bit `on` and its other bits as they were. -/
theorem flipKeyBit_getLsbD (v : DWord) (on : Bool) (h : v.getLsbD 1 ≠ on) (i : Nat) :
    (BitVec.ofNat 64 (if on then v.toNat + 2 else v.toNat - 2)).getLsbD i = if i = 1 then on else v.getLsbD i := by
  have hv := v.isLt
  generalize hm : (if on then v.toNat + 2 else v.toNat - 2) = m
  obtain ⟨hbit, h0, h2, hlt⟩ : m / 2 % 2 = on.toNat ∧ m % 2 = v.toNat % 2 ∧ m / 4 = v.toNat / 4 ∧ m < 2 ^ 64 := by
    rw [← BitVec.testBit_toNat, Nat.testBit_eq_decide_div_mod_eq] at h
    cases on <;> simp at h hm ⊢ <;> omega
  rw [← BitVec.testBit_toNat, ← BitVec.testBit_toNat, BitVec.toNat_ofNat, Nat.mod_eq_of_lt hlt]
  split
  · next hi =>
    rw [hi, Nat.testBit_eq_decide_div_mod_eq]
    cases on <;> simp [hbit]
  · next hi => exact testBit_of_quarter h0 h2 hi

section
variable {s : State} {di ctx : Nat} {on : Bool}

theorem State.setKeyBit_dies : (s.setKeyBit di ctx on).dies = s.dies := by
  unfold State.setKeyBit
  dsimp only
  split
  · rfl
  · exact s.unitWrite_dies _ _

theorem State.setKeyBit_die (j : Nat) : (s.setKeyBit di ctx on).die j = s.die j := by
  rw [State.die, State.setKeyBit_dies, State.die]

theorem State.setKeyBit_read_out {k : Nat} (h : k < s.ctxEntryKey di ctx ∨ s.ctxEntryKey di ctx + 8 ≤ k) :
    (s.setKeyBit di ctx on).mem.read k = s.mem.read k := by
  unfold State.setKeyBit
  dsimp only
  split
  · rfl
  · exact s.unitWrite_read_out _ _ (by rwa [length_toBytes])

theorem State.setKeyBit_getLsbD (i : Nat) : ((s.setKeyBit di ctx on).raw64 (s.ctxEntryKey di ctx)).getLsbD i =
    if i = 1 then on else (s.raw64 (s.ctxEntryKey di ctx)).getLsbD i := by
  unfold State.setKeyBit
  dsimp only
  rw [bitNat_eq_testBit, BitVec.testBit_toNat]
  split
  · next h =>
    split
    · next hi => rw [hi, eq_of_beq h]
    · rfl
  · next h => rw [State.raw64_unitWrite, flipKeyBit_getLsbD _ _ (by simpa using h)]

end
end Sys2Proof.Machine
end

section
namespace Sys2Proof.Machine
open Sys2Proof.Safety

/-! ### The staged key (R65) -/

/-- Numbers below a radix `B`, as one number, the first lowest: digit `j` stands at place `j`. -/
theorem sumOver_digits {B : Nat} (hB : 0 < B) {f : Nat → Nat} (hf : ∀ i, f i < B) (n : Nat) :
    sumOver (List.range n) (fun i => f i * B ^ i) < B ^ n
      ∧ ∀ j, j < n → sumOver (List.range n) (fun i => f i * B ^ i) / B ^ j % B = f j := by
  induction n with
  | zero => exact ⟨by simp [sumOver], fun j hj => absurd hj (Nat.not_lt_zero j)⟩
  | succ n ih =>
    obtain ⟨hlt, hdigit⟩ := ih
    have hsum : sumOver (List.range (n + 1)) (fun i => f i * B ^ i) = sumOver (List.range n) (fun i => f i * B ^ i) + B ^ n * f n := by
      simp [sumOver, List.range_succ, Nat.mul_comm]
    rw [hsum]
    refine ⟨?_, fun j hj => ?_⟩
    · calc _ < B ^ n + B ^ n * f n := Nat.add_lt_add_right hlt _
        _ = B ^ n * (f n + 1) := by ring
        _ ≤ B ^ n * B := Nat.mul_le_mul_left _ (hf n)
    · obtain rfl | hj := Nat.eq_or_lt_of_le (Nat.le_of_lt_succ hj)
      · rw [Nat.add_mul_div_left _ _ (Nat.pow_pos hB), Nat.div_eq_of_lt hlt, Nat.zero_add, Nat.mod_eq_of_lt (hf j)]
      · obtain ⟨k, rfl⟩ := Nat.exists_eq_add_of_lt hj
        rw [show B ^ (j + k + 1) * f (j + k + 1) = B ^ j * (B * (B ^ k * f (j + k + 1))) by ring,
          Nat.add_mul_div_left _ _ (Nat.pow_pos hB), Nat.add_mul_mod_self_left, hdigit j hj]

/-- The staged key holds MTKEY`i` at bits `64 i` up. -/
theorem Die.stagedKey_extract (d : Die) {i : Nat} (hi : i < 8) : d.stagedKey.extractLsb' (64 * i) 64 = Tab.get 0 d.mtkey i := by
  obtain ⟨hlt, hdigit⟩ := sumOver_digits (B := 2 ^ 64) (by decide) (f := fun i => (Tab.get 0 d.mtkey i).toNat)
    (fun i => (Tab.get 0 d.mtkey i).isLt) 8
  refine BitVec.eq_of_toNat_eq ?_
  have h := hdigit i hi
  rw [← Nat.pow_mul] at h
  simp only [← Nat.pow_mul] at h hlt
  rw [show 64 * 8 = 512 from rfl] at hlt
  rw [BitVec.extractLsb'_toNat, Die.stagedKey, BitVec.toNat_ofNat, Nat.mod_eq_of_lt hlt, Nat.shiftRight_eq_div_pow, h]

/-! ### The commands of the translation block (R52-R54, R65, R66) -/

theorem State.clearStage_dieOnly {s t : State} {di : Nat} {e : Die} (h : DieOnly s t di e) :
    DieOnly s (t.clearStage di) di { e with mtkey := [] } := h.modDie _

/-- A die after the rejection of a command: its staging keys are gone, and the first rejection is kept. -/
def Die.rejects (d : Die) (cmd ctx : Nat) : Die :=
  if d.mtErr then { d with mtkey := [] }
  else { d with mtErr := true, mtEcmd := BitVec.ofNat 4 cmd, mtEctx := BitVec.ofNat 10 ctx, mtkey := [] }

theorem Die.rejects_mtkey (d : Die) (cmd ctx : Nat) : (d.rejects cmd ctx).mtkey = [] := by
  unfold Die.rejects
  split <;> rfl

theorem Die.rejects_keys (d : Die) (cmd ctx : Nat) : (d.rejects cmd ctx).keys = d.keys := by
  unfold Die.rejects
  split <;> rfl

theorem Die.rejects_mtErr (d : Die) (cmd ctx : Nat) : (d.rejects cmd ctx).mtErr = true := by
  unfold Die.rejects
  split
  · next h => exact h
  · rfl

theorem Die.rejects_eq (d : Die) (cmd ctx : Nat) :
    { (if d.mtErr then d else { d with mtErr := true, mtEcmd := BitVec.ofNat 4 cmd, mtEctx := BitVec.ofNat 10 ctx }) with mtkey := [] }
      = d.rejects cmd ctx := by
  unfold Die.rejects
  split <;> rfl

theorem State.mtReject_dieOnly (s : State) (di cmd ctx : Nat) :
    DieOnly s ((s.mtReject di cmd ctx).clearStage di) di ((s.die di).rejects cmd ctx) := by
  rw [← Die.rejects_eq]
  exact State.clearStage_dieOnly (s.modDie_dieOnly di _)

theorem State.residentAt_own (s : State) {die : Nat} (hd : die < 4) (ctx : Nat) :
    s.residentAt (4 * s.node.toNat + die) ctx = true ↔ ∃ p ∈ s.units, p.2.ctx = ctx ∧ p.2.ended = false ∧ p.2.away = false := by
  have hdiv : (4 * s.node.toNat + die) / 4 = s.node.toNat := by omega
  simp only [State.residentAt, hdiv, beq_self_eq_true, if_true, State.ctxResident, List.any_eq_true, Bool.and_eq_true, beq_iff_eq,
    Bool.not_eq_true', and_assoc]

theorem physKey_die (di tier pa : Nat) (h : tier < 4) : physKey di tier pa / 2 ^ 50 = di := by
  unfold physKey
  omega

/-- The memory of a peer's die is always ready: its readiness is no part of the state (log 6). -/
theorem State.memReady_peer (s : State) {key : Nat} (h : key / 2 ^ 50 / 4 ≠ s.node.toNat) : s.memReady key = true := by
  simp only [State.memReady, bne_iff_ne.mpr h, if_true]

section
variable {s : State} {die ctx : Nat}

theorem execKeyset_eq (hc : ctx < 1024) (hr : s.keyReady (s.dieAt die) ctx = true) :
    execKeyset die ctx s = .next ((s.keyset (s.dieAt die) ctx).clearStage (s.dieAt die)) := by
  rw [execKeyset, Nat.mod_eq_of_lt hc, hr]
  rfl

theorem execKeyclr_eq (hc : ctx < 1024) (hr : s.keyReady (s.dieAt die) ctx = true) :
    execKeyclr die ctx s = .next ((s.keyclr (s.dieAt die) ctx).clearStage (s.dieAt die)) := by
  rw [execKeyclr, Nat.mod_eq_of_lt hc, hr]
  rfl

theorem execKeyset_waits (hc : ctx < 1024) (hr : s.keyReady (s.dieAt die) ctx = false) : execKeyset die ctx s = .next s := by
  rw [execKeyset, Nat.mod_eq_of_lt hc, hr]
  rfl

theorem execKeyclr_waits (hc : ctx < 1024) (hr : s.keyReady (s.dieAt die) ctx = false) : execKeyclr die ctx s = .next s := by
  rw [execKeyclr, Nat.mod_eq_of_lt hc, hr]
  rfl

end

section
variable {s : State} {di ctx : Nat}

theorem State.keyset_resident (h : s.residentAt di ctx = true) : s.keyset di ctx = s.mtReject di 3 ctx := by
  rw [State.keyset, if_pos h]

theorem State.keyclr_resident (h : s.residentAt di ctx = true) : s.keyclr di ctx = s.mtReject di 4 ctx := by
  rw [State.keyclr, if_pos h]

theorem State.setKeyBit_clearStage_die (on : Bool) (t : State) (j : Nat) :
    ((t.setKeyBit di ctx on).clearStage di).die j = if j = di then { t.die di with mtkey := [] } else t.die j := by
  rw [State.clearStage, State.modDie, State.die_setDie, State.setKeyBit_die, State.setKeyBit_die]
  grind

/-- KEYSET of a context with no resident unit loads the key and sets KEY. -/
theorem State.keyset_die (h : s.residentAt di ctx = false) (j : Nat) : ((s.keyset di ctx).clearStage di).die j =
    if j = di then { s.die di with mtkey := [], keys := Tab.put (s.die di).keys ctx (s.keyAt di) } else s.die j := by
  rw [State.keyset, h, if_neg Bool.false_ne_true, State.setKeyBit_clearStage_die, State.modDie, State.die_setDie, State.die_setDie]
  grind

theorem State.keyclr_die (h : s.residentAt di ctx = false) (j : Nat) : ((s.keyclr di ctx).clearStage di).die j =
    if j = di then { s.die di with mtkey := [] } else s.die j := by
  rw [State.keyclr, h, if_neg Bool.false_ne_true, State.setKeyBit_clearStage_die]

theorem State.keyset_getLsbD (h : s.residentAt di ctx = false) (i : Nat) :
    (((s.keyset di ctx).clearStage di).raw64 (s.ctxEntryKey di ctx)).getLsbD i =
      if i = 1 then true else (s.raw64 (s.ctxEntryKey di ctx)).getLsbD i := by
  have hk : (s.modDie di fun d => { d with keys := Tab.put d.keys ctx (s.keyAt di) }).ctxEntryKey di ctx = s.ctxEntryKey di ctx := by
    simp [State.ctxEntryKey, State.modDie, State.die_setDie]
  have hset := State.setKeyBit_getLsbD (s := s.modDie di fun d => { d with keys := Tab.put d.keys ctx (s.keyAt di) }) (di := di)
    (ctx := ctx) (on := true) i
  rw [hk] at hset
  rw [State.keyset, h, if_neg Bool.false_ne_true]
  exact hset

theorem State.keyclr_getLsbD (h : s.residentAt di ctx = false) (i : Nat) :
    (((s.keyclr di ctx).clearStage di).raw64 (s.ctxEntryKey di ctx)).getLsbD i =
      if i = 1 then false else (s.raw64 (s.ctxEntryKey di ctx)).getLsbD i := by
  rw [State.keyclr, h, if_neg Bool.false_ne_true]
  exact State.setKeyBit_getLsbD i

theorem State.keyclr_read_out (h : s.residentAt di ctx = false) {k : Nat}
    (hk : k < s.ctxEntryKey di ctx ∨ s.ctxEntryKey di ctx + 8 ≤ k) :
    ((s.keyclr di ctx).clearStage di).mem.read k = s.mem.read k := by
  rw [State.keyclr, h, if_neg Bool.false_ne_true]
  exact State.setKeyBit_read_out hk

end
end Sys2Proof.Machine
end

section
namespace Sys2Proof.Machine
open Sys2Proof.Safety

/-! ### Heat and hints leave the core (R76, R94, R106) -/

section
variable {s : State} {core ctx : Nat} {va : DWord}

theorem State.keyedFor_iff : s.keyedFor (dieOfCore core) ctx va = true ↔
    nodeOf va = s.node.toNat ∨ s.keyOn (4 * s.node.toNat + core / 64 % 4) ctx = true := by
  simp [State.keyedFor, State.ownDie, dieOfCore]

theorem State.coreCheck_isSome_iff : (s.coreCheck core ctx va).isSome = true ↔
    s.populated (nodeOf va) = false ∨ ¬ s.keyedFor (dieOfCore core) ctx va = true := by
  unfold State.coreCheck
  cases s.populated (nodeOf va)
  · simp
  · cases s.keyedFor (dieOfCore core) ctx va <;> simp

end

section
variable {s : State} {r a : BitVec 6} {tier : BitVec 2} {region : Bool}

/-- The entry of an MHINT: no split counts it. -/
def State.hintEnt (s : State) (a : BitVec 6) (tier : BitVec 2) : Entry :=
  { s.newEnt .hint 0 (lineOf (noPath (s.curSplit.spair a.toNat))) [⟨0, s.curSplit.spair a.toNat, 4, []⟩] with
    owners := [], fn := tier.toNat }

/-- The entry of a HEATR. -/
def State.heatEnt (s : State) (r a : BitVec 6) (region : Bool) : Entry :=
  { s.newEnt .heatr (pathOf (s.curSplit.spair a.toNat)) (lineOf (s.curSplit.spair a.toNat)) [⟨0, s.curSplit.spair a.toNat, 4, []⟩] with
    sdst := some r.toNat, fn := b2n region }

theorem execMhint_bad (h : a.toNat % 2 = 1 ∨ tier = 3) : execMhint a tier s = .next (s.scalarTrap .illegalOperand) := by
  refine scalarWord_bad ?_
  obtain h | h := h
  · simp [(pairOk_eq_false_iff a).mpr h]
  · simp [h]

theorem execHeatr_bad (h : a.toNat % 2 = 1) : execHeatr r a region s = .next (s.scalarTrap .illegalOperand) :=
  scalarWord_bad ((pairOk_eq_false_iff a).mpr h)

section
variable (ha : a.toNat % 2 = 0) (hl : Landed s [a.toNat, a.toNat + 1])
include ha hl

/-- MHINT of a legal pair that has landed: the hint leaves, or the core drops it. -/
theorem execMhint_landed (ht : tier ≠ 3) : execMhint a tier s =
    if (s.coreCheck s.cur.core s.curGroup.ctx (s.curSplit.spair a.toNat)).isSome then .next s.advance
    else .next (s.enter (s.hintEnt a tier)).advance := by
  rw [execMhint, scalarWord_go (reads := pairReads a) (by rw [(pairOk_iff a).mpr ha, bne_iff_ne.mpr ht]; rfl) hl]
  rfl

/-- HEATR of a legal pair that has landed: it faults, or reads 0 at the core, or leaves. -/
theorem execHeatr_landed : execHeatr r a region s =
    if !translated (pathOf (s.curSplit.spair a.toNat)) || !s.populated (nodeOf (s.curSplit.spair a.toNat)) then
      .next (s.scalarFault ⟨.path, .none, s.curSplit.spair a.toNat⟩)
    else if !s.keyedFor (dieOfCore s.cur.core) s.curGroup.ctx (s.curSplit.spair a.toNat) then s.finish fun sp => sp.setS r.toNat 0
    else .next (s.enter (s.heatEnt r a region)).advance := by
  rw [execHeatr, scalarWord_go (reads := pairReads a) ((pairOk_iff a).mpr ha) hl]
  rfl

theorem execMhint_dropped (ht : tier ≠ 3)
    (h : s.populated (nodeOf (s.curSplit.spair a.toNat)) = false
      ∨ ¬ s.keyedFor (dieOfCore s.cur.core) s.curGroup.ctx (s.curSplit.spair a.toNat) = true) :
    ∃ t, execMhint a tier s = .next t ∧ ScalarFrame s t [] [] ∧ FallsThrough s t ∧ t.curSplit.flag = s.curSplit.flag := by
  rw [execMhint_landed ha hl ht, if_pos (State.coreCheck_isSome_iff.mpr h)]
  exact ⟨_, rfl, State.advance_falls s⟩

theorem execMhint_enters (ht : tier ≠ 3) (hp : s.populated (nodeOf (s.curSplit.spair a.toNat)) = true)
    (hk : s.keyedFor (dieOfCore s.cur.core) s.curGroup.ctx (s.curSplit.spair a.toNat) = true) :
    execMhint a tier s = .next (s.enter (s.hintEnt a tier)).advance := by
  rw [execMhint_landed ha hl ht, if_neg]
  rw [State.coreCheck_isSome_iff, hp, hk]
  simp

end
end

/-! ### Heat decays (R72) -/

theorem Die.dueDecays_eq_zero_iff (d : Die) (frame : Word) :
    d.dueDecays frame = 0 ↔ ¬ (d.txdecay ≠ 0 ∧ d.txdecay.toNat ≤ (frame - d.lastDecay).toNat) := by
  by_cases h : d.txdecay = 0
  · simp [Die.dueDecays, h]
  · have hpos : d.txdecay.toNat ≠ 0 := fun h0 => h (BitVec.eq_of_toNat_eq h0)
    rw [Die.dueDecays, beq_eq_false_iff_ne.mpr h, if_neg Bool.false_ne_true, Nat.div_eq_zero_iff, or_iff_right hpos, not_and,
      Nat.not_le]
    exact ⟨fun hlt _ => hlt, fun hlt => hlt h⟩

theorem execHeatDecay_waits {s : State} {die : Nat} (h : (s.die (s.ownDie die)).dueDecays s.chframe = 0) :
    execHeatDecay die s = .next s := by
  simp [execHeatDecay, h, hold]

theorem execHeatDecay_eq {s : State} {die : Nat} (h : (s.die (s.ownDie die)).dueDecays s.chframe ≠ 0) :
    execHeatDecay die s = .next (s.setDie (s.ownDie die) ((s.die (s.ownDie die)).decay s.chframe)) := by
  simp [execHeatDecay, h]

/-- The halving of a die's counters, where the interval is not 0. -/
theorem Die.decay_eq {d : Die} {frame : Word} (h : d.txdecay ≠ 0) : d.decay frame =
    { d with heat := d.heat.map fun e => { e with count := e.count / 2 ^ ((frame - d.lastDecay).toNat / d.txdecay.toNat) },
             lastDecay := d.lastDecay + BitVec.ofNat 32 ((frame - d.lastDecay).toNat / d.txdecay.toNat) * d.txdecay } := by
  have hk : d.dueDecays frame = (frame - d.lastDecay).toNat / d.txdecay.toNat := by
    rw [Die.dueDecays, beq_eq_false_iff_ne.mpr h, if_neg Bool.false_ne_true]
  simp only [Die.decay, hk]

/-! ### The oldest TLBSYNC of a die (R51, R54) -/

section
variable {s : State} {die : Nat}

theorem execTlbsyncComplete_empty (h : (s.die (s.ownDie die)).syncs = []) : execTlbsyncComplete die s = .next s := by
  simp [execTlbsyncComplete, h, hold]

theorem execTlbsyncComplete_waits {y : Sync} {rest : List Sync} (h : (s.die (s.ownDie die)).syncs = y :: rest)
    (ht : s.translating (s.ownDie die) y = true) : execTlbsyncComplete die s = .next s := by
  simp [execTlbsyncComplete, h, ht, hold]

/-- A driver's TLBSYNC that completes is acknowledged, and the cached entries of its context that are older than it are gone. -/
theorem execTlbsyncComplete_eq {y : Sync} {rest : List Sync} (h : (s.die (s.ownDie die)).syncs = y :: rest)
    (ht : s.translating (s.ownDie die) y = false) (hy : y.tid = none) : execTlbsyncComplete die s =
      .next ((s.modDie (s.ownDie die) fun d => { d with
        syncs := rest, tlb := d.tlb.filter fun t => !((y.all || t.ctx == y.ctx) && y.old.contains t) }).modDie (s.ownDie die)
          fun d => { d with mtack := y.seq }) := by
  simp [execTlbsyncComplete, h, ht, hy, State.syncReady]

end
end Sys2Proof.Machine
end

section
namespace Sys2Proof.Machine
open Sys2Proof.Safety

/-! ### The hints that wait at a die bear on no translation (R46-R51, R76) -/

/-- `t` is `s` but for hints that wait at the dies. -/
def SameButHints (s t : State) : Prop :=
  t = { s with dies := t.dies } ∧ ∀ j, t.die j = { s.die j with hints := (t.die j).hints }

namespace SameButHints
variable {s t : State} (h : SameButHints s t)
include h

theorem mem : t.mem = s.mem := by rw [h.1]
theorem tick : t.tick = s.tick := by rw [h.1]
theorem node : t.node = s.node := by rw [h.1]
theorem domain : t.domain = s.domain := by rw [h.1]
theorem tlb (j : Nat) : (t.die j).tlb = (s.die j).tlb := by rw [h.2 j]
theorem recs (j : Nat) : (t.die j).recs = (s.die j).recs := by rw [h.2 j]
theorem cxrng (j : Nat) : (t.die j).cxrng = (s.die j).cxrng := by rw [h.2 j]
theorem mtctx (j : Nat) : (t.die j).mtctx = (s.die j).mtctx := by rw [h.2 j]
theorem txptab (j : Nat) : (t.die j).txptab = (s.die j).txptab := by rw [h.2 j]

theorem raw64 (key : Nat) : t.raw64 key = s.raw64 key := by rw [State.raw64, h.mem, State.raw64]

/-- A change that neither reads nor writes the hints keeps the likeness. -/
theorem modDie (di : Nat) {f : Die → Die} (hf : ∀ d hs, f { d with hints := hs } = { f d with hints := hs }) :
    SameButHints (s.modDie di f) (t.modDie di f) := by
  refine ⟨by rw [State.modDie, State.setDie, State.modDie, State.setDie, h.1], fun j => ?_⟩
  rw [State.modDie, State.modDie, State.die_setDie, State.die_setDie]
  split
  · next hj =>
    have hd := h.2 di
    generalize (t.die di).hints = hs at hd
    rw [hd, hf]
  · exact h.2 j

theorem expander (di pa n : Nat) : t.expander di pa n = s.expander di pa n := by
  rw [State.expander, h.cxrng, State.expander]

theorem badLeaf (di ctx : Nat) (va : DWord) (lv : Level) (l : Leaf) : t.badLeaf di ctx va lv l = s.badLeaf di ctx va lv l := by
  simp only [State.badLeaf, State.populated, h.recs, h.expander, h.node, h.domain]

theorem ctxEntry (di ctx : Nat) : t.ctxEntry di ctx = s.ctxEntry di ctx := by
  have hkey : t.ctxEntryKey di ctx = s.ctxEntryKey di ctx := by rw [State.ctxEntryKey, h.mtctx, State.ctxEntryKey]
  unfold State.ctxEntry State.ctxWord
  dsimp only
  rw [hkey, h.raw64, h.raw64]

theorem entryAt (di ctx lv idx key : Nat) :
    (t.entryAt di ctx lv idx key).1 = (s.entryAt di ctx lv idx key).1
      ∧ SameButHints (s.entryAt di ctx lv idx key).2 (t.entryAt di ctx lv idx key).2 := by
  unfold State.entryAt
  dsimp only
  rw [h.tlb, h.raw64, h.tick]
  generalize List.filter _ (List.map _ _) = olds
  split
  all_goals
    dsimp only
    exact ⟨rfl, h.modDie di fun _ _ => rfl⟩

theorem walkFrom_fst (di ctx : Nat) (va : DWord) (ls : List Level) (tbl : Nat) :
    (walkFrom di ctx va ls tbl t).1 = (walkFrom di ctx va ls tbl s).1 := by
  induction ls generalizing tbl s t with
  | nil => rfl
  | cons lv ls ih =>
    obtain ⟨hentry, hstate⟩ := h.entryAt di ctx lv.n (localOf va / 2 ^ lv.lo)
      (physKey di 0 (tbl + 8 * (localOf va / 2 ^ lv.lo % 2 ^ lv.w)))
    unfold walkFrom
    dsimp only
    rw [hentry, hstate.badLeaf]
    split_ifs
    · rfl
    · rfl
    · rfl
    · rfl
    · exact ih hstate _

theorem leafNow (ctx : Nat) (va : DWord) : t.leafNow ctx va = s.leafNow ctx va := by
  have hwalk : t.walkNow ctx va = s.walkNow ctx va := by
    have k := h.modDie (ownerOf va) (f := fun d => { d with tlb := [] }) fun _ _ => rfl
    unfold State.walkNow State.walk
    dsimp only
    rw [k.ctxEntry]
    split
    · rfl
    · exact k.walkFrom_fst _ _ _ _ _
  rw [State.leafNow, hwalk, State.leafNow]

end SameButHints

/-- The hint that leaves its die's queue. -/
theorem State.setDie_hints (s : State) (di : Nat) (rest : List Hint) :
    SameButHints s (s.setDie di { s.die di with hints := rest }) := by
  refine ⟨rfl, fun j => ?_⟩
  rw [State.die_setDie]
  split
  · next hj => rw [hj]
  · rfl

/-! ### Frame pools (R78) -/

theorem takeFrame_mem {s t : State} (h : t.mem = s.mem) (base n di tail align k head : Nat) :
    takeFrame t di base n tail align k head = takeFrame s di base n tail align k head := by
  have hraw : ∀ key, t.raw64 key = s.raw64 key := fun key => by rw [State.raw64, h, State.raw64]
  induction k generalizing head with
  | zero => rfl
  | succ k ih =>
    unfold takeFrame
    dsimp only
    rw [hraw, ih]

theorem State.poolTake_dies (s : State) (di tier size : Nat) : (s.poolTake di tier size).2.dies = s.dies := by
  unfold State.poolTake
  dsimp only
  split
  · rfl
  · dsimp only
    split
    · rfl
    · exact s.unitWrite_dies _ _

theorem SameButHints.poolTake_fst {s t : State} (h : SameButHints s t) (di tier size : Nat) :
    (t.poolTake di tier size).1 = (s.poolTake di tier size).1 := by
  unfold State.poolTake
  dsimp only
  rw [State.poolKey, h.txptab, h.raw64, h.raw64, ← State.poolKey, takeFrame_mem h.mem]
  split <;> rfl

/-! ### A hint that becomes a move (R74-R79) -/

theorem Tab.find?_put {α : Type} (t : Tab α) (k : Nat) (v : α) : (Tab.put t k v).find? (fun p => p.1 == k) = some (k, v) := by
  induction t with
  | nil => simp [Tab.put]
  | cons p t ih =>
    obtain ⟨j, u⟩ := p
    unfold Tab.put
    split
    · simp
    · next hj =>
      split
      · simp
      · rw [List.find?_cons_of_neg (by simpa using hj), ih]

theorem State.moveCode_congr {s t : State} {di : Nat} (h : (t.die di).cxrng = (s.die di).cxrng) (o : Order) (l : Option Leaf) :
    t.moveCode di o l = s.moveCode di o l := by
  have hbad : t.badTier di o = s.badTier di o := by
    rw [State.badTier, State.expander, h]
    rfl
  unfold State.moveCode
  rw [hbad]

/-- What an order that is accepted leaves at its die: a record of the move, and the hints as they were (R79). -/
theorem State.startMove_die (s : State) (di tid slot : Nat) (hinted : Bool) (o : Order) (l : Leaf) :
    ((s.startMove di tid slot hinted o l).die di).hints = (s.die di).hints
      ∧ ∃ r, (s.startMove di tid slot hinted o l).rec_ di tid = some r ∧ r.hinted = hinted ∧ r.va = o.va ∧ r.ctx = o.ctx
        ∧ r.dstTier = o.tier ∧ r.dstFrame = o.frame ∧ r.srcTier = l.tier ∧ r.srcFrame = l.frame ∧ r.cursor = 0
        ∧ r.state = .copying ∧ r.order = o.tag := by
  have hdie : (s.writeLeaf l l.frame l.tier 1 tid).die di = s.die di := s.unitWrite_die _ _ _
  refine ⟨?_, ⟨.copying, o.va, o.ctx, l.size, l.tier, l.frame, o.tier, o.frame, 0, o.tag, hinted, slot, none, 0, true,
    (s.die di).moveAge⟩, ?_, rfl, rfl, rfl, rfl, rfl, rfl, rfl, rfl, rfl, rfl⟩
  · simp [State.startMove, State.recSync, State.modDie, State.die_setDie, hdie]
  · simp [State.startMove, State.recSync, State.rec_, State.modDie, State.die_setDie, hdie, Tab.find?_put]

/-! ### HINT (R76) -/

/-- What becomes of a hint that has left its queue, by the leaf of its page: it is dropped, or made a move order. -/
def State.hintFate (t : State) (di tid : Nat) (h : Hint) : Option Leaf → State
  | none => t.dropHint di
  | some l =>
    match sizeCode l.lo with
    | some size => if l.state != 0 || l.tier == h.tier then t.dropHint di else t.hintOrder di tid h l size
    | none => t.dropHint di

section
variable {s : State} {die tid : Nat} {h : Hint} {rest : List Hint}

/-- TXPOL allows the hint, its address is one that is translated, a lease covers it, and the hint log has room. -/
def State.hintOk (s : State) (di : Nat) (h : Hint) : Bool :=
  (s.die di).hintAllowed h && translated (pathOf h.addr) && s.anyLease h.launch h.addr && (s.die di).logRoom

theorem State.hintOk_iff (s : State) (di : Nat) (h : Hint) : s.hintOk di h = true ↔
    (s.die di).hintAllowed h = true ∧ translated (pathOf h.addr) = true ∧ s.anyLease h.launch h.addr = true
      ∧ (s.die di).logRoom = true := by
  simp only [State.hintOk, Bool.and_eq_true, and_assoc]

theorem execHint_idle (hw : (s.die (s.ownDie die)).hints = [] ∨ (s.die (s.ownDie die)).freeRec = none
    ∨ (s.die (s.ownDie die)).txReady = false) : execHint die s = .next s := by
  unfold execHint
  dsimp only
  split
  · next hh hf =>
    obtain hw | hw | hw := hw
    · rw [hh] at hw
      cases hw
    · rw [hf] at hw
      cases hw
    · rw [hw]
      rfl
  · rfl

section
variable {di : Nat} (hdi : s.ownDie die = di) (hh : (s.die di).hints = h :: rest) (hf : (s.die di).freeRec = some tid)
  (hr : (s.die di).txReady = true)
include hdi hh hf hr

theorem execHint_waits (hok : s.hintOk di h = true) (hready : s.hintReady di h = false) :
    execHint die s = .next s := by
  subst hdi
  have hok' := hok
  unfold State.hintOk at hok'
  unfold execHint
  simp only [hh, hf, hr, hok', hready]
  rfl

/-- The hint leaves the queue, and its page's leaf decides. -/
theorem execHint_eq (hgo : s.hintOk di h = false ∨ s.hintReady di h = true) : execHint die s =
    .next ((s.setDie di { s.die di with hints := rest }).hintFate di tid h
      (if s.hintOk di h then s.leafNow h.ctx (noPath h.addr) else none)) := by
  subst hdi
  have hfree : ¬ (!(s.die (s.ownDie die)).txReady || (s.hintOk (s.ownDie die) h && !s.hintReady (s.ownDie die) h)) = true := by
    rw [hr]
    obtain hgo | hgo := hgo <;> simp [hgo]
  unfold State.hintOk at hfree ⊢
  unfold execHint
  dsimp only
  rw [hh, hf]
  dsimp only
  rw [(s.setDie_hints (s.ownDie die) rest).leafNow, if_neg hfree]
  split
  · next hleaf =>
    rw [hleaf]
    rfl
  · next l hleaf =>
    rw [hleaf]
    dsimp only [State.hintFate]
    cases sizeCode l.lo with
    | none => rfl
    | some size => exact (apply_ite _ _ _ _).symm

end
end

section
variable {t : State} {di tid : Nat} {h : Hint} {l : Leaf} {size : Nat}

theorem sizeCode_eq_none_iff {lo : Nat} : sizeCode lo = none ↔ lo ∉ [12, 16, 21] := by
  unfold sizeCode
  split_ifs <;> simp_all

theorem sizeCode_eq_some {lo : Nat} (hm : (lo, size) ∈ [(12, 0), (16, 1), (21, 2)]) : sizeCode lo = some size := by
  simp only [List.mem_cons, Prod.mk.injEq, List.not_mem_nil, or_false] at hm
  obtain ⟨rfl, rfl⟩ | ⟨rfl, rfl⟩ | ⟨rfl, rfl⟩ := hm <;> rfl

theorem State.hintFate_drops (hl : l.state ≠ 0 ∨ l.tier = h.tier ∨ l.lo ∉ [12, 16, 21]) :
    t.hintFate di tid h (some l) = t.dropHint di := by
  dsimp only [State.hintFate]
  cases hsize : sizeCode l.lo with
  | none => rfl
  | some k =>
    have hlo : l.lo ∈ [12, 16, 21] := by
      by_contra hlo
      rw [sizeCode_eq_none_iff.mpr hlo] at hsize
      cases hsize
    exact if_pos (by simpa [hlo] using hl)

theorem State.hintFate_moves (hstate : l.state = 0) (htier : l.tier ≠ h.tier) (hsize : (l.lo, size) ∈ [(12, 0), (16, 1), (21, 2)]) :
    t.hintFate di tid h (some l) = t.hintOrder di tid h l size := by
  dsimp only [State.hintFate]
  rw [sizeCode_eq_some hsize]
  exact if_neg (by simp [hstate, htier])

/-- A hint whose pool has a frame, and whose order R74 accepts, starts a move. -/
theorem State.hintOrder_starts {f : Nat} (hf : (t.poolTake di h.tier size).1 = some f)
    (hcode : t.moveCode di ⟨BitVec.ofNat 64 (pageOf h.addr l.lo), f, h.ctx, h.tier, size, 0, 0xFFFF, false⟩ (some l) = 1) :
    t.hintOrder di tid h l size = (t.poolTake di h.tier size).2.startMove di tid 0 true
      ⟨BitVec.ofNat 64 (pageOf h.addr l.lo), f, h.ctx, h.tier, size, 0, 0xFFFF, false⟩ l := by
  have hdies := t.poolTake_dies di h.tier size
  unfold State.hintOrder
  generalize t.poolTake di h.tier size = r at hf hdies
  obtain ⟨g, u⟩ := r
  obtain rfl : g = some f := hf
  have hu : u.die di = t.die di := by rw [State.die, hdies, State.die]
  dsimp only
  rw [State.moveCode_congr (s := t) (t := u) (by rw [hu]), hcode]
  rfl

end

theorem State.dropHint_dieOnly {s t : State} {di : Nat} {e : Die} (h : DieOnly s t di e) :
    DieOnly s (t.dropHint di) di { e with txDrops := min 255 (e.txDrops + 1) } := h.modDie _

end Sys2Proof.Machine
end

section
namespace Sys2Proof.Machine
open Sys2Proof.Safety

/-! ### The commands by their dies (R52-R54, R65, R66) -/

section
variable {s : State} {die ctx : Nat}

theorem execTlbsync_dieOnly (hd : die < 4) (hc : ctx < 1024) (all : Bool) : ∃ t, execTlbsync die ctx all s = .next t
    ∧ DieOnly s t (4 * s.node.toNat + die) { s.die (4 * s.node.toNat + die) with
        mtseq := (s.die (4 * s.node.toNat + die)).mtseq + 1
        syncs := (s.die (4 * s.node.toNat + die)).syncs
          ++ [⟨(s.die (4 * s.node.toNat + die)).mtseq + 1, ctx, all, none, (s.die (4 * s.node.toNat + die)).tlb⟩]
        mtkey := [] } := by
  rw [execTlbsync, s.ownDie_eq hd, Nat.mod_eq_of_lt hc]
  exact ⟨_, rfl, State.clearStage_dieOnly (s.modDie_dieOnly _ _)⟩

/-- A command of the own die that a resident unit has rejected. -/
theorem execKeyset_rejected (hd : die < 4) (hc : ctx < 1024) (hr : s.residentAt (4 * s.node.toNat + die) ctx = true) :
    ∃ t, execKeyset die ctx s = .next t
      ∧ DieOnly s t (4 * s.node.toNat + die) ((s.die (4 * s.node.toNat + die)).rejects 3 ctx) := by
  rw [execKeyset_eq hc (by rw [State.keyReady, s.dieAt_own hd, hr, Bool.true_or]), s.dieAt_own hd, State.keyset_resident hr]
  exact ⟨_, rfl, s.mtReject_dieOnly _ _ _⟩

theorem execKeyclr_rejected (hd : die < 4) (hc : ctx < 1024) (hr : s.residentAt (4 * s.node.toNat + die) ctx = true) :
    ∃ t, execKeyclr die ctx s = .next t
      ∧ DieOnly s t (4 * s.node.toNat + die) ((s.die (4 * s.node.toNat + die)).rejects 4 ctx) := by
  rw [execKeyclr_eq hc (by rw [State.keyReady, s.dieAt_own hd, hr, Bool.true_or]), s.dieAt_own hd, State.keyclr_resident hr]
  exact ⟨_, rfl, s.mtReject_dieOnly _ _ _⟩

/-- What a peer's driver leaves of a command for its own die `pj`: the command's rejection, or KEY `on` (log 6). -/
def PeerOutcome (s t : State) (pj ctx : Nat) (on : Bool) : Prop :=
  (∀ j, j ≠ pj → t.die j = s.die j) ∧ (t.die pj).mtkey = []
    ∧ (∀ c, c ≠ ctx → Tab.get 0 (t.die pj).keys c = Tab.get 0 (s.die pj).keys c)
    ∧ (t.mem = s.mem ∧ (t.die pj).keys = (s.die pj).keys ∧ (t.die pj).mtErr = true
      ∨ (t.raw64 (s.ctxEntryKey pj ctx)).getLsbD 1 = on ∧ (t.die pj).mtErr = (s.die pj).mtErr)

theorem State.mtReject_peerOutcome (s : State) (pj cmd ctx : Nat) (on : Bool) :
    PeerOutcome s ((s.mtReject pj cmd ctx).clearStage pj) pj ctx on := by
  obtain ⟨hrest, hdie, hothers⟩ := s.mtReject_dieOnly pj cmd ctx
  refine ⟨hothers, ?_, fun c _ => ?_, .inl ⟨by rw [hrest], ?_, ?_⟩⟩
  · rw [hdie, Die.rejects_mtkey]
  · rw [hdie, Die.rejects_keys]
  · rw [hdie, Die.rejects_keys]
  · rw [hdie, Die.rejects_mtErr]

theorem State.keyset_peerOutcome (s : State) (pj ctx : Nat) : PeerOutcome s ((s.keyset pj ctx).clearStage pj) pj ctx true := by
  cases hr : s.residentAt pj ctx with
  | true =>
    rw [State.keyset_resident hr]
    exact s.mtReject_peerOutcome pj 3 ctx true
  | false =>
    have hdie := State.keyset_die hr pj
    rw [if_pos rfl] at hdie
    refine ⟨fun j hj => by rw [State.keyset_die hr j, if_neg hj], by rw [hdie], fun c hne => ?_,
      .inr ⟨State.keyset_getLsbD hr 1, by rw [hdie]⟩⟩
    rw [hdie]
    exact Tab.get_put_ne _ _ _ (Ne.symm hne)

theorem State.keyclr_peerOutcome (s : State) (pj ctx : Nat) : PeerOutcome s ((s.keyclr pj ctx).clearStage pj) pj ctx false
    ∧ (((s.keyclr pj ctx).clearStage pj).die pj).keys = (s.die pj).keys := by
  cases hr : s.residentAt pj ctx with
  | true =>
    rw [State.keyclr_resident hr]
    exact ⟨s.mtReject_peerOutcome pj 4 ctx false, by rw [(s.mtReject_dieOnly pj 4 ctx).2.1, Die.rejects_keys]⟩
  | false =>
    have hdie := State.keyclr_die hr pj
    rw [if_pos rfl] at hdie
    exact ⟨⟨fun j hj => by rw [State.keyclr_die hr j, if_neg hj], by rw [hdie], fun c _ => by rw [hdie],
      .inr ⟨State.keyclr_getLsbD hr 1, by rw [hdie]⟩⟩, by rw [hdie]⟩

/-- A command for a peer's die does not wait. -/
theorem State.keyReady_peer (s : State) {k : Nat} (hd : die < 4) (h0 : 0 < k) (hk : k < 512) :
    s.keyReady (4 * ((s.node.toNat + k) % 512) + die) ctx = true := by
  have hn := s.node_lt
  rw [State.keyReady, State.ctxEntryKey, State.memReady_peer, Bool.or_true]
  rw [physKey_die _ _ _ (by decide)]
  omega

end

/-! ### HINT by its outcome (R76) -/

section
variable {s : State} {die tid : Nat} {h : Hint} {rest : List Hint}

/-- The hint has left its die's queue, and TXSTAT counts it as dropped. -/
def HintDropped (s : State) (die di : Nat) (rest : List Hint) : Prop :=
  ∃ t, execHint die s = .next t ∧ DieOnly s t di { s.die di with hints := rest, txDrops := min 255 ((s.die di).txDrops + 1) }

variable {di : Nat} (hdi : s.ownDie die = di) (hh : (s.die di).hints = h :: rest) (hf : (s.die di).freeRec = some tid)
  (hr : (s.die di).txReady = true)
include hdi hh hf hr

/-- A hint whose fate is to be dropped. -/
theorem execHint_dropped (hgo : s.hintOk di h = false ∨ s.hintReady di h = true)
    (hfate : ∀ t : State, t.hintFate di tid h
      (if s.hintOk di h then s.leafNow h.ctx (noPath h.addr) else none) = t.dropHint di) :
    HintDropped s die di rest := by
  subst hdi
  refine ⟨_, execHint_eq rfl hh hf hr hgo, ?_⟩
  rw [hfate]
  exact State.dropHint_dieOnly (s.setDie_dieOnly _ _)

theorem execHint_refused (hok : s.hintOk di h = false) : HintDropped s die di rest :=
  execHint_dropped hdi hh hf hr (.inl hok) fun t => by rw [hok]; rfl

theorem execHint_unmapped (hready : s.hintReady di h = true) (hleaf : s.leafNow h.ctx (noPath h.addr) = none) :
    HintDropped s die di rest :=
  execHint_dropped hdi hh hf hr (.inr hready) fun t => by rw [hleaf, ite_self]; rfl

theorem execHint_unfit {l : Leaf} (hready : s.hintReady di h = true)
    (hleaf : s.leafNow h.ctx (noPath h.addr) = some l) (hl : l.state ≠ 0 ∨ l.tier = h.tier ∨ l.lo ∉ [12, 16, 21]) :
    HintDropped s die di rest := by
  refine execHint_dropped hdi hh hf hr (.inr hready) fun t => ?_
  rw [hleaf]
  split
  · exact State.hintFate_drops hl
  · rfl

/-- A hint that R74 accepts starts a move of its page into the frame that its pool gives. -/
theorem execHint_starts {l : Leaf} {f size : Nat} (hok : s.hintOk di h = true)
    (hready : s.hintReady di h = true) (hleaf : s.leafNow h.ctx (noPath h.addr) = some l) (hstate : l.state = 0)
    (htier : l.tier ≠ h.tier) (hsize : (l.lo, size) ∈ [(12, 0), (16, 1), (21, 2)])
    (hframe : (s.poolTake di h.tier size).1 = some f)
    (hcode : s.moveCode di
      ⟨BitVec.ofNat 64 (pageOf h.addr l.lo), f, h.ctx, h.tier, size, 0, 0xFFFF, false⟩ (some l) = 1) :
    ∃ t r, execHint die s = .next t ∧ t.rec_ di tid = some r ∧ (t.die di).hints = rest ∧ r.hinted = true
      ∧ r.va = BitVec.ofNat 64 (pageOf h.addr l.lo) ∧ r.ctx = h.ctx ∧ r.dstTier = h.tier ∧ r.dstFrame = f ∧ r.srcTier = l.tier
      ∧ r.srcFrame = l.frame ∧ r.cursor = 0 ∧ r.state = .copying ∧ r.order = 0xFFFF := by
  subst hdi
  have hsame := s.setDie_hints (s.ownDie die) rest
  have hdie : (s.setDie (s.ownDie die) { s.die (s.ownDie die) with hints := rest }).die (s.ownDie die) = _ :=
    (s.setDie_dieOnly _ _).2.1
  have hgo := execHint_eq rfl hh hf hr (.inr hready)
  rw [hok, if_pos rfl, hleaf, State.hintFate_moves hstate htier hsize,
    State.hintOrder_starts (by rw [hsame.poolTake_fst, hframe]) (by rw [State.moveCode_congr (hsame.cxrng _), hcode])] at hgo
  obtain ⟨hhints, r, hrec, hhinted, hva, hctx, hdt, hdf, hst, hsf, hcur, hcopy, htag⟩ := State.startMove_die
    ((s.setDie (s.ownDie die) { s.die (s.ownDie die) with hints := rest }).poolTake (s.ownDie die) h.tier size).2
    (s.ownDie die) tid 0 true ⟨BitVec.ofNat 64 (pageOf h.addr l.lo), f, h.ctx, h.tier, size, 0, 0xFFFF, false⟩ l
  refine ⟨_, r, hgo, hrec, ?_, hhinted, hva, hctx, hdt, hdf, hst, hsf, hcur, hcopy, htag⟩
  rw [hhints, State.die, State.poolTake_dies, ← State.die, hdie]

end

end Sys2Proof.Machine

namespace Sys2Proof.Proofs
open Sys2Proof.Machine Sys2Proof.Safety

/-- Settles O49: each command is taken to the one die that it changes, and a hint and a heat read to the entry that they leave. -/
theorem dieCommands : Obligations.DieCommands := by
  intro s die ctx hd hc di d only quiet resident rejected E
  have hdi : s.ownDie die = di := s.ownDie_eq hd
  have hat : s.dieAt die = di := s.dieAt_own hd
  have hres : s.residentAt di ctx = true ↔ resident := s.residentAt_own hd ctx
  have hnres : ¬resident → s.residentAt di ctx = false := fun h => Bool.eq_false_iff.mpr fun k => h (hres.mp k)
  have hready : ¬resident → s.keyReady di ctx = s.memReady E := fun h => by rw [State.keyReady, hnres h, Bool.false_or]; rfl
  refine ⟨fun all => ?sync, fun h => ?idle, fun y rest h ht => ?busy, fun y rest h ht hy => ?done, fun h => ?rejected,
    fun h hm => ?unready, fun h hm => ?keys, fun k h0 hk => ?peer, fun val => ?mtstat, ?decay, fun a r tier region => ?leave,
    fun h => ?noHint, fun h rest tid hh hf hr => ?hint⟩
  case sync => exact execTlbsync_dieOnly hd hc all
  case idle => exact execTlbsyncComplete_empty (by rw [hdi]; exact h)
  case busy => exact execTlbsyncComplete_waits (by rw [hdi]; exact h) (by rw [hdi]; exact ht)
  case done =>
    have hrun := execTlbsyncComplete_eq (s := s) (die := die) (by rw [hdi]; exact h) (by rw [hdi]; exact ht) hy
    rw [hdi] at hrun
    exact ⟨_, hrun, (s.modDie_dieOnly di _).modDie _⟩
  case rejected => exact ⟨execKeyset_rejected hd hc (hres.mpr h), execKeyclr_rejected hd hc (hres.mpr h)⟩
  case unready =>
    have hwait : s.keyReady (s.dieAt die) ctx = false := by rw [hat, hready h, hm]
    exact ⟨execKeyset_waits hc hwait, execKeyclr_waits hc hwait⟩
  case keys =>
    have hgo : s.keyReady (s.dieAt die) ctx = true := by rw [hat, hready h, hm]
    have hr := hnres h
    have hset := execKeyset_eq hc hgo
    have hclr := execKeyclr_eq hc hgo
    rw [hat] at hset hclr
    have hown : s.keyAt di = d.stagedKey := by
      rw [State.keyAt, if_pos (by simp only [beq_iff_eq]; omega)]
    refine ⟨⟨_, hset, ⟨?_, fun j hj => ?_⟩, fun i hi => ?_, fun c hne => ?_, ?_, fun i hi => ?_⟩,
      ⟨_, hclr, ⟨?_, fun j hj => ?_⟩, ?_, fun i hi => ?_, fun k hk => State.keyclr_read_out hr hk⟩⟩
    · rw [State.keyset_die hr, if_pos rfl]
    · rw [State.keyset_die hr, if_neg hj]
    · rw [State.keyset_die hr, if_pos rfl]
      dsimp only
      rw [Tab.get_put_same, hown]
      exact d.stagedKey_extract hi
    · rw [State.keyset_die hr, if_pos rfl]
      exact Tab.get_put_ne _ _ _ (Ne.symm hne)
    · exact State.keyset_getLsbD hr 1
    · exact (State.keyset_getLsbD hr i).trans (if_neg hi)
    · rw [State.keyclr_die hr, if_pos rfl]
    · rw [State.keyclr_die hr, if_neg hj]
    · exact State.keyclr_getLsbD hr 1
    · exact (State.keyclr_getLsbD hr i).trans (if_neg hi)
  case peer =>
    have hpeer := s.dieAt_eq k hd
    have hgo : s.keyReady (s.dieAt (4 * k + die)) ctx = true := by rw [hpeer]; exact s.keyReady_peer hd h0 hk
    have hset := execKeyset_eq hc hgo
    have hclr := execKeyclr_eq hc hgo
    rw [hpeer] at hset hclr
    exact ⟨⟨_, hset, s.keyset_peerOutcome _ _⟩, ⟨_, hclr, s.keyclr_peerOutcome _ _⟩⟩
  case mtstat =>
    have hbit : bitNat val.toNat 0 = val.getLsbD 0 := by rw [bitNat_eq_testBit, BitVec.testBit_toNat]
    refine ⟨fun h => ?_, fun h => ?_⟩
    · show Host.Outcome.next (s.mtStatWrite (s.ownDie die) val) = _
      rw [State.mtStatWrite, hbit, h]
      rfl
    · refine ⟨_, rfl, ?_⟩
      rw [State.mtStatWrite, hbit, h, if_pos rfl, hdi]
      exact s.modDie_dieOnly di _
  case decay =>
    have hdue := d.dueDecays_eq_zero_iff s.chframe
    refine ⟨fun h => execHeatDecay_waits (by rw [hdi]; exact hdue.mpr h), fun h => ?_⟩
    refine ⟨_, execHeatDecay_eq (by rw [hdi]; exact fun h0 => hdue.mp h0 h), ?_⟩
    rw [hdi, Die.decay_eq h.1]
    exact s.setDie_dieOnly di _
  case leave =>
    intro va keyed
    have hkeyed : s.keyedFor (dieOfCore s.cur.core) s.curGroup.ctx va = true ↔ keyed := State.keyedFor_iff
    refine ⟨execMhint_bad, execHeatr_bad, fun ha hl => ⟨fun ht hdrop => ?_, fun ht hp hk => ?_, fun hbad => ?_, fun hpath hp hk => ?_,
      fun hpath hp hk => ?_⟩⟩
    · exact execMhint_dropped ha hl ht (hdrop.imp_right fun hn k => hn (hkeyed.mp k))
    · obtain ⟨hframe, hfalls, henters, hflag⟩ := State.enter_advance s (s.hintEnt a tier)
      exact ⟨_, _, execMhint_enters ha hl ht hp (hkeyed.mpr hk), hframe, hfalls, henters, hflag, rfl, rfl, rfl, rfl, rfl, rfl, rfl⟩
    · refine (execHeatr_landed ha hl).trans (if_pos ?_)
      obtain hbad | hbad := hbad
      · rw [hbad, Bool.not_false, Bool.true_or]
      · rw [hbad, Bool.not_false, Bool.or_true]
    · have hrun : execHeatr r a region s = _ := execHeatr_landed ha hl
      rw [hpath, hp, if_neg (by decide), Bool.eq_false_iff.mpr fun k => hk (hkeyed.mp k), if_pos (by decide)] at hrun
      obtain ⟨t, ht⟩ := writesS_finish (s := s) (f := fun sp => sp.setS r.toNat 0) (d := r.toNat) (v := 0)
        (flag := s.curSplit.flag) rfl
      exact ⟨t, hrun.trans ht.1, ht.2⟩
    · have hrun : execHeatr r a region s = _ := execHeatr_landed ha hl
      rw [hpath, hp, if_neg (by decide), hkeyed.mpr hk, if_neg (by decide)] at hrun
      obtain ⟨hframe, hfalls, henters, hflag⟩ := State.enter_advance s (s.heatEnt r a region)
      exact ⟨_, _, hrun, hframe, hfalls, henters, hflag, rfl, rfl, rfl, rfl, rfl⟩
  case noHint => exact execHint_idle (by rw [hdi]; exact h)
  case hint =>
    intro ok page dropped
    have hok : s.hintOk di h = true ↔ ok := s.hintOk_iff di h
    refine ⟨fun k hw => execHint_waits hdi hh hf hr (hok.mpr k) hw,
      fun k => execHint_refused hdi hh hf hr (Bool.eq_false_iff.mpr fun hk => k (hok.mp hk)), execHint_unmapped hdi hh hf hr,
      fun l => execHint_unfit hdi hh hf hr, fun l f size k => execHint_starts hdi hh hf hr (hok.mpr k)⟩

end Sys2Proof.Proofs
end

section
namespace Sys2Proof.Machine
open Sys2Proof.Safety

/-! ### What a check at the owner leaves of the dies (R43-R51, R70) -/

section
variable {α : Type} {P : α → Bool} {d : α} (hd : P d = false)
include hd

theorem Tab.any_of_get {t : Tab α} {k : Nat} (h : P (Tab.get d t k) = true) : t.any (fun p => P p.2) = true := by
  induction t with
  | nil => exact absurd h (by simp [Tab.get, hd])
  | cons p t ih =>
    obtain ⟨j, u⟩ := p
    rw [Tab.get] at h
    rw [List.any_cons, Bool.or_eq_true]
    split at h
    · exact .inl h
    · exact .inr (ih h)

/-- A value of a table that is replaced by one like it leaves what holds of some value. -/
theorem Tab.any_put_like (t : Tab α) (k : Nat) (v : α) (hv : P v = P (Tab.get d t k)) :
    (Tab.put t k v).any (fun p => P p.2) = t.any (fun p => P p.2) := by
  induction t with
  | nil => simpa [Tab.put, Tab.get, hd] using hv
  | cons p t ih =>
    obtain ⟨j, u⟩ := p
    have hget := Tab.any_of_get hd (t := (j, u) :: t) (k := k)
    rw [← hv] at hget
    unfold Tab.put
    rw [Tab.get] at hv
    split
    · next hj =>
      rw [if_pos hj] at hv
      rw [List.any_cons, List.any_cons, hv]
    · next hj =>
      rw [if_neg hj] at hv
      split
      · rw [List.any_cons]
        cases hPv : P v with
        | true => rw [hget hPv, Bool.or_true]
        | false => rfl
      · rw [List.any_cons, List.any_cons, ih hv]

end

/-- What a check at the owner may change of a die: its cached entries, what its TLBSYNCs have seen, and its heat. -/
def Die.checked (d e : Die) : Die := { d with tlb := e.tlb, syncs := e.syncs, heat := e.heat, lastDecay := e.lastDecay }

/-- The step from `s` to `t` is that of a check at an owner: it has changed dies alone, and of them only what such a check may. -/
structure OwnerStep (s t : State) : Prop where
  frame : t = { s with dies := t.dies }
  dies  : ∀ j, t.die j = (s.die j).checked (t.die j)
  inL2  : ∀ key, t.inL2 key = s.inL2 key

namespace OwnerStep

theorem refl (s : State) : OwnerStep s s := ⟨rfl, fun _ => rfl, fun _ => rfl⟩

theorem trans {s t u : State} (h : OwnerStep s t) (k : OwnerStep t u) : OwnerStep s u := by
  refine ⟨by rw [k.frame, h.frame], fun j => ?_, fun key => (k.inL2 key).trans (h.inL2 key)⟩
  rw [k.dies j, h.dies j]
  rfl

theorem ite {α : Type} {s : State} {c : Prop} [Decidable c] {x y : α × State} (hx : OwnerStep s x.2) (hy : OwnerStep s y.2) :
    OwnerStep s (if c then x else y).2 := by
  split
  · exact hx
  · exact hy

section
variable {s t : State} (h : OwnerStep s t)
include h

theorem mem : t.mem = s.mem := by rw [h.frame]
theorem node : t.node = s.node := by rw [h.frame]
theorem tick : t.tick = s.tick := by rw [h.frame]
theorem lines : t.lines = s.lines := by rw [h.frame]
theorem ents : t.ents = s.ents := by rw [h.frame]
theorem groups : t.groups = s.groups := by rw [h.frame]
theorem copies : t.copies = s.copies := by rw [h.frame]
theorem ctxCores : t.ctxCores = s.ctxCores := by rw [h.frame]
theorem served : t.served = s.served := by rw [h.frame]
theorem downPorts : t.downPorts = s.downPorts := by rw [h.frame]
theorem lostPeers : t.lostPeers = s.lostPeers := by rw [h.frame]

theorem mtctx (j : Nat) : (t.die j).mtctx = (s.die j).mtctx := by rw [h.dies j]; rfl
theorem keys (j : Nat) : (t.die j).keys = (s.die j).keys := by rw [h.dies j]; rfl
theorem recs (j : Nat) : (t.die j).recs = (s.die j).recs := by rw [h.dies j]; rfl

theorem line (k : Nat) : t.line k = s.line k := by rw [State.line, h.lines, State.line]

theorem raw64 (key : Nat) : t.raw64 key = s.raw64 key := by rw [State.raw64, h.mem, State.raw64]

theorem keyOn (di ctx : Nat) : t.keyOn di ctx = s.keyOn di ctx := by
  have hkey : t.ctxEntryKey di ctx = s.ctxEntryKey di ctx := by rw [State.ctxEntryKey, h.mtctx, State.ctxEntryKey]
  unfold State.keyOn State.ctxWord
  dsimp only
  rw [hkey, h.raw64, h.raw64]

theorem keyCheck (ctx : Nat) (a : Access) (va : DWord) (l : Leaf) : t.keyCheck ctx a va l = s.keyCheck ctx a va l := by
  rw [State.keyCheck, h.keyOn, h.keyOn, State.keyCheck]

theorem tagFor (di ctx : Nat) (va : DWord) : t.tagFor di ctx va = s.tagFor di ctx va := by rw [State.tagFor, h.keys, State.tagFor]

theorem transitOf (ctx : Nat) (va : DWord) : t.transitOf ctx va = s.transitOf ctx va := by
  rw [State.transitOf, h.recs, State.transitOf]

theorem unreachable (key : Nat) : t.unreachable key = s.unreachable key := by
  rw [State.unreachable, State.lineLost, h.inL2, h.node, h.downPorts, h.lostPeers]
  rfl

theorem expanderBad (key : Nat) : t.expanderBad key = s.expanderBad key := by rw [State.expanderBad, h.tick, State.expanderBad]

end
end OwnerStep

/-- A change of a die within what a check may change. -/
theorem State.modDie_ownerStep (s : State) (di : Nat) {f : Die → Die} (hf : ∀ d, f d = d.checked (f d)) :
    OwnerStep s (s.modDie di f) := by
  refine ⟨rfl, fun j => ?_, fun key => ?_⟩
  · rw [State.modDie, State.die_setDie]
    split
    · next hj =>
      rw [← hj]
      exact hf _
    · rfl
  · have hl2 : (f (s.die di)).l2 = (s.die di).l2 := by rw [hf]; rfl
    exact Tab.any_put_like (P := fun e : Die => e.l2.contains (key / 128)) (d := Die.empty) rfl s.dies di _
      (congrArg (List.contains · _) hl2)

theorem State.entryAt_ownerStep (s : State) (di ctx lv idx key : Nat) : OwnerStep s (s.entryAt di ctx lv idx key).2 := by
  unfold State.entryAt
  dsimp only
  split
  all_goals
    dsimp only
    exact s.modDie_ownerStep di fun _ => rfl

theorem walkFrom_ownerStep (di ctx : Nat) (va : DWord) (ls : List Level) (tbl : Nat) (s : State) :
    OwnerStep s (walkFrom di ctx va ls tbl s).2 := by
  induction ls generalizing tbl s with
  | nil => exact OwnerStep.refl s
  | cons lv ls ih =>
    have h := s.entryAt_ownerStep di ctx lv.n (localOf va / 2 ^ lv.lo) (physKey di 0 (tbl + 8 * (localOf va / 2 ^ lv.lo % 2 ^ lv.w)))
    unfold walkFrom
    dsimp only
    split_ifs
    · exact h
    · exact h
    · exact h
    · exact h
    · exact h.trans (ih _ _)

theorem State.walk_ownerStep (s : State) (ctx : Nat) (va : DWord) : OwnerStep s (s.walk ctx va).2 := by
  unfold State.walk
  dsimp only
  split
  · exact OwnerStep.refl s
  · exact walkFrom_ownerStep _ _ _ _ _ s

theorem State.leafFor_ownerStep (s : State) (ctx : Nat) (lease : Option Word) (a : Access) (va : DWord) :
    OwnerStep s (s.leafFor ctx lease a va).2 := by
  have h := s.walk_ownerStep ctx va
  unfold State.leafFor
  generalize s.walk ctx va = r at h
  refine OwnerStep.ite (OwnerStep.refl s) ?_
  obtain ⟨c | l, t⟩ := r
  · exact h
  · dsimp only
    split <;> exact h

theorem State.heatCount_ownerStep (s : State) (ctx : Nat) (va : DWord) : OwnerStep s (s.heatCount ctx va) :=
  s.modDie_ownerStep _ fun _ => rfl

theorem State.ownerCheck_ownerStep (s : State) (ctx : Nat) (lease : Option Word) (a : Access) (va : DWord) :
    OwnerStep s (s.ownerCheck ctx lease a va).2 := by
  have h := s.leafFor_ownerStep ctx lease a va
  unfold State.ownerCheck
  generalize s.leafFor ctx lease a va = r at h
  obtain ⟨f | l, t⟩ := r
  · exact h
  · dsimp only
    split
    · exact h.trans (t.heatCount_ownerStep ctx va)
    · exact h

/-! ### The checks in their order (R43, R50, R60, R64) -/

/-- The access needs no lease, or a lease of its launch covers it. -/
def State.Leased (s : State) (lease : Option Word) (a : Access) (va : DWord) : Prop := ∀ l, lease = some l → s.leaseOk l a va = true

section
variable {s : State} {ctx : Nat} {lease : Option Word} {a : Access} {va : DWord}

theorem State.leafFor_unleased (h : ¬ s.Leased lease a va) : (s.leafFor ctx lease a va).1 = .error (.lease, .none) := by
  unfold State.Leased at h
  push Not at h
  obtain ⟨l, rfl, hl⟩ := h
  unfold State.leafFor
  simp [hl]

theorem State.leafFor_unmapped (h : s.Leased lease a va) {c : Cause} (hw : (s.walk ctx va).1 = .error c) :
    (s.leafFor ctx lease a va).1 = .error (.perm, c) := by
  unfold State.leafFor
  generalize s.walk ctx va = r at hw
  obtain ⟨o, t⟩ := r
  obtain rfl : o = .error c := hw
  cases lease with
  | none => rfl
  | some l => simp [h l rfl]

theorem State.leafFor_leaf (h : s.Leased lease a va) {l : Leaf} (hw : (s.walk ctx va).1 = .ok l) :
    (s.leafFor ctx lease a va).1 = (leafCheck l a).elim (.ok l) .error := by
  unfold State.leafFor
  generalize s.walk ctx va = r at hw
  obtain ⟨o, t⟩ := r
  obtain rfl : o = .ok l := hw
  rw [if_neg]
  · dsimp only
    cases leafCheck l a <;> rfl
  · cases lease with
    | none => exact Bool.false_ne_true
    | some n => simp [h n rfl]

theorem State.ownerCheck_error {f : FaultKind × Cause} (h : (s.leafFor ctx lease a va).1 = .error f) :
    (s.ownerCheck ctx lease a va).1 = .error f := by
  unfold State.ownerCheck
  generalize s.leafFor ctx lease a va = r at h
  obtain ⟨o, t⟩ := r
  obtain rfl : o = .error f := h
  rfl

/-- The key of the die is checked last. -/
theorem State.ownerCheck_leaf {l : Leaf} (h : (s.leafFor ctx lease a va).1 = .ok l) :
    (s.ownerCheck ctx lease a va).1 = s.keyCheck ctx a va l := by
  have hstep := s.leafFor_ownerStep ctx lease a va
  unfold State.ownerCheck
  generalize s.leafFor ctx lease a va = r at h hstep
  obtain ⟨o, t⟩ := r
  obtain rfl : o = .ok l := h
  dsimp only
  split
  · exact (hstep.trans (t.heatCount_ownerStep ctx va)).keyCheck ctx a va l
  · exact hstep.keyCheck ctx a va l

theorem State.ownerCheck_refused (h : s.Leased lease a va) {l : Leaf} (hw : (s.walk ctx va).1 = .ok l) {f : FaultKind × Cause}
    (hf : leafCheck l a = some f) : (s.ownerCheck ctx lease a va).1 = .error f :=
  State.ownerCheck_error (by rw [State.leafFor_leaf h hw, hf]; rfl)

theorem State.ownerCheck_allowed (h : s.Leased lease a va) {l : Leaf} (hw : (s.walk ctx va).1 = .ok l) (hf : leafCheck l a = none) :
    (s.ownerCheck ctx lease a va).1 = s.keyCheck ctx a va l :=
  State.ownerCheck_leaf (by rw [State.leafFor_leaf h hw, hf]; rfl)

theorem State.keyCheck_plain (ha : a ≠ .atomic) (l : Leaf) : s.keyCheck ctx a va l =
    if s.keyOn (ownerOf va) ctx then .ok (l.keyOf (ownerOf va) (localOf va), l) else .error (.poison, .none) := by
  unfold State.keyCheck
  cases s.keyOn (ownerOf va) ctx <;> simp [ha]

end

/-! #### The rights of a leaf (R50) -/

section
variable {l : Leaf} {a : Access}

theorem leafCheck_unwritable (hw : l.w = false) (ha : a = .store ∨ a = .engineWrite ∨ a = .atomic) :
    leafCheck l a = some (.perm, .write) := by
  obtain rfl | rfl | rfl := ha <;> simp [leafCheck, hw]

theorem leafCheck_unfetchable (hx : l.x = false) : leafCheck l .fetch = some (.perm, .execute) := by simp [leafCheck, hx]

theorem leafCheck_mirrorAtomic (hw : l.w = true) (ht : l.tier = 3) (hs : l.state ≠ 1) (hr : l.rap = false) :
    leafCheck l .atomic = some (.perm, .atomic) := by
  simp [leafCheck, hw, ht, hs, hr]

theorem leafCheck_load : leafCheck l .load = if l.state = 2 then some (.poison, .none) else none := by simp [leafCheck]

theorem leafCheck_store (hw : l.w = true) (hs : l.state ≠ 2) : leafCheck l .store = none := by simp [leafCheck, hw, hs]

end

end Sys2Proof.Machine
end

section
namespace Sys2Proof.Machine
open Sys2Proof.Safety

/-! ### What packets take on their way bears on no check at an owner (R43, R96, R102) -/

/-- What channels have served, and what links hold. -/
def State.withTraffic (s : State) (served : Tab Nat) (links : Tab Link) (turns : Tab Nat) : State :=
  { s with served := served, links := links, turns := turns }

theorem State.leaveFor_traffic (s : State) (gate node : Nat) (va : DWord) (payload : Nat) :
    ∃ links turns, s.leaveFor gate node va payload = s.withTraffic s.served links turns := by
  unfold State.leaveFor
  split
  · exact ⟨s.links, s.turns, rfl⟩
  · split
    · exact ⟨_, _, rfl⟩
    · exact ⟨s.links, s.turns, rfl⟩

/-- A packet that its channel has served, and that has crossed Traverse where it must. -/
theorem State.brought_traffic (s : State) (e : Entry) :
    ∃ links turns, s.brought e = s.withTraffic (Tab.put s.served (s.channelOf e) e.writer) links turns := by
  unfold State.brought State.cross
  dsimp only
  generalize (s.noteServed e).forwardNode _ _ _ _ = n
  obtain ⟨ls, ts, hleave⟩ := (s.noteServed e).leaveFor_traffic (dieOfCore e.ag.core) (nodeOf e.line) e.line e.crossing
  rw [State.leave, hleave]
  obtain ⟨ls', ts', hfar⟩ := ((s.noteServed e).withTraffic (s.noteServed e).served ls ts).leaveFor_traffic
    (dieOf e.line) n e.line e.crossing
  exact ⟨ls', ts', hfar⟩

section
variable (served : Tab Nat) (links : Tab Link) (turns : Tab Nat)

theorem State.withTraffic_entryAt (s : State) (di ctx lv idx key : Nat) :
    (s.withTraffic served links turns).entryAt di ctx lv idx key =
      ((s.entryAt di ctx lv idx key).1, (s.entryAt di ctx lv idx key).2.withTraffic served links turns) := by
  have hdie : (s.withTraffic served links turns).die di = s.die di := rfl
  have hnow : (s.withTraffic served links turns).raw64 key = s.raw64 key := rfl
  unfold State.entryAt
  dsimp only
  rw [hdie, hnow]
  split <;> rfl

theorem withTraffic_walkFrom (di ctx : Nat) (va : DWord) (ls : List Level) (tbl : Nat) (s : State) :
    walkFrom di ctx va ls tbl (s.withTraffic served links turns) =
      ((walkFrom di ctx va ls tbl s).1, (walkFrom di ctx va ls tbl s).2.withTraffic served links turns) := by
  induction ls generalizing tbl s with
  | nil => rfl
  | cons lv ls ih =>
    unfold walkFrom
    dsimp only
    rw [State.withTraffic_entryAt]
    generalize s.entryAt _ _ _ _ _ = r
    obtain ⟨e, t⟩ := r
    dsimp only
    have hbad : (t.withTraffic served links turns).badLeaf di ctx va lv = t.badLeaf di ctx va lv := rfl
    rw [hbad, ih]
    split_ifs <;> rfl

theorem State.withTraffic_walk (s : State) (ctx : Nat) (va : DWord) : (s.withTraffic served links turns).walk ctx va =
    ((s.walk ctx va).1, (s.walk ctx va).2.withTraffic served links turns) := by
  have hentry : (s.withTraffic served links turns).ctxEntry = s.ctxEntry := rfl
  unfold State.walk
  dsimp only
  rw [hentry]
  cases s.ctxEntry (ownerOf va) ctx with
  | none => rfl
  | some e => exact withTraffic_walkFrom served links turns _ _ _ _ _ s

theorem State.withTraffic_leafFor (s : State) (ctx : Nat) (lease : Option Word) (a : Access) (va : DWord) :
    (s.withTraffic served links turns).leafFor ctx lease a va =
      ((s.leafFor ctx lease a va).1, (s.leafFor ctx lease a va).2.withTraffic served links turns) := by
  have hlease : (s.withTraffic served links turns).leaseOk = s.leaseOk := rfl
  unfold State.leafFor
  rw [State.withTraffic_walk, hlease]
  generalize s.walk ctx va = r
  split_ifs
  · rfl
  · obtain ⟨_ | l, t⟩ := r
    · rfl
    · dsimp only
      cases leafCheck l a <;> rfl

/-- A check at an owner answers alike, whatever packets are on their way. -/
theorem State.withTraffic_ownerCheck (s : State) (ctx : Nat) (lease : Option Word) (a : Access) (va : DWord) :
    (s.withTraffic served links turns).ownerCheck ctx lease a va =
      ((s.ownerCheck ctx lease a va).1, (s.ownerCheck ctx lease a va).2.withTraffic served links turns) := by
  have hon (t : State) (di : Nat) : (t.withTraffic served links turns).keyOn di ctx = t.keyOn di ctx := by
    have hword : (t.withTraffic served links turns).ctxWord = t.ctxWord := rfl
    rw [State.keyOn, State.keyOn, hword]
  have hkey (t : State) (l : Leaf) : (t.withTraffic served links turns).keyCheck ctx a va l = t.keyCheck ctx a va l := by
    rw [State.keyCheck, State.keyCheck, hon, hon]
  unfold State.ownerCheck
  rw [State.withTraffic_leafFor]
  generalize s.leafFor ctx lease a va = r
  obtain ⟨_ | l, t⟩ := r
  · rfl
  · have hheat : (if l.heat then (t.withTraffic served links turns).heatCount ctx va else t.withTraffic served links turns)
        = (if l.heat then t.heatCount ctx va else t).withTraffic served links turns := by
      split <;> rfl
    dsimp only
    rw [hheat, hkey]

end

/-- The state once a request has been served, has crossed, and has been checked at its owner. -/
def State.looked (s : State) (e : Entry) : State := ((s.brought e).ownerCheck e.ctx e.lease e.access (noPath e.line)).2

/-- What the checks at its owner say of a request. -/
def State.verdict (s : State) (e : Entry) : Except (FaultKind × Cause) (Nat × Leaf) :=
  (s.ownerCheck e.ctx e.lease e.access (noPath e.line)).1

section
variable (s : State) (e : Entry)

theorem State.brought_ownerCheck :
    (s.brought e).ownerCheck e.ctx e.lease e.access (noPath e.line) = (s.verdict e, s.looked e) := by
  refine Prod.ext ?_ rfl
  obtain ⟨ls, ts, h⟩ := s.brought_traffic e
  rw [h, State.withTraffic_ownerCheck]
  rfl

/-- Up to what packets have taken on their way, the request has made its owner's checks alone. -/
theorem State.looked_traffic : ∃ t links turns, OwnerStep s t
    ∧ s.looked e = t.withTraffic (Tab.put s.served (s.channelOf e) e.writer) links turns := by
  obtain ⟨ls, ts, h⟩ := s.brought_traffic e
  refine ⟨_, ls, ts, s.ownerCheck_ownerStep e.ctx e.lease e.access (noPath e.line), ?_⟩
  rw [State.looked, h, State.withTraffic_ownerCheck]

theorem State.looked_frame : s.looked e = { s with
    dies := (s.looked e).dies, served := Tab.put s.served (s.channelOf e) e.writer, links := (s.looked e).links
    turns := (s.looked e).turns } := by
  obtain ⟨t, ls, ts, hstep, h⟩ := s.looked_traffic e
  rw [h, hstep.frame]
  rfl

theorem State.looked_mem : (s.looked e).mem = s.mem := by rw [State.looked_frame]
theorem State.looked_ents : (s.looked e).ents = s.ents := by rw [State.looked_frame]
theorem State.looked_groups : (s.looked e).groups = s.groups := by rw [State.looked_frame]
theorem State.looked_ctxCores : (s.looked e).ctxCores = s.ctxCores := by rw [State.looked_frame]
theorem State.looked_served : (s.looked e).served = Tab.put s.served (s.channelOf e) e.writer := by rw [State.looked_frame]

end

/-! ### The order in which a channel serves (R96, R97, R99) -/

theorem before32_of_le {x y : Word} (hne : x ≠ y) (h : (y - x).toNat ≤ 2 ^ 31) : before32 x y = true := by
  rw [before32, decide_eq_true_eq]
  bv_omega

/-- A request that could be served goes before another of its channel. -/
theorem State.requestOk_goesFirst {s : State} {x e : Entry} (hx : x ∈ s.ents) (hid : x.id ≠ e.id)
    (hchan : s.channelOf x = s.channelOf e)
    (hserve : s.canServe x = true) (hfirst : s.goesFirst (s.channelOf e) x e = true) : s.requestOk e = false := by
  have hany : (s.ents.any fun x => x.id != e.id && s.channelOf x == s.channelOf e && s.goesFirst (s.channelOf e) x e && s.canServe x)
      = true := List.any_eq_true.mpr ⟨x, hx, by simp [hid, hchan, hserve, hfirst]⟩
  rw [State.requestOk, hany, Bool.not_true, Bool.and_false]

section
variable {s : State} {chan : Nat} {x e : Entry} {fx fe : Word} {nx ne : Nat} (hx : x.inj = some (fx, nx)) (he : e.inj = some (fe, ne))
include hx he

theorem State.goesFirst_older (hne : fx ≠ fe) (h : (fe - fx).toNat ≤ 2 ^ 31) : s.goesFirst chan x e = true := by
  rw [State.goesFirst, hx, he]
  dsimp only
  rw [if_pos (by simpa using hne), before32_of_le hne h]

theorem State.goesFirst_nearer (heq : fx = fe) (hw : x.writer ≠ e.writer) (h : s.ringGap chan x.writer < s.ringGap chan e.writer) :
    s.goesFirst chan x e = true := by
  rw [State.goesFirst, hx, he]
  dsimp only
  rw [if_neg (by simp [heq]), if_pos (by simpa using hw), decide_eq_true h]

theorem State.goesFirst_before (heq : fx = fe) (hw : x.writer = e.writer) (h : nx < ne) : s.goesFirst chan x e = true := by
  rw [State.goesFirst, hx, he]
  dsimp only
  rw [if_neg (by simp [heq]), if_neg (by simp [hw]), decide_eq_true h]

end

/-! ### REQUEST_AT_OWNER by the kind of the request (R43, R76, R331) -/

theorem State.ent_id {s : State} {id : Nat} {e : Entry} (h : s.ent id = some e) : e.id = id := by
  simpa using List.find?_some h

section
variable {s : State} {id : Nat} {e : Entry} (hent : s.ent id = some e)
include hent

theorem execRequestAtOwner_waits (h : s.requestOk e = false ∨ e.kind = .heatr) : execRequestAtOwner id s = .next s := by
  rw [execRequestAtOwner, hent]
  dsimp only
  rw [if_pos (by obtain h | h := h <;> simp [h])]
  rfl

theorem execRequestAtOwner_hint (hok : s.requestOk e = true) (hk : e.kind = .hint) :
    execRequestAtOwner id s = .next (s.hintArrives e) := by
  rw [execRequestAtOwner, hent]
  simp [hok, hk]

theorem execRequestAtOwner_save (hok : s.requestOk e = true) (hk : e.kind = .save) : execRequestAtOwner id s = .next (s.deliver e) := by
  rw [execRequestAtOwner, hent]
  simp [hok, hk]

theorem execRequestAtOwner_saveRead (hok : s.requestOk e = true) (hk : e.kind = .saveRead) (hn : s.replyNext e = true) :
    execRequestAtOwner id s = .next (s.saveLook e) := by
  rw [execRequestAtOwner, hent]
  simp [hok, hk, hn]

theorem execRequestAtOwner_saveRead_waits (hk : e.kind = .saveRead) (hn : s.replyNext e = false) : execRequestAtOwner id s = .next s := by
  cases hok : s.requestOk e with
  | false => exact execRequestAtOwner_waits hent (.inl hok)
  | true =>
    rw [execRequestAtOwner, hent]
    simp [hok, hk, hn, hold]

theorem execRequestAtOwner_answer (hok : s.requestOk e = true) (hk : e.kind ∉ [.heatr, .hint, .save, .saveRead]) :
    execRequestAtOwner id s = .next (s.answer e) := by
  simp only [List.mem_cons, List.not_mem_nil, or_false, not_or] at hk
  obtain ⟨hheatr, hhint, hsave, hread⟩ := hk
  rw [execRequestAtOwner, hent]
  simp [hok, hheatr, hhint, hsave, hread]

end

/-- The reply that an owner's verdict makes of a request. -/
def Entry.replyFor (e : Entry) (v : Except (FaultKind × Cause) (Nat × Leaf)) (tick : Nat) : Resp :=
  match v with
  | .ok (key, _) => .ok key tick
  | .error f => .bad ⟨f.1, f.2, e.firstAddr⟩ tick

theorem State.answer_eq (s : State) (e : Entry) :
    s.answer e = (s.looked e).setEnt { e with resp := e.replyFor (s.verdict e) (s.looked e).tick } := by
  unfold State.answer
  rw [State.brought_ownerCheck]
  cases s.verdict e with
  | error f => dsimp only [Entry.replyFor]
  | ok p => dsimp only [Entry.replyFor]

theorem Entry.lease_of_kind {e : Entry} (hs : e.kind ≠ .save) (hr : e.kind ≠ .saveRead) : e.lease = some e.launch := by
  simp [Entry.lease, hs, hr]

/-- A hint that arrives waits at its die, and at no other. -/
theorem State.hintArrives_frame (s : State) (e : Entry) : (s.hintArrives e).mem = s.mem ∧ (s.hintArrives e).groups = s.groups
    ∧ (s.hintArrives e).ents = (s.dropEnt e.id).ents
    ∧ ∀ j, (s.hintArrives e).die j = if ownerOf e.line = j then
        { s.die (ownerOf e.line) with hints := (s.die (ownerOf e.line)).hints ++ [⟨e.ctx, e.launch, e.firstAddr, e.fn⟩] }
      else s.die j := by
  obtain ⟨ls, ts, h⟩ := (s.noteServed e).leaveFor_traffic (dieOfCore e.ag.core) (nodeOf e.line) e.line 0
  unfold State.hintArrives
  rw [State.leave, h]
  refine ⟨rfl, rfl, rfl, fun j => ?_⟩
  rw [State.modDie, State.die_setDie]
  rfl

/-- A read of a save area that is served is gone, and has changed no byte and no group. -/
theorem State.saveLook_frame (s : State) (e : Entry) : (s.saveLook e).mem = s.mem ∧ (s.saveLook e).groups = s.groups
    ∧ (s.saveLook e).ents = (s.dropEnt e.id).ents := by
  have hlook : s.saveLook e = ((s.looked e).noteReply e.writer e.line).dropEnt e.id := rfl
  rw [hlook]
  refine ⟨s.looked_mem e, s.looked_groups e, ?_⟩
  show (s.looked e).ents.filter _ = _
  rw [s.looked_ents e]
  rfl

/-- A write of a save area waits for the stores and the writes of its line that come before it (log 28). -/
theorem State.requestOk_save {s : State} {e x : Entry} (hk : e.kind = .save) (hx : x ∈ s.ents) (hline : x.sameLine e = true)
    (hfirst : x.kind = .gStore ∧ 0 < x.level ∧ x.level < e.level ∨ x.kind = .save ∧ x.id < e.id) : s.requestOk e = false := by
  have hready : s.saveReady e = false := by
    rw [State.saveReady, Bool.not_eq_false', List.any_eq_true]
    refine ⟨x, hx, ?_⟩
    obtain ⟨hkind, h0, hlt⟩ | ⟨hkind, hlt⟩ := hfirst
    · simp [hkind, h0, hlt, hline]
    · simp [hkind, hlt, hline]
  have hsend : s.sendable e = false := by rw [State.sendable, hk]; exact hready
  rw [State.requestOk, State.canServe, hsend, Bool.and_false, Bool.false_and, Bool.false_and]

end Sys2Proof.Machine
end

section
namespace Sys2Proof.Machine
open Sys2Proof.Safety

/-! ### Addresses of one line (R41, R44, R361) -/

theorem noPath_toNat (va : DWord) : (noPath va).toNat = va.toNat % 2 ^ 60 := by
  rw [noPath, BitVec.toNat_and]
  exact Nat.and_two_pow_sub_one_eq_mod va.toNat 60

theorem lineOf_toNat (va : DWord) : (lineOf va).toNat = va.toNat / 128 * 128 := by
  have hmask : (0xFFFFFFFFFFFFFF80#64).toNat = (2 ^ 57 - 1) <<< 7 := by decide
  rw [lineOf, BitVec.toNat_and, hmask]
  refine Nat.eq_of_testBit_eq fun i => ?_
  have hva : va.toNat < 2 ^ 64 := va.isLt
  rw [show va.toNat / 128 * 128 = (va.toNat >>> 7) <<< 7 by rw [Nat.shiftLeft_eq, Nat.shiftRight_eq_div_pow], Nat.testBit_and,
    Nat.testBit_shiftLeft, Nat.testBit_shiftLeft, Nat.testBit_shiftRight, Nat.testBit_two_pow_sub_one]
  by_cases h7 : 7 ≤ i
  · rw [show 7 + (i - 7) = i by omega]
    by_cases h64 : i < 64
    · simp [h7, show i - 7 < 57 by omega]
    · rw [Nat.testBit_eq_false_of_lt (lt_of_lt_of_le hva (Nat.pow_le_pow_right (by decide) (by omega)))]
      simp
  · simp [h7]

section
variable {a b : DWord} (h : b.toNat % 2 ^ 60 / 128 = a.toNat % 2 ^ 60 / 128)
include h

theorem ownerOf_congr : ownerOf b = ownerOf a := by
  unfold ownerOf nodeOf dieOf bitsNat
  omega

/-- Two addresses of one line have one die and one tweak. -/
theorem State.tagFor_congr (s : State) (di ctx : Nat) : s.tagFor di ctx b = s.tagFor di ctx a := by
  have hnode : nodeOf b = nodeOf a := by
    unfold nodeOf bitsNat
    omega
  have hdie : dieOf b = dieOf a := by
    unfold dieOf bitsNat
    omega
  have hlocal : localOf b / 128 = localOf a / 128 := by
    unfold localOf bitsNat
    omega
  rw [State.tagFor, State.tagFor, tweakOf, tweakOf, hnode, hdie, hlocal]

end

/-! ### A write at its home (R64, R361) -/

section
variable {s : State} {key : Nat} {bs : List Byte} {t : LineTag} {rel : Option Nat} (hu : s.unreachable key = false)
  (hx : s.expanderBad key = false) (hp : (s.line (key / 128)).poison = false)
include hu hx hp

theorem State.lineWrite_clean (ht : (s.line (key / 128)).written = false ∨ (s.line (key / 128)).tag ∈ [none, some t]) :
    (s.lineWrite key bs t rel).1 = true ∧ (s.lineWrite key bs t rel).2.mem = s.mem.writeN key bs := by
  have hopen : s.openLine key t = (true, s) := by
    have hread := State.lineRead_clean 0 hu hx hp ht
    unfold State.lineRead at hread
    generalize s.openLine key t = r at hread
    obtain ⟨_ | _, u⟩ := r
    · cases hread
    · rw [(Prod.mk.inj hread).2]
  unfold State.lineWrite
  dsimp only
  rw [hu, if_neg Bool.false_ne_true, hopen]
  split <;> exact ⟨rfl, rfl⟩

/-- A write of a line that is not in transit, and that opens for its context, puts its bytes there and nowhere else. -/
theorem State.homePut_clean {ctx : Nat} {va : DWord} (hs : s.transitOf ctx va = none)
    (ht : (s.line (key / 128)).written = false ∨ (s.line (key / 128)).tag ∈ [none, some (s.tagFor (ownerOf va) ctx va)]) :
    (s.homePut ctx va key bs rel).1 = true ∧ (s.homePut ctx va key bs rel).2.mem = s.mem.writeN key bs := by
  have hserve : s.serve ctx va key = (key, none) := by rw [State.serve, hs]
  obtain ⟨hdone, hmem⟩ := State.lineWrite_clean (bs := bs) (rel := rel) hu hx hp ht
  rw [State.homePut, State.homePutBy, hserve]
  dsimp only
  generalize s.lineWrite key bs _ rel = r at hdone hmem
  obtain ⟨o, u⟩ := r
  obtain rfl : o = true := hdone
  exact ⟨rfl, hmem⟩

end

/-! ### The bytes of a store of one lane (R240) -/

theorem runsFrom_none (n i : Nat) : runsFrom (List.replicate n none) i = [] := by
  induction n generalizing i with
  | zero => rfl
  | succ n ih => rw [List.replicate_succ, runsFrom, ih]

theorem runsFrom_skip (n i : Nat) (l : List (Option Byte)) : runsFrom (List.replicate n none ++ l) i = runsFrom l (i + n) := by
  induction n generalizing i with
  | zero => rfl
  | succ n ih =>
    rw [List.replicate_succ, List.cons_append, runsFrom, ih]
    rw [show i + 1 + n = i + (n + 1) by omega]

theorem runsFrom_last {x : Byte} {rest : List (Option Byte)} {i : Nat} (h : runsFrom rest (i + 1) = []) :
    runsFrom (some x :: rest) i = [(i, [x])] := by
  rw [runsFrom.eq_def]
  dsimp only
  rw [h]

theorem runsFrom_next {x : Byte} {rest : List (Option Byte)} {i : Nat} {bs : List Byte} (h : runsFrom rest (i + 1) = [(i + 1, bs)]) :
    runsFrom (some x :: rest) i = [(i, x :: bs)] := by
  rw [runsFrom.eq_def]
  dsimp only
  rw [h]
  exact if_pos (beq_self_eq_true _)

/-- Bytes that stand together make one run. -/
theorem runsFrom_one (b : Byte) (bs : List Byte) (n i : Nat) :
    runsFrom ((b :: bs).map some ++ List.replicate n none) i = [(i, b :: bs)] := by
  induction bs generalizing b i with
  | nil => exact runsFrom_last (runsFrom_none n (i + 1))
  | cons c bs ih => exact runsFrom_next (ih c (i + 1))

/-- Of values at consecutive numbers from `c`, the one at `k`. -/
theorem filter_consecutive {α : Type} (f : Nat → α) (c k w : Nat) :
    ((((List.range w).map fun j => (c + j, f j)).filter fun b => b.1 == k).getLast?.map (·.2)) =
      if c ≤ k ∧ k < c + w then some (f (k - c)) else none := by
  induction w with
  | zero =>
    rw [if_neg (by omega)]
    rfl
  | succ w ih =>
    rw [List.range_succ, List.map_append, List.filter_append]
    by_cases hk : c + w = k
    · rw [if_pos (by omega), show k - c = w by omega]
      simp [hk]
    · have hlast : (List.map (fun j => (c + j, f j)) [w]).filter (fun b => b.1 == k) = [] := by simp [hk]
      rw [hlast, List.append_nil, ih]
      exact if_congr (by omega) rfl rfl

section
variable {e : Entry} {p : Part} (hpath : translated e.path = true) (hparts : e.parts = [p]) (haligned : e.line.toNat % 128 = 0)
  (hline : lineOf p.addr = e.line) (hfit : p.addr.toNat % 128 + p.width ≤ 128)
include hpath haligned hline

theorem Entry.spot_inLine {i : Nat} (hi : p.addr.toNat % 128 + i < 128) :
    e.spot (p.addr + BitVec.ofNat 64 i) = e.spot e.line + p.addr.toNat % 128 + i := by
  have hadd : p.addr.toNat = e.line.toNat + p.addr.toNat % 128 := by
    rw [← hline, lineOf_toNat]
    omega
  have hlt : e.line.toNat < 2 ^ 64 := e.line.isLt
  rw [Entry.spot, Entry.spot, if_pos hpath, if_pos hpath, noPath_toNat, noPath_toNat, BitVec.toNat_add, BitVec.toNat_ofNat]
  omega

include hparts hfit

theorem Entry.byteAt_one (hlen : p.data.length = p.width) (i : Nat) : e.byteAt (e.spot e.line + i) =
    if p.addr.toNat % 128 ≤ i then p.data[i - p.addr.toNat % 128]? else none := by
  have hbytes : e.bytes = (List.range p.width).map fun j => (e.spot e.line + p.addr.toNat % 128 + j, p.data.getD j 0) := by
    rw [Entry.bytes, hparts, List.flatMap_singleton]
    refine List.map_congr_left fun j hj => ?_
    have := List.mem_range.mp hj
    rw [Entry.spot_inLine hpath haligned hline (by omega)]
  rw [Entry.byteAt, hbytes, filter_consecutive (fun j => p.data.getD j 0)]
  by_cases hoff : p.addr.toNat % 128 ≤ i
  · rw [if_pos hoff]
    by_cases hin : i < p.addr.toNat % 128 + p.width
    · rw [if_pos (by omega), show e.spot e.line + i - (e.spot e.line + p.addr.toNat % 128) = i - p.addr.toNat % 128 by omega,
        List.getD_eq_getElem?_getD, List.getElem?_eq_getElem (by omega)]
      rfl
    · rw [if_neg (by omega), List.getElem?_eq_none (by omega)]
  · rw [if_neg (by omega), if_neg hoff]

/-- The bytes of a store of one lane within its line make one run. -/
theorem Entry.runs_one (hlen : p.data.length = p.width) (hpos : 0 < p.width) : e.runs = [(p.addr.toNat % 128, p.data)] := by
  have hbytes : ((List.range 128).map fun i => e.byteAt (e.spot e.line + i)) = List.replicate (p.addr.toNat % 128) none
      ++ (p.data.map some ++ List.replicate (128 - (p.addr.toNat % 128 + p.width)) none) := by
    refine List.ext_getElem (by simp; omega) fun i hi _ => ?_
    rw [List.length_map, List.length_range] at hi
    rw [List.getElem_map, List.getElem_range, Entry.byteAt_one hpath hparts haligned hline hfit hlen]
    split
    · next hoff =>
      rw [List.getElem_append_right (by simpa using hoff)]
      simp only [List.length_replicate]
      by_cases hin : i - p.addr.toNat % 128 < p.data.length
      · rw [List.getElem_append_left (by simpa using hin), List.getElem_map, List.getElem?_eq_getElem hin]
      · rw [List.getElem_append_right (by simpa using hin), List.getElem_replicate, List.getElem?_eq_none (by omega)]
    · next hoff =>
      rw [List.getElem_append_left (by simpa using hoff), List.getElem_replicate]
  rw [Entry.runs, hbytes, runsFrom_skip, Nat.zero_add]
  cases hdata : p.data with
  | nil =>
    rw [hdata] at hlen
    exact absurd hpos (by rw [← hlen]; decide)
  | cons b bs => exact runsFrom_one b bs _ _

end

end Sys2Proof.Machine
end

section
namespace Sys2Proof.Machine
open Sys2Proof.Safety

/-! ### A write of the save path at its home (R313, R330, R331) -/

theorem State.modHolder_ents (s : State) (e : Entry) (f : Group → Group) : (s.modHolder e f).ents = s.ents := by
  unfold State.modHolder
  dsimp only
  split
  · rfl
  · split <;> rfl

theorem State.modHolder_here {s : State} {e : Entry} (f : Group → Group) (hlive : (s.group e.ag.core e.ag.slot).live = true)
    (htag : (s.group e.ag.core e.ag.slot).tag = e.tag) :
    (s.modHolder e f).group e.ag.core e.ag.slot = f (s.group e.ag.core e.ag.slot) := by
  unfold State.modHolder
  dsimp only
  rw [if_pos (by simp [hlive, htag])]
  exact Tab.get_put_same _ _ _ _

theorem State.keepDiscards_frame (s : State) (ctx core : Nat) :
    s.keepDiscards ctx core = { s with groups := (s.keepDiscards ctx core).groups } := by
  unfold State.keepDiscards
  refine List.foldlRecOn (motive := fun (u : State) => u = { s with groups := u.groups }) _ _ rfl fun u hu k _ => ?_
  rw [hu]
  rfl

/-- An eviction that is abandoned leaves the context pre-empted. -/
theorem State.abandon_frame (s : State) (ctx core : Nat) :
    (s.abandon ctx core).ents = s.ents ∧ (s.abandon ctx core).stateOn ctx core = .preempted := by
  unfold State.abandon
  refine ⟨?_, ?_⟩
  · show (s.keepDiscards ctx core).ents = s.ents
    rw [State.keepDiscards_frame]
  · show (Tab.get CtxCore.empty (Tab.put _ _ _) _).state = _
    rw [Tab.get_put_same]

/-- A packet of the save path that is gone, FREC naming the frame of a fault record. -/
def State.noted (s : State) (e : Entry) : State :=
  if 0 < e.op then (s.dropEnt e.id).modHolder e fun g => { g with frec := e.line } else s.dropEnt e.id

theorem State.noted_mem (s : State) (e : Entry) : (s.noted e).mem = s.mem := by
  unfold State.noted
  split
  · rw [State.modHolder_mem, State.dropEnt_mem]
  · rfl

theorem State.noted_ents (s : State) (e : Entry) : (s.noted e).ents = (s.dropEnt e.id).ents := by
  unfold State.noted
  split
  · rw [State.modHolder_ents]
  · rfl

theorem State.noted_image {s : State} {e : Entry} (h : e.op = 0) : (s.noted e).groups = s.groups := by
  rw [State.noted, h]
  rfl

theorem State.noted_record {s : State} {e : Entry} (h : 0 < e.op) (hlive : (s.group e.ag.core e.ag.slot).live = true)
    (htag : (s.group e.ag.core e.ag.slot).tag = e.tag) :
    (s.noted e).group e.ag.core e.ag.slot = { s.group e.ag.core e.ag.slot with frec := e.line } := by
  rw [State.noted, if_pos h]
  exact State.modHolder_here (s := s.dropEnt e.id) _ hlive htag

/-- A write that has taken place: the notice of a fault record for the driver follows. -/
theorem State.saveDone_written (s : State) (e : Entry) :
    s.saveDone e true = if e.op = 2 then (s.noted e).postNotice e.ctx e.line else s.noted e := by
  by_cases h : 0 < e.op
  · rw [State.saveDone, State.noted, if_pos h, if_pos h, State.recorded]
    exact ite_congr (by simp) (fun _ => rfl) fun _ => rfl
  · have h2 : e.op ≠ 2 := by omega
    simp [State.saveDone, State.noted, h, h2]

/-- A line of an image that cannot be written: its eviction, if there is one, is abandoned. -/
theorem State.saveDone_failed {s : State} {e : Entry} (h : e.op = 0) :
    (s.saveDone e false).mem = s.mem ∧ (s.saveDone e false).ents = (s.dropEnt e.id).ents
      ∧ (s.saveDone e false).stateOn e.ctx e.ag.core =
        if s.stateOn e.ctx e.ag.core = .evicting then .preempted else s.stateOn e.ctx e.ag.core := by
  have hon : (s.dropEnt e.id).stateOn e.ctx e.ag.core = s.stateOn e.ctx e.ag.core := rfl
  unfold State.saveDone
  dsimp only
  rw [h, if_neg (Nat.lt_irrefl 0), hon]
  by_cases hev : s.stateOn e.ctx e.ag.core = .evicting
  · rw [if_pos (by simp [hev]), if_pos hev]
    obtain ⟨hents, hstate⟩ := (s.dropEnt e.id).abandon_frame e.ctx e.ag.core
    exact ⟨by rw [State.abandon_mem, State.dropEnt_mem], hents, hstate⟩
  · rw [if_neg (by simp [hev]), if_neg hev]
    exact ⟨rfl, rfl, rfl⟩

theorem State.deliver_error {s : State} {e : Entry} {f : FaultKind × Cause} (h : s.verdict e = .error f) :
    s.deliver e = ((s.looked e).dropFloors e.id).saveDone e false := by
  unfold State.deliver
  rw [State.brought_ownerCheck, h]

theorem State.deliver_ok {s : State} {e : Entry} {key : Nat} {l : Leaf} (h : s.verdict e = .ok (key, l))
    (hput : ((s.looked e).putRuns e key none).1 = true) : s.deliver e = ((s.looked e).putRuns e key none).2.saveDone e true := by
  unfold State.deliver
  rw [State.brought_ownerCheck, h]
  dsimp only
  generalize (s.looked e).putRuns e key none = r at hput
  obtain ⟨o, t⟩ := r
  obtain rfl : o = true := hput
  rfl

theorem State.updateCopies_frame (s : State) (core ctx : Nat) (va : DWord) (bs : List Byte) (n : Nat) :
    s.updateCopies core ctx va bs n = { s with copies := (s.updateCopies core ctx va bs n).copies } := rfl

theorem State.chargeMirror_frame (s : State) (ctx : Nat) (va : DWord) (key n : Nat) :
    s.chargeMirror ctx va key n = { s with dies := (s.chargeMirror ctx va key n).dies } := by
  unfold State.chargeMirror
  split <;> rfl

/-- The bytes of one run go where its home puts them. -/
theorem State.putRuns_one {s : State} {e : Entry} {key off : Nat} {bs : List Byte} {rel : Option Nat} (hruns : e.runs = [(off, bs)])
    (hput : (s.homePut e.ctx (noPath e.line + BitVec.ofNat 64 off) (key + off) bs rel).1 = true) :
    (s.putRuns e key rel).1 = true
      ∧ (s.putRuns e key rel).2.mem = (s.homePut e.ctx (noPath e.line + BitVec.ofNat 64 off) (key + off) bs rel).2.mem
      ∧ (s.putRuns e key rel).2.ents = s.ents ∧ (s.putRuns e key rel).2.groups = s.groups := by
  have hstep := s.homePut_memStep e.ctx (noPath e.line + BitVec.ofNat 64 off) (key + off) bs rel
  unfold State.putRuns
  dsimp only
  rw [hruns, List.foldl_cons, List.foldl_nil, if_pos rfl]
  dsimp only
  generalize s.homePut _ _ _ _ _ = r at hput hstep
  obtain ⟨o, t⟩ := r
  obtain rfl : o = true := hput
  dsimp only
  rw [State.chargeMirror_frame]
  exact ⟨rfl, rfl, hstep.ents, hstep.groups⟩

/-- A key within a line that begins at `key` lies in its tier, and on its line. -/
theorem inLine_of_aligned {key i : Nat} (h : key % 128 = 0) (hi : i < 128) :
    (key + i) / 2 ^ 48 = key / 2 ^ 48 ∧ (key + i) / 128 = key / 128 ∧ (key + i < 2 ^ 61 ↔ key < 2 ^ 61) := by
  omega

theorem State.expanderBad_inLine {s : State} {key i : Nat} (h : key % 128 = 0) (hi : i < 128) :
    s.expanderBad (key + i) = s.expanderBad key := by
  obtain ⟨htier, hline, hlt⟩ := inLine_of_aligned h hi
  simp only [State.expanderBad, htier, hline, hlt]

/-- A write of the save path whose line opens at its home: its bytes are there, and then what follows is done. -/
theorem State.deliver_written {s : State} {e : Entry} {p : Part} {key : Nat} {l : Leaf} (hverdict : s.verdict e = .ok (key, l))
    (hparts : e.parts = [p]) (hkey : key % 128 = 0) (haligned : e.line.toNat % 128 = 0) (hfit : p.addr.toNat % 128 + p.width ≤ 128)
    (hline : lineOf p.addr = e.line) (hpos : 0 < p.width) (hlen : p.data.length = p.width) (hpath : translated e.path = true)
    (htransit : ∀ i, i < 128 → s.transitOf e.ctx (noPath e.line + BitVec.ofNat 64 i) = none)
    (hreach : ∀ i, i < 128 → s.unreachable (key + i) = false) (hexp : s.expanderBad key = false)
    (hpoison : (s.line (key / 128)).poison = false)
    (htag : (s.line (key / 128)).written = false
      ∨ (s.line (key / 128)).tag ∈ [none, some (s.tagFor (ownerOf e.line) e.ctx (noPath e.line))]) :
    ∃ t : State, s.deliver e = t.saveDone e true ∧ t.ents = s.ents ∧ t.groups = s.groups
      ∧ t.mem = s.mem.writeN (key + p.addr.toNat % 128) p.data := by
  obtain ⟨u, links, turns, hstep, hlooked⟩ := s.looked_traffic e
  have hoff : p.addr.toNat % 128 < 128 := Nat.mod_lt _ (by decide)
  obtain ⟨-, hkline, -⟩ := inLine_of_aligned hkey hoff
  have hva : (noPath e.line + BitVec.ofNat 64 (p.addr.toNat % 128)).toNat = e.line.toNat % 2 ^ 60 + p.addr.toNat % 128 := by
    rw [BitVec.toNat_add, noPath_toNat, BitVec.toNat_ofNat]
    omega
  have hsame : (noPath e.line + BitVec.ofNat 64 (p.addr.toNat % 128)).toNat % 2 ^ 60 / 128 = e.line.toNat % 2 ^ 60 / 128 := by
    rw [hva]
    omega
  have hsame' : (noPath e.line).toNat % 2 ^ 60 / 128 = e.line.toNat % 2 ^ 60 / 128 := by
    rw [noPath_toNat, Nat.mod_mod]
  have hput := State.homePut_clean (s := s.looked e) (key := key + p.addr.toNat % 128) (bs := p.data) (rel := none) (ctx := e.ctx)
    (va := noPath e.line + BitVec.ofNat 64 (p.addr.toNat % 128))
    (by rw [hlooked]; exact (hstep.unreachable _).trans (hreach _ hoff))
    (by rw [hlooked]; exact (hstep.expanderBad _).trans ((State.expanderBad_inLine hkey hoff).trans hexp))
    (by rw [hlooked, hkline]; exact (congrArg LineMeta.poison (hstep.line _)).trans hpoison)
    (by rw [hlooked]; exact (hstep.transitOf _ _).trans (htransit _ hoff))
    (by
      have hline : (s.looked e).line (key / 128) = s.line (key / 128) := by rw [hlooked]; exact hstep.line _
      have htagged : ∀ a b c, (s.looked e).tagFor a b c = s.tagFor a b c := fun a b c => by rw [hlooked]; exact hstep.tagFor a b c
      rw [hkline, hline, htagged, ownerOf_congr hsame, State.tagFor_congr hsame, ← State.tagFor_congr hsame']
      exact htag)
  obtain ⟨hdone, hmem⟩ := hput
  obtain ⟨hruns, hrmem, hrents, hrgroups⟩ := State.putRuns_one (s := s.looked e)
    (Entry.runs_one hpath hparts haligned hline hfit hlen hpos) hdone
  exact ⟨_, State.deliver_ok hverdict hruns, by rw [hrents, State.looked_ents], by rw [hrgroups, State.looked_groups],
    by rw [hrmem, hmem, State.looked_mem]⟩

/-! ### Clean copies (R115, R265) -/

theorem Copy.same_iff (x c : Copy) : x.same c = true ↔ c.core = x.core ∧ c.cls = x.cls ∧ c.ctx = x.ctx ∧ c.line = x.line := by
  simp [Copy.same, and_assoc]

section
variable {x d : Copy} {cs : List Copy}

/-- The copies whose place a new one takes when its set is full. -/
def Copy.rivalsIn (x : Copy) (cs : List Copy) : List Copy := cs.filter fun d => !x.same d && x.rivals d

theorem Copy.rivalsIn_eq (x : Copy) (cs : List Copy) : (cs.filter fun c => !x.same c).filter x.rivals = x.rivalsIn cs := by
  rw [List.filter_filter, Copy.rivalsIn]
  exact List.filter_congr fun c _ => Bool.and_comm _ _

/-- The places of a set that a copy's class has (R115). -/
def Copy.places (x : Copy) : Nat := if x.cls = .instruction then 512 else 12

theorem Copy.places_eq (x : Copy) : (if x.cls == .instruction then Config.icacheLines else Config.l1Ways) = x.places :=
  ite_congr (by simp) (fun _ => rfl) fun _ => rfl

theorem putCopy_room (h : (x.rivalsIn cs).length < x.places) : d ∈ putCopy x cs ↔ d = x ∨ d ∈ cs ∧ ¬ x.same d = true := by
  have hput : putCopy x cs = (cs.filter fun c => !x.same c) ++ [x] := by
    rw [putCopy, Copy.rivalsIn_eq, x.places_eq]
    split
    · rw [if_pos h]
    · rfl
  simp [hput, or_comm]

theorem putCopy_full {r : Copy} {rs : List Copy} (hr : x.rivalsIn cs = r :: rs) (h : x.places ≤ (x.rivalsIn cs).length) :
    d ∈ putCopy x cs ↔ d = x ∨ d ∈ cs ∧ ¬ x.same d = true ∧ r.same d = false := by
  have hput : putCopy x cs = ((cs.filter fun c => !x.same c).filter fun c => !r.same c) ++ [x] := by
    rw [putCopy, Copy.rivalsIn_eq, x.places_eq, hr]
    dsimp only
    rw [← hr, if_neg (Nat.not_lt.mpr h)]
  simp [hput, or_comm, and_comm]

end
end Sys2Proof.Machine
end

section
namespace Sys2Proof.Machine
open Sys2Proof.Safety

/-! ### FILL and DROP (R98, R99, R106, R109, R115, R265) -/

section
variable {s : State} {core : Nat} {cls : PathClass} {ctx : Nat} {va : DWord}

theorem execFill_waits (h : s.homeReady ctx (noPath va) = false ∨ ¬ s.keyedFor (dieOfCore core) ctx va = true
    ∨ s.coreMayAsk core ctx none .load va = false) : execFill core cls ctx va s = .next s := by
  unfold execFill
  rw [if_neg (by obtain h | h | h := h <;> simp [h])]
  rfl

theorem execFill_eq (hhome : s.homeReady ctx (noPath va) = true) (hkey : s.keyedFor (dieOfCore core) ctx va = true)
    (hask : s.coreMayAsk core ctx none .load va = true) :
    execFill core cls ctx va s = .next ((s.coreAsk core ctx none .load va).fill core cls ctx va) := by
  unfold execFill
  rw [if_pos (by simp [hhome, hkey, hask])]

section
variable {lease : Option Word} {a : Access} {x : Entry} (hx : x ∈ s.ents)
include hx

/-- A core that holds a packet injects no other (R98). -/
theorem State.coreMayAsk_held (hcore : x.ag.core = core) (hinject : s.toInject x = true) :
    s.coreMayAsk core ctx lease a va = false := by
  have hany : (s.ents.any fun e => e.ag.core == core && s.toInject e) = true := List.any_eq_true.mpr ⟨x, hx, by simp [hcore, hinject]⟩
  rw [State.coreMayAsk, State.mayInject, hany, Bool.not_true]
  simp only [Bool.false_and]

/-- An earlier packet of the core for the same remote line goes first (R109). -/
theorem State.coreMayAsk_behind (hnode : nodeOf va ≠ s.node.toNat) (hpath : translated x.path = true) (hresp : x.resp = .none)
    (hinj : x.inj ≠ none) (hcore : x.ag.core = core) (hline : lineOf (noPath x.line) = lineOf (noPath va)) :
    s.coreMayAsk core ctx lease a va = false := by
  have hany : (s.ents.any fun x => translated x.path && x.resp == .none && x.inj.isSome && x.ag.core == core
      && lineOf (noPath x.line) == lineOf (noPath va)) = true :=
    List.any_eq_true.mpr ⟨x, hx, by simp [hpath, hresp, hcore, hline, Option.isSome_iff_ne_none, hinj]⟩
  rw [State.coreMayAsk, hany, beq_eq_false_iff_ne.mpr hnode, Bool.not_true, Bool.or_false, Bool.and_false]

/-- An earlier reply of the home to the cluster lands first (R99). -/
theorem State.coreMayAsk_reply {f : Fail} {tick : Nat} (hresp : x.resp = .bad f tick) (hpath : translated x.path = true)
    (hcluster : x.ag.core / 8 = core / 8) (howner : ownerOf x.line = ownerOf va) (hslice : sliceOf x.line = sliceOf va) :
    s.coreMayAsk core ctx lease a va = false := by
  have hwriter : x.writer = clusterOfCore core := hcluster
  have hsent : x.sentAt = some tick := by rw [Entry.sentAt, hresp]
  have hroute : x.routeOf (clusterOfCore core) va = true := by simp [Entry.routeOf, howner, hslice, hwriter, hpath]
  have hreply : s.replyNow (clusterOfCore core) va = false := by
    rw [State.replyNow, Bool.not_eq_false', List.any_eq_true]
    exact ⟨x, hx, by simp [hwriter, hsent, hpath, hroute]⟩
  rw [State.coreMayAsk, hreply, Bool.and_false, Bool.false_and, Bool.false_and]

end

theorem State.leaveFor_copies (s : State) (gate node : Nat) (va : DWord) (payload : Nat) :
    (s.leaveFor gate node va payload).copies = s.copies := by
  obtain ⟨ls, ts, h⟩ := s.leaveFor_traffic gate node va payload
  rw [h]
  rfl

theorem State.coreAsk_copies (lease : Option Word) (a : Access) : (s.coreAsk core ctx lease a va).copies = s.copies := by
  show (State.cross _ _ _ _ _ _ _).copies = _
  rw [State.cross, State.leaveFor_copies, State.leave, State.leaveFor_copies]
  rfl

theorem State.fill_error {f : FaultKind × Cause} (h : (s.ownerLook ctx none .load (lineOf (noPath va))).1 = .error f) :
    s.fill core cls ctx va = s := by
  unfold State.fill
  dsimp only
  generalize s.ownerLook _ _ _ _ = r at h
  obtain ⟨o, t⟩ := r
  obtain rfl : o = .error f := h
  rfl

/-- The new copy of a line that its home can read takes its place among the core's. -/
theorem State.fill_copies {k : Nat} {l : Leaf} {bs : List Byte} (hlook : (s.ownerLook ctx none .load (lineOf (noPath va))).1 = .ok (k, l))
    (hread : ((s.ownerLook ctx none .load (lineOf (noPath va))).2.homeRead ctx (lineOf (noPath va)) k 128).1 = some bs)
    (hcls : cls ≠ .compressed) :
    ∃ vers, (s.fill core cls ctx va).copies = putCopy ⟨core, cls, ctx, lineOf (noPath va), bs, vers⟩ s.copies := by
  have hstep := s.ownerLook_readStep ctx none .load (lineOf (noPath va))
  unfold State.fill
  dsimp only
  generalize s.ownerLook _ _ _ _ = r at hlook hread hstep
  obtain ⟨o, t⟩ := r
  obtain rfl : o = .ok (k, l) := hlook
  have hhome := t.homeRead_readStep ctx (lineOf (noPath va)) k 128
  dsimp only at hread ⊢
  generalize t.homeRead _ _ _ _ = r at hread hhome
  obtain ⟨o, u⟩ := r
  obtain rfl : o = some bs := hread
  have hcopies : u.copies = s.copies := by
    have hframe : u = { s with lines := u.lines, dies := u.dies } := (hstep.trans hhome).frame
    rw [hframe]
  dsimp only
  rw [if_neg (by simpa using hcls), hcopies]
  exact ⟨_, rfl⟩

end
end Sys2Proof.Machine

namespace Sys2Proof.Proofs
open Sys2Proof.Machine Sys2Proof.Safety

/-- The checks of a request at its owner, in their order. -/
theorem ownerChecks (s : State) (ctx : Nat) (lease : Option Word) (a : Access) (va : DWord) :
    let r := (s.ownerCheck ctx lease a va).1
    let t := (s.ownerCheck ctx lease a va).2
    t.mem = s.mem ∧ t.ents = s.ents ∧ t.groups = s.groups
    ∧ (¬s.Leased lease a va → r = .error (.lease, .none))
    ∧ (s.Leased lease a va → ∀ c, (s.walk ctx va).1 = .error c → r = .error (.perm, c))
    ∧ (s.Leased lease a va → ∀ l : Leaf, (s.walk ctx va).1 = .ok l →
      (l.w = false → a = .store ∨ a = .engineWrite ∨ a = .atomic → r = .error (.perm, .write))
      ∧ (l.x = false → a = .fetch → r = .error (.perm, .execute))
      ∧ (l.w = true → a = .atomic → l.tier = 3 → l.state ≠ 1 → l.rap = false → r = .error (.perm, .atomic))
      ∧ (a = .load → l.state = 2 → r = .error (.poison, .none))
      ∧ (a = .load → l.state ≠ 2 → r =
        if s.keyOn (ownerOf va) ctx then .ok (l.keyOf (ownerOf va) (localOf va), l) else .error (.poison, .none))
      ∧ (l.w = true → a = .store → l.state ≠ 2 → s.keyOn (ownerOf va) ctx = true →
        r = .ok (l.keyOf (ownerOf va) (localOf va), l))) := by
  intro r t
  have hstep : OwnerStep s t := s.ownerCheck_ownerStep ctx lease a va
  refine ⟨hstep.mem, hstep.ents, hstep.groups, fun h => State.ownerCheck_error (State.leafFor_unleased h),
    fun h c hw => State.ownerCheck_error (State.leafFor_unmapped h hw), fun h l hw => ⟨fun hl ha => ?_, ?_, ?_, ?_, ?_, ?_⟩⟩
  · exact State.ownerCheck_refused h hw (leafCheck_unwritable hl ha)
  · rintro hx rfl
    exact State.ownerCheck_refused h hw (leafCheck_unfetchable hx)
  · rintro hl rfl htier hstate hrap
    exact State.ownerCheck_refused h hw (leafCheck_mirrorAtomic hl htier hstate hrap)
  · rintro rfl hstate
    exact State.ownerCheck_refused h hw (by rw [leafCheck_load, if_pos hstate])
  · rintro rfl hstate
    exact (State.ownerCheck_allowed h hw (by rw [leafCheck_load, if_neg hstate])).trans (State.keyCheck_plain (by decide) l)
  · rintro hl rfl hstate hkey
    refine (State.ownerCheck_allowed h hw (leafCheck_store hl hstate)).trans ((State.keyCheck_plain (by decide) l).trans ?_)
    rw [hkey, if_pos rfl]

/-- A request that its owner answers: the answer is kept with the entry, and no byte changes. -/
theorem requestAnswered {s : State} {id : Nat} {e : Entry} (hent : s.ent id = some e) (hok : s.requestOk e = true)
    (hk : e.kind ∉ [.heatr, .hint, .save, .saveRead]) :
    ∃ t r, exec (.requestAtOwner id) s = .next t ∧ SameBytes s t ∧ t.groups = s.groups
      ∧ Tab.get 127 t.served (s.channelOf e) = e.ag.core / 8
      ∧ t.ents = s.ents.map (fun x => if x.id = id then { e with resp := r } else x)
      ∧ (∀ k l, (s.ownerCheck e.ctx (some e.launch) e.access (noPath e.line)).1 = .ok (k, l) → r = .ok k t.tick)
      ∧ (∀ k c, (s.ownerCheck e.ctx (some e.launch) e.access (noPath e.line)).1 = .error (k, c) →
        r = .bad ⟨k, c, (e.parts.head?.map (·.addr)).getD 0⟩ t.tick) := by
  have hkind : e.kind ≠ .save ∧ e.kind ≠ .saveRead := by
    simp only [List.mem_cons, List.not_mem_nil, or_false, not_or] at hk
    exact hk.2.2
  have hlease := Entry.lease_of_kind hkind.1 hkind.2
  have hrun := execRequestAtOwner_answer hent hok hk
  rw [State.answer_eq] at hrun
  refine ⟨_, e.replyFor (s.verdict e) (s.looked e).tick, hrun, fun k => ?_, s.looked_groups e, ?_, ?_, fun k l hv => ?_,
    fun k c hv => ?_⟩
  · show (s.looked e).mem.read k = _
    rw [s.looked_mem e]
  · show Tab.get 127 (s.looked e).served _ = _
    rw [s.looked_served e, Tab.get_put_same]
    rfl
  · show (s.looked e).ents.map _ = _
    rw [s.looked_ents e]
    refine List.map_congr_left fun x _ => ?_
    exact ite_congr (by simp [State.ent_id hent]) (fun _ => rfl) fun _ => rfl
  · have hverdict : s.verdict e = .ok (k, l) := by rw [State.verdict, hlease]; exact hv
    rw [hverdict]
    rfl
  · have hverdict : s.verdict e = .error (k, c) := by rw [State.verdict, hlease]; exact hv
    rw [hverdict]
    rfl

/-- A write of the save path to an image that its owner refuses: the packet is gone, and an eviction is abandoned. -/
theorem saveRefused {s : State} {id : Nat} {e : Entry} (hent : s.ent id = some e) (hok : s.requestOk e = true) (hk : e.kind = .save)
    {f : FaultKind × Cause} (hf : s.verdict e = .error f) (hop : e.op = 0) :
    ∃ t, exec (.requestAtOwner id) s = .next t ∧ SameBytes s t ∧ (∀ x, x ∈ t.ents ↔ x ∈ s.ents ∧ x.id ≠ id)
      ∧ t.stateOn e.ctx e.ag.core = if s.stateOn e.ctx e.ag.core = .evicting then .preempted else s.stateOn e.ctx e.ag.core := by
  have hrun := execRequestAtOwner_save hent hok hk
  rw [State.deliver_error hf] at hrun
  obtain ⟨hmem, hents, hstate⟩ := State.saveDone_failed (s := (s.looked e).dropFloors e.id) hop
  refine ⟨_, hrun, fun k => ?_, fun x => ?_, ?_⟩
  · rw [hmem]
    show (s.looked e).mem.read k = _
    rw [s.looked_mem e]
  · rw [hents, State.ent_id hent, State.mem_dropEnt]
    show x ∈ (s.looked e).ents ∧ _ ↔ _
    rw [s.looked_ents e]
  · have hon : ((s.looked e).dropFloors e.id).stateOn e.ctx e.ag.core = s.stateOn e.ctx e.ag.core := by
      show (Tab.get _ (s.looked e).ctxCores _).state = _
      rw [s.looked_ctxCores e]
      rfl
    rw [hstate, hon]

/-- A write of the save path that its home has taken: the packet is gone, its bytes are there, and a fault record's frame is in FREC. -/
theorem saveWritten {s t : State} {id : Nat} {e : Entry} {K : Nat} {bs : List Byte} (hent : s.ent id = some e)
    (hok : s.requestOk e = true) (hk : e.kind = .save) (hdeliver : s.deliver e = t.saveDone e true) (hents : t.ents = s.ents)
    (hgroups : t.groups = s.groups) (hmem : t.mem = s.mem.writeN K bs) :
    ∃ u : State, exec (.requestAtOwner id) s = .next (if e.op = 2 then u.postNotice e.ctx e.line else u)
      ∧ (∀ x, x ∈ u.ents ↔ x ∈ s.ents ∧ x.id ≠ id)
      ∧ (∀ i, i < bs.length → u.mem.read (K + i) = bs.getD i 0)
      ∧ (∀ k, k < K ∨ K + bs.length ≤ k → u.mem.read k = s.mem.read k)
      ∧ (e.op = 0 → u.groups = s.groups)
      ∧ (0 < e.op → (s.group e.ag.core e.ag.slot).live = true → (s.group e.ag.core e.ag.slot).tag = e.tag →
        u.group e.ag.core e.ag.slot = { s.group e.ag.core e.ag.slot with frec := e.line }) := by
  have hrun := execRequestAtOwner_save hent hok hk
  rw [hdeliver, State.saveDone_written] at hrun
  have hbytes : (t.noted e).mem = s.mem.writeN K bs := by rw [State.noted_mem, hmem]
  have hgroup : t.group e.ag.core e.ag.slot = s.group e.ag.core e.ag.slot := by rw [State.group, hgroups, State.group]
  refine ⟨t.noted e, hrun, fun x => ?_, fun i hi => ?_, fun k hout => ?_, fun hop => ?_, fun hop hlive htagged => ?_⟩
  · rw [State.noted_ents, State.ent_id hent, State.mem_dropEnt, hents]
  · rw [hbytes, Memory.read_writeN_in _ _ _ hi, List.getD_eq_getElem?_getD, List.getElem?_eq_getElem hi]
    rfl
  · rw [hbytes, Memory.read_writeN_out _ _ _ hout]
  · rw [State.noted_image hop, hgroups]
  · rw [State.noted_record hop (by rw [hgroup]; exact hlive) (by rw [hgroup]; exact htagged), hgroup]

/-- Settles O37: a request by the order of its channel, the checks at its owner, and its kind; FILL and DROP by the copies that
they leave. -/
theorem fieldRequests : Obligations.FieldRequests := by
  refine ⟨ownerChecks, fun s id e hent => ⟨execRequestAtOwner_waits hent, fun x hx hid hchan hserve fx nx fe ne hfx hfe => ?order,
    fun hok hk => ?hint, fun hok hk _ => requestAnswered hent hok hk, fun hk => ?read, fun hk => ?save⟩, ?copies⟩
  case order =>
    intro gap
    refine ⟨fun hne hle => ?_, fun heq hw hgap => ?_, fun heq hw hlt => ?_⟩
    · exact State.requestOk_goesFirst hx hid hchan hserve (State.goesFirst_older hfx hfe hne hle)
    · exact State.requestOk_goesFirst hx hid hchan hserve (State.goesFirst_nearer hfx hfe heq hw hgap)
    · exact State.requestOk_goesFirst hx hid hchan hserve (State.goesFirst_before hfx hfe heq hw hlt)
  case hint =>
    obtain ⟨hmem, hgroups, hents, hdies⟩ := s.hintArrives_frame e
    refine ⟨_, execRequestAtOwner_hint hent hok hk, fun k => by rw [hmem], hgroups, fun x => ?_, ?_, fun j hj => ?_⟩
    · rw [hents, State.ent_id hent]
      exact State.mem_dropEnt s id x
    · rw [hdies, if_pos rfl]
      rfl
    · rw [hdies, if_neg (Ne.symm hj)]
  case read =>
    refine ⟨execRequestAtOwner_saveRead_waits hent hk, fun hok hn => ?_⟩
    obtain ⟨hmem, hgroups, hents⟩ := s.saveLook_frame e
    refine ⟨_, execRequestAtOwner_saveRead hent hok hk hn, fun k => by rw [hmem], hgroups, fun x => ?_⟩
    rw [hents, State.ent_id hent]
    exact State.mem_dropEnt s id x
  case save =>
    have hlook : s.verdict e = (s.ownerCheck e.ctx none .store (noPath e.line)).1 := by
      have hlease : e.lease = none := by simp [Entry.lease, hk]
      have haccess : e.access = .store := by simp [Entry.access, hk]
      rw [State.verdict, hlease, haccess]
    intro core g look
    refine ⟨fun x hx hcore hctx hline hfirst => ?_, fun hok _ => ⟨fun f hf => saveRefused hent hok hk (hlook.trans hf), ?_⟩⟩
    · have hsame : x.sameLine e = true := by simp [Entry.sameLine, hcore, hctx, hline, core]
      exact execRequestAtOwner_waits hent (.inl (State.requestOk_save hk hx hsame hfirst))
    · intro key l p hok' hparts hkey haligned hfit hline hpos hlen hpath htransit hreach hexp hpoison htag K
      obtain ⟨t, hdeliver, hents, hgroups, hmem⟩ := State.deliver_written (hlook.trans hok') hparts hkey haligned hfit hline hpos hlen
        hpath htransit hreach hexp hpoison (by simpa using htag)
      have hwritten := saveWritten hent hok hk hdeliver hents hgroups hmem
      rw [hlen] at hwritten
      exact hwritten
  case copies =>
    intro s core cls ctx va line mine
    refine ⟨⟨_, rfl, rfl, fun c => ?_⟩, ?_⟩
    · have hmine : (c.core == core && c.cls == cls && c.ctx == ctx && c.line == lineOf (noPath va)) = true ↔ mine c := by
        simp [mine, line, and_assoc]
      refine List.mem_filter.trans (and_congr_right fun _ => ?_)
      rw [← hmine, Bool.not_eq_true', Bool.not_eq_true]
    intro keyed home
    have hkeyed : s.keyedFor (dieOfCore core) ctx va = true ↔ keyed := State.keyedFor_iff
    have hbusy : s.coreMayAsk core ctx none .load va = false → Waits (.fill core cls ctx va) s := fun h => execFill_waits (.inr (.inr h))
    refine ⟨fun h => execFill_waits (h.imp_right (Or.imp_left (mt hkeyed.mp))),
      fun x hx hcore hinject => hbusy (State.coreMayAsk_held hx hcore hinject),
      fun x hx hnode hpath hresp hinj hcore hline => hbusy (State.coreMayAsk_behind hx hnode hpath hresp hinj hcore hline),
      fun x hx f tick hresp hpath hcluster hhome => hbusy (State.coreMayAsk_reply hx hresp hpath hcluster hhome.1 hhome.2),
      fun hhome hk hask => ?_⟩
    have hstep : FetchStep s ((s.coreAsk core ctx none .load va).fill core cls ctx va) :=
      (s.coreAsk_fetchStep core ctx none .load va).trans (State.fill_fetchStep _ core cls ctx va)
    refine ⟨_, execFill_eq hhome (hkeyed.mpr hk) hask, fun k => by rw [hstep.mem], hstep.groups, hstep.ents, ?_⟩
    intro u c0 rivals places
    refine ⟨fun ⟨f, hf⟩ => State.fill_error hf, fun k l bs hlook hread hcls => ?_⟩
    obtain ⟨vers, hcopies⟩ := State.fill_copies hlook hread hcls
    rw [State.coreAsk_copies] at hcopies
    have hmine : ∀ d, mine d ↔ Copy.same ⟨core, cls, ctx, line, bs, vers⟩ d = true :=
      fun d => (Copy.same_iff ⟨core, cls, ctx, line, bs, vers⟩ d).symm
    refine ⟨⟨core, cls, ctx, line, bs, vers⟩, ⟨rfl, rfl, rfl, rfl⟩, rfl, fun hroom d => ?_, fun r rs hr hfull d => ?_⟩
    · rw [hcopies, hmine]
      exact putCopy_room hroom
    · rw [hcopies, hmine]
      exact putCopy_full hr hfull

end Sys2Proof.Proofs
end

section
namespace Sys2Proof.Machine
open Sys2Proof.Safety

/-! ### The machine after reset: empty tables answer their defaults (log 4) -/

theorem State.reset_core (core : Nat) : State.reset.core core = Core.empty := rfl
theorem State.reset_line (k : Nat) : State.reset.line k = LineMeta.empty := rfl
theorem State.reset_group (core slot : Nat) : State.reset.group core slot = Group.empty := rfl
theorem State.reset_stateOn (ctx core : Nat) : State.reset.stateOn ctx core = .absent := rfl

theorem State.reset_raw64 (key : Nat) : State.reset.raw64 key = 0 := by
  have hbytes : State.reset.mem.readN key 8 = List.replicate 8 0 := rfl
  rw [State.raw64, hbytes]
  rfl

/-- No context's key is loaded: every word of the context tables reads 0 (R44, R361). -/
theorem State.reset_keyOn (di ctx : Nat) : State.reset.keyOn di ctx = false := by
  rw [State.keyOn, State.ctxWord, State.reset_raw64, State.reset_raw64]
  rfl

/-! #### The registers of a die, of a core and of a context (R93, R98, R100, R139, R146, R309) -/

/-- The translation block's registers that log 4 names, and the lease and expander registers, read 0. -/
theorem State.reset_dieReg {i : Nat} (hi : i ∈ [2, 3, 4, 13, 14, 15, 16, 17, 18, 19]) : State.reset.dieReg Die.empty i = 0 := by
  simp only [List.mem_cons, List.not_mem_nil, or_false] at hi
  obtain rfl | rfl | rfl | rfl | rfl | rfl | rfl | rfl | rfl | rfl := hi <;> rfl

theorem Die.empty_txstat : transitReg Die.empty 0 = 0 := by decide
theorem Die.empty_txquota : transitReg Die.empty 1 = 4096 := rfl
theorem Die.empty_txdecay : transitReg Die.empty 2 = 65536 := rfl

/-- The Transit block's registers beside TXSTAT, TXQUOTA and TXDECAY read 0. -/
theorem Die.empty_transitReg {i : Nat} (h3 : 3 ≤ i) (h16 : i < 16) : transitReg Die.empty i = 0 := by
  interval_cases i <;> rfl

/-- A ring that nothing has touched is calibrated, but reads as unlocked until Chainline is ready (R100; log 17). -/
theorem State.reset_rngstat : State.reset.chainReg Die.empty 3 = 0 := rfl
theorem State.reset_rngloop : State.reset.chainReg Die.empty 4 = 2 ^ 16 + 18000 := by decide

theorem State.reset_escUsed (core : Nat) : State.reset.escUsed core = 0 := rfl
theorem State.reset_rowsOf (core cslot : Nat) : State.reset.rowsOf core cslot = 0 := rfl
theorem State.reset_abroadOf (core cslot : Nat) : State.reset.abroadOf core cslot = 0 := rfl

theorem State.reset_coreReg_lim (core : Nat) : State.reset.coreReg core 0 = 240 := by
  rw [State.coreReg, State.reset_core]
  rfl

theorem State.reset_coreReg_escape (core : Nat) : State.reset.coreReg core 5 = 512 := by
  rw [State.coreReg, State.reset_core, State.reset_escUsed]
  rfl

/-- No row of a core is in use, at home or abroad. -/
theorem State.reset_coreReg_rows (core : Nat) {i : Nat} (hi : i ∈ [1, 2, 3, 4]) : State.reset.coreReg core i = 0 := by
  simp only [List.mem_cons, List.not_mem_nil, or_false] at hi
  obtain rfl | rfl | rfl | rfl := hi <;> simp [State.coreReg, State.reset_rowsOf, State.reset_abroadOf]

theorem State.reset_eventReg {i : Nat} (hi : i < 6) : State.reset.eventReg i = 0 := by
  interval_cases i <;> rfl

/-! #### Quotas and power (R98, R353, R364) -/

/-- Both forms' thermal design power is below 2^64 W (R1). -/
theorem tdp_lt : Config.tdp < 2 ^ 64 := by
  unfold Config.tdp
  split <;> decide

theorem State.reset_quota (i : Nat) : State.reset.quota i = if i < 256 then 256 else if i < 288 then 512 else 4096 := rfl

theorem State.reset_powerReg {i v : Nat}
    (hi : (i, v) ∈ [(0, 40 * 65536 + 40), (1, Config.tdp), (5, 0), (7, 0), (8, 0), (9, 0), (10, 0), (11, 0)]) :
    (State.reset.powerReg i).toNat = v := by
  simp only [List.mem_cons, Prod.mk.injEq, List.not_mem_nil, or_false] at hi
  obtain ⟨rfl, rfl⟩ | ⟨rfl, rfl⟩ | ⟨rfl, rfl⟩ | ⟨rfl, rfl⟩ | ⟨rfl, rfl⟩ | ⟨rfl, rfl⟩ | ⟨rfl, rfl⟩ | ⟨rfl, rfl⟩ := hi
  case inr.inl => exact Nat.mod_eq_of_lt tdp_lt
  all_goals rfl

end Sys2Proof.Machine

namespace Sys2Proof.Proofs
open Sys2Proof.Machine Sys2Proof.Safety

/-- Settles O59: the tables of the machine after reset are empty, so each register has the value of its die, core or context at reset. -/
theorem resetState : Obligations.ResetState := by
  refine ⟨rfl, fun _ => rfl,
    fun k => ⟨congrArg LineMeta.written (State.reset_line k), congrArg LineMeta.poison (State.reset_line k)⟩,
    fun core slot => congrArg Group.live (State.reset_group core slot), rfl, rfl, rfl, rfl, rfl, rfl, State.reset_stateOn,
    fun ctx die => State.reset_keyOn die ctx, fun die _ => ?die, fun i _ => ⟨State.reset_quota i, rfl, rfl⟩, fun i hi => ?events,
    fun core => ?cores, fun _ => ⟨rfl, rfl⟩, fun i v => State.reset_powerReg, rfl⟩
  case die =>
    refine ⟨fun i hi => congrArg BitVec.toNat (State.reset_dieReg hi), congrArg BitVec.toNat Die.empty_txstat,
      congrArg BitVec.toNat Die.empty_txquota, congrArg BitVec.toNat Die.empty_txdecay,
      fun i h3 h16 => congrArg BitVec.toNat (Die.empty_transitReg h3 h16), fun _ => rfl, rfl, congrArg BitVec.toNat State.reset_rngstat,
      congrArg BitVec.toNat State.reset_rngloop, rfl, rfl⟩
  case events => exact congrArg BitVec.toNat (State.reset_eventReg hi)
  case cores =>
    have hrows {i : Nat} (hi : i ∈ [1, 2, 3, 4]) := congrArg BitVec.toNat (State.reset_coreReg_rows core hi)
    exact ⟨congrArg BitVec.toNat (State.reset_coreReg_lim core), hrows (i := 1) (by decide), hrows (i := 2) (by decide), hrows (i := 3) (by decide),
      hrows (i := 4) (by decide), congrArg BitVec.toNat (State.reset_coreReg_escape core)⟩

end Sys2Proof.Proofs
end

section
namespace Sys2Proof.Machine
open Sys2Proof.Safety

/-! ### What bears on a walk of the tables as memory holds them (R44-R48, R57, R74) -/

/-- What a walk asks of a transit record: the page that it moves (R48). -/
def TransitRec.page (r : TransitRec) : DWord × Nat × Nat := (r.va, r.size, r.ctx)

/-- Nothing that a walk reads differs, but for what the TLBs hold. -/
structure SameTables (s t : State) : Prop where
  mem    : t.mem = s.mem
  tick   : t.tick = s.tick
  node   : t.node = s.node
  domain : t.domain = s.domain
  mtctx  : ∀ j, (t.die j).mtctx = (s.die j).mtctx
  cxrng  : ∀ j, (t.die j).cxrng = (s.die j).cxrng
  page   : ∀ j tid, (t.rec_ j tid).map TransitRec.page = (s.rec_ j tid).map TransitRec.page

theorem State.rec_congr {s t : State} {di : Nat} (h : (t.die di).recs = (s.die di).recs) (tid : Nat) : t.rec_ di tid = s.rec_ di tid := by
  rw [State.rec_, h, State.rec_]

theorem State.die_modDie (s : State) (di j : Nat) (f : Die → Die) :
    (s.modDie di f).die j = if di = j then f (s.die di) else s.die j := s.die_setDie di j _

@[simp] theorem State.die_modDie_same (s : State) (di : Nat) (f : Die → Die) : (s.modDie di f).die di = f (s.die di) := by
  rw [State.die_modDie, if_pos rfl]

namespace SameTables

theorem symm {s t : State} (h : SameTables s t) : SameTables t s :=
  ⟨h.mem.symm, h.tick.symm, h.node.symm, h.domain.symm, fun j => (h.mtctx j).symm, fun j => (h.cxrng j).symm,
    fun j tid => (h.page j tid).symm⟩

theorem trans {s t u : State} (h : SameTables s t) (k : SameTables t u) : SameTables s u :=
  ⟨k.mem.trans h.mem, k.tick.trans h.tick, k.node.trans h.node, k.domain.trans h.domain,
    fun j => (k.mtctx j).trans (h.mtctx j), fun j => (k.cxrng j).trans (h.cxrng j), fun j tid => (k.page j tid).trans (h.page j tid)⟩

/-- A check at an owner leaves the tables alone. -/
theorem of_ownerStep {s t : State} (h : OwnerStep s t) : SameTables s t :=
  ⟨h.mem, h.tick, h.node, by rw [h.frame], h.mtctx, fun j => by rw [h.dies j]; rfl,
    fun j tid => by rw [State.rec_congr (h.recs j) tid]⟩

/-- A change of a die that keeps where its tables and its expanders lie, and the pages that its records move. -/
theorem of_modDie {s : State} {di : Nat} {f : Die → Die} (hctx : (f (s.die di)).mtctx = (s.die di).mtctx)
    (hrng : (f (s.die di)).cxrng = (s.die di).cxrng)
    (hpage : ∀ tid, ((s.modDie di f).rec_ di tid).map TransitRec.page = (s.rec_ di tid).map TransitRec.page) :
    SameTables s (s.modDie di f) := by
  have hdie (j : Nat) : di = j ∨ (s.modDie di f).die j = s.die j := by
    by_cases hj : di = j
    · exact .inl hj
    · exact .inr (by rw [State.die_modDie, if_neg hj])
  refine ⟨rfl, rfl, rfl, rfl, fun j => ?_, fun j => ?_, fun j tid => ?_⟩
  · obtain rfl | hj := hdie j
    · rw [State.die_modDie_same, hctx]
    · rw [hj]
  · obtain rfl | hj := hdie j
    · rw [State.die_modDie_same, hrng]
    · rw [hj]
  · obtain rfl | hj := hdie j
    · exact hpage tid
    · rw [State.rec_congr (congrArg Die.recs hj) tid]

theorem of_modDie_recs {s : State} {di : Nat} {f : Die → Die} (hctx : (f (s.die di)).mtctx = (s.die di).mtctx)
    (hrng : (f (s.die di)).cxrng = (s.die di).cxrng) (hrecs : (f (s.die di)).recs = (s.die di).recs) :
    SameTables s (s.modDie di f) :=
  of_modDie hctx hrng fun tid => by rw [State.rec_congr (s := s) (by rw [State.die_modDie_same, hrecs]) tid]

section
variable {s t : State} (h : SameTables s t)
include h

theorem raw64 (key : Nat) : t.raw64 key = s.raw64 key := by rw [State.raw64, h.mem, State.raw64]

theorem expander (di pa n : Nat) : t.expander di pa n = s.expander di pa n := by rw [State.expander, h.cxrng, State.expander]

theorem badLeaf (di ctx : Nat) (va : DWord) (lv : Level) (l : Leaf) : t.badLeaf di ctx va lv l = s.badLeaf di ctx va lv l := by
  have hpage := h.page di l.tid
  unfold State.rec_ at hpage
  unfold State.badLeaf State.populated
  rw [h.node, h.domain, h.expander]
  generalize (t.die di).recs.find? (fun p => p.1 == l.tid) = x at hpage ⊢
  generalize (s.die di).recs.find? (fun p => p.1 == l.tid) = y at hpage ⊢
  obtain _ | ⟨i, q⟩ := x
  · obtain _ | ⟨j, r⟩ := y
    · rfl
    · cases hpage
  · obtain _ | ⟨j, r⟩ := y
    · cases hpage
    · simp only [Option.map_some, Option.some.injEq, TransitRec.page, Prod.mk.injEq] at hpage
      obtain ⟨hva, hsize, hctx⟩ := hpage
      dsimp only
      rw [hva, hsize, hctx]

theorem ctxEntry (di ctx : Nat) : t.ctxEntry di ctx = s.ctxEntry di ctx := by
  have hkey : t.ctxEntryKey di ctx = s.ctxEntryKey di ctx := by rw [State.ctxEntryKey, h.mtctx, State.ctxEntryKey]
  unfold State.ctxEntry State.ctxWord
  dsimp only
  rw [hkey, h.raw64, h.raw64]

/-- Where the TLBs agree too, a walk meets the same entry at each place, and leaves them so. -/
theorem entryAt {di : Nat} (htlb : (t.die di).tlb = (s.die di).tlb) (ctx lv idx key : Nat) :
    (t.entryAt di ctx lv idx key).1 = (s.entryAt di ctx lv idx key).1
      ∧ ((t.entryAt di ctx lv idx key).2.die di).tlb = ((s.entryAt di ctx lv idx key).2.die di).tlb := by
  unfold State.entryAt
  dsimp only
  rw [htlb, h.raw64, h.tick]
  generalize List.filter _ (List.map _ _) = olds
  split
  all_goals
    dsimp only
    refine ⟨rfl, ?_⟩
    rw [State.die_modDie_same, State.die_modDie_same]
    dsimp only
    rw [htlb]

theorem walkFrom_fst {di : Nat} (htlb : (t.die di).tlb = (s.die di).tlb) (ctx : Nat) (va : DWord) (ls : List Level) (tbl : Nat) :
    (walkFrom di ctx va ls tbl t).1 = (walkFrom di ctx va ls tbl s).1 := by
  induction ls generalizing tbl s t with
  | nil => rfl
  | cons lv ls ih =>
    obtain ⟨hentry, htlb'⟩ := h.entryAt htlb ctx lv.n (localOf va / 2 ^ lv.lo)
      (physKey di 0 (tbl + 8 * (localOf va / 2 ^ lv.lo % 2 ^ lv.w)))
    have hstate := ((of_ownerStep (s.entryAt_ownerStep di ctx lv.n (localOf va / 2 ^ lv.lo)
      (physKey di 0 (tbl + 8 * (localOf va / 2 ^ lv.lo % 2 ^ lv.w))))).symm.trans h).trans
        (of_ownerStep (t.entryAt_ownerStep di ctx lv.n (localOf va / 2 ^ lv.lo)
          (physKey di 0 (tbl + 8 * (localOf va / 2 ^ lv.lo % 2 ^ lv.w)))))
    unfold walkFrom
    dsimp only
    rw [hentry, hstate.badLeaf]
    split_ifs
    · rfl
    · rfl
    · rfl
    · rfl
    · exact ih hstate htlb' _

theorem leafNow (ctx : Nat) (va : DWord) : t.leafNow ctx va = s.leafNow ctx va := by
  have hclear (u : State) : SameTables u (u.modDie (ownerOf va) fun d => { d with tlb := [] }) :=
    of_ownerStep (u.modDie_ownerStep _ fun _ => rfl)
  have k := ((hclear s).symm.trans h).trans (hclear t)
  have hwalk : t.walkNow ctx va = s.walkNow ctx va := by
    unfold State.walkNow State.walk
    dsimp only
    rw [k.ctxEntry]
    split
    · rfl
    · exact k.walkFrom_fst (by rw [State.die_modDie_same, State.die_modDie_same]) _ _ _ _
  rw [State.leafNow, hwalk, State.leafNow]

/-- The leaf of a record is that of every record of its page. -/
theorem recLeaf {r q : TransitRec} (hpage : q.page = r.page) (tid : Nat) : t.recLeaf tid q = s.recLeaf tid r := by
  simp only [TransitRec.page, Prod.mk.injEq] at hpage
  obtain ⟨hva, -, hctx⟩ := hpage
  rw [State.recLeaf, h.leafNow, hva, hctx, State.recLeaf]

end
end SameTables

/-! ### The records of a die (R75, R79) -/

/-- Entries that keep their keys are found where they were. -/
theorem Tab.find?_map {α : Type} {g : Nat × α → Nat × α} (hg : ∀ p, (g p).1 = p.1) (t : Tab α) (k : Nat) :
    (t.map g).find? (fun p => p.1 == k) = (t.find? fun p => p.1 == k).map g := by
  rw [List.find?_map]
  congr 2
  funext p
  rw [Function.comp_apply, hg]

theorem Tab.find?_key {α : Type} {t : Tab α} {k : Nat} {p : Nat × α} (h : t.find? (fun p => p.1 == k) = some p) : p.1 = k := by
  simpa using List.find?_some h

theorem Tab.find?_del {α : Type} (t : Tab α) (k : Nat) : (Tab.del t k).find? (fun p => p.1 == k) = none := by
  simp [Tab.del]

section
variable {s : State} {di tid : Nat} {r : TransitRec}

theorem State.rec_mem (h : s.rec_ di tid = some r) : (tid, r) ∈ (s.die di).recs := by
  obtain ⟨p, hp, rfl⟩ := Option.map_eq_some_iff.mp h
  rw [← Tab.find?_key hp]
  exact List.mem_of_find?_eq_some hp

theorem State.rec_modRec (f : TransitRec → TransitRec) (h : s.rec_ di tid = some r) : (s.modRec di tid f).rec_ di tid = some (f r) := by
  obtain ⟨p, hp, rfl⟩ := Option.map_eq_some_iff.mp h
  have hkey := Tab.find?_key hp
  rw [State.rec_, State.modRec, State.die_modDie_same, Tab.find?_map (fun p => by split <;> rfl), hp]
  simp [hkey]

theorem State.modRec_sameTables {f : TransitRec → TransitRec} (hf : ∀ r, (f r).page = r.page) : SameTables s (s.modRec di tid f) := by
  refine SameTables.of_modDie rfl rfl fun k => ?_
  rw [State.rec_, State.die_modDie_same, Tab.find?_map (fun p => by split <;> rfl), State.rec_]
  cases (s.die di).recs.find? fun p => p.1 == k with
  | none => rfl
  | some p =>
    dsimp only [Option.map_some]
    split
    · rw [hf]
    · rfl

/-- What a move that ends early does to its record and starts (R85, R87). -/
def State.turnBack (s : State) (di tid why ctx : Nat) : State :=
  (s.modRec di tid fun r => { r with state := .aborting, reason := why, sync := true }).recSync di tid ctx

theorem State.recSync_rec (s : State) (di tid ctx k : Nat) : (s.recSync di tid ctx).rec_ di k = s.rec_ di k :=
  State.rec_congr (by rw [State.recSync, State.die_modDie_same]) k

theorem State.turnBack_rec (h : s.rec_ di tid = some r) (why ctx : Nat) :
    (s.turnBack di tid why ctx).rec_ di tid = some { r with state := .aborting, reason := why, sync := true } := by
  rw [State.turnBack, State.recSync_rec, State.rec_modRec _ h]

/-- A die after a step that touched its transit records and its TLBSYNCs alone. -/
def Die.movesOnly (d e : Die) : Prop := e = { d with recs := e.recs, syncs := e.syncs }

theorem State.modRec_movesOnly (s : State) (di tid : Nat) (f : TransitRec → TransitRec) :
    (s.die di).movesOnly ((s.modRec di tid f).die di) := by
  rw [State.modRec, State.die_modDie_same]
  rfl

theorem State.recSync_movesOnly (s : State) (di tid ctx : Nat) : (s.die di).movesOnly ((s.recSync di tid ctx).die di) := by
  rw [State.recSync, State.die_modDie_same]
  rfl

theorem Die.movesOnly.trans {d e g : Die} (h : d.movesOnly e) (k : e.movesOnly g) : d.movesOnly g := by
  unfold Die.movesOnly at *
  rw [k, h]

theorem State.turnBack_movesOnly (s : State) (di tid why ctx : Nat) : (s.die di).movesOnly ((s.turnBack di tid why ctx).die di) :=
  (s.modRec_movesOnly di tid _).trans (State.recSync_movesOnly _ di tid ctx)

theorem State.turnBack_mem (s : State) (di tid why ctx : Nat) : (s.turnBack di tid why ctx).mem = s.mem := by
  rw [State.turnBack, State.recSync_mem, State.modRec_mem]

end

/-! ### Leaves and STATUS words as the engine writes them (R73, R79, R84) -/

/-- A leaf's entry with its TID, frame, STATE and tier replaced. -/
def Leaf.entryWith (l : Leaf) (tid frame state tier : Nat) : DWord :=
  BitVec.ofNat 64 (tid * 2 ^ 52 + frame * 2 ^ 16 + state * 2 ^ 14 + tier * 2 ^ 12 + l.e % 4096)

theorem State.raw64_congr_mem {s t : State} (h : t.mem = s.mem) (key : Nat) : t.raw64 key = s.raw64 key := by
  rw [State.raw64, h, State.raw64]

section
variable (s : State) (l : Leaf) (frame tier state tid : Nat)

theorem State.raw64_writeLeaf : (s.writeLeaf l frame tier state tid).raw64 l.key = l.entryWith tid frame state tier := s.raw64_unitWrite _ _

theorem State.writeLeaf_die (j : Nat) : (s.writeLeaf l frame tier state tid).die j = s.die j := s.unitWrite_die _ _ _

theorem State.writeLeaf_rec (di k : Nat) : (s.writeLeaf l frame tier state tid).rec_ di k = s.rec_ di k :=
  State.rec_congr (congrArg Die.recs (s.writeLeaf_die l frame tier state tid di)) k

end

theorem Memory.readN_congr {m n : Memory} {k c : Nat} (h : ∀ i, i < c → n.read (k + i) = m.read (k + i)) : n.readN k c = m.readN k c :=
  List.map_congr_left fun i hi => h i (List.mem_range.mp hi)

section
variable (s : State) (di slot v : Nat)

theorem State.writeStatus_die (j : Nat) : (s.writeStatus di slot v).die j = s.die j := s.unitWrite_die _ _ _

theorem State.writeStatus_rec (j k : Nat) : (s.writeStatus di slot v).rec_ j k = s.rec_ j k :=
  State.rec_congr (congrArg Die.recs (s.writeStatus_die di slot v j)) k

theorem State.writeStatus_read_out {k : Nat} (h : k < s.moveKey di slot ∨ s.moveKey di slot + 8 ≤ k) :
    (s.writeStatus di slot v).mem.read k = s.mem.read k := s.unitWrite_read_out _ _ (by rwa [length_toBytes])

/-- The STATUS word of a slot is the low 64 bits of what was written. -/
theorem State.writeStatus_word : ofBytes ((s.writeStatus di slot v).mem.readN (s.moveKey di slot) 8) = v % 2 ^ 64 := by
  have h := Memory.readN_writeN s.mem (s.moveKey di slot) (toBytes v 8)
  rw [length_toBytes] at h
  rw [State.writeStatus, State.unitWrite_mem, h, ofBytes_toBytes]
  norm_num

theorem State.raw64_writeStatus {k : Nat} (h : s.moveKey di slot + 8 ≤ k ∨ k + 8 ≤ s.moveKey di slot) :
    (s.writeStatus di slot v).raw64 k = s.raw64 k := by
  rw [State.raw64, Memory.readN_congr fun i hi => s.writeStatus_read_out di slot v (by omega), State.raw64]

end

theorem State.moveKey_congr {s t : State} {di : Nat} (h : (t.die di).txrbase = (s.die di).txrbase) (slot : Nat) :
    t.moveKey di slot = s.moveKey di slot := by
  rw [State.moveKey, h, State.moveKey]

/-! ### A move that is turned back (R85, R87) -/

/-- `t` is `s` with the move of a record turned back: its leaf, where it is still the move's, names the source again. -/
structure TurnedBack (s t : State) (di tid : Nat) (r : TransitRec) (reason : Nat) : Prop where
  record : t.rec_ di tid = some { r with
    state := .aborting, sync := true, reason := if s.recLeaf tid r = none then 4 else reason }
  leaf   : ∀ l, s.recLeaf tid r = some l → t.raw64 l.key = l.entryWith 0 r.srcFrame 0 r.srcTier
  die    : (s.die di).movesOnly (t.die di)

theorem State.abortMove_turnedBack {s : State} {di tid reason : Nat} {r : TransitRec} (hrec : s.rec_ di tid = some r)
    (hcopy : r.state = .copying) (hreason : reason ≠ 2) : TurnedBack s (s.abortMove di tid reason) di tid r reason := by
  unfold State.abortMove
  rw [hrec]
  dsimp only
  rw [if_neg (by simp [hcopy])]
  cases hleaf : s.recLeaf tid r with
  | none =>
    refine ⟨?_, fun l hl => ?_, s.turnBack_movesOnly di tid 4 r.ctx⟩
    · rw [if_pos hleaf]
      exact State.turnBack_rec hrec 4 r.ctx
    · rw [hleaf] at hl
      cases hl
  | some l =>
    dsimp only
    rw [if_neg (by simpa using hreason)]
    refine ⟨?_, fun k hk => ?_, ?_⟩
    · rw [if_neg (by rw [hleaf]; exact Option.some_ne_none l)]
      exact State.turnBack_rec ((s.writeLeaf_rec l _ _ _ _ di tid).trans hrec) reason r.ctx
    · obtain rfl : l = k := Option.some.inj (hleaf.symm.trans hk)
      exact (State.raw64_congr_mem (State.turnBack_mem _ di tid reason r.ctx) _).trans (s.raw64_writeLeaf l r.srcFrame r.srcTier 0 0)
    · have h := (s.writeLeaf l r.srcFrame r.srcTier 0 0).turnBack_movesOnly di tid reason r.ctx
      rwa [State.writeLeaf_die] at h

/-- A record that is not in COPYING is not turned back. -/
theorem State.abortMove_idle {s : State} {di tid reason : Nat} {r : TransitRec} (hrec : s.rec_ di tid = some r)
    (hcopy : r.state ≠ .copying) : s.abortMove di tid reason = s := by
  unfold State.abortMove
  rw [hrec]
  exact if_pos (by simpa using hcopy)

end Sys2Proof.Machine
end

section
namespace Sys2Proof.Machine
open Sys2Proof.Safety

/-! ### Whose turn it is to copy (R75) -/

/-- The oldest of some moves, in order of acceptance. -/
def oldestMove (ms : List TransitRec) : Option TransitRec :=
  ms.foldl (fun a r =>
    match a with
    | none => some r
    | some b => if r.age < b.age then some r else some b) none

/-- The older of two moves, the first where they are of one age. -/
def TransitRec.older (b r : TransitRec) : TransitRec := if r.age < b.age then r else b

theorem oldestMove_cons (b : TransitRec) (ms : List TransitRec) : oldestMove (b :: ms) = some (ms.foldl TransitRec.older b) := by
  have hfold : ∀ (ms : List TransitRec) (b : TransitRec), ms.foldl (fun a r =>
      match a with
      | none => some r
      | some b => if r.age < b.age then some r else some b) (some b) = some (ms.foldl TransitRec.older b) := by
    intro ms
    induction ms with
    | nil => exact fun _ => rfl
    | cons r ms ih =>
      intro b
      rw [List.foldl_cons, List.foldl_cons, ← ih, TransitRec.older]
      dsimp only
      split <;> rfl
  exact hfold ms b

theorem foldl_older (ms : List TransitRec) (b : TransitRec) :
    ms.foldl TransitRec.older b ∈ b :: ms ∧ ∀ r ∈ b :: ms, (ms.foldl TransitRec.older b).age ≤ r.age := by
  induction ms generalizing b with
  | nil => simp
  | cons r ms ih =>
    obtain ⟨hmem, hmin⟩ := ih (b.older r)
    have holder : (b.older r = b ∨ b.older r = r) ∧ (b.older r).age ≤ b.age ∧ (b.older r).age ≤ r.age := by
      unfold TransitRec.older
      split
      · exact ⟨.inr rfl, by omega, by omega⟩
      · exact ⟨.inl rfl, by omega, by omega⟩
    obtain ⟨hpick, hb, hr⟩ := holder
    rw [List.foldl_cons]
    simp only [List.mem_cons, forall_eq_or_imp] at hmem hmin ⊢
    obtain ⟨hhead, htail⟩ := hmin
    refine ⟨?_, by omega, by omega, htail⟩
    obtain hmem | hmem := hmem
    · rw [hmem]
      obtain hpick | hpick := hpick
      · exact .inl hpick
      · exact .inr (.inl hpick)
    · exact .inr (.inr hmem)

/-- The oldest of some moves is one of them, and none of them is older. -/
theorem oldestMove_spec {ms : List TransitRec} (h : ms ≠ []) :
    ∃ b, oldestMove ms = some b ∧ b ∈ ms ∧ ∀ r ∈ ms, b.age ≤ r.age := by
  cases ms with
  | nil => exact absurd rfl h
  | cons b ms => exact ⟨_, oldestMove_cons b ms, foldl_older ms b⟩

/-- The move was accepted after the one that copied last. -/
def Die.later (d : Die) (r : TransitRec) : Bool := (d.copied.map fun n => decide (n < r.age)).getD true

theorem Die.later_congr (d : Die) {r q : TransitRec} (h : q.age = r.age) : d.later q = d.later r := by rw [Die.later, h, Die.later]

theorem Die.copyTurn_eq (d : Die) (can : List TransitRec) :
    d.copyTurn can = (oldestMove (can.filter d.later)).orElse fun _ => oldestMove can := rfl

/-- The turn is that of the oldest move after the one that copied last, or, where there is none, of the oldest. -/
theorem Die.copyTurn_age_iff (d : Die) {can : List TransitRec} {r : TransitRec} (hr : r ∈ can) :
    (d.copyTurn can).map (·.age) = some r.age ↔
      ∀ q ∈ can, (d.later r = d.later q ∧ r.age ≤ q.age) ∨ (d.later r = true ∧ d.later q = false) := by
  rw [Die.copyTurn_eq]
  by_cases hnone : can.filter d.later = []
  · obtain ⟨b, hb, hmem, hmin⟩ := oldestMove_spec (List.ne_nil_of_mem hr)
    have hearly (q : TransitRec) (hq : q ∈ can) : d.later q = false := by simpa using List.filter_eq_nil_iff.mp hnone q hq
    rw [hnone, show oldestMove [] = none from rfl, Option.orElse_none, hb, Option.map_some, Option.some_inj]
    constructor
    · intro hage q hq
      exact .inl ⟨by rw [hearly r hr, hearly q hq], hage ▸ hmin q hq⟩
    · intro h
      obtain ⟨-, hle⟩ | ⟨hlater, -⟩ := h b hmem
      · exact Nat.le_antisymm (hmin r hr) hle
      · rw [hearly r hr] at hlater
        cases hlater
  · obtain ⟨b, hb, hmem, hmin⟩ := oldestMove_spec hnone
    obtain ⟨hcan, hlater⟩ := List.mem_filter.mp hmem
    rw [hb, Option.orElse_some, Option.map_some, Option.some_inj]
    constructor
    · intro hage q hq
      have hlr : d.later r = true := (d.later_congr hage).symm.trans hlater
      cases hlq : d.later q with
      | true => exact .inl ⟨hlr, hage ▸ hmin q (List.mem_filter.mpr ⟨hq, hlq⟩)⟩
      | false => exact .inr ⟨hlr, rfl⟩
    · intro h
      obtain ⟨hlr, hle⟩ | ⟨-, hlb⟩ := h b hcan
      · exact Nat.le_antisymm (hmin r (List.mem_filter.mpr ⟨hr, hlr.trans hlater⟩)) hle
      · rw [hlater] at hlb
        cases hlb

/-! ### When a line may be copied (R75, R79, R92, R96, R97, R358) -/

/-- The address of the line that a move copies next. -/
def TransitRec.nextVa (r : TransitRec) : DWord := r.va + BitVec.ofNat 64 (128 * r.cursor)

/-- The record's next line is copied now: its memory, its turn, the copy quota and its channels allow it. -/
def State.copyFree (s : State) (di : Nat) (r : TransitRec) : Bool :=
  s.canCopy di r && (s.die di).copyQuota 2
  && ((s.die di).copyTurn (((s.die di).recs.map (·.2)).filter (s.canCopy di))).map (·.age) == some r.age && s.copyNext di r

section
variable {s : State} {di tid : Nat} {r : TransitRec}

/-- What COPY_LINE waits for is that its line is not free to be copied. -/
theorem State.copyFree_stop : (!s.canCopy di r || !(s.die di).copyQuota 2
    || ((s.die di).copyTurn (((s.die di).recs.map (·.2)).filter (s.canCopy di))).map (·.age) != some r.age || !s.copyNext di r)
      = !s.copyFree di r := by
  simp only [State.copyFree, Bool.not_and, bne]

theorem State.canCopy_iff : s.canCopy di r = true ↔ r.state = .copying ∧ r.sync = false ∧ (s.die di).mayCopy r = true
    ∧ s.memReady (r.srcKey di r.nextVa) = true ∧ s.memReady (r.dstKey di r.nextVa) = true ∧ s.copyMayLeave di r = true := by
  simp only [State.canCopy, TransitRec.nextVa, Bool.and_eq_true, beq_iff_eq, Bool.not_eq_true', and_assoc]

theorem Die.copyQuota_iff (d : Die) (n : Nat) :
    d.copyQuota n = true ↔ d.txquota ≠ 0 ∧ (d.spent + n ≤ d.txquota ∨ d.spent = 0) := by
  simp [Die.copyQuota]

theorem State.copyFree_iff (hrec : s.rec_ di tid = some r) : s.copyFree di r = true ↔
    s.canCopy di r = true ∧ s.copyNext di r = true
      ∧ (∀ p ∈ (s.die di).recs, s.canCopy di p.2 = true →
        ((s.die di).later r = (s.die di).later p.2 ∧ r.age ≤ p.2.age) ∨ ((s.die di).later r = true ∧ (s.die di).later p.2 = false))
      ∧ (s.die di).txquota ≠ 0 ∧ ((s.die di).spent + 2 ≤ (s.die di).txquota ∨ (s.die di).spent = 0) := by
  by_cases hcan : s.canCopy di r = true
  · have hturn := (s.die di).copyTurn_age_iff (can := ((s.die di).recs.map (·.2)).filter (s.canCopy di)) (r := r)
      (List.mem_filter.mpr ⟨List.mem_map.mpr ⟨_, State.rec_mem hrec, rfl⟩, hcan⟩)
    simp only [List.mem_filter, List.mem_map, and_imp, forall_exists_index, forall_apply_eq_imp_iff₂] at hturn
    simp only [State.copyFree, Bool.and_eq_true, beq_iff_eq, hturn, Die.copyQuota_iff]
    tauto
  · simp [State.copyFree, hcan]

theorem State.copyFree_copying (hrec : s.rec_ di tid = some r) (h : s.copyFree di r = true) : r.state = .copying := by
  obtain ⟨hcan, -⟩ := (State.copyFree_iff hrec).mp h
  exact (State.canCopy_iff.mp hcan).1

/-- A line waits while one of its channels has another packet to serve (R96, R97). -/
theorem State.copyFree_behind (h : s.copyNext di r = false) : ¬ s.copyFree di r = true := by
  rw [State.copyFree, h, Bool.and_false]
  exact Bool.false_ne_true

/-- A request for the home of the next line that could be served, and was injected in another frame, goes before the engine's packets. -/
theorem State.copyNext_behind {x : Entry} (hx : x ∈ s.ents) {f : Word} {n : Nat} (hinj : x.inj = some (f, n)) (hf : f ≠ s.chframe)
    (hnode : nodeOf x.line = s.node.toNat) (hdie : dieOf x.line = dieOf r.nextVa) (hslice : sliceOf x.line = sliceOf r.nextVa)
    (hserve : s.canServe x = true) : s.copyNext di r = false := by
  have hchan : s.channelOf x = homeOf r.nextVa := by
    rw [State.channelOf, State.chanTo, hnode, beq_self_eq_true, if_pos rfl, homeOf, homeOf, hdie, hslice]
  have hahead : s.aheadOfNow (homeOf r.nextVa) (engineWriter (di % 4)) x = true := by simp [State.aheadOfNow, hinj, hf]
  have hnow : s.nowNext (homeOf r.nextVa) (engineWriter (di % 4)) = false := by
    rw [State.nowNext, Bool.not_eq_false', List.any_eq_true]
    exact ⟨x, hx, by simp [hchan, hahead, hserve]⟩
  have hhome : homeOf r.nextVa ∈ s.copyChans di r := by
    unfold State.copyChans
    dsimp only
    split <;> simp [TransitRec.nextVa]
  exact List.all_eq_false.mpr ⟨_, hhome, by simp [hnow]⟩

end

/-! ### What the packets of a line leave (R92, R96, R102) -/

/-- Up to what packets have taken on their way, a line's packets charge the engine's quota and note its move. -/
theorem State.copySend_traffic (s : State) (di : Nat) (r : TransitRec) : ∃ served links turns,
    s.copySend di r = (s.withTraffic served links turns).modDie di fun d => { d with spent := d.spent + 2, copied := some r.age } := by
  have hfold : ∀ (cs : List Nat) (u : State) (w : Nat), ∃ served, cs.foldl (fun s c => s.noteWriter c w) u
      = u.withTraffic served u.links u.turns := by
    intro cs
    induction cs with
    | nil => exact fun u w => ⟨u.served, rfl⟩
    | cons c cs ih =>
      intro u w
      obtain ⟨served, h⟩ := ih (u.noteWriter c w) w
      exact ⟨served, h⟩
  obtain ⟨links, turns, hleave⟩ := s.leaveFor_traffic (di % 4) (s.copyNode di r) r.nextVa 0
  obtain ⟨served, hserved⟩ := hfold (s.copyChans di r) (s.withTraffic s.served links turns) (engineWriter (di % 4))
  refine ⟨served, links, turns, ?_⟩
  unfold State.copySend State.copyLeave
  rw [← TransitRec.nextVa, hleave, hserved]
  rfl

section
variable (s : State) (di : Nat) (r : TransitRec)

theorem State.copySend_die : (s.copySend di r).die di = { s.die di with spent := (s.die di).spent + 2, copied := some r.age } := by
  obtain ⟨served, links, turns, h⟩ := s.copySend_traffic di r
  rw [h, State.die_modDie_same]
  rfl

theorem State.copySend_lines : (s.copySend di r).lines = s.lines := by
  obtain ⟨served, links, turns, h⟩ := s.copySend_traffic di r
  rw [h]
  rfl

theorem State.copySend_rec (tid : Nat) : (s.copySend di r).rec_ di tid = s.rec_ di tid :=
  State.rec_congr (by rw [State.copySend_die]) tid

theorem State.copySend_sameTables : SameTables s (s.copySend di r) := by
  obtain ⟨served, links, turns, h⟩ := s.copySend_traffic di r
  have htraffic : SameTables s (s.withTraffic served links turns) := ⟨rfl, rfl, rfl, rfl, fun _ => rfl, fun _ => rfl, fun _ _ => rfl⟩
  rw [h]
  exact htraffic.trans (SameTables.of_modDie_recs rfl rfl rfl)

end

/-! ### What a copied line leaves (R82, R88) -/

section
variable (s : State) (di : Nat) (r : TransitRec) (bad : Bool)

theorem State.copyLine_mem : (s.copyLine di r bad).mem = s.mem.writeN (r.dstKey di r.nextVa) (s.mem.readN (r.srcKey di r.nextVa) 128) := by
  unfold State.copyLine
  dsimp only
  cases bad <;> rfl

theorem State.copyLine_frame : s.copyLine di r bad = { s with
    mem := (s.copyLine di r bad).mem, lines := (s.copyLine di r bad).lines, bver := (s.copyLine di r bad).bver } := by
  unfold State.copyLine
  dsimp only
  cases bad <;> rfl

theorem State.copyLine_die (j : Nat) : (s.copyLine di r bad).die j = s.die j := by rw [State.copyLine_frame]; rfl

/-- The source line's metadata, with its mark set where it cannot be read. -/
def State.copiedMeta (s : State) (src : Nat) (bad : Bool) : LineMeta :=
  { s.line (src / 128) with poison := (s.line (src / 128)).poison || bad }

/-- The source line once its mark is set where it cannot be read. -/
theorem State.poisoned_line :
    (if bad then s.poisonLine (r.srcKey di r.nextVa) else s).line (r.srcKey di r.nextVa / 128)
      = s.copiedMeta (r.srcKey di r.nextVa) bad := by
  cases bad with
  | false => simp [State.copiedMeta]
  | true => simp [State.poisonLine, State.line_setLine, State.copiedMeta]

theorem State.copyLine_line (k : Nat) : (s.copyLine di r bad).line k =
    if r.dstKey di r.nextVa / 128 = k then s.copiedMeta (r.srcKey di r.nextVa) bad
    else (if bad then s.poisonLine (r.srcKey di r.nextVa) else s).line k := by
  rw [← State.poisoned_line, ← State.line_setLine]
  rfl

theorem State.copyLine_dst :
    (s.copyLine di r bad).line (r.dstKey di r.nextVa / 128) = s.copiedMeta (r.srcKey di r.nextVa) bad := by
  rw [State.copyLine_line, if_pos rfl]

theorem State.copyLine_src :
    (s.copyLine di r bad).line (r.srcKey di r.nextVa / 128) = s.copiedMeta (r.srcKey di r.nextVa) bad := by
  rw [State.copyLine_line, State.poisoned_line, ite_self]

end

end Sys2Proof.Machine
end

section
namespace Sys2Proof.Machine
open Sys2Proof.Safety

/-! ### COPY_LINE and MOVE_ABORT (R82, R84, R85, R87, R88, R92) -/

/-- The state once a line has been copied and the cursor is past it, before any switch. -/
def State.lineCopied (s : State) (di tid : Nat) (r : TransitRec) (bad : Bool) : State :=
  ((s.copySend di r).copyLine di r bad).modRec di tid fun q => { q with cursor := q.cursor + 1 }

/-- The source of a record's next line cannot be read. -/
def State.sourceBad (s : State) (r : TransitRec) (di : Nat) (err : CopyError) : Bool :=
  decide (err = .sourceBad) || s.unreachable (r.srcKey di r.nextVa) || s.expanderBad (r.srcKey di r.nextVa)

section
variable {s : State} {die di tid : Nat} {r : TransitRec} {err : CopyError} (hdi : s.ownDie die = di)
include hdi

theorem execMoveAbort_eq : execMoveAbort die tid s = .next (s.abortMove di tid 1) := by rw [execMoveAbort, hdi]

variable (hrec : s.rec_ di tid = some r)
include hrec

theorem execCopyLine_waits (h : ¬ s.copyFree di r = true) : execCopyLine die tid err s = .next s := by
  unfold execCopyLine
  dsimp only
  rw [hdi, hrec]
  dsimp only
  rw [State.copyFree_stop, if_pos (by simpa using h)]
  rfl

/-- A destination that cannot be written, or reached, turns the move back once the packets have left. -/
theorem execCopyLine_aborts (h : s.copyFree di r = true) (hdst : err = .destBad ∨ s.unreachable (r.dstKey di r.nextVa) = true) :
    execCopyLine die tid err s = .next ((s.copySend di r).abortMove di tid 1) := by
  unfold execCopyLine
  dsimp only
  rw [hdi, hrec]
  dsimp only
  rw [← TransitRec.nextVa, State.copyFree_stop, if_neg (by simp [h]), if_pos (by simpa using hdst)]

theorem execCopyLine_copies (h : s.copyFree di r = true) (herr : err ≠ .destBad) (hdst : s.unreachable (r.dstKey di r.nextVa) = false) :
    execCopyLine die tid err s = .next
      (if (r.cursor + 1) * 128 = r.size then (s.lineCopied di tid r (s.sourceBad r di err)).switchMove di tid r
       else s.lineCopied di tid r (s.sourceBad r di err)) := by
  unfold execCopyLine
  dsimp only
  rw [hdi, hrec]
  dsimp only
  rw [← TransitRec.nextVa, State.copyFree_stop, if_neg (by simp [h]), if_neg (by simp [herr, hdst])]
  refine congrArg Host.Outcome.next (ite_congr (by simp) (fun _ => ?_) fun _ => ?_) <;> rfl

end

section
variable {s : State} {di tid : Nat} {r : TransitRec} {bad : Bool}

theorem State.lineCopied_mem :
    (s.lineCopied di tid r bad).mem = s.mem.writeN (r.dstKey di r.nextVa) (s.mem.readN (r.srcKey di r.nextVa) 128) := by
  rw [State.lineCopied, State.modRec_mem, State.copyLine_mem, State.copySend_mem]

theorem State.lineCopied_readN : (s.lineCopied di tid r bad).mem.readN (r.dstKey di r.nextVa) 128
    = s.mem.readN (r.srcKey di r.nextVa) 128 := by
  have h := Memory.readN_writeN s.mem (r.dstKey di r.nextVa) (s.mem.readN (r.srcKey di r.nextVa) 128)
  rwa [Memory.readN_length, ← State.lineCopied_mem (tid := tid) (bad := bad)] at h

theorem State.lineCopied_read_out {k : Nat} (hk : k < r.dstKey di r.nextVa ∨ r.dstKey di r.nextVa + 128 ≤ k) :
    (s.lineCopied di tid r bad).mem.read k = s.mem.read k := by
  rw [State.lineCopied_mem, Memory.read_writeN_out _ _ _ (by rwa [Memory.readN_length])]

theorem State.lineCopied_rec (hrec : s.rec_ di tid = some r) :
    (s.lineCopied di tid r bad).rec_ di tid = some { r with cursor := r.cursor + 1 } := by
  refine State.rec_modRec _ ?_
  rw [State.rec_congr (congrArg Die.recs ((s.copySend di r).copyLine_die di r bad di)), State.copySend_rec, hrec]

theorem State.lineCopied_movesOnly : ((s.copySend di r).die di).movesOnly ((s.lineCopied di tid r bad).die di) := by
  have h := ((s.copySend di r).copyLine di r bad).modRec_movesOnly di tid fun q => { q with cursor := q.cursor + 1 }
  rwa [State.copyLine_die] at h

theorem State.lineCopied_line (k : Nat) : (s.lineCopied di tid r bad).line k = ((s.copySend di r).copyLine di r bad).line k := by
  rw [State.line, State.lineCopied, State.modRec, State.modDie_lines, State.line]

theorem State.copySend_copiedMeta (src : Nat) : (s.copySend di r).copiedMeta src bad = s.copiedMeta src bad := by
  rw [State.copiedMeta, State.line, State.copySend_lines, ← State.line, State.copiedMeta]

theorem State.lineCopied_dst :
    (s.lineCopied di tid r bad).line (r.dstKey di r.nextVa / 128) = s.copiedMeta (r.srcKey di r.nextVa) bad := by
  rw [State.lineCopied_line, State.copyLine_dst, State.copySend_copiedMeta]

theorem State.lineCopied_src :
    (s.lineCopied di tid r bad).line (r.srcKey di r.nextVa / 128) = s.copiedMeta (r.srcKey di r.nextVa) bad := by
  rw [State.lineCopied_line, State.copyLine_src, State.copySend_copiedMeta]

/-- The bytes of a record's next line at its destination too, and nothing else. -/
def State.withLine (s : State) (di : Nat) (r : TransitRec) : State :=
  { s with mem := s.mem.writeN (r.dstKey di r.nextVa) (s.mem.readN (r.srcKey di r.nextVa) 128) }

/-- A copy bears on a walk by the bytes that it writes alone. -/
theorem State.lineCopied_sameTables : SameTables (s.withLine di r) (s.lineCopied di tid r bad) := by
  have h := s.copySend_sameTables di r
  refine SameTables.trans (t := (s.copySend di r).copyLine di r bad) ?_ (State.modRec_sameTables fun _ => rfl)
  have hmem := (s.copySend di r).copyLine_mem di r bad
  rw [State.copySend_mem] at hmem
  have hdie (j : Nat) : ((s.copySend di r).copyLine di r bad).die j = (s.copySend di r).die j := State.copyLine_die _ di r bad j
  refine ⟨hmem, ?_, ?_, ?_, fun j => ?_, fun j => ?_, fun j k => ?_⟩
  · rw [State.copyLine_frame]
    exact h.tick
  · rw [State.copyLine_frame]
    exact h.node
  · rw [State.copyLine_frame]
    exact h.domain
  · rw [hdie]
    exact h.mtctx j
  · rw [hdie]
    exact h.cxrng j
  · rw [State.rec_congr (congrArg Die.recs (hdie j)) k]
    exact h.page j k

/-- The leaf is still the move's: it names the destination, and the record is DONE. -/
theorem State.switchMove_done {u : State} {q : TransitRec} {l : Leaf} (hrec : u.rec_ di tid = some q) (hleaf : u.recLeaf tid r = some l) :
    (u.switchMove di tid r).rec_ di tid = some { q with state := .done, sync := true }
      ∧ (u.switchMove di tid r).raw64 l.key = l.entryWith 0 r.dstFrame 0 r.dstTier
      ∧ (u.die di).movesOnly ((u.switchMove di tid r).die di) := by
  have hswitch : u.switchMove di tid r = ((u.writeLeaf l r.dstFrame r.dstTier 0 0).modRec di tid fun q =>
      { q with state := .done, sync := true }).recSync di tid r.ctx := by
    unfold State.switchMove
    rw [hleaf]
  rw [hswitch]
  refine ⟨?_, ?_, ?_⟩
  · have hdone := State.rec_modRec (s := u.writeLeaf l r.dstFrame r.dstTier 0 0) (di := di) (tid := tid)
      (fun q => { q with state := .done, sync := true }) ((u.writeLeaf_rec l _ _ _ _ di tid).trans hrec)
    rwa [State.recSync_rec]
  · rw [State.raw64_congr_mem (s := u.writeLeaf l r.dstFrame r.dstTier 0 0) (by rw [State.recSync_mem, State.modRec_mem]),
      State.raw64_writeLeaf]
  · have h := ((u.writeLeaf l r.dstFrame r.dstTier 0 0).modRec_movesOnly di tid fun q =>
      { q with state := .done, sync := true }).trans (State.recSync_movesOnly _ di tid r.ctx)
    rwa [State.writeLeaf_die] at h

/-- Software has changed the leaf: the switch ends the move as an abort. -/
theorem State.switchMove_none {u : State} (hleaf : u.recLeaf tid r = none) : u.switchMove di tid r = u.abortMove di tid 4 := by
  unfold State.switchMove
  rw [hleaf]

end

/-! ### TXRTAIL and the indices of a ring (R93) -/

theorem ringSlots_eq (b : DWord) : ringSlots b = if b.toNat / 16 % 256 = 0 then 2 ^ (b.toNat % 16) else 0 := by
  unfold ringSlots bitsNat
  norm_num

theorem ringSlots_pow (b : DWord) (h : ringSlots b ≠ 0) : ∃ k ≤ 15, ringSlots b = 2 ^ k := by
  rw [ringSlots_eq] at h ⊢
  split
  · exact ⟨_, by omega, rfl⟩
  · next hb => exact absurd (if_neg hb) h

theorem ringSlots_le (b : DWord) : ringSlots b ≤ 2 ^ 15 := by
  by_cases h : ringSlots b = 0
  · omega
  · obtain ⟨k, hk, heq⟩ := ringSlots_pow b h
    rw [heq]
    exact Nat.pow_le_pow_right (by decide) hk

theorem ringBase_eq (b : DWord) : ringBase b = b.toNat / 4096 * 4096 := by
  have := b.isLt
  unfold ringBase bitsNat
  omega

theorem State.moveKey_eq (s : State) (di i : Nat) :
    s.moveKey di i = physKey di 0 ((s.die di).txrbase.toNat / 4096 * 4096 + 32 * i) := by
  rw [State.moveKey, ringBase_eq]

theorem ringNext_toNat {n : Nat} (h0 : n ≠ 0) (hn : n ≤ 2 ^ 15) (i : BitVec 16) : (ringNext i n).toNat = (i.toNat + 1) % n := by
  have hlt := Nat.mod_lt (i.toNat + 1) (Nat.pos_of_ne_zero h0)
  rw [ringNext, if_neg (by simpa using h0), BitVec.toNat_ofNat, Nat.mod_eq_of_lt (by omega)]

/-- A ring's size divides 2^16, so that an index modulo the size is that of the whole value. -/
theorem ringIndex_ringSlots {b : DWord} (h : ringSlots b ≠ 0) (val : DWord) :
    ringIndex val (ringSlots b) = BitVec.ofNat 16 (val.toNat % ringSlots b) := by
  obtain ⟨k, hk, heq⟩ := ringSlots_pow b h
  have hdvd : 2 ^ k ∣ 2 ^ 16 := Nat.pow_dvd_pow 2 (by omega)
  rw [ringIndex, heq]
  refine congrArg _ ?_
  rw [bitsNat, pow_zero, Nat.div_one]
  exact Nat.mod_mod_of_dvd _ hdvd

theorem ringHeld_eq {n : Nat} (h : n ≠ 0) (head tail : BitVec 16) : ringHeld head tail n = (tail.toNat + n - head.toNat % n) % n := by
  rw [ringHeld, if_neg (by simpa using h)]

/-- How far an index of the move ring lies ahead of its head. -/
def Die.moveAhead (d : Die) (j : Nat) : Nat := (j + d.moveSize - d.txrhead.toNat % d.moveSize) % d.moveSize

theorem Die.txMayMove_iff (d : Die) (val : DWord) :
    d.txMayMove val = true ↔ d.moveSize ≠ 0 ∧ d.moveAhead d.txrtail.toNat ≤ d.moveAhead (val.toNat % d.moveSize) := by
  by_cases h : d.moveSize = 0
  · simp [Die.txMayMove, h]
  · have hle : d.moveSize ≤ 2 ^ 15 := ringSlots_le _
    have hpos := Nat.pos_of_ne_zero h
    have hlt := Nat.mod_lt val.toNat hpos
    have hindex : (ringIndex val d.moveSize).toNat = val.toNat % d.moveSize := by
      rw [Die.moveSize, ringIndex_ringSlots h, BitVec.toNat_ofNat, ← Die.moveSize, Nat.mod_eq_of_lt (by omega)]
    have hroom : d.moveAhead (val.toNat % d.moveSize) ≤ d.moveSize - 1 := Nat.le_sub_one_of_lt (Nat.mod_lt _ hpos)
    simp only [Die.txMayMove, ringHeld_eq h, hindex, Bool.and_eq_true, bne_iff_ne, decide_eq_true_eq, ← Die.moveAhead.eq_1]
    exact ⟨fun ⟨⟨h0, hheld⟩, _⟩ => ⟨h0, hheld⟩, fun ⟨h0, hheld⟩ => ⟨⟨h0, hheld⟩, hroom⟩⟩

section
variable {s : State} {die di : Nat} {val : DWord} (hdi : s.ownDie die = di)
include hdi

theorem execTxrtailWrite_waits (h : ¬ (s.die di).txMayMove val = true) : execTxrtailWrite die val s = .next s := by
  rw [execTxrtailWrite, hdi, State.txrtailWrite, if_neg h]

theorem execTxrtailWrite_moves (h : (s.die di).txMayMove val = true) : ∃ t, execTxrtailWrite die val s = .next t
    ∧ DieOnly s t di { s.die di with txrtail := BitVec.ofNat 16 (val.toNat % (s.die di).moveSize) } := by
  have hindex : ringIndex val (s.die di).moveSize = BitVec.ofNat 16 (val.toNat % (s.die di).moveSize) :=
    ringIndex_ringSlots ((Die.txMayMove_iff _ _).mp h).1 val
  refine ⟨s.modDie di fun d => { d with txrtail := ringIndex val d.moveSize }, ?_, ?_⟩
  · rw [execTxrtailWrite, hdi, State.txrtailWrite, if_pos h]
  · rw [← hindex]
    exact s.modDie_dieOnly di _

end

end Sys2Proof.Machine
end

section
namespace Sys2Proof.Machine
open Sys2Proof.Safety

/-! ### The fields of an order (R73, R363) -/

section
variable (w : Nat)

theorem orderOf_va : (orderOf w).va = BitVec.ofNat 64 (w / 2 ^ 192) :=
  BitVec.eq_of_toNat_eq (by simp [orderOf, bitsNat])

theorem orderOf_frame : (orderOf w).frame = w / 2 ^ 156 % 2 ^ 36 := rfl
theorem orderOf_ctx : (orderOf w).ctx = w / 2 ^ 146 % 1024 := rfl
theorem orderOf_tier : (orderOf w).tier = w / 2 ^ 144 % 4 := rfl
theorem orderOf_size : (orderOf w).size = w / 2 ^ 142 % 4 := rfl
theorem orderOf_cmd : (orderOf w).cmd = w / 2 ^ 140 % 4 := rfl

theorem orderOf_reserved_iff : (orderOf w).reserved = true ↔ w / 2 ^ 142 % 4 = 3 ∨ 2 ≤ w / 2 ^ 140 % 4
    ∨ w / 2 ^ 128 % 4096 ≠ 0 ∨ w / 2 ^ 64 % 2 ^ 48 ≠ 0 := by
  have hrsv : (orderOf w).rsv = true ↔ w / 2 ^ 128 % 4096 ≠ 0 ∨ w / 2 ^ 64 % 2 ^ 48 ≠ 0 := by simp [orderOf, bitsNat]
  rw [← orderOf_size, ← orderOf_cmd, ← hrsv]
  simp only [Order.reserved, Bool.or_eq_true, beq_iff_eq, decide_eq_true_eq]
  tauto

end

theorem sizeBytes_eq (k : Nat) : sizeBytes k = if k = 0 then 4096 else if k = 1 then 65536 else 2 ^ 21 := by
  simp [sizeBytes]

theorem Order.misplaced_iff (o : Order) (di : Nat) : o.misplaced di = true ↔ pathOf o.va ≠ 0 ∨ ownerOf o.va ≠ di
    ∨ o.va.toNat % sizeBytes o.size ≠ 0 ∨ (o.cmd = 0 ∧ o.frame * 4096 % sizeBytes o.size ≠ 0) := by
  simp only [Order.misplaced, Bool.or_eq_true, Bool.and_eq_true, bne_iff_ne, beq_iff_eq, or_assoc]

theorem hasLpddr_eq_false_iff : Config.hasLpddr = false ↔ Config.form = .tlv4p := by
  unfold Config.hasLpddr
  cases Config.form <;> decide

theorem State.badTier_iff (s : State) (di : Nat) (o : Order) : s.badTier di o = true ↔
    o.tier = 3 ∨ (o.tier = 1 ∧ Config.form = .tlv4p)
      ∨ (o.tier = 2 ∧ s.expander di (o.frame * 4096) (sizeBytes o.size) = false) := by
  simp only [State.badTier, Bool.or_eq_true, Bool.and_eq_true, beq_iff_eq, Bool.not_eq_true', hasLpddr_eq_false_iff, or_assoc]

section
variable {s : State} {di : Nat} {o : Order}

theorem State.moveCode_reserved (h : o.reserved = true) (leaf : Option Leaf) : s.moveCode di o leaf = 0x16 := if_pos h

theorem State.moveCode_misplaced (hr : o.reserved = false) (h : o.misplaced di = true) (leaf : Option Leaf) :
    s.moveCode di o leaf = 0x15 := by
  simp [State.moveCode, hr, h]

theorem State.moveCode_unmapped (hr : o.reserved = false) (hm : o.misplaced di = false) : s.moveCode di o none = 0x10 := by
  simp [State.moveCode, hr, hm]

/-- The code of an order whose page has a leaf, by the conditions of R363 in their order. -/
theorem State.moveCode_leaf (hr : o.reserved = false) (hm : o.misplaced di = false) (l : Leaf) : s.moveCode di o (some l) =
    if 2 ^ l.lo ≠ sizeBytes o.size then 0x11 else if l.state ≠ 0 then 0x12 else if l.tier = o.tier then 0x13
    else if s.badTier di o then 0x14 else 1 := by
  simp [State.moveCode, hr, hm, Leaf.size]

end

/-! ### The order at the head of the move ring (R73, R75, R93, R358) -/

/-- The order at the head of a die's move ring. -/
def State.headOrder (s : State) (di : Nat) : Order := orderOf (ofBytes (s.mem.readN (s.moveKey di (s.die di).txrhead.toNat) 32))

/-- The engine may take the order at the head. -/
def State.OrderThere (s : State) (di : Nat) : Prop :=
  (s.die di).txReady = true ∧ (s.die di).moveSize ≠ 0 ∧ (s.die di).txrhead ≠ (s.die di).txrtail ∧ (s.die di).freeRec ≠ none
    ∧ s.memReady (s.moveKey di (s.die di).txrhead.toNat) = true ∧ s.tablesReady (s.headOrder di).ctx (s.headOrder di).va = true

section
variable {s : State} {di : Nat}

theorem State.nextOrder_stop : (!(s.die di).txReady || (s.die di).moveSize == 0 || (s.die di).txrhead == (s.die di).txrtail
    || (s.die di).freeRec.isNone || !s.memReady (s.moveKey di (s.die di).txrhead.toNat)
    || !s.tablesReady (s.headOrder di).ctx (s.headOrder di).va) = true ↔ ¬ s.OrderThere di := by
  simp only [State.OrderThere, Bool.or_eq_true, Bool.not_eq_true', beq_iff_eq, Option.isNone_iff_eq_none, not_and_or, ne_eq,
    not_not, Bool.not_eq_true, or_assoc]

theorem State.OrderThere.moveSize_ne (h : s.OrderThere di) : (s.die di).moveSize ≠ 0 := by
  obtain ⟨-, hsize, -⟩ := h
  exact hsize

theorem State.nextOrder_none (h : ¬ s.OrderThere di) : s.nextOrder di = none := if_pos (State.nextOrder_stop.mpr h)

theorem State.nextOrder_there (h : s.OrderThere di) : s.nextOrder di = some ((s.die di).txrhead.toNat, s.headOrder di) :=
  if_neg fun k => State.nextOrder_stop.mp k h

end

/-- The die once the engine has taken its order at the head. -/
theorem State.tookOrder_die (s : State) (di : Nat) :
    (s.tookOrder di).die di = { s.die di with txrhead := ringNext (s.die di).txrhead (s.die di).moveSize } := s.die_modDie_same di _

theorem State.tookOrder_rec (s : State) (di tid : Nat) : (s.tookOrder di).rec_ di tid = s.rec_ di tid :=
  State.rec_congr (by rw [State.tookOrder_die]) tid

theorem State.tookOrder_head {s : State} {di : Nat} (h : (s.die di).moveSize ≠ 0) :
    ((s.tookOrder di).die di).txrhead.toNat = ((s.die di).txrhead.toNat + 1) % (s.die di).moveSize := by
  rw [State.tookOrder_die]
  exact ringNext_toNat h (ringSlots_le _) _

/-- `t` is `s` with the order at the head taken and answered by a code at once. -/
structure OrderRefused (s t : State) (di code : Nat) : Prop where
  word   : ofBytes (t.mem.readN (s.moveKey di (s.die di).txrhead.toNat) 8) = code * 2 ^ 56
  head   : (t.die di).txrhead.toNat = ((s.die di).txrhead.toNat + 1) % (s.die di).moveSize
  others : ∀ k,
    k < s.moveKey di (s.die di).txrhead.toNat ∨ s.moveKey di (s.die di).txrhead.toNat + 8 ≤ k → t.mem.read k = s.mem.read k
  recs   : (t.die di).recs = (s.die di).recs

theorem State.tookOrder_moveKey (s : State) (di i : Nat) : (s.tookOrder di).moveKey di i = s.moveKey di i :=
  State.moveKey_congr (by rw [State.tookOrder_die]) i

theorem State.tookOrder_refused {s : State} {di code : Nat} (h : (s.die di).moveSize ≠ 0) (hcode : code < 256) :
    OrderRefused s ((s.tookOrder di).writeStatus di (s.die di).txrhead.toNat (statusWord code 0 0 0)) di code := by
  refine ⟨?_, ?_, fun k hk => ?_, ?_⟩
  · have hword := (s.tookOrder di).writeStatus_word di (s.die di).txrhead.toNat (statusWord code 0 0 0)
    rw [State.tookOrder_moveKey] at hword
    rw [hword, statusWord]
    omega
  · rw [State.writeStatus_die, State.tookOrder_head h]
  · rw [State.writeStatus_read_out _ _ _ _ (by rwa [State.tookOrder_moveKey]), State.tookOrder_mem]
  · rw [State.writeStatus_die, State.tookOrder_die]

/-! ### MOVE_ORDER (R74, R79, R363) -/

section
variable {s : State} {die di : Nat} (hdi : s.ownDie die = di)
include hdi

theorem execMoveOrder_waits (h : ¬ s.OrderThere di ∨ (s.headOrder di).cmd = 1) : execMoveOrder die s = .next s := by
  unfold execMoveOrder
  dsimp only
  rw [hdi]
  by_cases hthere : s.OrderThere di
  · obtain h | h := h
    · exact absurd hthere h
    · rw [State.nextOrder_there hthere]
      exact if_pos (by simpa using h)
  · rw [State.nextOrder_none hthere]
    rfl

section
variable (hthere : s.OrderThere di) (hcmd : (s.headOrder di).cmd ≠ 1)
include hthere hcmd

/-- An order that meets a condition of R363 receives its code, and nothing else happens. -/
theorem execMoveOrder_refused {code : Nat}
    (hcode : s.moveCode di (s.headOrder di) (s.leafNow (s.headOrder di).ctx (s.headOrder di).va) = code)
    (hne : code ≠ 1) (hlt : code < 256) : ∃ t, execMoveOrder die s = .next t ∧ OrderRefused s t di code := by
  refine ⟨_, ?_, State.tookOrder_refused hthere.moveSize_ne hlt⟩
  unfold execMoveOrder
  dsimp only
  rw [hdi, State.nextOrder_there hthere]
  dsimp only
  rw [if_neg (by simpa using hcmd), hcode]
  split
  · exact if_neg (by simpa using hne)
  · rfl

/-- An order that meets none starts its move under the free record. -/
theorem execMoveOrder_accepted {tid : Nat} {l : Leaf} (hleaf : s.leafNow (s.headOrder di).ctx (s.headOrder di).va = some l)
    (hcode : s.moveCode di (s.headOrder di) (some l) = 1) (hfree : (s.die di).freeRec = some tid) :
    execMoveOrder die s = .next (((s.tookOrder di).startMove di tid (s.die di).txrhead.toNat false (s.headOrder di) l).writeStatus di
      (s.die di).txrhead.toNat (statusWord 1 tid l.tier 0)) := by
  have hfree' : ((s.tookOrder di).die di).freeRec = some tid := by rw [State.tookOrder_die]; exact hfree
  unfold execMoveOrder
  dsimp only
  rw [hdi, State.nextOrder_there hthere]
  dsimp only
  rw [if_neg (by simpa using hcmd), hleaf, hcode, hfree']
  rfl

end
end

theorem Die.freeRec_lt {d : Die} {tid : Nat} (h : d.freeRec = some tid) : tid < 4096 := by
  unfold Die.freeRec firstBelow at h
  exact List.mem_range.mp (List.mem_of_find?_eq_some h)

theorem Leaf.tier_lt (l : Leaf) : l.tier < 4 := Nat.mod_lt _ (by decide)

/-- The record that an accepted order starts (R75, R79). -/
def Order.record (o : Order) (l : Leaf) (slot : Nat) (hinted : Bool) (age : Nat) : TransitRec where
  state    := .copying
  va       := o.va
  ctx      := o.ctx
  size     := l.size
  srcTier  := l.tier
  srcFrame := l.frame
  dstTier  := o.tier
  dstFrame := o.frame
  cursor   := 0
  order    := o.tag
  hinted   := hinted
  slot     := slot
  cancel   := none
  reason   := 0
  sync     := true
  age      := age

section
variable (s : State) (di tid slot : Nat) (hinted : Bool) (o : Order) (l : Leaf)

/-- The die on which a move has started: a record, and a TLBSYNC of its context that has no number. -/
theorem State.startMove_at : (s.startMove di tid slot hinted o l).die di = { s.die di with
    recs := Tab.put (s.die di).recs tid (o.record l slot hinted (s.die di).moveAge), moveAge := (s.die di).moveAge + 1
    syncs := (s.die di).syncs ++ [⟨0, o.ctx, false, some tid, (s.die di).tlb⟩] } := by
  rw [State.startMove, State.recSync, State.die_modDie_same, State.die_modDie_same, State.writeLeaf_die]
  rfl

theorem State.startMove_rec :
    (s.startMove di tid slot hinted o l).rec_ di tid = some (o.record l slot hinted (s.die di).moveAge) := by
  rw [State.rec_, State.startMove_at, Tab.find?_put]
  rfl

theorem State.startMove_leaf : (s.startMove di tid slot hinted o l).raw64 l.key = l.entryWith tid l.frame 1 l.tier := by
  rw [State.raw64_congr_mem (s := s.writeLeaf l l.frame l.tier 1 tid), State.raw64_writeLeaf]
  rw [State.startMove, State.recSync_mem, State.modDie_mem]

theorem State.startMove_moveKey (i : Nat) : (s.startMove di tid slot hinted o l).moveKey di i = s.moveKey di i :=
  State.moveKey_congr (by rw [State.startMove_at]) i

end

/-! ### CANCEL_ORDER (R90, R363) -/

/-- A cancel order names the record: its page is in COPYING. -/
def Order.names (o : Order) (r : TransitRec) : Bool := r.va == o.va && r.ctx == o.ctx && r.state == .copying

theorem Order.names_iff (o : Order) (r : TransitRec) : o.names r = true ↔ r.va = o.va ∧ r.ctx = o.ctx ∧ r.state = .copying := by
  simp only [Order.names, Bool.and_eq_true, beq_iff_eq, and_assoc]

section
variable {s : State} {die di : Nat} (hdi : s.ownDie die = di)
include hdi

theorem execCancelOrder_waits (h : ¬ s.OrderThere di ∨ (s.headOrder di).cmd ≠ 1) : execCancelOrder die s = .next s := by
  unfold execCancelOrder
  dsimp only
  rw [hdi]
  by_cases hthere : s.OrderThere di
  · obtain h | h := h
    · exact absurd hthere h
    · rw [State.nextOrder_there hthere]
      exact if_pos (by simpa using h)
  · rw [State.nextOrder_none hthere]
    rfl

section
variable (hthere : s.OrderThere di) (hcmd : (s.headOrder di).cmd = 1)
include hthere hcmd

/-- A cancel order that R363 refuses, or that names no move in COPYING, receives its code. -/
theorem execCancelOrder_refused {code : Nat} (hcode : (s.headOrder di).reserved = true ∧ code = 0x16
    ∨ (s.headOrder di).reserved = false ∧ (s.headOrder di).misplaced di = true ∧ code = 0x15
    ∨ (s.headOrder di).reserved = false ∧ (s.headOrder di).misplaced di = false
      ∧ (∀ p ∈ (s.die di).recs, ¬ (s.headOrder di).names p.2 = true) ∧ code = 0x17) :
    ∃ t, execCancelOrder die s = .next t ∧ OrderRefused s t di code := by
  have hrecs : ((s.tookOrder di).die di).recs = (s.die di).recs := by rw [State.tookOrder_die]
  unfold execCancelOrder
  dsimp only
  rw [hdi, State.nextOrder_there hthere]
  dsimp only
  rw [if_neg (by simp [hcmd]), hrecs]
  obtain ⟨hr, rfl⟩ | ⟨hr, hm, rfl⟩ | ⟨hr, hm, hnames, rfl⟩ := hcode
  · exact ⟨_, if_pos hr, State.tookOrder_refused hthere.moveSize_ne (by decide)⟩
  · rw [hr, if_neg Bool.false_ne_true, hm, if_pos rfl]
    exact ⟨_, rfl, State.tookOrder_refused hthere.moveSize_ne (by decide)⟩
  · have hfind : (s.die di).recs.find? (fun p => (s.headOrder di).names p.2) = none := List.find?_eq_none.mpr hnames
    rw [hr, if_neg Bool.false_ne_true, hm, if_neg Bool.false_ne_true]
    unfold Order.names at hfind
    rw [hfind]
    exact ⟨_, rfl, State.tookOrder_refused hthere.moveSize_ne (by decide)⟩

/-- A cancel order that names a move in COPYING turns it back, and the record keeps the order's slot. -/
theorem execCancelOrder_cancels (hr : (s.headOrder di).reserved = false) (hm : (s.headOrder di).misplaced di = false) {tid : Nat}
    {r : TransitRec} (hfind : (s.die di).recs.find? (fun p => (s.headOrder di).names p.2) = some (tid, r)) :
    execCancelOrder die s = .next ((((s.tookOrder di).abortMove di tid 3).modRec di tid fun q =>
      { q with cancel := some (s.die di).txrhead.toNat }).writeStatus di (s.die di).txrhead.toNat (statusWord 1 tid r.srcTier 0)) := by
  have hrecs : ((s.tookOrder di).die di).recs = (s.die di).recs := by rw [State.tookOrder_die]
  unfold execCancelOrder
  dsimp only
  rw [hdi, State.nextOrder_there hthere]
  dsimp only
  unfold Order.names at hfind
  rw [if_neg (by simp [hcmd]), hrecs, hr, if_neg Bool.false_ne_true, hm, if_neg Bool.false_ne_true, hfind]

end
end

/-! ### The TLBSYNC of a move completes (R51, R54, R84, R87, R90) -/

section
variable {s : State} {die di tid : Nat} {y : Sync} {rest : List Sync} (hdi : s.ownDie die = di) (hsyncs : (s.die di).syncs = y :: rest)
  (htrans : s.translating di y = false) (hy : y.tid = some tid)
include hdi hsyncs htrans hy

theorem execTlbsyncComplete_unready (hready : s.syncReady di (some tid) = false) : execTlbsyncComplete die s = .next s := by
  unfold execTlbsyncComplete
  dsimp only
  rw [hdi, hsyncs]
  dsimp only
  rw [htrans, hy, hready]
  rfl

/-- The last TLBSYNC of a record completes: the cached entries that it waited for are gone, and the record goes on. -/
theorem execTlbsyncComplete_synced (hlast : ∀ z ∈ rest, z.tid ≠ some tid) (hready : s.syncReady di (some tid) = true) :
    execTlbsyncComplete die s = .next ((s.modDie di fun d => { d with
      syncs := rest, tlb := d.tlb.filter fun t => !((y.all || t.ctx == y.ctx) && y.old.contains t) }).recSynced di tid) := by
  unfold execTlbsyncComplete
  dsimp only
  rw [hdi, hsyncs]
  dsimp only
  rw [htrans, hy, hready, if_neg (by decide)]
  refine congrArg Host.Outcome.next (if_pos ?_)
  rw [Die.lastSync, State.die_modDie_same]
  simpa using hlast

end

section
variable {s : State} {di tid : Nat} {r : TransitRec}

theorem State.syncReady_copying (hrec : s.rec_ di tid = some r) (h : r.state = .copying) : s.syncReady di (some tid) = true := by
  simp [State.syncReady, hrec, h]

/-- A record that ends, and that no cancel order has met, waits for the memory of its order's slot alone. -/
theorem State.syncReady_slot (hrec : s.rec_ di tid = some r) (h : r.state ≠ .copying) (hh : r.hinted = false) (hc : r.cancel = none) :
    s.syncReady di (some tid) = s.memReady (s.moveKey di r.slot) := by
  simp [State.syncReady, hrec, h, State.freeReady, hh, hc]

theorem State.syncReady_slot_unready (hrec : s.rec_ di tid = some r) (h : r.state ≠ .copying) (hh : r.hinted = false)
    (hm : s.memReady (s.moveKey di r.slot) = false) : s.syncReady di (some tid) = false := by
  simp [State.syncReady, hrec, h, State.freeReady, hh, hm]

theorem State.recSynced_copying (hrec : s.rec_ di tid = some r) (h : r.state = .copying) :
    (s.recSynced di tid).rec_ di tid = some { r with sync := false } := by
  have hgo : s.recSynced di tid = s.modRec di tid fun q => { q with sync := false } := by
    unfold State.recSynced
    rw [hrec]
    exact if_pos (by simp [h])
  rw [hgo, State.rec_modRec _ hrec]

theorem State.recSynced_ended (hrec : s.rec_ di tid = some r) (h : r.state ≠ .copying) : s.recSynced di tid = s.freeMove di tid r := by
  unfold State.recSynced
  rw [hrec]
  exact if_neg (by simpa using h)

/-- The record is free, and its order's slot has its final code (R84, R87). -/
def State.recordFreed (s : State) (di tid code : Nat) (r : TransitRec) : State :=
  (s.writeStatus di r.slot (statusWord code tid r.srcTier r.srcFrame)).modDie di fun d => { d with recs := Tab.del d.recs tid }

theorem State.freeMove_done (h : r.state = .done) (hh : r.hinted = false) (hc : r.cancel = none) :
    s.freeMove di tid r = s.recordFreed di tid 2 r := by
  simp [State.freeMove, State.recordFreed, h, hh, hc]

/-- A move that ended early reports MIGRATE_ABORT (R91). -/
theorem State.freeMove_aborted (h : r.state = .aborting) (hh : r.hinted = false) (hc : r.cancel = none) :
    s.freeMove di tid r = (((s.recordFreed di tid 3 r).postEvent r.ctx (r.abortBits tid)).2).snapFire 15 false := by
  simp [State.freeMove, State.recordFreed, h, hh, hc]

theorem State.recordFreed_rec (code : Nat) : (s.recordFreed di tid code r).rec_ di tid = none := by
  rw [State.rec_, State.recordFreed, State.die_modDie_same, Tab.find?_del]
  rfl

theorem State.recordFreed_word (code : Nat) : ofBytes ((s.recordFreed di tid code r).mem.readN (s.moveKey di r.slot) 8)
    = (code * 2 ^ 56 + tid * 2 ^ 44 + r.srcTier * 2 ^ 42 + r.srcFrame) % 2 ^ 64 := by
  rw [State.recordFreed, State.modDie_mem, State.writeStatus_word, statusWord]

theorem State.recordFreed_read_out (code : Nat) {k : Nat} (hk : k < s.moveKey di r.slot ∨ s.moveKey di r.slot + 8 ≤ k) :
    (s.recordFreed di tid code r).mem.read k = s.mem.read k := by
  rw [State.recordFreed, State.modDie_mem, State.writeStatus_read_out _ _ _ _ hk]

theorem State.recordFreed_ctxs (code : Nat) : (s.recordFreed di tid code r).ctxs = s.ctxs := by
  rw [State.recordFreed, State.modDie_ctxs, State.writeStatus, State.unitWrite_eq]

theorem State.recordFreed_posts (code : Nat) : (s.recordFreed di tid code r).posts = s.posts := by
  rw [State.recordFreed, State.modDie_posts, State.writeStatus, State.unitWrite_eq]

end

/-- A record for a full queue is dropped, and the queue's overflow is noted (R140). -/
theorem State.postEvent_full {s : State} {ctx rec_ : Nat} (hposts : ∀ p ∈ s.posts, p.1 ≠ ctx)
    (hfull : ringFull (s.ctx ctx).eqhead (s.ctx ctx).eqtail (s.ctx ctx).eqSize = true) :
    (s.postEvent ctx rec_).2 = s.setCtx ctx { s.ctx ctx with eqDrops := min 65535 ((s.ctx ctx).eqDrops + 1), eqOvf := true } := by
  have hready : s.eventReady ctx = true := by
    have hnone : (s.posts.any fun p => p.1 == ctx) = false := by simpa using hposts
    simp [State.eventReady, hnone, hfull]
  unfold State.postEvent
  dsimp only
  rw [hready, hfull]
  rfl

end Sys2Proof.Machine
end

section
namespace Sys2Proof.Machine
open Sys2Proof.Safety

/-! ### The steps of a move by their outcome (R75, R79, R82-R92, R363) -/

namespace Die.movesOnly
variable {d e : Die} (h : d.movesOnly e)
include h

theorem spent : e.spent = d.spent := by rw [h]
theorem copied : e.copied = d.copied := by rw [h]
theorem txrbase : e.txrbase = d.txrbase := by rw [h]

end Die.movesOnly

section
variable {s : State} {die di : Nat} (hdi : s.ownDie die = di) (hthere : s.OrderThere di)
include hdi hthere

/-- An accepted order: its slot, the ring's head, its page's leaf, its TLBSYNC and its record. -/
theorem moveOrder_accepted (hcmd : (s.headOrder di).cmd ≠ 1) {tid : Nat} {l : Leaf}
    (hleaf : s.leafNow (s.headOrder di).ctx (s.headOrder di).va = some l) (hcode : s.moveCode di (s.headOrder di) (some l) = 1)
    (hfree : (s.die di).freeRec = some tid)
    (hapart : s.moveKey di (s.die di).txrhead.toNat + 8 ≤ l.key ∨ l.key + 8 ≤ s.moveKey di (s.die di).txrhead.toNat) :
    ∃ t, execMoveOrder die s = .next t
      ∧ t.rec_ di tid = some ((s.headOrder di).record l (s.die di).txrhead.toNat false (s.die di).moveAge)
      ∧ ofBytes (t.mem.readN (s.moveKey di (s.die di).txrhead.toNat) 8) = 2 ^ 56 + tid * 2 ^ 44 + l.tier * 2 ^ 42
      ∧ (t.die di).txrhead.toNat = ((s.die di).txrhead.toNat + 1) % (s.die di).moveSize
      ∧ t.raw64 l.key = l.entryWith tid l.frame 1 l.tier
      ∧ (t.die di).syncs = (s.die di).syncs ++ [⟨0, (s.headOrder di).ctx, false, some tid, (s.die di).tlb⟩] := by
  have htid := Die.freeRec_lt hfree
  have htier := l.tier_lt
  have hkey : ((s.tookOrder di).startMove di tid (s.die di).txrhead.toNat false (s.headOrder di) l).moveKey di (s.die di).txrhead.toNat
      = s.moveKey di (s.die di).txrhead.toNat := by rw [State.startMove_moveKey, State.tookOrder_moveKey]
  have hword := State.writeStatus_word ((s.tookOrder di).startMove di tid (s.die di).txrhead.toNat false (s.headOrder di) l) di
    (s.die di).txrhead.toNat (statusWord 1 tid l.tier 0)
  rw [hkey] at hword
  refine ⟨_, execMoveOrder_accepted hdi hthere hcmd hleaf hcode hfree, ?_, ?_, ?_, ?_, ?_⟩
  · rw [State.writeStatus_rec, State.startMove_rec, State.tookOrder_die]
  · rw [hword, statusWord]
    omega
  · rw [State.writeStatus_die, State.startMove_at, State.tookOrder_head hthere.moveSize_ne]
  · rw [State.raw64_writeStatus _ _ _ _ (by rwa [hkey]), State.startMove_leaf]
  · rw [State.writeStatus_die, State.startMove_at, State.tookOrder_die]

/-- A cancel order that names the one record of a die turns its move back. -/
theorem cancelOrder_cancels (hcmd : (s.headOrder di).cmd = 1) (hr : (s.headOrder di).reserved = false)
    (hm : (s.headOrder di).misplaced di = false) {tid : Nat} {r : TransitRec} (hrecs : (s.die di).recs = [(tid, r)])
    (hnames : (s.headOrder di).names r = true) :
    ∃ t q, execCancelOrder die s = .next t ∧ t.rec_ di tid = some q ∧ q.state = .aborting ∧ q.sync = true
      ∧ q.cancel = some (s.die di).txrhead.toNat ∧ (q.reason = 3 ∨ q.reason = 4)
      ∧ ofBytes (t.mem.readN (s.moveKey di (s.die di).txrhead.toNat) 8) = (2 ^ 56 + tid * 2 ^ 44 + r.srcTier * 2 ^ 42) % 2 ^ 64 := by
  have hrec : s.rec_ di tid = some r := by simp [State.rec_, hrecs]
  obtain ⟨-, -, hcopy⟩ := (Order.names_iff _ _).mp hnames
  have hback := State.abortMove_turnedBack (reason := 3) ((s.tookOrder_rec di tid).trans hrec) (hcopy) (by decide)
  have hkey : (((s.tookOrder di).abortMove di tid 3).modRec di tid fun q =>
      { q with cancel := some (s.die di).txrhead.toNat }).moveKey di (s.die di).txrhead.toNat
        = s.moveKey di (s.die di).txrhead.toNat := by
    rw [State.moveKey_congr (hback.die.trans (State.modRec_movesOnly _ di tid _)).txrbase, State.tookOrder_moveKey]
  have hword := State.writeStatus_word (((s.tookOrder di).abortMove di tid 3).modRec di tid fun q =>
    { q with cancel := some (s.die di).txrhead.toNat }) di (s.die di).txrhead.toNat (statusWord 1 tid r.srcTier 0)
  rw [hkey] at hword
  refine ⟨_, _, execCancelOrder_cancels hdi hthere hcmd hr hm (tid := tid) (r := r) ?_,
    (State.writeStatus_rec _ _ _ _ _ _).trans (State.rec_modRec _ hback.record), rfl, rfl, rfl, ?_, ?_⟩
  · rw [hrecs]
    exact List.find?_cons_of_pos hnames
  · dsimp only
    split
    · exact .inr rfl
    · exact .inl rfl
  · rw [hword, statusWord, one_mul, Nat.add_zero]

end

section
variable {s : State} {die di tid : Nat} {r : TransitRec} {err : CopyError} (hdi : s.ownDie die = di) (hrec : s.rec_ di tid = some r)
include hdi hrec

/-- A move that MOVE_ABORT turns back: no packet is charged. -/
theorem moveAbort_turnedBack (hcopy : r.state = .copying) : ∃ t, execMoveAbort die tid s = .next t ∧ TurnedBack s t di tid r 1 :=
  ⟨_, execMoveAbort_eq hdi, State.abortMove_turnedBack hrec hcopy (by decide)⟩

section
variable (hfree : s.copyFree di r = true)
include hfree

/-- A line whose destination fails: its packets are charged, and the move is turned back (R87, R92). -/
theorem copyLine_turnedBack (hdst : err = .destBad ∨ s.unreachable (r.dstKey di r.nextVa) = true) :
    ∃ t, execCopyLine die tid err s = .next t ∧ (t.die di).spent = (s.die di).spent + 2 ∧ (t.die di).copied = some r.age
      ∧ t.rec_ di tid = some { r with state := .aborting, sync := true, reason := if s.recLeaf tid r = none then 4 else 1 }
      ∧ ∀ l, s.recLeaf tid r = some l → t.raw64 l.key = l.entryWith 0 r.srcFrame 0 r.srcTier := by
  have hcopy := State.copyFree_copying hrec hfree
  have hback := State.abortMove_turnedBack (reason := 1) ((s.copySend_rec di r tid).trans hrec) hcopy (by decide)
  have hleaf : (s.copySend di r).recLeaf tid r = s.recLeaf tid r := (s.copySend_sameTables di r).recLeaf rfl tid
  refine ⟨_, execCopyLine_aborts hdi hrec hfree hdst, ?_, ?_, ?_, fun l hl => hback.leaf l (hleaf.trans hl)⟩
  · rw [hback.die.spent, State.copySend_die]
  · rw [hback.die.copied, State.copySend_die]
  · rw [hback.record, hleaf]

variable (herr : err ≠ .destBad) (hdst : s.unreachable (r.dstKey di r.nextVa) = false)
include herr hdst

/-- A line before the last: the cursor is past it, its bytes and its metadata are at the destination, and nothing else is written. -/
theorem copyLine_moves (hlast : (r.cursor + 1) * 128 ≠ r.size) :
    ∃ t, execCopyLine die tid err s = .next t ∧ t.rec_ di tid = some { r with cursor := r.cursor + 1 }
      ∧ (t.die di).spent = (s.die di).spent + 2 ∧ (t.die di).copied = some r.age
      ∧ t.mem.readN (r.dstKey di r.nextVa) 128 = s.mem.readN (r.srcKey di r.nextVa) 128
      ∧ (∀ k, k < r.dstKey di r.nextVa ∨ r.dstKey di r.nextVa + 128 ≤ k → t.mem.read k = s.mem.read k)
      ∧ t.line (r.dstKey di r.nextVa / 128) = s.copiedMeta (r.srcKey di r.nextVa) (s.sourceBad r di err)
      ∧ t.line (r.srcKey di r.nextVa / 128) = s.copiedMeta (r.srcKey di r.nextVa) (s.sourceBad r di err) := by
  have hrun := execCopyLine_copies hdi hrec hfree herr hdst
  rw [if_neg hlast] at hrun
  have hmoves := State.lineCopied_movesOnly (s := s) (di := di) (tid := tid) (r := r) (bad := s.sourceBad r di err)
  refine ⟨_, hrun, State.lineCopied_rec hrec, ?_, ?_, State.lineCopied_readN, fun k hk => State.lineCopied_read_out hk,
    State.lineCopied_dst, State.lineCopied_src⟩
  · rw [hmoves.spent, State.copySend_die]
  · rw [hmoves.copied, State.copySend_die]

/-- The last line: the move switches, or is turned back where software has changed its leaf. -/
theorem copyLine_switches (hlast : (r.cursor + 1) * 128 = r.size) :
    ∃ t q, execCopyLine die tid err s = .next t ∧ t.rec_ di tid = some q ∧ (t.die di).spent = (s.die di).spent + 2
      ∧ (t.die di).copied = some r.age
      ∧ (∀ l, (s.withLine di r).recLeaf tid r = some l →
        q = { r with cursor := r.cursor + 1, state := .done, sync := true } ∧ t.raw64 l.key = l.entryWith 0 r.dstFrame 0 r.dstTier)
      ∧ ((s.withLine di r).recLeaf tid r = none →
        q = { r with cursor := r.cursor + 1, state := .aborting, sync := true, reason := 4 }) := by
  have hcopy := State.copyFree_copying hrec hfree
  have hrun := execCopyLine_copies hdi hrec hfree herr hdst
  rw [if_pos hlast] at hrun
  have hrec' := State.lineCopied_rec (bad := s.sourceBad r di err) hrec
  have hmoves := State.lineCopied_movesOnly (s := s) (di := di) (tid := tid) (r := r) (bad := s.sourceBad r di err)
  have htables := State.lineCopied_sameTables (s := s) (di := di) (tid := tid) (r := r) (bad := s.sourceBad r di err)
  have hspent : (((s.copySend di r).die di).spent = (s.die di).spent + 2) ∧ ((s.copySend di r).die di).copied = some r.age := by
    rw [State.copySend_die]
    exact ⟨rfl, rfl⟩
  obtain ⟨hspent, hcopied⟩ := hspent
  rw [← htables.recLeaf (r := r) (q := r) rfl]
  cases hleaf : (s.lineCopied di tid r (s.sourceBad r di err)).recLeaf tid r with
  | some l =>
    obtain ⟨hdone, hentry, hsame⟩ := State.switchMove_done hrec' hleaf
    refine ⟨_, _, hrun, hdone, by rw [hsame.spent, hmoves.spent, hspent], by rw [hsame.copied, hmoves.copied, hcopied], ?_, ?_⟩
    · intro k hk
      obtain rfl : l = k := Option.some.inj hk
      exact ⟨rfl, hentry⟩
    · intro hk
      cases hk
  | none =>
    have hback := State.abortMove_turnedBack (reason := 4) hrec' hcopy (by decide)
    rw [State.switchMove_none hleaf] at hrun
    refine ⟨_, _, hrun, hback.record, by rw [hback.die.spent, hmoves.spent, hspent],
      by rw [hback.die.copied, hmoves.copied, hcopied], ?_, fun _ => ?_⟩
    · intro k hk
      cases hk
    · rw [ite_self]

end
end

theorem State.setCtx_rec (s : State) (c : Nat) (x : Ctx) (di tid : Nat) : (s.setCtx c x).rec_ di tid = s.rec_ di tid := rfl

theorem State.snapFire_rec (s : State) (src : Nat) (always : Bool) (di tid : Nat) :
    (s.snapFire src always).rec_ di tid = s.rec_ di tid := by
  rw [State.snapFire_frame]
  rfl

section
variable {s : State} {die di tid : Nat} {r : TransitRec} {y : Sync} {rest : List Sync} (hdi : s.ownDie die = di)
  (hrec : s.rec_ di tid = some r) (hsyncs : (s.die di).syncs = y :: rest) (htrans : s.translating di y = false)
  (hy : y.tid = some tid)
include hdi hrec hsyncs htrans hy

theorem tlbsyncComplete_waits (hstate : r.state ≠ .copying) (hh : r.hinted = false) (hm : s.memReady (s.moveKey di r.slot) = false) :
    execTlbsyncComplete die s = .next s :=
  execTlbsyncComplete_unready hdi hsyncs htrans hy (State.syncReady_slot_unready hrec hstate hh hm)

variable (hlast : ∀ z ∈ rest, z.tid ≠ some tid)
include hlast

theorem tlbsyncComplete_copying (hcopy : r.state = .copying) :
    ∃ t, execTlbsyncComplete die s = .next t ∧ t.rec_ di tid = some { r with sync := false } := by
  refine ⟨_, execTlbsyncComplete_synced hdi hsyncs htrans hy hlast (State.syncReady_copying hrec hcopy), ?_⟩
  exact State.recSynced_copying ((State.rec_congr (by rw [State.die_modDie_same]) tid).trans hrec) hcopy

/-- A move that has ended, and that no cancel order has met, frees its record; `u` is the state without its TLBSYNC. -/
theorem tlbsyncComplete_ended (hstate : r.state ≠ .copying) (hh : r.hinted = false) (hc : r.cancel = none)
    (hm : s.memReady (s.moveKey di r.slot) = true) :
    ∃ u : State, execTlbsyncComplete die s = .next (u.freeMove di tid r) ∧ u.mem = s.mem ∧ u.ctxs = s.ctxs ∧ u.posts = s.posts
      ∧ u.moveKey di r.slot = s.moveKey di r.slot := by
  have hrun := execTlbsyncComplete_synced hdi hsyncs htrans hy hlast ((State.syncReady_slot hrec hstate hh hc).trans hm)
  rw [State.recSynced_ended ((State.rec_congr (by rw [State.die_modDie_same]) tid).trans hrec) hstate] at hrun
  exact ⟨_, hrun, rfl, rfl, rfl, State.moveKey_congr (by rw [State.die_modDie_same]) r.slot⟩

variable (hh : r.hinted = false) (hc : r.cancel = none) (hm : s.memReady (s.moveKey di r.slot) = true)
include hh hc hm

/-- A move that is DONE: its order's slot has code 2, and nothing else is written. -/
theorem tlbsyncComplete_done (hstate : r.state = .done) :
    ∃ t, execTlbsyncComplete die s = .next t ∧ t.rec_ di tid = none
      ∧ ofBytes (t.mem.readN (s.moveKey di r.slot) 8) = (2 * 2 ^ 56 + tid * 2 ^ 44 + r.srcTier * 2 ^ 42 + r.srcFrame) % 2 ^ 64
      ∧ ∀ k, k < s.moveKey di r.slot ∨ s.moveKey di r.slot + 8 ≤ k → t.mem.read k = s.mem.read k := by
  obtain ⟨u, hrun, hmem, -, -, hkey⟩ := tlbsyncComplete_ended hdi hrec hsyncs htrans hy hlast (by simp [hstate]) hh hc hm
  rw [State.freeMove_done hstate hh hc] at hrun
  rw [← hkey, ← hmem]
  exact ⟨_, hrun, State.recordFreed_rec 2, State.recordFreed_word 2, fun k hk => State.recordFreed_read_out 2 hk⟩

/-- A move that was turned back: its order's slot has code 3, and a full event queue notes that it overflowed. -/
theorem tlbsyncComplete_aborted (hstate : r.state = .aborting) (hposts : ∀ p ∈ s.posts, p.1 ≠ r.ctx)
    (hfull : ringFull (s.ctx r.ctx).eqhead (s.ctx r.ctx).eqtail (s.ctx r.ctx).eqSize = true) :
    ∃ t, execTlbsyncComplete die s = .next t ∧ t.rec_ di tid = none ∧ (t.ctx r.ctx).eqOvf = true
      ∧ ofBytes (t.mem.readN (s.moveKey di r.slot) 8)
        = (3 * 2 ^ 56 + tid * 2 ^ 44 + r.srcTier * 2 ^ 42 + r.srcFrame) % 2 ^ 64 := by
  obtain ⟨u, hrun, -, hctxs, hposts', hkey⟩ := tlbsyncComplete_ended hdi hrec hsyncs htrans hy hlast (by simp [hstate]) hh hc hm
  have hctx : (u.recordFreed di tid 3 r).ctx r.ctx = s.ctx r.ctx := by rw [State.ctx, State.recordFreed_ctxs, hctxs, State.ctx]
  rw [State.freeMove_aborted hstate hh hc,
    State.postEvent_full (by rw [State.recordFreed_posts, hposts']; exact hposts) (by rw [hctx]; exact hfull)] at hrun
  refine ⟨_, hrun, ?_, ?_, ?_⟩
  · rw [State.snapFire_rec, State.setCtx_rec, State.recordFreed_rec]
  · rw [State.ctx, State.snapFire_ctxs, ← State.ctx, State.ctx_setCtx, if_pos rfl]
  · rw [State.snapFire_mem, State.setCtx_mem, ← hkey, State.recordFreed_word]

end

end Sys2Proof.Machine

namespace Sys2Proof.Proofs
open Sys2Proof.Machine Sys2Proof.Safety

/-- Settles O50: an order by the first condition of R363 that it meets, a cancel order by the record that it names, a line's copy by its
turn and by what becomes of its destination, and the TLBSYNC of a record by the record's state. -/
theorem moves : Obligations.Moves := by
  intro s die hd di d b n slotKey i K w va frame ctx tier size cmd bytes reserved misplaced leaf badTier there word taken entry apart
  have hdi : s.ownDie die = di := s.ownDie_eq hd
  have hn : d.moveSize = n := ringSlots_eq _
  have hslot (j : Nat) : s.moveKey di j = slotKey j := s.moveKey_eq di j
  have hK : s.moveKey di d.txrhead.toNat = K := hslot _
  have horder : s.headOrder di = Machine.orderOf w := by rw [State.headOrder, hK]
  have hva : (s.headOrder di).va = va := by rw [horder, orderOf_va]
  have hctx : (s.headOrder di).ctx = ctx := by rw [horder, orderOf_ctx]
  have hcmd : (s.headOrder di).cmd = cmd := by rw [horder, orderOf_cmd]
  have htier : (s.headOrder di).tier = tier := by rw [horder, orderOf_tier]
  have hframe : (s.headOrder di).frame = frame := by rw [horder, orderOf_frame]
  have hbytes : sizeBytes (s.headOrder di).size = bytes := by rw [horder, orderOf_size, sizeBytes_eq]
  have hreserved : (s.headOrder di).reserved = true ↔ reserved := by rw [horder]; exact orderOf_reserved_iff w
  have hmisplaced : (s.headOrder di).misplaced di = true ↔ misplaced := by rw [Order.misplaced_iff, hva, hbytes, hcmd, hframe]
  have hbadTier : s.badTier di (s.headOrder di) = true ↔ badTier := by rw [State.badTier_iff, htier, hframe, hbytes]
  have hleaf : s.leafNow (s.headOrder di).ctx (s.headOrder di).va = leaf := by rw [hctx, hva]
  have hthere : s.OrderThere di ↔ there := by rw [State.OrderThere, hn, hK, hctx, hva]
  have hrefused {t : State} {code : Nat} (h : OrderRefused s t di code) : taken t code ∧ (t.die di).recs = d.recs := by
    obtain ⟨hword, hhead, hothers, hrecs⟩ := h
    rw [hK] at hword hothers
    rw [hn] at hhead
    exact ⟨⟨hword, hhead, hothers⟩, hrecs⟩
  have hunreserved (h : ¬reserved) : (s.headOrder di).reserved = false := Bool.eq_false_iff.mpr fun k => h (hreserved.mp k)
  have hplaced (h : ¬misplaced) : (s.headOrder di).misplaced di = false := Bool.eq_false_iff.mpr fun k => h (hmisplaced.mp k)
  refine ⟨fun h => ⟨execMoveOrder_waits hdi (.inl (mt hthere.mp h)), execCancelOrder_waits hdi (.inl (mt hthere.mp h))⟩,
    fun _ hc => execMoveOrder_waits hdi (.inr (hcmd.trans hc)), fun _ hc => execCancelOrder_waits hdi (.inr (hcmd ▸ hc)),
    fun h hc => ?orders, fun h hc => ?cancels, fun val => ?tail, fun tid r hrec => ?moves⟩
  case orders =>
    have hmove : (s.headOrder di).cmd ≠ 1 := hcmd ▸ hc
    intro refused
    have hcode {code : Nat} (hanswer : s.moveCode di (s.headOrder di) leaf = code) (hne : code ≠ 1) (hlt : code < 256) :
        refused code := by
      obtain ⟨t, hrun, ht⟩ := execMoveOrder_refused hdi (hthere.mpr h) hmove (by rw [hleaf]; exact hanswer) hne hlt
      exact ⟨t, hrun, hrefused ht⟩
    refine ⟨fun hr => hcode (State.moveCode_reserved (hreserved.mpr hr) _) (by decide) (by decide),
      fun hr hm => hcode (State.moveCode_misplaced (hunreserved hr) (hmisplaced.mpr hm) _) (by decide) (by decide),
      fun hr hm hl => hcode (by rw [hl, State.moveCode_unmapped (hunreserved hr) (hplaced hm)]) (by decide) (by decide),
      fun l hr hm hl => ?_⟩
    have hleafCode := State.moveCode_leaf (s := s) (hunreserved hr) (hplaced hm) l
    rw [hbytes, htier] at hleafCode
    refine ⟨fun hsize => hcode ?_ (by decide) (by decide), fun hsize hstate => hcode ?_ (by decide) (by decide),
      fun hsize hstate hsame => hcode ?_ (by decide) (by decide), fun hsize hstate hother hbad => hcode ?_ (by decide) (by decide),
      fun hsize hstate hother hbad hapart tid hfree => ?_⟩
    · rw [hl, hleafCode, if_pos hsize]
    · rw [hl, hleafCode, if_neg (not_not.mpr hsize), if_pos hstate]
    · rw [hl, hleafCode, if_neg (not_not.mpr hsize), if_neg (not_not.mpr hstate), if_pos hsame]
    · rw [hl, hleafCode, if_neg (not_not.mpr hsize), if_neg (not_not.mpr hstate), if_neg hother, if_pos (hbadTier.mpr hbad)]
    · rw [if_neg (not_not.mpr hsize), if_neg (not_not.mpr hstate), if_neg hother, if_neg (mt hbadTier.mp hbad)] at hleafCode
      obtain ⟨t, hrun, hrec, hword, hhead, hentry, hsyncs⟩ := moveOrder_accepted hdi (hthere.mpr h) hmove (hleaf.trans hl) hleafCode
        hfree (by rw [hK]; exact hapart)
      rw [hK] at hword
      rw [hn] at hhead
      rw [hctx] at hsyncs
      exact ⟨t, _, hrun, hrec, hword, hhead, hentry, hsyncs, rfl, hva, hctx, hsize, rfl, rfl, htier, hframe, rfl, rfl, rfl, rfl⟩
  case cancels =>
    have hcancel : (s.headOrder di).cmd = 1 := hcmd.trans hc
    have hnames (r : TransitRec) : (s.headOrder di).names r = true ↔ r.va = va ∧ r.ctx = ctx ∧ r.state = .copying := by
      rw [Order.names_iff, hva, hctx]
    intro refused
    refine ⟨fun hr => ?_, fun hr hm => ?_, fun hr hm hnone => ?_, fun tid r hr hm hrecs hrva hrctx hcopy => ?_⟩
    · obtain ⟨t, hrun, ht⟩ := execCancelOrder_refused hdi (hthere.mpr h) hcancel (.inl ⟨hreserved.mpr hr, rfl⟩)
      exact ⟨t, hrun, hrefused ht⟩
    · obtain ⟨t, hrun, ht⟩ := execCancelOrder_refused hdi (hthere.mpr h) hcancel
        (.inr (.inl ⟨hunreserved hr, hmisplaced.mpr hm, rfl⟩))
      exact ⟨t, hrun, hrefused ht⟩
    · obtain ⟨t, hrun, ht⟩ := execCancelOrder_refused hdi (hthere.mpr h) hcancel
        (.inr (.inr ⟨hunreserved hr, hplaced hm, fun p hp => mt (hnames p.2).mp (hnone p hp), rfl⟩))
      exact ⟨t, hrun, hrefused ht⟩
    · have hdone := cancelOrder_cancels hdi (hthere.mpr h) hcancel (hunreserved hr) (hplaced hm) hrecs
        ((hnames r).mpr ⟨hrva, hrctx, hcopy⟩)
      rw [hK] at hdone
      exact hdone
  case tail =>
    intro ahead v
    have hmay : d.txMayMove val = true ↔ n ≠ 0 ∧ ahead d.txrtail.toNat ≤ ahead v := by
      have h := d.txMayMove_iff val
      unfold Die.moveAhead at h
      rw [hn] at h
      exact h
    have hwait (h : ¬ d.txMayMove val = true) : Waits (.txrtailWrite die val) s := execTxrtailWrite_waits hdi h
    refine ⟨fun h0 => hwait fun k => (hmay.mp k).1 h0, fun _ hlt => hwait fun k => absurd hlt (Nat.not_lt.mpr (hmay.mp k).2),
      fun h0 hle => ?_⟩
    obtain ⟨t, hrun, hrest, hdie, -⟩ := execTxrtailWrite_moves hdi (hmay.mpr ⟨h0, hle⟩)
    rw [show (s.die di).moveSize = n from hn] at hdie
    exact ⟨t, hrun, hrest, hdie⟩
  case moves =>
    intro at_ src dst later turn free copied aborts
    have hfree : s.copyFree di r = true ↔ free := by
      rw [State.copyFree_iff hrec, State.canCopy_iff]
      simp only [and_assoc]
      rfl
    refine ⟨fun hidle => ?idle, fun hcopy => ?abort, fun err hw => execCopyLine_waits hdi hrec (mt hfree.mp hw),
      fun x f m err hx hinj hf hnode hdie hslice hserve => ?behind, fun h => copyLine_turnedBack hdi hrec (hfree.mpr h) (.inl rfl),
      fun err h hu => copyLine_turnedBack hdi hrec (hfree.mpr h) (.inr hu), fun err h herr hu => ?copies,
      fun y rest hsyncs htrans hy hlast => ?synced⟩
    case idle => exact (execMoveAbort_eq hdi).trans (by rw [State.abortMove_idle hrec hidle])
    case abort =>
      obtain ⟨t, hrun, hrecord, hentry, hdie⟩ := moveAbort_turnedBack hdi hrec hcopy
      exact ⟨t, hrun, hdie.spent, hdie.copied, hrecord, hentry⟩
    case behind =>
      exact execCopyLine_waits hdi hrec (State.copyFree_behind (State.copyNext_behind hx hinj hf hnode hdie hslice hserve))
    case copies =>
      by_cases hlast : (r.cursor + 1) * 128 = r.size
      · obtain ⟨t, q, hrun, hq, hspent, hcopied, hdone, hback⟩ := copyLine_switches hdi hrec (hfree.mpr h) herr hu hlast
        exact ⟨t, q, hrun, hq, hspent, hcopied, fun hne => absurd hlast hne, fun _ => ⟨hdone, hback⟩⟩
      · obtain ⟨t, hrun, hq, hspent, hcopied, hbytes, hothers, hdst, hsrc⟩ := copyLine_moves hdi hrec (hfree.mpr h) herr hu hlast
        refine ⟨t, _, hrun, hq, hspent, hcopied, fun _ => ⟨rfl, hbytes, hothers, ?_, (congrArg LineMeta.tag hdst).trans rfl⟩,
          fun heq => absurd heq hlast⟩
        intro bad
        refine ⟨congrArg LineMeta.poison hdst, fun hbad => (congrArg LineMeta.poison hsrc).trans ?_⟩
        exact (congrArg (_ || ·) hbad).trans (Bool.or_true _)
    case synced =>
      rw [← hslot]
      exact ⟨tlbsyncComplete_copying hdi hrec hsyncs htrans hy hlast, tlbsyncComplete_waits hdi hrec hsyncs htrans hy,
        fun hstate hh hc hm => tlbsyncComplete_done hdi hrec hsyncs htrans hy hlast hh hc hm hstate,
        fun hstate hh hc hm => tlbsyncComplete_aborted hdi hrec hsyncs htrans hy hlast hh hc hm hstate⟩

end Sys2Proof.Proofs
end

section
namespace Sys2Proof.Machine
open Sys2Proof.Safety

/-! ### A link record in a context's event queue (R110, R139, R140) -/

/-- The upper 64 bits of a LINK_DEGRADE record: everything but TIME (R110). -/
theorem degradeBits_upper (reason : Nat) (rx : Bool) (plane group : Nat) (live : BitVec 16) (replayed : Nat)
    (time : DWord) : degradeBits reason rx plane group live replayed time / 2 ^ 64
      = 0x41 * 2 ^ 56 + reason * 2 ^ 52 + (if rx then 2 ^ 51 else 0) + plane % 64 * 2 ^ 45 + group % 4 * 2 ^ 43 + live.toNat * 2 ^ 27
        + replayed % 2 ^ 16 * 2 ^ 11 := by
  have htime := time.isLt
  unfold degradeBits b2n
  cases rx <;> simp only [if_true, Bool.false_eq_true, if_false] <;> omega

theorem toBytes_drop (m n v : Nat) : (toBytes v (m + n)).drop m = toBytes (v / 256 ^ m) n := by
  induction m generalizing v with
  | zero => simp
  | succ m ih =>
    rw [show m + 1 + n = (m + n) + 1 by omega, toBytes, List.drop_succ_cons, ih, Nat.div_div_eq_div_mul, pow_succ']

theorem Memory.readN_append (m : Memory) (k a b : Nat) : (m.readN k (a + b)).drop a = m.readN (k + a) b := by
  refine List.ext_getElem (by simp) fun i h _ => ?_
  simp [Memory.readN, Nat.add_assoc]

/-- The second word of 16 bytes that were written by physical address. -/
theorem State.raw64_unitWrite_upper (s : State) (k v : Nat) :
    (s.unitWrite k (toBytes v 16)).raw64 (k + 8) = BitVec.ofNat 64 (v / 2 ^ 64) := by
  have h := Memory.readN_writeN s.mem k (toBytes v 16)
  rw [length_toBytes] at h
  rw [State.raw64, State.unitWrite_mem, ← Memory.readN_append _ k 8 8, h, toBytes_drop 8 8, ofBytes_toBytes]
  exact BitVec.eq_of_toNat_eq (by simp)

/-- A record whose queue has room, and whose slot's memory is ready, lies in that slot (R139, R140). -/
theorem State.raw64_postEvent {s : State} {ctx : Nat} (hready : s.eventReady ctx = true)
    (hroom : ringFull (s.ctx ctx).eqhead (s.ctx ctx).eqtail (s.ctx ctx).eqSize = false) (bits : Nat) :
    (s.postEvent ctx bits).2.raw64 (s.eqKey (s.ctx ctx) (s.ctx ctx).eqtail.toNat + 8) = BitVec.ofNat 64 (bits / 2 ^ 64) := by
  unfold State.postEvent
  dsimp only
  rw [hready, hroom, Bool.not_true, if_neg Bool.false_ne_true, if_neg Bool.false_ne_true, ← s.raw64_unitWrite_upper]
  exact State.raw64_congr_mem (State.setCtx_mem _ _ _) _

/-- The record of a link that degrades is in the queue of the one context that is resident (R110). -/
theorem State.raw64_linkDegrade {s : State} {ctx : Nat} (hres : s.residentCtxs = [ctx]) (hready : s.eventReady ctx = true)
    (hroom : ringFull (s.ctx ctx).eqhead (s.ctx ctx).eqtail (s.ctx ctx).eqSize = false) (reason : Nat) (rx : Bool)
    (plane group : Nat) (live : BitVec 16) (replayed : Nat) :
    (s.linkDegrade reason rx plane group live replayed).raw64 (s.eqKey (s.ctx ctx) (s.ctx ctx).eqtail.toNat + 8)
      = BitVec.ofNat 64 (0x41 * 2 ^ 56 + reason * 2 ^ 52 + (if rx then 2 ^ 51 else 0) + plane % 64 * 2 ^ 45 + group % 4 * 2 ^ 43
        + live.toNat * 2 ^ 27 + replayed % 2 ^ 16 * 2 ^ 11) := by
  set time := pair (Config.freeWord s.tick 911) (Config.freeWord s.tick 910)
  set bits := degradeBits reason rx plane group live replayed time
  set u : State := { s with linkRing := s.linkRing ++ [BitVec.ofNat 128 bits] }
  have hrun : s.linkDegrade reason rx plane group live replayed = (u.postEvent ctx bits).2.snapFire 16 false := by
    show (u.residentCtxs.foldl (fun t c => (t.postEvent c bits).2) u).snapFire 16 false = _
    rw [show u.residentCtxs = [ctx] from hres]
    rfl
  rw [hrun, State.raw64_congr_mem (State.snapFire_mem _ _ _), ← degradeBits_upper reason rx plane group live replayed time]
  exact State.raw64_postEvent (s := u) hready hroom bits

theorem State.postEvent_lost (s : State) (ctx bits : Nat) :
    (s.postEvent ctx bits).2.downPorts = s.downPorts ∧ (s.postEvent ctx bits).2.lostPeers = s.lostPeers := by
  unfold State.postEvent
  dsimp only
  split
  · exact ⟨rfl, rfl⟩
  · split
    · exact ⟨rfl, rfl⟩
    · rw [State.unitWrite_eq]
      exact ⟨rfl, rfl⟩

/-- The ports and the peers that are lost stay the same while a record is posted. -/
theorem State.linkDegrade_lost (s : State) (reason : Nat) (rx : Bool) (plane group : Nat) (live : BitVec 16) (replayed : Nat) :
    (s.linkDegrade reason rx plane group live replayed).downPorts = s.downPorts
      ∧ (s.linkDegrade reason rx plane group live replayed).lostPeers = s.lostPeers := by
  have hposts : ∀ (bits : Nat) (l : List Nat) (t : State), (l.foldl (fun t c => (t.postEvent c bits).2) t).downPorts = t.downPorts
      ∧ (l.foldl (fun t c => (t.postEvent c bits).2) t).lostPeers = t.lostPeers := by
    intro bits l
    induction l with
    | nil => exact fun _ => ⟨rfl, rfl⟩
    | cons c l ih =>
      intro t
      obtain ⟨hd, hp⟩ := ih (t.postEvent c bits).2
      obtain ⟨kd, kp⟩ := t.postEvent_lost c bits
      exact ⟨hd.trans kd, hp.trans kp⟩
  unfold State.linkDegrade
  dsimp only
  rw [State.snapFire_frame]
  exact hposts _ _ _

/-! ### A port that goes down beneath an event queue that lies over a page table (R87, R89, R110, R114) -/

/-- A move of a page of 1 GiB out of an expander on port 1. -/
def outOfPort : TransitRec where
  state    := .copying
  va       := 0x40000000
  ctx      := 0
  size     := 2 ^ 30
  srcTier  := 2
  srcFrame := 2 ^ 34
  dstTier  := 0
  dstFrame := 0
  cursor   := 0
  order    := 0
  hinted   := false
  slot     := 0
  cancel   := none
  reason   := 0
  sync     := false
  age      := 0

/-- The move is under way, with its leaf at 0x20008, and slot 0 of the event queue of the resident context is the 16 bytes from 0x20000 on. -/
def queueOverLeaf : State :=
  { State.reset with
    ready := BitVec.allOnes 64
    mem := ((Memory.writeN [] 0 (toBytes 0x10003 8)).writeN 0x10000 (toBytes 0x4000001 8)).writeN 0x20008 (toBytes 0x4201 8)
    dies := [(0, { Die.empty with recs := [(0, outOfPort)] })]
    ctxs := [(0, { Ctx.empty with eqbase := 0x20004 })]
    units := [(1, ⟨1, 0, 0, 0, [], 0, 0, none, 0, 0, 1, false, false⟩)] }

theorem queueOverLeaf_alone {d : Nat} {p : Nat × TransitRec} (hd : d < 4)
    (hp : p ∈ (queueOverLeaf.die (4 * queueOverLeaf.node.toNat + d)).recs) : d = 0 ∧ p = (0, outOfPort) := by
  interval_cases d
  · exact ⟨rfl, List.mem_singleton.mp hp⟩
  all_goals cases hp

/-- The state before the record is posted: the move is turned back. -/
def queueOverLeafAborted : State :=
  (({ queueOverLeaf with downPorts := [1] } : State).abortWhere 2 fun r => onPort 1 r.srcTier r.srcFrame).abortWhere 1 fun r =>
    onPort 1 r.dstTier r.dstFrame

theorem execPortLinkDown_queueOverLeaf :
    exec (.portLinkDown 1) queueOverLeaf = .next (queueOverLeafAborted.linkDegrade 6 false 1 0 0 0) := rfl

theorem recLeaf_outOfPort : ({ queueOverLeaf with downPorts := [1] } : State).recLeaf 0 outOfPort = some ⟨0x4201, 30, 0x20008⟩ := by
  decide

theorem queueOverLeafAborted_posts : queueOverLeafAborted.residentCtxs = [0] ∧ queueOverLeafAborted.eventReady 0 = true
    ∧ ringFull (queueOverLeafAborted.ctx 0).eqhead (queueOverLeafAborted.ctx 0).eqtail (queueOverLeafAborted.ctx 0).eqSize = false
    ∧ queueOverLeafAborted.eqKey (queueOverLeafAborted.ctx 0) (queueOverLeafAborted.ctx 0).eqtail.toNat = 0x20000
    ∧ queueOverLeafAborted.downPorts = [1] ∧ queueOverLeafAborted.lostPeers = [] := by decide

end Sys2Proof.Machine

namespace Sys2Proof.Proofs
open Sys2Proof.Machine Sys2Proof.Safety

/-- Refutes O54: where the event queue of a resident context lies over the leaf of a move, the record of the port that goes down is written
over the leaf that the abort has just turned back. -/
theorem not_links : ¬ Obligations.Links := by
  intro h
  obtain ⟨-, -, -, -, -, -, -, hports, -⟩ := h queueOverLeaf
  obtain ⟨-, hdown, -⟩ := hports 1
  obtain ⟨t, hrun, -, -, -, -, -, hends, -⟩ := hdown (by decide)
  obtain rfl := Host.Outcome.next.inj (execPortLinkDown_queueOverLeaf.symm.trans hrun)
  obtain ⟨hres, hready, hroom, hkey, hdownPorts, hlost⟩ := queueOverLeafAborted_posts
  obtain ⟨kdown, klost⟩ := queueOverLeafAborted.linkDegrade_lost 6 false 1 0 0 0
  have hrecord := State.raw64_linkDegrade hres hready hroom 6 false 1 0 0 0
  obtain ⟨-, hleaf⟩ := hends 0 0 outOfPort (by decide) (by decide) rfl rfl (by decide) fun d p hd hp _ _ => queueOverLeaf_alone hd hp
  rw [kdown, klost, hdownPorts, hlost] at hleaf
  have hturned := hleaf ⟨0x4201, 30, 0x20008⟩ recLeaf_outOfPort
  rw [hkey] at hrecord
  exact absurd (hrecord.symm.trans hturned) (by decide)

end Sys2Proof.Proofs
end

section
namespace Sys2Proof.Machine
open Sys2Proof.Safety

/-! ### The tables of the work hierarchy (R295-R297) -/

theorem Tab.find?_put_ne {α : Type} (t : Tab α) {k k' : Nat} (v : α) (h : k ≠ k') :
    (Tab.put t k v).find? (fun p => p.1 == k') = t.find? fun p => p.1 == k' := by
  induction t with
  | nil => simp [Tab.put, h]
  | cons p t ih =>
    obtain ⟨j, u⟩ := p
    unfold Tab.put
    split
    · next hj => simp [hj, h]
    · split
      · simp [h]
      · rw [List.find?_cons, List.find?_cons, ih]

/-- The table of named objects holds an object just where its handle names it. -/
theorem State.handle_eq_some {s : State} {h : Word} {x : Handle} :
    s.handle h = some x ↔ s.handles.find? (fun p => p.1 == h.toNat) = some (h.toNat, x) := by
  rw [State.handle, Option.map_eq_some_iff]
  constructor
  · rintro ⟨p, hp, rfl⟩
    rw [hp, ← Tab.find?_key hp]
  · exact fun hx => ⟨_, hx, rfl⟩

theorem State.handle_congr {s t : State} (h : t.handles = s.handles) (w : Word) : t.handle w = s.handle w := by
  rw [State.handle, h, State.handle]

theorem State.handle_modHandle_same (s : State) (h : Word) (f : Handle → Handle) : (s.modHandle h f).handle h = (s.handle h).map f := by
  unfold State.modHandle
  cases hx : s.handle h with
  | none => exact hx
  | some x => exact State.handle_eq_some.mpr (Tab.find?_put _ _ _)

theorem State.handle_modHandle_ne (s : State) {h w : Word} (f : Handle → Handle) (hne : h ≠ w) :
    (s.modHandle h f).handle w = s.handle w := by
  unfold State.modHandle
  cases s.handle h with
  | none => rfl
  | some x => rw [State.handle, Tab.find?_put_ne _ _ (fun k => hne (BitVec.eq_of_toNat_eq k)), State.handle]

/-- The number that the next launch handle has (R295, log 49). -/
def State.launchNumber (s : State) : Nat := 2 ^ 29 + s.nextSer % 2 ^ 29

/-- The next launch handle. -/
def State.launchHandle (s : State) : Word := BitVec.ofNat 32 s.launchNumber

theorem State.launchNumber_lt (s : State) : s.launchNumber < 2 ^ 30 := by
  have := Nat.mod_lt s.nextSer (y := 2 ^ 29) (by decide)
  unfold State.launchNumber
  omega

theorem State.launchHandle_toNat (s : State) : s.launchHandle.toNat = s.launchNumber := by
  have := s.launchNumber_lt
  rw [State.launchHandle, BitVec.toNat_ofNat, Nat.mod_eq_of_lt (by omega)]

/-- A handle of another level is not the next launch handle. -/
theorem State.launchHandle_ne (s : State) {h : Word} (hl : handleLevel h = 2) : h ≠ s.launchHandle := by
  rintro rfl
  have := s.launchNumber_lt
  rw [handleLevel, s.launchHandle_toNat, bitsNat] at hl
  omega

theorem State.newHandle_launch (s : State) (x : Handle) :
    s.newHandle 1 x = (s.launchHandle, { s with handles := Tab.put s.handles s.launchNumber x, nextSer := s.nextSer + 1 }) := by
  rw [State.newHandle, Nat.one_mul]
  rfl

/-- A new launch handle names its object, and every other handle names what it did. -/
theorem State.handle_newLaunch (s : State) (x : Handle) :
    (s.newHandle 1 x).2.handle s.launchHandle = some x ∧ ∀ h, h ≠ s.launchHandle → (s.newHandle 1 x).2.handle h = s.handle h := by
  rw [State.newHandle_launch]
  refine ⟨?_, fun h hne => ?_⟩
  · rw [State.handle_eq_some, s.launchHandle_toNat]
    exact Tab.find?_put _ _ _
  · rw [State.handle, Tab.find?_put_ne, State.handle]
    exact fun k => hne (BitVec.eq_of_toNat_eq (s.launchHandle_toNat ▸ k.symm))

/-! ### Reading a launch record (R102, R298-R300) -/

/-- From `s` to `t` the distributor has read by virtual address: memory, the groups and the tables of the work hierarchy stand. -/
structure ReadsRecord (s t : State) : Prop where
  mem      : t.mem = s.mem
  groups   : t.groups = s.groups
  cur      : t.cur = s.cur
  handles  : t.handles = s.handles
  nextSer  : t.nextSer = s.nextSer
  launches : t.launches = s.launches

theorem ReadsRecord.refl (s : State) : ReadsRecord s s := ⟨rfl, rfl, rfl, rfl, rfl, rfl⟩

theorem ReadsRecord.trans {s t u : State} (h : ReadsRecord s t) (k : ReadsRecord t u) : ReadsRecord s u :=
  ⟨k.mem.trans h.mem, k.groups.trans h.groups, k.cur.trans h.cur, k.handles.trans h.handles, k.nextSer.trans h.nextSer,
    k.launches.trans h.launches⟩

theorem MemStep.readsRecord {s t : State} (h : MemStep s t) (hm : t.mem = s.mem) : ReadsRecord s t :=
  ⟨hm, h.groups, h.cur, by rw [h.frame], by rw [h.frame], by rw [h.frame]⟩

theorem FetchStep.readsRecord {s t : State} (h : FetchStep s t) : ReadsRecord s t :=
  ⟨h.mem, h.groups, h.cur, by rw [h.frame], by rw [h.frame], by rw [h.frame]⟩

theorem State.crossAll_readsRecord (s : State) (gate ctx : Nat) (lease : Option Word) (a : Access) (ls : List (DWord × Nat)) :
    ReadsRecord s (s.crossAll gate ctx lease a ls) := by
  unfold State.crossAll
  induction ls generalizing s with
  | nil => exact ReadsRecord.refl s
  | cons x ls ih => exact (s.cross_fetchStep gate ctx lease a x.1 x.2).readsRecord.trans (ih _)

theorem State.distRead_readsRecord (s : State) (ctx : Nat) (va : DWord) (n : Nat) : ReadsRecord s (s.distRead ctx va n).2 := by
  have h := (s.vRead_memStep ctx va n).readsRecord (s.vRead_mem ctx va n)
  unfold State.distRead
  split
  · exact ReadsRecord.refl s
  · split <;> (next heq => rw [heq] at h; exact h)

theorem State.readLaunch_readsRecord (s : State) (ctx : Nat) (va : DWord) : ReadsRecord s (s.readLaunch ctx va).2 := by
  have hcross := s.crossAll_readsRecord 0 ctx none .load (s.launchLines ctx va)
  unfold State.readLaunch
  generalize s.crossAll 0 ctx none .load (s.launchLines ctx va) = u at hcross
  have hread := hcross.trans (u.distRead_readsRecord ctx va 256)
  dsimp only
  split
  · next heq => rw [heq] at hread; exact hread
  · next bs v heq =>
    rw [heq] at hread
    split
    · exact hread
    · have hmore := hread.trans (v.distRead_readsRecord ctx (BitVec.ofNat 64 (recWord bs 3)) (16 * (bitsNat (recWord bs 6) 53 48 - 10)))
      split
      · next heq => rw [heq] at hmore; exact hmore
      · next heq =>
        rw [heq] at hmore
        split <;> exact hmore

/-- An aligned record of 256 bytes is two lines. -/
theorem linesOf_record {va : DWord} (ha : va.toNat % 256 = 0) : linesOf va 256 false = [(va, 0), (va + 128#64, 0)] := by
  have h0 : va.toNat % 128 = 0 := by omega
  simp [linesOf, linesFrom, h0]

/-- Both lines of an aligned record are at one node. -/
theorem nodeOf_record {va : DWord} (ha : va.toNat % 256 = 0) : nodeOf (va + 128#64) = nodeOf va := by
  have h := va.isLt
  unfold nodeOf bitsNat
  rw [BitVec.toNat_add]
  simp only [BitVec.reduceToNat]
  omega

/-- The distributor may send a request for a node that is there, where it is the own one or the context has its key (R106). -/
theorem State.distOpen_iff {s : State} {ctx : Nat} {va : DWord} (hp : s.populated (nodeOf va) = true) :
    s.distOpen ctx va = true ↔ nodeOf va = s.node.toNat ∨ s.keyOn (4 * s.node.toNat) ctx = true := by
  rw [State.distOpen, hp, Bool.true_and, State.keyedFor, State.ownDie_eq s (by decide), Bool.or_eq_true, beq_iff_eq, Nat.add_zero]

section
variable {s : State} {ctx : Nat} {va : DWord} (ha : va.toNat % 256 = 0)
include ha

/-- Both lines of an aligned record are open when the first is. -/
theorem State.distOpen_second : s.distOpen ctx (va + 128#64) = s.distOpen ctx va := by
  rw [State.distOpen, State.distOpen, State.keyedFor, State.keyedFor, nodeOf_record ha]

variable (hp : s.populated (nodeOf va) = true)
include hp

/-- The record of a node for which the context has no key cannot be read (R106). -/
theorem State.readLaunch_shut (hk : ¬(nodeOf va = s.node.toNat ∨ s.keyOn (4 * s.node.toNat) ctx = true)) :
    (s.readLaunch ctx va).1 = none := by
  have hshut : s.distOpen ctx va = false := Bool.eq_false_iff.mpr (mt (State.distOpen_iff hp).mp hk)
  have hread : s.distRead ctx va 256 = (none, s) := by simp [State.distRead, linesOf_record ha, hshut]
  have hlines : s.launchLines ctx va = [] := by
    simp [State.launchLines, hread, linesOf_record ha, hshut, State.distOpen_second ha]
  unfold State.readLaunch
  rw [hlines, State.crossAll, List.foldl_nil]
  dsimp only
  rw [hread]

/-- A record of which a line's memory is not ready may not be read yet (R358). -/
theorem State.mayReadLaunch_unready (hk : nodeOf va = s.node.toNat ∨ s.keyOn (4 * s.node.toNat) ctx = true)
    (hr : s.homeReady ctx (noPath va) = false ∨ s.homeReady ctx (noPath (va + 128#64)) = false) : s.mayReadLaunch ctx va = false := by
  have hopen := (State.distOpen_iff hp).mpr hk
  have hlines : ∀ x ∈ [va, va + 128#64], (x, 0) ∈ s.launchLines ctx va := by
    simp [State.launchLines, linesOf_record ha, hopen, State.distOpen_second ha]
  have hunready : ((s.launchLines ctx va).all fun x => s.homeReady ctx (noPath x.1)) = false := by
    rw [List.all_eq_false]
    rcases hr with hr | hr
    · exact ⟨(va, 0), hlines va (by simp), by simp [hr]⟩
    · exact ⟨(va + 128, 0), hlines (va + 128#64) (by simp), by simp [hr]⟩
  rw [State.mayReadLaunch, hunready, Bool.false_and]

end

/-! ### A launch that the distributor takes or rejects (R296, R300, R301) -/

/-- `t` is `s` with a new launch handle in the tables of the work hierarchy. -/
structure NewLaunch (s t : State) (x : Handle) : Prop where
  mem     : t.mem = s.mem
  groups  : t.groups = s.groups
  cur     : t.cur = s.cur
  nextSer : t.nextSer = s.nextSer + 1
  handle  : t.handle s.launchHandle = some x

theorem State.modHandle_frame (s : State) (h : Word) (f : Handle → Handle) :
    s.modHandle h f = { s with handles := (s.modHandle h f).handles } := by
  unfold State.modHandle
  cases s.handle h <;> rfl

theorem State.launchHandle_congr {s t : State} (h : t.nextSer = s.nextSer) : t.launchHandle = s.launchHandle := by
  rw [State.launchHandle, State.launchNumber, h, State.launchHandle, State.launchNumber]

theorem State.newHandle_newLaunch {s u : State} (x : Handle) (hu : u = { s with handles := u.handles }) :
    (u.newHandle 1 x).1 = s.launchHandle ∧ NewLaunch s (u.newHandle 1 x).2 x ∧ (u.newHandle 1 x).2.launches = s.launches := by
  have hser : u.nextSer = s.nextSer := by rw [hu]
  have hhandle := (u.handle_newLaunch x).1
  have hnum := State.launchHandle_congr hser
  rw [hnum] at hhandle
  refine ⟨hnum, ⟨by rw [hu]; rfl, by rw [hu]; rfl, by rw [hu]; rfl, by rw [hu]; rfl, hhandle⟩, by rw [hu]; rfl⟩

/-- A rejected launch has a failed handle, and no launch enters the distributor (R300). -/
theorem State.rejectLaunch_failed (s : State) (ctx : Nat) (graph : Word) :
    (s.rejectLaunch ctx graph).1 = s.launchHandle
      ∧ NewLaunch s (s.rejectLaunch ctx graph).2 ⟨ctx, graph, .failed, 0, true, true, false⟩
      ∧ (s.rejectLaunch ctx graph).2.launches = s.launches := by
  unfold State.rejectLaunch
  dsimp only
  split
  · exact State.newHandle_newLaunch _ (s.modHandle_frame _ _)
  · exact State.newHandle_newLaunch _ rfl

/-- A launch that is taken has a running handle, its graph one child more, and no unit of it is placed (R296, R301). -/
theorem State.takeLaunch_running {s : State} (r : LaunchRec) {graph : Word} (hlevel : handleLevel graph = 2) :
    (s.takeLaunch r graph).1 = s.launchHandle
      ∧ NewLaunch s (s.takeLaunch r graph).2 ⟨r.ctx, graph, .running, r.total, true, false, false⟩
      ∧ (s.takeLaunch r graph).2.handle graph = (s.handle graph).map (fun p => { p with count := p.count + 1 })
      ∧ (s.takeLaunch r graph).2.launches.find? (fun x => x.1 == s.launchNumber)
        = some (s.launchNumber, ⟨r, s.nextLaunch, 0, 0, false, false, false⟩) := by
  have hu := s.modHandle_frame graph fun p => { p with count := p.count + 1 }
  have hcount := s.handle_modHandle_same graph fun p => { p with count := p.count + 1 }
  unfold State.takeLaunch
  dsimp only
  generalize s.modHandle graph _ = u at hu hcount ⊢
  obtain ⟨hnum, hnew, -⟩ := State.newHandle_newLaunch ⟨r.ctx, graph, .running, r.total, true, false, false⟩ hu
  have hother := (u.handle_newLaunch ⟨r.ctx, graph, .running, r.total, true, false, false⟩).2 graph (u.launchHandle_ne hlevel)
  have hnext : u.nextLaunch = s.nextLaunch := by rw [hu]
  refine ⟨hnum, ⟨hnew.mem, hnew.groups, hnew.cur, hnew.nextSer, hnew.handle⟩, hother.trans hcount, ?_⟩
  rw [hnum, s.launchHandle_toNat, State.newHandle_launch, hnext]
  exact Tab.find?_put _ _ _

end Sys2Proof.Machine
end

section
namespace Sys2Proof.Machine
open Sys2Proof.Safety

/-! ### What a cancellation keeps (R296, R303) -/

/-- Whatever `t` has, `u` has under the same key, and `P` holds of it still. -/
def Tab.Keeps {α : Type} (P : α → Prop) (t u : Tab α) : Prop :=
  ∀ k a, t.find? (fun p => p.1 == k) = some (k, a) → ∃ b, u.find? (fun p => p.1 == k) = some (k, b) ∧ (P a → P b)

theorem Tab.Keeps.refl {α : Type} {P : α → Prop} (t : Tab α) : Tab.Keeps P t t := fun _ a h => ⟨a, h, id⟩

theorem Tab.Keeps.trans {α : Type} {P : α → Prop} {t u v : Tab α} (h : Tab.Keeps P t u) (k : Tab.Keeps P u v) : Tab.Keeps P t v := by
  intro n a ha
  obtain ⟨b, hb, hab⟩ := h n a ha
  obtain ⟨c, hc, hbc⟩ := k n b hb
  exact ⟨c, hc, hbc ∘ hab⟩

theorem Tab.keeps_put {α : Type} {P : α → Prop} {t : Tab α} {k : Nat} {v : α}
    (h : ∀ a, t.find? (fun p => p.1 == k) = some (k, a) → P a → P v) : Tab.Keeps P t (Tab.put t k v) := by
  intro n a ha
  by_cases hn : k = n
  · subst hn
    exact ⟨v, Tab.find?_put _ _ _, h a ha⟩
  · exact ⟨a, by rw [Tab.find?_put_ne _ _ hn, ha], id⟩

theorem Tab.keeps_put_found {α : Type} {P : α → Prop} {t : Tab α} {j k : Nat} {a v : α}
    (hf : t.find? (fun p => p.1 == k) = some (j, a)) (h : P a → P v) : Tab.Keeps P t (Tab.put t k v) := by
  refine Tab.keeps_put fun b hb => ?_
  rw [hf] at hb
  simp only [Option.some.injEq, Prod.mk.injEq] at hb
  exact hb.2 ▸ h

/-- The units, the launches and the named objects of `t` are those of `s`. -/
structure SameWork (s t : State) : Prop where
  units    : t.units = s.units
  launches : t.launches = s.launches
  handles  : t.handles = s.handles

theorem SameWork.refl (s : State) : SameWork s s := ⟨rfl, rfl, rfl⟩

theorem SameWork.trans {s t u : State} (h : SameWork s t) (k : SameWork t u) : SameWork s u :=
  ⟨k.units.trans h.units, k.launches.trans h.launches, k.handles.trans h.handles⟩

theorem SameWork.foldl {α : Type} {f : State → α → State} (hf : ∀ s a, SameWork s (f s a)) (l : List α) (s : State) :
    SameWork s (l.foldl f s) :=
  List.foldlRecOn l f (SameWork.refl s) fun _ h a _ => h.trans (hf _ a)

theorem MemStep.sameWork {s t : State} (h : MemStep s t) : SameWork s t := ⟨h.units, by rw [h.frame], by rw [h.frame]⟩

theorem GroupsOnly.sameWork {s t : State} (h : GroupsOnly s t) : SameWork s t := by
  rw [GroupsOnly] at h
  rw [h]
  exact ⟨rfl, rfl, rfl⟩

/-- Units that have ended, launches that are cancelled and objects that are being cancelled remain so. -/
structure KeepsEnded (s t : State) : Prop where
  units    : Tab.Keeps (fun u : UnitRec => u.ended = true) s.units t.units
  launches : Tab.Keeps (fun l : Launch => l.cancelled = true) s.launches t.launches
  handles  : Tab.Keeps (fun x : Handle => x.cancelling = true) s.handles t.handles

theorem SameWork.keepsEnded {s t : State} (h : SameWork s t) : KeepsEnded s t :=
  ⟨h.units ▸ Tab.Keeps.refl _, h.launches ▸ Tab.Keeps.refl _, h.handles ▸ Tab.Keeps.refl _⟩

theorem KeepsEnded.refl (s : State) : KeepsEnded s s := (SameWork.refl s).keepsEnded

theorem KeepsEnded.trans {s t u : State} (h : KeepsEnded s t) (k : KeepsEnded t u) : KeepsEnded s u :=
  ⟨h.units.trans k.units, h.launches.trans k.launches, h.handles.trans k.handles⟩

theorem KeepsEnded.foldl {α : Type} {f : State → α → State} (hf : ∀ s a, KeepsEnded s (f s a)) (l : List α) (s : State) :
    KeepsEnded s (l.foldl f s) :=
  List.foldlRecOn l f (KeepsEnded.refl s) fun _ h a _ => h.trans (hf _ a)

theorem State.launchUnitsEnded_units (s : State) (launch : Word) (n : Nat) (failed : Bool) :
    (s.launchUnitsEnded launch n failed).units = s.units := by
  unfold State.launchUnitsEnded
  split
  · rfl
  · dsimp only
    split <;> rfl

theorem State.launchUnitsEnded_keepsEnded (s : State) (launch : Word) (n : Nat) (failed : Bool) :
    KeepsEnded s (s.launchUnitsEnded launch n failed) := by
  unfold State.launchUnitsEnded
  split
  · exact KeepsEnded.refl s
  · next k l hl =>
    obtain rfl := Tab.find?_key hl
    have hlaunches := Tab.keeps_put_found (P := fun l : Launch => l.cancelled = true)
      (v := { l with ended := l.ended + n, failed := l.failed || failed }) hl id
    dsimp only
    split
    · exact ⟨Tab.Keeps.refl _, hlaunches, Tab.Keeps.refl _⟩
    · next h hh => exact ⟨Tab.Keeps.refl _, hlaunches, Tab.keeps_put_found hh id⟩

/-! ### The end of a unit (R120, R261, R296) -/

/-- The unit is there and has ended. -/
def State.UnitEnded (s : State) (k : Nat) : Prop := ∃ v, s.units.find? (fun p => p.1 == k) = some (k, v) ∧ v.ended = true

theorem State.UnitEnded.keeps {s t : State} {k : Nat} (h : s.UnitEnded k) (ht : KeepsEnded s t) : t.UnitEnded k := by
  obtain ⟨v, hv, hended⟩ := h
  obtain ⟨w, hw, hk⟩ := ht.units k v hv
  exact ⟨w, hw, hk hended⟩

theorem State.putUnit_keepsEnded (s : State) (k : Nat) {u : UnitRec} (hu : u.ended = true) :
    KeepsEnded s { s with units := Tab.put s.units k u } :=
  ⟨Tab.keeps_put fun _ _ _ => hu, Tab.Keeps.refl _, Tab.Keeps.refl _⟩

/-- The end of a unit keeps what has ended. -/
theorem State.endUnit_keepsEnded (s : State) (unit : Nat) (failed : Bool) : KeepsEnded s (s.endUnit unit failed) := by
  unfold State.endUnit
  split
  · exact KeepsEnded.refl s
  · split
    · exact KeepsEnded.refl s
    · next k u hu hended =>
      dsimp only
      refine KeepsEnded.trans ?_ (State.launchUnitsEnded_keepsEnded _ _ _ _)
      refine KeepsEnded.trans (SameWork.keepsEnded ?_) (State.putUnit_keepsEnded _ _ rfl)
      refine SameWork.trans ?_ (SameWork.foldl ?_ _ _)
      · exact ⟨rfl, rfl, rfl⟩
      · exact fun _ _ => ⟨rfl, rfl, rfl⟩

theorem State.endUnit_ended {s : State} {unit : Nat} {u : UnitRec} (failed : Bool)
    (hu : s.units.find? (fun p => p.1 == unit) = some (unit, u)) : (s.endUnit unit failed).UnitEnded unit := by
  unfold State.endUnit
  rw [hu]
  dsimp only
  split
  · next h => exact ⟨u, hu, h⟩
  · rw [State.UnitEnded, State.launchUnitsEnded_units]
    exact ⟨_, Tab.find?_put _ _ _, rfl⟩

theorem State.leaveCore_sameWork (s : State) (ctx core : Nat) : SameWork s (s.leaveCore ctx core) := by
  unfold State.leaveCore
  dsimp only
  split
  · exact SameWork.refl s
  · split <;> exact ⟨rfl, rfl, rfl⟩

theorem State.withdrawWaits_memStep (s : State) (g : Group) (ns : List Nat) :
    MemStep s (ns.foldl (fun s n => s.withdrawWait g.ctx (g.split n).wait) s) :=
  MemStep.foldl (fun s _ => s.withdrawWait_memStep _ _) _ s

theorem State.dropGroup_sameWork (s : State) (core slot : Nat) : SameWork s (s.dropGroup core slot) := by
  unfold State.dropGroup
  dsimp only
  refine SameWork.trans ?_ (State.leaveCore_sameWork _ _ _)
  exact (s.withdrawWaits_memStep _ _).sameWork.trans ⟨rfl, rfl, rfl⟩

theorem State.killUnit_keepsEnded (s : State) (unit : Nat) (failed : Bool) : KeepsEnded s (s.killUnit unit failed) := by
  unfold State.killUnit
  split
  · exact KeepsEnded.refl s
  · dsimp only
    split
    · exact KeepsEnded.refl s
    · split
      · exact (⟨rfl, rfl, rfl⟩ : SameWork s (s.setCtxCore _ _ _)).keepsEnded.trans (State.endUnit_keepsEnded _ _ _)
      · exact (SameWork.foldl (fun s slot => s.dropGroup_sameWork _ slot) _ s).keepsEnded.trans (State.endUnit_keepsEnded _ _ _)

/-- A unit that is killed has ended. -/
theorem State.killUnit_ended {s : State} {unit : Nat} {u : UnitRec} (failed : Bool)
    (hu : s.units.find? (fun p => p.1 == unit) = some (unit, u)) : (s.killUnit unit failed).UnitEnded unit := by
  unfold State.killUnit
  rw [hu]
  dsimp only
  split
  · next h => exact ⟨u, hu, h⟩
  · split
    · exact State.endUnit_ended failed hu
    · refine State.endUnit_ended (u := u) failed ?_
      rw [(SameWork.foldl (fun s slot => s.dropGroup_sameWork u.core slot) u.slots s).units, hu]

/-! ### CANCEL of a unit (R138, R229, R303) -/

/-- A reply has nobody to report a fault to in a group without splits. -/
theorem State.replyFault_empty {s : State} {core slot : Nat} (h : (s.group core slot).splits = []) (tag : Nat) (hs : List HeldFault) :
    s.replyFault core slot tag hs = s := by
  have hlive : (s.group core slot).live8 = [] := by simp [Group.live8, Group.split, h]; decide
  unfold State.replyFault
  dsimp only
  rw [hlive]
  split <;> rfl

section
variable {s : State} {core slot : Nat} (h : (s.group core slot).splits = [])
include h

/-- PCOMP that finishes in a group without splits writes its rows, and nobody is faulted (R229, R232). -/
theorem State.pcompDone_sameWork (a : ArrayWord) : SameWork s (s.pcompDone core slot a) := by
  unfold State.pcompDone
  dsimp only
  split
  on_goal 2 => rw [State.replyFault_empty]
  on_goal 3 => exact (congrArg Group.splits (Tab.get_put_same _ _ _ _)).trans h
  all_goals
    refine SameWork.trans (t := List.foldl _ s _) (MemStep.foldl (fun t x => ?_) _ _).sameWork ⟨rfl, rfl, rfl⟩
    split
    · exact State.scrWrite_memStep _ _ _ _ _
    · exact MemStep.refl t

theorem State.finishArray_sameWork : SameWork s ((s.finishArray core slot).getD s) := by
  unfold State.finishArray
  split
  · next a _ =>
    split
    · exact ⟨rfl, rfl, rfl⟩
    · exact ⟨rfl, rfl, rfl⟩
    · exact State.pcompDone_sameWork h a
    · exact SameWork.refl s
  · exact SameWork.refl s

end

theorem State.cancelGroup_sameWork (s : State) (core slot : Nat) : SameWork s (s.cancelGroup core slot) := by
  unfold State.cancelGroup
  dsimp only
  refine SameWork.trans ?_ (State.finishArray_sameWork ?_)
  · exact (s.withdrawWaits_memStep _ _).sameWork.trans ⟨rfl, rfl, rfl⟩
  · exact congrArg Group.splits (Tab.get_put_same _ _ _ _)

theorem State.cancelGroups_sameWork (s : State) (core : Nat) (slots : List Nat) :
    SameWork s (slots.foldl (fun s slot => s.cancelGroup core slot) s) :=
  SameWork.foldl (fun s slot => s.cancelGroup_sameWork core slot) slots s

theorem State.cancelUnit_keepsEnded (s : State) (unit : Nat) : KeepsEnded s (s.cancelUnit unit) := by
  have hcards : SameWork s (s.cancelCards unit) := ⟨rfl, rfl, rfl⟩
  unfold State.cancelUnit
  split
  · exact KeepsEnded.refl s
  · dsimp only
    split
    · exact hcards.keepsEnded
    · refine KeepsEnded.trans ?_ (State.killUnit_keepsEnded _ _ _)
      split
      · exact hcards.keepsEnded
      · exact (hcards.trans (State.cancelGroups_sameWork _ _ _)).keepsEnded

/-- A unit that is cancelled has ended. -/
theorem State.cancelUnit_ended {s : State} {unit : Nat} {u : UnitRec}
    (hu : s.units.find? (fun p => p.1 == unit) = some (unit, u)) : (s.cancelUnit unit).UnitEnded unit := by
  unfold State.cancelUnit
  rw [hu]
  dsimp only
  split
  · next h => exact ⟨u, hu, h⟩
  · refine State.killUnit_ended (u := u) true ?_
    split
    · exact hu
    · rw [(State.cancelGroups_sameWork _ _ _).units]
      exact hu

/-! ### The slots of a unit that CANCEL ends -/

/-- A slot whose group is dropped holds no group, and no other slot comes to hold one. -/
theorem State.dropGroup_live (s : State) (core slot k : Nat) (h : k = slot ∨ (s.group core k).live = false) :
    ((s.dropGroup core slot).group core k).live = false := by
  unfold State.dropGroup
  dsimp only
  rw [State.group, State.leaveCore_groups]
  by_cases hk : slotKey core slot = slotKey core k
  · rw [State.setGroup, hk, Tab.get_put_same]
    rfl
  · rw [State.setGroup, Tab.get_put_ne _ _ _ hk]
    have hkept : (s.group core k).live = false := h.resolve_left fun e => hk (e ▸ rfl)
    rw [State.setCore, (s.withdrawWaits_memStep _ _).groups]
    exact hkept

theorem State.dropGroups_live (core : Nat) (slots : List Nat) (s : State) (k : Nat)
    (h : k ∈ slots ∨ (s.group core k).live = false) : ((slots.foldl (fun s slot => s.dropGroup core slot) s).group core k).live = false := by
  induction slots generalizing s with
  | nil => exact h.resolve_left List.not_mem_nil
  | cons slot slots ih =>
    refine ih (s.dropGroup core slot) ?_
    rcases h with h | h
    · rcases List.mem_cons.mp h with h | h
      · exact .inr (s.dropGroup_live core slot k (.inl h))
      · exact .inl h
    · exact .inr (s.dropGroup_live core slot k (.inr h))

/-- No slot of a unit on its core holds a group when the unit is cancelled (R303). -/
theorem State.cancelUnit_slots {s : State} {unit : Nat} {u : UnitRec} (hu : s.units.find? (fun p => p.1 == unit) = some (unit, u))
    (hended : u.ended = false) (haway : u.away = false) {slot : Nat} (hslot : slot ∈ u.slots) :
    ((s.cancelUnit unit).group u.core slot).live = false := by
  have hfound := (State.cancelGroups_sameWork (s.cancelCards unit) u.core u.slots).units.trans (rfl : _ = s.units)
  unfold State.cancelUnit
  simp only [hu, hended, haway, Bool.false_eq_true, if_false]
  unfold State.killUnit
  simp only [hfound, hu, hended, haway, Bool.false_eq_true, if_false]
  rw [State.endUnit_live]
  exact State.dropGroups_live u.core u.slots _ slot (.inl hslot)

/-! ### CANCEL of a launch (R296, R303) -/

theorem State.cancelUnits_keepsEnded (s : State) (ps : List (Nat × UnitRec)) :
    KeepsEnded s (ps.foldl (fun s p => s.cancelUnit p.1) s) :=
  KeepsEnded.foldl (fun s p => s.cancelUnit_keepsEnded p.1) ps s

theorem State.cancelUnits_ended {ps : List (Nat × UnitRec)} {s : State} {p : Nat × UnitRec} (hp : p ∈ ps) {u : UnitRec}
    (hu : s.units.find? (fun x => x.1 == p.1) = some (p.1, u)) : (ps.foldl (fun s p => s.cancelUnit p.1) s).UnitEnded p.1 := by
  induction ps generalizing s u with
  | nil => cases hp
  | cons q ps ih =>
    rcases List.mem_cons.mp hp with rfl | hp
    · exact (State.cancelUnit_ended hu).keeps (State.cancelUnits_keepsEnded _ ps)
    · obtain ⟨v, hv, -⟩ := (s.cancelUnit_keepsEnded q.1).units _ _ hu
      exact ih hp hv

theorem State.cancelLaunch_keepsEnded (s : State) (h : Nat) : KeepsEnded s (s.cancelLaunch h) := by
  unfold State.cancelLaunch
  split
  · exact KeepsEnded.refl s
  · dsimp only
    split
    · exact KeepsEnded.refl s
    · refine KeepsEnded.trans ?_ (State.cancelUnits_keepsEnded _ _)
      refine KeepsEnded.trans ?_ (State.launchUnitsEnded_keepsEnded _ _ _ _)
      exact ⟨Tab.Keeps.refl _, Tab.keeps_put fun _ _ _ => rfl, Tab.Keeps.refl _⟩

/-- The launch is there and is cancelled. -/
def State.LaunchCancelled (s : State) (h : Nat) : Prop :=
  ∃ l, s.launches.find? (fun p => p.1 == h) = some (h, l) ∧ l.cancelled = true

theorem State.LaunchCancelled.keeps {s t : State} {h : Nat} (hs : s.LaunchCancelled h) (ht : KeepsEnded s t) : t.LaunchCancelled h := by
  obtain ⟨l, hl, hcancelled⟩ := hs
  obtain ⟨m, hm, hk⟩ := ht.launches h l hl
  exact ⟨m, hm, hk hcancelled⟩

/-- A launch that goes on is cancelled, and every unit of it ends. -/
theorem State.cancelLaunch_cancels {s : State} {h : Word} {l : Launch}
    (hl : s.launches.find? (fun p => p.1 == h.toNat) = some (h.toNat, l)) (hcomplete : l.complete = false) (hcancelled : l.cancelled = false) :
    (s.cancelLaunch h.toNat).LaunchCancelled h.toNat
      ∧ ∀ p ∈ s.units, p.2.launch = h → (s.cancelLaunch h.toNat).UnitEnded p.1 := by
  unfold State.cancelLaunch
  rw [hl]
  dsimp only
  rw [hcomplete, hcancelled, Bool.or_false, if_neg (by decide), BitVec.ofNat_toNat, BitVec.setWidth_eq]
  refine ⟨?_, fun p hp hlaunch => ?_⟩
  · refine State.LaunchCancelled.keeps ?_ ((State.launchUnitsEnded_keepsEnded _ _ _ _).trans (State.cancelUnits_keepsEnded _ _))
    exact ⟨_, Tab.find?_put _ _ _, rfl⟩
  · obtain ⟨q, hq⟩ := Option.isSome_iff_exists.mp (List.find?_isSome (p := fun x => x.1 == p.1).mpr ⟨p, hp, beq_self_eq_true p.1⟩)
    obtain ⟨k, u⟩ := q
    obtain rfl := Tab.find?_key hq
    refine State.cancelUnits_ended (u := u) (List.mem_filter.mpr ⟨?_, beq_iff_eq.mpr hlaunch⟩) ?_
    · rw [State.launchUnitsEnded_units]
      exact hp
    · rw [State.launchUnitsEnded_units]
      exact hq

/-! ### CANCEL of a named object (R296, R303) -/

/-- The object of a handle is being cancelled. -/
def State.Cancelling (s : State) (h : Word) : Prop := ∃ y, s.handle h = some y ∧ y.cancelling = true

theorem State.Cancelling.keeps {s t : State} {h : Word} (hs : s.Cancelling h) (ht : KeepsEnded s t) : t.Cancelling h := by
  obtain ⟨y, hy, hcancelling⟩ := hs
  obtain ⟨z, hz, hk⟩ := ht.handles _ _ (State.handle_eq_some.mp hy)
  exact ⟨z, State.handle_eq_some.mpr hz, hk hcancelling⟩

/-- The object of a handle is marked as being cancelled. -/
def State.markCancelling (s : State) (h : Word) : State := s.modHandle h fun o => { o with cancelling := true }

theorem State.markCancelling_keepsEnded (s : State) (h : Word) : KeepsEnded s (s.markCancelling h) := by
  refine ⟨?_, ?_, ?_⟩
  · rw [State.markCancelling, State.modHandle_frame]
    exact Tab.Keeps.refl _
  · rw [State.markCancelling, State.modHandle_frame]
    exact Tab.Keeps.refl _
  · rw [State.markCancelling, State.modHandle]
    cases s.handle h with
    | none => exact Tab.Keeps.refl _
    | some x => exact Tab.keeps_put fun _ _ _ => rfl

theorem State.markCancelling_cancelling {s : State} {h : Word} {x : Handle} (hx : s.handle h = some x) :
    (s.markCancelling h).Cancelling h := by
  refine ⟨{ x with cancelling := true }, ?_, rfl⟩
  rw [State.markCancelling, State.handle_modHandle_same, hx, Option.map_some]

/-- What is marked as being cancelled changes no launch and no unit. -/
theorem State.markAll_frame (s : State) (hs : List Word) :
    (hs.foldl State.markCancelling s).launches = s.launches ∧ (hs.foldl State.markCancelling s).units = s.units := by
  refine List.foldlRecOn (motive := fun t : State => t.launches = s.launches ∧ t.units = s.units) hs _ ⟨rfl, rfl⟩ fun t ht w _ => ?_
  rw [State.markCancelling, State.modHandle_frame]
  exact ht

/-- The launch that a handle names is cancelled; what is no launch is not. -/
def State.cancelOne (s : State) (x : Word) : State := if handleLevel x == 1 then s.cancelLaunch x.toNat else s

theorem State.cancelOne_keepsEnded (s : State) (x : Word) : KeepsEnded s (s.cancelOne x) := by
  unfold State.cancelOne
  split
  · exact s.cancelLaunch_keepsEnded _
  · exact KeepsEnded.refl s

/-- CANCEL marks an object and its subtree, and cancels the launches among them, the object itself first. -/
theorem State.cancelHandle_eq (s : State) (h : Word) :
    ∃ rest : List Word, s.cancelHandle h = rest.foldl State.cancelOne ((rest.foldl State.markCancelling (s.markCancelling h)).cancelOne h) :=
  ⟨_, rfl⟩

/-- CANCEL of a launch that goes on cancels it and ends every unit of it. -/
theorem State.cancelHandle_launch {s : State} {h : Word} {x : Handle} {l : Launch} (hx : s.handle h = some x) (hlevel : handleLevel h = 1)
    (hl : s.launches.find? (fun p => p.1 == h.toNat) = some (h.toNat, l)) (hcomplete : l.complete = false) (hcancelled : l.cancelled = false) :
    (s.cancelHandle h).LaunchCancelled h.toNat ∧ (s.cancelHandle h).Cancelling h
      ∧ ∀ p ∈ s.units, p.2.launch = h → (s.cancelHandle h).UnitEnded p.1 := by
  obtain ⟨rest, hrun⟩ := s.cancelHandle_eq h
  obtain ⟨hlaunches, hunits⟩ := s.markAll_frame (h :: rest)
  have hmarked := (State.markCancelling_cancelling hx).keeps
    (KeepsEnded.foldl (f := State.markCancelling) State.markCancelling_keepsEnded rest _)
  rw [List.foldl_cons] at hlaunches hunits
  rw [hrun]
  generalize rest.foldl State.markCancelling (s.markCancelling h) = t at *
  obtain ⟨hcancels, hends⟩ := State.cancelLaunch_cancels (s := t) (hlaunches ▸ hl) hcomplete hcancelled
  have hone : t.cancelOne h = t.cancelLaunch h.toNat := if_pos (beq_iff_eq.mpr hlevel)
  have hrest := KeepsEnded.foldl (f := State.cancelOne) State.cancelOne_keepsEnded rest (t.cancelOne h)
  rw [← hone] at hcancels hends
  exact ⟨hcancels.keeps hrest, (hmarked.keeps (t.cancelOne_keepsEnded h)).keeps hrest,
    fun p hp hlaunch => (hends p (hunits ▸ hp) hlaunch).keeps hrest⟩

end Sys2Proof.Machine
end

section
namespace Sys2Proof.Machine
open Sys2Proof.Safety

/-! ### Scalar words that complete after a change beside their split (R277, R278) -/

theorem State.curGroup_congr {s u : State} (hg : u.groups = s.groups) (hc : u.cur = s.cur) : u.curGroup = s.curGroup := by
  simp only [State.curGroup, State.groupOf, State.group, hg, hc]

theorem State.curSplit_congr {s u : State} (hg : u.groups = s.groups) (hc : u.cur = s.cur) : u.curSplit = s.curSplit := by
  simp only [State.curSplit, State.splitOf, State.groupOf, State.group, hg, hc]

section
variable {s u t : State} (hm : u.mem = s.mem) (hg : u.groups = s.groups) (hc : u.cur = s.cur)
include hg hc

/-- What falls through from a state falls through from one with its groups. -/
theorem FallsThrough.of_groups (h : FallsThrough u t) : FallsThrough s t := by
  rw [FallsThrough, FallsFrom] at h ⊢
  rwa [State.curSplit_congr hg hc, State.curGroup_congr hg hc] at h

include hm

/-- The frame of a scalar word does not depend on what lies outside memory and the groups. -/
theorem RegFrame.of_groups {ds as_ : List Nat} (h : RegFrame u t ds as_) : RegFrame s t ds as_ := by
  have hgroup : ∀ c k, u.group c k = s.group c k := fun c k => by rw [State.group, hg, State.group]
  have hsplit := State.curSplit_congr hg hc
  refine ⟨fun k => hm ▸ h.bytes k, fun c k hk => hgroup c k ▸ h.slots c k (hc.symm ▸ hk), ?_, hsplit ▸ h.split, hsplit ▸ h.sregs,
    hsplit ▸ h.aregs⟩
  have halone := h.group
  rwa [SplitAlone, State.curGroup_congr hg hc, hc] at halone

/-- A scalar word that writes a register and the flag, after a change outside memory and the groups. -/
theorem State.finish_sets (d : Nat) (v : Word) (flag : Bool) :
    ∃ t, u.finish (fun sp => (sp.setS d v).setFlag flag) = .next t ∧ RegFrame s t [d] [] ∧ FallsThrough s t ∧ t.curSplit.flag = flag
      ∧ t.curSplit.sreg d = v ∧ GroupsOnly u t := by
  obtain ⟨t, hrun, hframe, hfalls, hreg, hflag⟩ :=
    writesS_finish (s := u) (f := fun sp => (sp.setS d v).setFlag flag) (d := d) (v := v) (flag := flag) rfl
  exact ⟨t, hrun, RegFrame.of_groups hm hg hc hframe.regs, FallsThrough.of_groups hg hc hfalls, hflag, hreg, hframe.rest⟩

end

/-- The scalar word has completed, and all it writes is the flag. -/
def State.flagged (s : State) (flag : Bool) : State := (s.modCur fun sp => sp.setFlag flag).advance

theorem State.finish_flagged (s : State) (flag : Bool) : s.finish (fun sp => sp.setFlag flag) = .next (s.flagged flag) := rfl

theorem State.flagged_frame (s : State) (flag : Bool) :
    ScalarFrame s (s.flagged flag) [] [] ∧ FallsThrough s (s.flagged flag) ∧ (s.flagged flag).curSplit.flag = flag := by
  obtain ⟨t, hrun, hframe, hfalls, -, -, hflag⟩ :=
    State.finish_frame s (fun sp => sp.setFlag flag) [] [] rfl (fun _ _ => rfl) (fun _ _ => rfl)
  rw [s.finish_flagged, Host.Outcome.next.injEq] at hrun
  exact hrun ▸ ⟨hframe, hfalls, hflag⟩

theorem State.flagged_sameWork (s : State) (flag : Bool) : SameWork s (s.flagged flag) := GroupsOnly.sameWork (s.flagged_frame flag).1.rest

/-! ### LAUNCH (R300, R301) -/

/-- The graph that a launch of the running group's would be a child of. -/
def State.launchGraph (s : State) : Word := ((s.handle s.curGroup.launch).map (·.parent)).getD 0

/-- The distributor takes the launch record of an address (R300). -/
def State.Takes (s : State) (va : DWord) (r : LaunchRec) : Prop :=
  (s.readLaunch s.curGroup.ctx va).1 = some r ∧ r.graph = 0 ∧ r.ctx = s.curGroup.ctx ∧ (r.sysp = true → s.curGroup.sysp = true)
    ∧ s.takesChild s.launchGraph 2 s.curGroup.ctx = true

/-- The distributor reads the launch record of an address, and takes or rejects it; with the new handle. -/
def State.distribute (s : State) (va : DWord) : Word × State :=
  match s.readLaunch s.curGroup.ctx va with
  | (none, u) => u.rejectLaunch s.curGroup.ctx s.launchGraph
  | (some r, u) =>
    if r.graph != 0 || r.ctx != s.curGroup.ctx || (r.sysp && !s.curGroup.sysp) || !u.takesChild s.launchGraph 2 s.curGroup.ctx then
      u.rejectLaunch s.curGroup.ctx s.launchGraph
    else u.takeLaunch r s.launchGraph

theorem State.takesChild_congr {s t : State} (h : t.handles = s.handles) (w : Word) (level ctx : Nat) :
    t.takesChild w level ctx = s.takesChild w level ctx := by
  rw [State.takesChild, State.handle_congr h, State.takesChild]

theorem State.takesChild_level {s : State} {h : Word} {level ctx : Nat} (ht : s.takesChild h level ctx = true) : handleLevel h = level := by
  unfold State.takesChild at ht
  split at ht
  · simp only [Bool.and_eq_true, beq_iff_eq] at ht
    exact ht.1.1.1
  · cases ht

theorem NewLaunch.of_read {s u t : State} {x : Handle} (hr : ReadsRecord s u) (h : NewLaunch u t x) : NewLaunch s t x :=
  ⟨h.mem.trans hr.mem, h.groups.trans hr.groups, h.cur.trans hr.cur, by rw [h.nextSer, hr.nextSer],
    by rw [← State.launchHandle_congr hr.nextSer, h.handle]⟩

section
variable {s : State} {va : DWord}

/-- A launch that keeps the rules has a running handle (R296, R301). -/
theorem State.distribute_taken {r : LaunchRec} (ht : s.Takes va r) :
    (s.distribute va).1 = s.launchHandle
      ∧ NewLaunch s (s.distribute va).2 ⟨r.ctx, s.launchGraph, .running, r.total, true, false, false⟩
      ∧ (∀ p, s.handle s.launchGraph = some p → (s.distribute va).2.handle s.launchGraph = some { p with count := p.count + 1 })
      ∧ ∃ l, (s.distribute va).2.launches.find? (fun x => x.1 == s.launchNumber) = some (s.launchNumber, l) ∧ l.rec_ = r ∧ l.placed = 0 := by
  obtain ⟨hrec, hgraph, hctx, hsys, hchild⟩ := ht
  have hread := s.readLaunch_readsRecord s.curGroup.ctx va
  have hrun : s.distribute va = (s.readLaunch s.curGroup.ctx va).2.takeLaunch r s.launchGraph := by
    unfold State.distribute
    generalize s.readLaunch s.curGroup.ctx va = q at hrec hread
    obtain ⟨x, u⟩ := q
    obtain rfl : x = some r := hrec
    dsimp only
    rw [State.takesChild_congr hread.handles, hchild, if_neg]
    simp only [hgraph, hctx]
    simpa using hsys
  generalize (s.readLaunch s.curGroup.ctx va).2 = u at hread hrun
  obtain ⟨hnum, hnew, hcount, hlaunch⟩ := u.takeLaunch_running r (State.takesChild_level hchild)
  have hsame := State.launchHandle_congr hread.nextSer
  have hnumber : u.launchNumber = s.launchNumber := by rw [← u.launchHandle_toNat, hsame, s.launchHandle_toNat]
  rw [hrun]
  refine ⟨hnum.trans hsame, hnew.of_read hread, fun p hp => ?_, ?_⟩
  · rw [hcount, State.handle_congr hread.handles, hp, Option.map_some]
  · rw [hnumber] at hlaunch
    exact ⟨_, hlaunch, rfl, rfl⟩

/-- A launch that breaks a rule, or whose record cannot be read, has a failed handle (R300). -/
theorem State.distribute_rejected (ht : ¬∃ r, s.Takes va r) :
    (s.distribute va).1 = s.launchHandle
      ∧ NewLaunch s (s.distribute va).2 ⟨s.curGroup.ctx, s.launchGraph, .failed, 0, true, true, false⟩
      ∧ (s.distribute va).2.launches = s.launches := by
  have hread := s.readLaunch_readsRecord s.curGroup.ctx va
  have hrun : s.distribute va = (s.readLaunch s.curGroup.ctx va).2.rejectLaunch s.curGroup.ctx s.launchGraph := by
    unfold State.Takes at ht
    unfold State.distribute
    generalize s.readLaunch s.curGroup.ctx va = q at ht hread
    obtain ⟨x, u⟩ := q
    cases x with
    | none => rfl
    | some r =>
      dsimp only
      rw [State.takesChild_congr hread.handles, if_pos]
      by_contra hkeeps
      refine ht ⟨r, rfl, ?_⟩
      simpa [and_assoc] using hkeeps
  generalize (s.readLaunch s.curGroup.ctx va).2 = u at hread hrun
  obtain ⟨hnum, hnew, hlaunch⟩ := u.rejectLaunch_failed s.curGroup.ctx s.launchGraph
  rw [hrun]
  exact ⟨hnum.trans (State.launchHandle_congr hread.nextSer), hnew.of_read hread, hlaunch.trans hread.launches⟩

end

theorem execLaunch_odd {s : State} {d a : BitVec 6} {try_ : Bool} (h : a.toNat % 2 = 1) :
    execLaunch d a try_ s = .next (s.scalarTrap .illegalOperand) :=
  scalarWord_bad (beq_eq_false_iff_ne.mpr (by rw [h]; decide))

section
variable {s : State} {d a : BitVec 6} {try_ : Bool} (hok : pairOk a = true) (hl : Landed s (pairReads a))
include hok hl

theorem execLaunch_align (h : (s.curSplit.spair a.toNat).toNat % 256 ≠ 0) :
    execLaunch d a try_ s = .next (s.scalarFault ⟨.align, .none, s.curSplit.spair a.toNat⟩) := by
  unfold execLaunch
  rw [scalarWord_go hok hl]
  simp [h]

variable (halign : (s.curSplit.spair a.toNat).toNat % 256 = 0)
include halign

theorem execLaunch_path (h : 1 < pathOf (s.curSplit.spair a.toNat) ∨ s.populated (nodeOf (s.curSplit.spair a.toNat)) = false) :
    execLaunch d a try_ s = .next (s.scalarFault ⟨.path, .none, s.curSplit.spair a.toNat⟩) := by
  unfold execLaunch
  rw [scalarWord_go hok hl]
  simp [halign, h]

variable (hpath : pathOf (s.curSplit.spair a.toNat) ≤ 1) (hthere : s.populated (nodeOf (s.curSplit.spair a.toNat)) = true)
include hpath hthere

theorem execLaunch_full (h : 1024 ≤ s.inletHeld) : execLaunch d a try_ s = if try_ then .next (s.flagged true) else .next s := by
  unfold execLaunch
  rw [scalarWord_go hok hl]
  simp [halign, hpath, hthere, Config.inletLaunches, h, hold, s.finish_flagged]

variable (hroom : s.inletHeld < 1024)
include hroom

theorem execLaunch_waits (h : s.released 3 = false ∨ s.mayReadLaunch s.curGroup.ctx (s.curSplit.spair a.toNat) = false) :
    execLaunch d a try_ s = .next s := by
  unfold execLaunch
  rw [scalarWord_go hok hl]
  simp [halign, hpath.not_gt, hthere, Config.inletLaunches, hroom.not_ge, hold, h]

theorem execLaunch_distributes (hreleased : s.released 3 = true)
    (hmay : s.mayReadLaunch s.curGroup.ctx (s.curSplit.spair a.toNat) = true) :
    execLaunch d a try_ s = (s.distribute (s.curSplit.spair a.toNat)).2.finish
      fun sp => (sp.setS d.toNat (s.distribute (s.curSplit.spair a.toNat)).1).setFlag false := by
  unfold execLaunch
  rw [scalarWord_go hok hl]
  simp only [halign, hpath.not_gt, hthere, Config.inletLaunches, hroom.not_ge, hreleased, hmay, bne_self_eq_false, decide_false,
    Bool.not_true, Bool.or_self, Bool.false_eq_true, if_false]
  unfold State.distribute
  obtain ⟨x, u⟩ := s.readLaunch s.curGroup.ctx (s.curSplit.spair a.toNat)
  cases x <;> rfl

end

end Sys2Proof.Machine
end

section
namespace Sys2Proof.Machine
open Sys2Proof.Safety

/-! ### CCNT and CANCEL (R302, R303) -/

/-- The object that CCNT and CANCEL name, by its handle or as an ancestor of the launch (R302). -/
def State.named (s : State) (a : BitVec 6) (byHandle : Bool) (level : BitVec 3) : Word :=
  if byHandle then s.curSplit.sreg a.toNat else s.ancestor s.curGroup.launch level.toNat

/-- CCNT has read a counter word; none for an invalid handle. -/
def State.writeCount (s : State) (d : BitVec 6) (w : Option Word) : Out :=
  match w with
  | none => s.finish fun sp => (sp.setS d.toNat 0xFFFFFFFF#32).setFlag true
  | some x => (if x.toNat / 2 ^ 30 == 1 then s.acquireDrop s.cur.core 3 else s).finish fun sp => (sp.setS d.toNat x).setFlag false

/-- CANCEL of the object that a handle names. -/
def State.cancelNamed (s : State) (h : Word) : Out :=
  match s.handle h with
  | none => .next (s.flagged true)
  | some x =>
    if x.ctx != s.curGroup.ctx then .next (s.flagged true)
    else if x.status != .running then .next (s.flagged false)
    else .next ((s.flagged false).cancelHandle h)

theorem HStatus.code_lt (x : HStatus) : x.code < 4 := by cases x <;> decide

theorem Handle.word_toNat (x : Handle) : x.word.toNat = x.status.code * 2 ^ 30 + x.count % 2 ^ 30 := by
  have hcode := x.status.code_lt
  have hcount := Nat.mod_lt x.count (y := 2 ^ 30) (by decide)
  rw [Handle.word, BitVec.toNat_ofNat, Nat.mod_eq_of_lt (by omega)]

/-- No other field than a level and a handle's register names an object. -/
theorem levelOk_bad {byHandle : Bool} {a : BitVec 6} {level : BitVec 3}
    (h : (byHandle = true ∧ level ≠ 0) ∨ (byHandle = false ∧ (a ≠ 0 ∨ 5 ≤ level.toNat))) : levelOk byHandle a level = false := by
  rcases h with ⟨rfl, h⟩ | ⟨rfl, h⟩
  · simpa [levelOk] using h
  · rw [levelOk, if_neg (by decide), Bool.and_eq_false_iff]
    exact h.symm.imp (fun h => decide_eq_false (Nat.not_lt.mpr h)) (fun h => beq_eq_false_iff_ne.mpr h)

theorem execCcnt_bad {s : State} {d a : BitVec 6} {byHandle : Bool} {level : BitVec 3} (h : levelOk byHandle a level = false) :
    execCcnt d a byHandle level s = .next (s.scalarTrap .illegalOperand) := scalarWord_bad h

theorem execCancel_bad {s : State} {a : BitVec 6} {byHandle : Bool} {level : BitVec 3} (h : levelOk byHandle a level = false) :
    execCancel a byHandle level s = .next (s.scalarTrap .illegalOperand) := scalarWord_bad h

section
variable {s : State} {d a : BitVec 6} {byHandle : Bool} {level : BitVec 3} (hok : levelOk byHandle a level = true)
  (hl : Landed s (if byHandle then [a.toNat] else []))
include hok hl

/-- CCNT of the own unit writes the number of its groups that have not ended (R295). -/
theorem execCcnt_own {u : UnitRec} (hhandle : byHandle = false) (hlevel : level = 0) (hu : s.unitOf s.curGroup = some u)
    (hleft : u.left < 2 ^ 30) :
    execCcnt d a byHandle level s = s.finish fun sp => (sp.setS d.toNat (BitVec.ofNat 32 u.left)).setFlag false := by
  have hcount : (BitVec.ofNat 32 u.left).toNat / 2 ^ 30 = 0 := by
    rw [BitVec.toNat_ofNat]
    omega
  unfold execCcnt
  rw [scalarWord_go hok hl]
  subst hhandle hlevel
  simp only [hu, Option.map_some, Option.getD_some, Bool.false_eq_true, if_false, beq_self_eq_true, if_true, hcount]
  rfl

variable (hown : ¬(byHandle = false ∧ level = 0))
include hown

/-- CCNT of another object reads the counter word of that object. -/
theorem execCcnt_named :
    execCcnt d a byHandle level s = s.writeCount d (s.counter s.curGroup.ctx (s.named a byHandle level)) := by
  unfold execCcnt State.named
  rw [scalarWord_go hok hl]
  cases byHandle with
  | true => rfl
  | false =>
    have hlevel : (level == 0) = false := beq_eq_false_iff_ne.mpr fun h => hown ⟨rfl, h⟩
    simp only [hlevel, Bool.false_eq_true, if_false]
    rfl

theorem execCcnt_invalid (hx : ∀ x, s.handle (s.named a byHandle level) = some x → x.ctx ≠ s.curGroup.ctx) :
    execCcnt d a byHandle level s = s.finish fun sp => (sp.setS d.toNat 0xFFFFFFFF#32).setFlag true := by
  have hnone : s.counter s.curGroup.ctx (s.named a byHandle level) = none := by
    unfold State.counter
    split
    · next x hfound => rw [if_neg (by simpa using hx x hfound)]
    · rfl
  rw [execCcnt_named hok hl hown, hnone, State.writeCount]

theorem execCcnt_valid {x : Handle} (hx : s.handle (s.named a byHandle level) = some x) (hctx : x.ctx = s.curGroup.ctx) :
    ∃ u : State, u = { s with copies := u.copies }
      ∧ execCcnt d a byHandle level s = u.finish fun sp => (sp.setS d.toNat x.word).setFlag false := by
  have hword : s.counter s.curGroup.ctx (s.named a byHandle level) = some x.word := by
    simp [State.counter, hx, hctx]
  refine ⟨if x.word.toNat / 2 ^ 30 == 1 then s.acquireDrop s.cur.core 3 else s, ?_, ?_⟩
  · split
    · exact State.acquireDrop_frame _ _ _
    · rfl
  · rw [execCcnt_named hok hl hown, hword, State.writeCount]

/-- CANCEL of another object looks at that object. -/
theorem execCancel_named : execCancel a byHandle level s = s.cancelNamed (s.named a byHandle level) := by
  unfold execCancel State.named
  rw [scalarWord_go hok hl]
  cases byHandle with
  | true => rfl
  | false =>
    have hlevel : (level == 0) = false := beq_eq_false_iff_ne.mpr fun h => hown ⟨rfl, h⟩
    simp only [hlevel, Bool.false_eq_true, if_false, Bool.not_false, Bool.true_and]
    rfl

theorem execCancel_invalid (hx : ∀ x, s.handle (s.named a byHandle level) = some x → x.ctx ≠ s.curGroup.ctx) :
    execCancel a byHandle level s = .next (s.flagged true) := by
  rw [execCancel_named hok hl hown, State.cancelNamed]
  split
  · rfl
  · next x hfound => rw [if_pos (by simpa using hx x hfound)]

variable {x : Handle} (hx : s.handle (s.named a byHandle level) = some x) (hctx : x.ctx = s.curGroup.ctx)
include hx hctx

theorem execCancel_completed (hstatus : x.status ≠ .running) : execCancel a byHandle level s = .next (s.flagged false) := by
  rw [execCancel_named hok hl hown, State.cancelNamed]
  simp [hx, hctx, hstatus]

theorem execCancel_running (hstatus : x.status = .running) :
    execCancel a byHandle level s = .next ((s.flagged false).cancelHandle (s.named a byHandle level)) := by
  rw [execCancel_named hok hl hown, State.cancelNamed]
  simp [hx, hctx, hstatus]

end

theorem execCancel_own {s : State} {a : BitVec 6} {byHandle : Bool} {level : BitVec 3} (hok : levelOk byHandle a level = true)
    (hl : Landed s (if byHandle then [a.toNat] else [])) (hown : byHandle = false ∧ level = 0) :
    execCancel a byHandle level s = .next ((s.flagged false).cancelUnit s.curGroup.unit) := by
  obtain ⟨rfl, rfl⟩ := hown
  unfold execCancel
  rw [scalarWord_go hok hl]
  rfl

end Sys2Proof.Machine

namespace Sys2Proof.Proofs
open Sys2Proof.Machine Sys2Proof.Safety

/-! ### What software sees of LAUNCH, CCNT and CANCEL -/

/-- A LAUNCH that enters the inlet hands out the next handle: running where the distributor takes the record, and failed where it does not. -/
theorem launch_distributes {s : State} {d a : BitVec 6} {try_ : Bool} (hok : pairOk a = true) (hl : Landed s (pairReads a))
    (halign : (s.curSplit.spair a.toNat).toNat % 256 = 0) (hpath : pathOf (s.curSplit.spair a.toNat) ≤ 1)
    (hthere : s.populated (nodeOf (s.curSplit.spair a.toNat)) = true) (hroom : s.inletHeld < 1024) (hreleased : s.released 3 = true)
    (hmay : s.mayReadLaunch s.curGroup.ctx (s.curSplit.spair a.toNat) = true) :
    ∃ t, exec (.launch d a try_) s = .next t ∧ RegFrame s t [d.toNat] [] ∧ FallsThrough s t ∧ t.curSplit.flag = false
      ∧ (t.curSplit.sreg d.toNat).toNat = s.launchNumber ∧ t.nextSer = s.nextSer + 1
      ∧ (∀ r, s.Takes (s.curSplit.spair a.toNat) r →
        t.handle s.launchHandle = some ⟨r.ctx, s.launchGraph, .running, r.total, true, false, false⟩
        ∧ (∀ p, s.handle s.launchGraph = some p → t.handle s.launchGraph = some { p with count := p.count + 1 })
        ∧ ∃ l, t.launches.find? (fun x => x.1 == s.launchNumber) = some (s.launchNumber, l) ∧ l.rec_ = r ∧ l.placed = 0)
      ∧ ((¬∃ r, s.Takes (s.curSplit.spair a.toNat) r) → t.launches = s.launches
        ∧ t.handle s.launchHandle = some ⟨s.curGroup.ctx, s.launchGraph, .failed, 0, true, true, false⟩) := by
  have hrun := execLaunch_distributes (d := d) (try_ := try_) hok hl halign hpath hthere hroom hreleased hmay
  have htaken := fun r => State.distribute_taken (s := s) (va := s.curSplit.spair a.toNat) (r := r)
  have hrejected := State.distribute_rejected (s := s) (va := s.curSplit.spair a.toNat)
  have hnew : (s.distribute (s.curSplit.spair a.toNat)).1 = s.launchHandle ∧
      ∃ x, NewLaunch s (s.distribute (s.curSplit.spair a.toNat)).2 x := by
    by_cases ht : ∃ r, s.Takes (s.curSplit.spair a.toNat) r
    · obtain ⟨r, hr⟩ := ht
      obtain ⟨hnum, hnew, -⟩ := htaken r hr
      exact ⟨hnum, _, hnew⟩
    · obtain ⟨hnum, hnew, -⟩ := hrejected ht
      exact ⟨hnum, _, hnew⟩
  generalize s.distribute (s.curSplit.spair a.toNat) = q at hrun htaken hrejected hnew
  obtain ⟨hnum, x, hnew⟩ := hnew
  obtain ⟨t, hdone, hframe, hfalls, hflag, hreg, hrest⟩ := State.finish_sets hnew.mem hnew.groups hnew.cur d.toNat q.1 false
  have hwork := GroupsOnly.sameWork hrest
  have hhandle := State.handle_congr hwork.handles
  have hser : t.nextSer = q.2.nextSer := by rw [hrest]
  refine ⟨t, hrun.trans hdone, hframe, hfalls, hflag, by rw [hreg, hnum, s.launchHandle_toNat], hser.trans hnew.nextSer,
    fun r hr => ?_, fun hr => ?_⟩
  · obtain ⟨-, hrunning, hcount, hlaunch⟩ := htaken r hr
    exact ⟨(hhandle _).trans hrunning.handle, fun p hp => (hhandle _).trans (hcount p hp), hwork.launches ▸ hlaunch⟩
  · obtain ⟨-, hfailed, hlaunch⟩ := hrejected hr
    exact ⟨hwork.launches.trans hlaunch, (hhandle _).trans hfailed.handle⟩

theorem flags_of_flagged {s : State} {i : Instr} {flag : Bool} (h : exec i s = .next (s.flagged flag)) :
    ∃ t, exec i s = .next t ∧ ScalarFrame s t [] [] ∧ FallsThrough s t ∧ t.curSplit.flag = flag :=
  ⟨_, h, s.flagged_frame flag⟩

/-- A word that at most drops copies of its core, and then writes a register and the flag. -/
theorem reads_of_finish {i : Instr} {s u : State} {d : BitVec 6} (hu : u = { s with copies := u.copies }) {v : Word} {flag : Bool}
    (h : exec i s = u.finish fun sp => (sp.setS d.toNat v).setFlag flag) :
    ∃ t, exec i s = .next t ∧ RegFrame s t [d.toNat] [] ∧ FallsThrough s t ∧ t.curSplit.flag = flag
      ∧ (t.curSplit.sreg d.toNat).toNat = v.toNat := by
  obtain ⟨t, hdone, hframe, hfalls, hflag, hreg, -⟩ :=
    State.finish_sets (s := s) (u := u) (by rw [hu]) (by rw [hu]) (by rw [hu]) d.toNat v flag
  exact ⟨t, h.trans hdone, hframe, hfalls, hflag, by rw [hreg]⟩

section
variable {s : State} {d a : BitVec 6} {byHandle : Bool} {level : BitVec 3} (hok : levelOk byHandle a level = true)
  (hl : Landed s (if byHandle then [a.toNat] else []))
include hok hl

/-- CANCEL of the own unit ends it and empties its slots (R303). -/
theorem cancel_ownUnit (hown : byHandle = false ∧ level = 0) {u : UnitRec}
    (hu : s.units.find? (fun p => p.1 == s.curGroup.unit) = some (s.curGroup.unit, u)) (hended : u.ended = false) (haway : u.away = false) :
    ∃ t, exec (.cancel a byHandle level) s = .next t ∧ t.UnitEnded s.curGroup.unit
      ∧ ∀ slot ∈ u.slots, (t.group u.core slot).live = false := by
  have hcur : (s.flagged false).units.find? (fun p => p.1 == s.curGroup.unit) = some (s.curGroup.unit, u) :=
    (s.flagged_sameWork false).units.symm ▸ hu
  exact ⟨_, execCancel_own hok hl hown, State.cancelUnit_ended hcur, fun slot hslot => State.cancelUnit_slots hcur hended haway hslot⟩

variable (hown : ¬(byHandle = false ∧ level = 0)) {x : Handle} (hx : s.handle (s.named a byHandle level) = some x)
  (hctx : x.ctx = s.curGroup.ctx)
include hown hx hctx

/-- CCNT of an object of its context writes its counter word (R295). -/
theorem ccnt_named :
    ∃ t, exec (.ccnt d a byHandle level) s = .next t ∧ RegFrame s t [d.toNat] [] ∧ FallsThrough s t ∧ t.curSplit.flag = false
      ∧ (t.curSplit.sreg d.toNat).toNat = x.status.code * 2 ^ 30 + x.count % 2 ^ 30 := by
  obtain ⟨u, hu, hrun⟩ := execCcnt_valid (d := d) hok hl hown hx hctx
  rw [← x.word_toNat]
  exact reads_of_finish hu hrun

/-- CANCEL of a launch that goes on cancels it and ends every unit of it (R303). -/
theorem cancel_launch (hstatus : x.status = .running) (hlevel : (s.named a byHandle level).toNat / 2 ^ 29 = 1) {l : Launch}
    (hfound : s.launches.find? (fun p => p.1 == (s.named a byHandle level).toNat) = some ((s.named a byHandle level).toNat, l))
    (hcomplete : l.complete = false) (hcancelled : l.cancelled = false) :
    ∃ t, exec (.cancel a byHandle level) s = .next t ∧ t.LaunchCancelled (s.named a byHandle level).toNat
      ∧ t.Cancelling (s.named a byHandle level) ∧ ∀ p ∈ s.units, p.2.launch = s.named a byHandle level → t.UnitEnded p.1 := by
  have hrun := execCancel_running hok hl hown hx hctx hstatus
  have hwork := s.flagged_sameWork false
  generalize s.named a byHandle level = h at *
  have hlaunch : handleLevel h = 1 := by
    have := h.isLt
    simp only [handleLevel, bitsNat]
    omega
  have hcancels := State.cancelHandle_launch ((State.handle_congr hwork.handles h).trans hx) hlaunch (hwork.launches ▸ hfound) hcomplete
    hcancelled
  rw [hwork.units] at hcancels
  exact ⟨_, hrun, hcancels⟩

end

/-- Settles O45, from what LAUNCH, CCNT and CANCEL do in each case: the distributor's answer for LAUNCH, and what a cancellation keeps. -/
theorem launchWords : Obligations.LaunchWords := by
  unfold Obligations.LaunchWords
  intro s d a try_ byHandle level g va number graph keyed
  refine ⟨fun ha hl => ?_, fun hok hl => ?_, execLaunch_odd, fun h => ⟨execCcnt_bad (levelOk_bad h), execCancel_bad (levelOk_bad h)⟩⟩
  · have hok : pairOk a = true := beq_iff_eq.mpr ha
    refine ⟨execLaunch_align hok hl, execLaunch_path hok hl, fun halign hpath hthere => ?_⟩
    have hfull := execLaunch_full (d := d) (try_ := try_) hok hl halign hpath hthere
    have hwaits := execLaunch_waits (d := d) (try_ := try_) hok hl halign hpath hthere
    refine ⟨fun h ht => (hfull h).trans (by rw [ht]; rfl), fun h ht => flags_of_flagged ((hfull h).trans (by rw [ht]; rfl)),
      fun hroom h => hwaits hroom (.inl h), fun hroom h => hwaits hroom (.inr ?_), State.readLaunch_shut halign hthere,
      launch_distributes hok hl halign hpath hthere⟩
    exact h.elim (fun h => State.mayReadLaunch_unready halign hthere h.1 h.2) id
  · intro h own code reads flags
    have hlanded : Landed s (if byHandle then [a.toNat] else []) := by
      cases byHandle with
      | true => exact hl rfl
      | false => exact fun n hn => absurd hn List.not_mem_nil
    refine ⟨fun hown u hu hleft => ?_, fun hown hx => ⟨?_, ?_⟩, fun hown x hx hctx => ⟨?_, ?_, ?_⟩,
      fun hown _ => cancel_ownUnit hok hlanded hown⟩
    · have hread := reads_of_finish (u := s) (i := .ccnt d a byHandle level) rfl (execCcnt_own hok hlanded hown.1 hown.2 hu hleft)
      rwa [BitVec.toNat_ofNat, Nat.mod_eq_of_lt (by omega)] at hread
    · exact reads_of_finish (u := s) (i := .ccnt d a byHandle level) rfl (execCcnt_invalid hok hlanded hown hx)
    · exact flags_of_flagged (execCancel_invalid hok hlanded hown hx)
    · exact ccnt_named hok hlanded hown hx hctx
    · exact fun hstatus => flags_of_flagged (execCancel_completed hok hlanded hown hx hctx hstatus)
    · exact fun hstatus hlevel _ => cancel_launch hok hlanded hown hx hctx hstatus hlevel

end Sys2Proof.Proofs
end

section
namespace Sys2Proof.Machine
open Sys2Proof.Safety

/-! ### Little-endian fields of a run of bytes (R16) -/

theorem Memory.readN_take (m : Memory) (k a b : Nat) : (m.readN k (a + b)).take a = m.readN k a := by
  refine List.ext_getElem (by simp) fun i _ _ => ?_
  simp [Memory.readN]

/-- `w` bytes from the offset `i` of a run of bytes are a field of the number that the run holds. -/
theorem Memory.ofBytes_readN_field (m : Memory) (k : Nat) {i w n : Nat} (h : i + w ≤ n) :
    ofBytes (m.readN (k + i) w) = ofBytes (m.readN k n) / 2 ^ (8 * i) % 2 ^ (8 * w) := by
  obtain ⟨c, rfl⟩ := Nat.exists_eq_add_of_le h
  rw [← Memory.readN_take m (k + i) w c, ofBytes_take, ← Memory.readN_append m k i (w + c), ofBytes_drop, Nat.add_assoc]

/-- The bytes of a number that have been written read back as the number. -/
theorem Memory.ofBytes_readN_writeN (m : Memory) (k v n : Nat) : ofBytes ((m.writeN k (toBytes v n)).readN k n) = v % 256 ^ n := by
  have h := Memory.readN_writeN m k (toBytes v n)
  rw [length_toBytes] at h
  rw [h, ofBytes_toBytes]

theorem Memory.ofBytes_readN_one (m : Memory) (k : Nat) : ofBytes (m.readN k 1) = (m.read k).toNat := by
  simp [Memory.readN, ofBytes]

/-! ### Words that order memory (R263, R277) -/

theorem orderWord_go {ok : Bool} {reads : List Nat} {go : State → Out} {s : State} (h : ok = true) (hl : Landed s reads)
    (hq : s.curSplit.queue = []) : orderWord ok reads go s = go s := by
  rw [orderWord, scalarWord_go h hl, hq]
  rfl

section
variable {s u t : State} (hg : u.groups = s.groups) (hc : u.cur = s.cur)
include hg hc

theorem OtherSlots.of_groups (h : OtherSlots u t) : OtherSlots s t := fun c k hk => by
  rw [h c k (hc.symm ▸ hk), State.group, hg, State.group]

theorem SplitAlone.of_groups (h : SplitAlone u t) : SplitAlone s t := by
  rwa [SplitAlone, State.curGroup_congr hg hc, hc] at h

end

/-! ### The ring of a context's events (R139) -/

theorem Ctx.eqSize_eq (c : Ctx) :
    c.eqSize = if c.eqbase.toNat / 16 % 64 = 0 ∧ 4 ≤ c.eqbase.toNat % 16 then 2 ^ (c.eqbase.toNat % 16) else 0 := by
  by_cases hres : c.eqbase.toNat / 16 % 64 = 0 <;> by_cases hlog : 4 ≤ c.eqbase.toNat % 16 <;> simp [Ctx.eqSize, bitsNat, hres, hlog]

theorem Ctx.eqSize_le (c : Ctx) : c.eqSize ≤ 2 ^ 15 := by
  rw [Ctx.eqSize_eq]
  split
  · exact Nat.pow_le_pow_right (by decide) (by omega)
  · exact Nat.zero_le _

theorem State.eqKey_eq (s : State) (c : Ctx) (i : Nat) :
    s.eqKey c i = physKey (4 * s.node.toNat + c.eqbase.toNat / 1024 % 4) 0 (c.eqbase.toNat / 4096 * 4096 + 16 * i) := by
  rw [State.eqKey, ringBase_eq, State.ownDie, bitsNat]
  norm_num

/-- The queue of a context takes no more records. -/
def Ctx.eqFull (c : Ctx) : Prop := c.eqSize = 0 ∨ (c.eqtail.toNat + 1) % c.eqSize = c.eqhead.toNat % c.eqSize

theorem Ctx.ringFull_iff (c : Ctx) : ringFull c.eqhead c.eqtail c.eqSize = true ↔ c.eqFull := by simp [ringFull, Ctx.eqFull]

/-- A record waits, for a context's queue, behind those before it. -/
def State.Behind (s : State) (k : Nat) : Prop := ∃ p ∈ s.posts, p.1 = k

theorem State.eventReady_iff (s : State) (k : Nat) : s.eventReady k = true ↔
    ¬s.Behind k ∧ ((s.ctx k).eqFull ∨ s.memReady (s.eqKey (s.ctx k) (s.ctx k).eqtail.toNat) = true) := by
  simp only [State.eventReady, Bool.and_eq_true, Bool.or_eq_true, Ctx.ringFull_iff, Bool.not_eq_true', State.Behind]
  refine and_congr_left fun _ => ?_
  simp only [List.any_eq_false, beq_iff_eq, not_exists, not_and]

theorem State.eventReady_waits {s : State} {k : Nat}
    (h : s.Behind k ∨ ¬(s.ctx k).eqFull ∧ s.memReady (s.eqKey (s.ctx k) (s.ctx k).eqtail.toNat) = false) : s.eventReady k = false := by
  rw [← Bool.not_eq_true, State.eventReady_iff]
  rintro ⟨hfirst, hready⟩
  rcases h with h | ⟨hroom, hmem⟩
  · exact hfirst h
  · exact hready.elim hroom (by simp [hmem])

/-! ### A record is posted (R140, R358) -/

theorem State.postEvent_waits {s : State} {k : Nat} (r : Nat) (h : s.eventReady k = false) :
    s.postEvent k r = (true, { s with posts := s.posts ++ [(k, r)] }) := by
  simp [State.postEvent, h]

theorem State.postEvent_drops {s : State} {k : Nat} (r : Nat) (hready : s.eventReady k = true) (hfull : (s.ctx k).eqFull) :
    s.postEvent k r = (false, s.setCtx k { s.ctx k with eqDrops := min 65535 ((s.ctx k).eqDrops + 1), eqOvf := true }) := by
  simp [State.postEvent, hready, (Ctx.ringFull_iff _).mpr hfull]

/-- The state once a record has been entered in the slot at the tail of a context's queue. -/
def State.posted (s : State) (k r : Nat) : State :=
  (s.unitWrite (s.eqKey (s.ctx k) (s.ctx k).eqtail.toNat) (toBytes r 16)).setCtx k
    { s.ctx k with eqtail := ringNext (s.ctx k).eqtail (s.ctx k).eqSize }

theorem State.postEvent_enters {s : State} {k : Nat} (r : Nat) (hready : s.eventReady k = true) (hroom : ¬(s.ctx k).eqFull) :
    s.postEvent k r = (true, s.posted k r) := by
  have hfull : ringFull (s.ctx k).eqhead (s.ctx k).eqtail (s.ctx k).eqSize = false := by rwa [← Bool.not_eq_true, Ctx.ringFull_iff]
  simp [State.postEvent, hready, hfull, State.posted]

section
variable (s : State) (k r : Nat)

theorem State.posted_frame : s.posted k r = { s with
    mem := (s.posted k r).mem, lines := (s.posted k r).lines, ctxs := (s.posted k r).ctxs, bver := (s.posted k r).bver
    wseq := (s.posted k r).wseq } := by
  obtain ⟨m, ls, vs, n, hwrite⟩ : ∃ m ls vs n, s.unitWrite (s.eqKey (s.ctx k) (s.ctx k).eqtail.toNat) (toBytes r 16)
      = { s with mem := m, lines := ls, bver := vs, wseq := n } := ⟨_, _, _, _, State.unitWrite_eq _ _ _⟩
  rw [State.posted, hwrite]
  rfl

theorem State.posted_ctx : (s.posted k r).ctx k = { s.ctx k with eqtail := ringNext (s.ctx k).eqtail (s.ctx k).eqSize } := by
  rw [State.posted, State.ctx_setCtx, if_pos rfl]

theorem State.posted_mem : (s.posted k r).mem = s.mem.writeN (s.eqKey (s.ctx k) (s.ctx k).eqtail.toNat) (toBytes r 16) := by
  rw [State.posted, State.setCtx_mem, State.unitWrite_mem]

/-- The record lies in its slot. -/
theorem State.posted_record : ofBytes ((s.posted k r).mem.readN (s.eqKey (s.ctx k) (s.ctx k).eqtail.toNat) 16) = r % 2 ^ 128 := by
  rw [State.posted_mem, Memory.ofBytes_readN_writeN]
  norm_num

theorem State.posted_read_out {j : Nat}
    (h : j < s.eqKey (s.ctx k) (s.ctx k).eqtail.toNat ∨ s.eqKey (s.ctx k) (s.ctx k).eqtail.toNat + 16 ≤ j) :
    (s.posted k r).mem.read j = s.mem.read j := by
  rw [State.posted_mem, Memory.read_writeN_out _ _ _ (by rwa [length_toBytes])]

end

end Sys2Proof.Machine
end

section
namespace Sys2Proof.Machine
open Sys2Proof.Safety

/-! ### EVPOP (R139, R143) -/

/-- The split with the four words of a record in its registers. -/
theorem Split.putRecord_eq (sp : Split) (d n : Nat) : sp.putRecord d n =
    (((sp.setS d (BitVec.ofNat 32 n)).setS (d + 1) (BitVec.ofNat 32 (n / 2 ^ 32))).setS (d + 2) (BitVec.ofNat 32 (n / 2 ^ 64))).setS
      (d + 3) (BitVec.ofNat 32 (n / 2 ^ 96)) := by
  simp [Split.putRecord, List.range_succ]

/-- Registers are all that the words of a record change. -/
theorem Split.putRecord_frame (sp : Split) (d n : Nat) : ∃ regs, sp.putRecord d n = { sp with s := regs } :=
  ⟨_, Split.putRecord_eq sp d n⟩

theorem Split.sreg_putRecord_in (sp : Split) (d n : Nat) {i : Nat} (hi : i < 4) :
    (sp.putRecord d n).sreg (d + i) = BitVec.ofNat 32 (n / 2 ^ (32 * i)) := by
  rw [Split.putRecord_eq]
  interval_cases i <;> simp [Split.sreg_setS]

theorem Split.sreg_putRecord_out (sp : Split) (d n : Nat) {j : Nat} (h : j ∉ [d, d + 1, d + 2, d + 3]) :
    (sp.putRecord d n).sreg j = sp.sreg j := by
  simp only [List.mem_cons, List.not_mem_nil, or_false, not_or] at h
  obtain ⟨h0, h1, h2, h3⟩ := h
  rw [Split.putRecord_eq, Split.sreg_setS, Split.sreg_setS, Split.sreg_setS, Split.sreg_setS, if_neg (Ne.symm h3), if_neg (Ne.symm h2),
    if_neg (Ne.symm h1), if_neg (Ne.symm h0)]

theorem execEvpop_odd {s : State} {r : BitVec 6} {try_ : Bool} (h : r.toNat % 4 ≠ 0) :
    execEvpop r try_ s = .next (s.scalarTrap .illegalOperand) := by
  rw [execEvpop, orderWord, scalarWord_bad (beq_eq_false_iff_ne.mpr h)]

theorem execEvpost_odd {s : State} {r : BitVec 6} (h : r.toNat % 4 ≠ 0) : execEvpost r s = .next (s.scalarTrap .illegalOperand) := by
  rw [execEvpost, orderWord, scalarWord_bad (beq_eq_false_iff_ne.mpr h)]

/-- The state once the oldest record of a context's queue has been taken out. -/
def State.dequeued (s : State) (k : Nat) : State :=
  s.setCtx k { s.ctx k with eqhead := ringNext (s.ctx k).eqhead (s.ctx k).eqSize }

/-- The number that the oldest record of a context's queue holds. -/
def State.oldestRecord (s : State) (k : Nat) : Nat := ofBytes (s.mem.readN (s.eqKey (s.ctx k) (s.ctx k).eqhead.toNat) 16)

theorem State.oldestEvent_eq {s : State} {k : Nat} (hsize : (s.ctx k).eqSize ≠ 0) (hheld : (s.ctx k).eqhead ≠ (s.ctx k).eqtail) :
    s.oldestEvent k = some (s.oldestRecord k) := by
  simp [State.oldestEvent, State.oldestRecord, hsize, hheld]

theorem State.oldestRecord_word (s : State) (k : Nat) {i : Nat} (hi : i < 4) :
    (BitVec.ofNat 32 (s.oldestRecord k / 2 ^ (32 * i)) : Word).toNat
      = ofBytes (s.mem.readN (s.eqKey (s.ctx k) (s.ctx k).eqhead.toNat + 4 * i) 4) := by
  rw [Memory.ofBytes_readN_field s.mem _ (show 4 * i + 4 ≤ 16 by omega), ← Nat.mul_assoc, BitVec.toNat_ofNat]
  rfl

section
variable {s : State} {r : BitVec 6} {try_ : Bool} (hquad : r.toNat % 4 = 0) (hq : s.curSplit.queue = []) (hph : s.phaserWaits = false)
include hquad hq hph

theorem execEvpop_owned (hown : (s.ctx s.curGroup.ctx).eqOwn = true) :
    execEvpop r try_ s = .next (s.scalarFault ⟨.perm, .system, 0⟩) := by
  rw [execEvpop, orderWord_go (beq_iff_eq.mpr hquad) (fun _ h => absurd h List.not_mem_nil) hq]
  simp [hph, hown]

variable (hown : (s.ctx s.curGroup.ctx).eqOwn = false)
include hown

/-- An empty queue makes EVPOP wait, or sets the flag under .try. -/
theorem execEvpop_empty
    (hempty : (s.ctx s.curGroup.ctx).eqSize = 0 ∨ (s.ctx s.curGroup.ctx).eqhead = (s.ctx s.curGroup.ctx).eqtail) :
    execEvpop r try_ s = if try_ then .next (s.flagged true) else .next s := by
  have hnone : s.oldestEvent s.curGroup.ctx = none := by simp [State.oldestEvent, hempty]
  rw [execEvpop, orderWord_go (beq_iff_eq.mpr hquad) (fun _ h => absurd h List.not_mem_nil) hq]
  simp only [hph, hown, hnone, Bool.false_eq_true, if_false]
  rfl

variable (hsize : (s.ctx s.curGroup.ctx).eqSize ≠ 0) (hheld : (s.ctx s.curGroup.ctx).eqhead ≠ (s.ctx s.curGroup.ctx).eqtail)
include hsize hheld

theorem execEvpop_held : execEvpop r try_ s =
    if s.memReady (s.eqKey (s.ctx s.curGroup.ctx) (s.ctx s.curGroup.ctx).eqhead.toNat) then
      ((s.dequeued s.curGroup.ctx).acquireDrop s.cur.core 3).finish fun sp =>
        (sp.putRecord r.toNat (s.oldestRecord s.curGroup.ctx)).setFlag false
    else .next s := by
  rw [execEvpop, orderWord_go (beq_iff_eq.mpr hquad) (fun _ h => absurd h List.not_mem_nil) hq]
  dsimp only
  rw [if_neg (by simp [hph]), if_neg (by simp [hown]), State.oldestEvent_eq hsize hheld]
  rfl

end

/-- The word completes with a record in four registers of its split. -/
theorem State.finish_record (u : State) (d n : Nat) :
    ∃ t, u.finish (fun sp => (sp.putRecord d n).setFlag false) = .next t ∧ ScalarFrame u t [d, d + 1, d + 2, d + 3] []
      ∧ FallsThrough u t ∧ t.curSplit.flag = false
      ∧ ∀ i, i < 4 → t.curSplit.sreg (d + i) = BitVec.ofNat 32 (n / 2 ^ (32 * i)) := by
  obtain ⟨regs, hregs⟩ := u.curSplit.putRecord_frame d n
  obtain ⟨t, hrun, hframe, hfalls, hs, -, hflag⟩ := u.finish_frame (fun sp => (sp.putRecord d n).setFlag false) [d, d + 1, d + 2, d + 3] []
    (by rw [hregs]; rfl) (fun j hj => Split.sreg_putRecord_out _ _ _ hj) (fun j _ => by rw [hregs]; rfl)
  refine ⟨t, hrun, hframe, hfalls, hflag, fun i hi => ?_⟩
  rw [← Split.sreg_putRecord_in u.curSplit d n hi, Split.sreg, hs]
  rfl

section
variable {s : State} {r : BitVec 6} {try_ : Bool} (hquad : r.toNat % 4 = 0) (hq : s.curSplit.queue = []) (hph : s.phaserWaits = false)
  (hown : (s.ctx s.curGroup.ctx).eqOwn = false) (hsize : (s.ctx s.curGroup.ctx).eqSize ≠ 0)
  (hheld : (s.ctx s.curGroup.ctx).eqhead ≠ (s.ctx s.curGroup.ctx).eqtail)
include hquad hq hph hown hsize hheld

theorem execEvpop_waits (hready : s.memReady (s.eqKey (s.ctx s.curGroup.ctx) (s.ctx s.curGroup.ctx).eqhead.toNat) = false) :
    execEvpop r try_ s = .next s := by
  rw [execEvpop_held hquad hq hph hown hsize hheld, hready]
  rfl

/-- EVPOP takes the oldest record into four registers, and the head of the queue moves on. -/
theorem execEvpop_pops (hready : s.memReady (s.eqKey (s.ctx s.curGroup.ctx) (s.ctx s.curGroup.ctx).eqhead.toNat) = true) :
    ∃ t, execEvpop r try_ s = .next t ∧ RegFrame s t [r.toNat, r.toNat + 1, r.toNat + 2, r.toNat + 3] [] ∧ FallsThrough s t
      ∧ t.curSplit.flag = false
      ∧ (∀ i, i < 4 → (t.curSplit.sreg (r.toNat + i)).toNat
          = ofBytes (s.mem.readN (s.eqKey (s.ctx s.curGroup.ctx) (s.ctx s.curGroup.ctx).eqhead.toNat + 4 * i) 4))
      ∧ t.ctx s.curGroup.ctx = { s.ctx s.curGroup.ctx with
          eqhead := ringNext (s.ctx s.curGroup.ctx).eqhead (s.ctx s.curGroup.ctx).eqSize } := by
  rw [execEvpop_held hquad hq hph hown hsize hheld, if_pos hready]
  obtain ⟨u, hu⟩ : ∃ u, u = (s.dequeued s.curGroup.ctx).acquireDrop s.cur.core 3 := ⟨_, rfl⟩
  have hm : u.mem = s.mem := by rw [hu]; rfl
  have hg : u.groups = s.groups := by rw [hu]; rfl
  have hc : u.cur = s.cur := by rw [hu]; rfl
  obtain ⟨t, hrun, hframe, hfalls, hflag, hregs⟩ := u.finish_record r.toNat (s.oldestRecord s.curGroup.ctx)
  rw [← hu]
  refine ⟨t, hrun, RegFrame.of_groups hm hg hc hframe.regs, FallsThrough.of_groups hg hc hfalls, hflag, fun i hi => ?_, ?_⟩
  · rw [hregs i hi, State.oldestRecord_word s _ hi]
  · have hctxs : t.ctxs = (s.dequeued s.curGroup.ctx).ctxs := by
      rw [hframe.rest, hu]
      rfl
    rw [State.ctx, hctxs]
    exact Tab.get_put_same _ _ _ _

end

/-! ### EVPOST (R140, R144) -/

/-- The words of a record that EVPOST posts: three registers, the low bytes of the fourth, and the record's kind. -/
theorem postRecord_fields (sp : Split) (a : Nat) : postRecord sp a < 2 ^ 128
    ∧ (∀ i, i < 3 → postRecord sp a / 2 ^ (32 * i) % 2 ^ 32 = (sp.sreg (a + i)).toNat)
    ∧ postRecord sp a / 2 ^ 96 % 2 ^ 24 = (sp.sreg (a + 3)).toNat % 2 ^ 24 ∧ postRecord sp a / 2 ^ 120 = 2 := by
  have h0 := (sp.sreg a).isLt
  have h1 := (sp.sreg (a + 1)).isLt
  have h2 := (sp.sreg (a + 2)).isLt
  unfold postRecord
  refine ⟨by omega, fun i hi => ?_, by omega, by omega⟩
  interval_cases i <;> norm_num <;> omega

theorem State.flagged_s (u : State) (flag : Bool) : (u.flagged flag).curSplit.s = u.curSplit.s := by
  rw [State.flagged, State.advance, State.curSplit_modCur, State.curSplit_modCur]
  rfl

section
variable {s : State} {r : BitVec 6} (hquad : r.toNat % 4 = 0) (hq : s.curSplit.queue = []) (hph : s.phaserWaits = false)
  (hl : Landed s [r.toNat, r.toNat + 1, r.toNat + 2, r.toNat + 3])
include hquad hq hph hl

theorem execEvpost_eq : execEvpost r s =
    if s.released 3 = true ∧ s.eventReady s.curGroup.ctx = true then
      .next ((s.postEvent s.curGroup.ctx (postRecord s.curSplit r.toNat)).2.flagged
        (!(s.postEvent s.curGroup.ctx (postRecord s.curSplit r.toNat)).1))
    else .next s := by
  have hreads : (List.range 4).map (r.toNat + ·) = [r.toNat, r.toNat + 1, r.toNat + 2, r.toNat + 3] := rfl
  rw [execEvpost, hreads, orderWord_go (beq_iff_eq.mpr hquad) hl hq]
  cases hreleased : s.released 3 <;> cases hready : s.eventReady s.curGroup.ctx <;>
    simp [hph, hold, State.finish_flagged]

theorem execEvpost_waits (h : s.released 3 = false ∨ s.eventReady s.curGroup.ctx = false) : execEvpost r s = .next s := by
  rw [execEvpost_eq hquad hq hph hl, if_neg]
  rintro ⟨hreleased, hready⟩
  simp [hreleased, hready] at h

variable (hreleased : s.released 3 = true) (hready : s.eventReady s.curGroup.ctx = true)
include hreleased hready

/-- A record for a full queue is dropped and counted, and the flag says so. -/
theorem execEvpost_drops (hfull : (s.ctx s.curGroup.ctx).eqFull) :
    ∃ t, execEvpost r s = .next t ∧ RegFrame s t [] [] ∧ FallsThrough s t ∧ t.curSplit.flag = true
      ∧ t.ctx s.curGroup.ctx = { s.ctx s.curGroup.ctx with
          eqDrops := min 65535 ((s.ctx s.curGroup.ctx).eqDrops + 1), eqOvf := true } := by
  rw [execEvpost_eq hquad hq hph hl, if_pos ⟨hreleased, hready⟩, State.postEvent_drops _ hready hfull]
  obtain ⟨c', hc'⟩ : ∃ c' : Ctx, c' = { s.ctx s.curGroup.ctx with
    eqDrops := min 65535 ((s.ctx s.curGroup.ctx).eqDrops + 1), eqOvf := true } := ⟨_, rfl⟩
  rw [← hc']
  obtain ⟨hframe, hfalls, hflag⟩ := (s.setCtx s.curGroup.ctx c').flagged_frame true
  exact ⟨_, rfl, RegFrame.of_groups (s := s) (u := s.setCtx s.curGroup.ctx c') rfl rfl rfl hframe.regs,
    FallsThrough.of_groups (s := s) (u := s.setCtx s.curGroup.ctx c') rfl rfl hfalls, hflag, Tab.get_put_same _ _ _ _⟩

/-- A record for a queue with room enters the slot at its tail, which moves on. -/
theorem execEvpost_enters (hroom : ¬(s.ctx s.curGroup.ctx).eqFull) :
    ∃ t, execEvpost r s = .next t ∧ OtherSlots s t ∧ SplitAlone s t ∧ FallsThrough s t ∧ t.curSplit.flag = false
      ∧ t.curSplit.s = s.curSplit.s ∧ t.mem = (s.posted s.curGroup.ctx (postRecord s.curSplit r.toNat)).mem
      ∧ t.ctxs = (s.posted s.curGroup.ctx (postRecord s.curSplit r.toNat)).ctxs := by
  rw [execEvpost_eq hquad hq hph hl, if_pos ⟨hreleased, hready⟩, State.postEvent_enters _ hready hroom]
  have hpost := s.posted_frame s.curGroup.ctx (postRecord s.curSplit r.toNat)
  generalize s.posted s.curGroup.ctx (postRecord s.curSplit r.toNat) = u at hpost ⊢
  have hg : u.groups = s.groups := by rw [hpost]
  have hc : u.cur = s.cur := by rw [hpost]
  obtain ⟨hframe, hfalls, hflag⟩ := u.flagged_frame false
  refine ⟨_, rfl, OtherSlots.of_groups hg hc hframe.regs.slots, SplitAlone.of_groups hg hc hframe.regs.group,
    FallsThrough.of_groups hg hc hfalls, hflag, ?_, rfl, rfl⟩
  rw [u.flagged_s, State.curSplit_congr hg hc]

end

/-! ### The queue's registers (R139) -/

theorem headMayMove_iff {head tail idx : BitVec 16} {n : Nat} (hn : n ≠ 0) (hhead : head.toNat < n) : headMayMove head tail idx n = true ↔
    idx.toNat < n ∧ (idx.toNat + n - head.toNat) % n ≤ (tail.toNat + n - head.toNat) % n := by
  simp [headMayMove, hn, ringHeld_eq hn, Nat.mod_eq_of_lt hhead]

theorem headMayMove_beyond {head tail idx : BitVec 16} {n : Nat} (h : n ≤ idx.toNat) : headMayMove head tail idx n = false := by
  simp [headMayMove, h]

section
variable {s : State} {val : DWord}

theorem execEqbaseWrite_sets (s : State) (val : DWord) : execEqbaseWrite val s =
    .next (s.setCtx s.eqsel.toNat { s.ctx s.eqsel.toNat with eqbase := val, eqhead := 0, eqtail := 0 }) := rfl

theorem execEqheadWrite_ignored (h : (s.ctx s.eqsel.toNat).eqOwn = false
    ∨ headMayMove (s.ctx s.eqsel.toNat).eqhead (s.ctx s.eqsel.toNat).eqtail (val.setWidth 16) (s.ctx s.eqsel.toNat).eqSize = false) :
    execEqheadWrite val s = .next s := by
  rw [execEqheadWrite, State.writeEventReg]
  rcases h with h | h <;> simp [h]

theorem execEqheadWrite_moves (hown : (s.ctx s.eqsel.toNat).eqOwn = true)
    (hmay : headMayMove (s.ctx s.eqsel.toNat).eqhead (s.ctx s.eqsel.toNat).eqtail (val.setWidth 16) (s.ctx s.eqsel.toNat).eqSize = true) :
    execEqheadWrite val s = .next (s.setCtx s.eqsel.toNat { s.ctx s.eqsel.toNat with eqhead := val.setWidth 16 }) := by
  rw [execEqheadWrite, State.writeEventReg]
  simp [hown, hmay]

/-- A write of one context's registers leaves the others'. -/
theorem State.setCtx_alone (s : State) (k : Nat) (x : Ctx) : s.setCtx k x = { s with ctxs := (s.setCtx k x).ctxs }
    ∧ (s.setCtx k x).ctx k = x ∧ ∀ j, j ≠ k → (s.setCtx k x).ctx j = s.ctx j := by
  refine ⟨rfl, Tab.get_put_same _ _ _ _, fun j hj => ?_⟩
  rw [State.ctx_setCtx, if_neg hj.symm]

end

end Sys2Proof.Machine
end

section
namespace Sys2Proof.Proofs
open Sys2Proof.Machine Sys2Proof.Safety

/-! ### What software sees of the event queue -/

theorem Ctx.ringNext_eqSize {c : Ctx} (hsize : c.eqSize ≠ 0) (i : BitVec 16) : (ringNext i c.eqSize).toNat = (i.toNat + 1) % c.eqSize :=
  ringNext_toNat hsize c.eqSize_le i

/-- The fields of a record that EVPOST has entered, and the bytes around it. -/
theorem posted_fields {s t : State} {k a : Nat} (hm : t.mem = (s.posted k (postRecord s.curSplit a)).mem) :
    let K := s.eqKey (s.ctx k) (s.ctx k).eqtail.toNat
    (∀ i, i < 3 → ofBytes (t.mem.readN (K + 4 * i) 4) = (s.curSplit.sreg (a + i)).toNat)
    ∧ ofBytes (t.mem.readN (K + 12) 3) = (s.curSplit.sreg (a + 3)).toNat % 2 ^ 24 ∧ t.mem.read (K + 15) = 2
    ∧ ∀ j, j < K ∨ K + 16 ≤ j → t.mem.read j = s.mem.read j := by
  intro K
  obtain ⟨hlt, hwords, htag, hkind⟩ := postRecord_fields s.curSplit a
  have hrec : ofBytes (t.mem.readN K 16) = postRecord s.curSplit a := by
    rw [hm, s.posted_record, Nat.mod_eq_of_lt hlt]
  refine ⟨fun i hi => ?_, ?_, ?_, fun j hj => ?_⟩
  · rw [Memory.ofBytes_readN_field t.mem K (show 4 * i + 4 ≤ 16 by omega), hrec, ← Nat.mul_assoc]
    exact hwords i hi
  · rw [Memory.ofBytes_readN_field t.mem K (show 12 + 3 ≤ 16 by decide), hrec]
    exact htag
  · have hbyte : (t.mem.read (K + 15)).toNat = 2 := by
      rw [← Memory.ofBytes_readN_one, Memory.ofBytes_readN_field t.mem K (show 15 + 1 ≤ 16 by decide), hrec]
      exact congrArg (· % 2 ^ 8) hkind
    exact BitVec.eq_of_toNat_eq hbyte
  · rw [hm, s.posted_read_out k _ hj]

/-- Settles O44, from what EVPOP and EVPOST do in each state of their ring, and what its registers take. -/
theorem eventQueue : Obligations.EventQueue := by
  unfold Obligations.EventQueue
  intro size slot next
  have hsizes : Ctx.eqSize = size := funext Ctx.eqSize_eq
  have hslots : State.eqKey = slot := funext fun s => funext fun c => funext fun i => s.eqKey_eq c i
  clear_value size slot
  subst hsizes hslots
  refine ⟨fun s r try_ => ?words, fun s k record => ?waits, fun s val => ?registers⟩
  case words =>
    intro k c n regs full behind
    refine ⟨fun h => ⟨execEvpop_odd h, execEvpost_odd h⟩, fun hquad hq hph => ?_⟩
    refine ⟨execEvpop_owned hquad hq hph, fun hown hempty => ?_, fun hown hsize hheld => execEvpop_waits hquad hq hph hown hsize hheld,
      fun hown hsize hheld hready => ?_, fun hl h => execEvpost_waits hquad hq hph hl (.inl h),
      fun hl h => execEvpost_waits hquad hq hph hl (.inr (State.eventReady_waits h)), fun hl hreleased hfull hfirst => ?_,
      fun hl hreleased hroom hfirst hmem => ?_⟩
    · have hrun := execEvpop_empty (try_ := try_) hquad hq hph hown hempty
      refine ⟨fun htry => hrun.trans (by rw [htry]; rfl), fun htry => ⟨_, hrun.trans (by rw [htry]; rfl), s.flagged_frame true⟩⟩
    · obtain ⟨t, hrun, hframe, hfalls, hflag, hregs, hctx⟩ := execEvpop_pops (try_ := try_) hquad hq hph hown hsize hheld hready
      exact ⟨t, hrun, hframe, hfalls, hflag, hregs, _, Ctx.ringNext_eqSize hsize _, hctx⟩
    · exact execEvpost_drops hquad hq hph hl hreleased ((s.eventReady_iff k).mpr ⟨hfirst, .inl hfull⟩) hfull
    · have hready : s.eventReady k = true := (s.eventReady_iff k).mpr ⟨hfirst, .inr hmem⟩
      obtain ⟨t, hrun, hslots, hgroup, hfalls, hflag, hregs, hmem, hctxs⟩ := execEvpost_enters hquad hq hph hl hreleased hready hroom
      have hctx : t.ctx k = { c with eqtail := ringNext c.eqtail c.eqSize } := by
        rw [State.ctx, hctxs]
        exact s.posted_ctx k _
      have hsize : c.eqSize ≠ 0 := fun h => hroom (.inl h)
      exact ⟨t, hrun, hslots, hgroup, hfalls, hflag, hregs, ⟨_, Ctx.ringNext_eqSize hsize _, hctx⟩, posted_fields hmem⟩
  case waits =>
    intro c n h
    exact State.postEvent_waits record (State.eventReady_waits h)
  case registers =>
    intro k c n v
    have hv : (val.setWidth 16 : BitVec 16).toNat = v := BitVec.toNat_setWidth ..
    refine ⟨⟨_, execEqbaseWrite_sets s val, s.setCtx_alone k _⟩, fun h => execEqheadWrite_ignored (h.imp_right fun h => ?_),
      fun hown hsize hv' hhead _ => ⟨fun h => ?_, fun h => ?_⟩⟩
    · exact headMayMove_beyond (hv.symm ▸ h)
    · have hmay := (headMayMove_iff (tail := c.eqtail) (idx := val.setWidth 16) hsize hhead).mpr (hv.symm ▸ ⟨hv', h⟩)
      have hidx : BitVec.ofNat 16 v = val.setWidth 16 := by rw [← hv, BitVec.ofNat_toNat, BitVec.setWidth_eq]
      exact ⟨_, execEqheadWrite_moves hown hmay, hidx ▸ s.setCtx_alone k _⟩
    · refine execEqheadWrite_ignored (.inr ?_)
      rw [← Bool.not_eq_true, headMayMove_iff hsize hhead, hv]
      exact fun hmay => absurd hmay.2 h.not_ge

end Sys2Proof.Proofs
end

section
namespace Sys2Proof.Machine
open Sys2Proof.Safety

/-! ### The words that enter a card (R127) -/

/-- The card keeps what an instruction of kind `k` asks of its form. -/
def State.CardForm (s : State) (u : UnitRec) (c : Card) (k : Nat) : Prop :=
  c.headerOk k = true ∧ c.tailOk k = true ∧ c.rolesOk k = true ∧ s.mcastOk u c = true ∧ s.phoffOk u c = true ∧ c.selfOverlap = false

/-- The scratch descriptors of the card lie inside their partitions. -/
def State.CardInside (s : State) (u : UnitRec) (c : Card) : Prop := ∀ n, n < 4 → s.descInside u (c.desc n) = true

/-- The window of a cluster with a card entered. -/
def State.enterCard (s : State) (cl : Nat) (c : Card) : State :=
  s.setCluster cl { s.cluster cl with jobCtr := (s.cluster cl).jobCtr + 1, window := (s.cluster cl).window ++ [c] }

section
variable {s : State} {d a : BitVec 6} {k off : Nat} {u : UnitRec} (hl : Landed s [a.toNat]) (hq : s.curSplit.queue = [])
  (hu : s.unitOf s.curGroup = some u) (hoff : (s.curSplit.sreg a.toNat).toNat = off)
include hl hq hu hoff

theorem engineWord_misaligned (h : off % 16 ≠ 0) :
    engineWord k d a s = .next (s.scalarFault ⟨.align, .none, BitVec.ofNat 64 (2 ^ 61 + off)⟩) := by
  rw [engineWord, orderWord_go rfl hl hq]
  simp only [hu, hoff]
  exact if_pos (by simpa using h)

variable (halign : off % 16 = 0)
include halign

theorem engineWord_outside (h : u.psize < off + 96) :
    engineWord k d a s = .next (s.scalarFault ⟨.path, .none, BitVec.ofNat 64 (2 ^ 61 + off)⟩) := by
  rw [engineWord, orderWord_go rfl hl hq]
  simp only [hu, hoff]
  rw [if_neg (by simpa using halign)]
  exact if_pos h

variable (hin : off + 96 ≤ u.psize)
include hin

/-- An engine word whose card lies in the partition. -/
theorem engineWord_there : engineWord k d a s =
    if s.cardBusy u off then hold s
    else if !((s.readCard u off).headerOk k && (s.readCard u off).tailOk k && (s.readCard u off).rolesOk k && s.mcastOk u (s.readCard u off)
        && s.phoffOk u (s.readCard u off)) || (s.readCard u off).selfOverlap then illegalOperand s
    else if !((List.range 4).all fun n => s.descInside u ((s.readCard u off).desc n)) then
      .next (s.scalarFault ⟨.path, .none, BitVec.ofNat 64 (2 ^ 61 + off)⟩)
    else if Config.windowCards ≤ (s.cluster (u.core / 8)).window.length then hold s
    else (s.enterCard (u.core / 8) (s.readCard u off)).finish fun sp => sp.setS d.toNat (s.readCard u off).job := by
  rw [engineWord, orderWord_go rfl hl hq]
  simp only [hu, hoff]
  rw [if_neg (by simpa using halign), if_neg (Nat.not_lt.2 hin)]
  rfl

theorem engineWord_busy (h : s.cardBusy u off = true) : engineWord k d a s = .next s := by
  rw [engineWord_there hl hq hu hoff halign hin, if_pos h, hold]

variable (hfree : s.cardBusy u off = false)
include hfree

theorem engineWord_illegal (h : ¬s.CardForm u (s.readCard u off) k) : engineWord k d a s = .next (s.scalarTrap .illegalOperand) := by
  rw [engineWord_there hl hq hu hoff halign hin, if_neg (by simp [hfree]), if_pos, illegalOperand]
  rw [State.CardForm] at h
  by_contra hok
  simp_all

variable (hform : s.CardForm u (s.readCard u off) k)
include hform

/-- What the word does of a card that keeps its form. -/
theorem engineWord_legal : engineWord k d a s =
    if !((List.range 4).all fun n => s.descInside u ((s.readCard u off).desc n)) then
      .next (s.scalarFault ⟨.path, .none, BitVec.ofNat 64 (2 ^ 61 + off)⟩)
    else if Config.windowCards ≤ (s.cluster (u.core / 8)).window.length then hold s
    else (s.enterCard (u.core / 8) (s.readCard u off)).finish fun sp => sp.setS d.toNat (s.readCard u off).job := by
  obtain ⟨hheader, htail, hroles, hmcast, hphoff, hoverlap⟩ := hform
  rw [engineWord_there hl hq hu hoff halign hin, if_neg (by simp [hfree]),
    if_neg (by simp [hheader, htail, hroles, hmcast, hphoff, hoverlap])]

theorem engineWord_stray (h : ¬s.CardInside u (s.readCard u off)) :
    engineWord k d a s = .next (s.scalarFault ⟨.path, .none, BitVec.ofNat 64 (2 ^ 61 + off)⟩) := by
  rw [engineWord_legal hl hq hu hoff halign hin hfree hform, if_pos]
  rw [State.CardInside] at h
  simpa using h

variable (hinside : s.CardInside u (s.readCard u off))
include hinside

/-- What the word does of a card that may enter its window. -/
theorem engineWord_inside : engineWord k d a s =
    if Config.windowCards ≤ (s.cluster (u.core / 8)).window.length then hold s
    else (s.enterCard (u.core / 8) (s.readCard u off)).finish fun sp => sp.setS d.toNat (s.readCard u off).job := by
  rw [engineWord_legal hl hq hu hoff halign hin hfree hform, if_neg]
  rw [State.CardInside] at hinside
  simpa using hinside

theorem engineWord_full (h : 64 ≤ (s.cluster (u.core / 8)).window.length) : engineWord k d a s = .next s := by
  rw [engineWord_inside hl hq hu hoff halign hin hfree hform hinside]
  exact if_pos h

/-- The card enters the window of its cluster, and its job's number goes to the register. -/
theorem engineWord_enters (h : (s.cluster (u.core / 8)).window.length < 64) :
    ∃ t, engineWord k d a s = .next t ∧ RegFrame s t [d.toNat] [] ∧ FallsThrough s t ∧ t.curSplit.flag = s.curSplit.flag
      ∧ t = { s with groups := t.groups, clusters := t.clusters } ∧ t.curSplit.sreg d.toNat = (s.readCard u off).job
      ∧ t.clusters = (s.enterCard (u.core / 8) (s.readCard u off)).clusters := by
  rw [engineWord_inside hl hq hu hoff halign hin hfree hform hinside, if_neg (show ¬Config.windowCards ≤ _ from Nat.not_le.2 h)]
  obtain ⟨t, hrun, hframe, hfalls, hreg, hflag⟩ := writesS_finish (s := s.enterCard (u.core / 8) (s.readCard u off))
    (f := fun sp => sp.setS d.toNat (s.readCard u off).job) (flag := s.curSplit.flag) rfl
  refine ⟨t, hrun, RegFrame.of_groups (s := s) (u := s.enterCard (u.core / 8) (s.readCard u off)) rfl rfl rfl hframe.regs,
    FallsThrough.of_groups (s := s) (u := s.enterCard (u.core / 8) (s.readCard u off)) rfl rfl hfalls, hflag, ?_, hreg, ?_⟩
  · rw [hframe.rest]
    rfl
  · rw [hframe.rest]

end

theorem State.enterCard_cluster (s : State) (cl : Nat) (c : Card) : (s.enterCard cl c).cluster cl =
    { jobCtr := (s.cluster cl).jobCtr + 1, window := (s.cluster cl).window ++ [c] } := Tab.get_put_same _ _ _ _

end Sys2Proof.Machine
end

section
namespace Sys2Proof.Machine
open Sys2Proof.Safety

/-! ### The operators of XRED (R131) -/

theorem signedNat_eq_intValue {x : Nat} (h : x < 2 ^ 32) : signedNat 32 x = IntValue true 32 x := by
  rw [signedNat, IntValue, Nat.mod_eq_of_lt h]
  simp only [Bool.true_and, decide_eq_true_eq]
  split
  next hx => rw [if_neg (Nat.not_le.2 hx)]
  next hx => rw [if_pos (Nat.not_lt.1 hx)]

/-- The smaller of two signed words. -/
theorem pickWord_smaller {a b : Nat} (ha : a < 2 ^ 32) (hb : b < 2 ^ 32) :
    IntValue true 32 (pickWord true false a b) = min (IntValue true 32 a) (IntValue true 32 b) := by
  simp only [pickWord, if_true, Bool.false_eq_true, if_false, signedNat_eq_intValue ha, signedNat_eq_intValue hb]
  split
  next h => exact (min_eq_right h.le).symm
  next h => exact (min_eq_left (not_lt.1 h)).symm

/-- The larger of two signed words. -/
theorem pickWord_larger {a b : Nat} (ha : a < 2 ^ 32) (hb : b < 2 ^ 32) :
    IntValue true 32 (pickWord true true a b) = max (IntValue true 32 a) (IntValue true 32 b) := by
  simp only [pickWord, if_true, signedNat_eq_intValue ha, signedNat_eq_intValue hb]
  split
  next h => exact (max_eq_right h.le).symm
  next h => exact (max_eq_left (not_lt.1 h)).symm

theorem signW_b16_le (neg : Bool) : b16.signW neg ≤ 32768 := by cases neg <;> decide

theorem overflow_b16_lt (neg : Bool) : b16.overflow neg true false < 65536 := by cases neg <;> decide

/-- A magnitude within the format keeps its sign beside it, and a larger one overflows. -/
theorem mag_b16_lt (neg : Bool) (mag : Nat) :
    (if b16.maxBits < mag then b16.overflow neg true false else b16.signW neg + mag) < 65536 := by
  have hmax : b16.maxBits = 32639 := by decide
  have hsign := signW_b16_le neg
  split
  · exact overflow_b16_lt neg
  · omega

theorem roundFin_b16_lt (neg : Bool) (m : Nat) (e : Int) : b16.roundFin 0 false neg m e < 65536 := by
  unfold FloatFmt.roundFin
  split
  · exact (signW_b16_le neg).trans_lt (by decide)
  · exact mag_b16_lt neg _

/-- A value rounded into b16 is a pattern of 16 bits. -/
theorem roundWord_b16_lt (v : Val) : b16.roundWord 0 v < 65536 := by
  cases v with
  | nan src => exact (by decide : b16.canonNan < 65536)
  | inf neg => exact overflow_b16_lt neg
  | fin neg m e => exact roundFin_b16_lt neg m e

theorem addB16x2_low (a b : Nat) :
    addB16x2 a b % 65536 = b16.roundWord 0 ((b16.decode (a % 65536)).add (b16.decode (b % 65536)) false) := by
  rw [addB16x2, Nat.add_mul_mod_self_left, Nat.mod_eq_of_lt (roundWord_b16_lt _)]

theorem addB16x2_high (a b : Nat) :
    addB16x2 a b / 65536 = b16.roundWord 0 ((b16.decode (a / 65536)).add (b16.decode (b / 65536)) false) := by
  rw [addB16x2, Nat.add_mul_div_left _ _ (by decide), Nat.div_eq_of_lt (roundWord_b16_lt _), Nat.zero_add]

theorem Val.add_nan {a b : Val} (h : a.isNan = true ∨ b.isNan = true) (zneg : Bool) : (a.add b zneg).isNan = true := by
  cases a <;> cases b <;> simp_all [Val.isNan, Val.add]

/-- A sum with a NaN in it is the canonical NaN. -/
theorem addF32_nan {a b : Nat} (h : (f32.decode a).isNan = true ∨ (f32.decode b).isNan = true) : addF32 a b = 0x7FC00000 := by
  have hnan := Val.add_nan h false
  rw [addF32]
  cases hsum : (f32.decode a).add (f32.decode b) false with
  | nan src => exact (by decide : f32.canonNan = 0x7FC00000)
  | inf n => simp [hsum, Val.isNan] at hnan
  | fin n m e => simp [hsum, Val.isNan] at hnan

theorem redF32_nan {a b : Nat} (larger : Bool) (h : (f32.decode a).isNan = true ∨ (f32.decode b).isNan = true) :
    redF32 larger a b = 0x7FC00000 := by
  rw [redF32, if_pos (by simpa using h)]; decide

/-- A signed mantissa at a smaller exponent stands for the same number. -/
theorem alignTo_real (n : Bool) (m : Nat) {e e0 : Int} (h : e0 ≤ e) :
    ((alignTo (mantOf n m) e e0 : Int) : ℝ) * (2 : ℝ) ^ e0 = (if n then -1 else 1) * (m : ℝ) * (2 : ℝ) ^ e := by
  obtain ⟨d, rfl⟩ := Int.le.dest h
  rw [alignTo, add_sub_cancel_left, Int.toNat_natCast, zpow_add₀ (by norm_num), zpow_natCast]
  cases n <;> simp [mantOf] <;> ring

/-- The order of two finite values is the order of the numbers they stand for. -/
theorem Val.cmp_of_lt {a b : Val} {x y : ℝ} (ha : Stands a x) (hb : Stands b y) (h : x < y) : a.cmp b = -1 ∧ b.cmp a = 1 := by
  obtain ⟨n, m, e, rfl, rfl⟩ := ha
  obtain ⟨k, l, f, rfl, rfl⟩ := hb
  rw [← alignTo_real n m (min_le_left e f), ← alignTo_real k l (min_le_right e f),
    mul_lt_mul_iff_left₀ (zpow_pos (by norm_num) _), Int.cast_lt] at h
  constructor
  · simp only [Val.cmp]
    rw [if_pos (by omega)]
  · simp only [Val.cmp]
    rw [min_comm f e, if_neg (by omega), if_neg (by omega)]

section
variable {a b : Nat} {x y : ℝ} (hnan : ¬((f32.decode a).isNan = true ∨ (f32.decode b).isNan = true))
  (ha : Stands (f32.decode a) x) (hb : Stands (f32.decode b) y) (h : x < y)
include hnan ha hb h

theorem redF32_smaller : redF32 false a b = a := by
  rw [not_or] at hnan
  simp [redF32, FloatFmt.minBits, hnan, (Val.cmp_of_lt ha hb h).1]

theorem redF32_larger : redF32 true a b = b := by
  rw [not_or] at hnan
  simp [redF32, FloatFmt.maxBits2, hnan, (Val.cmp_of_lt ha hb h).1]

end

/-! ### The tree of R131 -/

/-- The tree over the values of `n` rows from row `lo` on. -/
theorem xredTree_range (op : Nat) (val : Nat → Nat) : ∀ (k lo n : Nat), n ≤ 2 ^ k → 1 ≤ n →
    xredTree op k ((List.range' lo n).map val) = RedTree (xredOp op) val k lo n
  | 0, lo, n, hk, hn => by
    obtain rfl : n = 1 := by omega
    simp [xredTree, RedTree]
  | k + 1, lo, n, hk, hn => by
    rw [xredTree, RedTree, List.length_map, List.length_range']
    split
    next h =>
      obtain rfl : n = 1 := by omega
      simp
    next h =>
      rw [pow_succ] at hk
      dsimp only
      rw [← List.map_take, ← List.map_drop, List.take_range'_of_length_ge (by omega), List.drop_range', mul_one,
        xredTree_range op val k lo _ (by omega) (by omega), xredTree_range op val k _ _ (by omega) (by omega)]

/-- The reduced value of an element from its rows: in sequence, or as a tree (R131). -/
theorem xredValue_rows (op order : Nat) (acc : Bool) (val : Nat → Nat) {rows : Nat} (h1 : 1 ≤ rows) (h16 : rows < 2 ^ 16) :
    xredValue op order (if acc then some (val rows) else none) ((List.range rows).map val) =
      if order = 0 then
        if acc then (List.range rows).foldl (fun z q => xredOp op z (val q)) (val rows)
        else (List.range (rows - 1)).foldl (fun z q => xredOp op z (val (q + 1))) (val 0)
      else if acc then xredOp op (val rows) (RedTree (xredOp op) val 17 0 rows) else RedTree (xredOp op) val 17 0 rows := by
  have htree := xredTree_range op val 17 0 rows (by omega) h1
  rw [← List.range_eq_range'] at htree
  obtain ⟨n, rfl⟩ : ∃ n, rows = n + 1 := ⟨rows - 1, by omega⟩
  by_cases ho : order = 0
  · cases acc
    · simp [xredValue, ho, List.range_succ_eq_map, List.foldl_map]
    · simp [xredValue, ho, List.foldl_map]
  · cases acc <;> simp [xredValue, ho, htree]

end Sys2Proof.Machine
end

section
namespace Sys2Proof.Machine
open Sys2Proof.Safety

/-! ### The keys of a table -/

theorem Tab.has_put {α : Type} (t : Tab α) (k j : Nat) (v : α) : Tab.has (Tab.put t k v) j = (k == j || Tab.has t j) := by
  induction t with
  | nil => simp [Tab.put, Tab.has]
  | cons p t ih =>
    obtain ⟨i, x⟩ := p
    have hcons : Tab.has ((i, x) :: t) j = (i == j || Tab.has t j) := rfl
    rw [Tab.put, hcons]
    split
    next h => subst h; simp [Tab.has]
    · split
      · simp [Tab.has]
      · rw [show Tab.has ((i, x) :: Tab.put t k v) j = (i == j || Tab.has (Tab.put t k v) j) from rfl, ih, Bool.or_left_comm]

theorem Tab.has_put_same {α : Type} (t : Tab α) (k : Nat) (v : α) : Tab.has (Tab.put t k v) k = true := by simp [Tab.has_put]

theorem Tab.has_del_same {α : Type} (t : Tab α) (k : Nat) : Tab.has (Tab.del t k) k = false := by
  simp [Tab.has, Tab.del]

/-! ### The accesses of an element (R128) -/

theorem Card.mem_rowsLeft {c : Card} {i r : Nat} :
    r ∈ c.rowsLeft i ↔ r < c.rows + (if c.acc then 1 else 0) ∧ Tab.has c.rowVals (65536 * i + r) = false := by
  simp [Card.rowsLeft, below, b2n]

theorem Card.mem_targetsLeft {c : Card} {i j : Nat} :
    j ∈ c.targetsLeft i ↔ j < c.targetCores.length ∧ Tab.has c.sent (8 * i + j) = false := by
  simp [Card.targetsLeft, below]

/-- A choice among the places of a list that is not empty is one of its members. -/
theorem getD_mod_mem {l : List Nat} (h : l ≠ []) (n : Nat) : l.getD (n % l.length) 0 ∈ l := by
  have hlt : n % l.length < l.length := Nat.mod_lt _ (List.length_pos_iff.2 h)
  rw [List.getD_eq_getElem _ _ hlt]
  exact List.getElem_mem hlt

section
variable {c : Card} {i n : Nat}

theorem Card.nextStep_index (hk : c.kind = 2 ∨ c.kind = 3) (h : Tab.has c.idxs i = false) : c.nextStep i n = .index := by
  rw [Card.nextStep, if_pos (by rcases hk with hk | hk <;> simp [hk, h])]

section
variable (hidx : ¬((c.kind = 2 ∨ c.kind = 3) ∧ Tab.has c.idxs i = false))
include hidx

theorem Card.nextStep_listed : c.nextStep i n = if !Tab.has c.vals i then
    (if c.kind == 4 then .row ((c.rowsLeft i).getD (n % (c.rowsLeft i).length) 0) else .source)
    else .write ((c.targetsLeft i).getD (n % (c.targetsLeft i).length) 0) := by
  rw [Card.nextStep, if_neg (by simpa using hidx)]

theorem Card.nextStep_source (h : Tab.has c.vals i = false) (hk : c.kind ≠ 4) : c.nextStep i n = .source := by
  simp [Card.nextStep_listed hidx, h, hk]

theorem Card.nextStep_row (h : Tab.has c.vals i = false) (hk : c.kind = 4) (hleft : c.rowsLeft i ≠ []) : ∃ r, c.nextStep i n = .row r
    ∧ r < c.rows + (if c.acc then 1 else 0) ∧ Tab.has c.rowVals (65536 * i + r) = false :=
  ⟨_, by simp only [Card.nextStep_listed hidx, h, hk, Bool.not_false, beq_self_eq_true, if_true],
    Card.mem_rowsLeft.1 (getD_mod_mem hleft n)⟩

theorem Card.nextStep_write (h : Tab.has c.vals i = true) (hleft : c.targetsLeft i ≠ []) :
    ∃ j, c.nextStep i n = .write j ∧ j < c.targetCores.length ∧ Tab.has c.sent (8 * i + j) = false :=
  ⟨_, by simp only [Card.nextStep_listed hidx, h, Bool.not_true, Bool.false_eq_true, if_false],
    Card.mem_targetsLeft.1 (getD_mod_mem hleft n)⟩

end

/-- A row is read for XRED alone. -/
theorem Card.kind_of_row {r : Nat} (h : c.nextStep i n = .row r) : c.kind = 4 := by
  unfold Card.nextStep at h
  split_ifs at h with h1 h2 h3
  simpa using h3

end

/-! ### The targets of a multicast (R128) -/

/-- The member of a filtered range that stands at `j` has `j` members below it. -/
theorem getElem_below (f : Nat → Bool) : ∀ (n j : Nat) (h : j < (below n f).length),
    (below n f)[j] < n ∧ f (below n f)[j] = true ∧ ((List.range (below n f)[j]).filter f).length = j
  | 0, _, h => absurd h (by simp [below])
  | n + 1, j, h => by
    have hsucc : below (n + 1) f = below n f ++ if f n then [n] else [] := by
      rw [below, List.range_succ, List.filter_append, List.filter_cons, List.filter_nil]
      rfl
    by_cases hj : j < (below n f).length
    · obtain ⟨hlt, hf, hlen⟩ := getElem_below f n j hj
      simp only [hsucc, List.getElem_append_left hj]
      exact ⟨hlt.trans n.lt_succ_self, hf, hlen⟩
    · cases hf : f n with
      | false =>
        rw [hsucc, hf] at h
        exact absurd (by simpa using h) hj
      | true =>
        simp only [hsucc, hf, if_true, List.length_append, List.length_singleton] at h
        obtain rfl : j = (below n f).length := by omega
        simp only [hsucc, hf, if_true, List.getElem_concat_length]
        exact ⟨n.lt_succ_self, trivial, rfl⟩

theorem Card.targetCores_single {c : Card} (h : c.mcast = 0) : c.targetCores = [none] := by simp [Card.targetCores, h]

theorem Card.targetCore_single {c : Card} (h : c.mcast = 0) {j : Nat} (hj : j < c.targetCores.length) : c.targetCores.getD j none = none := by
  rw [Card.targetCores_single h] at hj ⊢
  obtain rfl : j = 0 := by simpa using hj
  rfl

/-- The targets of a multicast are the cores of its cluster that MCAST names, in their order. -/
theorem Card.targetCores_multi {c : Card} (h : c.mcast ≠ 0) {j : Nat} (hj : j < c.targetCores.length) :
    ∃ k, c.targetCores.getD j none = some (8 * (c.ag.core / 8) + k) ∧ k < 8 ∧ c.mcast.testBit k = true
      ∧ ((List.range k).filter fun q => c.mcast.testBit q).length = j := by
  have hcores : c.targetCores = (below 8 fun q => c.mcast.testBit q).map fun q => some (8 * (c.ag.core / 8) + q) := by
    simp [Card.targetCores, h, bitNat_eq_testBit, clusterOfCore]
  rw [hcores] at hj ⊢
  rw [List.length_map] at hj
  obtain ⟨hlt, hbit, hlen⟩ := getElem_below _ 8 j hj
  refine ⟨_, ?_, hlt, hbit, hlen⟩
  rw [List.getD_eq_getElem _ _ (by rwa [List.length_map]), List.getElem_map]

theorem Card.targetCores_pos (c : Card) : 0 < c.targetCores.length := by
  by_cases h : c.mcast = 0
  · simp [Card.targetCores_single h]
  · have hlt : c.mcast < 2 ^ 8 := Nat.mod_lt _ (by decide)
    obtain ⟨k, hk⟩ := Nat.exists_testBit_of_ne_zero h
    have hk8 : k < 8 := by
      by_contra hge
      rw [Nat.testBit_lt_two_pow (hlt.trans_le (Nat.pow_le_pow_right (by decide) (Nat.not_lt.1 hge)))] at hk
      cases hk
    refine List.length_pos_of_mem (a := some (8 * clusterOfCore c.ag.core + k)) ?_
    simp only [Card.targetCores, beq_iff_eq, h, if_false, List.mem_map, below, List.mem_filter, List.mem_range, bitNat_eq_testBit]
    exact ⟨k, ⟨hk8, hk⟩, rfl⟩

/-- The target of a write is one of the card's. -/
theorem Card.target_lt {c : Card} {i n j : Nat} (h : c.nextStep i n = .write j) : j < c.targetCores.length := by
  unfold Card.nextStep at h
  split_ifs at h
  injection h with h
  subst h
  by_cases hleft : c.targetsLeft i = []
  · simpa [hleft] using c.targetCores_pos
  · exact (Card.mem_targetsLeft.1 (getD_mod_mem hleft n)).1

/-! ### The card after an access (R128, R131) -/

/-- No target of the element is left once it has been written to `j`, where `j` was the only one left. -/
theorem Card.targetsLeft_put {c : Card} {i j : Nat} :
    (({ c with sent := Tab.put c.sent (8 * i + j) () } : Card).targetsLeft i).isEmpty = true ↔
      ∀ q, q < c.targetCores.length → q = j ∨ Tab.has c.sent (8 * i + q) = true := by
  rw [List.isEmpty_iff, List.eq_nil_iff_forall_not_mem]
  refine forall_congr' fun q => ?_
  rw [Card.mem_targetsLeft, not_and, Tab.has_put, Bool.or_eq_false_iff, not_and_or, beq_eq_false_iff_ne, not_not,
    Bool.not_eq_false]
  refine imp_congr Iff.rfl (or_congr ?_ Iff.rfl)
  omega

/-- The element has been written to all its targets but `j`. -/
theorem Card.wrote_last {c : Card} {i j : Nat} (h : ∀ q, q < c.targetCores.length → q = j ∨ Tab.has c.sent (8 * i + q) = true) :
    c.wrote i j = ({ c with sent := Tab.put c.sent (8 * i + j) () } : Card).performed i := by
  exact if_pos (Card.targetsLeft_put.2 h)

theorem Card.wrote_more {c : Card} {i j : Nat} (h : ¬∀ q, q < c.targetCores.length → q = j ∨ Tab.has c.sent (8 * i + q) = true) :
    c.wrote i j = { c with sent := Tab.put c.sent (8 * i + j) () } := by
  exact if_neg (mt Card.targetsLeft_put.1 h)

end Sys2Proof.Machine
end

section
namespace Sys2Proof.Machine
open Sys2Proof.Safety

/-! ### The card of a job in its cluster's window -/

/-- The card of a job in its cluster's window. -/
def State.jobCard (s : State) (cl job : Nat) : Option Card := (s.cluster cl).window.find? fun x => x.job.toNat == job

/-- A card that takes the place of its job's is the job's. -/
theorem State.jobCard_setCard {s u : State} {cl job : Nat} {c d : Card} (h : s.jobCard cl job = some c) (hu : u.clusters = s.clusters)
    (hjob : d.job = c.job) : (u.setCard cl d).jobCard cl job = some d := by
  have hcluster : u.cluster cl = s.cluster cl := by rw [State.cluster, hu, State.cluster]
  have hc : c.job.toNat = job := by simpa using List.find?_some h
  have hset : ((u.setCard cl d).cluster cl).window = (s.cluster cl).window.map fun x => if x.job == d.job then d else x := by
    rw [State.setCard, State.cluster, State.setCluster, Tab.get_put_same, hcluster]
  rw [State.jobCard, hset, List.find?_map]
  have hsame : ((fun x : Card => x.job.toNat == job) ∘ fun x => if x.job == d.job then d else x) = fun x => x.job.toNat == job := by
    funext x
    simp only [Function.comp_apply, beq_iff_eq]
    split
    next hx => rw [hx]
    next => rfl
  rw [hsame]
  unfold State.jobCard at h
  rw [h, Option.map_some, hjob, beq_self_eq_true, if_pos rfl]

/-! ### The packet of an access bears on no check (R43, R96, R102) -/

theorem State.cross_traffic (s : State) (gate ctx : Nat) (lease : Option Word) (a : Access) (va : DWord) (payload : Nat) :
    ∃ links turns, s.cross gate ctx lease a va payload = s.withTraffic s.served links turns := by
  unfold State.cross State.leave
  dsimp only
  generalize s.forwardNode _ _ _ _ = n
  obtain ⟨ls, ts, hleave⟩ := s.leaveFor_traffic gate (nodeOf va) va payload
  obtain ⟨ls', ts', hfar⟩ := (s.withTraffic s.served ls ts).leaveFor_traffic (dieOf va) n va payload
  rw [hleave]
  exact ⟨ls', ts', hfar⟩

/-- A packet that leaves is charged, served and carried; nothing else changes. -/
theorem State.engineSend_traffic (s : State) (cl : Nat) (c : Card) (i : Nat) (st : EngineStep) : ∃ spent served links turns,
    s.engineSend cl c i st = { s with spent := spent, served := served, links := links, turns := turns } := by
  unfold State.engineSend
  dsimp only
  split
  · obtain ⟨ls, ts, hcross⟩ := ((s.charge (engineSource cl) (c.charge i st)).noteWriter (s.engineChan cl (c.stepAddr i st)) cl).cross_traffic
      (cl / 8) c.ctx (some c.launch) st.access (c.stepAddr i st) (c.payload i st)
    rw [hcross]
    split <;> exact ⟨_, _, _, _, rfl⟩
  · exact ⟨s.spent, s.served, s.links, s.turns, rfl⟩

/-- What the packet of an access leaves as it is. -/
structure State.SentAlike (s u : State) : Prop where
  mem         : u.mem = s.mem
  clusters    : u.clusters = s.clusters
  elemCheck   : u.elemCheck = s.elemCheck
  transitOf   : u.transitOf = s.transitOf
  unreachable : u.unreachable = s.unreachable
  expanderBad : u.expanderBad = s.expanderBad
  line        : u.line = s.line
  tagFor      : u.tagFor = s.tagFor

theorem State.engineSend_alike (s : State) (cl : Nat) (c : Card) (i : Nat) (st : EngineStep) : s.SentAlike (s.engineSend cl c i st) := by
  obtain ⟨spent, served, links, turns, h⟩ := s.engineSend_traffic cl c i st
  generalize s.engineSend cl c i st = u at h
  have hword : u.ctxWord = s.ctxWord := by subst h; rfl
  have hnode : u.node = s.node := by subst h; rfl
  have hdie : u.ownDie = s.ownDie := by subst h; rfl
  have hpopulated : u.populated = s.populated := by subst h; rfl
  have hkey : u.keyOn = s.keyOn := by
    funext di ctx
    rw [State.keyOn, State.keyOn, hword]
  have hkeyed : u.keyedFor = s.keyedFor := by
    funext die ctx va
    rw [State.keyedFor, State.keyedFor, hnode, hdie, hkey]
  have hcheck : u.elemCheck = s.elemCheck := by
    unfold State.elemCheck
    rw [hpopulated, hkeyed]
  subst h
  exact ⟨rfl, rfl, hcheck, rfl, rfl, rfl, rfl, rfl⟩

/-- No packet leaves for an access that stays within the scratchpads, that fails its requester's check, or whose place a larger element
has taken (R98, R106, R128). -/
theorem State.engineSend_none {s : State} {cl : Nat} {c : Card} {i : Nat} {st : EngineStep}
    (h : translated (pathOf (c.stepAddr i st)) = false ∨ s.elemCheck c (c.desc (c.stepDesc st)) (c.stepAddr i st) (c.stepBytes st) ≠ 0
      ∨ (st.writes = true ∧ c.beaten i = true)) : s.engineSend cl c i st = s := by
  refine if_neg ?_
  rcases h with h | h | ⟨hw, hb⟩ <;> simp [State.engineSends, Card.opens, *]

/-- Such an access is always ready. -/
theorem State.engineReady_free {s : State} {cl : Nat} {c : Card} {i : Nat} {st : EngineStep}
    (h : translated (pathOf (c.stepAddr i st)) = false ∨ s.elemCheck c (c.desc (c.stepDesc st)) (c.stepAddr i st) (c.stepBytes st) ≠ 0
      ∨ (st.writes = true ∧ c.beaten i = true)) : s.engineReady cl c i st = true := by
  rcases h with h | h | ⟨hw, hb⟩ <;> simp [State.engineReady, *]

/-! ### The turn of an element (R128) -/

section
variable {s : State} {cl job i : Nat} {c : Card} (hcard : s.jobCard cl job = some c) (hstarted : c.started = true) (hstatus : c.status = 0)
  (hi : i < c.elems) (hperf : Tab.has c.perf i = false)
include hcard hstarted hstatus hi hperf

theorem State.engineTurn_eq : s.engineTurn cl job i = if s.engineReady cl c i (c.nextStep i (Config.freeNat s.tick 40)) then
    (s.engineSend cl c i (c.nextStep i (Config.freeNat s.tick 40))).engineStep cl c i (c.nextStep i (Config.freeNat s.tick 40)) else s := by
  have hruns : c.runs i = true := by simp [Card.runs, hstarted, hstatus, hi, hperf]
  unfold State.jobCard at hcard
  rw [State.engineTurn, hcard]
  dsimp only
  rw [hruns, Bool.true_and]

end

/-! ### A step of an element (R128, R129, R131) -/

theorem Card.opened_ite (c : Card) (b : Bool) (o : Tab Unit) :
    (if b then { c with opened := o } else c) = { c with opened := if b then o else c.opened } := by cases b <;> rfl

section
variable {s : State} {cl : Nat} {c : Card} {i : Nat}

/-- A read that fails stops the job. -/
theorem State.engineStep_unread {st : EngineStep} (hst : st.writes = false) {e : Nat} {v : State}
    (h : s.engineRead c (c.desc (c.stepDesc st)) (c.stepAddr i st) (c.stepBytes st) (c.opens i st) = (.error e, v)) :
    ∃ o, s.engineStep cl c i st = v.failCard cl { c with opened := o } i e (c.stepAddr i st) := by
  cases st with
  | write j => cases hst
  | index | row | source =>
    simp only [State.engineStep, h, Card.opened_ite]
    exact ⟨_, rfl⟩

/-- A value that is read enters the card. -/
theorem State.engineStep_read {st : EngineStep} (hst : st.writes = false) {x : Nat} {v : State}
    (h : s.engineRead c (c.desc (c.stepDesc st)) (c.stepAddr i st) (c.stepBytes st) (c.opens i st) = (.ok x, v)) :
    ∃ o, s.engineStep cl c i st = v.setCard cl (({ c with opened := o } : Card).took i st x) := by
  cases st with
  | write j => cases hst
  | index | row | source =>
    simp only [State.engineStep, h, Card.opened_ite]
    exact ⟨_, rfl⟩

/-- An element whose place a larger one has taken has been performed. -/
theorem State.engineStep_beaten (j : Nat) (hb : c.beaten i = true) : s.engineStep cl c i (.write j) = s.setCard cl (c.performed i) :=
  if_pos hb

/-- A write enters the card, or stops the job. -/
theorem State.engineStep_write (j : Nat) (hb : c.beaten i = false) : ∃ o mirror, ∀ e v,
    s.engineWrite c (c.targetCores.getD j none) (c.stepAddr i (.write j)) c.esize (Tab.get 0 c.vals i).toNat (c.opens i (.write j)) mirror
      = (e, v) →
    s.engineStep cl c i (.write j) = if e = 0 then v.setCard cl (({ c with opened := o } : Card).wrote i j)
      else v.failCard cl { c with opened := o } i e (c.stepAddr i (.write j)) := by
  simp only [State.engineStep, hb, Bool.false_eq_true, if_false, Card.opened_ite]
  cases !Tab.has c.opened (c.mirrorKey i (.write j)) && s.engineMirrors c (c.stepAddr i (.write j)) with
  | false => exact ⟨_, none, fun e v h => by rw [if_neg (by decide), h]; cases e <;> rfl⟩
  | true => exact ⟨_, some _, fun e v h => by rw [if_pos rfl, h]; cases e <;> rfl⟩

end

end Sys2Proof.Machine
end

section
namespace Sys2Proof.Machine
open Sys2Proof.Safety

/-! ### What the reads and writes of an element answer (R128, R129, R271) -/

theorem State.ownerLook_ownerStep (s : State) (ctx : Nat) (lease : Option Word) (a : Access) (va : DWord) :
    OwnerStep s (s.ownerLook ctx lease a va).2 := by
  have h := s.leafFor_ownerStep ctx lease a va
  unfold State.ownerLook
  generalize s.leafFor ctx lease a va = r at h
  obtain ⟨f | l, t⟩ := r <;> exact h

theorem State.engineOwner_ownerStep (s : State) (c : Card) (a : Access) (va : DWord) (opens : Bool) :
    OwnerStep s (s.engineOwner c a va opens).2 :=
  .ite (s.ownerCheck_ownerStep _ _ _ _) (s.ownerLook_ownerStep _ _ _ _)

theorem OwnerStep.clusters {s t : State} (h : OwnerStep s t) : t.clusters = s.clusters := by rw [h.frame]
theorem ReadStep.clusters {s t : State} (h : ReadStep s t) : t.clusters = s.clusters := by rw [h.frame]
theorem MemStep.clusters {s t : State} (h : MemStep s t) : t.clusters = s.clusters := by rw [h.frame]

/-- The bytes that a read of an element finds, where it finds any. -/
def State.engineFound (s : State) (c : Card) (va : DWord) (n : Nat) (opens : Bool) : Option Nat :=
  if translated (pathOf va) then
    match s.engineOwner c .engineRead va opens with
    | (.ok (key, _), x) => (x.homeRead c.ctx (noPath va) key n).1.map ofBytes
    | (.error _, _) => none
  else (s.enginePlace c none va).map fun p => ofBytes (s.scrRead c.ctx p.1 p.2 n)

section
variable {s : State} {c : Card} {va : DWord} {n : Nat} {opens : Bool}

theorem State.engineRead_bad {d : Desc} (h : s.elemCheck c d va n ≠ 0) : s.engineRead c d va n opens = (.error (s.elemCheck c d va n), s) :=
  if_pos (by simpa using h)

/-- A read outside the compressed view answers what it finds, and changes no byte of memory and no card. -/
theorem State.engineRead_found {d : Desc} (h : s.elemCheck c d va n = 0) (hpath : pathOf va ≠ 4) {x : Nat}
    (hx : s.engineFound c va n opens = some x) :
    ∃ v, s.engineRead c d va n opens = (.ok x, v) ∧ v.mem = s.mem ∧ v.clusters = s.clusters := by
  unfold State.engineFound at hx
  unfold State.engineRead
  rw [h]
  by_cases ht : translated (pathOf va)
  · have howner := s.engineOwner_ownerStep c .engineRead va opens
    simp only [ht, if_true] at hx
    simp only [ht, if_true, bne_self_eq_false, Bool.false_eq_true, if_false]
    generalize s.engineOwner c .engineRead va opens = r at hx howner
    obtain ⟨f | ⟨key, l⟩, t⟩ := r
    · cases hx
    · dsimp only at hx ⊢
      have hread := t.homeRead_readStep c.ctx (noPath va) key n
      generalize t.homeRead c.ctx (noPath va) key n = q at hx hread
      obtain ⟨_ | bs, v⟩ := q
      · cases hx
      · refine ⟨v, ?_, hread.mem.trans howner.mem, hread.clusters.trans howner.clusters⟩
        simp only [beq_iff_eq, hpath, if_false]
        rw [show (bs.zipIdx.map fun x => x.1) = bs from List.zipIdx_map_fst 0 bs]
        rw [Option.some.inj hx]
  · simp only [ht, Bool.false_eq_true, if_false] at hx
    simp only [ht, bne_self_eq_false, Bool.false_eq_true, if_false]
    cases hplace : s.enginePlace c none va with
    | none => rw [hplace] at hx; cases hx
    | some p =>
      rw [hplace] at hx
      exact ⟨s, by rw [← Option.some.inj hx], rfl, rfl⟩

section
variable {core : Option Nat} {v : Nat} {mirror : Option Nat}

theorem State.engineWrite_bad (h : s.elemCheck c (c.desc 1) va n ≠ 0) :
    s.engineWrite c core va n v opens mirror = (s.elemCheck c (c.desc 1) va n, s) :=
  if_pos (by simpa using h)

variable (h : s.elemCheck c (c.desc 1) va n = 0)
include h

section
variable (ht : translated (pathOf va) = false) {k off : Nat} (hplace : s.enginePlace c core va = some (k, off))
include ht hplace

theorem State.engineWrite_scratch : s.engineWrite c core va n v opens mirror =
    if s.phaserHit k off n then (2, s) else (0, s.scrWrite c.ctx k off (toBytes v n)) := by
  unfold State.engineWrite
  simp only [h, ht, hplace, bne_self_eq_false, Bool.false_eq_true, if_false]

end

section
variable (ht : translated (pathOf va) = true)
include ht

/-- A write that the owner refuses has the status of the refusal. -/
theorem State.engineWrite_refused {f : FaultKind × Cause} (hf : (s.engineOwner c .engineWrite va opens).1 = .error f) :
    ∃ t, s.engineWrite c core va n v opens mirror = (statusOf f.1, t) ∧ t.mem = s.mem ∧ t.clusters = s.clusters := by
  have howner := s.engineOwner_ownerStep c .engineWrite va opens
  unfold State.engineWrite
  simp only [h, ht, if_true, bne_self_eq_false, Bool.false_eq_true, if_false]
  generalize s.engineOwner c .engineWrite va opens = r at hf howner
  obtain ⟨g | _, t⟩ := r
  · obtain rfl : g = f := Except.error.inj hf
    exact ⟨t, rfl, howner.mem, howner.clusters⟩
  · cases hf

/-- A write that the owner allows, of a line that is not in transit and opens for the context, puts its bytes there and nowhere else. -/
theorem State.engineWrite_home {key : Nat} {l : Leaf} (hk : (s.engineOwner c .engineWrite va opens).1 = .ok (key, l))
    (hs : s.transitOf c.ctx (noPath va) = none) (hu : s.unreachable key = false) (hx : s.expanderBad key = false)
    (hp : (s.line (key / 128)).poison = false)
    (hw : (s.line (key / 128)).written = false ∨ (s.line (key / 128)).tag = some (s.tagFor (ownerOf (noPath va)) c.ctx (noPath va))) :
    ∃ t, s.engineWrite c core va n v opens mirror = (0, t) ∧ t.mem = s.mem.writeN key (toBytes v n) ∧ t.clusters = s.clusters := by
  have howner := s.engineOwner_ownerStep c .engineWrite va opens
  unfold State.engineWrite
  simp only [h, ht, if_true, bne_self_eq_false, Bool.false_eq_true, if_false]
  generalize s.engineOwner c .engineWrite va opens = r at hk howner
  obtain ⟨_ | p, t⟩ := r
  · cases hk
  · obtain rfl : p = (key, l) := Except.ok.inj hk
    have hserve : t.serve c.ctx (noPath va) key = (key, none) := by rw [State.serve, howner.transitOf, hs]
    have hcharge (k : Nat) : t.chargeMirror c.ctx (noPath va) key k = t := by rw [State.chargeMirror, hserve]; rfl
    obtain ⟨hdone, hmem⟩ := State.homePut_clean (s := t) (bs := toBytes v n) (rel := none) ((howner.unreachable key).trans hu)
      ((howner.expanderBad key).trans hx) (by rw [howner.line, hp]) ((howner.transitOf _ _).trans hs)
      (by rw [howner.line, howner.tagFor]; simpa using hw.imp_right Or.inr)
    have hstep := t.homePut_memStep c.ctx (noPath va) key (toBytes v n) none
    generalize hput : t.homePut c.ctx (noPath va) key (toBytes v n) none = q at hdone hmem hstep
    obtain ⟨o, u⟩ := q
    obtain rfl : o = true := hdone
    refine ⟨u, ?_, by rw [hmem, howner.mem], hstep.clusters.trans howner.clusters⟩
    cases mirror with
    | none => simp only [hput]
    | some k => simp only [hcharge, hput]

end

end

end

theorem State.scrWrite_mem (s : State) (ctx core off : Nat) (bs : List Byte) :
    (s.scrWrite ctx core off bs).mem = (s.scrClaim ctx (scrKey core off)).mem.writeN (scrKey core off) bs := rfl

/-- The bytes of an element that has been written read back as its value. -/
theorem ofBytes_readN_written {m m' : Memory} {key v n : Nat} (h : m = m'.writeN key (toBytes v n)) :
    ofBytes (m.readN key n) = v % 2 ^ (8 * n) := by
  rw [h, Memory.ofBytes_readN_writeN, Nat.pow_mul]

/-! ### What a value that is read makes of its card (R131) -/

/-- What a value read changes of its card. -/
theorem Card.took_frame (c : Card) (i : Nat) (st : EngineStep) (x : Nat) :
    ∃ idxs rowVals vals, c.took i st x = { c with idxs := idxs, rowVals := rowVals, vals := vals } := by
  cases st with
  | index | source | write => exact ⟨_, _, _, rfl⟩
  | row r =>
    unfold Card.took
    dsimp only
    split <;> exact ⟨_, _, _, rfl⟩

theorem Card.took_index (c : Card) (i x : Nat) : Tab.has (c.took i .index x).idxs i = true
    ∧ (Tab.get 0 (c.took i .index x).idxs i).toNat = x % 2 ^ 32 ∧ (c.took i .index x).vals = c.vals :=
  ⟨Tab.has_put_same _ _ _, (congrArg BitVec.toNat (Tab.get_put_same _ _ _ _)).trans (BitVec.toNat_ofNat _ _), rfl⟩

theorem Card.took_source (c : Card) (i x : Nat) : Tab.has (c.took i .source x).vals i = true
    ∧ (Tab.get 0 (c.took i .source x).vals i).toNat = x % 2 ^ 64 :=
  ⟨Tab.has_put_same _ _ _, (congrArg BitVec.toNat (Tab.get_put_same _ _ _ _)).trans (BitVec.toNat_ofNat _ _)⟩

/-- The rows of an element with row `r` read. -/
def Card.rowsWith (c : Card) (i r x : Nat) : Card := { c with rowVals := Tab.put c.rowVals (65536 * i + r) (BitVec.ofNat 32 x) }

theorem Card.rowsWith_left {c : Card} {i r x : Nat} : ((c.rowsWith i r x).rowsLeft i).isEmpty = true ↔
    ∀ q, q < c.rows + (if c.acc then 1 else 0) → q = r ∨ Tab.has c.rowVals (65536 * i + q) = true := by
  rw [List.isEmpty_iff, List.eq_nil_iff_forall_not_mem]
  refine forall_congr' fun q => ?_
  have hput : Tab.has (c.rowsWith i r x).rowVals (65536 * i + q) = (65536 * i + r == 65536 * i + q || Tab.has c.rowVals (65536 * i + q)) :=
    Tab.has_put _ _ _ _
  rw [Card.mem_rowsLeft, not_and, hput, Bool.or_eq_false_iff, not_and_or, beq_eq_false_iff_ne, not_not, Bool.not_eq_false]
  refine imp_congr Iff.rfl (or_congr ?_ Iff.rfl)
  omega

theorem Card.rowsWith_get (c : Card) (i r x q : Nat) : (Tab.get 0 (c.rowsWith i r x).rowVals (65536 * i + q)).toNat =
    if q = r then x % 2 ^ 32 else (Tab.get 0 c.rowVals (65536 * i + q)).toNat := by
  show (Tab.get 0 (Tab.put c.rowVals _ _) _).toNat = _
  split
  next h => rw [h, Tab.get_put_same, BitVec.toNat_ofNat]
  next h => rw [Tab.get_put_ne _ _ _ (by omega)]

section
variable {c : Card} {i r x : Nat}

/-- With rows left to read, the row enters the card. -/
theorem Card.took_row (h : ¬∀ q, q < c.rows + (if c.acc then 1 else 0) → q = r ∨ Tab.has c.rowVals (65536 * i + q) = true) :
    c.took i (.row r) x = c.rowsWith i r x :=
  if_pos ((Bool.not_eq_true' _).mpr (Bool.eq_false_iff.2 (mt (Card.rowsWith_left (x := x)).1 h)))

/-- With the last row the element has its reduced value. -/
theorem Card.took_rows (h : ∀ q, q < c.rows + (if c.acc then 1 else 0) → q = r ∨ Tab.has c.rowVals (65536 * i + q) = true)
    {val : Nat → Nat} (hval : ∀ q, val q = if q = r then x % 2 ^ 32 else (Tab.get 0 c.rowVals (65536 * i + q)).toNat) :
    (c.took i (.row r) x).vals = Tab.put c.vals i (BitVec.ofNat 64
      (xredValue (c.hdr 119 116) (c.hdr 121 120) (if c.acc then some (val c.rows) else none) ((List.range c.rows).map val))) := by
  obtain rfl : val = fun q => (Tab.get 0 (c.rowsWith i r x).rowVals (65536 * i + q)).toNat := by
    funext q
    rw [hval, Card.rowsWith_get]
  have hlast : (!((c.rowsWith i r x).rowsLeft i).isEmpty) = false := (Bool.not_eq_false' _).mpr (Card.rowsWith_left.2 h)
  exact congrArg Card.vals (if_neg (Bool.eq_false_iff.1 hlast))

theorem Card.performed_perf (c : Card) (i : Nat) : Tab.has (c.performed i).perf i = true := Tab.has_put_same _ _ _

theorem Card.performed_vals (c : Card) (i : Nat) : Tab.has (c.performed i).vals i = false := Tab.has_del_same _ _

end

theorem Card.wrote_job (c : Card) (i j : Nat) : (c.wrote i j).job = c.job := by
  unfold Card.wrote
  dsimp only
  split <;> rfl

theorem Card.wrote_status (c : Card) (i j : Nat) : (c.wrote i j).status = c.status := by
  unfold Card.wrote
  dsimp only
  split <;> rfl

end Sys2Proof.Machine
end

section
namespace Sys2Proof.Machine
open Sys2Proof.Safety

/-! ### How an element's turn ends (R128, R129) -/

/-- The job of a card has stopped at an address with a status. -/
def State.Stopped (t : State) (cl job : Nat) (c : Card) (status : Nat) (va : DWord) : Prop :=
  ∃ y, t.jobCard cl job = some y ∧ y.status = status ∧ y.badAddr = va ∧ y.perf = c.perf

theorem State.failCard_stopped {s u : State} {cl job : Nat} {c : Card} (hcard : s.jobCard cl job = some c) (hu : u.clusters = s.clusters)
    (hstatus : c.status = 0) (o : Tab Unit) (i e : Nat) (va : DWord) :
    (u.failCard cl { c with opened := o } i e va).Stopped cl job c e va := by
  unfold State.failCard
  dsimp only
  rw [if_pos (by simpa using hstatus)]
  exact ⟨_, State.jobCard_setCard hcard hu rfl, rfl, rfl, rfl⟩

theorem statusOf_ne_zero (k : FaultKind) : statusOf k ≠ 0 := by cases k <;> simp [statusOf]

section
variable {s : State} {cl job i : Nat} {c : Card} (hcard : s.jobCard cl job = some c) (hstarted : c.started = true) (hstatus : c.status = 0)
  (hi : i < c.elems) (hperf : Tab.has c.perf i = false) {st : EngineStep} (hst : c.nextStep i (Config.freeNat s.tick 40) = st)
include hcard hstarted hstatus hi hperf hst

theorem State.engineTurn_waits (h : ¬s.engineReady cl c i st = true) : s.engineTurn cl job i = s := by
  subst hst
  rw [State.engineTurn_eq hcard hstarted hstatus hi hperf, if_neg h]

theorem State.engineTurn_ready (h : s.engineReady cl c i st = true) :
    s.engineTurn cl job i = (s.engineSend cl c i st).engineStep cl c i st := by
  subst hst
  rw [State.engineTurn_eq hcard hstarted hstatus hi hperf, if_pos h]

/-- An access for which no packet leaves takes its turn at once. -/
theorem State.engineTurn_free
    (h : translated (pathOf (c.stepAddr i st)) = false ∨ s.elemCheck c (c.desc (c.stepDesc st)) (c.stepAddr i st) (c.stepBytes st) ≠ 0
      ∨ (st.writes = true ∧ c.beaten i = true)) : s.engineTurn cl job i = s.engineStep cl c i st := by
  rw [State.engineTurn_ready hcard hstarted hstatus hi hperf hst (State.engineReady_free h), State.engineSend_none h]

/-- A read that fails its requester's check stops the job. -/
theorem State.engineTurn_unread (hw : st.writes = false)
    (h : s.elemCheck c (c.desc (c.stepDesc st)) (c.stepAddr i st) (c.stepBytes st) ≠ 0) : (s.engineTurn cl job i).mem = s.mem
      ∧ (s.engineTurn cl job i).Stopped cl job c (s.elemCheck c (c.desc (c.stepDesc st)) (c.stepAddr i st) (c.stepBytes st)) (c.stepAddr i st) := by
  rw [State.engineTurn_free hcard hstarted hstatus hi hperf hst (.inr (.inl h))]
  obtain ⟨o, hstep⟩ := State.engineStep_unread (cl := cl) hw (State.engineRead_bad (opens := c.opens i st) h)
  rw [hstep]
  exact ⟨rfl, State.failCard_stopped hcard rfl hstatus _ _ _ _⟩

/-- The value that a read finds enters the card. -/
theorem State.engineTurn_read (hw : st.writes = false)
    (h : s.elemCheck c (c.desc (c.stepDesc st)) (c.stepAddr i st) (c.stepBytes st) = 0) (hready : s.engineReady cl c i st = true)
    (hpath : pathOf (c.stepAddr i st) ≠ 4) {x : Nat}
    (hx : (s.engineSend cl c i st).engineFound c (c.stepAddr i st) (c.stepBytes st) (c.opens i st) = some x) :
    (s.engineTurn cl job i).mem = s.mem
      ∧ ∃ o, (s.engineTurn cl job i).jobCard cl job = some (({ c with opened := o } : Card).took i st x) := by
  have halike := s.engineSend_alike cl c i st
  rw [State.engineTurn_ready hcard hstarted hstatus hi hperf hst hready]
  obtain ⟨v, hread, hmem, hclusters⟩ := State.engineRead_found (d := c.desc (c.stepDesc st)) (by rw [halike.elemCheck, h]) hpath hx
  obtain ⟨o, hstep⟩ := State.engineStep_read (cl := cl) hw hread
  rw [hstep]
  obtain ⟨idxs, rowVals, vals, htook⟩ := Card.took_frame { c with opened := o } i st x
  exact ⟨hmem.trans halike.mem, o, State.jobCard_setCard hcard (hclusters.trans halike.clusters) (by rw [htook])⟩

section
variable {j : Nat} (hj : st = .write j)
include hj

/-- An element whose place a larger one has taken has been performed without a write. -/
theorem State.engineTurn_beaten (hb : c.beaten i = true) :
    (s.engineTurn cl job i).mem = s.mem ∧ (s.engineTurn cl job i).jobCard cl job = some (c.performed i) := by
  subst hj
  rw [State.engineTurn_free hcard hstarted hstatus hi hperf hst (.inr (.inr ⟨rfl, hb⟩)), State.engineStep_beaten _ hb]
  exact ⟨rfl, State.jobCard_setCard hcard rfl rfl⟩

variable (hb : c.beaten i = false)
include hb

/-- A write that fails its requester's check stops the job. -/
theorem State.engineTurn_unwritten (h : s.elemCheck c (c.desc 1) (c.stepAddr i st) c.esize ≠ 0) : (s.engineTurn cl job i).mem = s.mem
      ∧ (s.engineTurn cl job i).Stopped cl job c (s.elemCheck c (c.desc 1) (c.stepAddr i st) c.esize) (c.stepAddr i st) := by
  subst hj
  rw [State.engineTurn_free hcard hstarted hstatus hi hperf hst (.inr (.inl h))]
  obtain ⟨o, mirror, hstep⟩ := s.engineStep_write (cl := cl) j hb
  rw [hstep _ _ (State.engineWrite_bad h), if_neg h]
  exact ⟨rfl, State.failCard_stopped hcard rfl hstatus _ _ _ _⟩

variable (h : s.elemCheck c (c.desc 1) (c.stepAddr i st) c.esize = 0)
include h

section
variable (ht : translated (pathOf (c.stepAddr i st)) = false) {k off : Nat}
  (hplace : s.enginePlace c (c.targetCores.getD j none) (c.stepAddr i st) = some (k, off))
include ht hplace

/-- A scratchpad target that meets a live phaser stops the job with status 0x02 (R255). -/
theorem State.engineTurn_phaser (hhit : s.phaserHit k off c.esize = true) :
    (s.engineTurn cl job i).mem = s.mem ∧ (s.engineTurn cl job i).Stopped cl job c 2 (c.stepAddr i st) := by
  subst hj
  rw [State.engineTurn_free hcard hstarted hstatus hi hperf hst (.inl ht)]
  obtain ⟨o, mirror, hstep⟩ := s.engineStep_write (cl := cl) j hb
  rw [hstep 2 s (by rw [State.engineWrite_scratch h ht hplace, if_pos hhit]), if_neg (by decide)]
  exact ⟨rfl, State.failCard_stopped hcard rfl hstatus _ _ _ _⟩

/-- Any other scratchpad target takes the element. -/
theorem State.engineTurn_scratch (hhit : s.phaserHit k off c.esize = false) :
    ofBytes ((s.engineTurn cl job i).mem.readN (scrKey k off) c.esize) = (Tab.get 0 c.vals i).toNat % 2 ^ (8 * c.esize)
      ∧ ∃ o, (s.engineTurn cl job i).jobCard cl job = some (({ c with opened := o } : Card).wrote i j) := by
  subst hj
  rw [State.engineTurn_free hcard hstarted hstatus hi hperf hst (.inl ht)]
  obtain ⟨o, mirror, hstep⟩ := s.engineStep_write (cl := cl) j hb
  rw [hstep 0 _ (by rw [State.engineWrite_scratch h ht hplace, if_neg (by simp [hhit])]), if_pos rfl]
  exact ⟨ofBytes_readN_written (State.scrWrite_mem _ _ _ _ _), o,
    State.jobCard_setCard hcard (s.scrWrite_memStep _ _ _ _).clusters (Card.wrote_job _ _ _)⟩

end

section
variable (hready : s.engineReady cl c i st = true) (ht : translated (pathOf (c.stepAddr i st)) = true)
include hready ht

/-- A target that its owner refuses stops the job with the refusal's status. -/
theorem State.engineTurn_refused {f : FaultKind × Cause}
    (hf : ((s.engineSend cl c i st).engineOwner c .engineWrite (c.stepAddr i st) (c.opens i st)).1 = .error f) :
    (s.engineTurn cl job i).mem = s.mem ∧ (s.engineTurn cl job i).Stopped cl job c (statusOf f.1) (c.stepAddr i st) := by
  subst hj
  have halike := s.engineSend_alike cl c i (.write j)
  rw [State.engineTurn_ready hcard hstarted hstatus hi hperf hst hready]
  obtain ⟨o, mirror, hstep⟩ := (s.engineSend cl c i (.write j)).engineStep_write (cl := cl) j hb
  obtain ⟨v, hwrite, hmem, hclusters⟩ := State.engineWrite_refused (core := c.targetCores.getD j none) (v := (Tab.get 0 c.vals i).toNat)
    (mirror := mirror) (by rw [halike.elemCheck, h]) ht hf
  rw [hstep _ _ hwrite, if_neg (statusOf_ne_zero _)]
  exact ⟨hmem.trans halike.mem, State.failCard_stopped hcard (hclusters.trans halike.clusters) hstatus _ _ _ _⟩

/-- A target that its owner allows, whose line is not in transit and opens for the context, takes the element. -/
theorem State.engineTurn_home {key : Nat} {l : Leaf}
    (hk : ((s.engineSend cl c i st).engineOwner c .engineWrite (c.stepAddr i st) (c.opens i st)).1 = .ok (key, l))
    (hs : s.transitOf c.ctx (noPath (c.stepAddr i st)) = none) (hu : s.unreachable key = false) (hx : s.expanderBad key = false)
    (hp : (s.line (key / 128)).poison = false) (hw : (s.line (key / 128)).written = false
      ∨ (s.line (key / 128)).tag = some (s.tagFor (ownerOf (noPath (c.stepAddr i st))) c.ctx (noPath (c.stepAddr i st)))) :
    (s.engineTurn cl job i).mem = s.mem.writeN key (toBytes (Tab.get 0 c.vals i).toNat c.esize)
      ∧ ∃ o, (s.engineTurn cl job i).jobCard cl job = some (({ c with opened := o } : Card).wrote i j) := by
  subst hj
  have halike := s.engineSend_alike cl c i (.write j)
  rw [State.engineTurn_ready hcard hstarted hstatus hi hperf hst hready]
  obtain ⟨o, mirror, hstep⟩ := (s.engineSend cl c i (.write j)).engineStep_write (cl := cl) j hb
  obtain ⟨v, hwrite, hmem, hclusters⟩ := State.engineWrite_home (core := c.targetCores.getD j none) (v := (Tab.get 0 c.vals i).toNat)
    (mirror := mirror) (by rw [halike.elemCheck, h]) ht hk (by rw [halike.transitOf, hs]) (by rw [halike.unreachable, hu])
    (by rw [halike.expanderBad, hx]) (by rw [halike.line, hp]) (by rw [halike.line, halike.tagFor]; exact hw)
  rw [hstep _ _ hwrite, if_pos rfl]
  exact ⟨hmem.trans (by rw [halike.mem]), o, State.jobCard_setCard hcard (hclusters.trans halike.clusters) (Card.wrote_job _ _ _)⟩

end

end

end

end Sys2Proof.Machine
end

section
namespace Sys2Proof.Machine
open Sys2Proof.Safety

/-! ### Where an element lies (R128) -/

theorem Card.source_eq (c : Card) (i : Nat) (idx : Word) : c.source i idx =
    if c.kind = 1 then (c.desc 0).base + BitVec.ofNat 64 (i / c.count * c.sstride + i % c.count * c.esize)
    else if c.kind = 2 then (c.desc 0).base + BitVec.ofNat 64 (idx.toNat * c.sstride)
    else (c.desc 0).base + BitVec.ofNat 64 (i * c.esize) := by
  unfold Card.source
  dsimp only
  split
  next h => rw [if_pos h]
  next h => rw [if_neg (by omega), if_pos h]
  next h1 h2 => rw [if_neg h1, if_neg h2]

theorem Card.dest_eq (c : Card) (i : Nat) (idx : Word) : c.dest i idx =
    if c.kind = 1 then (c.desc 1).base + BitVec.ofNat 64 (i / c.count * c.dstride + i % c.count * c.esize)
    else if c.kind = 3 then (c.desc 1).base + BitVec.ofNat 64 (idx.toNat * c.dstride)
    else (c.desc 1).base + BitVec.ofNat 64 (i * c.esize) := by
  unfold Card.dest
  dsimp only
  split
  next h => rw [if_pos h]
  next h => rw [if_neg (by omega), if_pos h]
  next h1 h2 => rw [if_neg h1, if_neg h2]

/-- The index of a card whose kind reads no list bears on no address. -/
theorem Card.dest_idx {c : Card} (h : c.kind ≠ 3) (i : Nat) (a b : Word) : c.dest i a = c.dest i b := by
  rw [Card.dest_eq, Card.dest_eq, if_neg h, if_neg h]

section
variable {s : State} {c : Card} {u w : UnitRec} {va : DWord} (hu : s.units.find? (fun p => p.1 == c.unit) = some (c.unit, u))
include hu

theorem State.enginePlace_own (hw : s.scratchUnit u va = some w) :
    s.enginePlace c none va = some (w.core, w.pbase + va.toNat % 2 ^ 32) := by
  have hbits : bitsNat va.toNat 31 0 = va.toNat % 2 ^ 32 := by simp [bitsNat]
  simp only [State.enginePlace, hu, Option.map_some, hw, UnitRec.place, hbits]

theorem State.enginePlace_multicast {k : Nat} (hw : s.setUnit u k = some w) (hin : va.toNat % 2 ^ 32 < w.psize) :
    s.enginePlace c (some k) va = some (w.core, w.pbase + va.toNat % 2 ^ 32) := by
  have hbits : bitsNat va.toNat 31 0 = va.toNat % 2 ^ 32 := by simp [bitsNat]
  simp only [State.enginePlace, hu, Option.map_some, hw, Option.bind_some, UnitRec.place, hbits, if_pos hin]

end

/-- What an access that has been written makes of its card: performed with the last target, and noted before that. -/
def Card.Counted (y c : Card) (i j : Nat) : Prop :=
  let alone := ∀ q, q < c.targetCores.length → q = j ∨ Tab.has c.sent (8 * i + q) = true
  y.status = 0 ∧ (alone → Tab.has y.perf i = true ∧ Tab.has y.vals i = false)
    ∧ (¬alone → y.perf = c.perf ∧ y.vals = c.vals ∧ Tab.has y.sent (8 * i + j) = true)

theorem Card.wrote_counted {c : Card} (h : c.status = 0) (o : Tab Unit) (i j : Nat) :
    (({ c with opened := o } : Card).wrote i j).Counted c i j := by
  refine ⟨(Card.wrote_status _ _ _).trans h, fun halone => ?_, fun hmore => ?_⟩
  · rw [Card.wrote_last (c := { c with opened := o }) halone]
    exact ⟨Card.performed_perf _ _, Card.performed_vals _ _⟩
  · rw [Card.wrote_more (c := { c with opened := o }) hmore]
    exact ⟨rfl, rfl, Tab.has_put_same _ _ _⟩

end Sys2Proof.Machine
end

section
namespace Sys2Proof.Machine
open Sys2Proof.Safety

/-! ### JOB_START (R134, R135) -/

theorem execJobStart_eq {s : State} {cl job : Nat} {c : Card} (hcard : s.jobCard cl job = some c) : execJobStart cl job s =
    if c.started || ((s.cluster cl).before c.job).any c.conflicts || !s.cardReleased c then .next s
    else .next (s.setCard cl { c with started := true }) := by
  unfold State.jobCard at hcard
  simp only [execJobStart, hcard, hold]

/-- A job that has started, that conflicts with an earlier card, or that its issuer's accesses hold back. -/
def State.JobHeld (s : State) (cl : Nat) (c : Card) : Prop :=
  c.started = true ∨ (∃ e ∈ (s.cluster cl).window.takeWhile fun x => x.job != c.job, c.conflicts e = true) ∨ s.cardReleased c = false

theorem State.jobHeld_iff (s : State) (cl : Nat) (c : Card) : s.JobHeld cl c ↔
    (c.started || ((s.cluster cl).before c.job).any c.conflicts || !s.cardReleased c) = true := by
  simp [State.JobHeld, Cluster.before, or_assoc]

theorem State.setCard_window (s : State) (cl : Nat) (c : Card) : ((s.setCard cl c).cluster cl).window =
    (s.cluster cl).window.map fun x => if x.job = c.job then c else x := by
  rw [State.setCard, State.cluster, State.setCluster, Tab.get_put_same]
  simp only [beq_iff_eq]

/-! ### JOB_COMPLETE (R129, R137, R142, R366) -/

/-- The window of a cluster without the card of a job. -/
def State.dropCard (s : State) (cl : Nat) (c : Card) : State :=
  s.setCluster cl { s.cluster cl with window := (s.cluster cl).window.filter fun x => x.job != c.job }

theorem State.dropCard_window {s u : State} (cl : Nat) (c : Card) (h : u.clusters = s.clusters) :
    ((u.dropCard cl c).cluster cl).window = (s.cluster cl).window.filter fun x => x.job != c.job := by
  rw [State.dropCard, State.cluster, State.setCluster, Tab.get_put_same, State.cluster, h, State.cluster]

@[simp] theorem State.dropCard_groups (s : State) (cl : Nat) (c : Card) : (s.dropCard cl c).groups = s.groups := rfl
@[simp] theorem State.dropCard_ents (s : State) (cl : Nat) (c : Card) : (s.dropCard cl c).ents = s.ents := rfl
@[simp] theorem State.dropCard_mem (s : State) (cl : Nat) (c : Card) : (s.dropCard cl c).mem = s.mem := rfl

/-- A job that has stopped with no target under way, or that has performed its elements. -/
def Card.Done (c : Card) : Prop := c.status ≠ 0 ∧ c.sent = [] ∨ (c.started = true ∧ c.perf.length = c.elems)

theorem Card.done_iff (c : Card) : c.Done ↔ ((c.status != 0 && c.sent.isEmpty) || (c.started && c.perf.length == c.elems)) = true := by
  simp [Card.Done]

/-- The state once the completion record that a job asks for has been posted. -/
def State.jobPosted (s : State) (c : Card) (status : Nat) : State :=
  if c.ev || status != 0 then (s.postEvent c.ctx (c.record status)).2 else s

theorem Card.record_lt {c : Card} {status : Nat} (hs : status < 256) (hcore : c.ag.core < 256) (hdone : c.doneCount < 2 ^ 32) :
    c.record status < 2 ^ 128 := by
  have hkind : c.kind < 16 := Nat.mod_lt _ (by decide)
  have hjob := c.job.isLt
  have hhdr : c.hdr 31 16 < 2 ^ 16 := Nat.mod_lt _ (by decide)
  rw [Card.record]
  omega

section
variable {s : State} {cl job : Nat} {c : Card} (hcard : s.jobCard cl job = some c)
include hcard

theorem execJobComplete_waits (h : ¬c.Done) : execJobComplete cl job s = .next s := by
  unfold State.jobCard at hcard
  simp only [execJobComplete, hcard]
  rw [Card.done_iff] at h
  rw [if_pos ((Bool.not_eq_true' _).mpr (Bool.eq_false_iff.2 h)), hold]

variable (hdone : c.Done) {status : Nat} (harrive : s.jobArrive c = (status, s))
include hdone harrive

/-- A job that leaves its window, with the arrival on its phaser left out. -/
theorem execJobComplete_leaves : execJobComplete cl job s =
    .next (if c.status == 5 then ((s.jobPosted c status).dropCard cl c).jobLeaseEnd c else (s.jobPosted c status).dropCard cl c) := by
  unfold State.jobCard at hcard
  simp only [execJobComplete, hcard]
  rw [if_neg (by rw [(Card.done_iff c).1 hdone]; decide), harrive]
  rfl

theorem execJobComplete_silent (h5 : c.status ≠ 5) (h : c.ev = false) (hs : status = 0) :
    execJobComplete cl job s = .next (s.dropCard cl c) := by
  rw [execJobComplete_leaves hcard hdone harrive, if_neg (by simpa using h5), State.jobPosted, if_neg (by simp [h, hs])]

/-- A job that asks for its record enters it in the queue of its context. -/
theorem execJobComplete_posts (h5 : c.status ≠ 5) (h : c.ev = true ∨ status ≠ 0) (hs : status < 256) (hcore : c.ag.core < 256)
    (hcount : c.doneCount < 2 ^ 32) 
    (hroom : ringFull (s.ctx c.ctx).eqhead (s.ctx c.ctx).eqtail (s.ctx c.ctx).eqSize = false) (hready : s.eventReady c.ctx = true) :
    ∃ t, execJobComplete cl job s = .next t ∧ (t.groups = s.groups ∧ t.ents = s.ents
        ∧ (t.cluster cl).window = (s.cluster cl).window.filter fun y => y.job != c.job)
      ∧ ofBytes (t.mem.readN (s.eqKey (s.ctx c.ctx) (s.ctx c.ctx).eqtail.toNat) 16) = c.record status := by
  have hpost := State.postEvent_enters (c.record status) hready ((Ctx.ringFull_iff _).not.1 (by simp [hroom]))
  have hposted : s.jobPosted c status = (s.postEvent c.ctx (c.record status)).2 := if_pos (by simpa using h)
  have hframe := s.posted_frame c.ctx (c.record status)
  have hrecord := s.posted_record c.ctx (c.record status)
  rw [execJobComplete_leaves hcard hdone harrive, if_neg (by simpa using h5), hposted, hpost]
  generalize s.posted c.ctx (c.record status) = u at hframe hrecord ⊢
  have hg : u.groups = s.groups := by rw [hframe]
  have he : u.ents = s.ents := by rw [hframe]
  have hc : u.clusters = s.clusters := by rw [hframe]
  refine ⟨_, rfl, ⟨(u.dropCard_groups cl c).trans hg, (u.dropCard_ents cl c).trans he, State.dropCard_window cl c hc⟩, ?_⟩
  rw [State.dropCard_mem]
  exact hrecord.trans (Nat.mod_eq_of_lt (Card.record_lt hs hcore hcount))

end

theorem State.jobArrive_none {s : State} {c : Card} (h : c.phv = false) : s.jobArrive c = (c.status, s) := by
  simp [State.jobArrive, h]

/-- A job whose phaser has been freed ends with status 0x08 (R129, R137). -/
theorem State.jobArrive_gone {s : State} {c : Card} (h : c.phv = true) (hgone : c.phgone = true) (hs : c.status = 0) :
    s.jobArrive c = (8, s) := by
  unfold State.jobArrive
  simp only [h, hgone, hs, Bool.not_true, Bool.and_false, Bool.false_eq_true, if_false, beq_self_eq_true, if_true]
  split <;> rfl

/-! ### The end of a unit after a LEASE failure (R60, R366) -/

theorem SaveStep.units {s t : State} (h : SaveStep s t) : t.units = s.units := by rw [h.frame]

theorem State.postEvent_units (s : State) (ctx r : Nat) : (s.postEvent ctx r).2.units = s.units := by
  have h := (State.unitWrite_memStep s (s.eqKey (s.ctx ctx) (s.ctx ctx).eqtail.toNat) (toBytes r 16)).units
  unfold State.postEvent
  dsimp only
  split
  · rfl
  · split
    · exact State.setCtx_units _ _ _
    · exact (State.setCtx_units _ _ _).trans h

theorem State.jobPosted_units (s : State) (c : Card) (status : Nat) : (s.jobPosted c status).units = s.units := by
  rw [State.jobPosted, apply_ite State.units, State.postEvent_units, ite_self]

theorem State.modHolder_units (s : State) (e : Entry) (f : Group → Group) : (s.modHolder e f).units = s.units := by
  unfold State.modHolder
  dsimp only
  split
  · rfl
  · split <;> rfl

theorem State.recorded_units (s : State) (e : Entry) : (s.recorded e).units = s.units := by
  rw [State.recorded, apply_ite State.units, State.postNotice, State.postEvent_units, ite_self, State.modHolder_units]

theorem State.sendRecord_units (s : State) (ag : Agent) (tag ctx op : Nat) (bs : List Byte) :
    (s.sendRecord ag tag ctx op bs).units = s.units := by
  have hsave := s.saveWrite_saveStep ag tag ctx op (s.frameAddr ctx ag.core ag.slot ag.split) bs
  unfold State.sendRecord
  dsimp only
  generalize s.saveWrite _ _ _ _ _ _ = r at hsave
  obtain ⟨_ | _, t⟩ := r
  · exact (State.recorded_units _ _).trans hsave.units
  · exact hsave.units

/-- The end of a job whose owner refused its lease ends the unit that issued it. -/
theorem State.jobLeaseEnd_ended {s : State} {c : Card} {u : UnitRec} (hu : s.units.find? (fun p => p.1 == c.unit) = some (c.unit, u)) :
    (s.jobLeaseEnd c).UnitEnded c.unit := by
  unfold State.jobLeaseEnd
  dsimp only
  refine State.killUnit_ended (u := u) true ?_
  rw [State.snapFire_frame]
  show (State.units (State.sendRecord _ _ _ _ _ _)).find? _ = _
  rw [State.sendRecord_units, hu]

/-- A job that ends after a LEASE failure ends its unit. -/
theorem execJobComplete_leaseEnd {s : State} {cl job : Nat} {c : Card} (hcard : s.jobCard cl job = some c) (hdone : c.Done)
    (hphv : c.phv = false) (h5 : c.status = 5) {u : UnitRec} (hu : s.units.find? (fun p => p.1 == c.unit) = some (c.unit, u)) :
    ∃ t, execJobComplete cl job s = .next t ∧ t.UnitEnded c.unit := by
  rw [execJobComplete_leaves hcard hdone (State.jobArrive_none hphv), if_pos (by simpa using h5)]
  refine ⟨_, rfl, State.jobLeaseEnd_ended (u := u) ?_⟩
  rw [State.dropCard, State.setCluster, State.jobPosted_units, hu]

end Sys2Proof.Machine
end

section
namespace Sys2Proof.Proofs
open Sys2Proof.Machine Sys2Proof.Safety

/-! ### What software sees of the engines -/

/-- The engine words of R123, each with its kind. -/
theorem exec_engineWord {d a : BitVec 6} {k : Nat} {i : Instr}
    (h : (k, i) ∈ [(1, Instr.xcopy d a), (2, .xgath d a), (3, .xscat d a), (4, .xred d a)]) (s : State) : exec i s = engineWord k d a s := by
  simp only [List.mem_cons, List.not_mem_nil, or_false, Prod.mk.injEq] at h
  rcases h with ⟨rfl, rfl⟩ | ⟨rfl, rfl⟩ | ⟨rfl, rfl⟩ | ⟨rfl, rfl⟩ <;> rfl

/-- Settles O48, by the lemmas above for each word that enters a card, for the start and the completion of a job, and for the turn of an
element after the access that it takes. -/
theorem engineJobs : Obligations.EngineJobs := by
  unfold Obligations.EngineJobs
  refine ⟨?_, ?_, ?_, ?_, ?_⟩
  · intro s d a k i u hk hl hq hu off va c cl form inside
    have hexec := exec_engineWord hk s
    simp only [Waits, hexec]
    refine ⟨engineWord_misaligned hl hq hu rfl, engineWord_outside hl hq hu rfl,
      fun halign hin => ⟨engineWord_busy hl hq hu rfl halign hin, fun hfree => ⟨engineWord_illegal hl hq hu rfl halign hin hfree,
        engineWord_stray hl hq hu rfl halign hin hfree, engineWord_full hl hq hu rfl halign hin hfree, fun hform hinside hroom => ?_⟩⟩⟩
    obtain ⟨t, hrun, hframe, hfalls, hflag, hrest, hreg, hclusters⟩ :=
      engineWord_enters (d := d) hl hq hu rfl halign hin hfree hform hinside hroom
    refine ⟨t, hrun, hframe, hfalls, hflag, hrest, hreg, ?_, rfl, rfl, rfl, rfl, rfl, rfl⟩
    rw [State.cluster, hclusters]
    exact s.enterCard_cluster _ _
  · intro s cl job c hfind w held
    have hcard : s.jobCard cl job = some c := hfind
    have hheld : s.JobHeld cl c ↔ _ := s.jobHeld_iff cl c
    refine ⟨fun h => ?_, fun h => ?_, ?_⟩
    · exact (execJobStart_eq hcard).trans (if_pos (hheld.1 h))
    · exact ⟨_, (execJobStart_eq hcard).trans (if_neg (mt hheld.2 h)), rfl, s.setCard_window cl _⟩
    · intro done x n K leaves
      refine ⟨execJobComplete_waits hcard, fun hdone hphv h5 hev hs => ?_, fun hdone hphv h5 h hs hcore hcount hroom hready => ?_,
        fun hdone hphv hgone hs hcore hcount hroom hready => ?_, fun hdone hphv h5 u hu => ?_⟩
      · refine ⟨_, execJobComplete_silent hcard hdone (State.jobArrive_none hphv) h5 hev hs, ⟨?_, ?_, ?_⟩, ?_, ?_⟩
        · exact s.dropCard_groups cl c
        · exact s.dropCard_ents cl c
        · exact State.dropCard_window cl c rfl
        · exact fun k => by rw [State.dropCard_mem]
        · rfl
      · exact execJobComplete_posts hcard hdone (State.jobArrive_none hphv) h5 h hs hcore hcount hroom hready
      · exact execJobComplete_posts hcard hdone (State.jobArrive_gone hphv hgone hs) (by omega) (.inr (by decide)) (by decide)
          hcore hcount hroom hready
      · obtain ⟨t, hrun, v, hv, hended⟩ := execJobComplete_leaseEnd hcard hdone hphv h5 hu
        exact ⟨t, v, hrun, hv, hended⟩
  · intro s cl job i c hfind hstarted hstatus hi hperf col row idx listed D dst addr role bytes st t u va becomes check ready look got
    have hcard : s.jobCard cl job = some c := hfind
    have hst : c.nextStep i (Config.freeNat s.tick 40) = st := rfl
    have hrole : role st = c.desc (c.stepDesc st) := by cases st <;> rfl
    have hbytes : bytes st = c.stepBytes st := by cases st <;> rfl
    have hva : va = c.stepAddr i st := by
      show addr st = _
      clear_value st
      cases st with
      | index => rfl
      | source => exact (c.source_eq i (Tab.get 0 c.idxs i)).symm
      | write j => exact (c.dest_eq i (Tab.get 0 c.idxs i)).symm
      | row r =>
        have hk := Card.kind_of_row hst
        have hdest := (c.dest_eq i (Tab.get 0 c.idxs i)).symm.trans (Card.dest_idx (by omega) i _ 0)
        exact ite_congr rfl (fun _ => rfl) fun _ => hdest
    have hcheck : check = s.elemCheck c (c.desc (c.stepDesc st)) (c.stepAddr i st) (c.stepBytes st) := by
      rw [← hrole, ← hva, ← hbytes]
    have hgot : got = u.engineFound c va (bytes st) (c.opens i st) := by
      by_cases ht : translated (pathOf va)
      · rcases hq : u.engineOwner c .engineRead va (c.opens i st) with ⟨_ | _, x⟩ <;>
          simp only [got, look, State.engineFound, ht, if_true, hq]
      · have hu : u = s := State.engineSend_none (.inl (by rw [← hva]; simpa using ht))
        simp only [got, State.engineFound, ht, hu, Bool.false_eq_true, if_false]
    rw [hbytes] at hgot
    clear_value got check
    clear_value st va
    subst hva hcheck
    have hstopped {e : Nat} {x : DWord} (h : t.mem = s.mem ∧ t.Stopped cl job c e x) :
        SameBytes s t ∧ becomes fun y => y.status = e ∧ y.badAddr = x ∧ y.perf = c.perf := ⟨fun k => by rw [h.1], h.2⟩
    have hstoppedAt {e : Nat} {x : DWord} (h : t.mem = s.mem ∧ t.Stopped cl job c e x) :
        SameBytes s t ∧ becomes fun y => y.status = e ∧ y.badAddr = x := by
      obtain ⟨hbytes, y, hy, hstatus, haddr, -⟩ := hstopped h
      exact ⟨hbytes, y, hy, hstatus, haddr⟩
    refine ⟨fun hk h => ?_, fun hidx h => ⟨fun hk => ?_, fun hk hleft => ?_⟩, fun hidx h hleft => ?_,
      State.engineTurn_waits hcard hstarted hstatus hi hperf hst,
      fun hw h => hstopped (State.engineTurn_unread hcard hstarted hstatus hi hperf hst hw h), fun hw h hready hpath x hx => ?_,
      fun j hj => ?_⟩
    · rw [← hst]
      exact Card.nextStep_index hk h
    · rw [← hst]
      exact Card.nextStep_source hidx h hk
    · obtain ⟨r, hr⟩ := Card.nextStep_row (n := Config.freeNat s.tick 40) hidx h hk hleft
      exact ⟨r, hst ▸ hr⟩
    · obtain ⟨j, hj⟩ := Card.nextStep_write (n := Config.freeNat s.tick 40) hidx h hleft
      exact ⟨j, hst ▸ hj⟩
    · obtain ⟨hmem, o, hy⟩ := State.engineTurn_read hcard hstarted hstatus hi hperf hst hw h hready hpath (hgot ▸ hx)
      obtain ⟨idxs, rowVals, vals, htook⟩ := Card.took_frame { c with opened := o } i st x
      refine ⟨fun k => by rw [hmem], _, hy, by rw [htook]; exact hstatus, by rw [htook], by rw [htook], fun h => ?_, fun h => ?_, fun r h => ?_⟩
      · subst h
        exact Card.took_index _ i x
      · subst h
        exact Card.took_source _ i x
      · subst h
        intro val op last
        refine ⟨fun hmore => ?_, fun hlast h1 h16 => ?_⟩
        · rw [Card.took_row (c := { c with opened := o }) hmore]
          exact ⟨rfl, (Card.rowsWith_get _ i r x r).trans (if_pos rfl)⟩
        · rw [Card.took_rows (c := { c with opened := o }) (val := val) hlast fun _ => rfl, Tab.get_put_same, BitVec.toNat_ofNat, Nat.mod_mod]
          exact ⟨Tab.has_put_same _ _ _, congrArg (· % 2 ^ 64) (xredValue_rows _ _ _ _ h1 h16)⟩
    · have hlt := Card.target_lt (hst.trans hj)
      have hcounted {o : Tab Unit} (hy : t.jobCard cl job = some (({ c with opened := o } : Card).wrote i j)) :
          becomes fun y => y.Counted c i j := ⟨_, hy, Card.wrote_counted hstatus o i j⟩
      intro core v alone counted
      refine ⟨fun hm => ?_, fun hm => ?_, fun _ hb => ?_, fun hb h => ?_, fun hb h ht k off hplace _ => ⟨fun hhit => ?_, fun hhit => ?_⟩,
        fun hb h hready ht => ⟨fun f hf => ?_, fun key l hk _ hs hu hx hp hw => ?_⟩⟩
      · exact Card.targetCore_single hm hlt
      · exact Card.targetCores_multi hm hlt
      · obtain ⟨hmem, hy⟩ := State.engineTurn_beaten hcard hstarted hstatus hi hperf hst hj hb
        exact ⟨fun k => by rw [hmem], _, hy, hstatus, Card.performed_perf _ _⟩
      · subst hj
        exact hstopped (State.engineTurn_unwritten hcard hstarted hstatus hi hperf hst rfl hb h)
      · subst hj
        exact hstoppedAt (State.engineTurn_phaser hcard hstarted hstatus hi hperf hst rfl hb h ht hplace hhit)
      · subst hj
        obtain ⟨hread, o, hy⟩ := State.engineTurn_scratch hcard hstarted hstatus hi hperf hst rfl hb h ht hplace hhit
        exact ⟨hread, hcounted hy⟩
      · subst hj
        exact hstoppedAt (State.engineTurn_refused hcard hstarted hstatus hi hperf hst rfl hb h hready ht hf)
      · subst hj
        obtain ⟨hmem, o, hy⟩ := State.engineTurn_home hcard hstarted hstatus hi hperf hst rfl hb h hready ht hk hs hu hx hp hw
        refine ⟨ofBytes_readN_written hmem, fun k hk => ?_, hcounted hy⟩
        rw [hmem, Memory.read_writeN_out _ _ _ (by simpa [length_toBytes] using hk)]
  · intro s c core va u hu
    exact ⟨fun w hcore hw => by rw [hcore, State.enginePlace_own hu hw],
      fun k w hcore hw hin => by rw [hcore, State.enginePlace_multicast hu hw hin]⟩
  · intro op a b ha hb r sg nan
    have hop (op' : Nat) (h : op = op') : r = xredOp op' a b := by rw [← h]
    refine ⟨fun h => ?_, fun h => hop _ h, fun h => ?_, fun h => ?_, fun h => ?_, fun h hnan => ?_, fun h hnan x y hx hy hlt => ?_,
      fun h hnan x y hx hy hlt => ?_, hop _, hop _, hop _⟩
    · rcases h with h | h <;> exact hop _ h
    · rw [hop _ h]
      exact ⟨addB16x2_low a b, addB16x2_high a b⟩
    · rw [hop _ h]
      exact pickWord_smaller ha hb
    · rw [hop _ h]
      exact pickWord_larger ha hb
    · rcases h with h | h | h <;> rw [hop _ h]
      · exact addF32_nan hnan
      · exact redF32_nan false hnan
      · exact redF32_nan true hnan
    · rw [hop _ h]
      exact redF32_smaller hnan hx hy hlt
    · rw [hop _ h]
      exact redF32_larger hnan hx hy hlt

end Sys2Proof.Proofs
end
